-- ==== Sys2Proof/Word.lean ====
section
/-! DEFINITION. The words of the K4: an instruction word and a register value are 64 bits, a byte 8, a set of lanes 32. -/

namespace Sys2Proof

/-- A 64-bit instruction word, clause header or full-width register value (R44, R56). -/
abbrev Word := BitVec 64

/-- One byte of memory, scratchpad or a record (R3). -/
abbrev Byte := BitVec 8

/-- A set of lanes of one wave: bit l stands for lane l (R31, R198). -/
abbrev Lanes := BitVec 32

end Sys2Proof
end

