-- ==== Sys2Proof/Syntax.lean ====
section
/-! DEFINITION. The syntax of the part's steps: one constructor of `Instr` for each row of spec/opcode_table.json.
The first 149 are the instruction words of R61; the other 49 are the moves of the part and of its host that the table lists.
A move's arguments say which stream, message, command or register it is about: the choice of the next move is an input of the machine (R286). -/

namespace Sys2Proof

/-- Type codes 0 to 13 (R53). -/
inductive Ty where
  | i32 | n32 | i64 | n64 | f32 | f64 | f16 | bf16 | i16x2 | n16x2 | f16x2 | bf16x2 | i8x4 | n8x4
deriving DecidableEq, Repr

/-- Rounding modes, M[1:0] (R54). -/
inductive Rm where
  | rne | rtz | rup | rdn
deriving DecidableEq, Repr

/-- Scopes, M (R54, R288). -/
inductive Scope where
  | th | tm | cr | die | dev | sys
deriving DecidableEq, Repr

/-- A 10-bit operand specifier (R56): bits [9:8] choose the constructor, [7:0] stand in it. -/
inductive Opd where
  | v (n : BitVec 8)   -- a vector register, or h or s register in a handler or a producer (R95, R358)
  | x (n : BitVec 8)   -- latch entry or special register
  | k (c : BitVec 8)   -- signed constant
  | g (n : BitVec 8)   -- Gaffer register
deriving DecidableEq, Repr

/-- A predicate field (R56): [9:4] must be zero and [3:0] names p0 to p15. -/
abbrev PField := BitVec 10

/-- What every word carries beside its own fields: the guard and the hold (R52, R55, R59). -/
structure Pre where
  pg : BitVec 4
  pn : Bool
  hl : BitVec 2
deriving DecidableEq, Repr

/-- `ICMP` conditions (R141). -/
inductive Cmp where
  | eq | ne | lt | le | gt | ge
deriving DecidableEq, Repr

/-- `FCMP` conditions (R152). -/
inductive FCmp where
  | eq | ne | lt | le | gt | ge | un | ord
deriving DecidableEq, Repr

/-- `SHFL` modes (R145). -/
inductive Shfl where
  | idx | up | down | xor
deriving DecidableEq, Repr

/-- `VOTE` kinds (R146). -/
inductive Vote where
  | all | any | eq | ballot
deriving DecidableEq, Repr

/-- `LRED` operations (R147). -/
inductive Lred where
  | add | min | max | and | or | xor
deriving DecidableEq, Repr

/-- `ATOM` operations (R274). -/
inductive AtomOp where
  | add | min | max | and | or | xor | exch | inc | dec
deriving DecidableEq, Repr

/-- Access sizes of R260. -/
inductive Size where
  | nat | b8 | b16 | x2 | x4
deriving DecidableEq, Repr

/-- Field M of `LD` and `ST` (R260): a size, or an ordered access at a scope. -/
inductive MemMode where
  | sized (z : Size)
  | ordered (sc : Scope)
deriving DecidableEq, Repr

/-- `SLD` sizes (R359). -/
inductive SldSize where
  | nat | b8 | b16
deriving DecidableEq, Repr

/-- A stream of instructions of a crew (R23, R41, R42). -/
inductive Sid where
  | wave (team w : Nat)
  | gaffer
  | producer (team : Nat)
deriving DecidableEq, Repr

/-- What a Read, a Change or a completion timeout is about: a message, a tile fetch or an engine command (R286, R292). -/
inductive AccRef where
  | msg (id : Nat)
  | fetch (id : Nat)
  | cmd (id : Nat)
deriving DecidableEq, Repr

/-- The host function that makes a write (R400), and whether it acts for the secure world (R5). -/
structure HostFn where
  fn     : Nat
  secure : Bool
deriving DecidableEq, Repr

/-- Where a placement puts a crew, as far as the spec leaves it open (R25, R26, R92, R94):
for each team, in ascending rank, its core, wave slots, vector base, handler base and accumulator slots; and the Gaffer context. -/
structure Pick where
  cores  : List Nat
  slots  : List (List Nat)
  base0  : List Nat
  base3  : List Nat
  accs   : List (BitVec 16)
  gctx   : Nat
deriving DecidableEq, Repr

/-- What a member of a collective on another package sends (R367, R368): its rank, its arguments and its elements. -/
structure Remote where
  rank  : Nat
  op    : Nat
  ty    : Nat
  root  : Nat
  data  : List Word
deriving DecidableEq, Repr

/-- The firmware that a boot finds (R408): the image, its signature and the region table it writes (R223). -/
structure Firmware where
  image   : List Byte
  sig     : List Byte
  regions : List (Word × Word)
deriving DecidableEq, Repr

/-- The steps of the K4: the rows of spec/opcode_table.json. -/
inductive Instr where
  -- control (R161 to R168)
  | nop (p : Pre)
  | bra (p : Pre) (uni : Bool) (off : BitVec 30)
  | brx (p : Pre) (uni : Bool) (a : Opd)
  | call (p : Pre) (uni : Bool) (a : Opd) (off : BitVec 30)
  | callx (p : Pre) (uni : Bool) (d a : Opd)
  | ret (p : Pre) (uni : Bool) (a : Opd)
  | yield (p : Pre)
  | exit (p : Pre)
  -- integer and bit (R128 to R143)
  | iadd (p : Pre) (t : Ty) (sat : Bool) (d a b : Opd)
  | isub (p : Pre) (t : Ty) (sat : Bool) (d a b : Opd)
  | imul (p : Pre) (t : Ty) (d a b : Opd)
  | imulhi (p : Pre) (t : Ty) (d a b : Opd)
  | imad (p : Pre) (t : Ty) (d a b c : Opd)
  | iwmad (p : Pre) (t : Ty) (d a b c : Opd)
  | imin (p : Pre) (t : Ty) (d a b : Opd)
  | imax (p : Pre) (t : Ty) (d a b : Opd)
  | iabs (p : Pre) (t : Ty) (sat : Bool) (d a : Opd)
  | isad (p : Pre) (t : Ty) (d a b c : Opd)
  | iaddi (p : Pre) (t : Ty) (sat : Bool) (d a : Opd) (imm : BitVec 20)
  | lea (p : Pre) (t : Ty) (sh : BitVec 3) (d a b : Opd)
  | idp4 (p : Pre) (t : Ty) (sat xb : Bool) (d a b c : Opd)
  | and (p : Pre) (t : Ty) (d a b : Opd)
  | or (p : Pre) (t : Ty) (d a b : Opd)
  | xor (p : Pre) (t : Ty) (d a b : Opd)
  | andn (p : Pre) (t : Ty) (d a b : Opd)
  | shl (p : Pre) (t : Ty) (d a b : Opd)
  | shr (p : Pre) (t : Ty) (d a b : Opd)
  | sar (p : Pre) (t : Ty) (d a b : Opd)
  | rot (p : Pre) (t : Ty) (d a b : Opd)
  | bfx (p : Pre) (t : Ty) (d a b : Opd)
  | bfi (p : Pre) (t : Ty) (d a b c : Opd)
  | popc (p : Pre) (t : Ty) (d a : Opd)
  | clz (p : Pre) (t : Ty) (d a : Opd)
  | brev (p : Pre) (t : Ty) (d a : Opd)
  | movi (p : Pre) (t : Ty) (d : Opd) (imm : BitVec 20)
  | movhi (p : Pre) (t : Ty) (b40 : Bool) (d a : Opd) (imm : BitVec 20)
  | icmp (p : Pre) (t : Ty) (cc : Cmp) (d : PField) (a b : Opd)
  | plop (p : Pre) (lut : BitVec 4) (d a b c : PField)
  | sel (p : Pre) (t : Ty) (d a b : Opd) (c : PField)
  | mov (p : Pre) (t : Ty) (d a : Opd)
  -- lanes (R144 to R147)
  | shfl (p : Pre) (t : Ty) (mode : Shfl) (d a b c : Opd)
  | vote (p : Pre) (t : Ty) (kind : Vote) (d a : Opd)
  | matchl (p : Pre) (t : Ty) (d a : Opd)
  | lred (p : Pre) (t : Ty) (op : Lred) (d a : Opd)
  | p2v (p : Pre) (t : Ty) (ones : Bool) (d : Opd) (a : PField)
  | v2p (p : Pre) (t : Ty) (d : PField) (a : Opd)
  -- floating point (R148 to R156)
  | fadd (p : Pre) (t : Ty) (rm : Rm) (d a b : Opd)
  | fsub (p : Pre) (t : Ty) (rm : Rm) (d a b : Opd)
  | fmul (p : Pre) (t : Ty) (rm : Rm) (d a b : Opd)
  | ffma (p : Pre) (t : Ty) (rm : Rm) (d a b c : Opd)
  | fmin (p : Pre) (t : Ty) (d a b : Opd)
  | fmax (p : Pre) (t : Ty) (d a b : Opd)
  | fcmp (p : Pre) (t : Ty) (cc : FCmp) (d : PField) (a b : Opd)
  | fclass (p : Pre) (t : Ty) (d : PField) (a b : Opd)
  | fdiv (p : Pre) (t : Ty) (rm : Rm) (d a b : Opd)
  | fsqrt (p : Pre) (t : Ty) (rm : Rm) (d a : Opd)
  | frint (p : Pre) (t : Ty) (rm : Rm) (d a : Opd)
  | fabs (p : Pre) (t : Ty) (d a : Opd)
  | fneg (p : Pre) (t : Ty) (d a : Opd)
  | fdot (p : Pre) (t : Ty) (rm : Rm) (d a b c : Opd)
  | fexp2 (p : Pre) (t : Ty) (d a : Opd)
  | flog2 (p : Pre) (t : Ty) (d a : Opd)
  | fsin (p : Pre) (t : Ty) (d a : Opd)
  | fcos (p : Pre) (t : Ty) (d a : Opd)
  | frsq (p : Pre) (t : Ty) (d a : Opd)
  | frcp (p : Pre) (t : Ty) (d a : Opd)
  | ftanh (p : Pre) (t : Ty) (d a : Opd)
  -- conversions (R157 to R160)
  | cvt (p : Pre) (t : Ty) (rm : Rm) (d a : Opd) (pol : BitVec 8) (f : BitVec 4)
  | cvtn (p : Pre) (t : Ty) (rm : Rm) (pos : BitVec 2) (d a : Opd) (pol : BitVec 8) (f : BitVec 4)
  | cvtw (p : Pre) (t : Ty) (pos : BitVec 2) (d a : Opd) (pol : BitVec 8) (f : BitVec 4)
  -- memory (R258 to R282)
  | ld (p : Pre) (t : Ty) (m : MemMode) (d a : Opd) (off : BitVec 16) (hint : BitVec 3)
  | st (p : Pre) (t : Ty) (m : MemMode) (tag : Bool) (d a : Opd) (off : BitVec 16) (hint : BitVec 3)
  | lds (p : Pre) (t : Ty) (z : Size) (d a : Opd) (off : BitVec 16)
  | sts (p : Pre) (t : Ty) (z : Size) (d a : Opd) (off : BitVec 16)
  | ldrs (p : Pre) (t : Ty) (z : Size) (d a : Opd) (off : BitVec 16)
  | strs (p : Pre) (t : Ty) (z : Size) (d a : Opd) (off : BitVec 16)
  | pref (p : Pre) (l1 : Bool) (a : Opd) (off : BitVec 16) (hint : BitVec 3)
  | pin (p : Pre) (d a : Opd) (off : BitVec 16)
  | unpin (p : Pre) (a : Opd) (off : BitVec 16)
  | cctlIinv (p : Pre)
  | cctlL1 (p : Pre)
  | cctlEvict (p : Pre) (a : Opd) (off : BitVec 16)
  | cctlFlush (p : Pre) (a : Opd) (off : BitVec 16)
  | rrot (p : Pre) (bwd : Bool) (a b : Opd) (n : BitVec 12)
  | rrotMatch (crew : Nat)
  | fence (p : Pre) (sc : Scope)
  | atom (p : Pre) (t : Ty) (op : AtomOp) (d a b : Opd)
  | acas (p : Pre) (t : Ty) (d a b c : Opd)
  | gsadd (p : Pre) (a b : Opd)
  | gsflush (p : Pre) (a b : Opd)
  | gsflushAll (p : Pre)
  -- counters and barriers (R296 to R308)
  | wait (p : Pre) (ld st cp tl : BitVec 4)
  | barSync (p : Pre) (b : Opd) (n : BitVec 4)
  | barArv (p : Pre) (b : Opd) (n : BitVec 4)
  | cbarSync (p : Pre) (b : Opd) (n : BitVec 4)
  | cbarArv (p : Pre) (b : Opd) (n : BitVec 4)
  | tbinit (p : Pre) (a b : Opd)
  | tbarriveLane (p : Pre) (sc : Scope) (a : Opd)
  | tbarrivePath (p : Pre) (sc : Scope) (a : Opd)
  | tbexpect (p : Pre) (a b : Opd)
  | tbwait (p : Pre) (sc : Scope) (a b : Opd)
  -- queues (R335, R363, R364)
  | spawn (p : Pre) (d a b : Opd)
  | join (p : Pre) (a : Opd)
  | qres (p : Pre) (d a b : Opd)
  | qcommit (p : Pre) (a b c : Opd)
  | qpop (p : Pre) (t : Ty) (d : Opd) (n : BitVec 2)
  | qpeek (p : Pre) (d : Opd) (n : BitVec 2)
  -- tape and rendering (R371 to R390)
  | trec (p : Pre) (t : Ty) (a : Opd)
  | tspan (p : Pre)
  | tspanRc (p : Pre) (a b : Opd)
  | tspanArea (p : Pre) (a b : Opd)
  | tpop (p : Pre) (t : Ty) (d : Opd)
  | tapeRefillDone (crew : Nat) (sid : Sid) (lane : Nat)
  | tret (p : Pre)
  | raygen (p : Pre) (d a b c : Opd)
  | trace (p : Pre) (d a b : Opd)
  | traceAdjTri (p : Pre) (a b c : Opd)
  | traceAdjPatch (p : Pre) (a b c : Opd)
  | tsamp (p : Pre) (d a b c : Opd)
  | tsampAdj (p : Pre) (d a b c : Opd)
  | esamp (p : Pre) (d a b c : Opd)
  | renderResult (crew : Nat) (sid : Sid) (entry : Nat)
  -- tiles (R172 to R193)
  | tres (p : Pre) (n : BitVec 5) (a b : Opd)
  | tfetch (p : Pre) (sc : Scope) (core : BitVec 2) (grp : BitVec 4) (rec : BitVec 5) (n : BitVec 8)
  | tlds (p : Pre) (sc : Scope) (core : BitVec 2) (grp : BitVec 4) (rec : BitVec 5) (n : BitVec 8)
  | tmma (p : Pre) (core : BitVec 2) (tile : BitVec 4) (ra rb : BitVec 5) (n : BitVec 8) (lehr zi bnd w64 : Bool)
  | tileStep (crew rank tile : Nat)
  | tzero (p : Pre) (a64 : Bool) (core : BitVec 2) (tile : BitVec 4)
  | tcvt (p : Pre) (rm : Rm) (core : BitVec 2) (tile : BitVec 4) (tgt : BitVec 5) (pol : BitVec 8)
  | tstbEnt (p : Pre) (core : BitVec 2) (tile : BitVec 4) (x : BitVec 6)
  | tstbFull (p : Pre) (core : BitVec 2) (tile : BitVec 4) (x : BitVec 6)
  | tldbEnt (p : Pre) (core : BitVec 2) (tile : BitVec 4) (x : BitVec 6)
  | tldbFull (p : Pre) (core : BitVec 2) (tile : BitVec 4) (x : BitVec 6)
  | tbsetThr (p : Pre) (core : BitVec 2) (tile : BitVec 4) (x : BitVec 6)
  | tbsetHdr (p : Pre) (core : BitVec 2) (tile : BitVec 4) (x : BitVec 6)
  | tbsetAll (p : Pre) (core : BitVec 2) (tile : BitVec 4) (x : BitVec 6)
  | tsave (p : Pre) (core : BitVec 2) (tile : BitVec 4) (x : BitVec 6)
  | tresumeCont (p : Pre) (fromRec : Bool) (core : BitVec 2) (tile : BitVec 4) (x : BitVec 6)
  | tresumeWide (p : Pre) (fromRec : Bool) (core : BitVec 2) (tile : BitVec 4) (x : BitVec 6)
  | tresumeRestart (p : Pre) (fromRec : Bool) (core : BitVec 2) (tile : BitVec 4) (x : BitVec 6)
  -- traps, observation, special registers, producer (R101, R204, R205, R319, R359 to R361)
  | trap (p : Pre) (imm : BitVec 20)
  | brk (p : Pre) (imm : BitVec 20)
  | hret (p : Pre)
  | snap (p : Pre) (a : Opd)
  | wrsr (p : Pre) (t : Ty) (d : BitVec 10) (a : Opd)
  | sld (p : Pre) (t : Ty) (z : SldSize) (inc : Bool) (d a : Opd) (off : BitVec 16)
  | qpush (p : Pre) (a : Opd) (n : BitVec 2)
  | sloop (p : Pre) (a : Opd) (off : BitVec 30)
  -- issue moves
  | issueSlot (die cluster core quad ticks : Nat)
  | loneIssueSlot (die cluster core quad ticks : Nat)
  | gafferIssue (die cluster ticks : Nat)
  | watchdogExpiry (crew : Nat) (sid : Sid) (lane : Nat)
  -- moves of the ordering machine
  | send (crew : Nat) (sid : Sid) (entry lane : Nat)
  | hit (msg : Nat)
  | read (a : AccRef)
  | change (a : AccRef)
  | accept (msg spill : Nat)
  | deliver (msg : Nat)
  | fill (core line asid : Nat) (secure : Bool) (sectors : BitVec 4)
  | drop (core line : Nat)
  | speculativeLoad (core line asid : Nat) (secure : Bool) (sectors : BitVec 4)
  | memsideWriteback (die slice line : Nat)
  -- engine moves
  | engineScratchWrite (cmd : Nat)
  | copyAccept (crew : Nat) (sid : Sid) (lane : Nat)
  | copyComplete (cmd : Nat)
  | collectivePair (cmd : Nat) (remote : List Remote)
  | peerTimeout (cmd : Nat)
  -- crew moves
  | crewPlace (die cluster : Nat) (pick : Pick)
  | crewSave (crew : Nat)
  | saveTimeout (crew : Nat)
  | crewExit (crew : Nat)
  | urgencyMark (crew : Nat)
  -- host moves
  | queueEnable (who : HostFn) (q : Nat)
  | queueDisable (who : HostFn) (q : Nat)
  | tailWrite (who : HostFn) (q : Nat) (v : BitVec 32)
  | resume (who : HostFn) (q slot : Nat)
  | resumeDrop (who : HostFn) (q slot : Nat)
  | asidInvalidate (asid : BitVec 16)
  | invalidateComplete (asid : BitVec 16)
  | containmentReset (who : HostFn) (die : Nat) (mask : Word)
  | memoryCounterClear (die off : Nat) (v : Word)
  | cellWrite (who : HostFn) (die off : Nat) (v : Word)
  | registerWrite (who : HostFn) (off : Nat) (v : Word)
  | snapshotMessage (die : Nat)
  | faultRecordPost (secure : Bool)
  | traceControlWrite (who : HostFn) (core : Nat) (v : Word)
  -- links, replay, power, boot
  | peerLinkDown (peer : Nat)
  | ualinkLinkUp (peer : Nat)
  | messageDrop (port msg : Nat)
  | replayResend (port : Nat)
  | pcieLinkDown (link : Nat)
  | pcieLinkTrain (link gen width : Nat)
  | pcieCompletionTimeout (a : AccRef)
  | boot (fw : Firmware)
  | attestationRequest (nonce : BitVec 256)
  | thermalTrip
  | powerLimitReached
  | powerLimitReleased
deriving DecidableEq, Repr

end Sys2Proof
end

