-- ==== Sys2Proof/WellFormed.lean ====
section
/-! DEFINITION. Which terms of `Instr` are instructions: the checks of R64 step 2 that a word decides by itself (type lists, sizes, modifiers and holds).
A class, a position in a clause, a view limit or a mode decides the other checks of R64; Machine/Check.lean holds those. -/

namespace Sys2Proof

namespace Ty

/-- The integer types, codes 0 to 3, 8, 9, 12 and 13 (R128). -/
def isInt : Ty → Bool
  | .i32 | .n32 | .i64 | .n64 | .i16x2 | .n16x2 | .i8x4 | .n8x4 => true
  | _ => false

/-- i32, n32, i64, n64. -/
def isScalarInt : Ty → Bool
  | .i32 | .n32 | .i64 | .n64 => true
  | _ => false

/-- n32 and n64. -/
def isN : Ty → Bool
  | .n32 | .n64 => true
  | _ => false

/-- f32, f64, f16, bf16: S4 of R150. -/
def isS4 : Ty → Bool
  | .f32 | .f64 | .f16 | .bf16 => true
  | _ => false

/-- S6 of R150. -/
def isS6 : Ty → Bool
  | .f32 | .f64 | .f16 | .bf16 | .f16x2 | .bf16x2 => true
  | _ => false

/-- Types held in an even pair or a whole Gaffer register (R128, R148). -/
def is64 : Ty → Bool
  | .i64 | .n64 | .f64 => true
  | _ => false

/-- f16 and bf16 scalars, which move 2 bytes (R260). -/
def isHalf : Ty → Bool
  | .f16 | .bf16 => true
  | _ => false

/-- Codes 0 to 7: the scalar types (R158). -/
def isScalar : Ty → Bool
  | .i32 | .n32 | .i64 | .n64 | .f32 | .f64 | .f16 | .bf16 => true
  | _ => false

end Ty

/-- Which of sources A, B and C a word has for HL to name (R59). -/
structure Holds where
  a : Bool
  b : Bool
  c : Bool
deriving DecidableEq, Repr

/-- HL is 0 or names a source that the word uses (R52, R59). -/
def Holds.admits (h : Holds) (hl : BitVec 2) : Bool :=
  hl == 0 || (hl == 1 && h.a) || (hl == 2 && h.b) || (hl == 3 && h.c)

/-- The type lists of `LRED` (R147). -/
def Lred.takes : Lred → Ty → Bool
  | .add, t | .min, t | .max, t => t.isScalarInt || t == .f32 || t == .f64
  | .and, t | .or, t | .xor, t => t.isN

/-- The type lists of `ATOM` (R274). -/
def AtomOp.takes : AtomOp → Ty → Bool
  | .add, t | .min, t | .max, t | .exch, t => t.isScalarInt || t == .f32 || t == .f64
  | .and, t | .or, t | .xor, t | .inc, t | .dec, t => t.isN

/-- The type lists of the sizes of R260. -/
def Size.takes : Size → Ty → Bool
  | .nat, _ => true
  | .b8, t | .b16, t => t == .i32 || t == .n32
  | .x2, t => !t.isHalf
  | .x4, t => !t.isHalf && !t.is64

/-- The type lists of `LD` and `ST` (R260). -/
def MemMode.takes : MemMode → Ty → Bool
  | .sized z, t => z.takes t
  | .ordered _, _ => true

/-- The type lists of `SLD` (R359). -/
def SldSize.takes : SldSize → Ty → Bool
  | .nat, t => t.isScalarInt
  | .b8, t | .b16, t => t == .i32 || t == .n32

/-- Target codes of `TCVT` (R185). -/
def tcvtTarget (c : BitVec 5) : Bool :=
  c.toNat ≤ 6 || (8 ≤ c.toNat && c.toNat ≤ 13) || (16 ≤ c.toNat && c.toNat ≤ 19)

/-- The prefix that a word carries; none for a move. -/
def Instr.pre? : Instr → Option Pre
  | .nop p | .bra p _ _ | .brx p _ _ | .call p _ _ _ | .callx p _ _ _ | .ret p _ _ | .yield p | .exit p => some p
  | .iadd p .. | .isub p .. | .imul p .. | .imulhi p .. | .imad p .. | .iwmad p .. | .imin p .. | .imax p .. | .iabs p .. | .isad p ..
  | .iaddi p .. | .lea p .. | .idp4 p .. => some p
  | .and p .. | .or p .. | .xor p .. | .andn p .. | .shl p .. | .shr p .. | .sar p .. | .rot p .. | .bfx p .. | .bfi p .. | .popc p ..
  | .clz p .. | .brev p .. | .movi p .. | .movhi p .. => some p
  | .icmp p .. | .plop p .. | .sel p .. | .mov p .. | .shfl p .. | .vote p .. | .matchl p .. | .lred p .. | .p2v p .. | .v2p p .. => some p
  | .fadd p .. | .fsub p .. | .fmul p .. | .ffma p .. | .fmin p .. | .fmax p .. | .fcmp p .. | .fclass p .. | .fdiv p .. | .fsqrt p ..
  | .frint p .. | .fabs p .. | .fneg p .. | .fdot p .. => some p
  | .fexp2 p .. | .flog2 p .. | .fsin p .. | .fcos p .. | .frsq p .. | .frcp p .. | .ftanh p .. => some p
  | .cvt p .. | .cvtn p .. | .cvtw p .. => some p
  | .ld p .. | .st p .. | .lds p .. | .sts p .. | .ldrs p .. | .strs p .. | .pref p .. | .pin p .. | .unpin p .. => some p
  | .cctlIinv p | .cctlL1 p | .cctlEvict p .. | .cctlFlush p .. | .rrot p .. | .fence p .. | .atom p .. | .acas p .. | .gsadd p ..
  | .gsflush p .. | .gsflushAll p => some p
  | .wait p .. | .barSync p .. | .barArv p .. | .cbarSync p .. | .cbarArv p .. | .tbinit p .. | .tbarriveLane p .. | .tbarrivePath p ..
  | .tbexpect p .. | .tbwait p .. => some p
  | .spawn p .. | .join p .. | .qres p .. | .qcommit p .. | .qpop p .. | .qpeek p .. => some p
  | .trec p .. | .tspan p | .tspanRc p .. | .tspanArea p .. | .tpop p .. | .tret p | .raygen p .. | .trace p .. | .traceAdjTri p ..
  | .traceAdjPatch p .. | .tsamp p .. | .tsampAdj p .. | .esamp p .. => some p
  | .tres p .. | .tfetch p .. | .tlds p .. | .tmma p .. | .tzero p .. | .tcvt p .. | .tstbEnt p .. | .tstbFull p .. | .tldbEnt p ..
  | .tldbFull p .. | .tbsetThr p .. | .tbsetHdr p .. | .tbsetAll p .. | .tsave p .. | .tresumeCont p .. | .tresumeWide p ..
  | .tresumeRestart p .. => some p
  | .trap p .. | .brk p .. | .hret p | .snap p .. | .wrsr p .. | .sld p .. | .qpush p .. | .sloop p .. => some p
  | .rrotMatch .. | .tapeRefillDone .. | .renderResult .. | .tileStep .. | .issueSlot .. | .loneIssueSlot .. | .gafferIssue ..
  | .watchdogExpiry .. | .send .. | .hit .. | .read .. | .change .. | .accept .. | .deliver .. | .fill .. | .drop .. | .speculativeLoad ..
  | .memsideWriteback .. | .engineScratchWrite .. | .copyAccept .. | .copyComplete .. | .collectivePair .. | .peerTimeout .. | .crewPlace ..
  | .crewSave .. | .saveTimeout .. | .crewExit .. | .urgencyMark .. | .queueEnable .. | .queueDisable .. | .tailWrite .. | .resume ..
  | .resumeDrop .. | .asidInvalidate .. | .invalidateComplete .. | .containmentReset .. | .memoryCounterClear .. | .cellWrite ..
  | .registerWrite .. | .snapshotMessage .. | .faultRecordPost .. | .traceControlWrite .. | .peerLinkDown .. | .ualinkLinkUp ..
  | .messageDrop .. | .replayResend .. | .pcieLinkDown .. | .pcieLinkTrain .. | .pcieCompletionTimeout .. | .boot ..
  | .attestationRequest .. | .thermalTrip | .powerLimitReached | .powerLimitReleased => none

/-- An instruction word, not a move. -/
def Instr.isWord (i : Instr) : Bool := i.pre?.isSome

/-- The prefix a word carries; a move has none and reads as an unguarded one. -/
def Instr.pre (i : Instr) : Pre := i.pre?.getD ⟨15, false, 0⟩

/-- The sources that HL may name (R59), with the words that name none or fewer (R174, R259, R269, R304, R335, R377, R382). -/
def Instr.holds : Instr → Holds
  | .brx .. | .ret .. | .callx .. => ⟨true, false, false⟩
  | .iadd .. | .isub .. | .imul .. | .imulhi .. | .imin .. | .imax .. | .lea .. => ⟨true, true, false⟩
  | .imad .. | .iwmad .. | .isad .. | .idp4 .. | .bfi .. => ⟨true, true, true⟩
  | .iabs .. | .iaddi .. | .popc .. | .clz .. | .brev .. | .movhi .. | .mov .. => ⟨true, false, false⟩
  | .and .. | .or .. | .xor .. | .andn .. | .shl .. | .shr .. | .sar .. | .rot .. | .bfx .. | .icmp .. => ⟨true, true, false⟩
  | .plop .. | .sel .. | .shfl .. => ⟨true, true, true⟩
  | .vote .. | .matchl .. | .lred .. | .p2v .. | .v2p .. => ⟨true, false, false⟩
  | .fadd .. | .fsub .. | .fmul .. | .fmin .. | .fmax .. | .fcmp .. | .fclass .. | .fdiv .. => ⟨true, true, false⟩
  | .ffma .. | .fdot .. => ⟨true, true, true⟩
  | .fsqrt .. | .frint .. | .fabs .. | .fneg .. | .fexp2 .. | .flog2 .. | .fsin .. | .fcos .. | .frsq .. | .frcp .. | .ftanh ..
  | .cvt .. | .cvtn .. | .cvtw .. => ⟨true, false, false⟩
  | .ld .. | .st .. | .lds .. | .sts .. | .ldrs .. | .strs .. | .pref .. | .pin .. | .unpin .. | .cctlEvict .. | .cctlFlush .. =>
    ⟨true, false, false⟩
  | .rrot .. | .atom .. | .gsadd .. | .gsflush .. => ⟨true, true, false⟩
  | .acas .. => ⟨true, true, true⟩
  | .barSync .. | .barArv .. | .cbarSync .. | .cbarArv .. => ⟨false, true, false⟩
  | .tbinit .. | .tbexpect .. | .tbwait .. => ⟨true, true, false⟩
  | .tbarriveLane .. | .tbarrivePath .. | .join .. => ⟨true, false, false⟩
  | .spawn .. | .qres .. => ⟨true, true, false⟩
  | .qcommit .. => ⟨true, true, true⟩
  | .trec .. => ⟨true, false, false⟩
  | .tspanRc .. | .tspanArea .. | .tres .. => ⟨true, true, false⟩
  | .raygen .. => ⟨false, true, true⟩
  | .tsamp .. | .tsampAdj .. => ⟨false, false, true⟩
  | .esamp .. => ⟨false, true, true⟩
  | .snap .. | .wrsr .. | .sld .. | .qpush .. | .sloop .. => ⟨true, false, false⟩
  | _ => ⟨false, false, false⟩

/-- The type of a word is one that its row lists (R52, R64 step 2), and its other fields hold values that its row lists. -/
def Instr.fieldsOk : Instr → Bool
  | .iadd _ t .. | .isub _ t .. | .imul _ t .. | .imad _ t .. | .imin _ t .. | .imax _ t .. => t.isInt
  | .imulhi _ t .. => t.isScalarInt || t == .i16x2 || t == .n16x2
  | .iwmad _ t .. => t == .i32 || t == .n32
  | .iabs _ t .. => t == .i32 || t == .i64 || t == .i16x2 || t == .i8x4
  | .isad _ t .. => t == .i32 || t == .n32 || t == .i16x2 || t == .n16x2 || t == .i8x4 || t == .n8x4
  | .iaddi _ t .. => t.isScalarInt
  | .lea _ t .. => t == .i32 || t == .n32
  | .idp4 _ t .. => t == .i8x4 || t == .n8x4
  | .and _ t .. | .or _ t .. | .xor _ t .. | .andn _ t .. => t.isScalarInt
  | .shl _ t .. | .shr _ t .. | .sar _ t .. | .rot _ t .. => t.isInt
  | .bfx _ t .. => t.isScalarInt
  | .bfi _ t .. | .popc _ t .. | .clz _ t .. | .brev _ t .. => t.isN
  | .movi _ t .. => t.isScalarInt
  | .movhi _ t b40 .. => t == .n64 || (t == .n32 && !b40)
  | .icmp _ t .. | .sel _ t .. | .mov _ t .. => t.isScalarInt
  | .shfl _ t .. | .vote _ t .. | .matchl _ t .. | .p2v _ t .. | .v2p _ t .. => t.isN
  | .lred _ t op .. => op.takes t
  | .fadd _ t .. | .fsub _ t .. | .fmul _ t .. | .ffma _ t .. | .fmin _ t .. | .fmax _ t .. | .frint _ t .. | .fabs _ t ..
  | .fneg _ t .. => t.isS6
  | .fcmp _ t .. | .fclass _ t .. | .fdiv _ t .. | .fsqrt _ t .. => t.isS4
  | .fdot _ t .. => t == .f16x2 || t == .bf16x2
  | .fexp2 _ t .. | .flog2 _ t .. | .fsin _ t .. | .fcos _ t .. | .frsq _ t .. | .frcp _ t .. | .ftanh _ t .. => t == .f32 || t == .f16
  | .cvt _ t _ _ _ _ f => t.isScalar && f.toNat < 8
  | .cvtn _ t _ _ _ _ _ f => t.isS4 && f.toNat < 7
  | .cvtw _ t _ _ _ _ f => t.isS4 && f.toNat < 7
  | .ld _ t m _ _ _ h => m.takes t && h.toNat < 5
  | .st _ t m _ _ _ _ h => m.takes t && h.toNat < 5
  | .lds _ t z .. | .sts _ t z .. | .ldrs _ t z .. | .strs _ t z .. => z.takes t
  | .pref _ _ _ _ h => h.toNat < 5
  | .atom _ t op .. => op.takes t
  | .acas _ t .. => t.isN
  | .qpop _ t .. | .trec _ t .. | .tpop _ t .. | .wrsr _ t .. => t.isN
  | .tcvt _ _ _ _ tgt _ => tcvtTarget tgt
  | .tresumeCont _ r _ _ x | .tresumeWide _ r _ _ x | .tresumeRestart _ r _ _ x => r || x == 0
  | .sld _ t z .. => z.takes t
  | .sloop _ _ off => off.msb || off == 0
  | _ => true

/-- A term that some word decodes to: a word whose hold and fields its row lists (R64 step 2, R65). -/
def Instr.wellFormed (i : Instr) : Bool :=
  i.isWord && i.holds.admits i.pre.hl && i.fieldsOk

end Sys2Proof
end

