-- ==== Sys2Proof/Decode.lean ====
section
/-! DEFINITION. Decoding an instruction word (R44 to R65) and encoding an instruction: both are written from the layouts of spec/03 and of each word's own chapter.
A word that fails a check of R64 step 2 which the word alone decides has no instruction: `decode` answers none, and Machine/Check.lean turns that into cause 2. -/

namespace Sys2Proof

/-! ### The common prefix (R52) -/

/-- The fields of a word: the prefix of R52 and bits [39:0]. -/
structure Fields where
  op : BitVec 8
  t  : BitVec 4
  m  : BitVec 4
  pg : BitVec 4
  pn : BitVec 1
  ub : BitVec 1
  hl : BitVec 2
  e  : BitVec 40
deriving DecidableEq, Repr

/-- The word that holds the fields: OP in [63:56] down to bits [39:0] (R52). -/
def Fields.word (f : Fields) : Word :=
  f.op ++ f.t ++ f.m ++ f.pg ++ f.pn ++ f.ub ++ f.hl ++ f.e

/-- The fields of a word (R52). -/
def Fields.ofWord (w : Word) : Fields :=
  { op := w.extractLsb' 56 8, t := w.extractLsb' 52 4, m := w.extractLsb' 48 4, pg := w.extractLsb' 44 4, pn := w.extractLsb' 43 1,
    ub := w.extractLsb' 42 1, hl := w.extractLsb' 40 2, e := w.extractLsb' 0 40 }

/-- Guard and hold of a word. -/
def Fields.pre (f : Fields) : Pre := { pg := f.pg, pn := f.pn == 1, hl := f.hl }

/-! ### Codes -/

/-- One bit as a truth value. -/
def bit (b : Bool) : BitVec 1 := if b then 1 else 0

/-- Code of a type (R53). -/
def Ty.code : Ty → BitVec 4
  | .i32 => 0 | .n32 => 1 | .i64 => 2 | .n64 => 3 | .f32 => 4 | .f64 => 5 | .f16 => 6 | .bf16 => 7
  | .i16x2 => 8 | .n16x2 => 9 | .f16x2 => 10 | .bf16x2 => 11 | .i8x4 => 12 | .n8x4 => 13

/-- Type of a code (R53); 14 and 15 name none. -/
def Ty.ofCode (c : BitVec 4) : Option Ty :=
  match c.toNat with
  | 0 => some .i32 | 1 => some .n32 | 2 => some .i64 | 3 => some .n64 | 4 => some .f32 | 5 => some .f64 | 6 => some .f16 | 7 => some .bf16
  | 8 => some .i16x2 | 9 => some .n16x2 | 10 => some .f16x2 | 11 => some .bf16x2 | 12 => some .i8x4 | 13 => some .n8x4
  | _ => none

/-- Rounding code (R54). -/
def Rm.code : Rm → BitVec 2
  | .rne => 0 | .rtz => 1 | .rup => 2 | .rdn => 3

/-- Rounding mode of M[1:0] (R54). -/
def Rm.ofCode (c : BitVec 2) : Rm :=
  match c.toNat with
  | 0 => .rne | 1 => .rtz | 2 => .rup | _ => .rdn

/-- Rounding mode in M with M[3:2] reserved (R54). -/
def Rm.ofM (m : BitVec 4) : Option Rm :=
  if m.extractLsb' 2 2 == 0 then some (Rm.ofCode (m.extractLsb' 0 2)) else none

/-- M of a rounding mode. -/
def Rm.m (r : Rm) : BitVec 4 := (0#2) ++ r.code

/-- Scope code (R54). -/
def Scope.code : Scope → BitVec 3
  | .th => 0 | .tm => 1 | .cr => 2 | .die => 3 | .dev => 4 | .sys => 5

/-- Scope of a code; 6 and 7 name none (R54). -/
def Scope.ofCode (c : BitVec 3) : Option Scope :=
  match c.toNat with
  | 0 => some .th | 1 => some .tm | 2 => some .cr | 3 => some .die | 4 => some .dev | 5 => some .sys | _ => none

/-- Scope in the whole of M (R54). -/
def Scope.ofM (m : BitVec 4) : Option Scope :=
  if m.extractLsb' 3 1 == 0 then Scope.ofCode (m.extractLsb' 0 3) else none

/-- M of a scope. -/
def Scope.m (s : Scope) : BitVec 4 := (0#1) ++ s.code

/-- M[0] with M[3:1] reserved. -/
def flagOfM (m : BitVec 4) : Option Bool :=
  match m.toNat with
  | 0 => some false | 1 => some true | _ => none

/-- M of a flag in M[0]. -/
def flagM (b : Bool) : BitVec 4 := if b then 1 else 0

/-- `ICMP` condition codes (R141). -/
def Cmp.m : Cmp → BitVec 4
  | .eq => 0 | .ne => 1 | .lt => 2 | .le => 3 | .gt => 4 | .ge => 5

def Cmp.ofM (m : BitVec 4) : Option Cmp :=
  match m.toNat with
  | 0 => some .eq | 1 => some .ne | 2 => some .lt | 3 => some .le | 4 => some .gt | 5 => some .ge | _ => none

/-- `FCMP` condition codes (R152). -/
def FCmp.m : FCmp → BitVec 4
  | .eq => 0 | .ne => 1 | .lt => 2 | .le => 3 | .gt => 4 | .ge => 5 | .un => 6 | .ord => 7

def FCmp.ofM (m : BitVec 4) : Option FCmp :=
  match m.toNat with
  | 0 => some .eq | 1 => some .ne | 2 => some .lt | 3 => some .le | 4 => some .gt | 5 => some .ge | 6 => some .un | 7 => some .ord
  | _ => none

/-- `SHFL` modes (R145). -/
def Shfl.m : Shfl → BitVec 4
  | .idx => 0 | .up => 1 | .down => 2 | .xor => 3

def Shfl.ofM (m : BitVec 4) : Option Shfl :=
  match m.toNat with
  | 0 => some .idx | 1 => some .up | 2 => some .down | 3 => some .xor | _ => none

/-- `VOTE` kinds (R146). -/
def Vote.m : Vote → BitVec 4
  | .all => 0 | .any => 1 | .eq => 2 | .ballot => 3

def Vote.ofM (m : BitVec 4) : Option Vote :=
  match m.toNat with
  | 0 => some .all | 1 => some .any | 2 => some .eq | 3 => some .ballot | _ => none

/-- `LRED` operations (R147). -/
def Lred.m : Lred → BitVec 4
  | .add => 0 | .min => 1 | .max => 2 | .and => 3 | .or => 4 | .xor => 5

def Lred.ofM (m : BitVec 4) : Option Lred :=
  match m.toNat with
  | 0 => some .add | 1 => some .min | 2 => some .max | 3 => some .and | 4 => some .or | 5 => some .xor | _ => none

/-- `ATOM` operations (R274). -/
def AtomOp.m : AtomOp → BitVec 4
  | .add => 0 | .min => 1 | .max => 2 | .and => 3 | .or => 4 | .xor => 5 | .exch => 6 | .inc => 7 | .dec => 8

def AtomOp.ofM (m : BitVec 4) : Option AtomOp :=
  match m.toNat with
  | 0 => some .add | 1 => some .min | 2 => some .max | 3 => some .and | 4 => some .or | 5 => some .xor | 6 => some .exch
  | 7 => some .inc | 8 => some .dec | _ => none

/-- Sizes of R260. -/
def Size.m : Size → BitVec 4
  | .nat => 0 | .b8 => 1 | .b16 => 2 | .x2 => 3 | .x4 => 4

def Size.ofM (m : BitVec 4) : Option Size :=
  match m.toNat with
  | 0 => some .nat | 1 => some .b8 | 2 => some .b16 | 3 => some .x2 | 4 => some .x4 | _ => none

/-- Field M of `LD` and `ST` (R260): M[3] marks an ordered access, whose scope stands in M[2:0]. -/
def MemMode.m : MemMode → BitVec 4
  | .sized z => z.m
  | .ordered s => (1#1) ++ s.code

def MemMode.ofM (m : BitVec 4) : Option MemMode :=
  if m.extractLsb' 3 1 == 1 then (Scope.ofCode (m.extractLsb' 0 3)).map .ordered else (Size.ofM m).map .sized

/-- M[1:0] of `SLD` (R359). -/
def SldSize.code : SldSize → BitVec 3
  | .nat => 0 | .b8 => 1 | .b16 => 2

def SldSize.ofCode (c : BitVec 3) : Option SldSize :=
  match c.toNat with
  | 0 => some .nat | 1 => some .b8 | 2 => some .b16 | _ => none

/-- An operand specifier (R56). -/
def Opd.bits : Opd → BitVec 10
  | .v n => (0#2) ++ n
  | .x n => (1#2) ++ n
  | .k n => (2#2) ++ n
  | .g n => (3#2) ++ n

def Opd.ofBits (b : BitVec 10) : Opd :=
  match (b.extractLsb' 8 2).toNat with
  | 0 => .v (b.extractLsb' 0 8)
  | 1 => .x (b.extractLsb' 0 8)
  | 2 => .k (b.extractLsb' 0 8)
  | _ => .g (b.extractLsb' 0 8)

/-! ### Formats of bits [39:0] (R58) -/

/-- Format R: D, A, B, C. -/
def fmtR (d a b c : BitVec 10) : BitVec 40 := d ++ a ++ b ++ c
/-- Format I: D, A, imm20. -/
def fmtI (d a : BitVec 10) (imm : BitVec 20) : BitVec 40 := d ++ a ++ imm
/-- Format B: A, offset30. -/
def fmtB (a : BitVec 10) (off : BitVec 30) : BitVec 40 := a ++ off
/-- Format Mem: D, A, off16, the tag bit, the cache hint. -/
def fmtMem (d a : BitVec 10) (off : BitVec 16) (tag : BitVec 1) (hint : BitVec 3) : BitVec 40 := d ++ a ++ off ++ tag ++ hint
/-- Format P: D, A, policy8, F, reserved. -/
def fmtP (d a : BitVec 10) (pol : BitVec 8) (f : BitVec 4) : BitVec 40 := d ++ a ++ pol ++ f ++ (0#8)
/-- Format G: core, tile, resA, resB, ksteps8, flags, reserved. -/
def fmtG (core : BitVec 2) (tile : BitVec 4) (ra rb : BitVec 5) (ks flags : BitVec 8) : BitVec 40 := core ++ tile ++ ra ++ rb ++ ks ++ flags ++ (0#8)

namespace Fields

/-- [39:30]. -/
def d (f : Fields) : BitVec 10 := f.e.extractLsb' 30 10
/-- [29:20]. -/
def a (f : Fields) : BitVec 10 := f.e.extractLsb' 20 10
/-- [19:10]. -/
def b (f : Fields) : BitVec 10 := f.e.extractLsb' 10 10
/-- [9:0]. -/
def c (f : Fields) : BitVec 10 := f.e.extractLsb' 0 10
/-- imm20 of format I. -/
def imm (f : Fields) : BitVec 20 := f.e.extractLsb' 0 20
/-- offset30 of format B. -/
def off30 (f : Fields) : BitVec 30 := f.e.extractLsb' 0 30
/-- off16 of format Mem. -/
def off16 (f : Fields) : BitVec 16 := f.e.extractLsb' 4 16
/-- hints[3] of format Mem. -/
def tag (f : Fields) : BitVec 1 := f.e.extractLsb' 3 1
/-- hints[2:0] of format Mem. -/
def hint (f : Fields) : BitVec 3 := f.e.extractLsb' 0 3
/-- policy8 of format P. -/
def pol (f : Fields) : BitVec 8 := f.e.extractLsb' 12 8
/-- F of format P. -/
def fc (f : Fields) : BitVec 4 := f.e.extractLsb' 8 4
/-- [7:0], reserved in formats P and G. -/
def lo8 (f : Fields) : BitVec 8 := f.e.extractLsb' 0 8
/-- core of format G. -/
def core (f : Fields) : BitVec 2 := f.e.extractLsb' 38 2
/-- tile of format G. -/
def tile (f : Fields) : BitVec 4 := f.e.extractLsb' 34 4
/-- resA of format G. -/
def ra (f : Fields) : BitVec 5 := f.e.extractLsb' 29 5
/-- resB of format G. -/
def rb (f : Fields) : BitVec 5 := f.e.extractLsb' 24 5
/-- ksteps8 of format G. -/
def ks (f : Fields) : BitVec 8 := f.e.extractLsb' 16 8
/-- flags of format G. -/
def flags (f : Fields) : BitVec 8 := f.e.extractLsb' 8 8

end Fields

/-! ### Encoding -/

/-- The fields of an instruction word with opcode `op`. -/
def Pre.fields (p : Pre) (op : BitVec 8) (t m : BitVec 4) (ub : BitVec 1) (e : BitVec 40) : Fields :=
  { op := op, t := t, m := m, pg := p.pg, pn := bit p.pn, ub := ub, hl := p.hl, e := e }

/-- The fields of every instruction word, by the opcode map (R61) and the layout its chapter gives; none for a move. -/
def Instr.fields : Instr → Option Fields
  | .iadd p t sat d a b => some (p.fields 0x10 t.code (flagM sat) 0 (fmtR d.bits a.bits b.bits 0))
  | .isub p t sat d a b => some (p.fields 0x11 t.code (flagM sat) 0 (fmtR d.bits a.bits b.bits 0))
  | .imul p t d a b => some (p.fields 0x12 t.code 0 0 (fmtR d.bits a.bits b.bits 0))
  | .imulhi p t d a b => some (p.fields 0x13 t.code 0 0 (fmtR d.bits a.bits b.bits 0))
  | .imad p t d a b c => some (p.fields 0x14 t.code 0 0 (fmtR d.bits a.bits b.bits c.bits))
  | .iwmad p t d a b c => some (p.fields 0x15 t.code 0 0 (fmtR d.bits a.bits b.bits c.bits))
  | .imin p t d a b => some (p.fields 0x16 t.code 0 0 (fmtR d.bits a.bits b.bits 0))
  | .imax p t d a b => some (p.fields 0x17 t.code 0 0 (fmtR d.bits a.bits b.bits 0))
  | .iabs p t sat d a => some (p.fields 0x18 t.code (flagM sat) 0 (fmtR d.bits a.bits 0 0))
  | .isad p t d a b c => some (p.fields 0x19 t.code 0 0 (fmtR d.bits a.bits b.bits c.bits))
  | .nop p => some (p.fields 0x00 0 0 0 (0))
  | .bra p uni off => some (p.fields 0x01 0 0 (bit uni) (fmtB 0 off))
  | .brx p uni a => some (p.fields 0x02 0 0 (bit uni) (fmtR 0 a.bits 0 0))
  | .call p uni a off => some (p.fields 0x03 0 0 (bit uni) (fmtB a.bits off))
  | .callx p uni d a => some (p.fields 0x04 0 0 (bit uni) (fmtR d.bits a.bits 0 0))
  | .ret p uni a => some (p.fields 0x05 0 0 (bit uni) (fmtR 0 a.bits 0 0))
  | .yield p => some (p.fields 0x06 0 0 0 (0))
  | .exit p => some (p.fields 0x07 0 0 0 (0))
  | .iaddi p t sat d a imm => some (p.fields 0x1A t.code (flagM sat) 0 (fmtI d.bits a.bits imm))
  | .lea p t sh d a b => some (p.fields 0x1B t.code ((0#1) ++ sh) 0 (fmtR d.bits a.bits b.bits 0))
  | .idp4 p t sat xb d a b c => some (p.fields 0x1C t.code ((0#2) ++ bit xb ++ bit sat) 0 (fmtR d.bits a.bits b.bits c.bits))
  | .and p t d a b => some (p.fields 0x20 t.code 0 0 (fmtR d.bits a.bits b.bits 0))
  | .or p t d a b => some (p.fields 0x21 t.code 0 0 (fmtR d.bits a.bits b.bits 0))
  | .xor p t d a b => some (p.fields 0x22 t.code 0 0 (fmtR d.bits a.bits b.bits 0))
  | .andn p t d a b => some (p.fields 0x23 t.code 0 0 (fmtR d.bits a.bits b.bits 0))
  | .shl p t d a b => some (p.fields 0x24 t.code 0 0 (fmtR d.bits a.bits b.bits 0))
  | .shr p t d a b => some (p.fields 0x25 t.code 0 0 (fmtR d.bits a.bits b.bits 0))
  | .sar p t d a b => some (p.fields 0x26 t.code 0 0 (fmtR d.bits a.bits b.bits 0))
  | .rot p t d a b => some (p.fields 0x27 t.code 0 0 (fmtR d.bits a.bits b.bits 0))
  | .bfx p t d a b => some (p.fields 0x28 t.code 0 0 (fmtR d.bits a.bits b.bits 0))
  | .bfi p t d a b c => some (p.fields 0x29 t.code 0 0 (fmtR d.bits a.bits b.bits c.bits))
  | .popc p t d a => some (p.fields 0x2A t.code 0 0 (fmtR d.bits a.bits 0 0))
  | .clz p t d a => some (p.fields 0x2B t.code 0 0 (fmtR d.bits a.bits 0 0))
  | .brev p t d a => some (p.fields 0x2C t.code 0 0 (fmtR d.bits a.bits 0 0))
  | .movi p t d imm => some (p.fields 0x2D t.code 0 0 (fmtI d.bits 0 imm))
  | .movhi p t b40 d a imm => some (p.fields 0x2E t.code (flagM b40) 0 (fmtI d.bits a.bits imm))
  | .icmp p t cc d a b => some (p.fields 0x30 t.code cc.m 0 (fmtR d a.bits b.bits 0))
  | .plop p lut d a b c => some (p.fields 0x31 0 lut 0 (fmtR d a b c))
  | .sel p t d a b c => some (p.fields 0x32 t.code 0 0 (fmtR d.bits a.bits b.bits c))
  | .mov p t d a => some (p.fields 0x33 t.code 0 0 (fmtR d.bits a.bits 0 0))
  | .shfl p t mode d a b c => some (p.fields 0x34 t.code mode.m 0 (fmtR d.bits a.bits b.bits c.bits))
  | .vote p t kind d a => some (p.fields 0x35 t.code kind.m 0 (fmtR d.bits a.bits 0 0))
  | .matchl p t d a => some (p.fields 0x36 t.code 0 0 (fmtR d.bits a.bits 0 0))
  | .lred p t op d a => some (p.fields 0x37 t.code op.m 0 (fmtR d.bits a.bits 0 0))
  | .p2v p t ones d a => some (p.fields 0x38 t.code (flagM ones) 0 (fmtR d.bits a 0 0))
  | .v2p p t d a => some (p.fields 0x39 t.code 0 0 (fmtR d a.bits 0 0))
  | .fadd p t rm d a b => some (p.fields 0x40 t.code rm.m 0 (fmtR d.bits a.bits b.bits 0))
  | .fsub p t rm d a b => some (p.fields 0x41 t.code rm.m 0 (fmtR d.bits a.bits b.bits 0))
  | .fmul p t rm d a b => some (p.fields 0x42 t.code rm.m 0 (fmtR d.bits a.bits b.bits 0))
  | .ffma p t rm d a b c => some (p.fields 0x43 t.code rm.m 0 (fmtR d.bits a.bits b.bits c.bits))
  | .fmin p t d a b => some (p.fields 0x44 t.code 0 0 (fmtR d.bits a.bits b.bits 0))
  | .fmax p t d a b => some (p.fields 0x45 t.code 0 0 (fmtR d.bits a.bits b.bits 0))
  | .fcmp p t cc d a b => some (p.fields 0x46 t.code cc.m 0 (fmtR d a.bits b.bits 0))
  | .fclass p t d a b => some (p.fields 0x47 t.code 0 0 (fmtR d a.bits b.bits 0))
  | .fdiv p t rm d a b => some (p.fields 0x48 t.code rm.m 0 (fmtR d.bits a.bits b.bits 0))
  | .fsqrt p t rm d a => some (p.fields 0x49 t.code rm.m 0 (fmtR d.bits a.bits 0 0))
  | .frint p t rm d a => some (p.fields 0x4A t.code rm.m 0 (fmtR d.bits a.bits 0 0))
  | .fabs p t d a => some (p.fields 0x4B t.code 0 0 (fmtR d.bits a.bits 0 0))
  | .fneg p t d a => some (p.fields 0x4C t.code 0 0 (fmtR d.bits a.bits 0 0))
  | .fdot p t rm d a b c => some (p.fields 0x4D t.code rm.m 0 (fmtR d.bits a.bits b.bits c.bits))
  | .fexp2 p t d a => some (p.fields 0x50 t.code 0 0 (fmtR d.bits a.bits 0 0))
  | .flog2 p t d a => some (p.fields 0x51 t.code 0 0 (fmtR d.bits a.bits 0 0))
  | .fsin p t d a => some (p.fields 0x52 t.code 0 0 (fmtR d.bits a.bits 0 0))
  | .fcos p t d a => some (p.fields 0x53 t.code 0 0 (fmtR d.bits a.bits 0 0))
  | .frsq p t d a => some (p.fields 0x54 t.code 0 0 (fmtR d.bits a.bits 0 0))
  | .frcp p t d a => some (p.fields 0x55 t.code 0 0 (fmtR d.bits a.bits 0 0))
  | .ftanh p t d a => some (p.fields 0x56 t.code 0 0 (fmtR d.bits a.bits 0 0))
  | .cvt p t rm d a pol f => some (p.fields 0x60 t.code rm.m 0 (fmtP d.bits a.bits pol f))
  | .cvtn p t rm pos d a pol f => some (p.fields 0x61 t.code (pos ++ rm.code) 0 (fmtP d.bits a.bits pol f))
  | .cvtw p t pos d a pol f => some (p.fields 0x62 t.code (pos ++ (0#2)) 0 (fmtP d.bits a.bits pol f))
  | .ld p t m d a off hint => some (p.fields 0x70 t.code m.m 0 (fmtMem d.bits a.bits off 0 hint))
  | .st p t m tag d a off hint => some (p.fields 0x71 t.code m.m 0 (fmtMem d.bits a.bits off (bit tag) hint))
  | .lds p t z d a off => some (p.fields 0x72 t.code z.m 0 (fmtMem d.bits a.bits off 0 0))
  | .sts p t z d a off => some (p.fields 0x73 t.code z.m 0 (fmtMem d.bits a.bits off 0 0))
  | .ldrs p t z d a off => some (p.fields 0x74 t.code z.m 0 (fmtMem d.bits a.bits off 0 0))
  | .strs p t z d a off => some (p.fields 0x75 t.code z.m 0 (fmtMem d.bits a.bits off 0 0))
  | .pref p l1 a off hint => some (p.fields 0x76 0 (flagM l1) 0 (fmtMem 0 a.bits off 0 hint))
  | .pin p d a off => some (p.fields 0x77 1 0 0 (fmtMem d.bits a.bits off 0 0))
  | .unpin p a off => some (p.fields 0x78 0 0 0 (fmtMem 0 a.bits off 0 0))
  | .cctlIinv p => some (p.fields 0x79 0 0 0 (0))
  | .cctlL1 p => some (p.fields 0x79 0 1 0 (0))
  | .cctlEvict p a off => some (p.fields 0x79 0 2 0 (fmtMem 0 a.bits off 0 0))
  | .cctlFlush p a off => some (p.fields 0x79 0 3 0 (fmtMem 0 a.bits off 0 0))
  | .rrot p bwd a b n => some (p.fields 0x7A 0 (flagM bwd) 0 (a.bits ++ b.bits ++ n ++ (0#8)))
  | .fence p sc => some (p.fields 0x7B 0 sc.m 0 (0))
  | .atom p t op d a b => some (p.fields 0x80 t.code op.m 0 (fmtR d.bits a.bits b.bits 0))
  | .acas p t d a b c => some (p.fields 0x81 t.code 0 0 (fmtR d.bits a.bits b.bits c.bits))
  | .gsadd p a b => some (p.fields 0x82 4 0 0 (fmtR 0 a.bits b.bits 0))
  | .gsflush p a b => some (p.fields 0x83 0 0 0 (fmtR 0 a.bits b.bits 0))
  | .gsflushAll p => some (p.fields 0x83 0 1 0 (0))
  | .wait p wl ws wc wt => some (p.fields 0x90 0 0 0 ((0#24) ++ wl ++ ws ++ wc ++ wt))
  | .barSync p b n => some (p.fields 0x91 0 0 0 ((0#10) ++ b.bits ++ (0#16) ++ n))
  | .barArv p b n => some (p.fields 0x91 0 1 0 ((0#10) ++ b.bits ++ (0#16) ++ n))
  | .cbarSync p b n => some (p.fields 0x92 0 0 0 ((0#10) ++ b.bits ++ (0#16) ++ n))
  | .cbarArv p b n => some (p.fields 0x92 0 1 0 ((0#10) ++ b.bits ++ (0#16) ++ n))
  | .tbinit p a b => some (p.fields 0x93 0 0 0 (fmtR 0 a.bits b.bits 0))
  | .tbarriveLane p sc a => some (p.fields 0x94 0 ((0#1) ++ sc.code) 0 (fmtR 0 a.bits 0 0))
  | .tbarrivePath p sc a => some (p.fields 0x94 0 ((1#1) ++ sc.code) 0 (fmtR 0 a.bits 0 0))
  | .tbexpect p a b => some (p.fields 0x95 0 0 0 (fmtR 0 a.bits b.bits 0))
  | .tbwait p sc a b => some (p.fields 0x96 0 sc.m 0 (fmtR 0 a.bits b.bits 0))
  | .spawn p d a b => some (p.fields 0xA0 0 0 0 (fmtR d.bits a.bits b.bits 0))
  | .join p a => some (p.fields 0xA1 0 0 0 (fmtR 0 a.bits 0 0))
  | .qres p d a b => some (p.fields 0xA2 0 0 0 (fmtR d.bits a.bits b.bits 0))
  | .qcommit p a b c => some (p.fields 0xA3 0 0 0 (fmtR a.bits b.bits c.bits 0))
  | .qpop p t d n => some (p.fields 0xA4 t.code 0 0 (d.bits ++ (0#28) ++ n))
  | .qpeek p d n => some (p.fields 0xA5 0 0 0 (d.bits ++ (0#28) ++ n))
  | .trec p t a => some (p.fields 0xA8 t.code 0 0 (fmtR 0 a.bits 0 0))
  | .tspan p => some (p.fields 0xA9 0 0 0 (0))
  | .tspanRc p a b => some (p.fields 0xA9 0 1 0 (fmtR 0 a.bits b.bits 0))
  | .tspanArea p a b => some (p.fields 0xA9 0 2 0 (fmtR 0 a.bits b.bits 0))
  | .tpop p t d => some (p.fields 0xAA t.code 0 0 (fmtR d.bits 0 0 0))
  | .tret p => some (p.fields 0xAB 0 0 0 (0))
  | .raygen p d a b c => some (p.fields 0xB0 0 0 0 (fmtR d.bits a.bits b.bits c.bits))
  | .trace p d a b => some (p.fields 0xB1 0 0 0 (fmtR d.bits a.bits b.bits 0))
  | .traceAdjTri p a b c => some (p.fields 0xB1 0 1 0 (fmtR 0 a.bits b.bits c.bits))
  | .traceAdjPatch p a b c => some (p.fields 0xB1 0 3 0 (fmtR 0 a.bits b.bits c.bits))
  | .tsamp p d a b c => some (p.fields 0xB2 0 0 0 (fmtR d.bits a.bits b.bits c.bits))
  | .tsampAdj p d a b c => some (p.fields 0xB2 0 1 0 (fmtR d.bits a.bits b.bits c.bits))
  | .esamp p d a b c => some (p.fields 0xB3 0 0 0 (fmtR d.bits a.bits b.bits c.bits))
  | .tres p n a b => some (p.fields 0xC0 0 0 0 ((0#10) ++ a.bits ++ b.bits ++ (0#5) ++ n))
  | .tfetch p sc core grp rec n => some (p.fields 0xC1 0 sc.m 0 (fmtG core grp rec 0 n 0))
  | .tlds p sc core grp rec n => some (p.fields 0xC2 0 sc.m 0 (fmtG core grp rec 0 n 0))
  | .tmma p core tile ra rb n lehr zi bnd w64 => some (p.fields 0xC3 0 0 0 (fmtG core tile ra rb n (bit lehr ++ bit zi ++ bit bnd ++ bit w64 ++ (0#4))))
  | .tzero p a64 core tile => some (p.fields 0xC4 0 (flagM a64) 0 (fmtG core tile 0 0 0 0))
  | .tcvt p rm core tile tgt pol => some (p.fields 0xC5 0 rm.m 0 (fmtG core tile tgt 0 pol 0))
  | .tstbEnt p core tile x => some (p.fields 0xC6 0 0 0 (fmtG core tile 0 0 ((0#2) ++ x) 0))
  | .tstbFull p core tile x => some (p.fields 0xC6 0 1 0 (fmtG core tile 0 0 ((0#2) ++ x) 0))
  | .tldbEnt p core tile x => some (p.fields 0xC7 0 0 0 (fmtG core tile 0 0 ((0#2) ++ x) 0))
  | .tldbFull p core tile x => some (p.fields 0xC7 0 1 0 (fmtG core tile 0 0 ((0#2) ++ x) 0))
  | .tbsetThr p core tile x => some (p.fields 0xC8 0 0 0 (fmtG core tile 0 0 ((0#2) ++ x) 0))
  | .tbsetHdr p core tile x => some (p.fields 0xC8 0 1 0 (fmtG core tile 0 0 ((0#2) ++ x) 0))
  | .tbsetAll p core tile x => some (p.fields 0xC8 0 2 0 (fmtG core tile 0 0 ((0#2) ++ x) 0))
  | .tsave p core tile x => some (p.fields 0xC9 0 0 0 (fmtG core tile 0 0 ((0#2) ++ x) 0))
  | .tresumeCont p fromRec core tile x => some (p.fields 0xCA 0 ((0#1) ++ bit fromRec ++ (0#2)) 0 (fmtG core tile 0 0 ((0#2) ++ x) 0))
  | .tresumeWide p fromRec core tile x => some (p.fields 0xCA 0 ((0#1) ++ bit fromRec ++ (1#2)) 0 (fmtG core tile 0 0 ((0#2) ++ x) 0))
  | .tresumeRestart p fromRec core tile x => some (p.fields 0xCA 0 ((0#1) ++ bit fromRec ++ (2#2)) 0 (fmtG core tile 0 0 ((0#2) ++ x) 0))
  | .trap p imm => some (p.fields 0xD0 0 0 0 (fmtI 0 0 imm))
  | .brk p imm => some (p.fields 0xD1 0 0 0 (fmtI 0 0 imm))
  | .hret p => some (p.fields 0xD2 0 0 0 (0))
  | .snap p a => some (p.fields 0xD3 0 0 0 (fmtR 0 a.bits 0 0))
  | .wrsr p t d a => some (p.fields 0xD4 t.code 0 0 (fmtR d a.bits 0 0))
  | .sld p t z inc d a off => some (p.fields 0xE0 t.code (bit inc ++ z.code) 0 (fmtMem d.bits a.bits off 0 0))
  | .qpush p a n => some (p.fields 0xE1 0 0 0 ((0#10) ++ a.bits ++ (0#18) ++ n))
  | .sloop p a off => some (p.fields 0xE2 0 0 0 (fmtB a.bits off))
  | .rrotMatch .. | .tapeRefillDone .. | .renderResult .. | .tileStep .. | .issueSlot .. | .loneIssueSlot .. | .gafferIssue ..
  | .watchdogExpiry .. | .send .. | .hit .. | .read .. | .change .. | .accept .. | .deliver .. | .fill .. | .drop .. | .speculativeLoad ..
  | .memsideWriteback .. | .engineScratchWrite .. | .copyAccept .. | .copyComplete .. | .collectivePair .. | .peerTimeout .. | .crewPlace ..
  | .crewSave .. | .saveTimeout .. | .crewExit .. | .urgencyMark .. | .queueEnable .. | .queueDisable .. | .tailWrite .. | .resume ..
  | .resumeDrop .. | .asidInvalidate .. | .invalidateComplete .. | .containmentReset .. | .memoryCounterClear .. | .cellWrite ..
  | .registerWrite .. | .snapshotMessage .. | .faultRecordPost .. | .traceControlWrite .. | .peerLinkDown .. | .ualinkLinkUp ..
  | .messageDrop .. | .replayResend .. | .pcieLinkDown .. | .pcieLinkTrain .. | .pcieCompletionTimeout .. | .boot ..
  | .attestationRequest .. | .thermalTrip | .powerLimitReached | .powerLimitReleased => none

/-- The word of an instruction; none for a move, which has no encoding. -/
def encode (i : Instr) : Option Word := i.fields.map Fields.word

/-! ### Decoding -/

/-- Opcodes 0x00 to 0x0F. -/
def decodeControl (f : Fields) : Option Instr :=
  match f.op.toNat with
  | 0x00 => if f.t == 0 && f.ub == 0 && f.e == 0 && f.m == 0 then some (.nop f.pre) else none
  | 0x01 => if f.t == 0 && f.d == 0 && f.m == 0 then some (.bra f.pre (f.ub == 1) f.off30) else none
  | 0x02 => if f.t == 0 && f.d == 0 && f.b == 0 && f.c == 0 && f.m == 0 then some (.brx f.pre (f.ub == 1) (.ofBits f.a)) else none
  | 0x03 => if f.t == 0 && f.m == 0 then some (.call f.pre (f.ub == 1) (.ofBits f.d) f.off30) else none
  | 0x04 => if f.t == 0 && f.b == 0 && f.c == 0 && f.m == 0 then some (.callx f.pre (f.ub == 1) (.ofBits f.d) (.ofBits f.a)) else none
  | 0x05 => if f.t == 0 && f.d == 0 && f.b == 0 && f.c == 0 && f.m == 0 then some (.ret f.pre (f.ub == 1) (.ofBits f.a)) else none
  | 0x06 => if f.t == 0 && f.ub == 0 && f.e == 0 && f.m == 0 then some (.yield f.pre) else none
  | 0x07 => if f.t == 0 && f.ub == 0 && f.e == 0 && f.m == 0 then some (.exit f.pre) else none
  | _ => none

/-- Opcodes 0x10 to 0x1F. -/
def decodeInteger (f : Fields) : Option Instr :=
  match f.op.toNat with
  | 0x10 => if f.ub == 0 && f.c == 0 then (Ty.ofCode f.t).bind fun t => (flagOfM f.m).bind fun sat => some (.iadd f.pre t sat (.ofBits f.d) (.ofBits f.a) (.ofBits f.b)) else none
  | 0x11 => if f.ub == 0 && f.c == 0 then (Ty.ofCode f.t).bind fun t => (flagOfM f.m).bind fun sat => some (.isub f.pre t sat (.ofBits f.d) (.ofBits f.a) (.ofBits f.b)) else none
  | 0x12 => if f.ub == 0 && f.c == 0 && f.m == 0 then (Ty.ofCode f.t).bind fun t => some (.imul f.pre t (.ofBits f.d) (.ofBits f.a) (.ofBits f.b)) else none
  | 0x13 => if f.ub == 0 && f.c == 0 && f.m == 0 then (Ty.ofCode f.t).bind fun t => some (.imulhi f.pre t (.ofBits f.d) (.ofBits f.a) (.ofBits f.b)) else none
  | 0x14 => if f.ub == 0 && f.m == 0 then (Ty.ofCode f.t).bind fun t => some (.imad f.pre t (.ofBits f.d) (.ofBits f.a) (.ofBits f.b) (.ofBits f.c)) else none
  | 0x15 => if f.ub == 0 && f.m == 0 then (Ty.ofCode f.t).bind fun t => some (.iwmad f.pre t (.ofBits f.d) (.ofBits f.a) (.ofBits f.b) (.ofBits f.c)) else none
  | 0x16 => if f.ub == 0 && f.c == 0 && f.m == 0 then (Ty.ofCode f.t).bind fun t => some (.imin f.pre t (.ofBits f.d) (.ofBits f.a) (.ofBits f.b)) else none
  | 0x17 => if f.ub == 0 && f.c == 0 && f.m == 0 then (Ty.ofCode f.t).bind fun t => some (.imax f.pre t (.ofBits f.d) (.ofBits f.a) (.ofBits f.b)) else none
  | 0x18 => if f.ub == 0 && f.b == 0 && f.c == 0 then (Ty.ofCode f.t).bind fun t => (flagOfM f.m).bind fun sat => some (.iabs f.pre t sat (.ofBits f.d) (.ofBits f.a)) else none
  | 0x19 => if f.ub == 0 && f.m == 0 then (Ty.ofCode f.t).bind fun t => some (.isad f.pre t (.ofBits f.d) (.ofBits f.a) (.ofBits f.b) (.ofBits f.c)) else none
  | 0x1A => if f.ub == 0 then (Ty.ofCode f.t).bind fun t => (flagOfM f.m).bind fun sat => some (.iaddi f.pre t sat (.ofBits f.d) (.ofBits f.a) f.imm) else none
  | 0x1B => if f.ub == 0 && f.c == 0 && f.m.extractLsb' 3 1 == 0 then (Ty.ofCode f.t).bind fun t => some (.lea f.pre t (f.m.extractLsb' 0 3) (.ofBits f.d) (.ofBits f.a) (.ofBits f.b)) else none
  | 0x1C => if f.ub == 0 && f.m.extractLsb' 2 2 == 0 then (Ty.ofCode f.t).bind fun t => some (.idp4 f.pre t (f.m.extractLsb' 0 1 == 1) (f.m.extractLsb' 1 1 == 1) (.ofBits f.d) (.ofBits f.a) (.ofBits f.b) (.ofBits f.c)) else none
  | _ => none

/-- Opcodes 0x20 to 0x2F. -/
def decodeBit (f : Fields) : Option Instr :=
  match f.op.toNat with
  | 0x20 => if f.ub == 0 && f.c == 0 && f.m == 0 then (Ty.ofCode f.t).bind fun t => some (.and f.pre t (.ofBits f.d) (.ofBits f.a) (.ofBits f.b)) else none
  | 0x21 => if f.ub == 0 && f.c == 0 && f.m == 0 then (Ty.ofCode f.t).bind fun t => some (.or f.pre t (.ofBits f.d) (.ofBits f.a) (.ofBits f.b)) else none
  | 0x22 => if f.ub == 0 && f.c == 0 && f.m == 0 then (Ty.ofCode f.t).bind fun t => some (.xor f.pre t (.ofBits f.d) (.ofBits f.a) (.ofBits f.b)) else none
  | 0x23 => if f.ub == 0 && f.c == 0 && f.m == 0 then (Ty.ofCode f.t).bind fun t => some (.andn f.pre t (.ofBits f.d) (.ofBits f.a) (.ofBits f.b)) else none
  | 0x24 => if f.ub == 0 && f.c == 0 && f.m == 0 then (Ty.ofCode f.t).bind fun t => some (.shl f.pre t (.ofBits f.d) (.ofBits f.a) (.ofBits f.b)) else none
  | 0x25 => if f.ub == 0 && f.c == 0 && f.m == 0 then (Ty.ofCode f.t).bind fun t => some (.shr f.pre t (.ofBits f.d) (.ofBits f.a) (.ofBits f.b)) else none
  | 0x26 => if f.ub == 0 && f.c == 0 && f.m == 0 then (Ty.ofCode f.t).bind fun t => some (.sar f.pre t (.ofBits f.d) (.ofBits f.a) (.ofBits f.b)) else none
  | 0x27 => if f.ub == 0 && f.c == 0 && f.m == 0 then (Ty.ofCode f.t).bind fun t => some (.rot f.pre t (.ofBits f.d) (.ofBits f.a) (.ofBits f.b)) else none
  | 0x28 => if f.ub == 0 && f.c == 0 && f.m == 0 then (Ty.ofCode f.t).bind fun t => some (.bfx f.pre t (.ofBits f.d) (.ofBits f.a) (.ofBits f.b)) else none
  | 0x29 => if f.ub == 0 && f.m == 0 then (Ty.ofCode f.t).bind fun t => some (.bfi f.pre t (.ofBits f.d) (.ofBits f.a) (.ofBits f.b) (.ofBits f.c)) else none
  | 0x2A => if f.ub == 0 && f.b == 0 && f.c == 0 && f.m == 0 then (Ty.ofCode f.t).bind fun t => some (.popc f.pre t (.ofBits f.d) (.ofBits f.a)) else none
  | 0x2B => if f.ub == 0 && f.b == 0 && f.c == 0 && f.m == 0 then (Ty.ofCode f.t).bind fun t => some (.clz f.pre t (.ofBits f.d) (.ofBits f.a)) else none
  | 0x2C => if f.ub == 0 && f.b == 0 && f.c == 0 && f.m == 0 then (Ty.ofCode f.t).bind fun t => some (.brev f.pre t (.ofBits f.d) (.ofBits f.a)) else none
  | 0x2D => if f.ub == 0 && f.a == 0 && f.m == 0 then (Ty.ofCode f.t).bind fun t => some (.movi f.pre t (.ofBits f.d) f.imm) else none
  | 0x2E => if f.ub == 0 then (Ty.ofCode f.t).bind fun t => (flagOfM f.m).bind fun b40 => some (.movhi f.pre t b40 (.ofBits f.d) (.ofBits f.a) f.imm) else none
  | _ => none

/-- Opcodes 0x30 to 0x3F. -/
def decodePredicate (f : Fields) : Option Instr :=
  match f.op.toNat with
  | 0x30 => if f.ub == 0 && f.c == 0 then (Ty.ofCode f.t).bind fun t => (Cmp.ofM f.m).bind fun cc => some (.icmp f.pre t cc f.d (.ofBits f.a) (.ofBits f.b)) else none
  | 0x31 => if f.t == 0 && f.ub == 0 then some (.plop f.pre f.m f.d f.a f.b f.c) else none
  | 0x32 => if f.ub == 0 && f.m == 0 then (Ty.ofCode f.t).bind fun t => some (.sel f.pre t (.ofBits f.d) (.ofBits f.a) (.ofBits f.b) f.c) else none
  | 0x33 => if f.ub == 0 && f.b == 0 && f.c == 0 && f.m == 0 then (Ty.ofCode f.t).bind fun t => some (.mov f.pre t (.ofBits f.d) (.ofBits f.a)) else none
  | 0x34 => if f.ub == 0 then (Ty.ofCode f.t).bind fun t => (Shfl.ofM f.m).bind fun mode => some (.shfl f.pre t mode (.ofBits f.d) (.ofBits f.a) (.ofBits f.b) (.ofBits f.c)) else none
  | 0x35 => if f.ub == 0 && f.b == 0 && f.c == 0 then (Ty.ofCode f.t).bind fun t => (Vote.ofM f.m).bind fun kind => some (.vote f.pre t kind (.ofBits f.d) (.ofBits f.a)) else none
  | 0x36 => if f.ub == 0 && f.b == 0 && f.c == 0 && f.m == 0 then (Ty.ofCode f.t).bind fun t => some (.matchl f.pre t (.ofBits f.d) (.ofBits f.a)) else none
  | 0x37 => if f.ub == 0 && f.b == 0 && f.c == 0 then (Ty.ofCode f.t).bind fun t => (Lred.ofM f.m).bind fun op => some (.lred f.pre t op (.ofBits f.d) (.ofBits f.a)) else none
  | 0x38 => if f.ub == 0 && f.b == 0 && f.c == 0 then (Ty.ofCode f.t).bind fun t => (flagOfM f.m).bind fun ones => some (.p2v f.pre t ones (.ofBits f.d) f.a) else none
  | 0x39 => if f.ub == 0 && f.b == 0 && f.c == 0 && f.m == 0 then (Ty.ofCode f.t).bind fun t => some (.v2p f.pre t f.d (.ofBits f.a)) else none
  | _ => none

/-- Opcodes 0x40 to 0x4F. -/
def decodeFloat (f : Fields) : Option Instr :=
  match f.op.toNat with
  | 0x40 => if f.ub == 0 && f.c == 0 then (Ty.ofCode f.t).bind fun t => (Rm.ofM f.m).bind fun rm => some (.fadd f.pre t rm (.ofBits f.d) (.ofBits f.a) (.ofBits f.b)) else none
  | 0x41 => if f.ub == 0 && f.c == 0 then (Ty.ofCode f.t).bind fun t => (Rm.ofM f.m).bind fun rm => some (.fsub f.pre t rm (.ofBits f.d) (.ofBits f.a) (.ofBits f.b)) else none
  | 0x42 => if f.ub == 0 && f.c == 0 then (Ty.ofCode f.t).bind fun t => (Rm.ofM f.m).bind fun rm => some (.fmul f.pre t rm (.ofBits f.d) (.ofBits f.a) (.ofBits f.b)) else none
  | 0x43 => if f.ub == 0 then (Ty.ofCode f.t).bind fun t => (Rm.ofM f.m).bind fun rm => some (.ffma f.pre t rm (.ofBits f.d) (.ofBits f.a) (.ofBits f.b) (.ofBits f.c)) else none
  | 0x44 => if f.ub == 0 && f.c == 0 && f.m == 0 then (Ty.ofCode f.t).bind fun t => some (.fmin f.pre t (.ofBits f.d) (.ofBits f.a) (.ofBits f.b)) else none
  | 0x45 => if f.ub == 0 && f.c == 0 && f.m == 0 then (Ty.ofCode f.t).bind fun t => some (.fmax f.pre t (.ofBits f.d) (.ofBits f.a) (.ofBits f.b)) else none
  | 0x46 => if f.ub == 0 && f.c == 0 then (Ty.ofCode f.t).bind fun t => (FCmp.ofM f.m).bind fun cc => some (.fcmp f.pre t cc f.d (.ofBits f.a) (.ofBits f.b)) else none
  | 0x47 => if f.ub == 0 && f.c == 0 && f.m == 0 then (Ty.ofCode f.t).bind fun t => some (.fclass f.pre t f.d (.ofBits f.a) (.ofBits f.b)) else none
  | 0x48 => if f.ub == 0 && f.c == 0 then (Ty.ofCode f.t).bind fun t => (Rm.ofM f.m).bind fun rm => some (.fdiv f.pre t rm (.ofBits f.d) (.ofBits f.a) (.ofBits f.b)) else none
  | 0x49 => if f.ub == 0 && f.b == 0 && f.c == 0 then (Ty.ofCode f.t).bind fun t => (Rm.ofM f.m).bind fun rm => some (.fsqrt f.pre t rm (.ofBits f.d) (.ofBits f.a)) else none
  | 0x4A => if f.ub == 0 && f.b == 0 && f.c == 0 then (Ty.ofCode f.t).bind fun t => (Rm.ofM f.m).bind fun rm => some (.frint f.pre t rm (.ofBits f.d) (.ofBits f.a)) else none
  | 0x4B => if f.ub == 0 && f.b == 0 && f.c == 0 && f.m == 0 then (Ty.ofCode f.t).bind fun t => some (.fabs f.pre t (.ofBits f.d) (.ofBits f.a)) else none
  | 0x4C => if f.ub == 0 && f.b == 0 && f.c == 0 && f.m == 0 then (Ty.ofCode f.t).bind fun t => some (.fneg f.pre t (.ofBits f.d) (.ofBits f.a)) else none
  | 0x4D => if f.ub == 0 then (Ty.ofCode f.t).bind fun t => (Rm.ofM f.m).bind fun rm => some (.fdot f.pre t rm (.ofBits f.d) (.ofBits f.a) (.ofBits f.b) (.ofBits f.c)) else none
  | _ => none

/-- Opcodes 0x50 to 0x5F. -/
def decodeTranscendental (f : Fields) : Option Instr :=
  match f.op.toNat with
  | 0x50 => if f.ub == 0 && f.b == 0 && f.c == 0 && f.m == 0 then (Ty.ofCode f.t).bind fun t => some (.fexp2 f.pre t (.ofBits f.d) (.ofBits f.a)) else none
  | 0x51 => if f.ub == 0 && f.b == 0 && f.c == 0 && f.m == 0 then (Ty.ofCode f.t).bind fun t => some (.flog2 f.pre t (.ofBits f.d) (.ofBits f.a)) else none
  | 0x52 => if f.ub == 0 && f.b == 0 && f.c == 0 && f.m == 0 then (Ty.ofCode f.t).bind fun t => some (.fsin f.pre t (.ofBits f.d) (.ofBits f.a)) else none
  | 0x53 => if f.ub == 0 && f.b == 0 && f.c == 0 && f.m == 0 then (Ty.ofCode f.t).bind fun t => some (.fcos f.pre t (.ofBits f.d) (.ofBits f.a)) else none
  | 0x54 => if f.ub == 0 && f.b == 0 && f.c == 0 && f.m == 0 then (Ty.ofCode f.t).bind fun t => some (.frsq f.pre t (.ofBits f.d) (.ofBits f.a)) else none
  | 0x55 => if f.ub == 0 && f.b == 0 && f.c == 0 && f.m == 0 then (Ty.ofCode f.t).bind fun t => some (.frcp f.pre t (.ofBits f.d) (.ofBits f.a)) else none
  | 0x56 => if f.ub == 0 && f.b == 0 && f.c == 0 && f.m == 0 then (Ty.ofCode f.t).bind fun t => some (.ftanh f.pre t (.ofBits f.d) (.ofBits f.a)) else none
  | _ => none

/-- Opcodes 0x60 to 0x6F. -/
def decodeConvert (f : Fields) : Option Instr :=
  match f.op.toNat with
  | 0x60 => if f.ub == 0 && f.lo8 == 0 then (Ty.ofCode f.t).bind fun t => (Rm.ofM f.m).bind fun rm => some (.cvt f.pre t rm (.ofBits f.d) (.ofBits f.a) f.pol f.fc) else none
  | 0x61 => if f.ub == 0 && f.lo8 == 0 then (Ty.ofCode f.t).bind fun t => some (.cvtn f.pre t (.ofCode (f.m.extractLsb' 0 2)) (f.m.extractLsb' 2 2) (.ofBits f.d) (.ofBits f.a) f.pol f.fc) else none
  | 0x62 => if f.ub == 0 && f.lo8 == 0 && f.m.extractLsb' 0 2 == 0 then (Ty.ofCode f.t).bind fun t => some (.cvtw f.pre t (f.m.extractLsb' 2 2) (.ofBits f.d) (.ofBits f.a) f.pol f.fc) else none
  | _ => none

/-- Opcodes 0x70 to 0x7F. -/
def decodeMemory (f : Fields) : Option Instr :=
  match f.op.toNat with
  | 0x70 => if f.ub == 0 && f.tag == 0 then (Ty.ofCode f.t).bind fun t => (MemMode.ofM f.m).bind fun m => some (.ld f.pre t m (.ofBits f.d) (.ofBits f.a) f.off16 f.hint) else none
  | 0x71 => if f.ub == 0 then (Ty.ofCode f.t).bind fun t => (MemMode.ofM f.m).bind fun m => some (.st f.pre t m (f.tag == 1) (.ofBits f.d) (.ofBits f.a) f.off16 f.hint) else none
  | 0x72 => if f.ub == 0 && f.tag == 0 && f.hint == 0 then (Ty.ofCode f.t).bind fun t => (Size.ofM f.m).bind fun z => some (.lds f.pre t z (.ofBits f.d) (.ofBits f.a) f.off16) else none
  | 0x73 => if f.ub == 0 && f.tag == 0 && f.hint == 0 then (Ty.ofCode f.t).bind fun t => (Size.ofM f.m).bind fun z => some (.sts f.pre t z (.ofBits f.d) (.ofBits f.a) f.off16) else none
  | 0x74 => if f.ub == 0 && f.tag == 0 && f.hint == 0 then (Ty.ofCode f.t).bind fun t => (Size.ofM f.m).bind fun z => some (.ldrs f.pre t z (.ofBits f.d) (.ofBits f.a) f.off16) else none
  | 0x75 => if f.ub == 0 && f.tag == 0 && f.hint == 0 then (Ty.ofCode f.t).bind fun t => (Size.ofM f.m).bind fun z => some (.strs f.pre t z (.ofBits f.d) (.ofBits f.a) f.off16) else none
  | 0x76 => if f.t == 0 && f.ub == 0 && f.d == 0 && f.tag == 0 then (flagOfM f.m).bind fun l1 => some (.pref f.pre l1 (.ofBits f.a) f.off16 f.hint) else none
  | 0x77 => if f.t == 1 && f.ub == 0 && f.tag == 0 && f.hint == 0 && f.m == 0 then some (.pin f.pre (.ofBits f.d) (.ofBits f.a) f.off16) else none
  | 0x78 => if f.t == 0 && f.ub == 0 && f.d == 0 && f.tag == 0 && f.hint == 0 && f.m == 0 then some (.unpin f.pre (.ofBits f.a) f.off16) else none
  | 0x79 =>
    if f.m == 0 then (if f.t == 0 && f.ub == 0 && f.e == 0 then some (.cctlIinv f.pre) else none)
    else if f.m == 1 then (if f.t == 0 && f.ub == 0 && f.e == 0 then some (.cctlL1 f.pre) else none)
    else if f.m == 2 then (if f.t == 0 && f.ub == 0 && f.d == 0 && f.tag == 0 && f.hint == 0 then some (.cctlEvict f.pre (.ofBits f.a) f.off16) else none)
    else if f.m == 3 then (if f.t == 0 && f.ub == 0 && f.d == 0 && f.tag == 0 && f.hint == 0 then some (.cctlFlush f.pre (.ofBits f.a) f.off16) else none)
    else none
  | 0x7A => if f.t == 0 && f.ub == 0 && f.lo8 == 0 then (flagOfM f.m).bind fun bwd => some (.rrot f.pre bwd (.ofBits f.d) (.ofBits f.a) (f.e.extractLsb' 8 12)) else none
  | 0x7B => if f.t == 0 && f.ub == 0 && f.e == 0 then (Scope.ofM f.m).bind fun sc => some (.fence f.pre sc) else none
  | _ => none

/-- Opcodes 0x80 to 0x8F. -/
def decodeAtomic (f : Fields) : Option Instr :=
  match f.op.toNat with
  | 0x80 => if f.ub == 0 && f.c == 0 then (Ty.ofCode f.t).bind fun t => (AtomOp.ofM f.m).bind fun op => some (.atom f.pre t op (.ofBits f.d) (.ofBits f.a) (.ofBits f.b)) else none
  | 0x81 => if f.ub == 0 && f.m == 0 then (Ty.ofCode f.t).bind fun t => some (.acas f.pre t (.ofBits f.d) (.ofBits f.a) (.ofBits f.b) (.ofBits f.c)) else none
  | 0x82 => if f.t == 4 && f.ub == 0 && f.d == 0 && f.c == 0 && f.m == 0 then some (.gsadd f.pre (.ofBits f.a) (.ofBits f.b)) else none
  | 0x83 =>
    if f.m == 0 then (if f.t == 0 && f.ub == 0 && f.d == 0 && f.c == 0 then some (.gsflush f.pre (.ofBits f.a) (.ofBits f.b)) else none)
    else if f.m == 1 then (if f.t == 0 && f.ub == 0 && f.e == 0 then some (.gsflushAll f.pre) else none)
    else none
  | _ => none

/-- Opcodes 0x90 to 0x9F. -/
def decodeSync (f : Fields) : Option Instr :=
  match f.op.toNat with
  | 0x90 => if f.t == 0 && f.ub == 0 && f.e.extractLsb' 16 24 == 0 && f.m == 0 then some (.wait f.pre (f.e.extractLsb' 12 4) (f.e.extractLsb' 8 4) (f.e.extractLsb' 4 4) (f.e.extractLsb' 0 4)) else none
  | 0x91 =>
    if f.m == 0 then (if f.t == 0 && f.ub == 0 && f.d == 0 && f.e.extractLsb' 4 16 == 0 then some (.barSync f.pre (.ofBits f.a) (f.e.extractLsb' 0 4)) else none)
    else if f.m == 1 then (if f.t == 0 && f.ub == 0 && f.d == 0 && f.e.extractLsb' 4 16 == 0 then some (.barArv f.pre (.ofBits f.a) (f.e.extractLsb' 0 4)) else none)
    else none
  | 0x92 =>
    if f.m == 0 then (if f.t == 0 && f.ub == 0 && f.d == 0 && f.e.extractLsb' 4 16 == 0 then some (.cbarSync f.pre (.ofBits f.a) (f.e.extractLsb' 0 4)) else none)
    else if f.m == 1 then (if f.t == 0 && f.ub == 0 && f.d == 0 && f.e.extractLsb' 4 16 == 0 then some (.cbarArv f.pre (.ofBits f.a) (f.e.extractLsb' 0 4)) else none)
    else none
  | 0x93 => if f.t == 0 && f.ub == 0 && f.d == 0 && f.c == 0 && f.m == 0 then some (.tbinit f.pre (.ofBits f.a) (.ofBits f.b)) else none
  | 0x94 =>
    if f.m.extractLsb' 3 1 == 0 then (if f.t == 0 && f.ub == 0 && f.d == 0 && f.b == 0 && f.c == 0 then (Scope.ofCode (f.m.extractLsb' 0 3)).bind fun sc => some (.tbarriveLane f.pre sc (.ofBits f.a)) else none)
    else if f.m.extractLsb' 3 1 == 1 then (if f.t == 0 && f.ub == 0 && f.d == 0 && f.b == 0 && f.c == 0 then (Scope.ofCode (f.m.extractLsb' 0 3)).bind fun sc => some (.tbarrivePath f.pre sc (.ofBits f.a)) else none)
    else none
  | 0x95 => if f.t == 0 && f.ub == 0 && f.d == 0 && f.c == 0 && f.m == 0 then some (.tbexpect f.pre (.ofBits f.a) (.ofBits f.b)) else none
  | 0x96 => if f.t == 0 && f.ub == 0 && f.d == 0 && f.c == 0 then (Scope.ofM f.m).bind fun sc => some (.tbwait f.pre sc (.ofBits f.a) (.ofBits f.b)) else none
  | _ => none

/-- Opcodes 0xA0 to 0xAF. -/
def decodeQueue (f : Fields) : Option Instr :=
  match f.op.toNat with
  | 0xA0 => if f.t == 0 && f.ub == 0 && f.c == 0 && f.m == 0 then some (.spawn f.pre (.ofBits f.d) (.ofBits f.a) (.ofBits f.b)) else none
  | 0xA1 => if f.t == 0 && f.ub == 0 && f.d == 0 && f.b == 0 && f.c == 0 && f.m == 0 then some (.join f.pre (.ofBits f.a)) else none
  | 0xA2 => if f.t == 0 && f.ub == 0 && f.c == 0 && f.m == 0 then some (.qres f.pre (.ofBits f.d) (.ofBits f.a) (.ofBits f.b)) else none
  | 0xA3 => if f.t == 0 && f.ub == 0 && f.c == 0 && f.m == 0 then some (.qcommit f.pre (.ofBits f.d) (.ofBits f.a) (.ofBits f.b)) else none
  | 0xA4 => if f.ub == 0 && f.e.extractLsb' 2 28 == 0 && f.m == 0 then (Ty.ofCode f.t).bind fun t => some (.qpop f.pre t (.ofBits f.d) (f.e.extractLsb' 0 2)) else none
  | 0xA5 => if f.t == 0 && f.ub == 0 && f.e.extractLsb' 2 28 == 0 && f.m == 0 then some (.qpeek f.pre (.ofBits f.d) (f.e.extractLsb' 0 2)) else none
  | 0xA8 => if f.ub == 0 && f.d == 0 && f.b == 0 && f.c == 0 && f.m == 0 then (Ty.ofCode f.t).bind fun t => some (.trec f.pre t (.ofBits f.a)) else none
  | 0xA9 =>
    if f.m == 0 then (if f.t == 0 && f.ub == 0 && f.e == 0 then some (.tspan f.pre) else none)
    else if f.m == 1 then (if f.t == 0 && f.ub == 0 && f.d == 0 && f.c == 0 then some (.tspanRc f.pre (.ofBits f.a) (.ofBits f.b)) else none)
    else if f.m == 2 then (if f.t == 0 && f.ub == 0 && f.d == 0 && f.c == 0 then some (.tspanArea f.pre (.ofBits f.a) (.ofBits f.b)) else none)
    else none
  | 0xAA => if f.ub == 0 && f.a == 0 && f.b == 0 && f.c == 0 && f.m == 0 then (Ty.ofCode f.t).bind fun t => some (.tpop f.pre t (.ofBits f.d)) else none
  | 0xAB => if f.t == 0 && f.ub == 0 && f.e == 0 && f.m == 0 then some (.tret f.pre) else none
  | _ => none

/-- Opcodes 0xB0 to 0xBF. -/
def decodeRender (f : Fields) : Option Instr :=
  match f.op.toNat with
  | 0xB0 => if f.t == 0 && f.ub == 0 && f.m == 0 then some (.raygen f.pre (.ofBits f.d) (.ofBits f.a) (.ofBits f.b) (.ofBits f.c)) else none
  | 0xB1 =>
    if f.m == 0 then (if f.t == 0 && f.ub == 0 && f.c == 0 then some (.trace f.pre (.ofBits f.d) (.ofBits f.a) (.ofBits f.b)) else none)
    else if f.m == 1 then (if f.t == 0 && f.ub == 0 && f.d == 0 then some (.traceAdjTri f.pre (.ofBits f.a) (.ofBits f.b) (.ofBits f.c)) else none)
    else if f.m == 3 then (if f.t == 0 && f.ub == 0 && f.d == 0 then some (.traceAdjPatch f.pre (.ofBits f.a) (.ofBits f.b) (.ofBits f.c)) else none)
    else none
  | 0xB2 =>
    if f.m == 0 then (if f.t == 0 && f.ub == 0 then some (.tsamp f.pre (.ofBits f.d) (.ofBits f.a) (.ofBits f.b) (.ofBits f.c)) else none)
    else if f.m == 1 then (if f.t == 0 && f.ub == 0 then some (.tsampAdj f.pre (.ofBits f.d) (.ofBits f.a) (.ofBits f.b) (.ofBits f.c)) else none)
    else none
  | 0xB3 => if f.t == 0 && f.ub == 0 && f.m == 0 then some (.esamp f.pre (.ofBits f.d) (.ofBits f.a) (.ofBits f.b) (.ofBits f.c)) else none
  | _ => none

/-- Opcodes 0xC0 to 0xCF. -/
def decodeTile (f : Fields) : Option Instr :=
  match f.op.toNat with
  | 0xC0 => if f.t == 0 && f.ub == 0 && f.d == 0 && f.e.extractLsb' 5 5 == 0 && f.m == 0 then some (.tres f.pre (f.e.extractLsb' 0 5) (.ofBits f.a) (.ofBits f.b)) else none
  | 0xC1 => if f.t == 0 && f.ub == 0 && f.rb == 0 && f.flags == 0 && f.lo8 == 0 then (Scope.ofM f.m).bind fun sc => some (.tfetch f.pre sc f.core f.tile f.ra f.ks) else none
  | 0xC2 => if f.t == 0 && f.ub == 0 && f.rb == 0 && f.flags == 0 && f.lo8 == 0 then (Scope.ofM f.m).bind fun sc => some (.tlds f.pre sc f.core f.tile f.ra f.ks) else none
  | 0xC3 => if f.t == 0 && f.ub == 0 && f.e.extractLsb' 8 4 == 0 && f.lo8 == 0 && f.m == 0 then some (.tmma f.pre f.core f.tile f.ra f.rb f.ks (f.e.extractLsb' 15 1 == 1) (f.e.extractLsb' 14 1 == 1) (f.e.extractLsb' 13 1 == 1) (f.e.extractLsb' 12 1 == 1)) else none
  | 0xC4 => if f.t == 0 && f.ub == 0 && f.ra == 0 && f.rb == 0 && f.ks == 0 && f.flags == 0 && f.lo8 == 0 then (flagOfM f.m).bind fun a64 => some (.tzero f.pre a64 f.core f.tile) else none
  | 0xC5 => if f.t == 0 && f.ub == 0 && f.rb == 0 && f.flags == 0 && f.lo8 == 0 then (Rm.ofM f.m).bind fun rm => some (.tcvt f.pre rm f.core f.tile f.ra f.ks) else none
  | 0xC6 =>
    if f.m == 0 then (if f.t == 0 && f.ub == 0 && f.ra == 0 && f.rb == 0 && f.e.extractLsb' 22 2 == 0 && f.flags == 0 && f.lo8 == 0 then some (.tstbEnt f.pre f.core f.tile (f.e.extractLsb' 16 6)) else none)
    else if f.m == 1 then (if f.t == 0 && f.ub == 0 && f.ra == 0 && f.rb == 0 && f.e.extractLsb' 22 2 == 0 && f.flags == 0 && f.lo8 == 0 then some (.tstbFull f.pre f.core f.tile (f.e.extractLsb' 16 6)) else none)
    else none
  | 0xC7 =>
    if f.m == 0 then (if f.t == 0 && f.ub == 0 && f.ra == 0 && f.rb == 0 && f.e.extractLsb' 22 2 == 0 && f.flags == 0 && f.lo8 == 0 then some (.tldbEnt f.pre f.core f.tile (f.e.extractLsb' 16 6)) else none)
    else if f.m == 1 then (if f.t == 0 && f.ub == 0 && f.ra == 0 && f.rb == 0 && f.e.extractLsb' 22 2 == 0 && f.flags == 0 && f.lo8 == 0 then some (.tldbFull f.pre f.core f.tile (f.e.extractLsb' 16 6)) else none)
    else none
  | 0xC8 =>
    if f.m == 0 then (if f.t == 0 && f.ub == 0 && f.ra == 0 && f.rb == 0 && f.e.extractLsb' 22 2 == 0 && f.flags == 0 && f.lo8 == 0 then some (.tbsetThr f.pre f.core f.tile (f.e.extractLsb' 16 6)) else none)
    else if f.m == 1 then (if f.t == 0 && f.ub == 0 && f.ra == 0 && f.rb == 0 && f.e.extractLsb' 22 2 == 0 && f.flags == 0 && f.lo8 == 0 then some (.tbsetHdr f.pre f.core f.tile (f.e.extractLsb' 16 6)) else none)
    else if f.m == 2 then (if f.t == 0 && f.ub == 0 && f.ra == 0 && f.rb == 0 && f.e.extractLsb' 22 2 == 0 && f.flags == 0 && f.lo8 == 0 then some (.tbsetAll f.pre f.core f.tile (f.e.extractLsb' 16 6)) else none)
    else none
  | 0xC9 => if f.t == 0 && f.ub == 0 && f.ra == 0 && f.rb == 0 && f.e.extractLsb' 22 2 == 0 && f.flags == 0 && f.lo8 == 0 && f.m == 0 then some (.tsave f.pre f.core f.tile (f.e.extractLsb' 16 6)) else none
  | 0xCA =>
    if f.m.extractLsb' 0 2 == 0 then (if f.t == 0 && f.ub == 0 && f.ra == 0 && f.rb == 0 && f.e.extractLsb' 22 2 == 0 && f.flags == 0 && f.lo8 == 0 && f.m.extractLsb' 3 1 == 0 then some (.tresumeCont f.pre (f.m.extractLsb' 2 1 == 1) f.core f.tile (f.e.extractLsb' 16 6)) else none)
    else if f.m.extractLsb' 0 2 == 1 then (if f.t == 0 && f.ub == 0 && f.ra == 0 && f.rb == 0 && f.e.extractLsb' 22 2 == 0 && f.flags == 0 && f.lo8 == 0 && f.m.extractLsb' 3 1 == 0 then some (.tresumeWide f.pre (f.m.extractLsb' 2 1 == 1) f.core f.tile (f.e.extractLsb' 16 6)) else none)
    else if f.m.extractLsb' 0 2 == 2 then (if f.t == 0 && f.ub == 0 && f.ra == 0 && f.rb == 0 && f.e.extractLsb' 22 2 == 0 && f.flags == 0 && f.lo8 == 0 && f.m.extractLsb' 3 1 == 0 then some (.tresumeRestart f.pre (f.m.extractLsb' 2 1 == 1) f.core f.tile (f.e.extractLsb' 16 6)) else none)
    else none
  | _ => none

/-- Opcodes 0xD0 to 0xDF. -/
def decodeTrap (f : Fields) : Option Instr :=
  match f.op.toNat with
  | 0xD0 => if f.t == 0 && f.ub == 0 && f.d == 0 && f.a == 0 && f.m == 0 then some (.trap f.pre f.imm) else none
  | 0xD1 => if f.t == 0 && f.ub == 0 && f.d == 0 && f.a == 0 && f.m == 0 then some (.brk f.pre f.imm) else none
  | 0xD2 => if f.t == 0 && f.ub == 0 && f.e == 0 && f.m == 0 then some (.hret f.pre) else none
  | 0xD3 => if f.t == 0 && f.ub == 0 && f.d == 0 && f.b == 0 && f.c == 0 && f.m == 0 then some (.snap f.pre (.ofBits f.a)) else none
  | 0xD4 => if f.ub == 0 && f.b == 0 && f.c == 0 && f.m == 0 then (Ty.ofCode f.t).bind fun t => some (.wrsr f.pre t f.d (.ofBits f.a)) else none
  | _ => none

/-- Opcodes 0xE0 to 0xEF. -/
def decodeProducer (f : Fields) : Option Instr :=
  match f.op.toNat with
  | 0xE0 => if f.ub == 0 && f.tag == 0 && f.hint == 0 then (Ty.ofCode f.t).bind fun t => (SldSize.ofCode (f.m.extractLsb' 0 3)).bind fun z => some (.sld f.pre t z (f.m.extractLsb' 3 1 == 1) (.ofBits f.d) (.ofBits f.a) f.off16) else none
  | 0xE1 => if f.t == 0 && f.ub == 0 && f.d == 0 && f.e.extractLsb' 2 18 == 0 && f.m == 0 then some (.qpush f.pre (.ofBits f.a) (f.e.extractLsb' 0 2)) else none
  | 0xE2 => if f.t == 0 && f.ub == 0 && f.m == 0 then some (.sloop f.pre (.ofBits f.d) f.off30) else none
  | _ => none

/-- The instruction that the fields name, before the checks of `Instr.wellFormed`: reserved fields are zero and every code names something.
An opcode that R61 does not list names nothing (R62). -/
def rawDecode (f : Fields) : Option Instr :=
  match f.op.toNat / 16 with
  | 0x0 => decodeControl f
  | 0x1 => decodeInteger f
  | 0x2 => decodeBit f
  | 0x3 => decodePredicate f
  | 0x4 => decodeFloat f
  | 0x5 => decodeTranscendental f
  | 0x6 => decodeConvert f
  | 0x7 => decodeMemory f
  | 0x8 => decodeAtomic f
  | 0x9 => decodeSync f
  | 0xA => decodeQueue f
  | 0xB => decodeRender f
  | 0xC => decodeTile f
  | 0xD => decodeTrap f
  | 0xE => decodeProducer f
  | _ => none

/-- The instruction of a word (R61 to R65), or none where the word alone shows cause 2 (R64 step 2). -/
def decode (w : Word) : Option Instr :=
  (rawDecode (.ofWord w)).filter Instr.wellFormed

/-- An instruction word is 64 bits: the one word that stands at its address, little-endian (R3, R46).
A word of `nbits` bits has zeros above them. -/
def decodeTableWord (nbits w : Nat) : Option Instr := decode (BitVec.ofNat 64 (w % 2 ^ nbits))

/-! ### Clause headers (R44) -/

/-- Clause classes (R51). -/
inductive Class where
  | a | m | g | s
deriving DecidableEq, Repr

/-- A clause header (R44). -/
structure Header where
  cls   : Class
  count : Nat            -- words minus 1, 0 to 15
  ld    : Nat            -- ceilings; 15 places no limit
  st    : Nat
  cp    : Nat
  tl    : Nat
  yend  : Bool
deriving DecidableEq, Repr

/-- A header from its 64 bits, or none where R44 makes the word a clause-frame trap. -/
def Header.ofWord (w : Word) : Option Header :=
  let n (lo len : Nat) : Nat := (w.extractLsb' lo len).toNat
  if n 56 8 == 0xFE && n 32 24 == 0 && n 0 7 == 0 then
    let mk (c : Class) : Option Header :=
      some { cls := c, count := n 24 4, ld := n 20 4, st := n 16 4, cp := n 12 4, tl := n 8 4, yend := n 7 1 == 1 }
    match n 28 4 with
    | 0 => mk .a
    | 1 => mk .m
    | 2 => mk .g
    | 3 => mk .s
    | _ => none
  else none

/-- CLASS field of a class (R44). -/
def Class.code : Class → BitVec 4
  | .a => 0 | .m => 1 | .g => 2 | .s => 3

/-- The 64 bits of a header (R44). -/
def Header.word (h : Header) : Word :=
  (0xFE#8) ++ (0#24) ++ h.cls.code ++ BitVec.ofNat 4 h.count ++ BitVec.ofNat 4 h.ld ++ BitVec.ofNat 4 h.st ++ BitVec.ofNat 4 h.cp
    ++ BitVec.ofNat 4 h.tl ++ bit h.yend ++ (0#7)

end Sys2Proof
end

