-- ==== Sys2Proof/Config.lean ====
section
/-! DEFINITION. What the K4 fixes for every part, what one part or its host fixes, and the free values: constants with no body, for what the spec leaves open. -/

namespace Sys2Proof.Config

/-! ### Counts of the package (R10, R13, R14) -/

def dies : Nat := 4
def clusters : Nat := 42
def coresPerCluster : Nat := 4
def coreSlices : Nat := 48
def memSlices : Nat := 64
def waveSlots : Nat := 32
def gafferContexts : Nat := 4
def channels : Nat := 16
def maxCrews : Nat := 16

/-! ### Memories (R15, R239, R241, R244, R248) -/

/-- Offsets of the HBM4 tier: 384 GiB. -/
def hbmBytes : Nat := 384 * 2 ^ 30
/-- Offsets of the LPDDR6 tier: 1 TiB. -/
def lpddrBytes : Nat := 2 ^ 40
/-- Vector and handler areas of a core (R91). -/
def vectorBytes : Nat := 0x60000
/-- First byte of accumulator slot 0 (R91). -/
def slotBase : Nat := 0x60000
/-- Bytes of an accumulator slot (R91). -/
def slotBytes : Nat := 0x2000
/-- Scratchpad blocks of a core: seven of the eight 64 KiB blocks (R241). -/
def scratchRegion : Nat := 7 * 65536
/-- Sets, tags and sectors of a core-side slice (R244). -/
def coreSets : Nat := 768
def coreTags : Nat := 32
def setSectors : Nat := 64
/-- Sets and tags of a memory-side slice (R248). -/
def memSets : Nat := 512
def memTags : Nat := 64
/-- Scatter slots of a core-side slice (R277). -/
def scatterSlots : Nat := 2048
/-- Software pins of a team or context (R272). -/
def softPins : Nat := 64
/-- Pinned lines of a team for each accumulator slot it holds (R170). -/
def pinQuota : Nat := 128

/-! ### What one part fixes -/

/-- The package stands on a K4M carrier with LPDDR6 (R11): each part is one or the other. Log 8. -/
opaque isK4M : Bool

/-- The set of a slice of either tier that a line falls in, modulo the number of its sets: R244 and R248 give the counts of sets and not the
mapping (log 19). -/
opaque setOf : Nat → Nat

/-- The secure region table's home in memory is the firmware's choice; its entries are held in State (R223). -/
opaque vendorKey : List (BitVec 8)
/-- Serial number of the device identity certificate (R408). -/
opaque serial : List (BitVec 8)
/-- The SM3 digest (R408): a standard that the spec names and does not define. Log 13. -/
opaque sm3 : List (BitVec 8) → BitVec 256
/-- Whether a signature over a digest verifies under a key (R408). Log 13. -/
opaque sm2Verify : List (BitVec 8) → BitVec 256 → List (BitVec 8) → Bool
/-- The signature of the device identity key over a report (R408). Log 13. -/
opaque sm2Sign : List (BitVec 8) → List (BitVec 8)

/-! ### Free values: nothing constrains them. Each is applied to State.free, a counter that a step reads and advances (log 4). -/

/-- A choice between two outcomes that the spec allows (R12, R50, R224, R247). -/
opaque freeBit : Nat → Bool
/-- A choice among several outcomes that the spec allows: taken modulo their number (R292, R349). -/
opaque freeIndex : Nat → Nat
/-- Whether data that is read meets an error that cannot be corrected (R257): what a cell of memory suffers is no state of the machine. Log 79. -/
opaque eccError : Nat → Bool
/-- The type in which a copy of ROUTE 1 and KIND 4 reads scratchpad (R348, R349): from its template and headers. Log 28. -/
opaque copyType : List (BitVec 8) → Nat
/-- Which of several values that a copy writes along a stride-0 dimension stays (R349): from its template and headers. Log 28. -/
opaque copyLast : List (BitVec 8) → Nat
/-- Whether a part of a conversion or quantisation that meets the fault action had been Sent before (R352): from its template, headers and the part. Log 46. -/
opaque sentBefore : List (BitVec 8) → Nat → Bool
/-- Whether a micro-triangle that the pyramid does not bound is a candidate (R386): from the sources of the `TRACE`, the patch's address and the micro
index. Log 32. -/
opaque extraMicro : List Nat → Nat → Nat → Bool
/-- Which of the candidates that tie in every key of R384 a `TRACE` takes: from its sources and the results of those candidates. Log 32. -/
opaque traceTie : List Nat → List (List Nat) → Nat
/-- A channel that `TSAMP` returns for a descriptor with a field outside R233's values: from the descriptor, the sources and the channel. Log 33. -/
opaque badSample : List (BitVec 8) → List Nat → Nat → BitVec 32
/-- A queue time, a gauge or a signal whose value the spec does not state (R314, R315, R410). -/
opaque freeWord : Nat → BitVec 64

/-- The gauges POWER (0) and TEMP (1) of a die at a clock (R410): what a sensor shows is no state of the machine. Log 26. -/
opaque gauge : Nat → Nat → Nat → BitVec 64

end Sys2Proof.Config
end

