-- ==== Sys2Proof/Machine/State.lean ====
section
/-! DEFINITION. The state of the K4 and its host, as plain data, with the state after reset.
INVENTORY.md lists every item with the rule that names it. A collection keyed by a name is a list of pairs; what is not listed has
the default that its accessor in Machine/Ops.lean states. -/

namespace Sys2Proof.Machine

/-! ### Places -/

/-- A core of the package: die, cluster, core (R13, R14). -/
structure CoreId where
  die : Nat
  cluster : Nat
  core : Nat
deriving DecidableEq, Repr

/-- An ordering point (R284), or the scratchpad of a team (R267). -/
inductive Point where
  | slice (die k : Nat)      -- core-side slice
  | mslice (die m : Nat)     -- memory-side slice
  | lpddr (die : Nat)        -- LPDDR6 controller
  | aperture (die : Nat)     -- device aperture of a die (R403)
  | pcie                     -- the host, behind the PCIe window (R404)
  | peer (p : Nat)           -- a UALink peer (R405)
  | pad (crew rank : Nat)    -- the scratchpad of a team
deriving DecidableEq, Repr

/-- What the leaf of a page says (R219), with the physical place it gives. `at_` is the byte's key in memory:
an HBM4 offset or a window address, or 2^52 plus an LPDDR6 offset. -/
structure Leaf where
  at_ : Nat
  cp  : Nat
  cmp : Bool
  roc : Bool
  sec : Bool
  w   : Bool
  x   : Bool
deriving DecidableEq, Repr

/-! ### The ordering machine -/

/-- What an ordering point keeps of a line beside its value (R265, R246). -/
structure LineState where
  tag    : BitVec 32
  copies : BitVec 3
  cmp    : Bool             -- held in BDZ form: CMP of the leaf of its last access that the slices hold or change (R249, R251)
deriving DecidableEq, Repr

/-- A scatter slot (R277): the sum S in units of 2^-149 and the four flags. -/
structure Scatter where
  word : Nat            -- key of the word's first byte
  sum  : Int
  nan  : Bool
  pinf : Bool
  ninf : Bool
  ovfl : Bool
deriving DecidableEq, Repr

/-- A line that a slice of either tier holds (R244, R246, R248). -/
structure Held where
  line    : Nat
  sectors : Nat
  written : Bool
  copy    : Bool        -- a remote-sector read copy
  team    : Option (Nat × Nat) -- crew and team of its last access, for R244
deriving DecidableEq, Repr

/-- Who holds a pin (R180, R272, R351). -/
inductive PinHolder where
  | tile (crew rank step : Nat)
  | soft (crew : Nat) (sid : Sid)   -- a team's pins stand under its wave 0
  | im2col (crew rank : Nat)
deriving DecidableEq, Repr

/-- A pinned line; `away` says that the pin stands in the memory-side slice (R252). -/
structure Pin where
  holder : PinHolder
  line   : Nat
  away   : Bool
deriving DecidableEq, Repr

/-- An entry of a core's L1 view (R243). -/
structure L1Entry where
  line    : Nat
  tag     : BitVec 32
  secure  : Bool
  asid    : BitVec 16
  sectors : BitVec 4
  data    : List Byte
  spec    : BitVec 4        -- sectors filled under speculation and not confirmed (R247)
  coded   : Bool := false   -- a Fill that no response brought has it from a CMP = 1 page, and no lane has had it expanded yet (R254, log 80)
deriving DecidableEq, Repr

/-- One lane's part of a message: its first byte, and the values it carries or has received. -/
structure Act where
  lane : Nat
  key  : Nat
  size : Nat
  b    : Word           -- data or operand, low half
  c    : Word           -- data high half, or the second operand of ACAS
deriving DecidableEq, Repr

/-- Who an observation record or a host record is about: a lane of a stream, as it stood (R312, R313, R401). -/
structure Who where
  gln    : Nat
  prod   : Bool
  gaff   : Bool
  secure : Bool
  pc     : Word
  task   : Word
  asid   : BitVec 16
  queue  : Nat
deriving DecidableEq, Repr

/-- Kinds of messages (R283, R286). -/
inductive MsgKind where
  | load | store | atom | acas | gsadd | flush | flushAll | pin | evict | clean
  | spill        -- a write of the tape engine (R374, R292)
deriving DecidableEq, Repr

/-- Where a message is (R286): going out, or coming back as a response or acknowledgement. -/
inductive Phase where
  | out | back
  | posted       -- a PCIe write whose lane has completed and that the host has not taken (R404)
deriving DecidableEq, Repr

/-- A message in flight: the lanes of one word that name one line (R262, R286). -/
structure Msg where
  id     : Nat
  crew   : Nat
  sid    : Sid
  entry  : Nat
  kind   : MsgKind
  word   : Word             -- the word that sent it
  point  : Point
  line   : Nat
  leaf   : Leaf
  acts   : List Act
  phase  : Phase
  tag    : BitVec 32
  bad    : Bool             -- the response is uncorrectable (R257)
  held   : Bool             -- dropped by a full queue and not yet sent again (R341)
  sys    : Bool             -- a write through a window that the far side has not acknowledged
  core   : CoreId
  secure : Bool
  asid   : BitVec 16
  who    : Who              -- its lowest lane as it stood when it was sent (R320)
  peer   : Bool := false    -- a peer cluster's L1 has answered it (R247)
  taken  : Bool := false    -- the coalescer has taken the response, with a Fill (R396)
  accepted : Bool := false  -- its receiver has accepted it: it stands in no replay window (R341)
  tries  : Nat := 0         -- consecutive refusals (R342)
  due    : Nat := 0         -- a held message may be sent again from this clock of its port's die
deriving DecidableEq, Repr

/-! ### Streams -/

/-- A join, or a producer's oldest push, that has been refused and is to be sent again (R334, R341, R360). -/
structure Replay where
  port  : Nat               -- its sending port
  crew  : Nat
  sid   : Option Sid        -- its stream; none for the join of a crew's exit
  lane  : Nat               -- its lane; for a push its entry
  tries : Nat               -- consecutive refusals (R342)
  due   : Nat               -- clock of the sender's die from which it may be sent again
deriving DecidableEq, Repr

/-- The trap registers of a wave or context (R197 to R199). -/
structure TrapRegs where
  cause : BitVec 32
  mask  : BitVec 32
  pc    : Word
  aux   : Word
deriving DecidableEq, Repr

/-- What a path waits on (R215, R301). `counts` is a `WAIT`; `release` an arrival whose release has not been made in these lanes (R289);
`pad` a `TBWAIT` whose barrier's bytes an older scratchpad access of these lanes still changes or reads (R267); `over w` says that the wait `w` has ended.
`more w r`: the lanes of `Path.only` have joined a path that waits with `w`, and the word has still to act for them (R31, R301), after the release `r`. -/
inductive Wait where
  | none
  | counts (ld st cp tl : Nat)
  | bar (n ph : Nat)
  | cbar (n ph : Nat)
  | tbar (rank off ph : Nat) (sc : Scope)
  | qpop
  | refill
  | rrot (k : Nat)
  | release (lanes : Lanes) (sc : Scope)
  | pad (rank off : Nat) (lanes : Lanes)
  | over (w : Wait)
  | more (w : Wait) (rel : Option (Lanes × Scope))
deriving DecidableEq, Repr

/-- A clause in progress: its header and the words read when it began (R49, R50), and the position of the next word. -/
structure Clause where
  hdr   : Word
  head  : Header
  words : List Word
  pos   : Nat
deriving DecidableEq, Repr

/-- One value of the operand latch (R59, R103). -/
structure Latched where
  ent  : Nat
  lane : Nat
  val  : Word
deriving DecidableEq, Repr

/-- A path (R31). `pc` names a clause header, or with `at_ = some p` the word at position p of its clause (R49). -/
structure Path where
  id     : Nat
  lanes  : Lanes
  pc     : Word
  at_    : Option Nat
  prev   : Word             -- the word that led to `pc` (R199, cause 1)
  age    : Nat
  starve : Nat
  crank  : Nat
  lone   : Bool
  clause : Option Clause
  latch  : List Latched
  wait   : Wait
  only   : Option Lanes     -- lanes in which the next word issues (R205, kind 0)
  yielded : Bool
  noCeil : Bool             -- the header's ceilings are not applied again (R49)
  frozen : Option Nat       -- it issues nothing more: the save slot, or with NOSAVE the slot number whose RESUME it waits for (R208, R336)
  raises : Bool := false    -- a lone lane's next word raises, once no other clause of the wave is in progress (R37, R49; log 76)
deriving DecidableEq, Repr

/-- A wave's handler state (R200): the interrupted path, the held paths, the clock of the entry (R340), and the first number that an entry
issued by the handler can have. -/
structure Intr where
  path  : Path
  held  : List Path
  since : Nat
  first : Nat
  cur   : Nat               -- the wave's current path before
  entry : Option Nat := none -- the log entry whose lanes TRAPMASK held at a trap of kind 3 (R198)
deriving DecidableEq, Repr

/-- What one thread, Gaffer context or producer program holds of its own (R99, R100, R115, R166, R35). -/
structure Thread where
  pred   : BitVec 15
  cvt    : BitVec 7
  rlink  : Word
  exited : Bool
  buf    : List (Word × Word)
deriving DecidableEq, Repr

/-- The cause that one lane of a log entry has met (R206). -/
structure LaneFault where
  lane  : Nat
  cause : Nat
  addr  : Word
  kind  : Nat               -- access: 0 fetch, 1 load, 2 store, 3 engine (R401)
  absent : Bool := false    -- the page's tier is absent (R11)
deriving DecidableEq, Repr

/-- How a word moves the load, store, copy and tile counters (R298). -/
structure Counts where
  ld : Nat
  st : Nat
  cp : Nat
  tl : Nat
deriving DecidableEq, Repr

/-- Bytes that a lane of a rendering word has read (R382). -/
structure LaneRead where
  lane : Nat
  va   : Nat
  data : List Byte
deriving DecidableEq, Repr

/-- A word that has issued and not completed in every lane: an entry of the operand log (R206), or, with `logged` false,
a word that moves a counter without being logged (R258, R298). -/
structure Entry where
  id     : Nat
  word   : Word
  pos    : Nat
  path   : Nat
  inH    : Bool             -- issued by a handler path
  logged : Bool
  lanes  : Lanes
  done   : Lanes
  sent   : Lanes
  faults : List LaneFault
  src    : List (List Word)   -- sources of each lane
  cnt    : Counts           -- the counters that it holds raised
  reads  : List LaneRead    -- reads that the lanes of a rendering word have made before their results land
deriving DecidableEq, Repr

/-- A cause other than a log fault that waits for a clause boundary (R196): an expired watchdog (R39), a watched access (R320),
or a stopped tile instruction (R177), whose tile or record `stop` names. -/
structure Pend where
  cause  : Nat
  inH    : Bool
  path   : Option Nat       -- the path that it is about, where it is about one
  mask   : BitVec 32        -- what TRAPMASK will hold; the lanes of a lane cause
  aux    : Word
  access : Nat
  absent : Bool
  stop   : Option (Nat × Option Nat × Option Nat)   -- rank, tile, record
deriving DecidableEq, Repr

/-- The tape share of a lane as it stood before a `TPOP` whose refill or header load is in flight (R378, R379), by the entry that stands for the pop. -/
structure Refill where
  lane  : Nat
  entry : Nat
  call  : Bool              -- the lane has made a recompute call, and the load is that of CTOP
  old   : List Byte
deriving DecidableEq, Repr

/-- A stream of instructions: a wave (R23), a Gaffer context (R41) or a producer program (R42). -/
structure Strand where
  sid     : Sid
  slot    : Nat
  w2      : Word
  ld      : Nat
  st      : Nat
  cp      : Nat
  tl      : Nat
  trap    : TrapRegs
  intr    : Option Intr
  pend    : List Pend
  log     : List Entry
  refills : List Refill
  paths   : List Path
  cur     : Nat
  chosen  : Bool            -- the current path has been chosen at the wave's last clause boundary (R34)
  nextId  : Nat
  threads : List Thread
  g       : List (Nat × Word)
  ploop   : Word
  lastIssue : Nat
  clauses : Nat
  rrotK   : Nat
deriving DecidableEq, Repr

/-! ### Matrix state -/

/-- A step of an operand stream in the operand buffer (R178, R179). `op = none`: not yet claimed. -/
structure Staged where
  id    : Nat
  res   : Nat
  op    : Option Nat
  tlds  : Bool
  rec_  : BitVec 128        -- the record that it was staged under
  grp   : List Word         -- g(G) to g(G+3) of its staging word
  idx   : Nat               -- its index within that word
  fetch : Nat               -- the staging command
  data  : Option (List Byte) -- 32 rows of 256 bytes, then the scales
  bad   : Bool
  lines : List Nat
  srcw  : Bool              -- a pinned line of it was written (R180)
  left  : List (Nat × Leaf) := []       -- lines placed and still to be read, by number, with where they stand (R292)
  part  : List (Nat × List Byte) := []  -- lines read
deriving DecidableEq, Repr

/-- A staging command whose steps are still to be read (R178, R180). -/
structure Fetch where
  id   : Nat
  crew : Nat
  rank : Nat
  res  : Nat
  inH  : Bool
  counted : Bool            -- it holds a count of the tile counter
deriving DecidableEq, Repr

/-- What the sequencer of a tile keeps of a `TMMA` (R190). -/
structure Mma where
  n      : Nat
  recA   : BitVec 128
  recB   : BitVec 128
  lehr   : Bool
  bnd    : Bool
  depth  : Nat
  colg   : Nat
  wide   : Bool
  restarted : Bool
  bound0 : Word
  started : Bool
  trapped : Bool
  reread  : Bool := false   -- its steps are read again where they stand (R180, R182)
deriving DecidableEq, Repr

/-- A tile instruction accepted and not retired (R175, R176). -/
structure TileOp where
  id   : Nat
  word : Word
  tile : Nat
  ga   : Word               -- the Gaffer register it names, read at issue
  mma  : Option Mma
  inH  : Bool               -- issued by a handler of the context
  now  : Bool := false      -- accepted while its tile was Suspended: it applies ahead of queued work (R183)
deriving DecidableEq, Repr

/-- A tile and its slot (R98, R169, R187). -/
structure Tile where
  bound  : Word
  status : Word
  c0     : Bool             -- the slot holds C0
  susp   : Option TileOp    -- the operation Suspended on it (R183)
  owed   : Bool := false    -- a pinned source line of its saved operation was written: SRCW at that operation's retirement (R180)
deriving DecidableEq, Repr

/-! ### Crews -/

/-- The fields of a kernel descriptor (R226). -/
structure Desc where
  lentry : Word
  gentry : Word
  pentry : Word
  hentry : Word
  team   : Nat
  crew   : Nat
  age    : Nat
  wdog   : Nat
  prog   : Bool
  priv   : Bool
  w0lim  : Nat
  w1cnt  : Nat
  w2en   : Bool
  w2tile : Nat
  w2base : Nat
  scratch : Nat
  tape   : Nat
  w3lim  : Nat              -- LIMIT of w3: from the descriptor at allocation, from the team header at restore (R94)
deriving DecidableEq, Repr

/-- A team of a resident crew (R23, R94, R169, R303). -/
structure Team where
  rank    : Nat
  core    : Nat
  base0   : Nat             -- w0.BASE
  base3   : Nat             -- w3.BASE
  slots   : BitVec 16       -- w1.SLOTS
  scratch : List Host.Cell
  padBad  : List Nat        -- scratchpad bytes that meet an uncorrectable error (R257)
  bars    : List Word
  tiles   : List Tile
  recs    : List (BitVec 128)
  steps   : List Staged
  ops     : List TileOp
  waves   : List Strand
  producer : Option Strand
  queues  : List Word       -- state words of q0 to q3 (R357)
  exited  : Bool
  urgent  : Bool
deriving DecidableEq, Repr

/-- A save in progress (R210, R212). -/
structure Saving where
  reason : Nat
  slot   : Nat
  since  : Nat
deriving DecidableEq, Repr

/-- A resident crew (R24, R30). -/
structure Crew where
  id      : Nat
  die     : Nat
  cluster : Nat
  number  : Nat
  exiting : Bool
  desc    : Desc
  kdesc   : Word
  taskRec : Word
  frame   : Word
  join    : Word
  prio    : Nat
  nopre   : Bool
  queue   : Nat
  asid    : BitVec 16
  secure  : Bool
  teams   : List Team
  gaffer  : Option Strand
  cbars   : List Word
  saving  : Option Saving
  nosave  : Option Nat
  placed  : Nat
  marked  : Nat             -- the clock of the last urgency mark (R339)
deriving DecidableEq, Repr

/-- A saved crew: its save slot and whether it may be restored (R30, R336). `crew` is the crew as it stood at the save, and `fetches` its staging commands
whose steps had not all been read (R169); a restore reads everything that the headers and images hold from memory, and takes the rest from here (log 34). -/
structure Saved where
  queue : Nat
  slot  : Nat
  ready : Bool
  posted : Bool
  crew  : Crew
  fetches : List Fetch
deriving DecidableEq, Repr

/-- A candidate of a queue (R337): its saved crew in a slot, or the record at an index. -/
inductive Cand where
  | slot (n : Nat)
  | record (index : Nat)
deriving DecidableEq, Repr

/-- A cluster held for the candidate that pre-empted crews there (R338). -/
structure Hold where
  queue   : Nat
  cand    : Cand
  die     : Nat
  cluster : Nat
  victims : List Crew       -- as they stood: what they held is kept for the candidate
deriving DecidableEq, Repr

/-! ### Engines -/

/-- An aperture store's lane that waits for acceptance (R345), or with `settled` has been accepted or refused. -/
structure Offer where
  crew : Nat
  sid  : Sid
  path : Nat
  lane : Nat
  chan : Nat
  data : Word
  word : Word
  settled : Bool
  refused : Bool
  entry : Option Nat        -- the entry that holds the copy counter raised, once a command was accepted
  far   : Option Nat := none  -- an address of the block-transfer aperture that a refused copy names (R343)
deriving DecidableEq, Repr

/-- One write of a command still to be made, within one 32-byte sector of memory or of a team's scratchpad (R292): an address, the bits of its byte
that are written, and their values. -/
structure EngWrite where
  rank  : Option Nat        -- the team whose scratchpad it goes to; the addresses are offsets there
  cells : List (Nat × Byte × Byte)
deriving DecidableEq, Repr

/-- Kinds of engine commands with moves of their own (R292). -/
inductive CmdKind where
  | copy | coll | rrot
deriving DecidableEq, Repr

/-- An engine command accepted and not completed (R283, R345, R366, R270). -/
structure Cmd where
  id     : Nat
  kind   : CmdKind
  crew   : Nat
  sid    : Sid
  die    : Nat
  cluster : Nat
  chan   : Nat
  lane   : Nat
  entry  : Nat              -- the entry that holds its copy counter raised
  data   : Word             -- the data word of the aperture store
  tmpl   : List Byte        -- the template as read at acceptance
  secure : Bool
  asid   : BitVec 16
  cores  : List (Nat × Nat) -- rank and core of each team of the crew at acceptance
  reads  : List (Option Nat × Nat) -- sources still to be read: a scratchpad's rank and sector, or a line of memory
  got    : List (Option Nat × Host.Cell)
  dests  : List Nat         -- ranks of the teams whose barriers count it (R354, R355)
  planned : Bool
  writes : List EngWrite
  ecode  : Nat
  flags  : BitVec 7
  done   : Bool             -- the copy counter has been lowered
  told   : Bool := false    -- its failure has been reported with its completion
  seq    : Nat              -- the number of the collective in its group (R367)
  members : List (Option Nat) := [] -- its group as its table stood at acceptance: the die of each local member, by rank (R406)
  peers  : List Nat := []   -- the peers of the others
  who    : Who              -- its issuing lane as it stood (R320)
deriving DecidableEq, Repr

/-- Status of a copy channel (R347). -/
structure Chan where
  die : Nat
  cluster : Nat
  chan : Nat
  fin : BitVec 32           -- DONE
  tmpl  : Nat
  ecode : Nat
  err   : Bool
  flags : BitVec 7
  secure : Bool
deriving DecidableEq, Repr

/-! ### Host -/

/-- A work-queue register block (R329). -/
structure Queue where
  asid    : BitVec 16
  log2n   : BitVec 5
  privok  : Bool
  nopreok : Bool
  world   : Bool
  kind    : Bool
  en      : Bool
  base    : Word
  head    : BitVec 32
  tail    : BitVec 32
  savebase : Word
  savecount : BitVec 16
  stride  : BitVec 32
  bind    : Bool
  err     : Bool
  exh     : Bool
  exhlim  : BitVec 16
  fails   : BitVec 32
deriving DecidableEq, Repr

/-- A ring block of the fault and event queues (R402). -/
structure Ring where
  rbase : Word
  rlog2 : BitVec 5
  rhead : BitVec 32
  rtail : BitVec 32
  rctl  : BitVec 13
  lostev : Word
deriving DecidableEq, Repr

/-- A record for the host (R401). -/
structure HostRec where
  secure : Bool
  fault : Bool              -- it goes to the fault ring
  w : List Word             -- eight words
  queue : Nat
  slot : Nat
deriving DecidableEq, Repr

/-- The registers of a die (R310, R337, R399, R406, R410). -/
structure Die where
  clk     : Nat
  backoff : Word
  scatbase : Word
  scatsize : Word
  trbase  : Word
  trsize  : Word
  trread  : Word
  trwrite : Word
  strbase : Word
  strsize : Word
  strread : Word
  strwrite : Word
  trlost  : Nat
  strlost : Nat
  sinceSync : Nat
  peerto  : Word
  watch   : List (Word × Word)
  groups  : List (Nat × Word × Word)
  groupSeq : List (Nat × Nat)
  wslot   : Word
  wstep   : Word
  lastQ   : Nat
  issued  : List ((Nat × Nat × Nat) × Nat)  -- the clock on which an issue slot was last used, by cluster, core and slot (R36, R340)
  gaffer  : List (Nat × Nat)  -- the context that last completed a clause, for each cluster (R41)
deriving DecidableEq, Repr

/-- A PCIe link (R398). -/
structure Link where
  up    : Bool
  gen   : Nat
  width : Nat
deriving DecidableEq, Repr

/-- The word about to issue in the next step: a granted issue slot (R340). -/
structure Grant where
  crew : Nat
  sid  : Sid
  path : Nat
  lone : Bool
deriving DecidableEq, Repr

/-- A snapshot trigger on its way to a die (R318), with the lane that raised it. -/
structure Snap where
  die : Nat
  seq : Nat
  tag : BitVec 32
  who : Who
deriving DecidableEq, Repr

/-- A sampled word that has not completed (R314): its entry and its core. -/
structure Sample where
  crew  : Nat
  sid   : Sid
  entry : Nat
  core  : CoreId
  lanes : Lanes
  op    : Nat
  ea    : Word
  last  : Nat
  pc    : Word
  sectors : Nat
  fault : Bool
  spec  : Bool := false     -- it has hit a fill made under speculation (R293)
deriving DecidableEq, Repr

/-- The machine and its host. The first five fields are the model's own (logs 3, 4 and 6). -/
structure State where
  agenda  : List Instr
  slot    : Option Grant
  free    : Nat
  ids     : Nat
  stalls  : List (Nat × Sid × Nat)
  mem     : List Host.Cell
  lost    : List Nat
  corrected : Word          -- the host's count of corrected errors (R257)
  lines   : List (Nat × LineState)
  changes : List (Point × BitVec 32)
  scatter : List Scatter
  spill2  : List (Nat × Nat × Nat) -- spill records, by die, slice and index, whose word lies in the LPDDR6 tier (R280)
  held    : List (Point × List Held)
  pins    : List Pin
  counters : List ((Nat × Nat) × Word)
  msgs    : List Msg
  l1      : List (CoreId × List L1Entry)
  ibuf    : List (CoreId × List (Nat × Word))
  tlb     : List ((BitVec 16 × Bool × Nat) × Leaf) -- leaves used for a page of an ASID and world since its last invalidate (R224, R256)
  past    : List (List Host.Cell) -- the bytes that each change of memory replaced, the last change first (R224)
  tables  : List (BitVec 16 × Nat) -- how many of them came before an ASID's last invalidate completed (R224)
  invals  : List (BitVec 16)
  invdone : Word
  replays : List Replay
  regs    : List (CoreId × List (Nat × BitVec 32))
  crews   : List Crew
  saved   : List Saved
  holds   : List Hold
  fetches : List Fetch
  offers  : List Offer
  cmds    : List Cmd
  chans   : List Chan
  queues  : List (Nat × Queue)
  rings   : List Ring
  posts   : List HostRec
  msix    : List Nat
  dies    : List Die
  regions : List (Word × Word)
  asidbase : Word
  debugarm : BitVec 17
  armsec  : Bool            -- DEBUGARM was written by the secure host function (R407)
  qowner  : List (Nat × BitVec 8)
  obs     : List ((Nat × Nat) × Word)
  shadows : List ((Nat × Nat) × Word) -- memory counters as the last snapshot of a die latched them (R318)
  runs    : List ((Nat × Nat) × Nat)
  signals : List ((Nat × Nat × Nat) × Nat)
  sseq    : Nat
  snaps   : List Snap
  sampling : List (CoreId × Nat)
  samples : List Sample
  links   : List Link
  peersDown : List Nat
  limited : Bool
  up      : Bool
  tripped : Bool            -- a thermal trip is still to be reported (R410)
  status  : Word
  m0      : BitVec 256
  m1      : BitVec 256
  report  : Option (List Byte)
deriving DecidableEq, Repr

/-! ### How a step can stop -/

/-- Why the machine stops. Neither is a fault of the K4: both say that the model was asked for a step that the part does not make. -/
inductive Fault where
  /-- `exec` was given an instruction word, but no stream holds the issue slot to run it. Safe: the part issues a word only for a stream. -/
  | noStream
  /-- The agenda names an instruction word where a move must stand. Safe: the part's moves are the table's moves. -/
  | badAgenda
deriving DecidableEq, Repr

/-- Why an instruction has no meaning. -/
inductive Refusal where
  /-- The instruction's arm of `exec` has no meaning yet. Safe. -/
  | notModelled (mnemonic : String)
deriving DecidableEq, Repr

/-! ### Reset -/

/-- A work-queue block at reset: every field 0 (R329). -/
def Queue.reset : Queue :=
  { asid := 0, log2n := 0, privok := false, nopreok := false, world := false, kind := false, en := false, base := 0, head := 0, tail := 0,
    savebase := 0, savecount := 0, stride := 0, bind := false, err := false, exh := false, exhlim := 0, fails := 0 }

/-- A ring block at reset (R402). -/
def Ring.reset : Ring := { rbase := 0, rlog2 := 0, rhead := 0, rtail := 0, rctl := 0, lostev := 0 }

/-- A die at reset: BACKOFF is MAXEXP 6 and BASE 16 (R342); group words are 0 (R406); CLK counts from the die's reset (R310).
The other registers have no stated reset value: DESIGN CHOICE 0 (log 1). -/
def Die.reset : Die :=
  { clk := 0, backoff := 0x610, scatbase := 0, scatsize := 0, trbase := 0, trsize := 0, trread := 0, trwrite := 0, strbase := 0,
    strsize := 0, strread := 0, strwrite := 0, trlost := 0, strlost := 0, sinceSync := 0, peerto := 0, watch := List.replicate 8 (0, 0),
    groups := [], groupSeq := [], wslot := 0, wstep := 0, lastQ := 0, issued := [], gaffer := [] }

/-- The machine right after reset: nothing resident, memory with nothing listed, every register at the value the spec states,
and 0 or empty where it states none (DESIGN CHOICE, log 1). Every die is held in reset until BOOT verifies the firmware (R408). -/
def State.reset : State :=
  { agenda := [], slot := none, free := 0, ids := 0, stalls := [], mem := [], lost := [], corrected := 0, lines := [], changes := [], scatter := [], spill2 := [],
    held := [], pins := [], counters := [], msgs := [], l1 := [], ibuf := [], tlb := [], past := [], tables := [], invals := [], invdone := 0, replays := [],
    regs := [], crews := [], saved := [], holds := [], fetches := [], offers := [], cmds := [], chans := [], queues := [],
    rings := List.replicate 4 Ring.reset, posts := [], msix := [], dies := List.replicate 4 Die.reset, regions := List.replicate 64 (0, 0),
    asidbase := 0, debugarm := 0, armsec := false, qowner := [], obs := [], shadows := [], runs := [], signals := [], sseq := 0, snaps := [], sampling := [], samples := [],
    links := List.replicate 2 { up := false, gen := 0, width := 0 }, peersDown := [], limited := false, up := false, tripped := false, status := 0,
    m0 := 0, m1 := 0, report := none }

end Sys2Proof.Machine
end

