-- ==== Sys2Proof/Machine/Assoc.lean ====
section
/-! DEFINITION. Finite maps and small list helpers that the machine's operations use.
`Sparse` maps keep one canonical form: keys strictly rising and no entry equal to what an unlisted key reads as. -/

namespace Sys2Proof.Machine

/-! ### Maps from addresses -/

/-- What a sparse map holds at a key; `dflt` where it lists none. -/
def sparseGet {α : Type} (dflt : α) : List (Nat × α) → Nat → α
  | [], _ => dflt
  | (k, v) :: m, a => if k = a then v else if a < k then dflt else sparseGet dflt m a

/-- The map with key `a` holding `v`, in canonical form. -/
def sparseSet {α : Type} [DecidableEq α] (dflt : α) : List (Nat × α) → Nat → α → List (Nat × α)
  | [], a, v => if v = dflt then [] else [(a, v)]
  | (k, w) :: m, a, v =>
    if a < k then (if v = dflt then (k, w) :: m else (a, v) :: (k, w) :: m)
    else if a = k then (if v = dflt then m else (a, v) :: m)
    else (k, w) :: sparseSet dflt m a v

/-- Every key of the map is above `lo`, keys rise strictly, and no entry holds the default. -/
def sparseWfFrom {α : Type} [DecidableEq α] (dflt : α) : Option Nat → List (Nat × α) → Bool
  | _, [] => true
  | lo, (k, v) :: m => (match lo with | none => true | some l => decide (l < k)) && decide (v ≠ dflt) && sparseWfFrom dflt (some k) m

/-- The canonical form of a sparse map. -/
def sparseWf {α : Type} [DecidableEq α] (dflt : α) (m : List (Nat × α)) : Bool := sparseWfFrom dflt none m

/-! ### Maps from names -/

/-- The value a list of pairs gives a name. -/
def assocGet {κ α : Type} [DecidableEq κ] : List (κ × α) → κ → Option α
  | [], _ => none
  | (k, v) :: m, a => if k = a then some v else assocGet m a

/-- The list of pairs with a name given a value: its entry is replaced, or a new one stands last. -/
def assocSet {κ α : Type} [DecidableEq κ] : List (κ × α) → κ → α → List (κ × α)
  | [], a, v => [(a, v)]
  | (k, w) :: m, a, v => if k = a then (k, v) :: m else (k, w) :: assocSet m a v

/-- The list of pairs without a name. -/
def assocDel {κ α : Type} [DecidableEq κ] (m : List (κ × α)) (a : κ) : List (κ × α) := m.filter fun p => p.1 ≠ a

/-! ### Lists -/

/-- The list with element `i` replaced; a list too short is unchanged. -/
def listSet {α : Type} : List α → Nat → α → List α
  | [], _, _ => []
  | _ :: l, 0, v => v :: l
  | x :: l, i + 1, v => x :: listSet l i v

/-- The list with element `i` changed. -/
def listMod {α : Type} : List α → Nat → (α → α) → List α
  | [], _, _ => []
  | x :: l, 0, f => f x :: l
  | x :: l, i + 1, f => x :: listMod l i f

/-- The element of greatest measure, the earliest among equals. -/
def maxBy {α : Type} (f : α → Nat) : List α → Option α
  | [] => none
  | x :: l => match maxBy f l with
    | none => some x
    | some y => if f y > f x then some y else some x

/-- The element of least measure, the earliest among equals. -/
def minBy {α : Type} (f : α → Nat) : List α → Option α
  | [] => none
  | x :: l => match minBy f l with
    | none => some x
    | some y => if f y < f x then some y else some x

/-- Elements whose test holds are changed. -/
def mapIf {α : Type} (p : α → Bool) (f : α → α) (l : List α) : List α := l.map fun x => if p x then f x else x

/-- Elements without repeats, the first of equals kept. -/
def dedup {α : Type} [DecidableEq α] : List α → List α
  | [] => []
  | x :: l => x :: (dedup l).filter (· ≠ x)

/-! ### Sets of lanes -/

/-- Lane numbers of a set, ascending. -/
def lanesOf (m : Lanes) : List Nat := (List.range 32).filter fun l => m.getLsbD l

/-- The set of the listed lanes. -/
def lanesFrom (l : List Nat) : Lanes := l.foldl (fun m k => m ||| (1#32 <<< k)) 0

/-- The set of lanes whose test holds. -/
def lanesWhere (p : Nat → Bool) : Lanes := lanesFrom ((List.range 32).filter p)

/-- The lowest lane of a set; 0 for none. -/
def lowLane (m : Lanes) : Nat := (lanesOf m).headD 0

/-! ### Bits and bytes -/

/-- Bit field [lo + len - 1 : lo] of a number. -/
def fld (w lo len : Nat) : Nat := (w / 2 ^ lo) % 2 ^ len

/-- Field of a word. -/
def wfld (w : Word) (lo len : Nat) : Nat := fld w.toNat lo len

/-- One bit of a word. -/
def wbit (w : Word) (i : Nat) : Bool := w.getLsbD i

/-- A word with field [lo + len - 1 : lo] replaced. -/
def wput (w : Word) (lo len v : Nat) : Word :=
  BitVec.ofNat 64 (w.toNat - fld w.toNat lo len * 2 ^ lo + (v % 2 ^ len) * 2 ^ lo)

/-- A truth value as a number. -/
def b2n (b : Bool) : Nat := if b then 1 else 0

/-- The number that little-endian bytes hold (R3). -/
def leNat : List Byte → Nat
  | [] => 0
  | b :: l => b.toNat + 256 * leNat l

/-- The `n` little-endian bytes of a number (R3). -/
def leBytes : Nat → Nat → List Byte
  | 0, _ => []
  | n + 1, v => BitVec.ofNat 8 v :: leBytes n (v / 256)

/-- A word as a signed 64-bit integer. -/
def sInt (w : Word) : Int := w.toInt

/-- The value of the low `n` bits of a number, as two's complement. -/
def sext (n v : Nat) : Int := if v % 2 ^ n < 2 ^ (n - 1) then (v % 2 ^ n : Nat) else (v % 2 ^ n : Nat) - (2 ^ n : Nat)

/-- An integer modulo 2^n. -/
def wrapNat (n : Nat) (i : Int) : Nat := (i % (2 ^ n : Nat)).toNat

/-! ### Sorting -/

/-- Sorted by a measure, ascending; equal ones keep their order. -/
def insertBy {α : Type} (f : α → Nat) (x : α) : List α → List α
  | [] => [x]
  | y :: l => if f x ≤ f y then x :: y :: l else y :: insertBy f x l

def sortBy {α : Type} (f : α → Nat) (l : List α) : List α := l.foldr (insertBy f) []

end Sys2Proof.Machine
end

