-- ==== Sys2Proof/Machine/Access.lean ====
section
/-! DEFINITION. Reading and changing the parts of the state by name: crews, teams, streams, paths, threads, register space, scratchpad, memory bytes. -/

namespace Sys2Proof.Machine

/-! ### Names and free values (log 4) -/

/-- A fresh name. -/
def State.newId (s : State) : Nat × State := (s.ids, { s with ids := s.ids + 1 })

/-- A free choice between two outcomes. -/
def State.drawBit (s : State) : Bool × State := (Config.freeBit s.free, { s with free := s.free + 1 })

/-- A free choice among `n` outcomes; no choice is drawn where there is only one. -/
def State.drawIndex (s : State) (n : Nat) : Nat × State :=
  if n ≤ 1 then (0, s) else (Config.freeIndex s.free % n, { s with free := s.free + 1 })

/-- Whether what is read meets an error that cannot be corrected (R257, log 79). -/
def State.drawError (s : State) : Bool × State := (Config.eccError s.free, { s with free := s.free + 1 })

/-- A free 64-bit value. -/
def State.drawWord (s : State) : Word × State := (Config.freeWord s.free, { s with free := s.free + 1 })

/-! ### Crews, teams, streams -/

def State.crew? (s : State) (id : Nat) : Option Crew := s.crews.find? fun c => c.id == id

/-- Every crew of that name is changed: names are unique. -/
def State.modCrew (s : State) (id : Nat) (f : Crew → Crew) : State := { s with crews := mapIf (fun c => c.id == id) f s.crews }

def Crew.modTeam (c : Crew) (r : Nat) (f : Team → Team) : Crew := { c with teams := listMod c.teams r f }

def State.team? (s : State) (crew r : Nat) : Option Team := (s.crew? crew).bind fun c => c.teams[r]?

def State.modTeam (s : State) (crew r : Nat) (f : Team → Team) : State := s.modCrew crew fun c => c.modTeam r f

/-- The stream of a crew that a name stands for. -/
def Crew.strand? (c : Crew) : Sid → Option Strand
  | .wave t w => c.teams[t]?.bind fun tm => tm.waves[w]?
  | .gaffer => c.gaffer
  | .producer t => c.teams[t]?.bind fun tm => tm.producer

def Crew.modStrand (c : Crew) (sid : Sid) (f : Strand → Strand) : Crew :=
  match sid with
  | .wave t w => c.modTeam t fun tm => { tm with waves := listMod tm.waves w f }
  | .gaffer => { c with gaffer := c.gaffer.map f }
  | .producer t => c.modTeam t fun tm => { tm with producer := tm.producer.map f }

def State.strand? (s : State) (crew : Nat) (sid : Sid) : Option Strand := (s.crew? crew).bind fun c => c.strand? sid

def State.modStrand (s : State) (crew : Nat) (sid : Sid) (f : Strand → Strand) : State := s.modCrew crew fun c => c.modStrand sid f

def Strand.path? (t : Strand) (id : Nat) : Option Path := t.paths.find? fun p => p.id == id

def Strand.modPath (t : Strand) (id : Nat) (f : Path → Path) : Strand := { t with paths := mapIf (fun p => p.id == id) f t.paths }

def State.modPath (s : State) (crew : Nat) (sid : Sid) (id : Nat) (f : Path → Path) : State :=
  s.modStrand crew sid fun t => t.modPath id f

/-- A thread of a stream; a Gaffer context or a producer program is its own lane 0. -/
def Thread.fresh : Thread := { pred := 0, cvt := 0, rlink := 0, exited := false, buf := [] }

def Strand.thread (t : Strand) (lane : Nat) : Thread := t.threads.getD lane Thread.fresh

def Strand.modThread (t : Strand) (lane : Nat) (f : Thread → Thread) : Strand := { t with threads := listMod t.threads lane f }

def State.modThread (s : State) (crew : Nat) (sid : Sid) (lane : Nat) (f : Thread → Thread) : State :=
  s.modStrand crew sid fun t => t.modThread lane f

/-- The streams of a crew, waves in order of team and wave, then the Gaffer context and the producers. -/
def Crew.sids (c : Crew) : List Sid :=
  (c.teams.map fun tm => (List.range tm.waves.length).map fun w => Sid.wave tm.rank w).flatten
    ++ (if c.gaffer.isSome then [Sid.gaffer] else [])
    ++ (c.teams.filter fun tm => tm.producer.isSome).map fun tm => Sid.producer tm.rank

/-- The team of a stream; a Gaffer context belongs to none. -/
def sidTeam? : Sid → Option Nat
  | .wave t _ => some t
  | .gaffer => none
  | .producer t => some t

/-- The core that a stream runs on; number 4 stands for the Gaffer core of a cluster. -/
def Crew.coreOf (c : Crew) (sid : Sid) : CoreId :=
  { die := c.die, cluster := c.cluster,
    core := match (sidTeam? sid) with
      | some t => (c.teams[t]?.map Team.core).getD 0
      | none => 4 }

/-- The core of a team. -/
def Crew.teamCore (c : Crew) (r : Nat) : CoreId := { die := c.die, cluster := c.cluster, core := (c.teams[r]?.map Team.core).getD 0 }

/-- Lanes of a stream. -/
def sidWidth : Sid → Nat
  | .wave _ _ => 32
  | _ => 1

/-! ### Dies -/

def State.die (s : State) (d : Nat) : Die := s.dies.getD d Die.reset

def State.modDie (s : State) (d : Nat) (f : Die → Die) : State := { s with dies := listMod s.dies d f }

/-- The cycle counter of a die (R310). -/
def State.clk (s : State) (d : Nat) : Nat := (s.die d).clk

/-! ### Memory bytes: a key is a byte's place (State.Leaf), and a line is 128 bytes. An unlisted byte reads 0 (log 2). -/

def State.memByte (s : State) (k : Nat) : Byte := sparseGet 0 s.mem k

def memBytesFrom (m : List Host.Cell) (k : Nat) : Nat → List Byte
  | 0 => []
  | n + 1 => sparseGet 0 m k :: memBytesFrom m (k + 1) n

def State.memBytes (s : State) (k n : Nat) : List Byte := memBytesFrom s.mem k n

def memPut (m : List Host.Cell) (k : Nat) : List Byte → List Host.Cell
  | [] => m
  | b :: l => memPut (sparseSet 0 m k b) (k + 1) l

def memPutCells (m : List Host.Cell) : List Host.Cell → List Host.Cell
  | [] => m
  | (k, b) :: l => memPutCells (sparseSet 0 m k b) l

/-- The bytes of `n` addresses as cells. -/
def memCells (m : List Host.Cell) (k : Nat) : Nat → List Host.Cell
  | 0 => []
  | n + 1 => (k, sparseGet 0 m k) :: memCells m (k + 1) n

/-- Bytes written; what they replace is kept for the tables that old entries may come from (R224). -/
def State.setMem (s : State) (k : Nat) (l : List Byte) : State := { s with mem := memPut s.mem k l, past := memCells s.mem k l.length :: s.past }

/-- A little-endian number of `n` bytes of memory (R3). -/
def State.memNat (s : State) (k n : Nat) : Nat := leNat (s.memBytes k n)

def State.memWord (s : State) (k : Nat) : Word := BitVec.ofNat 64 (s.memNat k 8)

/-- The line of a byte, and its first byte. -/
def lineOf (k : Nat) : Nat := k / 128
def lineBase (l : Nat) : Nat := l * 128

/-- First key of the LPDDR6 tier. -/
def lpddrKey : Nat := 2 ^ 52

/-! ### Scratchpad -/

/-- First offset of the trap area: the descriptor's request S (R201, R242). -/
def Crew.padS (c : Crew) : Nat := c.desc.scratch

/-- Bytes of a team's scratchpad (R242). -/
def Crew.padSize (c : Crew) : Nat := c.desc.scratch + 2048 + c.desc.team * c.desc.tape

/-- First offset of thread t's tape share (R242). -/
def Crew.sharePad (c : Crew) (t : Nat) : Nat := c.desc.scratch + 2048 + t * c.desc.tape

def Team.padBytes (t : Team) (off n : Nat) : List Byte := memBytesFrom t.scratch off n

def Team.padNat (t : Team) (off n : Nat) : Nat := leNat (t.padBytes off n)

def Team.padWord (t : Team) (off : Nat) : Word := BitVec.ofNat 64 (t.padNat off 8)

def Team.setPad (t : Team) (off : Nat) (l : List Byte) : Team := { t with scratch := memPut t.scratch off l }

def Team.setPadNat (t : Team) (off n v : Nat) : Team := t.setPad off (leBytes n v)

/-- Bytes of a scratchpad, one of which meets an uncorrectable error (R257). -/
def Team.padLost (tm : Team) (k n : Nat) : Bool := tm.padBad.any fun b => k ≤ b && b < k + n

def State.padLost (s : State) (crew r k n : Nat) : Bool := ((s.team? crew r).map fun tm => tm.padLost k n).getD false

/-- Bytes of a scratchpad have been written: the errors that stood in them are gone, and one may come to stand in them, which the next read finds (R257):
a free choice (log 79). -/
def State.padWritten (s : State) (crew r k n : Nat) : State :=
  let (err, s) := s.drawError
  s.modTeam crew r fun tm => { tm with padBad := (if err then [k] else []) ++ tm.padBad.filter fun b => !(k ≤ b && b < k + n) }

/-! ### Register space (R91): one 32-bit word for each 4 bytes of a core -/

def State.regWord (s : State) (c : CoreId) (addr : Nat) : BitVec 32 := sparseGet 0 ((assocGet s.regs c).getD []) (addr / 4)

def State.setRegWord (s : State) (c : CoreId) (addr : Nat) (v : BitVec 32) : State :=
  { s with regs := assocSet s.regs c (sparseSet 0 ((assocGet s.regs c).getD []) (addr / 4) v) }

/-- The bytes of register space from an address on. -/
def State.regBytes (s : State) (c : CoreId) (addr n : Nat) : List Byte :=
  (List.range n).map fun i => (s.regWord c (addr + i)).extractLsb' (8 * ((addr + i) % 4)) 8

/-- One byte of register space replaced. -/
def State.setRegByte (s : State) (c : CoreId) (addr : Nat) (b : Byte) : State :=
  let w := (s.regWord c addr).toNat
  let k := 8 * (addr % 4)
  s.setRegWord c addr (BitVec.ofNat 32 (w - fld w k 8 * 2 ^ k + b.toNat * 2 ^ k))

def State.setRegBytes (s : State) (c : CoreId) (addr : Nat) : List Byte → State
  | [] => s
  | b :: l => (s.setRegByte c addr b).setRegBytes c (addr + 1) l

/-- Register j of lane l of wave w (R93). -/
def vAddr (base n w j l : Nat) : Nat := base + ((w * n + j) * 32 + l) * 4

/-- Handler register k of lane l of wave w (R93). -/
def hAddr (base w k l : Nat) : Nat := base + (w * 8 + k) * 128 + l * 4

/-- The physical slot of tile i: the (i+1)-th lowest bit of w1.SLOTS (R94). -/
def slotOfTile (slots : BitVec 16) (i : Nat) : Option Nat := ((List.range 16).filter fun k => slots.getLsbD k)[i]?

/-- Tiles of a team (R94). -/
def tileCount (slots : BitVec 16) : Nat := ((List.range 16).filter fun k => slots.getLsbD k).length

/-- First byte of the slot of tile i of a team (R91). -/
def Team.slotAddr (t : Team) (i : Nat) : Nat := Config.slotBase + Config.slotBytes * (slotOfTile t.slots i).getD 0

/-- FMT of a status word (R187): 0 FP32, 1 FP64, 2 packed. -/
def Tile.fmt (t : Tile) : Nat := wfld t.status 6 2

def Tile.fresh : Tile := { bound := 0, status := 0, c0 := false, susp := none }

def Team.tile (t : Team) (i : Nat) : Tile := t.tiles.getD i Tile.fresh

def Team.modTile (t : Team) (i : Nat) (f : Tile → Tile) : Team := { t with tiles := listMod t.tiles i f }

/-! ### Views (R94) -/

def w2En (w : Word) : Bool := wbit w 16
def w2Half (w : Word) : Nat := wfld w 15 1
def w2Tile (w : Word) : Nat := wfld w 8 4
def w2Base (w : Word) : Nat := wfld w 0 8

/-- w0, w1 and w3 as software reads them. -/
def Crew.w0 (c : Crew) (t : Team) : Word := BitVec.ofNat 64 (c.desc.w0lim * 2 ^ 32 + t.base0)
def Team.w1 (t : Team) : Word := BitVec.ofNat 64 t.slots.toNat
def Crew.w3Limit (c : Crew) : Nat := c.desc.w3lim
def Crew.w3 (c : Crew) (t : Team) : Word := BitVec.ofNat 64 (c.w3Limit * 2 ^ 32 + t.base3)

/-! ### Small readings -/

/-- Bits of the global lane number (R100): die, cluster, core, wave slot, lane. -/
def glaneOf (c : CoreId) (slot lane : Nat) : Nat :=
  c.die % 4 * 2 ^ 18 + c.cluster % 64 * 2 ^ 12 + c.core % 4 * 2 ^ 10 + slot % 32 * 2 ^ 5 + lane % 32

/-- Global lane number of a lane of a stream; a producer's has slot and lane 0 (R25). -/
def Crew.glane (c : Crew) (sid : Sid) (lane : Nat) : Nat :=
  match sid with
  | .wave _ _ => glaneOf (c.coreOf sid) ((c.strand? sid).map Strand.slot |>.getD 0) lane
  | _ => glaneOf (c.coreOf sid) 0 0

/-- A crew is Running (R30): it is being neither saved nor ended. -/
def Crew.running (c : Crew) : Bool := !c.exiting && c.saving.isNone

end Sys2Proof.Machine
end

