-- ==== Sys2Proof/Machine/Bdz.lean ====
section
/-! DEFINITION. BDZ codes (R249, R250): the form in which a line of a compressible page is held is a function of its 128 bytes. -/

namespace Sys2Proof.Machine

/-- The elements of `w` bytes of a line, in order. -/
def bdzElems (w : Nat) : Nat → List Byte → List Nat
  | 0, _ => []
  | n + 1, l => leNat (l.take w) :: bdzElems w n (l.drop w)

/-- The value x - y modulo 2^(8w) is a signed number of `d` bytes. -/
def bdzNear (w d x y : Nat) : Bool :=
  let z := (x + 2 ^ (8 * w) - y) % 2 ^ (8 * w)
  z < 2 ^ (8 * d - 1) || 2 ^ (8 * w) - 2 ^ (8 * d - 1) ≤ z

/-- The base B of codes 2 to 6: the lowest-indexed element out of the delta range from zero, or zero. -/
def bdzBase (w d : Nat) (es : List Nat) : Nat := (es.find? fun e => !bdzNear w d e 0).getD 0

/-- Codes 2 to 6 can hold the line. -/
def bdzDelta (w d : Nat) (l : List Byte) : Bool :=
  let es := bdzElems w (128 / w) l
  let b := bdzBase w d es
  es.all fun e => bdzNear w d e 0 || bdzNear w d e b

/-- Words of the line that are not zero, for code 7. -/
def bdzNonZero (l : List Byte) : Nat := ((bdzElems 4 32 l).filter (· ≠ 0)).length

/-- Sectors of each code (R249). -/
def bdzCodeSectors (l : List Byte) : Nat → Nat
  | 0 => 0
  | 1 | 2 => 1
  | 3 | 5 => 2
  | 4 | 6 => 3
  | 7 => (4 + 4 * bdzNonZero l + 31) / 32
  | _ => 4

/-- Whether a code can hold the line (R250). -/
def bdzFits (l : List Byte) : Nat → Bool
  | 0 => l.all (· == 0)
  | 1 => (bdzElems 8 16 l).all (· == leNat (l.take 8))
  | 2 => bdzDelta 8 1 l
  | 3 => bdzDelta 8 2 l
  | 4 => bdzDelta 8 4 l
  | 5 => bdzDelta 4 1 l
  | 6 => bdzDelta 4 2 l
  | 7 => bdzCodeSectors l 7 ≤ 4
  | _ => true

/-- The code of a line (R250): the fewest sectors, ties to the lower code. A line of a page with CMP = 0 has code 15. -/
def bdzCode (cmp : Bool) (l : List Byte) : Nat :=
  if cmp then (minBy (bdzCodeSectors l) ([0, 1, 2, 3, 4, 5, 6, 7, 15].filter (bdzFits l))).getD 15 else 15

/-! ### The packed form (R249) -/

/-- Element and delta bytes of codes 2 to 6. -/
def bdzShape : Nat → Nat × Nat
  | 2 => (8, 1)
  | 3 => (8, 2)
  | 4 => (8, 4)
  | 5 => (4, 1)
  | _ => (4, 2)

/-- A mask as a number, its lowest bit first. -/
def maskNat : List Bool → Nat
  | [] => 0
  | b :: l => b2n b + 2 * maskNat l

/-- The fields of a code in order: V; B, mask and deltas; mask and the non-zero words; or the bytes themselves. -/
def bdzFields (l : List Byte) : Nat → List Byte
  | 0 => []
  | 1 => l.take 8
  | 7 => let es := bdzElems 4 32 l; leBytes 4 (maskNat (es.map fun e => e ≠ 0)) ++ ((es.filter (· ≠ 0)).map (leBytes 4)).flatten
  | 15 => l
  | c =>
    let (w, d) := bdzShape c
    let es := bdzElems w (128 / w) l
    let b := bdzBase w d es
    let far (e : Nat) : Bool := !bdzNear w d e 0
    leBytes w b ++ leBytes (128 / w / 8) (maskNat (es.map far))
      ++ (es.map fun e => leBytes d ((e + 2 ^ (8 * w) - if far e then b else 0) % 2 ^ (8 * d))).flatten

/-- A line as it is held and carried: its fields, and zeros to the end of its last sector. -/
def bdzPack (cmp : Bool) (l : List Byte) : List Byte :=
  let c := bdzCode cmp l
  let f := bdzFields l c
  f ++ List.replicate (32 * bdzCodeSectors l c - f.length) 0

/-- The words of code 7 where its mask says. -/
def bdzScatter : List Bool → List Byte → List Byte
  | [], _ => []
  | b :: m, l => if b then l.take 4 ++ bdzScatter m (l.drop 4) else List.replicate 4 0 ++ bdzScatter m l

/-- The deltas of codes 2 to 6 against the base or zero. -/
def bdzSums (w d b : Nat) : List Bool → List Byte → List Byte
  | [], _ => []
  | far :: m, l =>
    leBytes w (wrapNat (8 * w) (sext (8 * d) (leNat (l.take d)) + if far then (b : Int) else 0)) ++ bdzSums w d b m (l.drop d)

/-- The 128 bytes that a code's packed form stands for: in codes 2 to 6 each element is base + delta, in code 7 a word is zero where its mask bit is 0. -/
def bdzExpand (c : Nat) (f : List Byte) : List Byte :=
  match c with
  | 0 => List.replicate 128 0
  | 1 => (List.replicate 16 (f.take 8)).flatten
  | 7 => bdzScatter ((List.range 32).map fun i => (leNat (f.take 4)).testBit i) (f.drop 4)
  | 15 => f
  | c =>
    let (w, d) := bdzShape c
    let n := 128 / w
    bdzSums w d (leNat (f.take w)) ((List.range n).map fun i => (leNat ((f.drop w).take (n / 8))).testBit i) (f.drop (w + n / 8))

/-- Data sectors that a line occupies. -/
def bdzSectors (cmp : Bool) (l : List Byte) : Nat := bdzCodeSectors l (bdzCode cmp l)

end Sys2Proof.Machine
end

