-- ==== Sys2Proof/Machine/Num.lean ====
section
/-! DEFINITION. Number formats and their arithmetic (R104 to R115): a value is formed exactly and rounded once. -/

namespace Sys2Proof.Machine

/-! ### Formats -/

/-- A floating-point format: fraction bits, exponent of the smallest normal, exponent bits, the largest finite value maxk · 2^maxe,
and whether it has infinities (R104, R106). -/
structure Fmt where
  m     : Nat
  emin  : Int
  ebits : Nat
  maxk  : Nat
  maxe  : Int
  hasInf : Bool
deriving DecidableEq, Repr

def fp64 : Fmt := ⟨52, -1022, 11, 2 ^ 53 - 1, 971, true⟩
def fp32 : Fmt := ⟨23, -126, 8, 2 ^ 24 - 1, 104, true⟩
def fp16 : Fmt := ⟨10, -14, 5, 2 ^ 11 - 1, 5, true⟩
def bf16f : Fmt := ⟨7, -126, 8, 2 ^ 8 - 1, 120, true⟩
def e4m3 : Fmt := ⟨3, -6, 4, 14, 5, false⟩
def e5m2 : Fmt := ⟨2, -14, 5, 7, 13, true⟩
def e3m2 : Fmt := ⟨2, -2, 3, 7, 2, false⟩
def e2m3 : Fmt := ⟨3, 0, 2, 15, -1, false⟩
def e2m1 : Fmt := ⟨1, 0, 2, 3, 1, false⟩

/-- Bits of a format. -/
def Fmt.width (f : Fmt) : Nat := 1 + f.ebits + f.m

/-- A value read from a format: NaN with its sign and its fraction aligned to 52 bits, an infinity, or ±m · 2^e. -/
inductive Fv where
  | nan (neg : Bool) (pay : Nat)
  | inf (neg : Bool)
  | num (neg : Bool) (m : Nat) (e : Int)
deriving DecidableEq, Repr

namespace Fv
def isNaN : Fv → Bool | .nan _ _ => true | _ => false
def isInf : Fv → Bool | .inf _ => true | _ => false
def isZero : Fv → Bool | .num _ 0 _ => true | _ => false
def neg : Fv → Bool | .nan n _ => n | .inf n => n | .num n _ _ => n
/-- The value with the other sign. -/
def flip : Fv → Fv | .nan n p => .nan (!n) p | .inf n => .inf (!n) | .num n m e => .num (!n) m e
end Fv

/-- The value that the bits of a wide format, or of e5m2, hold (R104, R106). -/
def Fmt.read (f : Fmt) (bits : Nat) : Fv :=
  let s := fld bits (f.m + f.ebits) 1 == 1
  let ex := fld bits f.m f.ebits
  let fr := fld bits 0 f.m
  if f.hasInf && ex == 2 ^ f.ebits - 1 then
    if fr = 0 then .inf s else .nan s (fr * 2 ^ (52 - f.m))
  else if ex = 0 then .num s fr (f.emin - f.m)
  else .num s (2 ^ f.m + fr) (f.emin - f.m + (ex - 1 : Nat))

/-- Bits of ±k · 2^q, with q the spacing of the binade of a rounded value: the exponent field and the fraction follow by one sum. -/
def Fmt.put (f : Fmt) (neg : Bool) (k : Nat) (q : Int) : Nat :=
  b2n neg * 2 ^ (f.m + f.ebits) + (if k = 0 then 0 else (q - (f.emin - f.m)).toNat * 2 ^ f.m + k)

/-- Bits of an infinity. -/
def Fmt.infBits (f : Fmt) (neg : Bool) : Nat := b2n neg * 2 ^ (f.m + f.ebits) + (2 ^ f.ebits - 1) * 2 ^ f.m

/-- Bits of the largest finite value. -/
def Fmt.maxBits (f : Fmt) (neg : Bool) : Nat := f.put neg f.maxk f.maxe

/-- The canonical NaN (R111). -/
def Fmt.canon (f : Fmt) : Nat := (2 ^ f.ebits - 1) * 2 ^ f.m + 2 ^ (f.m - 1)

/-- A NaN brought to a format: sign kept, quiet bit set, the top payload bits that fit (R111). -/
def Fmt.nanBits (f : Fmt) (neg : Bool) (pay : Nat) : Nat :=
  let fr := pay / 2 ^ (52 - f.m)
  b2n neg * 2 ^ (f.m + f.ebits) + (2 ^ f.ebits - 1) * 2 ^ f.m + (if fld fr (f.m - 1) 1 = 1 then fr else fr + 2 ^ (f.m - 1))

/-! ### Rounding (R109) -/

/-- Floor of log2 (n / d), for n and d non-zero. -/
def log2Q (n d : Nat) : Int :=
  let e : Int := (Nat.log2 n : Int) - (Nat.log2 d : Int)
  if (if 0 ≤ e then n < d * 2 ^ e.toNat else n * 2 ^ (-e).toNat < d) then e - 1 else e

/-- n / (d · 2^q) as a quotient and remainder over a divisor. -/
def divPow (n d : Nat) (q : Int) : Nat × Nat × Nat :=
  let n' := if 0 ≤ q then n else n * 2 ^ (-q).toNat
  let d' := if 0 ≤ q then d * 2 ^ q.toNat else d
  (n' / d', n' % d', d')

/-- The integer that k + r/d rounds to under a mode, for a value of the given sign (R54, R109). -/
def roundInt (rm : Rm) (neg : Bool) (k r d : Nat) : Nat :=
  match rm with
  | .rne => if 2 * r > d || (2 * r == d && k % 2 == 1) then k + 1 else k
  | .rtz => k
  | .rup => if !neg && r ≠ 0 then k + 1 else k
  | .rdn => if neg && r ≠ 0 then k + 1 else k

/-- Step 1 of R109: the magnitude n / d rounded with the exponent unbounded above, as k · 2^q. -/
def roundMag (f : Fmt) (rm : Rm) (neg : Bool) (n d : Nat) : Nat × Int :=
  let e := log2Q n d
  let q := (if e < f.emin then f.emin else e) - f.m
  let (k, r, d') := divPow n d q
  (roundInt rm neg k r d', q)

/-- k · 2^q is above the largest finite value. -/
def Fmt.overflows (f : Fmt) (k : Nat) (q : Int) : Bool :=
  if q ≤ f.maxe then k > f.maxk * 2 ^ (f.maxe - q).toNat else k * 2 ^ (q - f.maxe).toNat > f.maxk

/-- What step 3 of R109 gives for a value beyond the range. -/
def Fmt.overBits (f : Fmt) (rm : Rm) (neg : Bool) : Nat :=
  match rm with
  | .rne => f.infBits neg
  | .rtz => f.maxBits neg
  | .rup => if neg then f.maxBits neg else f.infBits neg
  | .rdn => if neg then f.infBits neg else f.maxBits neg

/-- `Round` of a non-zero real ±n/d into a wide format (R109), and of zero with the sign given. -/
def roundQ (f : Fmt) (rm : Rm) (neg : Bool) (n d : Nat) : Nat :=
  if n = 0 then f.put neg 0 0 else
    let (k, q) := roundMag f rm neg n d
    if f.overflows k q then f.overBits rm neg else f.put neg k q

/-- m · 2^e as a fraction. -/
def dyQ (m : Nat) (e : Int) : Nat × Nat := if 0 ≤ e then (m * 2 ^ e.toNat, 1) else (m, 2 ^ (-e).toNat)

/-- `Round` of ±m · 2^e. -/
def roundDy (f : Fmt) (rm : Rm) (neg : Bool) (m : Nat) (e : Int) : Nat :=
  let (n, d) := dyQ m e
  roundQ f rm neg n d

/-! ### Exact sums -/

/-- A signed dyadic number i · 2^e. -/
structure Dy where
  i : Int
  e : Int
deriving DecidableEq, Repr

namespace Dy
def zero : Dy := ⟨0, 0⟩
/-- Exact sum: both are brought to the lower exponent. -/
def add (x y : Dy) : Dy :=
  if x.e ≤ y.e then ⟨x.i + y.i * 2 ^ (y.e - x.e).toNat, x.e⟩ else ⟨x.i * 2 ^ (x.e - y.e).toNat + y.i, y.e⟩
def mul (x y : Dy) : Dy := ⟨x.i * y.i, x.e + y.e⟩
def negate (x : Dy) : Dy := ⟨-x.i, x.e⟩
def sub (x y : Dy) : Dy := x.add y.negate
def abs (x : Dy) : Dy := ⟨x.i.natAbs, x.e⟩
def lt (x y : Dy) : Bool := (x.sub y).i < 0
def le (x y : Dy) : Bool := !(y.lt x)
/-- The greater of two. -/
def max (x y : Dy) : Dy := if x.lt y then y else x
/-- x · 2^k. -/
def scale (x : Dy) (k : Int) : Dy := ⟨x.i, x.e + k⟩
end Dy

/-- The finite value of a number. -/
def Fv.dy : Fv → Dy
  | .num n m e => ⟨if n then -(m : Int) else m, e⟩
  | _ => Dy.zero

/-- The sign of an exact zero sum whose terms have the listed signs (R105). -/
def zeroSign (rm : Rm) (signs : List Bool) : Bool :=
  if signs.all id && !signs.isEmpty then true else if signs.all (!·) then false else rm == .rdn

/-- `Round` of an exact sum: its value and, when that is zero, the signs of its terms. -/
def roundSum (f : Fmt) (rm : Rm) (terms : List (Bool × Dy)) : Nat :=
  let s := terms.foldl (fun a t => a.add t.2) Dy.zero
  if s.i = 0 then f.put (zeroSign rm (terms.map (·.1))) 0 0 else roundDy f rm (s.i < 0) s.i.natAbs s.e

/-- A finite or zero value as a signed term. -/
def Fv.term (x : Fv) : Bool × Dy := (x.neg, x.dy)

/-- The product of two finite values as a signed term. -/
def Fv.mulTerm (x y : Fv) : Bool × Dy := (x.neg != y.neg, x.dy.mul y.dy)

/-- The first NaN among the sources, quietened, in the result's format (R111). -/
def firstNaN (f : Fmt) : List Fv → Option Nat
  | [] => none
  | .nan n p :: _ => some (f.nanBits n p)
  | _ :: l => firstNaN f l

/-! ### Arithmetic (R150 to R154) -/

/-- FADD (R150): NaN sources first, then infinities, then the exact sum rounded once. -/
def faddF (f : Fmt) (rm : Rm) (a b : Fv) : Nat :=
  match firstNaN f [a, b] with
  | some n => n
  | none =>
    match a, b with
    | .inf x, .inf y => if x = y then f.infBits x else f.canon
    | .inf x, _ => f.infBits x
    | _, .inf y => f.infBits y
    | a, b => roundSum f rm [a.term, b.term]

/-- FSUB (R150): a NaN B is returned with its own sign. -/
def fsubF (f : Fmt) (rm : Rm) (a b : Fv) : Nat :=
  match firstNaN f [a, b] with
  | some n => n
  | none => faddF f rm a b.flip

/-- FMUL (R150). -/
def fmulF (f : Fmt) (rm : Rm) (a b : Fv) : Nat :=
  match firstNaN f [a, b] with
  | some n => n
  | none =>
    let s := a.neg != b.neg
    if a.isInf || b.isInf then (if a.isZero || b.isZero then f.canon else f.infBits s)
    else
      let p := a.dy.mul b.dy
      roundDy f rm s p.i.natAbs p.e

/-- FFMA (R150): one rounding of a · b + c. -/
def ffmaF (f : Fmt) (rm : Rm) (a b c : Fv) : Nat :=
  match firstNaN f [a, b, c] with
  | some n => n
  | none =>
    let s := a.neg != b.neg
    if a.isInf || b.isInf then
      if a.isZero || b.isZero then f.canon
      else if c.isInf && c.neg != s then f.canon
      else f.infBits s
    else if c.isInf then f.infBits c.neg
    else roundSum f rm [a.mulTerm b, c.term]

/-- FDIV (R150). -/
def fdivF (f : Fmt) (rm : Rm) (a b : Fv) : Nat :=
  match firstNaN f [a, b] with
  | some n => n
  | none =>
    let s := a.neg != b.neg
    match a, b with
    | .inf _, .inf _ => f.canon
    | .inf _, _ => f.infBits s
    | _, .inf _ => f.put s 0 0
    | .num _ m1 e1, .num _ m2 e2 =>
      if m2 = 0 then (if m1 = 0 then f.canon else f.infBits s)
      else
        let e := e1 - e2
        roundQ f rm s (if 0 ≤ e then m1 * 2 ^ e.toNat else m1) (if 0 ≤ e then m2 else m2 * 2 ^ (-e).toNat)
    | _, _ => f.canon

/-- Floor of the square root, one bit a step from bit `k - 1` down; exact for n below 4^k. -/
def isqrtFrom : Nat → Nat → Nat → Nat
  | 0, _, r => r
  | k + 1, n, r => let r' := r + 2 ^ k; isqrtFrom k n (if r' * r' ≤ n then r' else r)

/-- Floor of the square root. -/
def isqrt (n : Nat) : Nat := isqrtFrom (Nat.log2 n / 2 + 1) n 0

/-- A fraction that rounds as √(n/d) does in every format of at most 64 fraction bits: the root itself when it is a multiple of 2^-k,
and otherwise the middle of the 2^-k wide gap it lies in. -/
def sqrtSticky (n d : Nat) : Nat × Nat :=
  let k : Nat := 80 + (Nat.log2 d - Nat.log2 n) / 2 + 2
  let x := n * 4 ^ k / d
  let r := isqrt x
  if r * r * d = n * 4 ^ k then (r, 2 ^ k) else (2 * r + 1, 2 ^ (k + 1))

/-- FSQRT (R150). -/
def fsqrtF (f : Fmt) (rm : Rm) (a : Fv) : Nat :=
  match a with
  | .nan n p => f.nanBits n p
  | .inf n => if n then f.canon else f.infBits false
  | .num n m e =>
    if m = 0 then f.put n 0 0 else if n then f.canon
    else
      let (x, d) := dyQ m e
      let (x', d') := sqrtSticky x d
      roundQ f rm false x' d'

/-- FRINT (R150): an integral value of the same format; a zero result takes the sign of a. -/
def frintF (f : Fmt) (rm : Rm) (a : Fv) : Nat :=
  match a with
  | .nan n p => f.nanBits n p
  | .inf n => f.infBits n
  | .num n m e =>
    if 0 ≤ e then roundDy f rm n m e
    else
      let d := 2 ^ (-e).toNat
      roundQ f rm n (roundInt rm n (m / d) (m % d) d) 1

/-- a < b as reals and infinities, for values that are not NaN. -/
def Fv.lt (a b : Fv) : Bool :=
  match a, b with
  | .inf x, .inf y => x && !y
  | .inf x, _ => x
  | _, .inf y => !y
  | a, b => a.dy.lt b.dy

/-- a = b as reals and infinities: -0 and +0 are equal (R152). -/
def Fv.eq (a b : Fv) : Bool := !(a.lt b) && !(b.lt a)

/-- a is ordered below b with -0 below +0 (R151). -/
def Fv.below (a b : Fv) : Bool := a.lt b || (a.isZero && b.isZero && a.neg && !b.neg)

/-- FMIN and FMAX on element bits (R151): an operand's bits exactly, or the first NaN quietened. -/
def fminmaxF (f : Fmt) (isMax : Bool) (ab bb : Nat) : Nat :=
  let a := f.read ab
  let b := f.read bb
  if a.isNaN && b.isNaN then (firstNaN f [a, b]).getD 0
  else if a.isNaN then bb
  else if b.isNaN then ab
  else if isMax then (if a.below b then bb else ab) else (if b.below a then bb else ab)

/-- FCMP (R152). -/
def fcmpF (cc : FCmp) (a b : Fv) : Bool :=
  let un := a.isNaN || b.isNaN
  match cc with
  | .eq => !un && a.eq b
  | .ne => un || !(a.eq b)
  | .lt => !un && a.lt b
  | .le => !un && !(b.lt a)
  | .gt => !un && b.lt a
  | .ge => !un && !(a.lt b)
  | .un => un
  | .ord => !un

/-- The class of FCLASS (R153). -/
def fclassF (f : Fmt) (bits : Nat) : Nat :=
  match f.read bits with
  | .inf n => if n then 0 else 7
  | .nan _ p => if fld p 51 1 = 1 then 9 else 8
  | .num n m e =>
    if m = 0 then (if n then 3 else 4)
    else if e = f.emin - f.m && m < 2 ^ f.m then (if n then 2 else 5)
    else (if n then 1 else 6)

/-- FDOT (R154): f16 or bf16 elements, one rounding to FP32. -/
def fdotF (rm : Rm) (a0 a1 b0 b1 c : Fv) : Nat :=
  match firstNaN fp32 [a0, a1, b0, b1, c] with
  | some n => n
  | none =>
    let bad (x y : Fv) : Bool := (x.isInf && y.isZero) || (x.isZero && y.isInf)
    if bad a0 b0 || bad a1 b1 then fp32.canon
    else
      let infs : List Bool :=
        (if a0.isInf || b0.isInf then [a0.neg != b0.neg] else []) ++ (if a1.isInf || b1.isInf then [a1.neg != b1.neg] else [])
          ++ (if c.isInf then [c.neg] else [])
      match infs with
      | [] => roundSum fp32 rm [a0.mulTerm b0, a1.mulTerm b1, c.term]
      | s :: l => if l.all (· == s) then fp32.infBits s else fp32.canon

/-! ### Narrow formats (R60, R106, R107) -/

/-- Second format codes 0 to 6 (R60). -/
inductive Narrow where
  | e4m3 | e5m2 | e3m2 | e2m3 | e2m1 | int8 | int4
deriving DecidableEq, Repr

def Narrow.ofCode : Nat → Option Narrow
  | 0 => some .e4m3 | 1 => some .e5m2 | 2 => some .e3m2 | 3 => some .e2m3 | 4 => some .e2m1 | 5 => some .int8 | 6 => some .int4 | _ => none

/-- Bits of a code. -/
def Narrow.bits : Narrow → Nat
  | .e4m3 | .e5m2 | .int8 => 8
  | .e3m2 | .e2m3 => 6
  | .e2m1 | .int4 => 4

/-- The floating-point layout of a narrow format; the integer formats have none. -/
def Narrow.fmt : Narrow → Option Fmt
  | .e4m3 => some Machine.e4m3 | .e5m2 => some Machine.e5m2 | .e3m2 => some Machine.e3m2 | .e2m3 => some Machine.e2m3
  | .e2m1 => some Machine.e2m1 | .int8 => none | .int4 => none

/-- Exponent of the largest binade (R106, R107). -/
def Narrow.emax : Narrow → Int
  | .e4m3 => 8 | .e5m2 => 15 | .e3m2 => 4 | .e2m3 => 2 | .e2m1 => 2 | .int8 => 0 | .int4 => 0

/-- Mantissa bits, for R126. The spec gives none for int8, whose elements are multiples of 2^-6: the model takes 6 (DESIGN CHOICE, log 78); int4 has no MX form (R107). -/
def Narrow.mant : Narrow → Nat
  | .e4m3 => 3 | .e5m2 => 2 | .e3m2 => 2 | .e2m3 => 3 | .e2m1 => 1 | .int8 => 6 | .int4 => 2

/-- The value of a narrow code outside a block, and whether the reserved int4 code was read (R106, R107). The mantissa of an e4m3 or e5m2 NaN stands in the
top bits of the payload, as a widening of R111 has it; R111 speaks of wide formats there (DEDUCED, log 78). -/
def Narrow.read (n : Narrow) (code : Nat) : Fv × Bool :=
  match n with
  | .e4m3 => if code % 128 = 127 then (.nan (code ≥ 128) (7 * 2 ^ 49), false) else (Machine.e4m3.read code, false)
  | .e5m2 => (Machine.e5m2.read code, false)
  | .e3m2 => (Machine.e3m2.read code, false)
  | .e2m3 => (Machine.e2m3.read code, false)
  | .e2m1 => (Machine.e2m1.read code, false)
  | .int8 => let i := sext 8 code; (.num (i < 0) i.natAbs 0, false)
  | .int4 => if code % 16 = 8 then (.num false 0 0, true) else let i := sext 4 code; (.num (i < 0) i.natAbs 0, false)

/-! ### Conversion (R112 to R115) -/

/-- A conversion target: a wide format, a narrow floating-point format, or an integer range with its width. -/
inductive Target where
  | wide (f : Fmt)
  | narrow (n : Narrow)
  | int (signed : Bool) (w : Nat)
deriving DecidableEq, Repr

/-- The source of a conversion: a value of a format, or an exact real (R112, R117, R353). -/
inductive Src where
  | fv (v : Fv)
  | real (neg : Bool) (n d : Nat)
deriving DecidableEq, Repr

/-- What a conversion gives: the code, whether the fault action applies, and the flags of R115 [4:0]. -/
structure Conv where
  code  : Nat
  fault : Bool
  flags : BitVec 7
deriving DecidableEq, Repr

def flagNAN : BitVec 7 := 1
def flagINF : BitVec 7 := 2
def flagOVF : BitVec 7 := 4
def flagUNF : BitVec 7 := 8
def flagINEX : BitVec 7 := 16
def flagRSVD : BitVec 7 := 32
def flagBNAN : BitVec 7 := 64

/-- Smallest and largest value of an integer target: int4 stops at -7 (R107). -/
def Target.range : Target → Int × Int
  | .int true w => (-(2 ^ (w - 1) : Nat), (2 ^ (w - 1) : Nat) - 1)
  | .int false w => (0, (2 ^ w : Nat) - 1)
  | .narrow .int8 => (-128, 127)
  | .narrow .int4 => (-7, 7)
  | _ => (0, 0)

/-- Bits of an integer target. -/
def Target.intBits : Target → Nat
  | .int _ w => w
  | .narrow n => n.bits
  | .wide _ => 0

/-- The floating-point layout of a target. -/
def Target.fmt? : Target → Option Fmt
  | .wide f => some f
  | .narrow n => n.fmt
  | .int _ _ => none

/-- Result of the propagate action on NaN (R111, R113). -/
def nanPropagate (t : Target) (neg : Bool) (pay : Nat) : Nat :=
  match t with
  | .wide f => f.nanBits neg pay
  | .narrow .e4m3 => b2n neg * 128 + 0x7F
  | .narrow .e5m2 => b2n neg * 128 + 0x7E
  | _ => 0

/-- `Convert` into a floating-point target of layout `f` (R112, R113). -/
def convFloat (t : Target) (f : Fmt) (rm : Rm) (pol : BitVec 8) (src : Src) : Conv :=
  let act (hi : Nat) : Nat := fld pol.toNat hi 2
  let pn := act 6
  let pi := act 4
  let po := act 2
  let pu := act 0
  let tiny (neg : Bool) : Nat := f.put neg 1 (f.emin - f.m)
  let fin (neg : Bool) (n d : Nat) : Conv :=
    if n = 0 then ⟨f.put neg 0 0, false, 0⟩
    else
      let (k, q) := roundMag f rm neg n d
      if f.overflows k q then
        if po = 3 then ⟨0, true, flagOVF ||| flagINEX⟩
        else
          let prop := match t with
            | .wide _ => f.overBits rm neg
            | .narrow .e5m2 => f.overBits rm neg
            | .narrow .e4m3 => b2n neg * 128 + 0x7F
            | _ => f.maxBits neg
          ⟨if po = 0 then prop else if po = 1 then f.maxBits neg else f.put neg 0 0, false, flagOVF ||| flagINEX⟩
      else if k = 0 then
        if pu = 3 then ⟨0, true, flagUNF ||| flagINEX⟩
        else ⟨if pu = 1 then tiny neg else f.put neg 0 0, false, flagUNF ||| flagINEX⟩
      else
        let (_, r, _) := divPow n d q
        ⟨f.put neg k q, false, if r = 0 then 0 else flagINEX⟩
  match src with
  | .fv (.nan neg pay) =>
    if pn = 3 then ⟨0, true, flagNAN⟩
    else if pn = 0 then
      ⟨nanPropagate t neg pay, false, match t with
        | .wide _ | .narrow .e4m3 | .narrow .e5m2 => flagNAN
        | _ => flagNAN ||| flagINEX⟩
    else ⟨if pn = 1 then f.maxBits false else 0, false, flagNAN ||| flagINEX⟩
  | .fv (.inf neg) =>
    if pi = 3 then ⟨0, true, flagINF⟩
    else if pi = 0 then
      match t with
      | .wide _ | .narrow .e5m2 => ⟨f.infBits neg, false, flagINF⟩
      | .narrow .e4m3 => ⟨b2n neg * 128 + 0x7F, false, flagINF ||| flagINEX⟩
      | _ => ⟨f.maxBits neg, false, flagINF ||| flagINEX⟩
    else ⟨if pi = 1 then f.maxBits neg else f.put neg 0 0, false, flagINF ||| flagINEX⟩
  | .fv (.num neg m e) => let (n, d) := dyQ m e; fin neg n d
  | .real neg n d => fin neg n d

/-- `Convert` into an integer target (R113, R157). -/
def convInt (t : Target) (rm : Rm) (pol : BitVec 8) (src : Src) : Conv :=
  let act (hi : Nat) : Nat := fld pol.toNat hi 2
  let (lo, hi) := t.range
  let enc (i : Int) : Nat := wrapNat t.intBits i
  let fin (neg : Bool) (n d : Nat) : Conv :=
    let k := roundInt rm neg (n / d) (n % d) d
    let i : Int := if neg then -(k : Int) else k
    if i < lo || hi < i then
      if act 2 = 3 then ⟨0, true, flagOVF ||| flagINEX⟩
      else ⟨if act 2 = 2 then 0 else enc (if i < lo then lo else hi), false, flagOVF ||| flagINEX⟩
    else ⟨enc i, false, if n % d = 0 then 0 else flagINEX⟩
  match src with
  | .fv (.nan _ _) => if act 6 = 3 then ⟨0, true, flagNAN⟩ else ⟨0, false, flagNAN ||| flagINEX⟩
  | .fv (.inf neg) =>
    if act 4 = 3 then ⟨0, true, flagINF⟩
    else ⟨if act 4 = 2 then 0 else enc (if neg then lo else hi), false, flagINF ||| flagINEX⟩
  | .fv (.num neg m e) => let (n, d) := dyQ m e; fin neg n d
  | .real neg n d => fin neg n d

/-- `Convert` (R112). -/
def convert (t : Target) (rm : Rm) (pol : BitVec 8) (src : Src) : Conv :=
  match t.fmt? with
  | some f => convFloat t f rm pol src
  | none => convInt t rm pol src

/-- `Round` of an exact dyadic value into FP32 toward plus infinity (R110). -/
def roundUp32 (x : Dy) : Nat := if x.i = 0 then 0 else roundDy fp32 .rup (x.i < 0) x.i.natAbs x.e

end Sys2Proof.Machine

namespace Sys2Proof

open Machine

/-! ### Types -/

/-- The floating-point format of a type code, of one element. -/
def Ty.fmt? : Ty → Option Fmt
  | .f32 => some fp32 | .f64 => some fp64 | .f16 | .f16x2 => some fp16 | .bf16 | .bf16x2 => some bf16f | _ => none

/-- Bits of one element. -/
def Ty.ebits : Ty → Nat
  | .i64 | .n64 | .f64 => 64
  | .i32 | .n32 | .f32 => 32
  | .f16 | .bf16 | .i16x2 | .n16x2 | .f16x2 | .bf16x2 => 16
  | .i8x4 | .n8x4 => 8

/-- Elements of a type. -/
def Ty.elems : Ty → Nat
  | .i16x2 | .n16x2 | .f16x2 | .bf16x2 => 2
  | .i8x4 | .n8x4 => 4
  | _ => 1

/-- i-types (R128). -/
def Ty.isSigned : Ty → Bool
  | .i32 | .i64 | .i16x2 | .i8x4 => true
  | _ => false

/-- The conversion target of a scalar type (R158). -/
def Ty.target : Ty → Target
  | .i32 => .int true 32 | .n32 => .int false 32 | .i64 => .int true 64 | .n64 => .int false 64
  | .f64 => .wide fp64 | .f16 => .wide fp16 | .bf16 => .wide bf16f | _ => .wide fp32

/-- The value of a scalar as a conversion source (R158). -/
def Ty.srcOf (t : Ty) (w : Nat) : Src :=
  match t.fmt? with
  | some f => .fv (f.read w)
  | none =>
    let i : Int := if t.isSigned then sext t.ebits w else (w % 2 ^ t.ebits : Nat)
    .fv (.num (i < 0) i.natAbs 0)

end Sys2Proof
end

