-- ==== Sys2Proof/Machine/Order.lean ====
section
/-! DEFINITION. Ordering points (R284), changes (R245, R285), scatter slots (R277 to R281), the lines that slices hold (R244 to R252) and the L1 views (R243). -/

namespace Sys2Proof.Machine

/-! ### Homes -/

/-- Die, core-side slice and memory-side slice of an offset (R240). -/
def paDie (pa : Nat) : Nat := fld pa 9 2
def paSlice (pa : Nat) : Nat := 16 * (fld pa 11 41 % 3) + fld pa 11 4
def paMSlice (pa : Nat) : Nat := fld pa 11 6

/-- The die whose registers stand at an offset of the device aperture; none for the two ranges that belong to no die (R403). -/
def apertureDie (off : Nat) : Option Nat :=
  if off < 0x400000 then some (off / 0x100000)
  else if 0x800000 ≤ off ∧ off < 0x1800000 then some ((off - 0x800000) / 0x400000)
  else none

/-- The tier, as a key says it. -/
def keyLpddr (k : Nat) : Bool := lpddrKey ≤ k

/-- The offset within its tier. -/
def keyPa (k : Nat) : Nat := if lpddrKey ≤ k then k - lpddrKey else k

/-- Windows by PA[51:48]: device aperture, UALink peers, PCIe (R403 to R405). -/
def keyAperture (k : Nat) : Bool := k / 2 ^ 48 == 0xC
def keyPeer (k : Nat) : Bool := k / 2 ^ 48 == 0xD
def keyPcie (k : Nat) : Bool := k / 2 ^ 48 == 0xE || k / 2 ^ 48 == 0xF

/-- First key of the PCIe window: host bus address 0 (R404). -/
def pcieKey : Nat := 0xE * 2 ^ 48

/-- `Home` (R284) of a key, under the CP field of its leaf. -/
def homeOf (cp k : Nat) : Point :=
  let pa := keyPa k
  if keyLpddr k then (if cp = 0 then .slice (paDie pa) (paSlice pa) else .lpddr (paDie pa))
  else if keyAperture k then .aperture ((apertureDie (k % 2 ^ 48)).getD 0)
  else if keyPeer k then .peer (fld k 40 8)
  else if keyPcie k then .pcie
  else if cp = 0 then .slice (paDie pa) (paSlice pa)
  else .mslice (paDie pa) (paMSlice pa)

/-! ### Memory counters and signals (R254, R315) -/

/-- A counter of a die's memory-counter aperture raised. -/
def State.addCounter (s : State) (die off n : Nat) : State :=
  if n = 0 then s
  else { s with counters := assocSet s.counters (die, off) ((assocGet s.counters (die, off)).getD 0 + BitVec.ofNat 64 n) }

/-- A raw signal of an observation block, named by its offset, raised before the next clock (log 16). -/
def State.signal (s : State) (die block sig n : Nat) : State :=
  if n = 0 then s
  else { s with signals := assocSet s.signals (die, block, sig) ((assocGet s.signals (die, block, sig)).getD 0 + n) }

def coreBlock (c : CoreId) : Nat := 0x100000 + 0x1000 * (4 * c.cluster + c.core)
def sliceBlock (k : Nat) : Nat := 0x200000 + 0x1000 * k
def msliceBlock (m : Nat) : Nat := 0x300000 + 0x1000 * m
/-- A core's coalescer block of R254. -/
def coalBlock (c : CoreId) : Nat := 0x4000 + 64 * (4 * c.cluster + c.core)

/-- Signal i of a slice of either tier raised: the increment of its counter or gauge i (R315). -/
def State.signalAt (s : State) (p : Point) (i n : Nat) : State :=
  match p with
  | .slice d k => s.signal d (sliceBlock k) i n
  | .mslice d m => s.signal d (msliceBlock m) i n
  | _ => s

/-- Counter i of a slice of either tier raised, with its signal. -/
def State.countAt (s : State) (p : Point) (i n : Nat) : State :=
  match p with
  | .slice d k => (s.addCounter d (0x1000 + 64 * k + 8 * i) n).signalAt p i n
  | .mslice d m => (s.addCounter d (0x2000 + 64 * m + 8 * i) n).signalAt p i n
  | _ => s

/-- A coalescer counter raised. -/
def State.countCore (s : State) (c : CoreId) (i n : Nat) : State := if c.core < 4 then s.addCounter c.die (coalBlock c + 8 * i) n else s

/-- A core signal raised. -/
def State.coreSignal (s : State) (c : CoreId) (sig n : Nat) : State := if c.core < 4 then s.signal c.die (coreBlock c) sig n else s

/-! ### Lines that slices hold -/

def State.heldAt (s : State) (p : Point) : List Held := (assocGet s.held p).getD []

/-- A slice's lines replaced: signals 0 and 1 carry the increments of LINES and SECTORS. -/
def State.setHeld (s : State) (p : Point) (l : List Held) : State :=
  let old := s.heldAt p
  ({ s with held := assocSet s.held p l }.signalAt p 0 (l.length - old.length)).signalAt p 1 ((l.map Held.sectors).sum - (old.map Held.sectors).sum)

/-- A line is pinned in a tier (R252). -/
def State.pinnedIn (s : State) (away : Bool) (line : Nat) : Bool := s.pins.any fun p => p.line == line && p.away == away

/-- A team is marked urgent (R339). -/
def State.urgentTeam (s : State) (t : Option (Nat × Nat)) : Bool :=
  match t with
  | some (c, r) => ((s.team? c r).map Team.urgent).getD false
  | none => false

/-- One pass of eviction over lines from least to most recently used: evictable ones leave while there is an excess of sectors or tags. -/
def evictPass (can : Held → Bool) : Nat → Nat → List Held → List Held × List Held × Nat × Nat
  | xs, xt, [] => ([], [], xs, xt)
  | xs, xt, h :: l =>
    if (xs = 0 ∧ xt = 0) ∨ can h = false then
      let (k, e, a, b) := evictPass can xs xt l
      (h :: k, e, a, b)
    else
      let (k, e, a, b) := evictPass can (xs - h.sectors) (xt - 1) l
      (k, h :: e, a, b)

/-- Sets and tags of a slice of the core-side tier, or with `away` of the memory-side tier (R244, R248). -/
def tierSets (away : Bool) : Nat := if away then Config.memSets else Config.coreSets
def tierTags (away : Bool) : Nat := if away then Config.memTags else Config.coreTags

/-- The set of its slice that a line falls in. -/
def setOf (away : Bool) (line : Nat) : Nat := Config.setOf line % tierSets away

/-- Evict from the set of line `keep`, lines of urgent teams last (R244), until its sectors and tags fit; the lists run from the most recently used. -/
def evictSet (s : State) (away : Bool) (keep : Nat) (l : List Held) : List Held × List Held × Bool :=
  let set := l.filter fun h => setOf away h.line == setOf away keep
  let xs := (set.map Held.sectors).sum - Config.setSectors
  let xt := set.length - tierTags away
  let can (urgent : Bool) (h : Held) : Bool :=
    setOf away h.line == setOf away keep && h.line != keep && (h.copy || !s.pinnedIn away h.line) && s.urgentTeam h.team == urgent
  let (k1, e1, xs1, xt1) := evictPass (can false) xs xt l.reverse
  let (k2, e2, xs2, xt2) := evictPass (can true) xs1 xt1 k1
  (k2.reverse, e1 ++ e2, xs2 = 0 && xt2 = 0)

def State.lineState (s : State) (l : Nat) : LineState := (assocGet s.lines l).getD { tag := 0, copies := 0, cmp := false }
def State.setLine (s : State) (l : Nat) (x : LineState) : State := { s with lines := assocSet s.lines l x }

/-- Sectors that a line takes now. -/
def State.lineSectors (s : State) (l : Nat) : Nat := bdzSectors (s.lineState l).cmp (s.memBytes (lineBase l) 128)

/-- How the slices hold a page's lines (R219, R249): with CP = 2 they do not; otherwise CMP says whether in BDZ form. -/
def Leaf.hold (l : Leaf) : Option Bool := if l.cp = 2 then none else some l.cmp

/-- The memory-side slice of a line of the HBM4 tier. -/
def awayOf (line : Nat) : Point := let pa := keyPa (lineBase line); .mslice (paDie pa) (paMSlice pa)

/-- A memory-side slice takes a line (R248): for a fill or an access of a CP = 1 page, or with `back` as a core-side slice writes it back.
A line for which the pinned lines leave no room goes on to HBM4 unheld; a pinned one stays, since a pin needs a tag alone (R252). -/
def State.touchM (s : State) (line : Nat) (wr back : Bool) (team : Option (Nat × Nat)) : State :=
  let p := awayOf line
  let l := s.heldAt p
  let old := l.find? fun h => h.line == line
  let n := s.lineSectors line
  let o := (old.map Held.sectors).getD n
  let h : Held := { line := line, sectors := n, written := wr || (old.map Held.written).getD false, copy := false, team := team }
  let (l', ev, fits) := evictSet s true line (h :: l.filter fun h => h.line != line)
  let s := s.setHeld p (if fits || s.pinnedIn true line then l' else l'.filter fun h => h.line != line)
  let s := if wr && n > o then s.countAt p 4 ev.length else s
  if back then (if n > o then s.countAt p 2 1 else if n < o then s.countAt p 3 1 else s) else s

/-- Lines leave a core-side slice: written ones of the HBM4 tier go to their memory-side slice. -/
def State.evicted (s : State) : List Held → State
  | [] => s
  | h :: l => (if h.written && !h.copy && !keyLpddr (lineBase h.line) then s.touchM h.line true true h.team else s).evicted l

/-- A pinned line moves to its memory-side slice, its pins with it (R252). Where every tag of its set there is pinned, the slice holds it as a further line
(DESIGN CHOICE, log 19). -/
def State.moveAway (s : State) (p : Point) (line : Nat) (wr : Bool) (team : Option (Nat × Nat)) : State :=
  let n := (s.pins.filter fun q => q.line == line && !q.away).length
  let s := s.setHeld p ((s.heldAt p).filter fun h => h.line != line)
  let s := { s with pins := mapIf (fun q => q.line == line) (fun q => { q with away := true }) s.pins }
  ((s.touchM line wr wr team).signalAt (awayOf line) 7 n).countAt p 7 (1 + n)

/-- A core-side slice holds a line after an access: it is filled when it was absent (R244). A change that has raised the line's sectors evicts under R252:
those evictions count as FORCED, and where they make no room the line moves away. A line that finds no room at its fill is not held. -/
def State.touchSlice (s : State) (p : Point) (line : Nat) (wr copy : Bool) (team : Option (Nat × Nat)) : State :=
  let l := s.heldAt p
  let old := l.find? fun h => h.line == line
  let second := keyLpddr (lineBase line)
  let s := if old.isNone && !copy && !wr && !second then s.touchM line false false team else s
  let n := s.lineSectors line
  let grew := wr && n > (old.map Held.sectors).getD n
  let h : Held := { line := line, sectors := n, written := wr || (old.map Held.written).getD false, copy := copy, team := team }
  let (l', ev, fits) := evictSet s false line (h :: l.filter fun h => h.line != line)
  let s := (s.setHeld p l').evicted ev
  let s := if grew then s.countAt p 4 ev.length else s
  if fits then s
  else if second then (if s.pinnedIn false line then s else s.setHeld p ((s.heldAt p).filter fun h => h.line != line))
  else if grew then s.moveAway p line wr team
  else
    let s := s.setHeld p ((s.heldAt p).filter fun h => h.line != line)
    if wr then s.touchM line true true team else s

/-- `s` with what the slices hold as in `t`: an access changes nothing else there. -/
def State.slicesOf (s t : State) : State :=
  { s with held := t.held, lines := t.lines, pins := t.pins, counters := t.counters, signals := t.signals }

/-- What the tiers hold after an access to a line at its point, under the leaf's CMP; with `none` (CP = 2) the line passes through (R248). -/
def State.touch (s : State) (p : Point) (hold : Option Bool) (line : Nat) (wr : Bool) (team : Option (Nat × Nat)) : State :=
  match hold with
  | none => s
  | some cmp =>
    let t := s.setLine line { s.lineState line with cmp := cmp }
    match p with
    | .slice _ _ => s.slicesOf (t.touchSlice p line wr false team)
    | .mslice _ _ => s.slicesOf (t.touchM line wr false team)
    | _ => s

/-- The sector of a core. -/
def sectorOf (c : CoreId) : Nat := c.cluster / 14

/-- A load or fetch at a home in another sector of its die may form a read copy in its own sector (R246): a free choice. A copy for which its set has
no room is not formed. -/
def State.copyFor (s : State) (p : Point) (line : Nat) (c : CoreId) (team : Option (Nat × Nat)) : State :=
  match p with
  | .slice d k =>
    if d = c.die ∧ k / 16 ≠ sectorOf c then
      let (b, s) := s.drawBit
      let q := Point.slice d (16 * sectorOf c + k % 16)
      let t := s.touchSlice q line false true team
      let x := t.lineState line
      s.slicesOf (if b && (t.heldAt q).any (fun h => h.line == line) then t.setLine line { x with copies := x.copies ||| (1#3 <<< sectorOf c) } else s)
    else s
  | _ => s

/-! ### Changes -/

/-- The change counter of a point (R265). -/
def State.change (s : State) (p : Point) : BitVec 32 := (assocGet s.changes p).getD 0

/-- Remote copies of a line are dropped, each by one invalidate (R246). -/
def State.dropCopies (s : State) (p : Point) (line : Nat) : State :=
  match p with
  | .slice d k =>
    let x := s.lineState line
    let secs := (List.range 3).filter fun i => x.copies.getLsbD i
    let s := secs.foldl (fun s i =>
      let q := Point.slice d (16 * i + k % 16)
      s.setHeld q ((s.heldAt q).filter fun h => !(h.copy && h.line == line))) s
    (s.setLine line { x with copies := 0 }).countAt p 6 secs.length
  | _ => s

/-- A line that a write of all its bytes replaces is no longer lost (R257). -/
def State.unlose (s : State) (line : Nat) (ws : List Host.Cell) : State :=
  if s.lost.contains line && (List.range 128).all (fun i => ws.any fun c => c.1 == lineBase line + i) then
    { s with lost := s.lost.filter (· ≠ line) } else s

/-- A change of a line takes its point's next sequence tag (R265, R285). -/
def State.stamp (s : State) (p : Point) (line : Nat) : BitVec 32 × State :=
  let tag := s.change p
  (tag, { s.setLine line { s.lineState line with tag := tag } with changes := assocSet s.changes p (tag + 1) })

/-- A step of an operand stream holds a pinned source line that was written (R180). -/
def State.sourceWritten (s : State) (line : Nat) : State :=
  if s.pins.any (fun q => q.line == line) then
    { s with crews := s.crews.map (fun c => { c with teams := c.teams.map (fun t =>
        { t with steps := mapIf (fun x => x.lines.contains line) (fun x => { x with srcw := true }) t.steps }) }) }
  else s

/-- One change of a line (R245, R285): copies dropped, the line filled where its home did not hold it, the bytes written, one sequence tag taken, and the
line held in its new code. It does not look at scatter slots. -/
def State.applyRaw (s : State) (p : Point) (hold : Option Bool) (line : Nat) (ws : List Host.Cell) (team : Option (Nat × Nat)) : BitVec 32 × State :=
  let s := (s.dropCopies p line).touch p hold line false team
  let n0 := s.lineSectors line
  let s := ({ s with mem := memPutCells s.mem ws, past := (ws.map fun c : Host.Cell => (c.1, s.memByte c.1)) :: s.past }).unlose line ws
  let (tag, s) := s.stamp p line
  let n1 := s.lineSectors line
  let s := match p with
    | .slice _ _ => (s.countAt p 5 1).countAt p (if n1 > n0 then 2 else 3) (if n1 = n0 then 0 else 1)
    | _ => s
  (tag, (s.touch p hold line true team).sourceWritten line)

/-! ### Scatter slots -/

/-- Backing area of core-side slice k of die d (R280, R399): its base and its capacity in records. -/
def State.backing (s : State) (d k : Nat) : Nat × Nat :=
  ((s.die d).scatbase.toNat + k * (s.die d).scatsize.toNat, (s.die d).scatsize.toNat / 48)

/-- First byte of the index array of a backing area: its last sixth (R399). -/
def State.indexBase (s : State) (d k : Nat) : Nat := (s.backing d k).1 + 5 * (s.die d).scatsize.toNat / 6

/-- Records in use of slice k: an index entry is in use when its bit 63 is 1. Only bytes that memory lists can hold it. -/
def State.spills (s : State) (d k : Nat) : List Nat :=
  let ib := s.indexBase d k
  let n := (s.backing d k).2
  if n = 0 then []
  else (s.mem.filter fun c => ib ≤ c.1 && c.1 < ib + 8 * n && (c.1 - ib) % 8 == 7 && c.2.getLsbD 7).map fun c => (c.1 - ib) / 8

/-- A spill record as the slot it was (R280). An index entry names an offset of its tier, and the slice keeps which tier (log 19). -/
def State.spillAt (s : State) (d k i : Nat) : Scatter :=
  let e := s.memNat (s.indexBase d k + 8 * i) 8
  { word := fld e 0 50 * 4 + (if s.spill2.contains (d, k, i) then lpddrKey else 0),
    sum := sext 320 (s.memNat ((s.backing d k).1 + 40 * i) 40), nan := fld e 50 1 == 1, pinf := fld e 51 1 == 1,
    ninf := fld e 52 1 == 1, ovfl := fld e 53 1 == 1 }

/-- A sum in its 320-bit field (R277). -/
def sumFits (i : Int) : Bool := -(2 ^ 319 : Nat) ≤ i && i < (2 ^ 319 : Nat)

/-- Two slots of one word summed. -/
def Scatter.join (a b : Scatter) : Scatter :=
  { word := a.word, sum := a.sum + b.sum, nan := a.nan || b.nan, pinf := a.pinf || b.pinf, ninf := a.ninf || b.ninf,
    ovfl := a.ovfl || b.ovfl || !sumFits (a.sum + b.sum) }

/-- Everything accepted for a word and not flushed: its slot and its records. -/
def State.pending (s : State) (w : Nat) : List Scatter :=
  let pa := keyPa w
  let d := paDie pa
  let k := paSlice pa
  s.scatter.filter (fun x => x.word == w)
    ++ ((s.spills d k).map (s.spillAt d k)).filter fun x => x.word == w

/-- The value that Visible gives a word with contributions `x` over memory value `m` (R277). -/
def visibleOf (x : Scatter) (m : Nat) : Nat :=
  if x.nan || x.ovfl || (x.pinf && x.ninf) then fp32.canon
  else match fp32.read m with
    | .nan n p => fp32.nanBits n p
    | .inf n => if (x.pinf && n) || (x.ninf && !n) then fp32.canon else m
    | v =>
      if x.pinf then fp32.infBits false else if x.ninf then fp32.infBits true
      else if x.sum = 0 then m
      else roundSum fp32 .rne [v.term, (decide (x.sum < 0), ⟨x.sum, -149⟩)]

/-- `Visible(w)` (R277). -/
def State.visible (s : State) (w : Nat) : Nat :=
  let m := s.memNat w 4
  match s.pending w with
  | [] => m
  | x :: l => visibleOf (l.foldl Scatter.join x) m

/-- Words of a line that have a slot or a record. -/
def State.slotWords (s : State) (line : Nat) : List Nat :=
  let b := lineBase line
  if s.scatter.isEmpty && ((s.die (paDie (keyPa b))).scatsize == 0) then []
  else ((List.range 32).map fun i => b + 4 * i).filter fun w => !(s.pending w).isEmpty

/-- The bytes that a Read gives (R286): the current value, Visible for words with slots. -/
def State.readVis (s : State) (k n : Nat) : List Byte :=
  match s.slotWords (lineOf k) with
  | [] => s.memBytes k n
  | ws => (List.range n).map fun i =>
    let a := k + i
    let w := a / 4 * 4
    if ws.contains w then BitVec.ofNat 8 (fld (s.visible w) (8 * (a - w)) 8) else s.memByte a

/-- Slots of words freed, and the V bits of their records cleared (R281). -/
def State.freeSlots (s : State) (ws : List Nat) : State :=
  let s' := { s with scatter := s.scatter.filter fun x => !ws.contains x.word }
  ws.foldl (fun s w =>
    let pa := keyPa w
    let d := paDie pa
    let k := paSlice pa
    ((s.spills d k).filter fun i => (s.spillAt d k i).word == w).foldl (fun s i =>
      let a := s.indexBase d k + 8 * i + 7
      s.setMem a [s.memByte a &&& 0x7F]) s) s'

/-- Flush one word in one change (R279, R281), with the change's tag; a word with neither slot nor record is left alone. -/
def State.flushWord (s : State) (p : Point) (hold : Option Bool) (w : Nat) (team : Option (Nat × Nat)) : Option (BitVec 32) × State :=
  if (s.pending w).isEmpty then (none, s)
  else
    let r := s.applyRaw p hold (lineOf w) (((List.range 4).zip (leBytes 4 (s.visible w))).map fun q => ((w + q.1, q.2) : Host.Cell)) team
    (some r.1, r.2.freeSlots [w])

/-- Flush words in turn: the words flushed, each with the tag of its change, and the state. -/
def State.flushWords (s : State) (p : Point) (hold : Option Bool) (ws : List Nat) (team : Option (Nat × Nat)) : List (Nat × BitVec 32) × State :=
  ws.foldl (fun r w => let f := r.2.flushWord p hold w team; (r.1 ++ (f.1.map fun tag => (w, tag)).toList, f.2)) ([], s)

/-- `Apply` (R285) of bytes to a line at its point: words with slots that it names are flushed first. Those words with their tags, its own tag, and the state. -/
def State.apply (s : State) (p : Point) (hold : Option Bool) (line : Nat) (ws : List Host.Cell) (team : Option (Nat × Nat)) :
    List (Nat × BitVec 32) × BitVec 32 × State :=
  let named := dedup (ws.map fun c => c.1 / 4 * 4)
  let f := s.flushWords p hold ((s.slotWords line).filter named.contains) team
  (f.1, f.2.applyRaw p hold line ws team)

/-- A contribution's effect on a slot (R277, R278). -/
def Scatter.addBits (x : Scatter) (b : Nat) : Scatter :=
  match fp32.read b with
  | .nan _ _ => { x with nan := true }
  | .inf n => if n then { x with ninf := true } else { x with pinf := true }
  | .num n m e =>
    let i : Int := (m : Int) * 2 ^ (e + 149).toNat
    let t := x.sum + (if n then -i else i)
    { x with sum := if sumFits t then t else x.sum, ovfl := x.ovfl || !sumFits t }

def Scatter.fresh (w : Nat) : Scatter := { word := w, sum := 0, nan := false, pinf := false, ninf := false, ovfl := false }

/-- The lowest record of a backing area that is not in use. -/
def State.freeRecord (s : State) (d k : Nat) : Option Nat :=
  let used := s.spills d k
  let n := (s.backing d k).2
  -- one more than the records in use always leaves a free index among the first ones
  ((List.range (min n (used.length + 1))).find? fun i => !used.contains i)

/-- A slot spilled into a record (R280). -/
def State.spillSlot (s : State) (d k i : Nat) (x : Scatter) : State :=
  let e := 2 ^ 63 + b2n x.ovfl * 2 ^ 53 + b2n x.ninf * 2 ^ 52 + b2n x.pinf * 2 ^ 51 + b2n x.nan * 2 ^ 50 + fld x.word 2 50
  let s := s.setMem ((s.backing d k).1 + 40 * i) (leBytes 40 (wrapNat 320 x.sum))
  let s := s.setMem (s.indexBase d k + 8 * i) (leBytes 8 e)
  let others := s.spill2.filter (· ≠ (d, k, i))
  { s with scatter := s.scatter.filter fun y => y.word != x.word,
           spill2 := if keyLpddr x.word then (d, k, i) :: others else others }

/-- Slots that a core-side slice holds. -/
def State.slotsOf (s : State) (d k : Nat) : List Scatter :=
  s.scatter.filter fun x => paDie (keyPa x.word) == d && paSlice (keyPa x.word) == k

/-- A contribution accepted at its home (R278, R280); `spill` chooses the slot that is spilled when none is free.
None where a slot is needed, none is free and the backing area is full. -/
def State.contribute (s : State) (w b spill : Nat) : Option State :=
  match s.scatter.find? fun x => x.word == w with
  | some _ => some { s with scatter := mapIf (fun x => x.word == w) (fun x => x.addBits b) s.scatter }
  | none =>
    let pa := keyPa w
    let d := paDie pa
    let k := paSlice pa
    let held := s.slotsOf d k
    let add (s : State) : State := { s with scatter := s.scatter ++ [(Scatter.fresh w).addBits b] }
    if held.length < Config.scatterSlots then some (add s)
    else match s.freeRecord d k, held[spill % held.length]? with
      | some i, some x => some (add (s.spillSlot d k i x))
      | _, _ => none

/-! ### L1 views (R243) -/

def State.l1Of (s : State) (c : CoreId) : List L1Entry := (assocGet s.l1 c).getD []
def State.setL1 (s : State) (c : CoreId) (l : List L1Entry) : State := { s with l1 := assocSet s.l1 c l }

/-- Sectors that bytes k to k + n - 1 of one line name. -/
def sectorsOf (k n : Nat) : BitVec 4 :=
  let lo := k % 128 / 32
  let hi := (k % 128 + (n - 1)) / 32
  (List.range 4).foldl (fun m i => if lo ≤ i ∧ i ≤ hi then m ||| (1#4 <<< i) else m) 0

/-- The entry of a line, for a world and an ASID, in a core's view. -/
def State.l1Entry (s : State) (c : CoreId) (line : Nat) (secure : Bool) (asid : BitVec 16) : Option L1Entry :=
  (s.l1Of c).find? fun e => e.line == line && e.secure == secure && e.asid == asid

/-- Sectors of a line leave a core's view, whatever their ASID or world. -/
def State.dropSectors (s : State) (c : CoreId) (line : Nat) (sec : BitVec 4) : State :=
  s.setL1 c ((mapIf (fun e => e.line == line) (fun e => { e with sectors := e.sectors &&& ~~~sec }) (s.l1Of c)).filter fun e => e.sectors != 0)

/-- Drop (R286). -/
def State.dropLine (s : State) (c : CoreId) (line : Nat) : State := s.setL1 c ((s.l1Of c).filter fun e => e.line != line)

/-- Invalidate (R286). -/
def State.invalidateL1 (s : State) (c : CoreId) : State := s.setL1 c []

/-- a is an older sequence tag than b: 32-bit serial order (R265). -/
def tagOlder (a b : BitVec 32) : Bool := a != b && (b - a).toNat < 2 ^ 31

/-- Lines that a core's L1 can hold: the 64 KiB blocks of its SRAM array that its scratchpads leave, one at least (R15, R241). -/
def State.l1Lines (s : State) (c : CoreId) : Nat :=
  let pad := ((s.crews.filter fun k => k.die == c.die && k.cluster == c.cluster).map fun k => (k.teams.filter fun t => t.core == c.core).length * k.padSize).sum
  (8 - min 7 ((pad + 65535) / 65536)) * 512

/-- A core's view takes the current value of sectors of a line (R286, Fill). A newer line tag drops every sector of the line outside them, whatever its
ASID or world. The lines filled longest ago leave where the blocks are full (log 19). With `coded` no response brings the line, and it is still to be expanded. -/
def State.fillL1 (s : State) (c : CoreId) (line : Nat) (secure : Bool) (asid : BitVec 16) (sec : BitVec 4) (spec coded : Bool) : State :=
  let tag := (s.lineState line).tag
  let data := s.readVis (lineBase line) 128
  let view := (s.l1Of c).filter fun e => e.line != line || e.tag == tag
  let mine (e : L1Entry) : Bool := e.line == line && e.secure == secure && e.asid == asid
  let old := view.find? mine
  let keep := (old.map L1Entry.sectors).getD 0
  let unsure := (old.map L1Entry.spec).getD 0
  let pick (i : Nat) : Byte :=
    if sec.getLsbD (i / 32) then data.getD i 0 else match old with
      | some e => e.data.getD i 0
      | none => 0
  let e : L1Entry := { line := line, tag := tag, secure := secure, asid := asid, sectors := keep ||| sec, data := (List.range 128).map pick,
                       spec := if spec then unsure ||| (sec &&& ~~~keep) else unsure &&& ~~~sec,
                       coded := coded && (keep != 0xF || (old.map L1Entry.coded).getD false) }
  s.setL1 c ((e :: view.filter fun x => !mine x).take (s.l1Lines c))

/-- The coalescer expands a line of a CMP = 1 page (R253, R254). -/
def State.expand (s : State) (c : CoreId) (cmp : Bool) : State := if cmp then s.countCore c 0 1 else s

/-- Sectors of an entry of a core's view taken by lanes: they are confirmed where they were filled under speculation, and a line that no response brought is
expanded with its first Hit (R254, log 80). -/
def State.hitL1 (s : State) (c : CoreId) (e : L1Entry) (need : BitVec 4) : State :=
  let s := s.setL1 c (mapIf (fun x => x == e) (fun x => { x with spec := x.spec &&& ~~~need, coded := false }) (s.l1Of c))
  (s.coreSignal c 8 1).expand c e.coded

/-- An entry of a core's view goes: it has met an uncorrectable error (R257). -/
def State.loseL1 (s : State) (c : CoreId) (e : L1Entry) : State :=
  s.setL1 c ((s.l1Of c).filter fun x => !(x.line == e.line && x.secure == e.secure && x.asid == e.asid))

/-- Bytes of an entry's line. -/
def L1Entry.bytes (e : L1Entry) (k n : Nat) : List Byte := (e.data.drop (k % 128)).take n

/-- The entries of a line that carry an older tag than a read has returned leave the core's view: no later read of a thread returns one (R287). -/
def State.dropOlder (s : State) (c : CoreId) (line : Nat) (tag : BitVec 32) : State :=
  s.setL1 c ((s.l1Of c).filter fun e => !(e.line == line && tagOlder e.tag tag))

end Sys2Proof.Machine
end

