-- ==== Sys2Proof/Machine/Vm.lean ====
section
/-! DEFINITION. Translation (R218 to R224), the permission checks at a leaf, and instruction fetch (R48, R50). -/

namespace Sys2Proof.Machine

/-- What an access is, for the checks of R220. -/
inductive Access where
  | fetch | load | store
deriving DecidableEq, Repr

/-- Outcome of a walk: a leaf, or a cause with the mark "tier absent" (R11). -/
inductive Walk where
  | ok (l : Leaf)
  | fail (cause : Nat) (absent : Bool)
deriving DecidableEq, Repr

/-- Entry i of a table as some memory holds it (R218); none beyond the HBM4 capacity. -/
def pteIn (m : List Host.Cell) (table i : Nat) : Option Nat :=
  if table + 8 * i < Config.hbmBytes then some (leNat (memBytesFrom m (table + 8 * i) 8)) else none

/-- A valid region of the secure region table covers a location (R223). -/
def State.inRegion (s : State) (k : Nat) : Bool :=
  let lp := keyLpddr k
  s.regions.any fun r =>
    wbit r.1 0 && wbit r.1 1 == lp && (!lp || Config.isK4M) && wfld r.1 21 31 * 2 ^ 21 ≤ keyPa k && keyPa k < (wfld r.2 21 31 + 1) * 2 ^ 21

/-- A location is secure (R223). -/
def State.secureAt (s : State) (l : Leaf) (k : Nat) : Bool := l.sec || s.inRegion k

/-- Step 2 of R220 at a leaf: the place of the page. -/
def placeOk (tierL : Bool) (pa size cp : Nat) (cmp roc x : Bool) : Bool :=
  if tierL then pa + size ≤ Config.lpddrBytes
  else if keyAperture pa then
    -- R403: TIER 0, CP 2, CMP 0, ROC 0, X 0, and offsets that belong to a die
    let off := pa % 2 ^ 48
    cp == 2 && !cmp && !roc && !x && off + size ≤ 0x10000000
      && (off + size ≤ 0x400000 || (0x800000 ≤ off && off + size ≤ 0x1800000))
  else if keyPeer pa || keyPcie pa then cp == 2 && !cmp
  else pa + size ≤ Config.hbmBytes

/-- The checks of a leaf entry found at a level (R219, R220 steps 2): the leaf of the page's byte `off`. -/
def leafOf (e level off : Nat) : Option Leaf :=
  let bit (i : Nat) : Bool := fld e i 1 == 1
  let g64 := bit 10
  let size := if level = 2 then 2 ^ 30 else if level = 1 then 2 ^ 21 else if g64 then 2 ^ 16 else 2 ^ 12
  let pa0 := fld e 12 40 * 2 ^ 12
  let pa := if level = 0 && g64 then pa0 / 2 ^ 16 * 2 ^ 16 else pa0
  let cp := fld e 8 2
  if fld e 52 12 ≠ 0 || bit 11 || (level ≠ 0 && g64) || pa % size ≠ 0 || cp == 3 then none
  else if !placeOk (bit 7) pa size cp (bit 5) (bit 4) (bit 3) then none
  else some { at_ := (if bit 7 then lpddrKey else 0) + pa + off % size, cp := cp, cmp := bit 5, roc := bit 4, sec := bit 6, w := bit 2, x := bit 3 }

/-- Under G64 the 16 entries of a group are equal except in PA[15:12], which counts 0 to 15 (R220). -/
def groupOk (m : List Host.Cell) (table i : Nat) : Bool :=
  let b := i / 16 * 16
  let strip (e : Nat) : Nat := e - fld e 12 4 * 2 ^ 12
  match pteIn m table b with
  | none => false
  | some e0 => (List.range 16).all fun j => match pteIn m table (b + j) with
    | some e => strip e == strip e0 && fld e 12 4 == j
    | none => false

/-- One level of the walk (R218, R220 steps 1 and 2), with the table as a memory holds it: the next table, or the end of the walk. -/
def walkLevel (m : List Host.Cell) (va n table : Nat) : Nat ⊕ Walk :=
  let i := fld va (12 + 9 * n) 9
  match pteIn m table i with
  | none => .inr (.fail 6 false)
  | some e =>
    if fld e 0 1 = 0 then .inr (.fail 8 false)
    else if fld e 1 1 = 1 then
      if n ≥ 3 then .inr (.fail 6 false)
      else match leafOf e n va with
        | none => .inr (.fail 6 false)
        | some l => .inr (if n = 0 && fld e 10 1 == 1 && !groupOk m table i then .fail 6 false else .ok l)
    else if n = 0 || fld e 2 9 ≠ 0 || fld e 11 1 ≠ 0 || fld e 52 12 ≠ 0 then .inr (.fail 6 false)
    else .inl (fld e 12 40 * 2 ^ 12)

/-- The five-level walk from level `n - 1` down, in memory as it stands. -/
def State.walkFrom (s : State) (va : Nat) : Nat → Nat → Walk
  | 0, _ => .fail 6 false
  | n + 1, table => match walkLevel s.mem va n table with
    | .inl t => s.walkFrom va n t
    | .inr w => w

/-- Entry of an ASID (R222): ROOT, SWORLD, V and TTBASE. -/
structure AsidEntry where
  root   : Nat
  sworld : Bool
  v      : Bool
  tt     : Nat
deriving DecidableEq, Repr

/-- First byte of an ASID's entry. -/
def State.asidAt (s : State) (asid : BitVec 16) : Nat := s.asidbase.toNat / 4096 * 4096 + 16 * asid.toNat

/-- An ASID's entry as a memory holds it; one beyond the HBM4 capacity is not valid (R218). Its reserved bits are not looked at (DESIGN CHOICE, log 81). -/
def State.asidIn (s : State) (m : List Host.Cell) (asid : BitVec 16) : AsidEntry :=
  let a := s.asidAt asid
  if a + 16 ≤ Config.hbmBytes then
    let e := leNat (memBytesFrom m a 8)
    { root := fld e 12 40 * 2 ^ 12, sworld := fld e 1 1 == 1, v := fld e 0 1 == 1, tt := fld (leNat (memBytesFrom m (a + 8) 8)) 7 50 * 2 ^ 7 }
  else { root := 0, sworld := false, v := false, tt := 0 }

def State.asidEntry (s : State) (asid : BitVec 16) : AsidEntry := s.asidIn s.mem asid

/-- The walk of an address under an ASID. An entry that is not valid has no table to walk: cause 6 (log 20). -/
def State.walk (s : State) (asid : BitVec 16) (va : Word) : Walk :=
  if wfld va 57 7 ≠ 0 then .fail 6 false
  else
    let a := s.asidEntry asid
    if a.v then s.walkFrom va.toNat 5 a.root else .fail 6 false

/-! ### Old entries (R224, R256): until an ASID's invalidate completes, each access may use an entry as it was or as it is -/

/-- A memory with changes taken back, one after the other. -/
def undone (m : List Host.Cell) : List (List Host.Cell) → List (List Host.Cell)
  | [] => []
  | p :: l => memPutCells m p :: undone (memPutCells m p) l

/-- The `n` bytes at `k` as memory has held them since an ASID's last invalidate completed, or since reset, before each change of them. -/
def State.oldMems (s : State) (asid : BitVec 16) (k n : Nat) : List (List Host.Cell) :=
  undone s.mem ((s.past.take (s.past.length - (assocGet s.tables asid).getD 0)).filter fun p => p.any fun c => k ≤ c.1 && c.1 < k + n)

/-- A reading of the `n` bytes at `k` as they are or as they have been: a free choice where those differ. -/
def State.anyTime {α : Type} [DecidableEq α] (s : State) (asid : BitVec 16) (k n : Nat) (f : List Host.Cell → α) : α × State :=
  let now := f s.mem
  let old := (dedup ((s.oldMems asid k n).map f)).filter (· ≠ now)
  let (j, s) := s.drawIndex (old.length + 1)
  (match j with | 0 => now | j + 1 => old.getD j now, s)

/-- The walk as an access may find it: at each level the table as it is, or as it has been. -/
def State.walkAnyFrom (s : State) (asid : BitVec 16) (va : Nat) : Nat → Nat → Walk × State
  | 0, _ => (.fail 6 false, s)
  | n + 1, table =>
    let (r, s) := s.anyTime asid table 4096 fun m => walkLevel m va n table
    match r with
    | .inl t => s.walkAnyFrom asid va n t
    | .inr w => (w, s)

def State.walkAny (s : State) (asid : BitVec 16) (va : Word) : Walk × State :=
  if wfld va 57 7 ≠ 0 then (.fail 6 false, s)
  else
    let (a, s) := s.anyTime asid (s.asidAt asid) 16 fun m => s.asidIn m asid
    if a.v then s.walkAnyFrom asid va.toNat 5 a.root else (.fail 6 false, s)

/-- Steps 3 and 4 of R220 at a leaf. -/
def State.permit (s : State) (secure : Bool) (k : Access) (l : Leaf) : Walk :=
  if (l.roc && l.w) || (k == .store && !l.w) || (k == .fetch && !l.x) || (!secure && s.secureAt l l.at_) then .fail 6 false
  else if keyLpddr l.at_ && !Config.isK4M then .fail 8 true
  else .ok l

/-- A leaf as its page's first 4 KiB block holds it. -/
def Leaf.page (l : Leaf) : Leaf := { l with at_ := l.at_ / 4096 * 4096 }

/-- The leaves that accesses of a world to a page have used since its ASID's last invalidate. -/
def State.cached (s : State) (asid : BitVec 16) (secure : Bool) (page : Nat) : List Leaf :=
  (s.tlb.filter fun e => e.1 == (asid, secure, page)).map Prod.snd

/-! ### The block-transfer aperture -/

/-- First address of the block-transfer aperture (R343). -/
def blockAperture : Nat := 0x1FFFFFFFFFFF000

/-- An effective address names the block-transfer aperture, which is recognised before translation. -/
def inBlockAperture (a : Word) : Bool := blockAperture ≤ a.toNat && a.toNat < blockAperture + 0x1000

/-- Translate one access (R220, R224): the aperture's page tables are never used (R343); elsewhere by the walk, or by a leaf
that the part has cached. Which core cached it is of no account, since each access of the package may use the old entry until the invalidate completes
(R256: the caches affect time only). -/
def State.translate (s : State) (asid : BitVec 16) (secure : Bool) (k : Access) (va : Word) : Walk × State :=
  if inBlockAperture va then (.fail 6 false, s)
  else
    let page := va.toNat / 4096
    let (now, s) := s.walkAny asid va
    let old := (s.cached asid secure page).map fun l => Walk.ok { l with at_ := l.at_ + va.toNat % 4096 }
    let all := now :: old.filter (· ≠ now)
    let (j, s) := s.drawIndex all.length
    match all.getD j now with
    | .fail c a => (.fail c a, s)
    | .ok l =>
      let e := ((asid, secure, page), l.page)
      (s.permit secure k l, if s.tlb.contains e then s else { s with tlb := e :: s.tlb })

/-- An ASID's invalidate has completed (R224, R399): only its entries as they are now are used from here on. -/
def State.dropTlb (s : State) (asid : BitVec 16) : State :=
  { s with tlb := s.tlb.filter (fun e => e.1.1 != asid), tables := assocSet s.tables asid s.past.length }

/-! ### Engine accesses: a byte's place, or the cause that R220 gives -/

/-- Translate each byte range of an engine record; the leaf of its first byte. -/
def State.place (s : State) (asid : BitVec 16) (secure : Bool) (store : Bool) (va : Nat) : Option Leaf × State :=
  match s.translate asid secure (if store then .store else .load) (BitVec.ofNat 64 va) with
  | (.ok l, s) => (some l, s)
  | (.fail _ _, s) => (none, s)

/-- Read `n` bytes of memory at a virtual address in 8-byte pieces, as records are read (R225); none where a translation fails
or a line is uncorrectable. -/
def State.readVa (s : State) (asid : BitVec 16) (secure : Bool) : Nat → Nat → Option (List Byte) × State
  | _, 0 => (some [], s)
  | va, n + 1 =>
    match s.place asid secure false va with
    | (none, s) => (none, s)
    | (some l, s) =>
      if s.lost.contains (lineOf l.at_) then (none, s)
      else
        let b := s.readVis l.at_ 8
        match s.readVa asid secure (va + 8) n with
        | (none, s) => (none, s)
        | (some r, s) => (some (b ++ r), s)

/-! ### Fetch (R48, R50) -/

/-- Outcome of a fetch: a word, or a cause. -/
inductive Fetched where
  | word (w : Word)
  | fail (cause : Nat) (absent : Bool)
deriving DecidableEq, Repr

/-- What the slices hold after a word is read from its line for a core (R244, R246). -/
def State.fetched (s : State) (c : CoreId) (l : Leaf) : State :=
  let p := homeOf l.cp l.at_
  let s := s.touch p l.hold (lineOf l.at_) false none
  if l.cp = 0 then s.copyFor p (lineOf l.at_) c none else s

/-- Fetch one 64-bit word. Until an instruction invalidate, a core may use the word it fetched there before (R50): a free choice
where the two differ. A word that it has not fetched since is read as memory has it (DESIGN CHOICE, log 15). An uncorrectable word is cause 9's counterpart for a fetch, which the spec does not name: cause 6 (log 21). -/
def State.fetch (s : State) (c : CoreId) (asid : BitVec 16) (secure : Bool) (va : Word) : Fetched × State :=
  match s.translate asid secure .fetch va with
  | (.fail cause a, s) => (.fail cause a, s)
  | (.ok l, s) =>
    if s.lost.contains (lineOf l.at_) then (.fail 6 false, s)
    else
      let now := BitVec.ofNat 64 (leNat (s.readVis l.at_ 8))
      let buf := (assocGet s.ibuf c).getD []
      match assocGet buf l.at_ with
      | some old =>
        if old = now then (.word now, s)
        else
          let (b, s) := s.drawBit
          if b then (.word old, s) else (.word now, { s.fetched c l with ibuf := assocSet s.ibuf c (assocSet buf l.at_ now) })
      | none => (.word now, { s.fetched c l with ibuf := assocSet s.ibuf c (assocSet buf l.at_ now) })

/-- Fetch the words of a clause in turn until one fails. -/
def State.fetchWords (s : State) (c : CoreId) (asid : BitVec 16) (secure : Bool) (va : Word) : Nat → List Word × State
  | 0 => ([], s)
  | n + 1 =>
    match s.fetch c asid secure va with
    | (.fail _ _, s) => ([], s)
    | (.word w, s) =>
      let (l, s) := s.fetchWords c asid secure (va + 8) n
      (w :: l, s)

end Sys2Proof.Machine
end

