-- ==== Sys2Proof/Machine/Observe.lean ====
section
/-! DEFINITION. Observation records (R312, R313), counter logic (R315 to R317), snapshots (R318), watch ranges (R320), trace (R322),
and records for the host (R401, R402). -/

namespace Sys2Proof.Machine

/-! ### Who a record names -/

/-- The program counter of a path as R215 defines it: a clause header, or the trapping word. -/
def Path.pcR (p : Path) : Word := p.pc

/-- The program counter of a lane of a stream, its handler's first; 0 for a lane of no path. -/
def Strand.pcOf (t : Strand) (lane : Nat) : Word :=
  (((t.paths ++ t.intr.elim [] fun i => i.path :: i.held).find? fun p => p.lanes.getLsbD lane).map Path.pcR).getD 0

/-- Global lane number of an observation record (R312): a Gaffer context's core field is its context number. -/
def Crew.gln (c : Crew) (sid : Sid) (lane : Nat) : Nat :=
  match sid with
  | .gaffer => glaneOf { die := c.die, cluster := c.cluster, core := (c.gaffer.map Strand.slot).getD 0 } 0 0
  | _ => c.glane sid lane

/-- A lane of a stream as a record names it. -/
def Crew.who (c : Crew) (sid : Sid) (lane : Nat) : Who :=
  { gln := c.gln sid lane, prod := (match sid with | .producer _ => true | _ => false), gaff := sid == .gaffer, secure := c.secure,
    pc := ((c.strand? sid).map fun t => t.pcOf lane).getD 0, task := c.taskRec, asid := c.asid, queue := c.queue }

/-- The lane that a record names as it stands now, or where it is on no path any more as it stood (R313, R320). -/
def State.whoNow (s : State) (crew : Nat) (sid : Sid) (lane : Nat) (w : Who) : Who :=
  match s.crew? crew, s.strand? crew sid with
  | some c, some t => if (t.paths ++ t.intr.elim [] fun i => i.path :: i.held).any fun p => p.lanes.getLsbD lane then c.who sid lane else w
  | _, _ => w

/-! ### The record rings of a die (R313). Read and write pointers count records (log 22). -/

/-- Write eight words of a record as a change of their line at its ordering point; a slice holds the line under the CMP of the last access (log 53). -/
def State.putRecordAt (s : State) (p : Point) (k : Nat) (ws : List Word) : State :=
  let cells := ((List.range ws.length).zip ws).map (fun q => ((List.range 8).zip (leBytes 8 q.2.toNat)).map fun r => ((k + 8 * q.1 + r.1, r.2) : Host.Cell))
  (s.apply p (some (s.lineState (lineOf k)).cmp) (lineOf k) cells.flatten none).2.2

/-- Write a record at a physical address. -/
def State.putRecord (s : State) (k : Nat) (ws : List Word) : State := s.putRecordAt (homeOf 0 k) k ws

/-- Where a byte of host memory stands in memory, by its bus address: bus addresses below 2^49 are those of the PCIe window (R404), and the others, which no
physical address names, stand past every tier. -/
def busKey (a : Nat) : Nat := if a < 2 ^ 49 then pcieKey + a else 2 ^ 64 + a

/-- Base, size in records, read and write pointers of a ring. -/
def Die.ring (d : Die) (sec : Bool) : Nat × Nat × Nat × Nat :=
  if sec then (d.strbase.toNat, d.strsize.toNat / 64, d.strread.toNat, d.strwrite.toNat)
  else (d.trbase.toNat, d.trsize.toNat / 64, d.trread.toNat, d.trwrite.toNat)

def Die.ringFull (d : Die) (sec : Bool) : Bool := let (_, n, r, w) := d.ring sec; n ≤ w - r

def Die.lostN (d : Die) (sec : Bool) : Nat := if sec then d.strlost else d.trlost

/-- One record into the ring, which has room. -/
def State.ringPut (s : State) (die : Nat) (sec : Bool) (ws : List Word) : State :=
  let (b, n, _, w) := (s.die die).ring sec
  let s := s.putRecord (b + 64 * (w % n)) ws
  s.modDie die fun d =>
    { (if sec then { d with strwrite := d.strwrite + 1 } else { d with trwrite := d.trwrite + 1 }) with sinceSync := d.sinceSync + 1 }

def State.setLost (s : State) (die : Nat) (sec : Bool) (n : Nat) : State :=
  s.modDie die fun d => if sec then { d with strlost := n } else { d with trlost := n }

/-- The words of a record (R313). -/
def recordWords (kind : Nat) (w : Who) (clk : Nat) (payload : List Word) : List Word :=
  [ BitVec.ofNat 64 (kind + b2n w.prod * 2 ^ 4 + b2n w.gaff * 2 ^ 5 + b2n w.secure * 2 ^ 6 + w.gln * 2 ^ 8),
    w.pc, BitVec.ofNat 64 clk ] ++ (payload ++ List.replicate 5 0).take 5

/-- Emit a record (R313): dropped and counted while the ring is full; when space returns a LOST record stands first. -/
def State.emitOne (s : State) (die kind : Nat) (w : Who) (payload : List Word) : State :=
  let sec := w.secure
  let d := s.die die
  let clk := d.clk
  if d.ringFull sec then s.setLost die sec (d.lostN sec + 1)
  else if d.lostN sec = 0 then s.ringPut die sec (recordWords kind w clk payload)
  else
    let s := (s.ringPut die sec (recordWords 8 w clk [BitVec.ofNat 64 (d.lostN sec)])).setLost die sec 0
    if (s.die die).ringFull sec then s.setLost die sec 1 else s.ringPut die sec (recordWords kind w clk payload)

/-! ### Observation registers (R317): 8-byte words of a die's observation aperture -/

def State.obsWord (s : State) (die off : Nat) : Word := (assocGet s.obs (die, off)).getD 0
def State.setObs (s : State) (die off : Nat) (v : Word) : State := { s with obs := assocSet s.obs (die, off) v }

def State.traced (s : State) (c : CoreId) : Bool := c.core < 4 && wbit (s.obsWord c.die (coreBlock c + 0xF00)) 0
def State.sampInt (s : State) (c : CoreId) : Nat := wfld (s.obsWord c.die (coreBlock c + 0xF08)) 0 4

/-- A stream is traced: its core is, or for a Gaffer context a core of its crew is. -/
def State.tracedStream (s : State) (c : Crew) (sid : Sid) : Bool :=
  match sid with
  | .gaffer => c.teams.any fun t => s.traced (c.teamCore t.rank)
  | _ => s.traced (c.coreOf sid)

/-- The PATH records of a die's traced streams that pass a test: the lane each names and the mask. -/
def State.pathRecords (s : State) (die : Nat) (p : Crew → Sid → Bool) : List (Who × Word) :=
  ((s.crews.filter fun c => c.die == die).map fun c => ((c.sids.filter (p c)).map fun sid =>
    match c.strand? sid with
    | some t => (t.paths ++ (match t.intr with | some i => i.path :: i.held | none => [])).map fun q =>
        ({ c.who sid (lowLane q.lanes) with pc := q.pcR }, BitVec.ofNat 64 q.lanes.toNat)
    | none => []).flatten).flatten

/-- The SYNC record of a world's ring and one PATH record for each of its paths (R313, R322). -/
def State.emitSyncTo (s : State) (die : Nat) (secure : Bool) (rs : List (Who × Word)) : State :=
  let who : Who := match rs with
    | r :: _ => r.1
    | [] => { gln := die * 2 ^ 18, prod := false, gaff := false, secure := secure, pc := 0, task := 0, asid := 0, queue := 0 }
  let s := s.emitOne die 1 who [BitVec.ofNat 64 s.sseq, BitVec.ofNat 64 rs.length]
  rs.foldl (fun s r => s.emitOne die 2 r.1 [r.2]) s

/-- A SYNC record and one PATH record for each path (R322), in each ring that has a path to name; with none at all, a SYNC in the non-secure ring. -/
def State.emitSync (s : State) (die : Nat) (p : Crew → Sid → Bool) : State :=
  let rs := s.pathRecords die p
  let (sec, open_) := rs.partition fun r => r.1.secure
  let s := s.modDie die fun d => { d with sinceSync := 0 }
  let s := if open_.isEmpty && !sec.isEmpty then s else s.emitSyncTo die false open_
  if sec.isEmpty then s else s.emitSyncTo die true sec

/-- TRCTL is on for some core of a die (R322). -/
def State.tracing (s : State) (die : Nat) : Bool :=
  (List.range (Config.clusters * Config.coresPerCluster)).any fun i =>
    s.traced { die := die, cluster := i / Config.coresPerCluster, core := i % Config.coresPerCluster }

/-- Emit a record, and after every 4096 records a fresh SYNC and PATH set while path trace is on for a core of the die (R322). -/
def State.emit (s : State) (die kind : Nat) (w : Who) (payload : List Word) : State :=
  let s := s.emitOne die kind w payload
  if (s.die die).sinceSync < 4096 then s
  else if s.tracing die then s.emitSync die s.tracedStream
  else s.modDie die fun d => { d with sinceSync := 0 }

/-! ### Memory counters as they read (R254, R342) -/

/-- The gauges of a slice's block. -/
def State.gauge (s : State) (p : Point) (off : Nat) : Option Nat :=
  match off with
  | 0 => some (s.heldAt p).length
  | 8 => some ((s.heldAt p).map Held.sectors).sum
  | 0x38 => match p with
    | .mslice d m => some (s.pins.filter fun q => q.away && homeOf 1 (lineBase q.line) == .mslice d m).length
    | _ => none
  | _ => none

/-- The block that an offset of the memory-counter aperture lies in, with the offset within it. -/
def counterBlock (die off : Nat) : Option Point × Nat :=
  if 0x1000 ≤ off ∧ off < 0x1000 + 64 * Config.coreSlices then (some (.slice die ((off - 0x1000) / 64)), (off - 0x1000) % 64)
  else if 0x2000 ≤ off ∧ off < 0x2000 + 64 * Config.memSlices then (some (.mslice die ((off - 0x2000) / 64)), (off - 0x2000) % 64)
  else (none, 0)

/-- An offset of the aperture that a register of R254 or R342 assigns and a write of zero clears. -/
def counterAssigned (off : Nat) : Bool :=
  (0x1000 ≤ off && off < 0x1000 + 64 * 48 && off % 64 ≥ 0x10)
    || (0x2000 ≤ off && off < 0x2000 + 64 * 64 && off % 64 ≥ 0x10 && off % 64 ≠ 0x28 && off % 64 ≠ 0x30 && off % 64 ≠ 0x38)
    || (0x4000 ≤ off && off < 0x4000 + 64 * 168 && off % 64 < 0x28)
    || (0x8000 ≤ off && off < 0x8000 + 8 * 200 && ((off - 0x8000) / 8 < 42 || (64 ≤ (off - 0x8000) / 8 && (off - 0x8000) / 8 < 112)
          || 128 ≤ (off - 0x8000) / 8))

/-- An 8-byte read of the memory-counter aperture. -/
def State.counterRead (s : State) (die off : Nat) : Word :=
  let v := (assocGet s.counters (die, off)).getD 0
  match counterBlock die off with
  | (some p, o) => match s.gauge p o with
    | some n => BitVec.ofNat 64 n
    | none => v
  | (none, _) => v

/-- A write of zero clears a counter; any other value, a gauge, and an offset that nothing assigns are ignored (R254). -/
def State.counterWrite (s : State) (die off : Nat) (v : Word) : State :=
  if v = 0 && off % 8 = 0 && counterAssigned off then { s with counters := assocSet s.counters (die, off) 0 } else s

/-! ### Snapshots (R318) -/

/-- A memory counter's shadow (R318): the spec gives it no address (log 23). -/
def State.setShadow (s : State) (die off : Nat) (v : Word) : State := { s with shadows := assocSet s.shadows (die, off) v }

/-- Every block of a die copies OUT, BIN and the counters of R254 into their shadows. -/
def State.latch (s : State) (die : Nat) : State :=
  let outs := s.obs.filter fun e => e.1.1 == die && 0x100 ≤ e.1.2 % 0x1000 && e.1.2 % 0x1000 < 0x400
  let s := outs.foldl (fun s e => s.setObs die (e.1.2 + 0x800) e.2) s
  let blocks : List (Nat × Point) := (s.held.filterMap fun h => match h.1 with
    | .slice d k => if d = die then some (0x1000 + 64 * k, h.1) else none
    | .mslice d m => if d = die then some (0x2000 + 64 * m, h.1) else none
    | _ => none)
  let s := blocks.foldl (fun s b => [0, 8, 0x38].foldl (fun s o => match s.gauge b.2 o with
    | some n => s.setShadow die (b.1 + o) (BitVec.ofNat 64 n)
    | none => s) s) s
  (s.counters.filter fun e => e.1.1 == die).foldl (fun s e => s.setShadow die e.1.2 e.2) s

/-- A die latches and emits its SNAPSHOT record. -/
def State.snapshotAt (s : State) (die seq : Nat) (tag : BitVec 32) (w : Who) : State :=
  (s.latch die).emit die 5 w [BitVec.ofNat 64 seq, BitVec.ofNat 64 tag.toNat]

/-- A trigger arises on a die (R318): SSEQ rises, that die latches, and messages go to the others. Where an earlier trigger is still on its way to the die,
its own waits behind it, since each die applies triggers in SSEQ order. -/
def State.trigger (s : State) (die : Nat) (tag : BitVec 32) (w : Who) : State :=
  let seq := s.sseq + 1
  let wait := s.snaps.any fun x => x.die == die
  let s := { s with sseq := seq,
                    snaps := s.snaps ++ ((List.range Config.dies).filter fun d => wait || d ≠ die).map fun d => (⟨d, seq, tag, w⟩ : Snap) }
  if wait then s else s.snapshotAt die seq tag w

/-! ### Watch ranges (R320). Word 0 holds the base in [51:0] and the mode in [62:60]: [60] reads, [61] writes, [62] snapshot.
Word 1 holds the inclusive limit in [51:0] (log 24). -/

/-- The first watched address of bytes of a tier under one range. -/
def watchHit (w : Word × Word) (wr : Bool) (q : Nat × Nat) : Option Nat :=
  if wbit w.1 (if wr then 61 else 60) && wfld w.1 0 52 < q.1 + q.2 && q.1 ≤ wfld w.2 0 52 then some (max q.1 (wfld w.1 0 52)) else none

/-- The ranges of a die that bytes of a tier meet, each with its lowest watched address and whether it asks for a snapshot. -/
def State.watched (s : State) (die : Nat) (wr : Bool) (parts : List (Nat × Nat)) : List (Nat × Bool) :=
  (s.die die).watch.filterMap fun w => (minBy id (parts.filterMap (watchHit w wr))).map fun a => (a, wbit w.1 62)

/-- What a WATCH record says of the access beside its address (R320). -/
structure WatchSrc where
  src     : Nat
  chan    : Nat
  tmpl    : Nat
  retired : Bool
deriving DecidableEq, Repr

/-- The die whose home slice checks a line. -/
def Point.dieOf : Point → Option Nat
  | .slice d _ => some d
  | .mslice d _ => some d
  | .lpddr d => some d
  | _ => none

/-- Check one Read or Change of bytes (first byte and count of each part) at a home: every range that they meet is a match, with its record and its snapshot.
The first matched address, and the state. -/
def State.watch (s : State) (p : Point) (parts : List (Nat × Nat)) (wr : Bool) (w : Who) (src : WatchSrc) (tag : BitVec 32) : Option Word × State :=
  match p.dieOf with
  | none => (none, s)
  | some die =>
    let hits := s.watched die wr (parts.map fun q => (keyPa q.1, q.2))
    let put (s : State) (h : Nat × Bool) : State :=
      let s := s.emit die 6 w [BitVec.ofNat 64 h.1,
        BitVec.ofNat 64 (src.src + src.chan * 2 ^ 4 + src.tmpl * 2 ^ 8 + b2n src.retired * 2 ^ 20), w.task,
        BitVec.ofNat 64 (if wr then tag.toNat else 0)]
      if h.2 then s.trigger die 0 w else s
    ((hits.head?).map fun h => BitVec.ofNat 64 h.1, hits.foldl put s)

/-! ### Counter logic (R315, R316) -/

/-- Outputs of the cells below, the value of each signal, and one cell: whether `a` and `b` hold, and the value of SIGA. -/
def cellInput (sig : Nat → Nat) (outs : List Bool) (i n : Nat) : Nat :=
  if n < 240 then min (sig n) 255 else if n - 240 < i then b2n (outs.getD (n - 240) false) else 0

/-- One cell on one clock (R316): its output, its new run length, and the state with OUT or BIN raised. -/
def State.cellClock (s : State) (die block i : Nat) (sig : Nat → Nat) (outs : List Bool) : Bool × State :=
  let c := s.obsWord die (block + 8 * i)
  let mode := wfld c 0 3
  let va := cellInput sig outs i (wfld c 16 8)
  let a := (va ≠ 0) != wbit c 32
  let b := (cellInput sig outs i (wfld c 24 8) ≠ 0) != wbit c 33
  let run := (assocGet s.runs (die, block + 8 * i)).getD 0
  let bump (s : State) : State := s.setObs die (block + 0x100 + 8 * i) (s.obsWord die (block + 0x100 + 8 * i) + 1)
  let setRun (s : State) (n : Nat) : State := { s with runs := assocSet s.runs (die, block + 8 * i) n }
  let s' := setRun s (if a then run + 1 else 0)
  match mode with
  | 1 => if a && b then (true, bump s') else (false, s')
  | 2 => if a && run = 0 then (true, bump s') else (false, s')
  | 3 => if va ≥ wfld c 48 16 then (true, bump s') else (false, s')
  | 4 =>
    if !a && run ≠ 0 then
      let bins := s.obsWord die (block + 0x80 + 8 * i)
      let k := ((List.range 7).find? fun k => run ≤ wfld bins (9 * k) 9 * 2 ^ wfld c 48 4).getD 7
      let off := block + 0x200 + 32 * i + 4 * k
      let w := s.obsWord die (off / 8 * 8)
      (true, s'.setObs die (off / 8 * 8) (wput w (8 * (off % 8)) 32 (wfld w (8 * (off % 8)) 32 + 1)))
    else (false, s')
  | _ => (false, s)

/-- The 16 cells of a block on one clock, in order. -/
def State.cellsClock (s : State) (die block : Nat) (sig : Nat → Nat) : Nat → List Bool → State
  | 0, _ => s
  | n + 1, outs =>
    let (o, s) := s.cellClock die block (16 - (n + 1)) sig outs
    s.cellsClock die block sig n (outs ++ [o])

/-- Blocks of a die with a cell that is not off. -/
def State.activeBlocks (s : State) (die : Nat) : List Nat :=
  dedup ((s.obs.filter fun e => e.1.1 == die && e.1.2 % 0x1000 < 0x80 && 1 ≤ wfld e.2 0 3 && wfld e.2 0 3 ≤ 4).map fun e => e.1.2 / 0x1000 * 0x1000)

/-- `n` clocks of a die's counter logic: the signals raised since the last clock stand on the first of them (log 16). -/
def State.cellClocks (s : State) (die : Nat) : Nat → State
  | 0 => s
  | n + 1 =>
    let s := (s.activeBlocks die).foldl (fun s b => s.cellsClock die b (fun g => (assocGet s.signals (die, b, g)).getD 0) 16 []) s
    ({ s with signals := s.signals.filter fun e => e.1.1 != die }).cellClocks die n

/-- A die's clock advances (R310). -/
def State.tick (s : State) (die n : Nat) : State :=
  let s := if (s.activeBlocks die).isEmpty then (if n = 0 then s else { s with signals := s.signals.filter fun e => e.1.1 != die })
    else s.cellClocks die n
  s.modDie die fun d => { d with clk := d.clk + n }

/-! ### Records for the host (R401, R402) -/

def State.ringN (s : State) (i : Nat) : Ring := s.rings.getD i Ring.reset
def State.modRing (s : State) (i : Nat) (f : Ring → Ring) : State := { s with rings := listMod s.rings i f }

/-- Index of the ring for a record: non-secure fault, non-secure event, secure fault, secure event. -/
def ringIndex (secure fault : Bool) : Nat := b2n (!fault) + 2 * b2n secure

/-- A ring takes a record: it is enabled, it is not full (RTAIL - RHEAD is not 2^n), and a link is up. -/
def State.ringTakes (s : State) (i : Nat) : Bool :=
  let r := s.ringN i
  r.rctl.getLsbD 0 && (r.rtail - r.rhead).toNat ≠ 2 ^ r.rlog2.toNat && s.links.any Link.up

/-- Write a record into a ring that takes it, advance RTAIL, send the MSI-X message. -/
def State.writeRecord (s : State) (i : Nat) (ws : List Word) : State :=
  let r := s.ringN i
  let s := s.putRecordAt .pcie (busKey ((r.rbase.toNat + 64 * (r.rtail.toNat % 2 ^ r.rlog2.toNat)) % 2 ^ 64)) ws
  let s := s.modRing i fun r => { r with rtail := r.rtail + 1 }
  { s with msix := s.msix ++ [(r.rctl.toNat / 2) % 2 ^ 12] }

/-- Post an event record: dropped and counted while the ring is full or disabled. -/
def State.postEvent (s : State) (secure : Bool) (ws : List Word) : State :=
  let i := ringIndex secure false
  if s.ringTakes i then s.writeRecord i ws else s.modRing i fun r => { r with lostev := r.lostev + 1 }

/-- Fields of a host record beside its kind (R401). -/
structure RecInfo where
  cause  : Nat := 0
  slot   : Nat := 0
  nosave : Bool := false
  access : Nat := 0
  absent : Bool := false
  addr   : Word := 0
  pc     : Word := 0
  aux    : Word := 0
deriving DecidableEq, Repr

/-- The eight words of a host record. -/
def hostWords (kind : Nat) (w : Who) (clk : Nat) (r : RecInfo) : List Word :=
  [ BitVec.ofNat 64 (kind + r.cause % 16 * 2 ^ 8 + w.queue % 4096 * 2 ^ 12 + r.slot % 65536 * 2 ^ 24 + b2n r.nosave * 2 ^ 40
      + r.access % 8 * 2 ^ 41 + b2n r.absent * 2 ^ 44),
    r.addr, BitVec.ofNat 64 (w.asid.toNat + w.gln % 2 ^ 20 * 2 ^ 16), w.task, r.pc, r.aux, BitVec.ofNat 64 clk, 0 ]

/-- Post an event about a stream. -/
def State.event (s : State) (kind die : Nat) (w : Who) (r : RecInfo) : State :=
  s.postEvent w.secure (hostWords kind w (s.clk die) r)

/-- A page-not-present record waits for its ring (R401); FAULT_RECORD_POST writes it. -/
def State.holdFault (s : State) (die : Nat) (w : Who) (r : RecInfo) : State :=
  { s with posts := s.posts ++ [{ secure := w.secure, fault := true, w := hostWords 1 w (s.clk die) r, queue := w.queue, slot := r.slot }] }

end Sys2Proof.Machine
end

