-- ==== Sys2Proof/Machine/Log.lean ====
section
/-! DEFINITION. What an entry of the operand log names, and what younger words wait for: sizes of accesses (R260), scratchpad addresses (R266),
what a handler sees (R282), and the release rule (R289). -/

namespace Sys2Proof.Machine

/-! ### Streams and their entries -/

def Strand.inH (t : Strand) : Bool := t.intr.isSome

/-- An entry is one that a stream sees as its own: in a handler, one that the handler issued. -/
def Strand.own (t : Strand) (id : Nat) : Bool :=
  match t.intr with
  | some i => i.first ≤ id
  | none => true

def Entry.undone (e : Entry) : Lanes := e.lanes &&& ~~~e.done

/-- Lanes that have recorded a cause. -/
def Entry.faultLanes (e : Entry) : Lanes := lanesFrom (e.faults.map LaneFault.lane)

/-- An entry sees an older one in issue order (R286): one of a handler does not wait for accesses of the path that it interrupted which are still to be
sent (DEDUCED, log 48). -/
def Strand.sees (t : Strand) (e o : Entry) : Bool := !t.own e.id || t.own o.id

/-! ### Sizes (R260) -/

/-- Size of a mode of `LD` and `ST`; an ordered access has its natural size. -/
def MemSize : MemMode → Size
  | .sized z => z
  | .ordered _ => .nat

/-- Bytes of an access. -/
def sizeBytes (t : Ty) : Size → Nat
  | .nat => if t == .f16 || t == .bf16 then 2 else if t.is64 then 8 else 4
  | .b8 => 1
  | .b16 => 2
  | .x2 => if t.is64 then 16 else 8
  | .x4 => 16

/-- Registers of its group. -/
def sizeRegs (t : Ty) : Size → Nat
  | .x2 => if t.is64 then 4 else 2
  | .x4 => 4
  | _ => if t.is64 then 2 else 1

/-! ### What a word asks of memory -/

/-- Kind of the messages that a word's lanes send. -/
def memKind : Instr → Option MsgKind
  | .ld .. | .lds .. | .sld .. => some .load
  | .st .. | .sts .. => some .store
  | .pin .. => some .pin
  | .atom .. => some .atom
  | .acas .. => some .acas
  | .gsadd .. => some .gsadd
  | .gsflush .. => some .flush
  | .gsflushAll .. => some .flushAll
  | .cctlEvict .. => some .evict
  | .cctlFlush .. => some .clean
  | _ => none

/-- The word reaches scratchpad and not memory. -/
def isPadWord : Instr → Bool
  | .lds .. | .sts .. => true
  | _ => false

/-- Bytes that each lane of a word names; a pin or a cache operation names a line by any of its bytes. -/
def accessBytes : Instr → Nat
  | .ld _ t m .. => sizeBytes t (MemSize m)
  | .st _ t m .. => sizeBytes t (MemSize m)
  | .lds _ t z .. | .sts _ t z .. | .ldrs _ t z .. | .strs _ t z .. => sizeBytes t z
  | .sld _ t z .. => sizeBytes t (match z with | .nat => .nat | .b8 => .b8 | .b16 => .b16)
  | .atom _ t .. | .acas _ t .. => if t.is64 then 8 else 4
  | .gsadd .. => 4
  | _ => 1

/-- Scope of an acquire load (R289). -/
def acqScope : Instr → Option Scope
  | .ld _ _ (.ordered sc) .. => some sc
  | _ => none

/-- Scope of a release store. -/
def relScope : Instr → Option Scope
  | .st _ _ (.ordered sc) .. => some sc
  | _ => none

/-- A scope of `cr` or wider, whose acquire invalidates L1 (R289). -/
def scopeInv : Scope → Bool
  | .th | .tm => false
  | _ => true

/-- The instruction that an entry or message stands for. -/
def wordOf (w : Word) : Instr := (decode w).getD (.nop ⟨15, false, 0⟩)

/-- A lane's sources as logged, and its effective address. -/
def Entry.srcOf (e : Entry) (l : Nat) : List Word := e.src.getD l []
def Entry.ea (e : Entry) (l : Nat) : Word := (e.srcOf l).headD 0

/-- A rendering word that reads memory (R382). -/
def isRender : Instr → Bool
  | .raygen .. | .trace .. | .traceAdjTri .. | .traceAdjPatch .. | .tsamp .. | .tsampAdj .. => true
  | _ => false

/-- The address by which a logged word names a line (R206): a rendering word's is that of its block, root, primitive or descriptor. -/
def lineAddr (i : Instr) (src : List Word) : Word :=
  match i with
  | .trace .. => src.getD 4 0
  | .traceAdjTri .. | .traceAdjPatch .. => src.getD 3 0
  | _ => src.headD 0

/-- A scratchpad address (R266): the rank and the offset, or none for cause 6. -/
def Crew.padTarget (c : Crew) (rank : Nat) (inH : Bool) (ea : Word) (size : Nat) : Option (Nat × Nat) :=
  let xt := wbit ea 23
  let r := if xt then wfld ea 20 2 else rank
  let o := wfld ea 0 20
  if wfld ea 24 40 ≠ 0 || wbit ea 22 || c.teams.length ≤ r || c.padS + 2048 ≤ o + size - 1 then none
  else if c.padS ≤ o && (xt || !inH) then none
  else some (r, o)

/-- An older scratchpad access of one of the lanes may still change or read these bytes of a team (R267). -/
def Crew.padPending (c : Crew) (t : Strand) (lanes : Lanes) (r off n : Nat) : Bool :=
  t.log.any fun e => isPadWord (wordOf e.word) && (lanesOf (e.undone &&& lanes)).any fun l =>
    match c.padTarget ((sidTeam? t.sid).getD 0) e.inH (e.ea l) (accessBytes (wordOf e.word)) with
    | some (r', o) => r' == r && o < off + n && off < o + accessBytes (wordOf e.word)
    | none => false

/-! ### Releases (R289) -/

/-- A `TSTB` (R188). -/
def isTstb : Instr → Bool
  | .tstbEnt .. | .tstbFull .. => true
  | _ => false

/-- An incomplete older entry names, in a lane, the line of an address (R206). A `TSTB` counts as the `ST` that it behaves as (R188). -/
def Strand.lineOpen (t : Strand) (before : Option Nat) (l : Nat) (a : Word) : Bool :=
  t.log.any fun e =>
    e.undone.getLsbD l && (isTstb (wordOf e.word)
        || (e.logged && (before.all (e.id < ·)) && ((memKind (wordOf e.word)).isSome || isRender (wordOf e.word)) && !isPadWord (wordOf e.word)))
      && (lineAddr (wordOf e.word) (e.srcOf l)).toNat / 128 == a.toNat / 128

/-- A lane of an entry completes only once the stream's handler has returned: it has recorded a cause, or stands unsent behind an access that has. -/
def Strand.stuckIn (t : Strand) (o : Entry) (l : Nat) : Bool :=
  o.faultLanes.getLsbD l || (!o.sent.getLsbD l && t.log.any fun x => x.id < o.id && x.undone.getLsbD l && x.faultLanes.getLsbD l)

/-- An acquire load that has not completed in a lane holds back its younger accesses (R289), a handler's too (`inH`), unless it is one of the interrupted
path that completes only after the handler (DEDUCED, log 48). -/
def Strand.acqHolds (t : Strand) (inH : Bool) (o : Entry) (l : Nat) : Bool :=
  (acqScope (wordOf o.word)).isSome && o.undone.getLsbD l && !(inH && !t.own o.id && t.stuckIn o l)

/-- An acquire load of one of the lanes, issued before what is numbered `before`, has not completed. -/
def Strand.acquireOpen (t : Strand) (inH : Bool) (before : Option Nat) (lanes : Lanes) : Bool :=
  t.log.any fun e => before.all (e.id < ·) && (lanesOf lanes).any (t.acqHolds inH e)

/-- A lane of an entry has made what issue order asks of it: its access is sent, or all reads of a rendering word are made; or it has recorded a cause (R286, R382). -/
def Entry.ordered (o : Entry) (l : Nat) : Bool :=
  ((memKind (wordOf o.word)).isNone && !isRender (wordOf o.word)) || o.sent.getLsbD l || o.faultLanes.getLsbD l

/-- A lane's access is the next of its thread: no older one is still to be sent, and no older acquire holds it back (R286, R289). -/
def Strand.nextOf (t : Strand) (e : Entry) (l : Nat) : Bool :=
  t.log.all fun o => o.id ≥ e.id || !o.undone.getLsbD l || (!t.acqHolds (t.inH && t.own e.id) o l && (!t.sees e o || o.ordered l))

/-- Older accesses of a context hold back an access that a tile instruction makes at an address as an `LD` or `ST` of the context (R188, R191). -/
def Strand.holdsBack (t : Strand) (inH : Bool) (before : Option Nat) (a : Word) : Bool := t.lineOpen before 0 a || t.acquireOpen inH before 1

/-- Words whose unlogged writes a release at `tm` or wider waits for. -/
def isFlushWord : Instr → Bool
  | .gsflush .. | .gsflushAll .. | .cctlFlush .. | .cctlEvict .. => true
  | _ => false

/-- A `TSTB` of the crew's Gaffer context, accepted before what is numbered `before`, has not been acknowledged; a handler's `FENCE` sees its own. -/
def Crew.tstbOpen (c : Crew) (inH : Bool) (before : Option Nat) : Bool :=
  (c.teams.any fun t => t.ops.any fun o => isTstb (wordOf o.word) && (!inH || o.inH) && before.all (o.id < ·))
    || (c.gaffer.map fun g => g.log.any fun e => isTstb (wordOf e.word) && (!inH || g.own e.id) && before.all (e.id < ·)).getD false

/-- A release at a scope by lanes of a stream has what it waits for (R289); `before` bounds the entries that are older. With `own`, the release
of a handler's `FENCE`, it sees the handler's own entries alone (R282). -/
def State.released (s : State) (c : Crew) (t : Strand) (own : Bool) (lanes : Lanes) (before : Option Nat) (sc : Scope) : Bool :=
  let sees (id : Nat) : Bool := (match before with
    | some b => id < b
    | none => true) && (!own || t.own id)
  t.log.all (fun e => !sees e.id || e.undone &&& lanes = 0 || !(e.logged || (sc != .th && isFlushWord (wordOf e.word))))
    && (sc == .th || t.sid != .gaffer || !c.tstbOpen own before)
    && (sc != .sys || s.msgs.all fun m => !(m.sys && m.crew == c.id && m.sid == t.sid && sees m.entry && m.acts.any fun x => lanes.getLsbD x.lane))

end Sys2Proof.Machine
end

