-- ==== Sys2Proof/Machine/Ops.lean ====
section
/-! DEFINITION. The operations that the meanings share: barriers, the operand log and the counters, crews that end or are saved,
taking a trap (R195 to R203) and returning from one (R205), and issuing one word (R49, R55, R59). -/

namespace Sys2Proof.Machine

/-! ### Streams -/

/-- Predicates of a lane: p0 to p14, and p15, which reads 1 (R56, R99). A producer's stand in its scratchpad (R357). -/
def predBits (c : Crew) (sid : Sid) (t : Strand) (lane : Nat) : BitVec 16 :=
  let p : BitVec 15 := match sid with
    | .producer r => (c.teams[r]?.map fun tm => BitVec.ofNat 15 (tm.padNat (c.padS - 1280 + 0x4F8) 2)).getD 0
    | _ => (t.thread lane).pred
  (1#1 ++ p : BitVec 16)

/-- Predicate p0 to p14 written; a write to p15 is discarded (R56). -/
def State.setPred (s : State) (crew : Nat) (sid : Sid) (lane k : Nat) (v : Bool) : State :=
  if k ≥ 15 then s
  else
    let put (p : BitVec 15) : BitVec 15 := if v then p ||| (1#15 <<< k) else p &&& ~~~(1#15 <<< k)
    match sid with
    | .producer r => match s.crew? crew with
      | some c => s.modTeam crew r fun tm =>
          let a := c.padS - 1280 + 0x4F8
          tm.setPadNat a 2 (put (BitVec.ofNat 15 (tm.padNat a 2))).toNat
      | none => s
    | _ => s.modThread crew sid lane fun h => { h with pred := put h.pred }

/-! ### Outstanding-operation counters (R297 to R299) -/

def Counts.none : Counts := ⟨0, 0, 0, 0⟩

/-- The counters that an entry of a word holds raised (R258, R298, R359, R360). -/
def countsOf : Instr → Counts
  | .ld .. | .lds .. | .pin .. | .sld .. => ⟨1, 0, 0, 0⟩
  | .st _ _ _ tag .. => ⟨b2n tag, 1, 0, 0⟩
  | .sts .. | .gsadd .. | .gsflush .. | .gsflushAll .. | .cctlEvict .. | .cctlFlush .. | .traceAdjTri .. | .traceAdjPatch .. | .tsampAdj ..
  | .qpush .. => ⟨0, 1, 0, 0⟩
  | .atom .. | .acas .. => ⟨1, 1, 0, 0⟩
  | .raygen .. | .trace .. | .tsamp .. | .esamp .. => ⟨0, 0, 0, 1⟩
  | _ => .none

def Strand.raise (t : Strand) (k : Counts) : Strand := { t with ld := t.ld + k.ld, st := t.st + k.st, cp := t.cp + k.cp, tl := t.tl + k.tl }

def Strand.lower (t : Strand) (k : Counts) : Strand := { t with ld := t.ld - k.ld, st := t.st - k.st, cp := t.cp - k.cp, tl := t.tl - k.tl }

/-- No counter that the word would raise stands at 15 (R299). -/
def Strand.canRaise (t : Strand) (k : Counts) : Bool := t.ld + k.ld ≤ 15 && t.st + k.st ≤ 15 && t.cp + k.cp ≤ 15 && t.tl + k.tl ≤ 15

/-- Every counter is at or below its ceiling; 15 places no limit (R45). -/
def Strand.under (t : Strand) (ld st cp tl : Nat) : Bool := t.ld ≤ ld && t.st ≤ st && t.cp ≤ cp && t.tl ≤ tl

/-! ### The operand log (R206, R207) -/

/-- Log entries that a word takes: two where its sources pass 32 bytes a lane (R382). The model keeps them as one `Entry`. -/
def entryRecords (word : Word) : Nat :=
  match decode word with
  | some (.trace ..) | some (.traceAdjTri ..) | some (.traceAdjPatch ..) | some (.tsampAdj ..) => 2
  | _ => 1

/-- Entries that are logged and not complete. -/
def Strand.logn (t : Strand) : Nat := ((t.log.filter Entry.logged).map fun e => entryRecords e.word).sum

def Strand.modEntry (t : Strand) (id : Nat) (f : Entry → Entry) : Strand := { t with log := mapIf (fun e => e.id == id) f t.log }

def State.modEntry (s : State) (crew : Nat) (sid : Sid) (id : Nat) (f : Entry → Entry) : State := s.modStrand crew sid fun t => t.modEntry id f

def State.entry? (s : State) (crew : Nat) (sid : Sid) (id : Nat) : Option Entry :=
  (s.strand? crew sid).bind fun t => t.log.find? fun e => e.id == id

/-- A SAMPLE record (R314): the queue times and the replays are free values. -/
def State.putSample (s : State) (c : Crew) (x : Sample) : State :=
  let (r, s) := s.drawWord
  let (q1, s) := s.drawWord
  let (q2, s) := s.drawWord
  s.emit c.die 4 { c.who x.sid (lowLane x.lanes) with pc := x.pc } [ BitVec.ofNat 64 (x.lanes.toNat + x.sectors % 65536 * 2 ^ 32 + wfld r 0 16 * 2 ^ 48), q1, q2,
    BitVec.ofNat 64 (x.last % 32 + b2n x.spec * 2 ^ 5 + b2n x.fault * 2 ^ 6 + x.op * 2 ^ 8), x.ea ]

/-- The sample of an entry changed. -/
def State.modSample (s : State) (crew : Nat) (sid : Sid) (entry : Nat) (f : Sample → Sample) : State :=
  { s with samples := mapIf (fun x => x.crew == crew && x.sid == sid && x.entry == entry) f s.samples }

/-- A lane of an entry's word is the last whose data has returned so far (R314). -/
def State.lastLane (s : State) (crew : Nat) (sid : Sid) (e : Entry) (l : Nat) : State :=
  s.modSample crew sid e.id fun y => { y with last := l, ea := lineAddr (wordOf e.word) (e.srcOf l) }

/-- Words of entries that have recorded a cause issue again after the fault (R314, R207). -/
def State.reissued (s : State) (crew : Nat) (sid : Sid) (es : List Entry) : State :=
  es.foldl (fun s e => if e.faults.isEmpty then s else s.modSample crew sid e.id fun x => { x with fault := true }) s

/-- A sampled word completes. -/
def State.emitSample (s : State) (crew : Nat) (sid : Sid) (id : Nat) : State :=
  match s.samples.find? (fun x => x.crew == crew && x.sid == sid && x.entry == id), s.crew? crew with
  | some x, some c =>
    let s := s.putSample c x
    { s with samples := s.samples.filter fun y => !(y.crew == crew && y.sid == sid && y.entry == id) }
  | _, _ => s

/-- An entry whose every lane is complete leaves the log, and its counters are lowered (R298). -/
def State.retire (s : State) (crew : Nat) (sid : Sid) (id : Nat) : State :=
  match s.entry? crew sid id with
  | some e =>
    if e.undone = 0 then
      let s := s.emitSample crew sid id
      s.modStrand crew sid fun t => { t.lower e.cnt with log := t.log.filter fun x => x.id != id }
    else s
  | none => s

/-- Lanes of an entry complete. -/
def State.complete (s : State) (crew : Nat) (sid : Sid) (id : Nat) (ls : Lanes) : State :=
  (s.modEntry crew sid id fun e => { e with done := e.done ||| ls }).retire crew sid id

/-- Entries with a recorded cause in some of these lanes, oldest first. A handler meets the causes of its own entries alone. -/
def Strand.faultyIn (t : Strand) (lanes : Lanes) : List Entry :=
  t.log.filter fun e => t.own e.id && e.faults.any fun f => lanes.getLsbD f.lane

/-- Kind 3 of R205: the log re-issues. In the entry that the trap reported, lanes outside `mask` count as complete (R198); every other lane whose bit is
clear is sent again where it had faulted (R207). -/
def State.relog (s : State) (crew : Nat) (sid : Sid) (mask : Lanes) : State :=
  match s.strand? crew sid with
  | none => s
  | some t =>
    let es := t.log.filter fun e => !t.own e.id
    let s := match (t.intr.bind Intr.entry).bind fun k => es.find? fun e => e.id == k with
      | some e => s.modEntry crew sid e.id fun e => { e with done := e.done ||| (e.undone &&& ~~~mask) }
      | none => s
    let s := s.modStrand crew sid fun t =>
      { t with log := mapIf (fun e => !t.own e.id) (fun e => { e with sent := e.sent &&& ~~~e.faultLanes, faults := [] }) t.log }
    es.foldl (fun s e => s.retire crew sid e.id) (s.reissued crew sid es)

/-! ### Barriers (R303 to R305) -/

def barPhase (b : Word) : Nat := wfld b 36 4
def barOpen (b : Word) : Bool := wbit b 35
def barAll (b : Word) : Bool := wbit b 34
def barArrived (b : Word) : Nat := wfld b 16 13
def barTarget (b : Word) : Nat := wfld b 0 13

def barWord (phase : Nat) (isOpen all : Bool) (arrived target : Nat) : Word :=
  BitVec.ofNat 64 (phase % 16 * 2 ^ 36 + b2n isOpen * 2 ^ 35 + b2n all * 2 ^ 34 + arrived % 2 ^ 13 * 2 ^ 16 + target % 2 ^ 13)

/-- `Settle` (R305): a phase that is complete, given the unexited threads; TARGET stays as it stands. -/
def barSettle (b : Word) (unexited : Nat) : Word :=
  if barOpen b && (if barAll b then barArrived b ≥ unexited else barArrived b == barTarget b)
  then barWord (barPhase b + 1) false false 0 (barTarget b) else b

/-- Unexited threads of a team and of a crew. -/
def Team.unexited (t : Team) : Nat := (t.waves.map fun w => (w.threads.filter fun h => !h.exited).length).sum
def Crew.unexited (c : Crew) : Nat := (c.teams.map Team.unexited).sum

/-- A stream as allocation leaves it (R27), with one path. -/
def Strand.fresh (sid : Sid) (slot : Nat) (w2 : Word) (clk : Nat) (threads : Nat) (ps : List Path) : Strand :=
  { sid := sid, slot := slot, w2 := w2, ld := 0, st := 0, cp := 0, tl := 0, trap := { cause := 0, mask := 0, pc := 0, aux := 0 }, intr := none,
    pend := [], log := [], refills := [], paths := ps, cur := 0, chosen := false, nextId := 1, threads := List.replicate threads Thread.fresh, g := [], ploop := 0,
    lastIssue := clk, clauses := 0, rrotK := 0 }

/-- The lanes that a waiting word has acted for part from those that joined them (`Wait.more`), which keep the path's number and stand at the header anew.
The part with the lowest lane keeps the creation rank, as after a branch (R38; log 76). -/
def Path.parted (p : Path) (w : Wait) (id : Nat) : Path × Option Path :=
  let m := p.only.getD 0
  let rank (x : Lanes) : Nat := if x.getLsbD (lowLane p.lanes) then p.crank else id
  if p.lanes &&& ~~~m = 0 then (p, none)
  else ({ p with lanes := m, only := none, clause := none, wait := .none, crank := rank m },
    some { p with id := id, lanes := p.lanes &&& ~~~m, only := none, wait := w, crank := rank (p.lanes &&& ~~~m) })

/-- A path whose wait passes a test leaves it; `id` numbers the lanes that part from lanes that joined them. -/
def Path.endWait (p : Wait → Bool) (id : Nat) (q : Path) : Path × Option Path :=
  match q.wait with
  | .more w _ => if p w then q.parted (.over w) id else (q, none)
  | w => (if p w then { q with wait := .over w } else q, none)

/-- The paths of a list whose wait passes a test leave it, and the next path number. -/
def endWaitsOf (p : Wait → Bool) : Nat → List Path → List Path × Nat
  | n, [] => ([], n)
  | n, q :: l =>
    let (a, b) := q.endWait p n
    let (r, n') := endWaitsOf p (n + b2n b.isSome) l
    (a :: (b.toList ++ r), n')

/-- Paths of a stream whose wait passes a test leave it. -/
def Strand.endWaits (p : Wait → Bool) (t : Strand) : Strand :=
  let (ps, n) := endWaitsOf p t.nextId t.paths
  match t.intr with
  | none => { t with paths := ps, nextId := n }
  | some i =>
    let (a, b) := i.path.endWait p n
    let (hs, n') := endWaitsOf p (n + b2n b.isSome) i.held
    { t with paths := ps, nextId := n', intr := some { i with path := a, held := b.toList ++ hs } }

def Crew.endWaits (c : Crew) (team : Option Nat) (p : Wait → Bool) : Crew :=
  { c with teams := c.teams.map (fun t => if team.isNone || team == some t.rank then { t with waves := t.waves.map (Strand.endWaits p) } else t),
           gaffer := c.gaffer.map (Strand.endWaits p) }

/-- Settle a team barrier: when its phase completes, every path that waits on it leaves the wait. -/
def Crew.settleBar (c : Crew) (r n : Nat) : Crew :=
  match c.teams[r]? with
  | none => c
  | some t =>
    let b := t.bars.getD n 0
    let b' := barSettle b t.unexited
    if b' = b then c
    else (c.modTeam r fun t => { t with bars := listSet t.bars n b' }).endWaits (some r) fun w => match w with
      | .bar m _ => m == n
      | _ => false

/-- Settle a crew barrier. -/
def Crew.settleCbar (c : Crew) (n : Nat) : Crew :=
  let b := c.cbars.getD n 0
  let b' := barSettle b c.unexited
  if b' = b then c
  else { c with cbars := listSet c.cbars n b' }.endWaits none fun w => match w with
    | .cbar m _ => m == n
    | _ => false

/-- After a thread exit, every barrier with ALL = 1 settles (R305). -/
def Crew.settleExits (c : Crew) (r : Nat) : Crew :=
  let bars := (c.teams[r]?.map Team.bars).getD []
  let c := ((List.range 16).filter fun n => barAll (bars.getD n 0)).foldl (fun c n => c.settleBar r n) c
  ((List.range 4).filter fun n => barAll (c.cbars.getD n 0)).foldl (fun c n => c.settleCbar n) c

/-- Lanes of a stream end (R166): a team whose last thread has ended has exited (R28). -/
def State.exitLanes (s : State) (crew : Nat) (sid : Sid) (ls : Lanes) : State :=
  let s := s.modStrand crew sid fun t =>
    { t with threads := (List.range t.threads.length).zipWith (fun l h => if ls.getLsbD l then { h with exited := true } else h) t.threads }
  match sid with
  | .wave r _ => s.modCrew crew fun c =>
      let c := c.settleExits r
      c.modTeam r fun t => { t with exited := t.unexited == 0 }
  | _ => s

/-! ### Crews that end -/

/-- A crew leaves the machine and its resources are free; what it has sent goes on by itself (R29, R30). -/
def State.removeCrew (s : State) (id : Nat) : State :=
  { s with crews := s.crews.filter (fun c => c.id != id),
           pins := s.pins.filter (fun p => match p.holder with
             | .tile c _ _ => c != id
             | .soft c _ => c != id
             | .im2col c _ => c != id),
           fetches := s.fetches.filter (fun f => f.crew != id),
           offers := s.offers.filter (fun o => o.crew != id),
           samples := s.samples.filter (fun x => x.crew != id),
           stalls := s.stalls.filter (fun x => x.1 != id) }

/-- A crew is ended (R39, R202, R203): an event, no join. -/
def State.endCrew (s : State) (crew : Nat) (kind : Nat) (w : Who) (r : RecInfo) : State :=
  match s.crew? crew with
  | some c => (s.event kind c.die w r).removeCrew crew
  | none => s

/-! ### Saving -/

/-- Log entries of a team's part 4: its waves', and in rank 0 the Gaffer context's (R216). -/
def Crew.logStrands (c : Crew) (t : Team) : List Strand := t.waves ++ (if t.rank = 0 then c.gaffer.toList else [])

/-- The operations of the crew's non-Idle tiles, by team and tile: those Running or about to run, and those Suspended (R193). -/
def Crew.liveOps (c : Crew) : List (Nat × TileOp) :=
  (c.teams.map fun t => ((List.range t.tiles.length).filterMap fun i => match (t.tile i).susp with
    | some o => some o
    | none => t.ops.find? fun o => o.tile == i && o.mma.isSome).map fun o => (t.rank, o)).flatten

/-- Sizes of the image parts 0 to 7 of a team (R216), from its handlers' waves, its log entries, its tiles, and in rank 0 the sequencer records. -/
def Desc.parts (d : Desc) (handlers entries tiles : Nat) (records : Option Nat) : List Nat :=
  let m := d.team
  [48 * m, 4 * m * d.w0lim, if d.w3lim = 8 then 32 * m else 0, 768 * handlers, 1040 * entries, 8240 * tiles, d.scratch + 2048 + m * d.tape,
    (records.map fun n => 8 + 128 * n).getD 0]

/-- Sizes of the image parts of a team of a crew. -/
def Crew.parts (c : Crew) (t : Team) : List Nat :=
  c.desc.parts (t.waves.filter Strand.inH).length ((c.logStrands t).map Strand.logn).sum (tileCount t.slots)
    (if t.rank = 0 then some c.liveOps.length else none)

/-- Bytes of a team's image (R216). -/
def Crew.imageBytes (c : Crew) (t : Team) : Nat := (c.parts t).sum

/-- A save slot's quarter holds each team's header and image (R336). -/
def Crew.fitsSlot (c : Crew) (q : Queue) : Bool := c.teams.all fun t => 4096 + c.imageBytes t ≤ q.stride.toNat / 4

def State.queue (s : State) (q : Nat) : Queue := (assocGet s.queues q).getD Queue.reset

/-- Save slots of a queue in use. -/
def State.slotsUsed (s : State) (q : Nat) : List Nat :=
  (s.saved.filter fun x => x.queue == q).map Saved.slot
    ++ s.crews.filterMap fun c => if c.queue == q then c.saving.map Saving.slot else none

/-- Free save slots of a queue. -/
def State.freeSlots' (s : State) (q : Nat) : List Nat :=
  let used := s.slotsUsed q
  (List.range (s.queue q).savecount.toNat).filter fun i => !used.contains i

/-- A slot for a crew: a free choice among the free ones that fit. -/
def State.pickSlot (s : State) (c : Crew) : Option Nat × State :=
  if c.fitsSlot (s.queue c.queue) then
    let l := s.freeSlots' c.queue
    let (i, s) := s.drawIndex l.length
    (l[i]?, s)
  else (none, s)

/-- The number that names an unsaved crew in its fault record (R336). The spec says only that RESUME with that slot number ends the wait, and that it takes
numbers below SAVECOUNT alone: it is the lowest number that no saved or waiting crew of the queue has, where it lies below SAVECOUNT; else the lowest
below SAVECOUNT that no waiting crew has, else the former (log 27). -/
def State.noSaveSlot (s : State) (c : Crew) : Nat :=
  match c.nosave with
  | some n => n
  | none =>
    let waiting := (s.crews ++ s.saved.map Saved.crew).filterMap fun d => if d.queue == c.queue then d.nosave else none
    let n := (s.queue c.queue).savecount.toNat
    let low (l : List Nat) : Nat := ((List.range (l.length + 1)).find? fun i => !l.contains i).getD 0
    let free := low (s.slotsUsed c.queue ++ waiting)
    if n ≤ free && low waiting < n then low waiting else free

/-- A missing page (R208, R336): the whole crew is to be saved, or without a slot its faulting path waits for RESUME. While the crew is being saved another
path that meets one stops where it stands, and meets it again after the restore (R209, R210). -/
def State.pageFault (s : State) (crew : Nat) (sid : Sid) (pid : Nat) (w : Who) (r : RecInfo) : State :=
  match s.crew? crew with
  | none => s
  | some c =>
    match c.saving with
    | some v => s.modPath crew sid pid fun p => { p with frozen := some v.slot }
    | none => match s.pickSlot c with
      | (some slot, s) =>
        let s := s.modCrew crew fun c => { c with saving := some { reason := 1, slot := slot, since := s.clk c.die } }
        (s.modPath crew sid pid fun p => { p with frozen := some slot }).holdFault c.die w { r with slot := slot }
      | (none, s) =>
        let n := s.noSaveSlot c
        let s := s.modCrew crew fun c => { c with nosave := some n }
        (s.modPath crew sid pid fun p => { p with frozen := some n }).holdFault c.die w { r with slot := n, nosave := true }

/-- The host has armed debugging for an ASID (R321, R399); for a secure crew the secure host function has (R407). -/
def State.armed (s : State) (asid : BitVec 16) (secure : Bool) : Bool :=
  s.debugarm.getLsbD 16 && s.debugarm.extractLsb' 0 16 == asid && (!secure || s.armsec)

/-! ### Taking a trap -/

/-- A trap about to be taken: what TRAPCAUSE, TRAPMASK, TRAPPC and TRAPAUX will hold, and whether TRAPPC names a word (`at_` its position). -/
structure Raise where
  cause  : Nat
  kind   : Nat
  mask   : BitVec 32
  pc     : Word
  at_    : Option Nat
  aux    : Word
  pend   : Bool
  access : Nat
  absent : Bool
  entry  : Option Nat := none -- the log entry that a trap of kind 3 reports
deriving DecidableEq, Repr

/-- TRAPCAUSE (R197). -/
def trapCause (cause kind logn : Nat) (pend : Bool) (pos : Nat) : BitVec 32 :=
  BitVec.ofNat 32 (cause % 16 + kind % 4 * 2 ^ 4 + logn % 16 * 2 ^ 8 + b2n pend * 2 ^ 12 + pos % 32 * 2 ^ 16)

/-- The path that runs a handler (R200). -/
def handlerPath (id : Nat) (p : Path) (pc : Word) : Path :=
  { id := id, lanes := p.lanes, pc := pc, at_ := none, prev := p.pc, age := 0, starve := 0, crank := p.crank, lone := false, clause := none,
    latch := [], wait := .none, only := none, yielded := false, noCeil := false, frozen := none }

/-- The path as a trap leaves it: it stands at the return point, and its latch is kept (R49). At a header it keeps its wait (R301); a word that
raised is issued anew. -/
def Path.interrupted (p : Path) (r : Raise) : Path :=
  { p with pc := r.pc, at_ := r.at_, clause := none, noCeil := false, wait := if r.at_.isSome then .none else p.wait, raises := false }

/-- The watchdog limit in clocks (R39). -/
def Desc.limit (d : Desc) : Nat := (if d.wdog = 0 then 65536 else d.wdog) * 1024

/-- A path's starvation count has passed the limit, and no watchdog trap for its lanes is pending yet (R39). -/
def Strand.expired (t : Strand) (limit : Nat) (p : Path) : Bool :=
  limit < p.starve && !t.pend.any fun x => x.cause = 13 && (x.mask &&& p.lanes) != 0

/-- Watchdogs that stay pending beside a trap that a path takes (R39, R196): those of the paths that have expired. -/
def Strand.laterWatchdogs (t : Strand) (limit pid cause : Nat) : List Pend :=
  (t.paths.filter fun p => t.expired limit p && !(p.id == pid && cause = 13)).map fun p =>
    ⟨13, t.inH, none, p.lanes, BitVec.ofNat 64 (limit + 1), 0, false, none⟩

/-- A stream enters its handler at `entry` (R197 to R200); entries from number `first` on are the handler's. -/
def Strand.enter (t : Strand) (p : Path) (r : Raise) (entry : Word) (clk first limit : Nat) : Strand :=
  let later := t.laterWatchdogs limit p.id r.cause
  { t with trap := { cause := trapCause r.cause r.kind t.logn (r.pend || !later.isEmpty) (r.at_.getD 0), mask := r.mask,
                     pc := r.pc &&& 0x1FFFFFFFFFFFFFF, aux := r.aux },
           pend := t.pend ++ later,
           intr := some { path := p.interrupted r, held := t.paths.filter (fun q => q.id != p.id), since := clk, first := first, cur := t.cur, entry := r.entry },
           paths := [handlerPath t.nextId p entry], cur := t.nextId, chosen := false, nextId := t.nextId + 1 }

/-- Where a stream's handler stands: the descriptor's handler for a wave, the Gaffer entry for a context, none for a producer (R200, R362). -/
def Crew.handlerOf (c : Crew) (sid : Sid) : Word :=
  match sid with
  | .wave _ _ => c.desc.hentry
  | .gaffer => c.desc.gentry
  | .producer _ => 0

/-- Five free words: the payload of a TRAP record, which the spec does not lay out (log 25). -/
def State.drawWords (s : State) : Nat → List Word × State
  | 0 => ([], s)
  | n + 1 => let (w, s) := s.drawWord; let (l, s) := s.drawWords n; (w :: l, s)

/-- A TRAP record, when the stream is traced (R321). -/
def State.traceTrap (s : State) (c : Crew) (sid : Sid) (w : Who) : State :=
  if s.tracedStream c sid then
    let (l, s) := s.drawWords 5
    s.emit c.die 7 w l
  else s

/-- Take a trap on one path (R195 to R203, R208, R321). -/
def State.takeTrap (s : State) (crew : Nat) (sid : Sid) (pid : Nat) (r : Raise) : State :=
  match s.crew? crew, s.strand? crew sid with
  | some c, some t =>
    match t.path? pid with
    | none => s
    | some p =>
      let w := { c.who sid (lowLane p.lanes) with pc := r.pc }
      let info : RecInfo := { cause := r.cause, addr := r.aux, pc := r.pc, aux := r.aux, access := r.access, absent := r.absent }
      let s := s.traceTrap c sid w
      if r.cause = 8 && !(match sid with | .producer _ => true | _ => false) then
        (s.modPath crew sid pid fun p => { p.interrupted r with only := if r.kind = 0 then some r.mask else p.only }).pageFault crew sid pid w info
      else if t.inH then s.endCrew crew 5 w info
      else if r.cause = 14 && s.armed c.asid c.secure then
        -- a save that is under way goes on, into its slot, as a debug save
        match (match c.saving with | some v => (some v.slot, s) | none => s.pickSlot c) with
        | (slot, s) =>
          let s := s.modPath crew sid pid fun p => p.interrupted r
          let s := s.event 11 c.die w { info with slot := slot.getD 0, nosave := slot.isNone }
          match slot with
          | some n =>
            (s.modPath crew sid pid fun p => { p with frozen := some n }).modCrew crew fun c =>
              { c with saving := some { reason := 3, slot := n, since := (c.saving.map Saving.since).getD (s.clk c.die) } }
          | none => s
      else if c.handlerOf sid = 0 then s.endCrew crew (if r.cause = 13 then 3 else 4) w info
      else s.modStrand crew sid fun t => t.enter p r (c.handlerOf sid) (s.clk c.die) s.ids c.desc.limit
  | _, _ => s

/-! ### Returning from a handler (R205) -/

/-- Resume at an address (R205): the words of the clause that the path stood in, of which `last` is the last position where its header can be read,
keep their positions (R49); any other address is checked as a branch target is. `hret` is the address of the word that led there (R199). A path that stands
at the same header keeps its wait (R301). -/
def Path.resumeAt (p : Path) (a hret : Word) (last : Option Nat) : Path :=
  let header : Path := { p with pc := a, at_ := none, prev := hret, only := none, latch := [] }
  match p.at_ with
  | none => if a = p.pc then { p with prev := hret } else { header with wait := .none }
  | some q =>
    let h := p.pc - BitVec.ofNat 64 (8 * (q + 1))
    let d := (a - h).toNat
    if 8 ≤ d && d ≤ 8 * (last.getD 15 + 1) && d % 8 = 0 then
      { p with pc := a, at_ := some (d / 8 - 1), only := if a = p.pc then p.only else none }
    else header

/-- The interrupted path after its handler: lanes that ended do not resume. After a kind 0 trap none of whose lanes issues the word again, the path goes on
behind it; the last word of its clause then led to the next header (R199). -/
def Path.returned (p : Path) (alive : Lanes) (kind : Nat) (pc : Word) (mask : Lanes) (hret : Word) (last : Option Nat) : Path :=
  let p := { p with lanes := p.lanes &&& alive, starve := 0 }
  if kind = 0 then
    if p.lanes &&& mask = 0 then p.resumeAt (pc + 8) pc last
    else { p.resumeAt pc hret last with only := some (p.lanes &&& mask) }
  else p.resumeAt pc hret last

/-- Lanes of a stream whose threads have not ended. -/
def Strand.alive (t : Strand) : Lanes := lanesWhere fun l => l < t.threads.length && !(t.thread l).exited

/-- The stream leaves its handler: its trap registers are cleared. What the handler has left pending is the stream's own from now on. -/
def Strand.leave (t : Strand) (hret : Word) (last : Option Nat) : Strand :=
  match t.intr with
  | none => t
  | some i =>
    let p := i.path.returned t.alive (fld t.trap.cause.toNat 4 2) t.trap.pc t.trap.mask hret last
    { t with paths := ((p :: i.held).map fun q => { q with lanes := q.lanes &&& t.alive }).filter fun q => q.lanes != 0, cur := i.cur, chosen := false,
             intr := none, pend := t.pend.map (fun x => { x with inH := false }), trap := { cause := 0, mask := 0, pc := 0, aux := 0 } }

/-- What a context's handler has had accepted and staged is the context's own once the handler has returned. -/
def State.adopt (s : State) (crew : Nat) : State :=
  let op (o : TileOp) : TileOp := { o with inH := false }
  let tile (x : Tile) : Tile := { x with susp := x.susp.map op }
  { s.modCrew crew fun c => { c with teams := c.teams.map fun t => { t with ops := t.ops.map op, tiles := t.tiles.map tile } } with
    fetches := mapIf (fun f => f.crew == crew) (fun f => { f with inH := false }) s.fetches }

/-- The last position of the clause whose header stands at an address, where that header can be read. -/
def State.lastPos (s : State) (c : Crew) (sid : Sid) (pc : Word) : Option Nat :=
  match s.fetch (c.coreOf sid) c.asid c.secure pc with
  | (.word w, _) => (Header.ofWord w).map fun h => h.count
  | _ => none

/-- Return from a handler, whose last word stands at `hret`: when no handler path is left (R205). -/
def State.leaveHandler (s : State) (crew : Nat) (sid : Sid) (hret : Word) : State :=
  match s.crew? crew, s.strand? crew sid with
  | some c, some t =>
    let last := t.intr.bind fun i => i.path.at_.bind fun q => s.lastPos c sid (i.path.pc - BitVec.ofNat 64 (8 * (q + 1)))
    let s := if fld t.trap.cause.toNat 4 2 = 3 then s.relog crew sid t.trap.mask else s
    let s := s.modStrand crew sid fun t => t.leave hret last
    if sid = .gaffer then s.adopt crew else s
  | _, _ => s

/-! ### Issuing one word -/

/-- The word about to issue: its stream as it stood, and the lanes that it issues in. -/
structure Ctx where
  s0    : State
  grant : Grant
  crew  : Crew
  t     : Strand
  path  : Path
  cl    : Clause
  word  : Word
  addr  : Word            -- address of the word
  lanes : Lanes           -- issuing lanes: the path's, or those of R205 kind 0
  act   : Lanes           -- issuing lanes whose guard is true (R55)
  hnd   : Bool            -- a handler's word: its vector registers are h0 to h7 (R95)

namespace Ctx
def sid (c : Ctx) : Sid := c.grant.sid
def pos (c : Ctx) : Nat := c.cl.pos
def cls (c : Ctx) : Class := c.cl.head.cls
def id (c : Ctx) : Nat := c.grant.crew
def die (c : Ctx) : Nat := c.crew.die
def core (c : Ctx) : CoreId := c.crew.coreOf c.grant.sid
/-- The team of the stream; a Gaffer context has none. -/
def rank (c : Ctx) : Nat := (sidTeam? c.grant.sid).getD 0
def team (c : Ctx) : Option Team := c.crew.teams[c.rank]?
/-- Wave of the team. -/
def wave (c : Ctx) : Nat := match c.grant.sid with | .wave _ w => w | _ => 0
def inH (c : Ctx) : Bool := c.hnd
def isG (c : Ctx) : Bool := c.grant.sid == .gaffer
def isP (c : Ctx) : Bool := match c.grant.sid with | .producer _ => true | _ => false
/-- Guarded lanes, ascending. -/
def ls (c : Ctx) : List Nat := lanesOf c.act
/-- Address of the clause header. -/
def hdrAddr (c : Ctx) : Word := c.path.pc
/-- The fall-through address of the clause (R46). -/
def fall (c : Ctx) : Word := c.path.pc + BitVec.ofNat 64 (8 * (c.cl.head.count + 2))
def modT (c : Ctx) (s : State) (f : Strand → Strand) : State := s.modStrand c.id c.sid f
def modP (c : Ctx) (s : State) (f : Path → Path) : State := s.modPath c.id c.sid c.grant.path f
end Ctx

/-- The guard of a word in one lane (R55). -/
def guardBit (p : Pre) (pr : BitVec 16) : Bool := pr.getLsbD p.pg.toNat != p.pn

/-- The surroundings of the word that the issue slot grants; none when nothing is granted. -/
def State.ctx? (s : State) (p : Pre) : Option Ctx :=
  match s.slot with
  | none => none
  | some g =>
    match s.crew? g.crew, s.strand? g.crew g.sid with
    | some c, some t =>
      match t.path? g.path with
      | none => none
      | some q =>
        match q.clause with
        | none => none
        | some cl =>
          match cl.words[cl.pos]? with
          | none => none
          | some w =>
            let lanes := match q.only with
              | some m => q.lanes &&& m
              | none => q.lanes
            some { s0 := s, grant := g, crew := c, t := t, path := q, cl := cl, word := w,
                   addr := q.pc + BitVec.ofNat 64 (8 * (cl.pos + 1)), lanes := lanes,
                   act := lanesWhere fun l => lanes.getLsbD l && guardBit p (predBits c g.sid t l), hnd := t.inH }
    | _, _ => none

/-- How a word ends. -/
inductive Out where
  /-- It has had its effect. -/
  | done (s : State)
  /-- It stalls inside its clause, with no effect (R49). -/
  | stall
  /-- It stalls inside its clause, and has made what it waits for (R345). -/
  | hold (s : State)
  /-- The path waits at this waiting word (R301). -/
  | wait (s : State) (w : Wait)
  /-- Lanes raised; in `s` the other lanes have completed (kind 0) or none has (kind 1). -/
  | raise (s : State) (kind : Nat) (fs : List LaneFault)
  /-- It has completed and raises a cause of kind 2 behind itself (R204). -/
  | soft (s : State) (cause : Nat) (aux : Word)
  /-- A transfer: the next address of each lane that stays in the stream, by lane (R161). -/
  | jump (s : State) (next : List (Nat × Word))
  /-- A transfer in which lanes go to words inside a clause (R380). -/
  | back (s : State) (next : List (Nat × Word × Option Nat))

/-- Latch entries after a word that held a source (R59). -/
def latchPut (l : List Latched) (ent : Nat) (ls : List Nat) (v : Nat → Word) : List Latched :=
  l.filter (fun x => !(x.ent == ent && ls.contains x.lane)) ++ ls.map fun k => { ent := ent, lane := k, val := v k }

/-- The clock of the last issue, and the starvation count of the path (R39, R340). -/
def Ctx.issued (c : Ctx) (s : State) : State :=
  let s := c.modT s fun t => { t with lastIssue := s.clk c.die }
  let s := c.modP s fun p => { p with starve := 0, raises := false }
  { (s.coreSignal c.core 0 1).coreSignal c.core 1 (b2n c.grant.lone) with slot := none }

/-- Paths that stand at one clause header merge (R31): the older creation rank, and the age of R31. The spec does not give the starvation count and the
yield mark of the merged path: it takes the greater count, and is a yielding path where one of the two is (log 76). It is no lone lane any more (R37).
Where one waits at a barrier that the word has already arrived at, the word has still to act for the lanes of the other; in any other wait nothing has been
done yet, and the path stands at the header anew (R301). -/
def mergeInto (cur : Nat) (p q : Path) : Path :=
  let m := { p with lanes := p.lanes ||| q.lanes, crank := min p.crank q.crank, age := if p.id = cur || q.id = cur then 0 else max p.age q.age,
                    lone := false, id := if q.id = cur then q.id else p.id, starve := max p.starve q.starve, yielded := (p.yielded && !p.lone) || (q.yielded && !q.lone) }
  let fresh (x : Path) : Option Lanes := match x.wait with
    | .more _ _ => x.only
    | .bar _ _ | .cbar _ _ => none
    | _ => some x.lanes
  let held (x : Path) : Option Wait := match x.wait with
    | .more w _ => some w
    | .bar n ph => some (.bar n ph)
    | .cbar n ph => some (.cbar n ph)
    | _ => none
  match held p, held q with
  | none, none => { m with clause := none, wait := .none }
  | a, b =>
    let new := (fresh p).getD 0 ||| (fresh q).getD 0
    let w := (a.or b).getD .none
    { m with clause := if a.isSome then p.clause else q.clause, only := if new = 0 then none else some new,
             wait := if new = 0 then w else .more w none }

/-- Waits in which a path stands at its header as one that has just reached it: all but a refill, a rotation, and a wait that is over. -/
def Wait.merges : Wait → Bool
  | .refill | .rrot _ | .over _ => false
  | _ => true

/-- A path that may merge: at a header, or at the waiting word that it has read there (R301). -/
def Path.atHeader (p : Path) : Bool :=
  p.at_.isNone && p.frozen.isNone && p.wait.merges && (p.clause.isNone || p.wait != .none)
    && (p.only.isNone || (match p.wait with | .more _ _ => true | _ => false))

/-- Two paths merge: at one header, and not with waits on two phases of a barrier. -/
def Path.meets (p q : Path) : Bool :=
  let held (w : Wait) : Option Wait := match w with
    | .more w _ => some w
    | .bar n ph => some (.bar n ph)
    | .cbar n ph => some (.cbar n ph)
    | _ => none
  p.atHeader && q.atHeader && p.pc == q.pc && (match held p.wait, held q.wait with
    | some a, some b => a == b
    | _, _ => true)

def mergePath (cur : Nat) (p : Path) : List Path → List Path
  | [] => [p]
  | q :: l => if p.meets q then mergeInto cur q p :: l else q :: mergePath cur p l

def mergePaths (cur : Nat) (l : List Path) : List Path := l.foldl (fun acc p => mergePath cur p acc) []

/-- Where lanes have joined a path at a waiting word, the two part. -/
def Strand.part (t : Strand) (pid : Nat) (w : Wait) : Strand :=
  match t.path? pid with
  | some p => match p.parted w t.nextId with
    | (a, some b) => { t.modPath pid (fun _ => a) with paths := (t.modPath pid fun _ => a).paths ++ [b], nextId := t.nextId + 1 }
    | (_, none) => t
  | none => t

/-- A path at a clause boundary: the next header, an empty latch (R59). -/
def Path.atBoundary (p : Path) (pc prev : Word) : Path :=
  { p with pc := pc, at_ := none, prev := prev, clause := none, latch := [], wait := .none, only := none, noCeil := false, raises := false }

/-- A wait has ended (R33, R301), or the word at which the path waits can act. -/
def State.waitDone (s : State) (c : Crew) (t : Strand) (p : Path) : Bool :=
  match p.wait with
  | .none | .over _ | .refill => true
  | .counts x y z w => t.under x y z w
  | .release ls sc => s.released c t false ls none sc
  | .pad r off ls => !c.padPending t ls r off 16
  | .more _ r => (p.clause.all fun k => t.under k.head.ld k.head.st k.head.cp k.head.tl)
      && (match r with | some (ls, sc) => s.released c t false ls none sc | none => true)
  | _ => false

/-- Lanes that have a tape refill pending (R378): a `TPOP` stands for them among the entries. -/
def Strand.refilling (t : Strand) : Lanes :=
  t.log.foldl (fun m e => match decode e.word with
    | some (.tpop ..) => m ||| (e.undone &&& ~~~e.faultLanes)
    | _ => m) 0

/-- Lanes in which a register-space word is to be performed again (R207): it completes before the next word of its path (R258, R268). -/
def Strand.regAgain (t : Strand) : Lanes :=
  t.log.foldl (fun m e => match decode e.word with
    | some (.ldrs ..) | some (.strs ..) => if t.intr.isSome && !e.inH then m else m ||| (e.undone &&& ~~~e.faultLanes)
    | _ => m) 0

/-- A path is eligible as far as its waits go; no header is while a lane has a refill pending (R378); its header's ceilings are looked at when it is
considered for issue (R33). -/
def State.ready (s : State) (c : Crew) (t : Strand) (p : Path) : Bool :=
  p.frozen.isNone && s.waitDone c t p && p.lanes != 0 && (p.at_.isSome || p.clause.isSome || p.lanes &&& t.refilling == 0)
    && (p.clause.isSome || p.lanes &&& t.regAgain == 0)

/-- A path's clause is in progress (R49): it has read it, or it stands at a word inside it, to which a handler returned. A lane that `TRET` sent to a word
is at a boundary, since that word ends its clause (R168, R380). -/
def Path.midClause (p : Path) : Bool := (p.clause.isSome && p.wait == .none) || (p.clause.isNone && p.at_.isSome && !p.noCeil)

/-- Another path of the stream is inside its clause. -/
def Strand.othersMid (t : Strand) (pid : Nat) : Bool := t.paths.any fun q => q.id != pid && q.midClause

/-- A clause of the wave completed on one path: every other eligible path ages (R33). -/
def ageOthers (elig : Path → Bool) (done : List Nat) (l : List Path) : List Path :=
  mapIf (fun p => !done.contains p.id && !p.midClause && elig p) (fun p => { p with age := min 65535 (p.age + 1) }) l

/-- Ceilings of the header at an address, as it would be fetched now; a header that cannot be read places none. -/
def State.peekHeader (s : State) (c : Crew) (sid : Sid) (pc : Word) : Header :=
  let h := match s.fetch (c.coreOf sid) c.asid c.secure pc with
    | (.word w, _) => Header.ofWord w
    | _ => none
  h.getD { cls := .a, count := 0, ld := 15, st := 15, cp := 15, tl := 15, yend := false }

/-- The path's next clause, whose header would be `h`, could issue now (R33, R45). -/
def State.startable (s : State) (c : Crew) (t : Strand) (p : Path) (h : Header) : Bool :=
  s.ready c t p && (p.noCeil || p.at_.isSome || p.clause.isSome || t.under h.ld h.st h.cp h.tl)

/-- The path's next clause could issue now (R33). -/
def State.eligible (s : State) (c : Crew) (sid : Sid) (t : Strand) (p : Path) : Bool := s.startable c t p (s.peekHeader c sid p.pc)

/-- The path of the greatest age (R34): ties go to the path with the lowest lane. Rule 2 names no tie rule, and takes that of rules 1 and 4 (log 76). -/
def oldest (l : List Path) : Option Path :=
  let m := (l.map Path.age).foldl max 0
  minBy (fun p => lowLane p.lanes) (l.filter fun p => p.age == m)

/-- The wave's current path is chosen (R34, R38) among its eligible paths at a boundary, lone lanes that stand at one among them (R37); a path that becomes
current has age 0 (R33). With nothing eligible the choice waits, and so does what a `YIELD` asks of it. -/
def State.choosePath (s : State) (crew : Nat) (sid : Sid) : State :=
  match s.crew? crew, s.strand? crew sid with
  | some c, some t =>
    let ps := mergePaths t.cur t.paths
    let el := ps.filter fun p => !p.midClause && s.eligible c sid { t with paths := ps } p
    let rest := el.filter fun p => !p.yielded || p.lone
    let aged := el.filter fun p => p.age > (if c.desc.age = 0 then 256 else c.desc.age)
    let pick := if !c.desc.prog then minBy Path.crank el
      else if !aged.isEmpty then oldest aged
      else if ps.any (fun p => p.yielded && !p.lone) && !rest.isEmpty then oldest rest
      else match el.find? fun p => p.id == t.cur with
        | some p => some p
        | none => oldest el
    let new := match pick with
      | none => { t with paths := ps, chosen := false }
      | some p =>
        let f (q : Path) : Path :=
          if q.id = p.id then { q with age := if p.id = t.cur then q.age else 0, lone := false, yielded := false, raises := false }
          else if q.lone then q else { q with yielded := false }
        { t with paths := ps.map f, cur := p.id, chosen := true }
    let s := s.coreSignal (c.coreOf sid) 11 (match pick with | some p => b2n (p.id != t.cur) | none => 0)
    s.modStrand crew sid fun t => { t with paths := new.paths, cur := new.cur, chosen := new.chosen }
  | _, _ => s

/-- A word of a lane's loop buffer: the newest that was read at the address (R35). -/
def Thread.bufWord (h : Thread) (a : Word) : Option Word := (h.buf.reverse.find? fun x => x.1 == a).map Prod.snd

/-- The clause at an address lies wholly in a lane's buffer (R36). -/
def Strand.inBuffer (t : Strand) (lane : Nat) (a : Word) : Bool :=
  match ((t.thread lane).bufWord a).bind Header.ofWord with
  | some h => (List.range (h.count + 1)).all fun i => ((t.thread lane).bufWord (a + BitVec.ofNat 64 (8 * (i + 1)))).isSome
  | none => false

/-- First address of the clause that a place names. -/
def headerOf (pc : Word) (at_ : Option Nat) : Word :=
  match at_ with
  | some q => pc - BitVec.ofNat 64 (8 * (q + 1))
  | none => pc

/-- Where a lane goes at the end of a clause: a header, or with a position the word at that position of its clause (R380). -/
abbrev Dest := Word × Option Nat

/-- The clause ends, and the path's lanes go to the listed places: paths split by place, lanes not listed leave (R31, R161). Of the new paths, the one
with the lowest lane keeps the creation rank; the spec orders the ranks of the others in no way, and they take theirs in the order of their lowest lanes
(R38; log 76). Where the clause yields, every part is a yielding path, of which rule 2 of R34 chooses none that another can stand for (log 76); a lone lane
that is alone no more is none, since its clause was not one of the wave (R33, R165). -/
def Ctx.endClauseAt (c : Ctx) (s : State) (next : List (Nat × Dest)) : State :=
  match s.strand? c.id c.sid with
  | none => s
  | some t =>
    match t.path? c.grant.path with
    | none => s
    | some p =>
      let group (a : Dest) : Lanes := lanesFrom ((next.filter fun x => x.2 == a).map Prod.fst)
      let addrs := dedup (next.map Prod.snd)
      let low := (next.map Prod.fst).foldl min 32
      let yl := p.yielded
      let base (a : Dest) : Path :=
        -- a lone lane stays alone while its next clause lies in its buffer (R36, R37)
        let alone := p.lone && t.inBuffer (lowLane (group a)) (headerOf a.1 a.2)
        { p.atBoundary a.1 c.addr with at_ := a.2, noCeil := a.2.isSome, lanes := group a, age := if yl then 0 else p.age, lone := alone,
                                       yielded := (yl || c.cl.head.yend) && (alone || !p.lone) }
      let firsts := addrs.filter fun a => (group a).getLsbD low
      let others := sortBy (fun a => lowLane (group a)) (addrs.filter fun a => !(group a).getLsbD low)
      let news : List Path := firsts.map base ++ ((List.range others.length).zip others).map fun x =>
        { base x.2 with id := t.nextId + x.1, crank := t.nextId + x.1 }
      let ids := news.map Path.id
      let rest := t.paths.filter fun q => q.id != p.id
      let rest := if p.lone then rest else ageOthers (s.eligible c.crew c.sid t) ids rest
      let s := c.modT s fun t =>
        { t with paths := rest ++ news, nextId := t.nextId + others.length, clauses := t.clauses + b2n (!p.lone),
                 chosen := if p.lone then t.chosen else false }
      if c.isG then s.modDie c.die fun d => { d with gaffer := assocSet d.gaffer c.crew.cluster c.t.slot }
      else if p.lone then c.modT s fun t => { t with paths := mergePaths t.cur t.paths }
      else s.choosePath c.id c.sid

/-- The clause ends, and every listed lane goes to a header. -/
def Ctx.endClause (c : Ctx) (s : State) (next : List (Nat × Word)) : State := c.endClauseAt s (next.map fun x => (x.1, x.2, none))

/-- When no handler path is left the stream returns from its handler (R205). A lone lane that a handler interrupted stays alone where its clause lies in
its buffer, and otherwise is a path of one (R37). The wave stands at a clause boundary, unless the interrupted path goes on inside its clause (R49). -/
def Ctx.checkReturn (c : Ctx) (s : State) : State :=
  match s.strand? c.id c.sid with
  | some t =>
    if t.inH && t.paths.isEmpty then
      let s := c.modT (s.leaveHandler c.id c.sid c.addr) fun t => { t with paths := t.paths.map fun p =>
        let alone := p.lone && t.inBuffer (lowLane p.lanes) (headerOf p.pc (p.clause.elim p.at_ fun _ => none))
        { p with lone := alone, yielded := p.yielded && (alone || !p.lone), raises := false } }
      if ((s.strand? c.id c.sid).map fun t => t.paths.any fun p => !p.lone && p.midClause).getD false then s else s.choosePath c.id c.sid
    else s
  | none => s

/-- The cause that a set of lane faults reports, and the datum of its lowest lane (R196). -/
def worst (fs : List LaneFault) : LaneFault :=
  let k := (fs.map LaneFault.cause).foldl min 15
  ((minBy LaneFault.lane (fs.filter fun f => f.cause == k))).getD { lane := 0, cause := k, addr := 0, kind := 0 }

/-- TRAPAUX of a word trap (R199): the word for causes 2 to 5, 10 and 11, else the address. -/
def auxOf (word : Word) (f : LaneFault) : Word :=
  if f.cause = 6 || f.cause = 7 || f.cause = 8 || f.cause = 9 then f.addr else word

/-- A lone lane's word that raises does not issue while another clause of the wave is in progress: a clause runs to its end without a switch (R49), and no
further one starts before the trap (log 76). -/
def Ctx.mustHold (c : Ctx) : Bool := c.path.lone && c.t.othersMid c.grant.path

def Ctx.holdRaise (c : Ctx) : State := { c.modP c.s0 (fun p => { p with raises := true }) with slot := none }

/-- The word traps at itself (R64, R195). -/
def Ctx.trapWord (c : Ctx) (s : State) (kind : Nat) (fs : List LaneFault) : State :=
  let f := worst fs
  if c.mustHold then c.holdRaise else s.takeTrap c.id c.sid c.grant.path
    { cause := f.cause, kind := kind, mask := lanesFrom (fs.map LaneFault.lane), pc := c.addr, at_ := some c.pos, aux := auxOf c.word f, pend := false,
      access := f.kind, absent := f.absent }

/-- A cause raised for every lane of the path (R64). -/
def Ctx.allLanes (c : Ctx) (cause : Nat) : List LaneFault := (lanesOf c.path.lanes).map fun l => { lane := l, cause := cause, addr := 0, kind := 0 }

/-- The latch takes the value that a word holds in each of its lanes (R59). -/
def Ctx.putLatch (c : Ctx) (hold : Option (Nat → Word)) (s : State) : State :=
  match hold with
  | some v => c.modP s fun p => { p with latch := latchPut p.latch (c.pos % 3) (lanesOf c.lanes) v }
  | none => s

/-- Lanes of the path that the word has not sent elsewhere (R379). -/
def Ctx.left (c : Ctx) (s : State) : Lanes := (((s.strand? c.id c.sid).bind fun t => t.path? c.grant.path).map Path.lanes).getD 0

/-- The word is the last of its clause. -/
def Ctx.isLast (c : Ctx) : Bool := c.pos ≥ c.cl.head.count

/-- The path goes on to the next word of its clause, or to the fall-through (R46). -/
def Ctx.advance (c : Ctx) (s : State) : State :=
  if c.left s = 0 then c.modT s fun t => { t with paths := t.paths.filter fun q => q.id != c.grant.path }
  else if c.isLast then c.endClause s ((lanesOf (c.left s)).map fun l => (l, c.fall))
  else c.modP s fun p => { p with clause := p.clause.map (fun k => { k with pos := k.pos + 1 }), only := none, wait := .none }

/-- Lanes of the path in which the word does not issue go on behind it (R205, kind 0). -/
def Ctx.skipped (c : Ctx) (s : State) : List (Nat × Word) := (lanesOf (c.left s &&& ~~~c.lanes)).map fun l => (l, c.fall)

/-- The path waits at its waiting word; lanes that had joined it are no longer apart once the word has acted for them. -/
def Ctx.await (c : Ctx) (s : State) (w : Wait) : State :=
  let joined : Wait → Bool
    | .more _ _ => true
    | _ => false
  let s := c.modP s fun p => { p with wait := w, only := if joined p.wait && !joined w then none else p.only }
  c.modT { s with slot := none } fun t => { t with chosen := false }

/-- What follows a word (R46, R49, R204): `hold` gives the held value of each lane. -/
def Ctx.finish (c : Ctx) (hold : Option (Nat → Word)) (o : Out) : State :=
  match o with
  | .done s => c.advance (c.putLatch hold (c.issued s))
  | .stall => { c.s0 with slot := none, stalls := (c.id, c.sid, c.grant.path) :: c.s0.stalls }
  | .hold s => let s := c.putLatch hold s; { s with slot := none, stalls := (c.id, c.sid, c.grant.path) :: s.stalls }
  | .wait s w => c.await s w
  | .raise s kind fs =>
    -- the lanes that a waiting word has acted for do not raise with those that joined them
    let s := match c.path.wait with
      | .more w _ => c.modT s fun t => t.part c.grant.path w
      | _ => s
    c.trapWord (if kind = 0 then c.putLatch hold (c.issued s) else c.issued s) kind fs
  | .soft s cause aux =>
    let s := c.putLatch hold (c.issued s)
    let s := if c.isLast && !c.path.lone then c.modT s fun t =>
        { t with paths := ageOthers (s.eligible c.crew c.sid t) [c.grant.path] t.paths, clauses := t.clauses + 1 } else s
    let s := c.modP s fun p => { p with prev := if c.isLast then c.addr else p.prev, only := none }
    if c.mustHold then c.holdRaise else s.takeTrap c.id c.sid c.grant.path
      { cause := cause, kind := 2, mask := c.act, pc := c.addr + 8, at_ := if c.isLast then none else some (c.pos + 1), aux := aux, pend := false,
        access := 0, absent := false }
  | .jump s next => c.checkReturn (c.endClause (c.issued s) (next ++ c.skipped s))
  | .back s next => c.checkReturn (c.endClauseAt (c.issued s) (next ++ (c.skipped s).map fun x => (x.1, x.2, none)))

end Sys2Proof.Machine
end

