-- ==== Sys2Proof/Machine/Operands.lean ====
section
/-! DEFINITION. Operand forms (R56, R57): where a specifier resolves (R93 to R96, R99, R358), constants, latch entries (R59) and special registers (R100);
reading a source and writing a destination in one lane. -/

namespace Sys2Proof.Machine

/-! ### Constants (R57) -/

/-- Element bits that a constant takes under a type. -/
def constElem (t : Ty) (c : BitVec 8) : Nat :=
  match t.fmt? with
  | some f => let i := c.toInt; roundDy f .rne (i < 0) i.natAbs 0
  | none => wrapNat t.ebits c.toInt

/-- The element repeated into every element of the type. -/
def repElem (e : Nat) : Nat → Nat → Nat
  | _, 0 => 0
  | w, n + 1 => e + 2 ^ w * repElem e w n

/-- The value of an inline constant under a type. -/
def constVal (t : Ty) (c : BitVec 8) : Word := BitVec.ofNat 64 (repElem (constElem t c) t.ebits t.elems)

/-! ### Vector registers -/

namespace Ctx

/-- First byte of the producer area of the stream's team (R357). -/
def prodPad (c : Ctx) : Nat := c.crew.padS - 1280

/-- Register n of a lane resolves through the alias view (R95, R96). -/
def aliased (c : Ctx) (n : Nat) : Bool := !c.inH && !c.isG && !c.isP && w2En c.t.w2 && w2Base c.t.w2 ≤ n && n ≤ w2Base c.t.w2 + 31

/-- Byte address of the element that an aliased register names (R96, R411). -/
def aliasAddr (c : Ctx) (n lane : Nat) : Nat :=
  match c.team with
  | none => 0
  | some tm =>
    let i := w2Tile c.t.w2
    let j := n - w2Base c.t.w2
    if (tm.tile i).fmt = 1 then tm.slotAddr i + 8 * (32 * lane + 16 * w2Half c.t.w2 + j / 2) + 4 * (j % 2)
    else tm.slotAddr i + 4 * (32 * lane + j)

/-- Byte address in register space of vector register n of a lane: h registers in a handler, the alias view, or w0 (R93, R95). -/
def vPlace (c : Ctx) (n lane : Nat) : Nat :=
  match c.team with
  | none => 0
  | some tm =>
    if c.inH then hAddr tm.base3 c.wave n lane
    else if c.aliased n then c.aliasAddr n lane
    else vAddr tm.base0 c.crew.desc.w0lim c.wave n lane

/-- A 32-bit vector register of a lane, as it stood when the word began. -/
def v32 (c : Ctx) (n lane : Nat) : BitVec 32 := c.s0.regWord c.core (c.vPlace n lane)

def setV32 (c : Ctx) (n lane : Nat) (v : BitVec 32) (s : State) : State := s.setRegWord c.core (c.vPlace n lane) v

/-- A producer register (R358). -/
def sReg (c : Ctx) (n : Nat) : Word := ((c.team.map fun tm => tm.padWord (c.prodPad + 0x400 + 8 * n))).getD 0

def setSReg (c : Ctx) (n : Nat) (v : Word) (s : State) : State :=
  s.modTeam c.id c.rank fun tm => tm.setPadNat (c.prodPad + 0x400 + 8 * n) 8 v.toNat

/-- A Gaffer register (R99). -/
def gReg (c : Ctx) (n : Nat) : Word := (assocGet c.t.g n).getD 0

def setGReg (c : Ctx) (n : Nat) (v : Word) (s : State) : State := c.modT s fun t => { t with g := assocSet t.g n v }

/-! ### Special registers (R100) -/

/-- The value of special register k in a lane. -/
def special (c : Ctx) (k lane : Nat) : Word :=
  let n (x : Nat) : Word := BitVec.ofNat 64 x
  let th := c.t.thread lane
  match k with
  | 16 => if c.isP then 0 else n lane
  | 17 => if c.isP then 0 else n (32 * c.wave + lane)
  | 18 => n c.rank
  | 19 => n c.crew.number
  | 20 => n c.core.core
  | 21 => n c.crew.cluster
  | 22 => n c.crew.die
  | 23 => n (wfld c.crew.taskRec 5 32)
  | 24 => if c.isP then 0 else n c.path.age
  | 25 => n (c.crew.glane c.sid lane)
  | 26 => n c.crew.desc.team
  | 27 => n c.crew.teams.length
  | 28 => if c.isP then 1 else n c.path.lanes.toNat
  | 29 => n (predBits c.crew c.sid c.t lane).toNat
  | 30 => n (c.s0.clk c.die)
  | 31 => th.rlink
  | 32 => c.crew.kdesc
  | 33 => c.crew.frame
  | 34 => (c.team.map c.crew.w0).getD 0
  | 35 => (c.team.map Team.w1).getD 0
  | 36 => c.t.w2
  | 37 => (c.team.map c.crew.w3).getD 0
  | 38 => n th.cvt.toNat
  | 39 => n c.t.slot
  | 40 => if c.inH then n c.t.trap.cause.toNat else 0
  | 41 => if c.inH then n c.t.trap.mask.toNat else 0
  | 42 => if c.inH then c.t.trap.pc else 0
  | 43 => if c.inH then c.t.trap.aux else 0
  | _ => 0

/-! ### Reading and writing -/

/-- Latch entry e of a lane (R59). -/
def latch (c : Ctx) (e lane : Nat) : Word := ((c.path.latch.find? fun x => x.ent == e && x.lane == lane).map Latched.val).getD 0

/-- The low bits of a value that a type's operand holds: 32, or all 64. -/
def cut (t : Ty) (v : Word) : Word := if t.is64 then v else BitVec.ofNat 64 (v.toNat % 2 ^ 32)

/-- A source of a lane under a type: 64 bits for a 64-bit type, otherwise 32 zero-extended. -/
def read (c : Ctx) (t : Ty) (o : Opd) (lane : Nat) : Word :=
  match o with
  | .v n =>
    if c.isP then cut t (c.sReg n.toNat)
    else if t.is64 then ((c.v32 (n.toNat + 1) lane ++ c.v32 n.toNat lane : BitVec 64))
    else BitVec.ofNat 64 (c.v32 n.toNat lane).toNat
  | .x n => cut t (if n.toNat < 3 then c.latch n.toNat lane else c.special n.toNat lane)
  | .k k => constVal t k
  | .g n => cut t (c.gReg n.toNat)

/-- A source as a number. -/
def rd (c : Ctx) (t : Ty) (o : Opd) (lane : Nat) : Nat := (c.read t o lane).toNat

/-- A destination of a lane under a type: a 32-bit result zero-extends in a g or s register (R99, R358). -/
def write (c : Ctx) (t : Ty) (o : Opd) (lane : Nat) (v : Word) (s : State) : State :=
  match o with
  | .v n =>
    if c.isP then c.setSReg n.toNat (cut t v) s
    else
      let s := c.setV32 n.toNat lane (v.extractLsb' 0 32) s
      if t.is64 then c.setV32 (n.toNat + 1) lane (v.extractLsb' 32 32) s else s
  | .g n => c.setGReg n.toNat (cut t v) s
  | _ => s

/-- A predicate of a lane: the field's [3:0] names p0 to p15 (R56). -/
def pred (c : Ctx) (f : PField) (lane : Nat) : Bool := (predBits c.crew c.sid c.t lane).getLsbD (f.toNat % 16)

def setPred (c : Ctx) (f : PField) (lane : Nat) (v : Bool) (s : State) : State := s.setPred c.id c.sid lane (f.toNat % 16) v

/-- The registers of a group of n that starts at a specifier, low register first (R260, R382). -/
def readGroup (c : Ctx) (o : Opd) (n lane : Nat) : List (BitVec 32) :=
  match o with
  | .v k => (List.range n).map fun i => c.v32 (k.toNat + i) lane
  | _ => List.replicate n 0

def writeGroupFrom (c : Ctx) (k lane : Nat) : List (BitVec 32) → State → State
  | [], s => s
  | v :: l, s => c.writeGroupFrom (k + 1) lane l (c.setV32 k lane v s)

def writeGroup (c : Ctx) (o : Opd) (lane : Nat) (l : List (BitVec 32)) (s : State) : State :=
  match o with
  | .v k => c.writeGroupFrom k.toNat lane l s
  | _ => s

/-- An effect in each guarded lane, ascending; sources are read from the state before the word. -/
def forLanes (c : Ctx) (f : Nat → State → State) (s : State) : State := c.ls.foldl (fun s l => f l s) s

/-- The common loop of R129: D of each guarded lane receives a function of the lane's sources. -/
def map (c : Ctx) (t : Ty) (d : Opd) (f : Nat → Nat) : Out :=
  .done (c.forLanes (fun l s => c.write t d l (BitVec.ofNat 64 (f l)) s) c.s0)

/-- A predicate destination in each guarded lane. -/
def mapPred (c : Ctx) (d : PField) (f : Nat → Bool) : Out := .done (c.forLanes (fun l s => c.setPred d l (f l) s) c.s0)

end Ctx

/-- Type in which HL reads a held source of each width (R59: the full-width operand as read). -/
def holdTy (w64 : Bool) : Ty := if w64 then .n64 else .n32

end Sys2Proof.Machine
end

