-- ==== Sys2Proof/Machine/Flags.lean ====
section
/-! DEFINITION. Flags: the sticky conversion flags of a thread (R115), and the sticky status bits of a tile (R187). -/

namespace Sys2Proof.Machine

/-- CVTFLAG of a lane takes further flags (R115). -/
def Ctx.addCvt (c : Ctx) (lane : Nat) (f : BitVec 7) (s : State) : State :=
  s.modThread c.id c.sid lane fun h => { h with cvt := h.cvt ||| f }

/-- CVTFLAG of a lane cleared where a mask is 1 (R101). -/
def Ctx.clearCvt (c : Ctx) (lane : Nat) (m : Word) (s : State) : State :=
  s.modThread c.id c.sid lane fun h => { h with cvt := h.cvt &&& ~~~(m.extractLsb' 0 7) }

/-- Status bits of a tile (R187). -/
def stNANS : Nat := 1
def stBNAN : Nat := 2
def stRSVD : Nat := 4
def stSRCW : Nat := 8
def stLEHR : Nat := 16
def stPASS : Nat := 32

/-- A status word with further sticky bits. -/
def statusOr (w : Word) (bits : Nat) : Word := w ||| BitVec.ofNat 64 bits

/-- A status word whose bits [5:0] are cleared and whose FMT is set, as `TZERO` leaves it. -/
def statusClear (w : Word) (fmt : Nat) : Word := BitVec.ofNat 64 (wfld w 32 32 * 2 ^ 32 + fmt % 4 * 2 ^ 6)

end Sys2Proof.Machine
end

