-- ==== Sys2Proof/Machine/Check.lean ====
section
/-! DEFINITION. The checks of R64 that a word's surroundings decide: class (R51, R61), position (R47, R301), specifiers (R56, R59), view limits (R95),
tile and record indices (R174), privilege (R63); the gate of the alias view (R96, R97) and of the counters (R299); and the wrapper of every word. -/

namespace Sys2Proof.Machine

/-! ### What a word reads and writes -/

/-- One operand of a word, for the checks of R56. -/
inductive Use where
  | src (t : Ty) (o : Opd)      -- a source of a type's width
  | dst (w64 : Bool) (o : Opd)  -- a destination
  | grp (n : Nat) (o : Opd)     -- a group of n vector registers that holds several values
  | pr (f : PField)             -- a predicate field
deriving DecidableEq, Repr

/-- A shift amount's type: 32 bits, or packed like the value (R134). -/
def shiftTy (t : Ty) : Ty := if t.elems = 1 then .n32 else t

/-- The data group of a memory word (R260): a register or even pair, or a group of two or four registers. -/
def dataUse (isDst : Bool) (t : Ty) (z : Size) (o : Opd) : List Use :=
  match z with
  | .nat => [if isDst then .dst t.is64 o else .src t o]
  | .b8 | .b16 => [if isDst then .dst false o else .src .n32 o]
  | .x2 => [.grp (if t.is64 then 4 else 2) o]
  | .x4 => [.grp 4 o]

/-- The operands of a word. Sources A, B and C stand first, in that order, where HL may name them. For A and B of `TRES`, R172 lists an even pair or a latch
entry; the model takes a constant or a special register there as any other source does, and so does the base A of a Mem word (R58, R71), for which it takes a latch entry
too (DESIGN CHOICE, log 57). -/
def usesOf : Instr → List Use
  | .brx _ _ a | .ret _ _ a => [.src .n64 a]
  | .call _ _ a _ => [.dst true a]
  | .callx _ _ d a => [.src .n64 a, .dst true d]
  | .iadd _ t _ d a b | .isub _ t _ d a b => [.src t a, .src t b, .dst t.is64 d]
  | .imul _ t d a b | .imulhi _ t d a b | .imin _ t d a b | .imax _ t d a b => [.src t a, .src t b, .dst t.is64 d]
  | .imad _ t d a b c => [.src t a, .src t b, .src t c, .dst t.is64 d]
  | .iwmad _ t d a b c => [.src t a, .src t b, .src (if t == .i32 then .i64 else .n64) c, .dst true d]
  | .iabs _ t _ d a => [.src t a, .dst t.is64 d]
  | .isad _ t d a b c => [.src t a, .src t b, .src .n32 c, .dst false d]
  | .iaddi _ t _ d a _ => [.src t a, .dst t.is64 d]
  | .lea _ t _ d a b => [.src .n64 a, .src t b, .dst true d]
  | .idp4 _ t _ _ d a b c => [.src t a, .src t b, .src .n32 c, .dst false d]
  | .and _ t d a b | .or _ t d a b | .xor _ t d a b | .andn _ t d a b => [.src t a, .src t b, .dst t.is64 d]
  | .shl _ t d a b | .shr _ t d a b | .sar _ t d a b | .rot _ t d a b => [.src t a, .src (shiftTy t) b, .dst t.is64 d]
  | .bfx _ t d a b => [.src t a, .src .n32 b, .dst t.is64 d]
  | .bfi _ t d a b c => [.src t a, .src .n32 b, .src t c, .dst t.is64 d]
  | .popc _ t d a | .clz _ t d a => [.src t a, .dst false d]
  | .brev _ t d a => [.src t a, .dst t.is64 d]
  | .movi _ t d _ => [.dst t.is64 d]
  | .movhi _ t _ d a _ => [.src t a, .dst t.is64 d]
  | .icmp _ t _ d a b => [.src t a, .src t b, .pr d]
  | .plop _ _ d a b c => [.pr a, .pr b, .pr c, .pr d]
  | .sel _ t d a b c => [.src t a, .src t b, .pr c, .dst t.is64 d]
  | .mov _ t d a => [.src t a, .dst t.is64 d]
  | .shfl _ t _ d a b c => [.src t a, .src .n32 b, .src .n32 c, .dst t.is64 d]
  | .vote _ t _ d a | .matchl _ t d a => [.src t a, .dst false d]
  | .lred _ t _ d a => [.src t a, .dst t.is64 d]
  | .p2v _ t _ d a => [.pr a, .dst t.is64 d]
  | .v2p _ t d a => [.src t a, .pr d]
  | .fadd _ t _ d a b | .fsub _ t _ d a b | .fmul _ t _ d a b | .fdiv _ t _ d a b => [.src t a, .src t b, .dst t.is64 d]
  | .ffma _ t _ d a b c => [.src t a, .src t b, .src t c, .dst t.is64 d]
  | .fmin _ t d a b | .fmax _ t d a b => [.src t a, .src t b, .dst t.is64 d]
  | .fcmp _ t _ d a b => [.src t a, .src t b, .pr d]
  | .fclass _ t d a b => [.src t a, .src .n32 b, .pr d]
  | .fsqrt _ t _ d a | .frint _ t _ d a => [.src t a, .dst t.is64 d]
  | .fabs _ t d a | .fneg _ t d a => [.src t a, .dst t.is64 d]
  | .fdot _ t _ d a b c => [.src t a, .src t b, .src .f32 c, .dst false d]
  | .fexp2 _ t d a | .flog2 _ t d a | .fsin _ t d a | .fcos _ t d a | .frsq _ t d a | .frcp _ t d a | .ftanh _ t d a => [.src t a, .dst false d]
  | .cvt _ t _ d a _ f => [.src t a, .dst ((Ty.ofCode f).map Ty.is64 |>.getD false) d]
  | .cvtn _ t _ _ d a _ _ => [.src t a, .src .n32 d, .dst false d]
  | .cvtw _ t _ d a _ _ => [.src .n32 a, .dst t.is64 d]
  | .ld _ t m d a _ _ => .src .n64 a :: dataUse true t (MemSize m) d
  | .st _ t m tag d a _ _ => .src .n64 a :: (dataUse false t (MemSize m) d ++ if tag then dataUse true t (MemSize m) d else [])
  | .lds _ t z d a _ | .ldrs _ t z d a _ => .src .n64 a :: dataUse true t z d
  | .sts _ t z d a _ | .strs _ t z d a _ => .src .n64 a :: dataUse false t z d
  | .pref _ _ a _ _ => [.src .n64 a]
  | .pin _ d a _ => [.src .n64 a, .dst false d]
  | .unpin _ a _ | .cctlEvict _ a _ | .cctlFlush _ a _ => [.src .n64 a]
  | .rrot _ _ a b _ => [.src .n32 a, .src .n32 b]
  | .atom _ t _ d a b => [.src .n64 a, .src t b, .dst t.is64 d]
  | .acas _ t d a b c => [.src .n64 a, .src t b, .src t c, .dst t.is64 d]
  | .gsadd _ a b => [.src .n64 a, .src .f32 b]
  | .gsflush _ a b => [.src .n64 a, .src .n32 b]
  | .barSync _ b _ | .barArv _ b _ | .cbarSync _ b _ | .cbarArv _ b _ => [.src .n32 b]
  | .tbinit _ a b | .tbexpect _ a b | .tbwait _ _ a b => [.src .n32 a, .src .n32 b]
  | .tbarriveLane _ _ a | .tbarrivePath _ _ a => [.src .n32 a]
  | .spawn _ d a b => [.src .n64 a, .src .n32 b, .dst false d]
  | .join _ a => [.src .n64 a]
  | .qres _ d a b => [.src .n32 a, .src .n32 b, .dst true d]
  | .qcommit _ a b c => [.src .n64 a, .src .n32 b, .src .n32 c]
  | .qpop _ t d _ => [.dst t.is64 d]
  | .qpeek _ d _ => [.dst false d]
  | .trec _ t a => [.src t a]
  | .tspanRc _ a b | .tspanArea _ a b => [.src .n64 a, .src .n32 b]
  | .tpop _ t d => [.dst t.is64 d]
  | .raygen _ d a b c => [.src .n64 a, .src .n32 b, .src .n32 c, .grp 6 d]
  | .trace _ d a b => [.grp 6 a, .grp 4 b, .grp 6 d]
  | .traceAdjTri _ a b c | .traceAdjPatch _ a b c => [.grp 6 a, .grp 4 b, .grp 4 c]
  | .tsamp _ d a b c => [.src .n64 a, .grp 2 b, .src .n32 c, .dst false d]
  | .tsampAdj _ d a b c => [.src .n64 a, .grp 2 b, .src .n32 c, .grp 4 d]
  | .esamp _ d a b c => [.grp 4 a, .src .n32 b, .src .n32 c, .grp 6 d]
  | .tres _ _ a b => [.src .n64 a, .src .n64 b]
  | .snap _ a => [.src .n32 a]
  | .wrsr _ t _ a => [.src t a]
  | .sld _ t _ inc d a _ => .src .n64 a :: .dst t.is64 d :: (if inc then [.dst true a] else [])
  | .qpush _ a _ => [.src .n64 a]
  | .sloop _ a _ => [.src .n32 a]
  | _ => []

/-! ### Class and position -/

/-- The classes that admit a word (R61, with R307 for `TBARRIVE.lane` and R260 for `.x2` and `.x4`). -/
def admits (cls : Class) : Instr → Bool
  | .nop .. | .exit .. | .trap .. | .brk .. => true
  | .bra .. | .brx .. | .call .. | .callx .. | .ret .. | .yield .. => cls != .s
  | .idp4 .. | .fdiv .. | .fsqrt .. | .frint .. | .fdot .. | .cvtn .. | .cvtw .. => cls != .g
  | .shfl .. | .vote .. | .matchl .. | .lred .. | .p2v .. | .v2p .. => cls == .a || cls == .m
  | .fexp2 .. | .flog2 .. | .fsin .. | .fcos .. | .frsq .. | .frcp .. | .ftanh .. => cls == .a || cls == .m
  | .ld _ _ m .. | .st _ _ m .. => cls == .m || (cls == .g && MemSize m != .x2 && MemSize m != .x4)
  | .lds .. | .sts .. | .ldrs .. | .strs .. | .pref .. | .rrot .. | .gsadd .. => cls == .m
  | .pin .. | .unpin .. | .cctlIinv .. | .cctlL1 .. | .cctlEvict .. | .cctlFlush .. | .fence .. | .atom .. | .acas .. | .gsflush .. | .gsflushAll .. =>
    cls == .m || cls == .g
  | .wait .. | .hret .. | .snap .. => cls != .s
  | .barSync .. | .barArv .. | .cbarSync .. | .cbarArv .. | .tbarriveLane .. => cls == .m
  | .tbinit .. | .tbarrivePath .. | .tbexpect .. | .tbwait .. | .spawn .. | .join .. | .qres .. | .qcommit .. | .wrsr .. => cls == .m || cls == .g
  | .qpop .. | .qpeek .. | .trec .. | .tspan .. | .tspanRc .. | .tspanArea .. | .tpop .. | .tret .. | .raygen .. | .trace .. | .traceAdjTri ..
  | .traceAdjPatch .. | .tsamp .. | .tsampAdj .. | .esamp .. | .tres .. => cls == .m
  | .tfetch .. | .tlds .. | .tmma .. | .tzero .. | .tcvt .. | .tstbEnt .. | .tstbFull .. | .tldbEnt .. | .tldbFull .. | .tbsetThr .. | .tbsetHdr ..
  | .tbsetAll .. | .tsave .. | .tresumeCont .. | .tresumeWide .. | .tresumeRestart .. => cls == .g
  | .sld .. | .qpush .. | .sloop .. => cls == .s
  | i => i.isWord

/-- The transfer words (R47). -/
def isTransfer : Instr → Bool
  | .bra .. | .brx .. | .call .. | .callx .. | .ret .. | .exit .. | .hret .. | .tret .. | .sloop .. => true
  | _ => false

/-- Words that stand at position 0 of their clause: the waiting words (R301, R363) and `RROT` (R269). -/
def isFirst : Instr → Bool
  | .wait .. | .barSync .. | .cbarSync .. | .tbwait .. | .qpop .. | .rrot .. => true
  | _ => false

/-! ### Specifiers -/

/-- Width and classes of a special register (R100): none for a number that the table does not list. -/
def specialClasses (k : Nat) : Option (List Class) :=
  match k with
  | 16 | 17 | 20 | 24 | 25 | 28 | 29 | 38 => some [.a, .m, .s]
  | 18 | 19 | 21 | 22 | 23 | 26 | 27 | 30 | 32 | 33 => some [.a, .m, .g, .s]
  | 31 | 40 | 41 | 42 | 43 => some [.a, .m, .g]
  | 34 | 35 | 36 | 37 => some [.a, .m]
  | 39 => some [.g]
  | _ => none

namespace Ctx

/-- HL of the word at a position of the clause. -/
def hlAt (c : Ctx) (i : Nat) : Nat := ((c.cl.words[i]?).map fun w => wfld w 40 2).getD 0

/-- The word at a position is a `TPOP`: what a word before it held is not read after it (R381). -/
def popAt (c : Ctx) (i : Nat) : Bool := ((c.cl.words[i]?).map fun w => wfld w 56 8 == 0xAA).getD false

/-- Latch entry e lies in its window (R59): the word at one of the two positions before held a source into it. -/
def latchOpen (c : Ctx) (e : Nat) : Bool :=
  (1 ≤ c.pos && (c.pos - 1) % 3 == e && c.hlAt (c.pos - 1) ≠ 0)
    || (2 ≤ c.pos && (c.pos - 2) % 3 == e && c.hlAt (c.pos - 2) ≠ 0 && !c.popAt (c.pos - 1))

/-- Cause of n vector registers from k on, aligned to `al` (R56, R95, R358): 3 outside A and M, or misaligned; 4 past the view. -/
def checkV (c : Ctx) (k n al : Nat) : Option Nat :=
  if c.isG then some 3
  else if c.isP then (if c.crew.desc.scratch < 1280 || 30 < k then some 4 else none)
  else if k % al ≠ 0 then some 3
  else if k + n > (if c.inH then 8 else c.crew.desc.w0lim) then some 4
  else none

/-- Cause of a Gaffer register specifier. -/
def checkG (c : Ctx) (n : Nat) : Option Nat := if !c.isG then some 3 else if n > 63 then some 4 else none

/-- Cause of one operand (R56, R59). -/
def checkUse (c : Ctx) : Use → Option Nat
  | .src t (.v k) => c.checkV k.toNat (if t.is64 then 2 else 1) (if t.is64 then 2 else 1)
  | .src _ (.x k) =>
    if k.toNat < 3 then (if c.latchOpen k.toNat then none else some 3)
    else match specialClasses k.toNat with
      | some l => if l.contains c.cls then none else some 3
      | none => some 3
  | .src _ (.k _) => none
  | .src _ (.g k) => c.checkG k.toNat
  | .dst w64 (.v k) => c.checkV k.toNat (if w64 then 2 else 1) (if w64 then 2 else 1)
  | .dst _ (.g k) => c.checkG k.toNat
  | .dst _ _ => some 3
  | .grp n (.v k) => if c.isP then some 3 else c.checkV k.toNat n (if n = 4 then 4 else 2)
  | .grp _ _ => some 3
  | .pr f => if f.extractLsb' 4 6 = 0 then none else some 3

/-- The least cause of a list: 3 before 4 when one specifier breaks both (R64). -/
def checkUses (c : Ctx) (l : List Use) : Option Nat :=
  let ks := l.filterMap c.checkUse
  if ks.contains 3 then some 3 else if ks.contains 4 then some 4 else none

/-- Tiles of the teams of the crew (R94). -/
def tiles (c : Ctx) (rank : Nat) : Nat := ((c.crew.teams[rank]?).map fun t => tileCount t.slots).getD 0

/-- Cause of the rank, tile and records of a tile word (R174): 3, then 4. -/
def checkTile (c : Ctx) (core : BitVec 2) (tile : Option (BitVec 4)) (recs : List (BitVec 5)) : Option Nat :=
  if c.crew.teams.length ≤ core.toNat then some 3
  else
    let n := c.tiles core.toNat
    if (match tile with | some i => n ≤ i.toNat | none => false) || recs.any (fun r => 2 * n ≤ r.toNat) then some 4 else none

/-- Checks of a word by its own description (R65, R101, R172, R174, R304, R358). -/
def checkOwn (c : Ctx) : Instr → Option Nat
  | .cbarSync _ _ n | .cbarArv _ _ n => if n.toNat < 4 then none else some 4
  | .tres _ n _ _ => if 2 * c.tiles c.rank ≤ n.toNat then some 4 else none
  | .tfetch _ _ k _ r _ | .tlds _ _ k _ r _ => c.checkTile k none [r]
  | .tmma _ k i a b _ _ _ _ _ => c.checkTile k (some i) [a, b]
  | .tzero _ _ k i | .tcvt _ _ k i _ _ | .tstbEnt _ k i _ | .tstbFull _ k i _ | .tldbEnt _ k i _ | .tldbFull _ k i _ | .tbsetThr _ k i _
  | .tbsetHdr _ k i _ | .tbsetAll _ k i _ | .tsave _ k i _ | .tresumeCont _ _ k i _ | .tresumeWide _ _ k i _ | .tresumeRestart _ _ k i _ =>
    c.checkTile k (some i) []
  | .wrsr _ _ d _ =>
    let k := d.toNat % 256
    let ok := match specialClasses k with
      | some l => l.contains c.cls
      | none => false
    if d.toNat / 256 ≠ 1 || !ok || !([29, 31, 36, 38, 40, 41, 42].contains k) || (40 ≤ k && !c.inH) then some 3 else none
  | .qpush .. | .qpop .. | .qpeek .. => if c.crew.desc.scratch < 1280 then some 4 else none
  | _ => none

/-- Privilege (R63): cause 5 in a crew whose descriptor is not privileged. -/
def checkPriv (c : Ctx) : Instr → Option Nat
  | .tsave .. | .tresumeCont .. | .tresumeWide .. | .tresumeRestart .. => if c.crew.desc.priv then none else some 5
  | .wrsr _ _ d _ => if (d.toNat % 256 = 40 || d.toNat % 256 = 41) && !c.crew.desc.priv then some 5 else none
  | _ => none

/-- The checks of R64 beyond the word itself, in their order; the first that fails decides. -/
def check (c : Ctx) (i : Instr) : Option Nat :=
  if !admits c.cls i || (isTransfer i && c.pos ≠ c.cl.head.count) || (isFirst i && c.pos ≠ 0) || (match i with | .hret .. => !c.inH | _ => false) then some 2
  else match c.checkUses (usesOf i), c.checkOwn i with
    | some 3, _ => some 3
    | _, some 3 => some 3
    | some k, _ => some k
    | none, some k => some k
    | none, none => c.checkPriv i

/-! ### The alias view and the counters -/

/-- Vector registers that an operand names. -/
def useRegs : Use → List Nat
  | .src t (.v k) => if t.is64 then [k.toNat, k.toNat + 1] else [k.toNat]
  | .dst w (.v k) => if w then [k.toNat, k.toNat + 1] else [k.toNat]
  | .grp n (.v k) => (List.range n).map (k.toNat + ·)
  | _ => []

/-- Vector registers that a word writes after it has issued, when its access completes (R263, R300), `LDRS` where it is performed again (R207)
and `TPOP` where it needs a refill (R378). -/
def lateRegs : Instr → List Nat
  | .ld _ t m d .. | .st _ t m true d .. => ((dataUse true t (MemSize m) d).map useRegs).flatten
  | .lds _ t z d .. | .ldrs _ t z d .. => ((dataUse true t z d).map useRegs).flatten
  | .tpop _ t d => useRegs (.dst t.is64 d)
  | .atom _ t _ d .. | .acas _ t d .. => useRegs (.dst t.is64 d)
  | .pin _ d .. | .tsamp _ d .. => useRegs (.dst false d)
  | .raygen _ d .. | .trace _ d .. | .esamp _ d .. => useRegs (.grp 6 d)
  | _ => []

/-- The operand that HL names (R59). -/
def heldUse (i : Instr) : Option Use :=
  let us := usesOf i
  match i.pre.hl.toNat with
  | 1 => us[0]?
  | 2 => match i with
    | .barSync .. | .barArv .. | .cbarSync .. | .cbarArv .. => us[0]?
    | _ => us[1]?
  | 3 => us[2]?
  | _ => none

/-- The word accesses registers of the alias view: in its guarded lanes, and where HL holds a source in every lane (R59). -/
def usesAlias (c : Ctx) (i : Instr) : Bool :=
  (if c.act != 0 then ((usesOf i).map useRegs).flatten else ((heldUse i).map useRegs).getD []).any c.aliased

/-- A tile of the team has an operation that was accepted and has not retired (R97, R183). -/
def tileBusy (c : Ctx) (rank tile : Nat) : Bool :=
  ((c.crew.teams[rank]?).map fun t => t.ops.any (fun o => o.tile == tile) || (t.tile tile).susp.isSome).getD false

/-- The alias access of a word raises (odd base under an FP64 tile, R96) or stalls (R97). -/
def aliasGate (c : Ctx) (i : Instr) : Option Out :=
  if !c.usesAlias i then none
  else
    let k := w2Tile c.t.w2
    if ((c.team.map fun t => (t.tile k).fmt).getD 0) = 1 && w2Base c.t.w2 % 2 = 1 && c.act != 0 then
      some (.raise c.s0 0 (c.ls.map fun l => { lane := l, cause := 3, addr := 0, kind := 0 }))
    else if c.tileBusy c.rank k then some .stall
    else none

/-! ### The wrapper -/

/-- The held value of each lane (R59). -/
def holdOf (c : Ctx) (i : Instr) : Option (Nat → Word) :=
  match heldUse i with
  | some (.src t o) => some fun l => c.read t o l
  | some (.pr f) => some fun l => BitVec.ofNat 64 (b2n (c.pred f l))
  | _ => none

/-- Issue a word: checks, gate, effect, and what follows it. -/
def run (c : Ctx) (i : Instr) (body : Ctx → Out) : State :=
  match c.check i with
  | some k => c.trapWord (c.issued c.s0) 1 (c.allLanes k)
  | none => match c.aliasGate i with
    | some o => c.finish (c.holdOf i) o
    | none => c.finish (c.holdOf i) (body c)

end Ctx

/-- The frame of every meaning of a word: with no granted stream there is nothing to run it. -/
def word (i : Instr) (s : State) (body : Ctx → Out) : Host.Outcome State Fault Refusal :=
  match s.ctx? i.pre with
  | none => .fault .noStream
  | some c => .next (c.run i body)

/-- Lanes that raise a cause that names no address. -/
def raiseAll (c : Ctx) (kind cause : Nat) : Out := .raise c.s0 kind (c.ls.map fun l => { lane := l, cause := cause, addr := 0, kind := 0 })

end Sys2Proof.Machine
end

