-- ==== Sys2Proof/Machine/Control.lean ====
section
/-! DEFINITION. Control transfer (R161 to R168), and the words that trap or return (R204, R205). -/

namespace Sys2Proof.Machine

/-- One TRANSFER record for each target that guarded lanes take (R322). A RET gives the same KIND, of which R313 lists one for transfers (DEDUCED, log 55). -/
def Ctx.traceTransfer (c : Ctx) (tgt : Nat → Word) (s : State) : State :=
  if s.tracedStream c.crew c.sid then
    (dedup (c.ls.map tgt)).foldl (fun s a =>
      let m := lanesFrom (c.ls.filter fun l => tgt l == a)
      s.emit c.die 3 (c.crew.who c.sid (lowLane m)) [a, BitVec.ofNat 64 m.toNat]) s
  else s

/-- Next address of a lane (R161): its target where the guard is true, else the fall-through. -/
def Ctx.nextOf (c : Ctx) (tgt : Nat → Word) (l : Nat) : Word := if c.act.getLsbD l then tgt l else c.fall

/-- Lanes that raise at a transfer word: cause 7 for an indirect target that is not 8-aligned, cause 11 where UB is broken (R32, R161). -/
def Ctx.transferFaults (c : Ctx) (uni : Bool) (tgt : Nat → Word) : List LaneFault :=
  let bad := (c.ls.filter fun l => (tgt l).extractLsb' 0 3 != 0).map fun l => ({ lane := l, cause := 7, addr := tgt l, kind := 0 } : LaneFault)
  let all := lanesOf c.lanes
  let first := c.nextOf tgt (lowLane c.lanes)
  let dif := if uni then (all.filter fun l => c.nextOf tgt l != first).map fun l => ({ lane := l, cause := 11, addr := 0, kind := 0 } : LaneFault) else []
  bad ++ dif

/-- A transfer word (R161): no effect when any lane raises; otherwise `eff` writes the links and every lane goes to its next address. -/
def Ctx.transfer (c : Ctx) (uni : Bool) (tgt : Nat → Word) (eff : State → State) : Out :=
  match c.transferFaults uni tgt with
  | [] => .jump (c.traceTransfer tgt (eff c.s0)) ((lanesOf c.lanes).map fun l => (l, c.nextOf tgt l))
  | fs => .raise c.s0 1 fs

/-- Target of a relative transfer (R58). -/
def Ctx.relTarget (c : Ctx) (off : BitVec 30) : Word := c.addr + (off.signExtend 64 <<< 3)

/-- The link destination and RLINK receive the fall-through in each guarded lane (R164). -/
def Ctx.link (c : Ctx) (d : Opd) : State → State :=
  c.forLanes fun l s => (c.write .n64 d l c.fall s).modThread c.id c.sid l fun h => { h with rlink := c.fall }

/-- NOP (R167). -/
def execNop (p : Pre) (s : State) : Host.Outcome State Fault Refusal := word (.nop p) s fun c => .done c.s0

/-- BRA (R162). -/
def execBra (p : Pre) (uni : Bool) (off : BitVec 30) (s : State) : Host.Outcome State Fault Refusal :=
  word (.bra p uni off) s fun c => c.transfer uni (fun _ => c.relTarget off) fun s => s

/-- BRX (R163). -/
def execBrx (p : Pre) (uni : Bool) (a : Opd) (s : State) : Host.Outcome State Fault Refusal :=
  word (.brx p uni a) s fun c => c.transfer uni (c.read .n64 a) fun s => s

/-- CALL (R164). -/
def execCall (p : Pre) (uni : Bool) (a : Opd) (off : BitVec 30) (s : State) : Host.Outcome State Fault Refusal :=
  word (.call p uni a off) s fun c => c.transfer uni (fun _ => c.relTarget off) (c.link a)

/-- CALLX (R164): A is read before D is written. -/
def execCallx (p : Pre) (uni : Bool) (d a : Opd) (s : State) : Host.Outcome State Fault Refusal :=
  word (.callx p uni d a) s fun c => c.transfer uni (c.read .n64 a) (c.link d)

/-- RET (R163). -/
def execRet (p : Pre) (uni : Bool) (a : Opd) (s : State) : Host.Outcome State Fault Refusal :=
  word (.ret p uni a) s fun c => c.transfer uni (c.read .n64 a) fun s => s

/-- YIELD (R165): the path's turn ends at the clause boundary; no effect in a Gaffer context. -/
def execYield (p : Pre) (s : State) : Host.Outcome State Fault Refusal :=
  word (.yield p) s fun c =>
    .done (if c.act = 0 || c.isG then c.s0 else c.modP c.s0 fun q => { q with yielded := true })

/-- Lanes of the issuing path that stay after the guarded ones leave, at the fall-through. -/
def Ctx.stay (c : Ctx) : List (Nat × Word) := (lanesOf (c.lanes &&& ~~~c.act)).map fun l => (l, c.fall)

/-- An operation lets go of the steps that it claimed, and of their pins (R180); its count leaves the tile counter (R183). -/
def State.releaseOp (s : State) (crew r op : Nat) : State :=
  match s.team? crew r with
  | none => s
  | some tm =>
    let ids := (tm.steps.filter fun x => x.op == some op).map Staged.id
    let s := { s with pins := s.pins.filter fun q => match q.holder with
      | .tile c r' st => !(c == crew && r' == r && ids.contains st)
      | _ => true }
    (s.modTeam crew r fun tm => { tm with steps := tm.steps.filter fun x => x.op != some op }).modStrand crew .gaffer fun t => t.lower ⟨0, 0, 0, 1⟩

/-- A Gaffer context that ends gives up every Suspended operation of its crew: its pins, its count; the tile keeps its partial elements (R183). -/
def State.dropSuspended (s : State) (crew : Nat) : State :=
  match s.crew? crew with
  | none => s
  | some c =>
    let ops := (c.teams.map fun t => t.tiles.filterMap fun x => x.susp.map fun o => (t.rank, o.id)).flatten
    let s := ops.foldl (fun s q => s.releaseOp crew q.1 q.2) s
    s.modCrew crew fun c => { c with teams := c.teams.map fun t => { t with tiles := t.tiles.map fun x => { x with susp := none } } }

/-- EXIT (R166). -/
def execExit (p : Pre) (s : State) : Host.Outcome State Fault Refusal :=
  word (.exit p) s fun c =>
    let s := c.s0.exitLanes c.id c.sid c.act
    .jump (if c.isG && c.act != 0 then s.dropSuspended c.id else s) c.stay

/-- TRAP (R204): the word completes and raises cause 15 behind itself. -/
def execTrap (p : Pre) (imm : BitVec 20) (s : State) : Host.Outcome State Fault Refusal :=
  word (.trap p imm) s fun c => if c.act = 0 then .done c.s0 else .soft c.s0 15 (imm.setWidth 64)

/-- BRK (R204): cause 14. -/
def execBrk (p : Pre) (imm : BitVec 20) (s : State) : Host.Outcome State Fault Refusal :=
  word (.brk p imm) s fun c => if c.act = 0 then .done c.s0 else .soft c.s0 14 (imm.setWidth 64)

/-- HRET (R205): guarded lanes leave the handler path; when none is left the stream returns. A return address that is not 8-aligned raises cause 7 (R47). -/
def execHret (p : Pre) (s : State) : Host.Outcome State Fault Refusal :=
  word (.hret p) s fun c =>
    match c.transferFaults false fun _ => c.t.trap.pc with
    | [] => .jump (c.traceTransfer (fun _ => c.t.trap.pc) c.s0) c.stay
    | fs => .raise c.s0 1 fs

end Sys2Proof.Machine
end

