-- ==== Sys2Proof/Machine/Port.lean ====
section
/-! DEFINITION. Sending and receiving ports, replay windows and back-off (R341, R342). Receiving ports have the numbers of R342; those of sending ports are the
model's (log 66). -/

namespace Sys2Proof.Machine

/-! ### Sending ports -/

/-- The sending port of a core; core 4 stands for a cluster's Gaffer contexts, and core 5 for its tape engine. -/
def corePort (c : CoreId) : Nat := (c.die * 256 + c.cluster) * 8 + c.core

/-- The sending port of a core's Punty slot, for its pushes (R360). -/
def puntyPort (c : CoreId) : Nat := 2 ^ 19 + corePort c

/-- The port by which an ordering point answers. -/
def Point.port (p : Point) (core : CoreId) : Nat :=
  2 ^ 18 + match p with
    | .slice d k => 256 * d + k
    | .mslice d m => 256 * d + 64 + m
    | .lpddr d => 256 * d + 128
    | .aperture d => 256 * d + 129
    | .pcie => 1024
    | .peer k => 1025 + k
    | .pad _ _ => 2048 + 256 * core.die + core.cluster

/-- The sending port of a message. -/
def Msg.sender (m : Msg) : Nat :=
  if m.phase == .back then m.point.port m.core else corePort (if m.kind == .spill then { m.core with core := 5 } else m.core)

/-- Two messages of a port go to one receiver. -/
def Msg.sameReceiver (m o : Msg) : Bool := if m.phase == .back then m.core == o.core else m.point == o.point

/-- The die of a sending port. -/
def portDie (m : Msg) : Nat := if m.phase == .back then (m.point.dieOf).getD m.core.die else m.core.die

/-! ### Back-off (R342) -/

/-- Clocks before the k-th resend of a message (R342). -/
def backoffClocks (r : Word) (k : Nat) : Nat := (max 1 (wfld r 0 8)) * 2 ^ min (k - 1) (wfld r 8 4)

/-- The clock of a die from which what has been refused for the k-th time may be sent again. -/
def State.resendAt (s : State) (die k : Nat) : Nat := s.clk die + backoffClocks (s.die die).backoff k

/-- A unit that refuses counts the drop at its receiving port; the units that R342 does not number count none. -/
def State.countDrop (s : State) (p : Point) : State :=
  match p with
  | .slice d k => s.addCounter d (0x8000 + 8 * (64 + k)) 1
  | .mslice d m => s.addCounter d (0x8000 + 8 * (128 + m)) 1
  | _ => s

/-! ### Refused joins and pushes (R334, R360) -/

def Replay.isFor (r : Replay) (crew : Nat) (sid : Option Sid) (lane : Nat) : Bool := r.crew == crew && r.sid == sid && r.lane == lane

def State.replay? (s : State) (crew : Nat) (sid : Option Sid) (lane : Nat) : Option Replay := s.replays.find? fun r => r.isFor crew sid lane

/-- One more refusal of a join or push. -/
def State.refused (s : State) (port die crew : Nat) (sid : Option Sid) (lane : Nat) : State :=
  let k := ((s.replay? crew sid lane).map Replay.tries).getD 0 + 1
  { s with replays := { port := port, crew := crew, sid := sid, lane := lane, tries := k, due := s.resendAt die k } :: s.replays.filter fun r => !r.isFor crew sid lane }

/-- A join or push has been accepted. -/
def State.served (s : State) (crew : Nat) (sid : Option Sid) (lane : Nat) : State :=
  { s with replays := s.replays.filter fun r => !r.isFor crew sid lane }

/-- A refused join still waits: its crew is Exiting, or its lane stands at the word. -/
def State.joinWaits (s : State) (r : Replay) : Bool :=
  match s.crew? r.crew, r.sid with
  | some c, none => c.exiting
  | some c, some sid => (c.strand? sid).any fun t => t.paths.any fun p => p.lanes.getLsbD r.lane && p.only.isSome
  | none, _ => false

/-! ### Replay windows (R341) -/

/-- Messages of a port that their receivers have not accepted, in the order they were sent. -/
def State.window (s : State) (port : Nat) : List Msg := s.msgs.filter fun m => m.sender == port && m.phase != .posted && !m.accepted

/-- What fills a port's window: unaccepted messages, and refused joins. -/
def State.inWindow (s : State) (port : Nat) : Nat := (s.window port).length + (s.replays.filter fun r => r.port == port && s.joinWaits r).length

/-- A port whose window is full accepts nothing further from its source (R341). Which of its messages have been accepted meanwhile the spec leaves open: a free
choice (log 66). -/
def State.portRoom (s : State) (port : Nat) : Bool × State :=
  if s.inWindow port < 8 then (true, s)
  else
    let s := ((s.window port).filter fun m => !m.held).foldl (fun s m =>
      let (b, s) := s.drawBit
      if b then { s with msgs := mapIf (fun x => x.id == m.id) (fun x => { x with accepted := true }) s.msgs } else s) s
    (s.inWindow port < 8, s)

/-- A join may be sent: the port has room for a new one, or a refused one has waited its back-off. -/
def State.joinMay (s : State) (port die crew : Nat) (sid : Option Sid) (lane : Nat) : Bool × State :=
  match s.replay? crew sid lane with
  | some r => (decide (r.due ≤ s.clk die), s)
  | none => s.portRoom port

end Sys2Proof.Machine
end

