-- ==== Sys2Proof/Machine/Integer.lean ====
section
/-! DEFINITION. Integer, bit, move and predicate instructions (R128 to R143). -/

namespace Sys2Proof.Machine

/-- `Val` (R129): element i of a value, two's complement for i-types, unsigned for n-types. -/
def elemVal (t : Ty) (x i : Nat) : Int :=
  let e := fld x (t.ebits * i) t.ebits
  if t.isSigned then sext t.ebits e else e

/-- `Put` (R129): the low bits of a result, or with `sat` the result clamped to the element's range. -/
def putElem (t : Ty) (sat : Bool) (y : Int) : Nat :=
  let e := t.ebits
  if sat then
    let lo : Int := if t.isSigned then -(2 ^ (e - 1) : Nat) else 0
    let hi : Int := if t.isSigned then (2 ^ (e - 1) : Nat) - 1 else (2 ^ e : Nat) - 1
    wrapNat e (max lo (min hi y))
  else wrapNat e y

/-- Elements of results joined into one value. -/
def joinElems (t : Ty) (f : Nat → Nat) : Nat := ((List.range t.elems).map fun i => f i * 2 ^ (t.ebits * i)).sum

/-- The loop of R129 over the elements of two or three sources. -/
def Ctx.elemwise (c : Ctx) (t : Ty) (sat : Bool) (d : Opd) (f : Nat → Nat → Int) : Out :=
  c.map t d fun l => joinElems t fun i => putElem t sat (f l i)

/-- Element i of a source in a lane. -/
def Ctx.el (c : Ctx) (t : Ty) (o : Opd) (l i : Nat) : Int := elemVal t (c.rd t o l) i

/-- IADD (R130). -/
def execIadd (p : Pre) (t : Ty) (sat : Bool) (d a b : Opd) (s : State) : Host.Outcome State Fault Refusal :=
  word (.iadd p t sat d a b) s fun c => c.elemwise t sat d fun l i => c.el t a l i + c.el t b l i

/-- ISUB (R130). -/
def execIsub (p : Pre) (t : Ty) (sat : Bool) (d a b : Opd) (s : State) : Host.Outcome State Fault Refusal :=
  word (.isub p t sat d a b) s fun c => c.elemwise t sat d fun l i => c.el t a l i - c.el t b l i

/-- IMUL (R130). -/
def execImul (p : Pre) (t : Ty) (d a b : Opd) (s : State) : Host.Outcome State Fault Refusal :=
  word (.imul p t d a b) s fun c => c.elemwise t false d fun l i => c.el t a l i * c.el t b l i

/-- IMULHI (R130): floor of the product by 2^e. -/
def execImulhi (p : Pre) (t : Ty) (d a b : Opd) (s : State) : Host.Outcome State Fault Refusal :=
  word (.imulhi p t d a b) s fun c => c.elemwise t false d fun l i => (c.el t a l i * c.el t b l i) / (2 ^ t.ebits : Nat)

/-- IMAD (R130). -/
def execImad (p : Pre) (t : Ty) (d a b e : Opd) (s : State) : Host.Outcome State Fault Refusal :=
  word (.imad p t d a b e) s fun c => c.elemwise t false d fun l i => c.el t a l i * c.el t b l i + c.el t e l i

/-- The 64-bit type of a 32-bit one's signedness. -/
def wideTy (t : Ty) : Ty := if t == .i32 then .i64 else .n64

/-- IWMAD (R130): an exact product, 64-bit C and D. -/
def execIwmad (p : Pre) (t : Ty) (d a b e : Opd) (s : State) : Host.Outcome State Fault Refusal :=
  word (.iwmad p t d a b e) s fun c =>
    c.map (wideTy t) d fun l => wrapNat 64 (c.el t a l 0 * c.el t b l 0 + c.el (wideTy t) e l 0)

/-- IMIN (R130). -/
def execImin (p : Pre) (t : Ty) (d a b : Opd) (s : State) : Host.Outcome State Fault Refusal :=
  word (.imin p t d a b) s fun c => c.elemwise t false d fun l i => min (c.el t a l i) (c.el t b l i)

/-- IMAX (R130). -/
def execImax (p : Pre) (t : Ty) (d a b : Opd) (s : State) : Host.Outcome State Fault Refusal :=
  word (.imax p t d a b) s fun c => c.elemwise t false d fun l i => max (c.el t a l i) (c.el t b l i)

/-- IABS (R130). -/
def execIabs (p : Pre) (t : Ty) (sat : Bool) (d a : Opd) (s : State) : Host.Outcome State Fault Refusal :=
  word (.iabs p t sat d a) s fun c => c.elemwise t sat d fun l i => ((c.el t a l i).natAbs : Int)

/-- ISAD (R130): C and D are 32 bits wide. -/
def execIsad (p : Pre) (t : Ty) (d a b e : Opd) (s : State) : Host.Outcome State Fault Refusal :=
  word (.isad p t d a b e) s fun c => c.map .n32 d fun l =>
    (c.rd .n32 e l + ((List.range t.elems).map fun i => (c.el t a l i - c.el t b l i).natAbs).sum) % 2 ^ 32

/-- IADDI (R131). -/
def execIaddi (p : Pre) (t : Ty) (sat : Bool) (d a : Opd) (imm : BitVec 20) (s : State) : Host.Outcome State Fault Refusal :=
  word (.iaddi p t sat d a imm) s fun c => c.elemwise t sat d fun l i => c.el t a l i + imm.toInt

/-- LEA (R132). -/
def execLea (p : Pre) (t : Ty) (sh : BitVec 3) (d a b : Opd) (s : State) : Host.Outcome State Fault Refusal :=
  word (.lea p t sh d a b) s fun c => c.map .n64 d fun l => wrapNat 64 (c.rd .n64 a l + c.el t b l 0 * (2 ^ sh.toNat : Nat))

/-- The byte type of the other signedness. -/
def otherBytes (t : Ty) : Ty := if t == .i8x4 then .n8x4 else .i8x4

/-- IDP4 (R133). -/
def execIdp4 (p : Pre) (t : Ty) (sat xb : Bool) (d a b e : Opd) (s : State) : Host.Outcome State Fault Refusal :=
  word (.idp4 p t sat xb d a b e) s fun c => c.map .n32 d fun l =>
    let tb := if xb then otherBytes t else t
    let r : Ty := if t == .n8x4 && tb == .n8x4 then .n32 else .i32
    putElem r sat (elemVal r (c.rd .n32 e l) 0
      + ((List.range 4).map fun i => elemVal t (c.rd t a l) i * elemVal tb (c.rd t b l) i).sum)

/-! ### Logic, shifts, fields -/

/-- AND (R134). -/
def execAnd (p : Pre) (t : Ty) (d a b : Opd) (s : State) : Host.Outcome State Fault Refusal :=
  word (.and p t d a b) s fun c => c.map t d fun l => (c.read t a l &&& c.read t b l).toNat

/-- OR (R134). -/
def execOr (p : Pre) (t : Ty) (d a b : Opd) (s : State) : Host.Outcome State Fault Refusal :=
  word (.or p t d a b) s fun c => c.map t d fun l => (c.read t a l ||| c.read t b l).toNat

/-- XOR (R134). -/
def execXor (p : Pre) (t : Ty) (d a b : Opd) (s : State) : Host.Outcome State Fault Refusal :=
  word (.xor p t d a b) s fun c => c.map t d fun l => (c.read t a l ^^^ c.read t b l).toNat

/-- ANDN (R134). -/
def execAndn (p : Pre) (t : Ty) (d a b : Opd) (s : State) : Host.Outcome State Fault Refusal :=
  word (.andn p t d a b) s fun c => c.map t d fun l => (c.read t a l &&& ~~~(c.read t b l)).toNat

/-- The shift amount of element i (R134). -/
def Ctx.amount (c : Ctx) (t : Ty) (b : Opd) (l i : Nat) : Nat :=
  if t.elems = 1 then c.rd .n32 b l else fld (c.rd t b l) (t.ebits * i) t.ebits

/-- A shift of each element's bits by its amount. -/
def Ctx.shiftEach (c : Ctx) (t : Ty) (d a b : Opd) (f : Nat → Nat → Nat) : Out :=
  c.map t d fun l => joinElems t fun i => f (fld (c.rd t a l) (t.ebits * i) t.ebits) (c.amount t b l i)

def shlBits (e x n : Nat) : Nat := if n ≥ e then 0 else x * 2 ^ n % 2 ^ e
def shrBits (e x n : Nat) : Nat := if n ≥ e then 0 else x / 2 ^ n
/-- Shifted right with the top bit; every bit is the top bit when n ≥ e. -/
def sarBits (e x n : Nat) : Nat := wrapNat e (sext e x / (2 ^ (min n e) : Nat))
def rotBits (e x n : Nat) : Nat := (x * 2 ^ (n % e) + x / 2 ^ (e - n % e)) % 2 ^ e

/-- SHL (R134). -/
def execShl (p : Pre) (t : Ty) (d a b : Opd) (s : State) : Host.Outcome State Fault Refusal :=
  word (.shl p t d a b) s fun c => c.shiftEach t d a b (shlBits t.ebits)

/-- SHR (R134). -/
def execShr (p : Pre) (t : Ty) (d a b : Opd) (s : State) : Host.Outcome State Fault Refusal :=
  word (.shr p t d a b) s fun c => c.shiftEach t d a b (shrBits t.ebits)

/-- SAR (R134). -/
def execSar (p : Pre) (t : Ty) (d a b : Opd) (s : State) : Host.Outcome State Fault Refusal :=
  word (.sar p t d a b) s fun c => c.shiftEach t d a b (sarBits t.ebits)

/-- ROT (R134). -/
def execRot (p : Pre) (t : Ty) (d a b : Opd) (s : State) : Host.Outcome State Fault Refusal :=
  word (.rot p t d a b) s fun c => c.shiftEach t d a b (rotBits t.ebits)

/-- The field that BFX extracts (R135). -/
def bfxBits (t : Ty) (x b : Nat) : Nat :=
  let e := t.ebits
  let q := fld b 0 8
  let n := min (fld b 8 8) e
  if n = 0 then 0
  else if t.isSigned then wrapNat e (sext n (wrapNat n (sext e x / (2 ^ q : Nat))))
  else fld x q n

/-- BFX (R135). -/
def execBfx (p : Pre) (t : Ty) (d a b : Opd) (s : State) : Host.Outcome State Fault Refusal :=
  word (.bfx p t d a b) s fun c => c.map t d fun l => bfxBits t (c.rd t a l) (c.rd .n32 b l)

/-- The value that BFI inserts a field into (R135). -/
def bfiBits (e x b y : Nat) : Nat :=
  let q := fld b 0 8
  let n := min (fld b 8 8) (e - q)
  if q ≥ e then y else y - fld y q n * 2 ^ q + fld x 0 n * 2 ^ q

/-- BFI (R135). -/
def execBfi (p : Pre) (t : Ty) (d a b e : Opd) (s : State) : Host.Outcome State Fault Refusal :=
  word (.bfi p t d a b e) s fun c => c.map t d fun l => bfiBits t.ebits (c.rd t a l) (c.rd .n32 b l) (c.rd t e l)

/-- One bits among the low e. -/
def popBits : Nat → Nat → Nat
  | 0, _ => 0
  | e + 1, x => x % 2 + popBits e (x / 2)

/-- POPC (R136). -/
def execPopc (p : Pre) (t : Ty) (d a : Opd) (s : State) : Host.Outcome State Fault Refusal :=
  word (.popc p t d a) s fun c => c.map .n32 d fun l => popBits t.ebits (c.rd t a l)

/-- CLZ (R136). -/
def execClz (p : Pre) (t : Ty) (d a : Opd) (s : State) : Host.Outcome State Fault Refusal :=
  word (.clz p t d a) s fun c => c.map .n32 d fun l =>
    let x := c.rd t a l
    if x = 0 then t.ebits else t.ebits - 1 - Nat.log2 x

/-- The low e bits reversed. -/
def revBits : Nat → Nat → Nat
  | 0, _ => 0
  | e + 1, x => x % 2 * 2 ^ e + revBits e (x / 2)

/-- BREV (R136). -/
def execBrev (p : Pre) (t : Ty) (d a : Opd) (s : State) : Host.Outcome State Fault Refusal :=
  word (.brev p t d a) s fun c => c.map t d fun l => revBits t.ebits (c.rd t a l)

/-! ### Moves and immediates -/

/-- MOVI (R137). -/
def execMovi (p : Pre) (t : Ty) (d : Opd) (imm : BitVec 20) (s : State) : Host.Outcome State Fault Refusal :=
  word (.movi p t d imm) s fun c => c.map t d fun _ => if t.isSigned then wrapNat t.ebits imm.toInt else imm.toNat

/-- MOVHI (R138). -/
def movhiBits (e k x imm : Nat) : Nat := (x - fld x (20 * k) 20 * 2 ^ (20 * k) + imm * 2 ^ (20 * k)) % 2 ^ e

/-- MOVHI (R138). -/
def execMovhi (p : Pre) (t : Ty) (b40 : Bool) (d a : Opd) (imm : BitVec 20) (s : State) : Host.Outcome State Fault Refusal :=
  word (.movhi p t b40 d a imm) s fun c => c.map t d fun l => movhiBits t.ebits (if b40 then 2 else 1) (c.rd t a l) imm.toNat

/-- MOV (R140). -/
def execMov (p : Pre) (t : Ty) (d a : Opd) (s : State) : Host.Outcome State Fault Refusal :=
  word (.mov p t d a) s fun c => c.map t d fun l => c.rd t a l

/-- SEL (R140). -/
def execSel (p : Pre) (t : Ty) (d a b : Opd) (e : PField) (s : State) : Host.Outcome State Fault Refusal :=
  word (.sel p t d a b e) s fun c => c.map t d fun l => if c.pred e l then c.rd t a l else c.rd t b l

/-! ### Compares and predicates -/

def Cmp.holds (cc : Cmp) (a b : Int) : Bool :=
  match cc with
  | .eq => a == b | .ne => a != b | .lt => a < b | .le => a ≤ b | .gt => a > b | .ge => a ≥ b

/-- ICMP (R141). -/
def execIcmp (p : Pre) (t : Ty) (cc : Cmp) (d : PField) (a b : Opd) (s : State) : Host.Outcome State Fault Refusal :=
  word (.icmp p t cc d a b) s fun c => c.mapPred d fun l => Cmp.holds cc (c.el t a l 0) (c.el t b l 0)

/-- PLOP (R142). -/
def execPlop (p : Pre) (lut : BitVec 4) (d a b e : PField) (s : State) : Host.Outcome State Fault Refusal :=
  word (.plop p lut d a b e) s fun c => c.mapPred d fun l => lut.getLsbD (2 * b2n (c.pred a l) + b2n (c.pred b l)) && c.pred e l

/-- P2V (R143). -/
def execP2v (p : Pre) (t : Ty) (ones : Bool) (d : Opd) (a : PField) (s : State) : Host.Outcome State Fault Refusal :=
  word (.p2v p t ones d a) s fun c => c.map t d fun l => if c.pred a l then (if ones then 2 ^ t.ebits - 1 else 1) else 0

/-- V2P (R143). -/
def execV2p (p : Pre) (t : Ty) (d : PField) (a : Opd) (s : State) : Host.Outcome State Fault Refusal :=
  word (.v2p p t d a) s fun c => c.mapPred d fun l => c.rd t a l != 0

end Sys2Proof.Machine
end

