-- ==== Sys2Proof/Machine/Memory.lean ====
section
/-! DEFINITION. The memory words as they issue (R258 to R282): addresses and sizes, the operand log, register space, pins, cache control, fences.
What a logged word then does is the work of the moves of Machine/Messages.lean. -/

namespace Sys2Proof.Machine

/-! ### Sizes and register groups (R260) -/

/-- The value that a load's bytes give its registers: `.b8` and `.b16` extended to 32 bits by the type's sign. -/
def loadShape (t : Ty) (z : Size) (v : Nat) : Nat :=
  match z with
  | .b8 => if t == .i32 then wrapNat 32 (sext 8 v) else v % 2 ^ 8
  | .b16 => if t == .i32 then wrapNat 32 (sext 16 v) else v % 2 ^ 16
  | _ => v

namespace Ctx

/-- Effective address of a lane (R259). -/
def ea (c : Ctx) (a : Opd) (off : BitVec 16) (l : Nat) : Word := c.read .n64 a l + off.signExtend 64

/-- The bytes of a store's group as a number, its lowest register lowest; a constant, a latch entry, a special register or a g register gives its value (R58). -/
def groupNat (c : Ctx) (t : Ty) (z : Size) (d : Opd) (l : Nat) : Nat :=
  match d with
  | .v _ => (((List.range (sizeRegs t z)).zip (c.readGroup d (sizeRegs t z) l)).map fun x => x.2.toNat * 2 ^ (32 * x.1)).sum % 2 ^ (8 * sizeBytes t z)
  | _ => c.rd t d l % 2 ^ (8 * sizeBytes t z)

/-- A load's registers written (R93, R99, R260). -/
def putGroup (c : Ctx) (t : Ty) (z : Size) (d : Opd) (l v : Nat) (s : State) : State :=
  let x := loadShape t z v
  match d with
  | .g n => c.setGReg n.toNat (BitVec.ofNat 64 x) s
  | _ => c.writeGroup d l ((List.range (sizeRegs t z)).map fun i => BitVec.ofNat 32 (x / 2 ^ (32 * i))) s

end Ctx

/-- Low and high half of a value of up to 16 bytes. -/
def halves (v : Nat) : Word × Word := (BitVec.ofNat 64 v, BitVec.ofNat 64 (v / 2 ^ 64))

/-! ### The operand log at issue (R206, R299, R314) -/

/-- The next memory word that a core issues is sampled: one in 2^SAMPINT, none with SAMPINT 15 (R314). -/
def State.sampleDue (s : State) (c : CoreId) : Bool :=
  c.core < 4 && s.sampInt c != 15 && (assocGet s.sampling c).getD 0 % 2 ^ s.sampInt c == 0

/-- A core has issued a memory word. -/
def State.tally (s : State) (c : CoreId) : State :=
  if c.core ≥ 4 || s.sampInt c = 15 then s else { s with sampling := assocSet s.sampling c (((assocGet s.sampling c).getD 0 + 1) % 2 ^ s.sampInt c) }

/-- The sample of a word that issues: it names the path's guarded lanes, and till more is known the first of `ls`. -/
def Ctx.asSample (c : Ctx) (id : Nat) (ls : List Nat) (ea : Nat → Word) : Sample :=
  let l := (ls.getLast?).getD 0
  { crew := c.id, sid := c.sid, entry := id, core := c.core, lanes := c.act, op := wfld c.word 56 8, ea := ea l, last := l, pc := c.hdrAddr, sectors := 0, fault := false }

/-- The sampled-instruction choice for a word that stands in an entry (R314): the record follows when its last lane completes. -/
def State.sample (s : State) (c : Ctx) (id : Nat) (ls : List Nat) (ea : Nat → Word) : State :=
  let t := s.tally c.core
  if s.sampleDue c.core then { t with samples := t.samples ++ [c.asSample id ls ea] } else t

/-- The same for a word that has completed in the lanes `ls` as it issued. -/
def State.sampleNow (s : State) (c : Ctx) (ls : List Nat) (ea : Nat → Word) : State :=
  let t := s.tally c.core
  if s.sampleDue c.core then t.putSample c.crew (c.asSample 0 ls ea) else t

namespace Ctx

/-- A new entry of the stream's log, its counters raised (R206, R298). -/
def newEntry (c : Ctx) (s : State) (logged : Bool) (lanes : List Nat) (src : Nat → List Word) (k : Counts) : Nat × State :=
  let (id, s) := s.newId
  let m := lanesFrom lanes
  let e : Entry := { id := id, word := c.word, pos := c.pos, path := c.grant.path, inH := c.inH, logged := logged, lanes := m, done := 0, sent := 0,
                     faults := [], src := (List.range 32).map (fun l => if m.getLsbD l then src l else []), cnt := k, reads := [] }
  (id, c.modT s fun t => { t.raise k with log := t.log ++ [e] })

/-- An acquire load of one of the lanes has not completed: it holds back younger accesses (R289). -/
def acquirePending (c : Ctx) : Bool := c.t.acquireOpen c.inH none c.act

/-- A line that a lane names is named by an incomplete older entry of its thread (R206); a scratchpad access names a line of a team's scratchpad. -/
def lineTaken (c : Ctx) (src : Nat → List Word) (ls : List Nat) : Bool :=
  let i := wordOf c.word
  ls.any fun l =>
    if isPadWord i then
      match c.crew.padTarget c.rank c.inH ((src l).headD 0) (accessBytes i) with
      | some (r, o) => c.crew.padPending c.t (1#32 <<< l) r (o / 128 * 128) 128
      | none => false
    else c.t.lineOpen none l (lineAddr i (src l))

/-- Lanes that no listed fault names. -/
def okLanes (c : Ctx) (bad : List LaneFault) : List Nat := c.ls.filter fun l => !(bad.any fun f => f.lane == l)

/-- A logged word issues in the lanes `ok`, and `bad` raises at issue with kind 0 (R206, R262). It stalls when a counter stands at 15,
the log holds 8 entries, or a line is taken. -/
def logIssue (c : Ctx) (s : State) (k : Counts) (bad : List LaneFault) (ok : List Nat) (src : Nat → List Word) : Out :=
  let fin (s : State) : Out := if bad.isEmpty then .done s else .raise s 0 bad
  if ok.isEmpty then fin (if (c.okLanes bad).isEmpty then s else s.sampleNow c (c.okLanes bad) fun l => lineAddr (wordOf c.word) (src l))
  else if !c.t.canRaise k || 8 < c.t.logn + entryRecords c.word || c.lineTaken src ok then .stall
  else
    let (id, s) := c.newEntry s true ok src k
    fin (s.sample c id ok fun l => lineAddr (wordOf c.word) (src l))

/-- Lanes whose address is misaligned raise cause 7 at issue (R262). -/
def misaligned (ls : List Nat) (ea : Nat → Word) (size : Nat) : List LaneFault :=
  (ls.filter fun l => (ea l).toNat % size ≠ 0).map fun l => { lane := l, cause := 7, addr := ea l, kind := 0 }

/-- Lanes that name the block-transfer aperture with an access that it does not take raise cause 6 (R343). -/
def apertureBad (ls : List Nat) (ea : Nat → Word) (kind : Nat) : List LaneFault :=
  (ls.filter fun l => inBlockAperture (ea l)).map fun l => { lane := l, cause := 6, addr := ea l, kind := kind }

/-- Faults of an access to the aperture that it takes (R343): offsets from 0x80 on are cause 6, others that are no multiple of 8 cause 7. -/
def apertureFaults (ls : List Nat) (ea : Nat → Word) (kind : Nat) : List LaneFault :=
  ls.filterMap fun l =>
    let o := (ea l).toNat - blockAperture
    if !inBlockAperture (ea l) then none
    else if 0x80 ≤ o then some { lane := l, cause := 6, addr := ea l, kind := kind }
    else if o % 8 ≠ 0 then some { lane := l, cause := 7, addr := ea l, kind := 0 }
    else none

/-- Faults at issue of a word whose lanes may not name the aperture. -/
def memFaults (c : Ctx) (ea : Nat → Word) (size kind : Nat) : List LaneFault :=
  let bad := apertureBad c.ls ea kind
  bad ++ misaligned (c.ls.filter fun l => !inBlockAperture (ea l)) ea size

end Ctx

/-! ### LD and ST (R263, R264, R343 to R345) -/

/-- An access form that the block-transfer aperture takes: 8 bytes of n64 or i64 (R343). -/
def apertureForm (t : Ty) (m : MemMode) : Bool := (t == .n64 || t == .i64) && MemSize m == .nat

/-- LD (R263). -/
def execLd (p : Pre) (t : Ty) (m : MemMode) (d a : Opd) (off : BitVec 16) (hint : BitVec 3) (s : State) : Host.Outcome State Fault Refusal :=
  word (.ld p t m d a off hint) s fun c =>
    let ea := c.ea a off
    let takes := apertureForm t m && (match m with | .sized _ => true | .ordered _ => false)
    let size := sizeBytes t (MemSize m)
    let bad := if takes then Ctx.apertureFaults c.ls ea 1 ++ Ctx.misaligned (c.ls.filter fun l => !inBlockAperture (ea l)) ea size
      else c.memFaults ea size 1
    c.logIssue c.s0 ⟨1, 0, 0, 0⟩ bad (c.okLanes bad) (fun l => [ea l])

namespace Ctx

/-- The offers of the path's aperture store that stand. -/
def offers (c : Ctx) : List Offer := c.s0.offers.filter fun o => o.crew == c.id && o.sid == c.sid && o.path == c.grant.path

def withoutOffers (c : Ctx) (s : State) : State :=
  { s with offers := s.offers.filter fun o => !(o.crew == c.id && o.sid == c.sid && o.path == c.grant.path) }

/-- Lanes `ap` of a store that start commands (R345): they are offered to their channels, and the word stalls until each is accepted or refused;
then refused lanes raise cause 3, or cause 6 for a command that names the aperture, and `k` issues the other lanes. -/
def apertureStore (c : Ctx) (ap : List Nat) (chan : Nat → Nat) (data : Nat → Word) (k : State → List LaneFault → Out) : Out :=
  if ap.isEmpty then k c.s0 []
  else
    let os := c.offers
    if os.isEmpty || os.any (fun o => o.word != c.word) || !(ap.all fun l => os.any fun o => o.lane == l) then
      if c.t.canRaise ⟨0, 0, 1, 0⟩ then
        .hold { c.withoutOffers c.s0 with offers := (c.withoutOffers c.s0).offers ++ ap.map fun l =>
          { crew := c.id, sid := c.sid, path := c.grant.path, lane := l, chan := chan l, data := data l, word := c.word, settled := false, refused := false,
            entry := none } }
      else .stall
    else if os.all Offer.settled then
      k (c.withoutOffers c.s0) ((os.filter Offer.refused).map fun o =>
        { lane := o.lane, cause := if o.far.isSome then 6 else 3, addr := BitVec.ofNat 64 (o.far.getD 0), kind := 0 })
    else .stall

end Ctx

/-- ST (R264): aperture lanes start commands, the others are logged. -/
def execSt (p : Pre) (t : Ty) (m : MemMode) (tag : Bool) (d a : Opd) (off : BitVec 16) (hint : BitVec 3) (s : State) :
    Host.Outcome State Fault Refusal :=
  word (.st p t m tag d a off hint) s fun c =>
    let ea := c.ea a off
    let takes := apertureForm t m && !tag
    let size := sizeBytes t (MemSize m)
    let bad := if takes then Ctx.apertureFaults c.ls ea 2 ++ Ctx.misaligned (c.ls.filter fun l => !inBlockAperture (ea l)) ea size
      else c.memFaults ea size 2
    let ok := c.okLanes bad
    let ap := ok.filter fun l => inBlockAperture (ea l)
    c.apertureStore ap (fun l => ((ea l).toNat - blockAperture) / 8) (fun l => BitVec.ofNat 64 (c.groupNat t (MemSize m) d l)) fun s ref =>
      c.logIssue s ⟨b2n tag, 1, 0, 0⟩ (bad ++ ref) (ok.filter fun l => !inBlockAperture (ea l))
        (fun l => let h := halves (c.groupNat t (MemSize m) d l); [ea l, h.1, h.2])

/-! ### Scratchpad (R266, R267) -/

/-- LDS. -/
def execLds (p : Pre) (t : Ty) (z : Size) (d a : Opd) (off : BitVec 16) (s : State) : Host.Outcome State Fault Refusal :=
  word (.lds p t z d a off) s fun c =>
    let bad := Ctx.misaligned c.ls (c.ea a off) (sizeBytes t z)
    c.logIssue c.s0 ⟨1, 0, 0, 0⟩ bad (c.okLanes bad) (fun l => [c.ea a off l])

/-- STS. -/
def execSts (p : Pre) (t : Ty) (z : Size) (d a : Opd) (off : BitVec 16) (s : State) : Host.Outcome State Fault Refusal :=
  word (.sts p t z d a off) s fun c =>
    let bad := Ctx.misaligned c.ls (c.ea a off) (sizeBytes t z)
    c.logIssue c.s0 ⟨0, 1, 0, 0⟩ bad (c.okLanes bad)
      (fun l => let h := halves (c.groupNat t z d l); [c.ea a off l, h.1, h.2])

/-! ### Register space (R268) -/

/-- A byte of register space that a team may reach: its vector area, its handler area, its held accumulator slots. -/
def Crew.regOk (c : Crew) (t : Team) (addr : Nat) : Bool :=
  let waves := t.waves.length
  (t.base0 ≤ addr && addr < t.base0 + waves * c.desc.w0lim * 128)
    || (c.w3Limit = 8 && t.base3 ≤ addr && addr < t.base3 + waves * 1024)
    || (Config.slotBase ≤ addr && addr < 0x80000 && t.slots.getLsbD ((addr - Config.slotBase) / Config.slotBytes))

def Crew.regRangeOk (c : Crew) (t : Team) (ea : Word) (size : Nat) : Bool :=
  ea.toNat + size ≤ 0x80000 && (List.range size).all fun i => c.regOk t (ea.toNat + i)

/-- The tile of a team that stands in a physical slot. -/
def tileOfSlot (slots : BitVec 16) (k : Nat) : Nat := ((List.range k).filter fun j => slots.getLsbD j).length

/-- The tile that a byte of register space belongs to, when it lies in a slot. -/
def Team.tileAt (t : Team) (addr : Nat) : Option Nat :=
  if Config.slotBase ≤ addr && addr < 0x80000 then some (tileOfSlot t.slots ((addr - Config.slotBase) / Config.slotBytes)) else none

/-- A store to register space: bytes +0x1000 on of an FP32 or packed slot are ignored (R411). -/
def State.putReg (s : State) (c : CoreId) (t : Team) (addr : Nat) (l : List Byte) : State :=
  match t.tileAt addr with
  | some i => if (t.tile i).fmt ≠ 1 && (addr - Config.slotBase) % Config.slotBytes ≥ 0x1000 then s else s.setRegBytes c addr l
  | none => s.setRegBytes c addr l

namespace Ctx

/-- A register-space word (R268): lanes out of range are logged with cause 6, lanes of a slot whose tile is busy stall the word,
and the others have their effect at once. -/
def regSpace (c : Ctx) (ea : Nat → Word) (size : Nat) (src : Nat → List Word) (eff : Team → Nat → State → State) : Out :=
  match c.team with
  | none => .done c.s0
  | some tm =>
    let bad := misaligned c.ls ea size
    let ok := c.okLanes bad
    let out := ok.filter fun l => !c.crew.regRangeOk tm (ea l) size
    let into := ok.filter fun l => c.crew.regRangeOk tm (ea l) size
    let busy := into.any fun l => match tm.tileAt (ea l).toNat with
      | some i => c.tileBusy c.rank i
      | none => false
    if busy || c.acquirePending || (!out.isEmpty && 8 ≤ c.t.logn) then .stall
    else
      let s := into.foldl (fun s l => eff tm l s) c.s0
      let s := if out.isEmpty then (if into.isEmpty then s else s.sampleNow c into ea)
        else
          let (id, s) := c.newEntry s true out src .none
          (s.modEntry c.id c.sid id fun e => { e with faults := out.map fun l => { lane := l, cause := 6, addr := ea l, kind := 1 } }).sample c id (into ++ out) ea
      if bad.isEmpty then .done s else .raise s 0 bad

end Ctx

/-- The number that bytes of register space hold. -/
def State.regNat (s : State) (c : CoreId) (addr n : Nat) : Nat := leNat (s.regBytes c addr n)

/-- LDRS. -/
def execLdrs (p : Pre) (t : Ty) (z : Size) (d a : Opd) (off : BitVec 16) (s : State) : Host.Outcome State Fault Refusal :=
  word (.ldrs p t z d a off) s fun c =>
    c.regSpace (c.ea a off) (sizeBytes t z) (fun l => [c.ea a off l]) fun _ l s =>
      c.putGroup t z d l (c.s0.regNat c.core (c.ea a off l).toNat (sizeBytes t z)) s

/-- STRS. -/
def execStrs (p : Pre) (t : Ty) (z : Size) (d a : Opd) (off : BitVec 16) (s : State) : Host.Outcome State Fault Refusal :=
  word (.strs p t z d a off) s fun c =>
    let src (l : Nat) : List Word := let h := halves (c.groupNat t z d l); [c.ea a off l, h.1, h.2]
    c.regSpace (c.ea a off) (sizeBytes t z) src fun tm l s =>
      s.putReg c.core tm (c.ea a off l).toNat (leBytes (sizeBytes t z) (c.groupNat t z d l))

/-! ### Prefetch, pins, cache control (R271 to R273) -/

/-- What a word that completes as it issues leaves, with its sample (R314). -/
def Ctx.sampled (c : Ctx) (ea : Nat → Word) (s : State) : State := if c.act = 0 then s else s.sampleNow c c.ls ea

/-- The core has an unacknowledged store, atomic or contribution to a line of memory (R286); an `STS` names a block of a scratchpad. -/
def State.writeInFlight (s : State) (c : CoreId) (line : Nat) : Bool :=
  s.msgs.any fun m => m.core == c && m.line == line && (match m.point with | .pad _ _ => false | _ => true) && (match m.kind with
    | .store | .atom | .acas | .gsadd => true
    | _ => false)

/-- Fill is enabled (R286): a resident crew of that world and ASID on the core, no page of CP 2, no write of the core in flight, no newer tag of the line
in the core's view. -/
def State.fillOk (s : State) (c : CoreId) (l : Leaf) (secure : Bool) (asid : BitVec 16) (sec : BitVec 4) : Bool :=
  let line := lineOf l.at_
  c.core < 4 && l.cp ≠ 2 && sec != 0 && !s.writeInFlight c line && !s.lost.contains line
    && (s.l1Of c).all (fun e => e.line != line || !tagOlder (s.lineState line).tag e.tag)
    && s.crews.any (fun k => k.die == c.die && k.cluster == c.cluster && k.asid == asid && k.secure == secure && k.teams.any fun t => t.core == c.core)

/-- Fill (R286) of sectors of the line of a leaf that a response brings, where it is enabled, and whether it is. A line of a CMP page fills whole, and the
coalescer expands it as it takes the response (R253, R396). -/
def State.fillIf (s : State) (c : CoreId) (l : Leaf) (secure : Bool) (asid : BitVec 16) (sec : BitVec 4) : Bool × State :=
  if s.fillOk c l secure asid sec then (true, (s.fillL1 c (lineOf l.at_) secure asid (if l.cmp then 0xF else sec) false false).expand c l.cmp) else (false, s)

/-- PREF (R271): the line is requested into its home set, with `.l1` into L1 too; a lane whose address does not translate does nothing. -/
def execPref (p : Pre) (l1 : Bool) (a : Opd) (off : BitVec 16) (hint : BitVec 3) (s : State) : Host.Outcome State Fault Refusal :=
  word (.pref p l1 a off hint) s fun c =>
    .done (c.sampled (c.ea a off) <| c.forLanes (fun l s =>
      if inBlockAperture (c.ea a off l) then s
      else match s.translate c.crew.asid c.crew.secure .load (c.ea a off l) with
        | (.ok f, s) =>
          if f.cp = 2 then s
          else
            let s := s.touch (homeOf f.cp f.at_) f.hold (lineOf f.at_) false (some (c.id, c.rank))
            if l1 then (s.fillIf c.core f c.crew.secure c.crew.asid (sectorsOf f.at_ 1)).2 else s
        | (.fail _ _, s) => s) c.s0)

/-- The holder of a stream's software pins: its team, which stands under wave 0, or its context (R272). -/
def Ctx.softHolder (c : Ctx) : PinHolder := .soft c.id (match c.sid with | .gaffer => .gaffer | _ => .wave c.rank 0)

/-- PIN (R272): D is written when the line's home answers. -/
def execPin (p : Pre) (d a : Opd) (off : BitVec 16) (s : State) : Host.Outcome State Fault Refusal :=
  word (.pin p d a off) s fun c =>
    let bad := Ctx.apertureBad c.ls (c.ea a off) 1
    c.logIssue c.s0 ⟨1, 0, 0, 0⟩ bad (c.okLanes bad) (fun l => [c.ea a off l])

/-- UNPIN (R272). -/
def execUnpin (p : Pre) (a : Opd) (off : BitVec 16) (s : State) : Host.Outcome State Fault Refusal :=
  word (.unpin p a off) s fun c =>
    .done (c.sampled (c.ea a off) <| c.forLanes (fun l s =>
      if inBlockAperture (c.ea a off l) then s
      else match s.translate c.crew.asid c.crew.secure .load (c.ea a off l) with
        | (.ok f, s) => { s with pins := s.pins.filter fun q => !(q.holder == c.softHolder && q.line == lineOf f.at_) }
        | (.fail _ _, s) => s) c.s0)

/-- CCTL.iinv (R273, R50): the instruction buffers of the core and the loop buffers of its lanes. -/
def execCctlIinv (p : Pre) (s : State) : Host.Outcome State Fault Refusal :=
  word (.cctlIinv p) s fun c =>
    if c.act = 0 then .done c.s0
    else
      let clear (t : Strand) : Strand := { t with threads := t.threads.map fun h => { h with buf := [] } }
      let s := { c.s0 with ibuf := assocDel c.s0.ibuf c.core }
      .done (c.sampled (fun _ => 0) { s with crews := s.crews.map fun k =>
        (k.sids.filter fun d => k.coreOf d == c.core).foldl (fun k d => k.modStrand d clear) k })

/-- CCTL.l1 (R273). -/
def execCctlL1 (p : Pre) (s : State) : Host.Outcome State Fault Refusal :=
  word (.cctlL1 p) s fun c => .done (if c.act = 0 || c.core.core ≥ 4 then c.s0 else c.sampled (fun _ => 0) (c.s0.invalidateL1 c.core))

/-- A word that is not logged and sends messages: it raises the store counter until they are answered (R273, R281, R298). -/
def Ctx.unlogged (c : Ctx) (bad : List LaneFault) (ok : List Nat) (src : Nat → List Word) : Out :=
  let fin (s : State) : Out := if bad.isEmpty then .done s else .raise s 0 bad
  if ok.isEmpty then fin c.s0
  else if !c.t.canRaise ⟨0, 1, 0, 0⟩ then .stall
  else
    let (id, s) := c.newEntry c.s0 false ok src ⟨0, 1, 0, 0⟩
    fin (s.sample c id ok fun l => (src l).headD 0)

/-- CCTL.evict (R273). -/
def execCctlEvict (p : Pre) (a : Opd) (off : BitVec 16) (s : State) : Host.Outcome State Fault Refusal :=
  word (.cctlEvict p a off) s fun c =>
    let bad := Ctx.apertureBad c.ls (c.ea a off) 1
    c.unlogged bad (c.okLanes bad) fun l => [c.ea a off l]

/-- CCTL.flush (R273). -/
def execCctlFlush (p : Pre) (a : Opd) (off : BitVec 16) (s : State) : Host.Outcome State Fault Refusal :=
  word (.cctlFlush p a off) s fun c =>
    let bad := Ctx.apertureBad c.ls (c.ea a off) 1
    c.unlogged bad (c.okLanes bad) fun l => [c.ea a off l]

/-! ### Atomics and scatter (R274 to R281) -/

/-- ATOM (R274). -/
def execAtom (p : Pre) (t : Ty) (op : AtomOp) (d a b : Opd) (s : State) : Host.Outcome State Fault Refusal :=
  word (.atom p t op d a b) s fun c =>
    let bad := c.memFaults (c.read .n64 a) (if t.is64 then 8 else 4) 2
    c.logIssue c.s0 ⟨1, 1, 0, 0⟩ bad (c.okLanes bad) (fun l => [c.read .n64 a l, c.read t b l])

/-- ACAS (R275). -/
def execAcas (p : Pre) (t : Ty) (d a b e : Opd) (s : State) : Host.Outcome State Fault Refusal :=
  word (.acas p t d a b e) s fun c =>
    let bad := c.memFaults (c.read .n64 a) (if t.is64 then 8 else 4) 2
    c.logIssue c.s0 ⟨1, 1, 0, 0⟩ bad (c.okLanes bad) (fun l => [c.read .n64 a l, c.read t b l, c.read t e l])

/-- GSADD (R278). -/
def execGsadd (p : Pre) (a b : Opd) (s : State) : Host.Outcome State Fault Refusal :=
  word (.gsadd p a b) s fun c =>
    let bad := c.memFaults (c.read .n64 a) 4 2
    c.logIssue c.s0 ⟨0, 1, 0, 0⟩ bad (c.okLanes bad) (fun l => [c.read .n64 a l, c.read .f32 b l])

/-- GSFLUSH (R281). The word raises the store counter once (R298). -/
def execGsflush (p : Pre) (a b : Opd) (s : State) : Host.Outcome State Fault Refusal :=
  word (.gsflush p a b) s fun c => c.unlogged [] c.ls fun l => [c.read .n64 a l, c.read .n32 b l]

/-- GSFLUSH.all (R281). -/
def execGsflushAll (p : Pre) (s : State) : Host.Outcome State Fault Refusal :=
  word (.gsflushAll p) s fun c => c.unlogged [] c.ls fun _ => []

/-! ### FENCE (R282) and the release rule (R289) -/

/-- FENCE. -/
def execFence (p : Pre) (sc : Scope) (s : State) : Host.Outcome State Fault Refusal :=
  word (.fence p sc) s fun c =>
    if c.act = 0 then .done c.s0
    else if c.s0.released c.crew c.t c.inH c.path.lanes none sc then
      .done (c.sampled (fun _ => 0) (if scopeInv sc && c.core.core < 4 then c.s0.invalidateL1 c.core else c.s0))
    else .stall

end Sys2Proof.Machine
end

