-- ==== Sys2Proof/Machine/Messages.lean ====
section
/-! DEFINITION. The moves of the ordering machine (R283 to R293): what a sent access does at its ordering point and when it comes back,
and the L1 views' own moves. -/

namespace Sys2Proof.Machine

/-! ### Messages by name -/

def State.msg? (s : State) (id : Nat) : Option Msg := s.msgs.find? fun m => m.id == id

def State.modMsg (s : State) (id : Nat) (f : Msg → Msg) : State := { s with msgs := mapIf (fun m => m.id == id) f s.msgs }

def State.dropMsg (s : State) (id : Nat) : State := { s with msgs := s.msgs.filter fun m => m.id != id }

/-- A message under way that its port has not dropped. -/
def Msg.moving (m : Msg) : Bool := (m.phase == .out || m.phase == .posted) && !m.held

/-- The team that a message's stream belongs to. -/
def Msg.team (m : Msg) : Option (Nat × Nat) := (sidTeam? m.sid).map fun r => (m.crew, r)

/-- The issuing team has exited (R320). -/
def State.retired (s : State) (crew : Nat) (sid : Sid) : Bool :=
  match s.crew? crew with
  | none => true
  | some c => match sidTeam? sid with
    | some r => (c.teams[r]?.map Team.exited).getD true
    | none => false

/-- A path that stands nowhere; it fills the place of a path where an entry completes (R263). -/
def Path.blank : Path :=
  { id := 0, lanes := 0, pc := 0, at_ := none, prev := 0, age := 0, starve := 0, crank := 0, lone := false, clause := none, latch := [],
    wait := .none, only := none, yielded := false, noCeil := false, frozen := none }

/-- The surroundings in which an entry's destinations are resolved when it completes: its stream's views as they then stand (R95, R99, R300). -/
def entryCtx (s : State) (c : Crew) (t : Strand) (e : Entry) : Ctx :=
  { s0 := s, grant := { crew := c.id, sid := t.sid, path := e.path, lone := false }, crew := c, t := t, path := Path.blank,
    cl := { hdr := 0, head := { cls := .a, count := 0, ld := 15, st := 15, cp := 15, tl := 15, yend := false }, words := [], pos := e.pos },
    word := e.word, addr := 0, lanes := e.lanes, act := e.lanes, hnd := e.inH }

/-- The tile that an entry's pending writes go to through the alias view (R96, R97). -/
def lateTile (s : State) (c : Crew) (t : Strand) (e : Entry) : Option Nat :=
  if (Ctx.lateRegs (wordOf e.word)).any (entryCtx s c t e).aliased then some (w2Tile t.w2) else none

/-- An entry's results wait: their tile has an operation that was accepted before the entry or has begun (R97). What a save stops no longer makes
them wait (log 78). -/
def State.lateHeld (s : State) (c : Crew) (t : Strand) (e : Entry) : Bool :=
  c.saving.isNone && match lateTile s c t e, (sidTeam? t.sid).bind fun r => c.teams[r]? with
    | some i, some tm => (tm.tile i).susp.isSome || tm.ops.any fun o => o.tile == i && (o.id < e.id || o.mma.any Mma.started)
    | _, _ => false

/-- A message's results wait for a tile. -/
def State.resultsHeld (s : State) (m : Msg) : Bool :=
  match s.crew? m.crew, s.strand? m.crew m.sid, s.entry? m.crew m.sid m.entry with
  | some c, some t, some e => !m.bad && s.lateHeld c t e
  | _, _, _ => false

/-- A cause recorded in lanes of an entry (R206). -/
def State.logFault (s : State) (crew : Nat) (sid : Sid) (id : Nat) (ls : List Nat) (cause kind : Nat) (absent : Bool) : State :=
  s.modEntry crew sid id fun e => { e with faults := e.faults ++ (ls.filter fun l => !e.faultLanes.getLsbD l).map fun l =>
    { lane := l, cause := cause, addr := e.ea l, kind := kind, absent := absent } }

/-! ### Send -/

/-- The next access of a lane in issue order, held back by no rule (R286, R289). -/
def State.sendOk (s : State) (c : Crew) (t : Strand) (e : Entry) (l : Nat) : Bool :=
  let i := wordOf e.word
  e.undone.getLsbD l && !e.sent.getLsbD l && !e.faultLanes.getLsbD l && t.nextOf e l
    && (match relScope i with
      | some sc => s.released c t false (1#32 <<< l) (some e.id) sc
      | none => true)

/-- Access that a word makes of a page (R220). -/
def accessOf (i : Instr) : Access :=
  match memKind i with
  | some .store | some .atom | some .acas | some .gsadd => .store
  | _ => .load

/-- Kind of the access for a fault record. -/
def kindOf (i : Instr) : Nat := if accessOf i == .store then 2 else 1

/-- An atomic that the PCIe window carries (R404). -/
def pcieAtomic : Instr → Bool
  | .atom _ t op .. => (op == .add && !t.fmt?.isSome) || (op == .exch && !t.fmt?.isSome)
  | .acas .. => true
  | _ => false

/-- A word that reaches the registers of the device aperture: `LD` or `ST` (R403). -/
def apertureWord : Instr → Bool
  | .ld .. | .st .. => true
  | _ => false

/-- Restrictions of a place beyond its leaf: scatter pages (R278), the device aperture (R403), the PCIe and peer windows (R404, R365). -/
def placeTakes (i : Instr) (l : Leaf) (ea : Word) : Bool :=
  match memKind i with
  | some .gsadd => l.cp = 0
  | some k =>
    if keyLpddr l.at_ then true
    else if keyAperture l.at_ then apertureWord i && accessBytes i = 8 && ea.toNat % 8 = 0
    else if keyPcie l.at_ then k == .load || k == .store || ((k == .atom || k == .acas) && pcieAtomic i)
    else if keyPeer l.at_ then k == .load || k == .store || k == .atom || k == .acas
    else true
  | none => true

/-- The parts of a range that stand in one 4 KiB page: one for each line (R281). -/
def lineActs (lane key n : Nat) : List Act :=
  let first := lineOf key
  (List.range (lineOf (key + n - 1) - first + 1)).map fun i =>
    let a := max key (lineBase (first + i))
    let b := min (key + n) (lineBase (first + i + 1))
    { lane := lane, key := a, size := b - a, b := 0, c := 0 }

/-- A message added to those in flight. -/
def State.post (s : State) (m : Msg) : State :=
  let (id, s) := s.newId
  { s with msgs := s.msgs ++ [{ m with id := id }] }

/-- The message of lanes of an entry, before its place is known. -/
def baseMsg (c : Crew) (t : Strand) (e : Entry) (k : MsgKind) (ls : List Nat) : Msg :=
  { id := 0, crew := c.id, sid := t.sid, entry := e.id, kind := k, word := e.word, point := .pcie, line := 0,
    leaf := { at_ := 0, cp := 0, cmp := false, roc := false, sec := false, w := false, x := false }, acts := [], phase := .out, tag := 0, bad := false,
    held := false, sys := false, core := c.coreOf t.sid, secure := c.secure, asid := c.asid, who := c.who t.sid (ls.headD 0) }

/-- One lane's part of a message. -/
def Entry.act (e : Entry) (l key size : Nat) : Act :=
  { lane := l, key := key, size := size, b := (e.srcOf l).getD 1 0, c := (e.srcOf l).getD 2 0 }

def State.markSent (s : State) (c : Crew) (t : Strand) (e : Entry) (ls : List Nat) : State :=
  s.modEntry c.id t.sid e.id fun e => { e with sent := e.sent ||| lanesFrom ls }

/-- An older access of one of the threads to the line of a leaf is still in flight, under whatever address (R286). -/
def State.lineInFlight (s : State) (c : Crew) (t : Strand) (f : Leaf) (ls : List Nat) : Bool :=
  s.msgs.any fun m => m.crew == c.id && m.sid == t.sid && m.line == lineOf f.at_ && m.phase != .posted && m.kind != .spill && m.point == homeOf f.cp f.at_
    && (m.acts.any fun x => ls.contains x.lane)

/-- Send of lanes that name one line of memory. -/
def State.sendMemory (s : State) (c : Crew) (t : Strand) (e : Entry) (i : Instr) (k : MsgKind) (ls : List Nat) : State :=
  match ls with
  | [] => s
  | l0 :: _ =>
    let ea0 := e.ea l0
    let n := accessBytes i
    match s.translate c.asid c.secure (accessOf i) ea0 with
    | (.fail cause absent, s) =>
      if isFlushWord i then s.complete c.id t.sid e.id (lanesFrom ls)
      else s.logFault c.id t.sid e.id ls cause (kindOf i) absent
    | (.ok f, s) =>
      let key (l : Nat) : Nat := f.at_ + (e.ea l).toNat - ea0.toNat
      let bad := if ls.any (fun l => !placeTakes i f (e.ea l)) then ls else []
      if !bad.isEmpty then
        if isFlushWord i then s.complete c.id t.sid e.id (lanesFrom ls)
        else s.logFault c.id t.sid e.id ls 6 (kindOf i) false
      else
        let line := lineOf f.at_
        if s.lineInFlight c t f ls then s
        else
          let acts := ls.map fun l => e.act l (key l) n
          let s := (s.markSent c t e ls).coreSignal (c.coreOf t.sid) 7 1
          let writes := k == .store || k == .atom || k == .acas || k == .gsadd
          let s := if writes && (c.coreOf t.sid).core < 4
            then s.dropSectors (c.coreOf t.sid) line (acts.foldl (fun m x => m ||| sectorsOf x.key x.size) 0) else s
          let p := if k == .gsadd then homeOf 0 f.at_ else homeOf f.cp f.at_
          s.post { baseMsg c t e k ls with point := p, line := line, leaf := f, acts := acts,
                                           sys := (k == .store || k == .atom || k == .acas) && (keyPcie f.at_ || keyPeer f.at_) && !keyLpddr f.at_ }

/-- Send of lanes that name one 128-byte block of one scratchpad (R266). -/
def State.sendPad (s : State) (c : Crew) (t : Strand) (e : Entry) (i : Instr) (k : MsgKind) (r : Nat) (ls : List Nat) : State :=
  let n := accessBytes i
  let acts := ls.map fun l => e.act l (wfld (e.ea l) 0 20) n
  (s.markSent c t e ls).post
    { baseMsg c t e k ls with point := .pad c.id r, line := (acts.headD ⟨0, 0, 0, 0, 0⟩).key / 128, acts := acts }

/-- Pages of the range of a flush lane, each with its first address and its bytes. -/
def pagesOf (a n : Nat) : List (Nat × Nat) :=
  if n = 0 then []
  else (List.range ((a + n - 1) / 4096 - a / 4096 + 1)).map fun i =>
    let lo := max a ((a / 4096 + i) * 4096)
    (lo, min (a + n) ((a / 4096 + i + 1) * 4096) - lo)

/-- Send of one lane of `GSFLUSH`: a message for each page that translates; other pages are skipped (R281). -/
def State.sendFlush (s : State) (c : Crew) (t : Strand) (e : Entry) (l : Nat) : State :=
  let a := e.ea l
  let s := s.markSent c t e [l]
  let s := (pagesOf a.toNat ((e.srcOf l).getD 1 0).toNat).foldl (fun s q =>
    match s.translate c.asid c.secure .load (BitVec.ofNat 64 q.1) with
    | (.fail _ _, s) => s
    | (.ok f, s) =>
      s.post { baseMsg c t e .flush [l] with point := homeOf 0 f.at_, line := lineOf f.at_, leaf := f, acts := lineActs l f.at_ q.2 }) s
  if s.msgs.any (fun m => m.entry == e.id && m.acts.any fun x => x.lane == l) then s else s.complete c.id t.sid e.id (1#32 <<< l)

/-- Send of `GSFLUSH.all`: a message to each core-side slice of the package. -/
def State.sendFlushAll (s : State) (c : Crew) (t : Strand) (e : Entry) (ls : List Nat) : State :=
  let ps : List Point := ((List.range Config.dies).map fun d => (List.range Config.coreSlices).map fun k => Point.slice d k).flatten
  ps.foldl (fun s p => s.post { baseMsg c t e .flushAll ls with point := p, acts := ls.map fun l => e.act l 0 0 }) (s.markSent c t e ls)

/-- A register-space entry performed again (R207, R268). -/
def State.sendReg (s : State) (c : Crew) (t : Strand) (e : Entry) (i : Instr) (l : Nat) : State :=
  match (sidTeam? t.sid).bind fun r => c.teams[r]? with
  | none => s
  | some tm =>
    let n := accessBytes i
    let a := e.ea l
    let cx := entryCtx s c t e
    if !c.regRangeOk tm a n then s.logFault c.id t.sid e.id [l] 6 1 false
    else if s.lateHeld c t e || (match tm.tileAt a.toNat with | some k => cx.tileBusy tm.rank k | none => false) then s
    else
      let s := match i with
        | .ldrs _ ty z d .. => cx.putGroup ty z d l (s.regNat cx.core a.toNat n) s
        | _ => s.putReg cx.core tm a.toNat (leBytes n (((e.srcOf l).getD 1 0).toNat + ((e.srcOf l).getD 2 0).toNat * 2 ^ 64))
      (s.lastLane c.id t.sid e l).complete c.id t.sid e.id (1#32 <<< l)

/-- Status word of a copy channel (R347): a non-secure issuer reads 0 where the last command was secure. -/
def State.chanStatus (s : State) (die cluster chan : Nat) (secure : Bool) : Word :=
  let none_ : Chan := { die := die, cluster := cluster, chan := chan, fin := 0, tmpl := 0, ecode := 0, err := false, flags := 0, secure := false }
  match (s.chans.find? fun h => h.die == die && h.cluster == cluster && h.chan == chan).getD none_ with
  | h =>
    let pend := (s.cmds.filter fun k => k.kind != .rrot && k.die == die && k.cluster == cluster && k.chan == chan && !k.done).length
    if h.secure && !secure then 0
    else BitVec.ofNat 64 (h.fin.toNat * 2 ^ 32 + h.tmpl % 4096 * 2 ^ 20 + pend % 16 * 2 ^ 16 + h.ecode % 256 * 2 ^ 8 + b2n h.err * 2 ^ 7 + h.flags.toNat)

/-- SEND (R286): the lanes of a word that name the line of one of its lanes move together (R262), once the window of their port has room (R341). -/
def execSend (crew : Nat) (sid : Sid) (entry lane : Nat) (s : State) : Host.Outcome State Fault Refusal :=
  .next (match s.crew? crew, s.strand? crew sid, s.entry? crew sid entry with
    | some c, some t, some e =>
      let i := wordOf e.word
      if !s.sendOk c t e lane then s
      else match s.portRoom (corePort (c.coreOf sid)) with
      | (false, s) => s
      | (true, s) => match i, memKind i with
        | .ldrs .., _ | .strs .., _ => s.sendReg c t e i lane
        | _, none => s
        | _, some .flush => s.sendFlush c t e lane
        | _, some .flushAll =>
          let ls := (lanesOf e.undone).filter fun l => !e.sent.getLsbD l
          if ls.all (s.sendOk c t e) then s.sendFlushAll c t e ls else s
        | _, some k =>
          let open_ := (lanesOf e.undone).filter fun l => !e.sent.getLsbD l && !e.faultLanes.getLsbD l
          if isPadWord i then
            let target (l : Nat) := c.padTarget ((sidTeam? sid).getD 0) e.inH (e.ea l) (accessBytes i)
            match target lane with
            | none => s.logFault crew sid entry [lane] 6 (kindOf i) false
            | some (r, o) =>
              let ls := open_.filter fun l => match target l with
                | some (r', o') => r' == r && o' / 128 == o / 128
                | none => false
              if ls.all (s.sendOk c t e) then s.sendPad c t e i k r ls else s
          else if inBlockAperture (e.ea lane) then
            -- a plain load of a channel's status word (R343)
            match i with
            | .ld _ ty m d .. =>
              if s.lateHeld c t e then s else
              let v := s.chanStatus c.die c.cluster (((e.ea lane).toNat - blockAperture) / 8) c.secure
              (((entryCtx s c t e).putGroup ty (MemSize m) d lane v.toNat s).lastLane crew sid e lane).complete crew sid entry (1#32 <<< lane)
            | _ => s
          else
            let ls := open_.filter fun l => (e.ea l).toNat / 128 == (e.ea lane).toNat / 128 && !inBlockAperture (e.ea l)
            if ls.all (s.sendOk c t e) then s.sendMemory c t e i k ls else s
    | _, _, _ => s)

/-! ### At the ordering point -/

/-- A register of the device aperture as a load reads it (R403): a non-secure crew reads zero from the counters of a block whose core or
cluster has a secure crew resident. -/
def State.secureOn (s : State) (die cluster : Nat) (core : Option Nat) : Bool :=
  s.crews.any fun c => c.secure && c.die == die && c.cluster == cluster && (match core with
    | some k => c.teams.any fun t => t.core == k
    | none => true)

/-- A counter that only the secure world reads and clears: its block's core, or the cluster of its port, has a secure crew on it (R403, R407). -/
def State.counterHidden (s : State) (die off : Nat) : Bool :=
  (0x4000 ≤ off && off < 0x4000 + 64 * 168 && s.secureOn die ((off - 0x4000) / 64 / 4) (some ((off - 0x4000) / 64 % 4)))
    || (0x8000 ≤ off && off < 0x8000 + 8 * 42 && s.secureOn die ((off - 0x8000) / 8) none)

/-- A write to a die's memory counters from a world (R254, R403). -/
def State.writeCounter (s : State) (secure : Bool) (die off : Nat) (v : Word) : State :=
  if !secure && s.counterHidden die off then s else s.counterWrite die off v

def State.apertureRead (s : State) (key : Nat) (secure : Bool) : Word :=
  let off := key % 2 ^ 48
  if off < 0x400000 then
    let die := off / 0x100000
    let o := off % 0x100000
    if !secure && s.counterHidden die o then 0 else s.counterRead die o
  else if 0x800000 ≤ off ∧ off < 0x1800000 then
    let die := (off - 0x800000) / 0x400000
    let o := (off - 0x800000) % 0x400000
    let k := (o - 0x100000) / 0x1000
    let hidden := !secure && 0x100000 ≤ o && o < 0x100000 + 0x1000 * 168 && 0x100 ≤ o % 0x1000 && o % 0x1000 < 0xF00
      && s.secureOn die (k / 4) (some (k % 4))
    if hidden then 0 else s.obsWord die o
  else 0

/-- Sectors that a request for bytes of a line moves (R253, R314). -/
def State.sectorsMoved (s : State) (l : Leaf) (acts : List Act) : Nat :=
  if l.cmp then bdzSectors true (s.memBytes (lineBase (lineOf l.at_)) 128)
  else let m := acts.foldl (fun m x => m ||| sectorsOf x.key x.size) (0 : BitVec 4)
    ((List.range 4).filter fun i => m.getLsbD i).length

def State.sampleSectors (s : State) (m : Msg) : State :=
  if s.samples.isEmpty then s
  else
    let n := s.sectorsMoved m.leaf m.acts
    s.modSample m.crew m.sid m.entry fun x => { x with sectors := x.sectors + n }

/-- A stream's lane as a record names it, with the lane in its global lane number. -/
def Who.onLane (w : Who) (lane : Nat) : Who := { w with gln := w.gln / 32 * 32 + lane }

/-- The last lane whose data has returned, and its address (R314). -/
def State.sampleLast (s : State) (m : Msg) (acts : List Act) : State :=
  match acts.getLast?, s.entry? m.crew m.sid m.entry with
  | some x, some e => s.lastLane m.crew m.sid e x.lane
  | _, _ => s

/-- Watch ranges at a home (R320): lanes whose bytes match raise cause 14 at their path's next clause boundary; the record names the lowest of them. -/
def State.watchActs (s : State) (m : Msg) (acts : List Act) (wr : Bool) (tag : BitVec 32) : State :=
  let part (x : Act) : Nat × Nat := (x.key, x.size)
  let hit (x : Act) : Bool := match m.point.dieOf with
    | some d => !(s.watched d wr [(keyPa x.key, x.size)]).isEmpty
    | none => false
  let ls := (acts.filter hit).map Act.lane
  let l := (minBy id ls).getD 0
  match s.watch m.point (acts.map part) wr (s.whoNow m.crew m.sid l (m.who.onLane l)) { src := 0, chan := 0, tmpl := 0, retired := s.retired m.crew m.sid } tag with
  | (none, s) => s
  | (some a, s) => s.modStrand m.crew m.sid fun t =>
      { t with pend := t.pend ++ [(⟨14, ((t.log.find? fun e => e.id == m.entry).map Entry.inH).getD false, none, lanesFrom ls, a,
          if wr then 2 else 1, false, none⟩ : Pend)] }

/-- An older access of the same thread to one of the same scratchpad bytes has not been applied (R267). -/
def State.padBlocked (s : State) (m : Msg) : Bool :=
  s.msgs.any fun o => o.id < m.id && o.phase == .out && o.point == m.point && o.crew == m.crew && o.sid == m.sid
    && o.acts.any fun x => m.acts.any fun y => x.lane == y.lane && x.key < y.key + y.size && y.key < x.key + x.size

/-- The PCIe link that a die's requests take (R404): a read follows every earlier posted write of its link. -/
def State.linkFor (s : State) (die : Nat) : Nat :=
  let l := die / 2
  if ((s.links.getD l ⟨false, 0, 0⟩)).up then l else 1 - l

def State.pcieBlocked (s : State) (m : Msg) : Bool :=
  m.point == .pcie && s.msgs.any fun o => o.id < m.id && o.moving && o.point == .pcie && o.kind == .store && s.linkFor o.core.die == s.linkFor m.core.die

/-- A window's far side answers: a PCIe link is up, the peer's links are up (R404, R405). -/
def State.reachable (s : State) (p : Point) : Bool :=
  match p with
  | .pcie => s.links.any Link.up
  | .peer k => !s.peersDown.contains k
  | _ => true

/-- The bytes of an act as a number, put into it. -/
def Act.fill (x : Act) (l : List Byte) : Act := let h := halves (leNat l); { x with b := h.1, c := h.2 }

/-- The bytes that a store's act writes. -/
def Act.cells (x : Act) : List Host.Cell :=
  ((List.range x.size).zip (leBytes x.size (x.b.toNat + x.c.toNat * 2 ^ 64))).map fun q => (x.key + q.1, q.2)

/-- A peer cluster's L1 probed for sectors of a line of a ROC page (R247): the part's predictor chooses the core. None on a miss. An entry older than
what the core's own view holds of the line is no hit (R287). -/
def State.probe (s : State) (c : CoreId) (line : Nat) (secure : Bool) (need : BitVec 4) : Option L1Entry × State :=
  let base := c.cluster / 14 * 14
  let cl := (List.range 14).filterMap fun i => if base + i = c.cluster then none else some (base + i)
  let (k, s) := s.drawIndex (4 * cl.length)
  let core : CoreId := { die := c.die, cluster := cl.getD (k / 4) 0, core := k % 4 }
  let newest (e : L1Entry) : Bool := (s.l1Of c).all fun x => x.line != line || !tagOlder e.tag x.tag
  let hit := (s.l1Of core).find? fun e => e.line == line && e.secure == secure && e.sectors &&& ~~~e.spec &&& need == need && newest e
  let s := s.coreSignal c 9 1
  (hit, s.countCore c (if hit.isSome then 2 else 3) 1)

/-- A load of memory at its home (R286): its bytes, and a Fill for its core where the part makes one. -/
def State.readMemory (s : State) (m : Msg) : State :=
  let i := wordOf m.word
  let needs := m.acts.foldl (fun n x => n ||| sectorsOf x.key x.size) (0 : BitVec 4)
  let mayHit := match acqScope i with
    | some sc => !scopeInv sc
    | none => true
  let (peer, s) := if m.leaf.roc && mayHit && m.core.core < 4 then s.probe m.core m.line m.secure needs else (none, s)
  let s := s.sampleSectors m
  match peer with
  | some e => s.modMsg m.id fun m => { m with phase := .back, acts := m.acts.map fun x => x.fill (e.bytes x.key x.size), tag := e.tag, peer := true }
  | none =>
    if s.lost.contains m.line then s.modMsg m.id fun m => { m with phase := .back, bad := true }
    else
      let s := s.modMsg m.id fun m => { m with phase := .back, tag := (s.lineState m.line).tag, acts := m.acts.map fun x => x.fill (s.readVis x.key x.size) }
      let s := s.touch m.point m.leaf.hold m.line false m.team
      let s := if m.leaf.cp = 0 then s.copyFor m.point m.line m.core m.team else s
      let s := s.watchActs m m.acts false 0
      let nl1 := match i with
        | .ld _ _ _ _ _ _ h => h == 2
        | _ => false
      if nl1 || m.core.core ≥ 4 || m.leaf.cp = 2 then s
      else
        let (b, s) := s.drawBit
        if b then
          let (took, s) := s.fillIf m.core m.leaf m.secure m.asid needs
          s.modMsg m.id fun m => { m with taken := took }
        else s

/-- The team's or context's pins (R272), and where a further pin of a line would stand (R252): in its home set when that has room without
evicting a pinned line, else in its memory-side slice; none while every tag of that set is pinned. -/
def State.pinRoom (s : State) (l : Leaf) : Option Bool :=
  let line := lineOf l.at_
  let inSet (away : Bool) := dedup ((s.pins.filter fun q => q.away == away && q.line != line
      && homeOf (if away then 1 else 0) (lineBase q.line) == homeOf (if away then 1 else 0) l.at_ && setOf away q.line == setOf away line).map Pin.line)
  let home := inSet false
  let here := bdzSectors l.cmp (s.memBytes (lineBase line) 128)
  if l.cp = 0 && home.length < Config.coreTags && (home.map s.lineSectors).sum + here ≤ Config.setSectors then some false
  else if keyLpddr l.at_ then none
  else if (inSet true).length < Config.memTags then some true else none

/-- A pin placed; its line is held (R252). -/
def State.placePin (s : State) (h : PinHolder) (l : Leaf) (away : Bool) : State :=
  let line := lineOf l.at_
  let s := { s with pins := s.pins ++ [(⟨h, line, away⟩ : Pin)] }
  if away then (s.signalAt (awayOf line) 7 1).touch (awayOf line) (some l.cmp) line false none
  else s.touch (homeOf 0 l.at_) (some l.cmp) line false none

/-- A `PIN` at the line's home (R272): 1 when pinned; 0 when the quota is full or the page has CP 2. It waits where R252 says. -/
def State.readPin (s : State) (m : Msg) : State :=
  let h : PinHolder := .soft m.crew (match m.sid with | .gaffer => .gaffer | d => .wave ((sidTeam? d).getD 0) 0)
  let put (v : Word) (x : Act) : Act := { x with b := v }
  let ans (v : Word) (s : State) : State := s.modMsg m.id fun m => { m with phase := .back, acts := m.acts.map (put v) }
  let mine := s.pins.filter fun q => q.holder == h
  if m.leaf.cp = 2 then ans 0 s
  else if mine.any fun q => q.line == m.line then ans 1 s
  else if Config.softPins ≤ mine.length then ans 0 s
  else match s.pinRoom m.leaf with
    | some away => ans 1 (s.placePin h m.leaf away)
    | none => s

/-- A scratchpad load at the core that holds it (R257, R267). The read may find an error in the bytes that it names, which then stands in them until
they are written. -/
def State.readPad (s : State) (m : Msg) (crew r : Nat) : State :=
  match s.team? crew r with
  | none => s.dropMsg m.id
  | some tm =>
    let (err, s) := s.drawError
    let found := if err then m.acts.map Act.key else []
    (s.modTeam crew r fun tm => { tm with padBad := tm.padBad ++ found.filter fun b => !tm.padBad.contains b }).modMsg m.id fun m =>
      { m with phase := .back, bad := err || m.acts.any (fun x => tm.padLost x.key x.size), acts := m.acts.map fun x => x.fill (tm.padBytes x.key x.size) }

/-- READ of a message (R286). -/
def State.readMsg (s : State) (id : Nat) : State :=
  match s.msg? id with
  | none => s
  | some m =>
    if !m.moving || m.phase != .out || !(m.kind == .load || m.kind == .pin) then s
    else match m.point, m.kind with
      | .pad crew r, _ => if s.padBlocked m then s else s.readPad m crew r
      | .aperture _, _ => s.modMsg id fun m => { m with phase := .back, acts := m.acts.map fun x => ({ x with b := s.apertureRead x.key m.secure } : Act) }
      | p, .pin => if s.reachable p then s.readPin m else s
      | p, _ => if s.pcieBlocked m || !s.reachable p then s else s.readMemory m

/-- Value that an atomic stores (R274). -/
def atomNew (t : Ty) (op : AtomOp) (old b : Nat) : Nat :=
  let f := t.fmt?.getD fp32
  let isF := t.fmt?.isSome
  match op with
  | .add => if isF then faddF f .rne (f.read old) (f.read b) else (old + b) % 2 ^ t.ebits
  | .min => if isF then fminmaxF f false old b else if elemVal t old 0 ≤ elemVal t b 0 then old else b
  | .max => if isF then fminmaxF f true old b else if elemVal t old 0 ≥ elemVal t b 0 then old else b
  | .and => old &&& b
  | .or => old ||| b
  | .xor => old ^^^ b
  | .exch => b
  | .inc => if old ≥ b then 0 else old + 1
  | .dec => if old = 0 || old > b then b else old - 1

/-- Words that accesses have flushed, each a change that is checked against the watch ranges for the lanes that name it (R281, R320). -/
def State.watchFlushed (s : State) (m : Msg) (acts : List Act) (ws : List (Nat × BitVec 32)) : State :=
  ws.foldl (fun s q => s.watchActs m ((acts.filter fun x => q.1 < x.key + x.size && x.key < q.1 + 4).map fun x => ⟨x.lane, q.1, 4, 0, 0⟩) true q.2) s

/-- One lane of an atomic, one change (R275, R276): a slot of its word is flushed first. Its old value. -/
def State.atomAct (s : State) (m : Msg) (i : Instr) (x : Act) : Nat × State :=
  let words := (List.range (max 1 (x.size / 4))).map fun j => (x.key / 4 + j) * 4
  let f := s.flushWords m.point m.leaf.hold ((s.slotWords m.line).filter words.contains) m.team
  let s := f.2.watchFlushed m [x] f.1
  let old := s.memNat x.key x.size
  let new := match i with
    | .atom _ t op .. => atomNew t op old x.b.toNat
    | _ => if old = x.b.toNat then x.c.toNat else old
  let r := s.applyRaw m.point m.leaf.hold m.line ({ x with b := BitVec.ofNat 64 new, c := 0 } : Act).cells m.team
  (old, r.2.watchActs m [x] true r.1)

def State.atomActs (s : State) (m : Msg) (i : Instr) : List Act → List Act × State
  | [] => ([], s)
  | x :: l =>
    let (old, s) := s.atomAct m i x
    let (r, s) := s.atomActs m i l
    ({ x with b := BitVec.ofNat 64 old, c := 0 } :: r, s)

/-- A message answered: a posted write that the host has taken is gone. -/
def State.answer (s : State) (id : Nat) (f : Msg → Msg) : State :=
  match s.msg? id with
  | some m => if m.phase == .posted then s.dropMsg id else s.modMsg id fun m => { f m with phase := .back, accepted := false, tries := 0 }
  | none => s

/-- One word flushed for a message, its change checked against the watch ranges (R281, R320). -/
def State.flushFor (s : State) (m : Msg) (hold : Option Bool) (lane w : Nat) : State :=
  match s.flushWord (homeOf 0 w) hold w m.team with
  | (none, s) => s
  | (some tag, s) => s.watchActs { m with point := homeOf 0 w } [⟨lane, w, 4, 0, 0⟩] true tag

/-- One word of a page's flush (R281): the lowest of a line that is still to be flushed. -/
def State.changeFlush (s : State) (m : Msg) : State :=
  let (k, s) := s.drawIndex m.acts.length
  match m.acts[k]? with
  | none => s.answer m.id id
  | some x =>
    let ws := (s.slotWords (lineOf x.key)).filter fun w => w < x.key + x.size && x.key < w + 4
    let others := m.acts.filter fun y => y != x
    let s := ws.head?.elim s (s.flushFor m m.leaf.hold x.lane)
    let rest := match ws with
      | w :: _ :: _ => { x with key := w + 4, size := x.key + x.size - (w + 4) } :: others
      | _ => others
    if rest.isEmpty then s.answer m.id id else s.modMsg m.id fun m => { m with acts := rest }

/-- Words of a slice that have a slot or a record and that a world may reach (R281). -/
def State.flushable (s : State) (d k : Nat) (secure : Bool) : List Nat :=
  (dedup ((s.slotsOf d k).map Scatter.word ++ (s.spills d k).map fun i => (s.spillAt d k i).word)).filter fun w => secure || !s.inRegion w

/-- One word of a slice's share of `GSFLUSH.all`, under the CMP of the last access to its line; the message is answered when nothing is left. -/
def State.changeFlushAll (s : State) (m : Msg) : State :=
  match m.point with
  | .slice d k =>
    let ws := s.flushable d k m.secure
    let (j, s) := s.drawIndex ws.length
    (match ws[j]? with
      | none => s.answer m.id id
      | some w => s.flushFor m (some (s.lineState (lineOf w)).cmp) ((m.acts.headD ⟨0, 0, 0, 0, 0⟩).lane) w)
  | _ => s

/-- A line written back to its device, and with `gone` removed from both tiers and every copy, unless it is pinned (R273). -/
def State.writeBack (s : State) (p : Point) (line : Nat) (gone : Bool) : State :=
  let pinned := s.pins.any fun q => q.line == line
  let home := match p with
    | .slice _ _ => (s.heldAt p).find? fun (h : Held) => h.line == line && h.written
    | _ => none
  let s := match home with
    | some h => if keyLpddr (lineBase line) then s else s.touchM line true true h.team
    | none => s
  let clean (s : State) (q : Point) : State :=
    if (s.heldAt q).isEmpty then s
    else s.setHeld q (if gone && !pinned then (s.heldAt q).filter fun h => h.line != line
      else mapIf (fun h => h.line == line) (fun h => { h with written := false }) (s.heldAt q))
  let s := if gone && !pinned then s.dropCopies p line else s
  clean (clean s p) (awayOf line)

/-- A write of the tape engine at its ordering point (R292, R374): a Change that no lane waits for. It waits while no PCIe link is up, and one to a peer whose
links are down ends with an engine error (R404, R406). -/
def State.changeSpill (s : State) (m : Msg) : State :=
  let l := (m.acts.headD ⟨0, 0, 0, 0, 0⟩).lane
  let who := s.whoNow m.crew m.sid l (m.who.onLane l)
  if s.reachable m.point then
    let src : WatchSrc := { src := 3, chan := 0, tmpl := 0, retired := s.retired m.crew m.sid }
    let r := s.apply m.point m.leaf.hold m.line (m.acts.map Act.cells).flatten m.team
    let s := r.1.foldl (fun s q => (s.watch m.point [(q.1, 4)] true who src q.2).2) r.2.2
    ((s.watch m.point (m.acts.map fun x => (x.key, x.size)) true who src r.2.1).2).dropMsg m.id
  else match m.point with
    | .peer _ => (s.event 10 m.core.die who { aux := 7, access := 3, pc := who.pc }).dropMsg m.id
    | _ => s

/-- CHANGE of a message (R285, R286). -/
def State.changeMsg (s : State) (id : Nat) : State :=
  match s.msg? id with
  | none => s
  | some m =>
    if !m.moving then s
    else match m.kind with
      | .store =>
        match m.point with
        | .pad crew r =>
          if s.padBlocked m then s
          else
            let s := m.acts.foldl (fun s x =>
              (s.modTeam crew r fun tm => tm.setPad x.key (leBytes x.size (x.b.toNat + x.c.toNat * 2 ^ 64))).padWritten crew r x.key x.size) s
            ((s.sampleLast m m.acts).dropMsg id).complete m.crew m.sid m.entry (lanesFrom (m.acts.map Act.lane))
        | .aperture _ =>
          let s := m.acts.foldl (fun s x =>
            let off := x.key % 2 ^ 48
            if off < 0x400000 then s.writeCounter m.secure (off / 0x100000) (off % 0x100000) x.b else s) s
          let (tag, s) := s.stamp m.point m.line
          s.answer id fun m => { m with tag := tag }
        | p =>
          if !s.reachable p then s
          else
            let r := s.apply p m.leaf.hold m.line (m.acts.map Act.cells).flatten m.team
            let s := ((r.2.2.watchFlushed m m.acts r.1).sampleSectors m).watchActs m m.acts true r.2.1
            s.answer id fun m => { m with tag := r.2.1 }
      | .atom | .acas =>
        if !s.reachable m.point || s.pcieBlocked m then s
        else if s.lost.contains m.line then s.answer id fun m => { m with bad := true }
        else
          let (acts, s) := (s.sampleSectors m).atomActs m (wordOf m.word) m.acts
          s.answer id fun m => { m with acts := acts, tag := (s.lineState m.line).tag }
      | .flush => s.changeFlush m
      | .flushAll => s.changeFlushAll m
      | .spill => s.changeSpill m
      | .evict => (s.writeBack m.point m.line true).answer id fun m => m
      | .clean => (s.writeBack m.point m.line false).answer id fun m => m
      | _ => s

/-- ACCEPT (R278, R280, R286): the first lane's contribution that has a slot, or room for one, is taken; the acknowledgement goes back when every lane's has been. -/
def execAccept (id spill : Nat) (s : State) : Host.Outcome State Fault Refusal :=
  .next (match s.msg? id with
    | none => s
    | some m =>
      if !m.moving || m.kind != .gsadd then s
      else
        let open_ := m.acts.filter fun x => x.size ≠ 0
        match open_.findSome? fun x => (s.contribute x.key x.b.toNat spill).map fun t => (x, t) with
        | none => if open_.isEmpty then s.answer id fun m => m else s
        | some (x, s) =>
          let s := if m.acts.all fun y => y.size ≠ 0 then s.sampleSectors m else s
          let acts := m.acts.map fun y => if y == x then { y with size := 0 } else y
          let s := s.setLine m.line { s.lineState m.line with cmp := m.leaf.cmp }
          let s := s.modMsg id fun m => { m with acts := acts }
          if acts.all fun y => y.size = 0 then s.answer id fun m => m else s)

/-! ### Hit and Deliver -/

/-- A lane's result written when its access completes (R263, R265, R274, R272, R359). -/
def writeResult (cx : Ctx) (i : Instr) (m : Msg) (x : Act) (s : State) : State :=
  let v := x.b.toNat + x.c.toNat * 2 ^ 64
  match i with
  | .ld _ t md d .. => cx.putGroup t (MemSize md) d x.lane v s
  | .lds _ t z d .. => cx.putGroup t z d x.lane v s
  | .st _ _ _ tag d .. =>
    if tag then (match d with
      | .g n => cx.setGReg n.toNat (m.tag.setWidth 64) s
      | .v n => cx.setV32 n.toNat x.lane m.tag s
      | _ => s)
    else s
  | .atom _ t _ d .. | .acas _ t d .. => cx.write t d x.lane x.b s
  | .pin _ d .. => cx.write .n32 d x.lane x.b s
  | .sld _ t z _ d .. =>
    let z' : Size := match z with | .nat => .nat | .b8 => .b8 | .b16 => .b16
    cx.write t d x.lane (BitVec.ofNat 64 (loadShape t z' v)) s
  | _ => s

/-- Lanes of a message complete: results written, causes recorded where the response is uncorrectable, an acquire's Invalidate made (R257, R263, R289). -/
def State.finishMsg (s : State) (m : Msg) : State :=
  match s.crew? m.crew, s.strand? m.crew m.sid, s.entry? m.crew m.sid m.entry with
  | some c, some t, some e =>
    let i := wordOf e.word
    let cx := entryCtx s c t e
    let live := m.acts.filter fun x => e.undone.getLsbD x.lane
    if m.bad then
      let ls := live.map Act.lane
      (s.modEntry m.crew m.sid m.entry fun e => { e with sent := e.sent &&& ~~~(lanesFrom ls) }).logFault m.crew m.sid m.entry ls 9 (kindOf i) false
    else
      let s := live.foldl (fun s x => if (t.thread x.lane).exited then s else writeResult cx i m x s) s
      let s := s.sampleLast m live
      let s := match acqScope i with
        | some sc => if scopeInv sc && cx.core.core < 4 then s.invalidateL1 cx.core else s
        | none => s
      let s := match i with
        | .ld _ _ _ _ _ _ h => if h == 3 then s.dropLine cx.core m.line else s
        | _ => s
      -- a lane of a flush completes when its last message has been answered (R281)
      let more (l : Nat) : Bool := s.msgs.any fun o => o.id != m.id && o.entry == m.entry && o.acts.any fun x => x.lane == l
      s.complete m.crew m.sid m.entry (lanesFrom ((live.map Act.lane).filter fun l => !more l))
  | _, _, _ => s

/-- Lane accesses that the coalescer delivers, and the line that it expands (R253, R254, R396). -/
def State.coalesced (s : State) (m : Msg) (expand : Bool) : State :=
  if m.kind != .load || m.bad then s else (s.countCore m.core 1 m.acts.length).expand m.core (expand && m.leaf.cmp)

/-- HIT (R286): a plain load, or an acquire at `th` or `tm`, takes its bytes from the core's L1 view. An entry that meets an uncorrectable error goes, and
the lanes raise cause 9 (R257). -/
def execHit (id : Nat) (s : State) : Host.Outcome State Fault Refusal :=
  .next (match s.msg? id with
    | none => s
    | some m =>
      let need := m.acts.foldl (fun n x => n ||| sectorsOf x.key x.size) (0 : BitVec 4)
      let mayHit := match acqScope (wordOf m.word) with
        | some sc => !scopeInv sc
        | none => true
      if !m.moving || m.kind != .load || !mayHit || m.core.core ≥ 4 || s.resultsHeld m then s
      else match m.point with
        | .pad _ _ => s
        | _ => match s.l1Entry m.core m.line m.secure m.asid with
          | none => s
          | some e =>
            if e.sectors &&& need != need then s
            else
              let s := if e.spec &&& need = 0 then s else s.modSample m.crew m.sid m.entry fun y => { y with spec := true }
              let (err, s) := s.drawError
              let m' := { m with tag := e.tag, bad := err, acts := m.acts.map fun x => x.fill (e.bytes x.key x.size) }
              let s := if err then s.loseL1 m.core e else (s.hitL1 m.core e need).coalesced m' false
              (s.dropMsg id).finishMsg m')

/-- A store through the window of a peer whose link is down completes with an engine error (R406). -/
def State.storeFails (s : State) (m : Msg) : State :=
  match s.crew? m.crew with
  | some c => ((s.event 10 c.die m.who { aux := 7, access := 3, pc := m.who.pc }).dropMsg m.id).complete m.crew m.sid m.entry (lanesFrom (m.acts.map Act.lane))
  | none => (s.event 10 m.core.die m.who { aux := 7, access := 3, pc := m.who.pc }).dropMsg m.id

/-- A store with `.tag` (R265). -/
def wantsTag : Instr → Bool
  | .st _ _ _ tag .. => tag
  | _ => false

/-- DELIVER (R286): a response or acknowledgement; a PCIe write's lane completes when the write leaves the link (R404), with `.tag` at its
acknowledgement, which alone carries a tag (R265; DEDUCED, log 26). -/
def execDeliver (id : Nat) (s : State) : Host.Outcome State Fault Refusal :=
  .next (match s.msg? id with
    | none => s
    | some m =>
      if m.phase == .back && !m.held then
        if s.resultsHeld m then s else
        let mem := match m.point with | .pad _ _ | .aperture _ => false | _ => true
        let s := if mem && m.core.core < 4 && (m.kind == .load || m.kind == .atom || m.kind == .acas) then s.dropOlder m.core m.line m.tag else s
        ((s.coalesced m (mem && !m.peer && !m.taken)).dropMsg id).finishMsg m
      else if m.phase == .out && !m.held && m.point == .pcie && m.kind == .store && s.reachable .pcie && !wantsTag (wordOf m.word) then
        (s.modMsg id fun m => { m with phase := .posted }).finishMsg { m with acts := m.acts }
      else if m.phase == .out && !m.held && m.kind == .store && !s.reachable m.point && m.point != .pcie then s.storeFails m
      else s)

/-! ### The L1 views' own moves -/

/-- The core with a number of the package. -/
def coreAt (n : Nat) : CoreId := { die := n / 168, cluster := n % 168 / 4, core := n % 4 }

/-- A Fill for a virtual line of an ASID and world, as translation gives it, that no response of a load brings: its home takes the line as for a load
(R244, R246), and a line of a CMP = 1 page stays to be expanded (log 80). None where nothing may be filled. -/
def State.fillVa (s : State) (core line asid : Nat) (secure : Bool) (sec : BitVec 4) (spec : Bool) : Option State :=
  match s.translate (BitVec.ofNat 16 asid) secure .load (BitVec.ofNat 64 (line * 128)) with
  | (.ok f, s) =>
    let c := coreAt core
    if s.fillOk c f secure (BitVec.ofNat 16 asid) sec then
      let s := s.touch (homeOf f.cp f.at_) f.hold (lineOf f.at_) false none
      let s := if f.cp = 0 then s.copyFor (homeOf f.cp f.at_) (lineOf f.at_) c none else s
      some (s.fillL1 c (lineOf f.at_) secure (BitVec.ofNat 16 asid) (if f.cmp then 0xF else sec) spec f.cmp)
    else none
  | (.fail _ _, _) => none

/-- FILL (R286): `line` is the number of a virtual line of the ASID. -/
def execFill (core line asid : Nat) (secure : Bool) (sec : BitVec 4) (s : State) : Host.Outcome State Fault Refusal :=
  .next ((s.fillVa core line asid secure sec false).getD s)

/-- DROP (R286): `line` is a physical line's number. -/
def execDrop (core line : Nat) (s : State) : Host.Outcome State Fault Refusal := .next (s.dropLine (coreAt core) line)

/-- The words of a path for which a load may start under speculation, with their positions: those still to issue of a clause in progress, or those of the
clause at whose header it stands, where its ceilings are met (R395). -/
def State.speculableWords (s : State) (c : Crew) (sid : Sid) (t : Strand) (p : Path) : List (Nat × Word) :=
  let num (l : List Word) : List (Nat × Word) := (List.range l.length).zip l
  if p.frozen.isSome then []
  else match p.clause with
    | some cl => (num cl.words).drop cl.pos
    | none =>
      if p.at_.isNone && s.eligible c sid t p then
        num (s.fetchWords (c.coreOf sid) c.asid c.secure (p.pc + 8) ((s.peekHeader c sid p.pc).count + 1)).1
      else []

/-- Registers that an operand names, g registers above the vector registers. -/
def namedRegs (u : Use) : List Nat :=
  Ctx.useRegs u ++ match u with
    | .src _ (.g k) | .dst _ (.g k) => [1024 + k.toNat]
    | _ => []

/-- Registers that a word may write: a load after it in its clause through one of them has no address yet. -/
def writtenRegs (i : Instr) : List Nat := ((usesOf i).map fun u => match u with
  | .dst .. | .grp .. => namedRegs u
  | _ => []).flatten

/-- A base that a word before the load in its clause may still give. -/
def baseOpen (ws : List (Nat × Word)) (pos : Nat) (a : Opd) : Bool :=
  (match a with | .x k => k.toNat < 3 | _ => false)
    || ws.any fun y => y.1 < pos && (writtenRegs (wordOf y.2)).any (namedRegs (.src .n64 a)).contains

/-- Sectors of a virtual line that a plain load of a path would name in one of its lanes, guarded or not, with its base as it stands (R293). -/
def State.specSectors (s : State) (c : Crew) (sid : Sid) (t : Strand) (p : Path) (line : Nat) : BitVec 4 :=
  let ws := s.speculableWords c sid t p
  ws.foldl (fun m x => match wordOf x.2 with
    | .ld _ ty md _ a off _ =>
      if (acqScope (wordOf x.2)).isSome || baseOpen ws x.1 a then m
      else
        let cx : Ctx := { s0 := s, grant := { crew := c.id, sid := sid, path := p.id, lone := false }, crew := c, t := t, path := p,
                          cl := { hdr := 0, head := s.peekHeader c sid p.pc, words := [], pos := x.1 }, word := x.2, addr := 0, lanes := p.lanes, act := p.lanes, hnd := t.inH }
        (lanesOf p.lanes).foldl (fun m l => let e := (cx.ea a off l).toNat; if e / 128 = line then m ||| sectorsOf e (sizeBytes ty (MemSize md)) else m) m
    | _ => m) 0

/-- Sectors of a virtual line that the streams of the crews of an ASID and world on a core may load under speculation. Which of those loads the part starts,
and when, the spec leaves open (log 80). -/
def State.speculable (s : State) (core : CoreId) (asid : BitVec 16) (secure : Bool) (line : Nat) : BitVec 4 :=
  (s.crews.filter fun c => c.asid == asid && c.secure == secure).foldl (fun m c =>
    (c.sids.filter fun sid => c.coreOf sid == core).foldl (fun m sid => match c.strand? sid with
      | some t => t.paths.foldl (fun m p => m ||| s.specSectors c sid t p line) m
      | none => m) m) 0

/-- SPECULATIVE_LOAD (R293, R395): a Fill for a load of a clause whose header has met its ceilings; it counts in SPEC. -/
def execSpeculativeLoad (core line asid : Nat) (secure : Bool) (sec : BitVec 4) (s : State) : Host.Outcome State Fault Refusal :=
  .next (if sec &&& ~~~(s.speculable (coreAt core) (BitVec.ofNat 16 asid) secure line) = 0 then
      match s.fillVa core line asid secure sec true with
      | some u => (u.countCore (coreAt core) 4 1).coreSignal (coreAt core) 10 1
      | none => s
    else s)

/-! ### Errors of memory (R257) -/

/-- A line whose data no code corrects is lost until a write of all its bytes; that of a written line is reported to the host, in the ring of the world
that owns it (log 79). -/
def State.loseLine (s : State) (line : Nat) : State :=
  if s.lost.contains line then s
  else
    let pa := lineBase line
    let home := homeOf 0 pa
    let written := ([home, awayOf line].any fun p => (s.heldAt p).any fun h => h.line == line && h.written && !h.copy)
    let s := { s with lost := s.lost ++ [line] }
    if written then
      s.event 12 (paDie (keyPa pa)) { gln := paDie (keyPa pa) * 2 ^ 18, prod := false, gaff := false, secure := s.inRegion pa, pc := 0, task := 0, asid := 0, queue := 0 }
        { addr := BitVec.ofNat 64 pa }
    else s

/-- MEMSIDE_WRITEBACK (R248): a held written line goes back to HBM4, and stays held. The read that this takes may find an error of the line (R257), which
is corrected and counted, or loses the line: a free choice (log 79). -/
def execMemsideWriteback (die slice line : Nat) (s : State) : Host.Outcome State Fault Refusal :=
  let p := Point.mslice die slice
  let (err, s) := s.drawIndex 3
  let s := if err = 1 then { s with corrected := s.corrected + 1 } else if err = 2 then s.loseLine line else s
  .next (s.setHeld p (mapIf (fun h => h.line == line) (fun h => { h with written := false }) (s.heldAt p)))

end Sys2Proof.Machine
end

