-- ==== Sys2Proof/Machine/Vaccess.lean ====
section
/-! DEFINITION. Reads and changes of memory at virtual addresses by words and engines that act on several lines (R225, R286, R292, R320):
one translation, one Read or one change for each line. -/

namespace Sys2Proof.Machine

/-- For whom an access is made: its address space and world, the team whose line it is for replacement, and how a WATCH record names it (R320). -/
structure By where
  asid   : BitVec 16
  secure : Bool
  team   : Option (Nat × Nat)
  who    : Who
  src    : WatchSrc
  lane   : Option (Nat × Sid × Bool × Nat)   -- crew, stream, handler, lane: where it is a lane access
deriving DecidableEq, Repr

/-- Pieces of a range, one for each 128-byte line. -/
def spansFrom : Nat → Nat → Nat → List (Nat × Nat)
  | 0, _, _ => []
  | f + 1, va, n =>
    if n = 0 then []
    else
      let k := min n (128 - va % 128)
      (va, k) :: spansFrom f (va + k) (n - k)

def spans (va n : Nat) : List (Nat × Nat) := spansFrom (n / 128 + 2) va n

/-- Outcome of an access: its bytes, or the cause of its first piece that fails, with the address. -/
inductive VaRes where
  | ok (l : List Byte)
  | fail (cause va : Nat) (absent : Bool)
deriving DecidableEq, Repr

/-- A Read or Change of bytes checked against the watch ranges; a lane access also raises cause 14 (R320). -/
def State.watchParts (s : State) (b : By) (p : Point) (parts : List (Nat × Nat)) (wr : Bool) (tag : BitVec 32) : State :=
  match s.watch p parts wr b.who b.src tag, b.lane with
  | (none, s), _ => s
  | (some _, s), none => s
  | (some a, s), some (crew, sid, inH, l) => s.modStrand crew sid fun t =>
      { t with pend := t.pend ++ [(⟨14, inH, none, 1#32 <<< l, a, if wr then 2 else 1, false, none⟩ : Pend)] }

def State.watchBy (s : State) (b : By) (p : Point) (k n : Nat) (wr : Bool) (tag : BitVec 32) : State := s.watchParts b p [(k, n)] wr tag

/-- Words that an access has flushed, each checked as a change of its own (R281, R320). -/
def State.watchFlushes (s : State) (b : By) (p : Point) (ws : List (Nat × BitVec 32)) : State :=
  ws.foldl (fun s q => s.watchBy b p q.1 4 true q.2) s

/-- The device aperture takes only 8-byte lane accesses (R403): no engine reads or writes it. -/
def engineOk (l : Leaf) : Bool := keyLpddr l.at_ || !keyAperture l.at_

/-- An engine error for the host (R346). -/
def State.engineError (s : State) (die ecode : Nat) (w : Who) : State := s.event 10 die w { aux := BitVec.ofNat 64 ecode, access := 3, pc := w.pc }

/-- A tile fetch or a tape access that names the device aperture ends with ECODE 1 (R403): the engine error that says so stands beside the cause that the word
raises (DEDUCED, log 82). -/
def State.apertureNamed (s : State) (b : By) : State := if b.src.src = 2 || b.src.src = 3 then s.engineError (b.who.gln / 2 ^ 18) 1 b.who else s

/-- A read through the PCIe window is answered: it may end with an error completion or a timeout instead, and does where no link is up (R404, log 70). -/
def State.answered (s : State) (f : Leaf) : Bool × State :=
  if !keyPcie f.at_ then (true, s)
  else
    let (lost, s) := s.drawBit
    (!lost && s.links.any Link.up, s)

/-- The leaf of one piece, or its cause. -/
def State.leafFor (s : State) (b : By) (k : Access) (va : Nat) : Walk × State :=
  if 2 ^ 64 ≤ va then (.fail 6 false, s)
  else match s.translate b.asid b.secure k (BitVec.ofNat 64 va) with
    | (.ok l, s) => if engineOk l then (.ok l, s) else (.fail 6 false, s.apertureNamed b)
    | r => r

/-- One Read at a home; none where the line is uncorrectable (R257). -/
def State.readPiece (s : State) (b : By) (l : Leaf) (n : Nat) : Option (List Byte) × State :=
  if s.lost.contains (lineOf l.at_) then (none, s)
  else
    let p := homeOf l.cp l.at_
    let v := s.readVis l.at_ n
    (some v, (s.touch p l.hold (lineOf l.at_) false b.team).watchBy b p l.at_ n false 0)

/-- One change at a home. -/
def State.writePiece (s : State) (b : By) (l : Leaf) (bytes : List Byte) : State :=
  let p := homeOf l.cp l.at_
  let cells : List Host.Cell := ((List.range bytes.length).zip bytes).map fun q => (l.at_ + q.1, q.2)
  let r := s.apply p l.hold (lineOf l.at_) cells b.team
  (r.2.2.watchFlushes b p r.1).watchBy b p l.at_ bytes.length true r.2.1

/-- Read each piece in turn. -/
def State.loadSpans (s : State) (b : By) : List (Nat × Nat) → VaRes × State
  | [] => (.ok [], s)
  | (va, n) :: l =>
    match s.leafFor b .load va with
    | (.fail c a, s) => (.fail c va a, s)
    | (.ok f, s) => match s.answered f with
      | (false, s) => (.fail 6 va false, s)
      | (true, s) => match s.readPiece b f n with
        | (none, s) => (.fail 9 va false, s)
        | (some v, s) => match s.loadSpans b l with
          | (.ok r, s) => (.ok (v ++ r), s)
          | r => r

def State.loadVa (s : State) (b : By) (va n : Nat) : VaRes × State := s.loadSpans b (spans va n)

/-- The leaves of pieces that are all to be written; nothing changes. -/
def State.leavesFor (s : State) (b : By) (k : Access) : List (Nat × Nat) → (List (Leaf × Nat) ⊕ (Nat × Nat × Bool)) × State
  | [] => (.inl [], s)
  | (va, n) :: l =>
    match s.leafFor b k va with
    | (.fail c a, s) => (.inr (c, va, a), s)
    | (.ok f, s) => match s.leavesFor b k l with
      | (.inl r, s) => (.inl ((f, n) :: r), s)
      | r => r

def State.writePieces (s : State) (b : By) : List (Leaf × Nat) → List Byte → State
  | [], _ => s
  | (f, n) :: l, bytes => (s.writePiece b f (bytes.take n)).writePieces b l (bytes.drop n)

/-- Write a range, a change for each line, once every line translates. -/
def State.storeVa (s : State) (b : By) (va : Nat) (bytes : List Byte) : VaRes × State :=
  match s.leavesFor b .store (spans va bytes.length) with
  | (.inr (c, v, a), s) => (.fail c v a, s)
  | (.inl fs, s) => (.ok [], s.writePieces b fs bytes)

/-- A lane fault of an access. -/
def laneFault (l cause va kind : Nat) (absent : Bool) : LaneFault :=
  { lane := l, cause := cause, addr := BitVec.ofNat 64 va, kind := kind, absent := absent }

/-- A lane of a word, as the agent of an access. -/
def Ctx.byLane (c : Ctx) (l : Nat) : By :=
  { asid := c.crew.asid, secure := c.crew.secure, team := (sidTeam? c.sid).map fun r => (c.id, r), who := c.crew.who c.sid l,
    src := { src := 0, chan := 0, tmpl := 0, retired := false }, lane := some (c.id, c.sid, c.inH, l) }

/-! ### What an entry has read: a rendering word (R382) and a refill (R378) make their reads one by one -/

/-- What a lane has of the bytes it needs: a value, or the pieces that it can read next, as addresses and sizes. -/
abbrev Rd (α : Type) := Except (List (Nat × Nat)) α

/-- The pieces that a lane still lacks. -/
def lacks : Rd α → List (Nat × Nat)
  | .ok _ => []
  | .error l => l

/-- Two values that do not depend on each other. -/
def bothRd (x : Rd α) (y : Rd β) : Rd (α × β) :=
  match x, y with
  | .ok a, .ok b => .ok (a, b)
  | _, _ => .error (lacks x ++ lacks y)

/-- The values of a list, none of which depends on another. -/
def mapRd (f : α → Rd β) : List α → Rd (List β)
  | [] => .ok []
  | x :: l => (bothRd (f x) (mapRd f l)).map fun p => p.1 :: p.2

/-- Bytes at a virtual address, from the pieces that a lane has read. -/
def haveVa (got : List LaneRead) (va n : Nat) : Rd (List Byte) :=
  (mapRd (fun p => match got.find? fun r => r.va == p.1 && r.data.length == p.2 with
    | some r => .ok r.data
    | none => .error [p]) (spans va n)).map List.flatten

/-- The pieces that a lane of an entry has read. -/
def Entry.got (e : Entry) (l : Nat) : List LaneRead := e.reads.filter fun r => r.lane == l

end Sys2Proof.Machine
end

