-- ==== Sys2Proof/Machine/Queue.lean ====
section
/-! DEFINITION. Graph queues and join blocks (R329 to R335), the queues of the producer program (R357 to R364), and the producer's own words. -/

namespace Sys2Proof.Machine

/-! ### Work queues -/

def State.modQueue (s : State) (q : Nat) (f : Queue → Queue) : State := { s with queues := assocSet s.queues q (f (s.queue q)) }

/-- Slots of a ring. -/
def Queue.size (q : Queue) : Nat := 2 ^ q.log2n.toNat

/-- Records between HEAD and TAIL, and free slots (R332). -/
def Queue.count (q : Queue) : Nat := (q.tail - q.head).toNat
def Queue.free (q : Queue) : Nat := q.size - q.count

/-- Address of index i (R329). -/
def Queue.slotVa (q : Queue) (i : Nat) : Nat := q.base.toNat + 32 * (i % q.size)

/-- A graph queue that software of an address space and world may name (R334, R335). -/
def Queue.open_ (q : Queue) (asid : BitVec 16) (secure : Bool) : Bool := q.en && q.kind && q.asid == asid && q.world == secure

/-- A reservation or push that failed (R335). -/
def State.queueFail (s : State) (q : Nat) (die : Nat) (w : Who) : State :=
  let s := s.modQueue q fun x => { x with exh := true, fails := x.fails + 1 }
  let x := s.queue q
  if x.exhlim ≠ 0 && x.fails.toNat = x.exhlim.toNat then
    (s.event 9 die { w with queue := q, asid := x.asid, secure := x.world } { addr := 0 }).modQueue q fun x => { x with fails := 0 }
  else s

/-- A record with CMT written. -/
def committed (r : List Byte) : List Byte := r.take 31 ++ [(r.getD 31 0) ||| 0x80]

/-- Reserve and commit one slot for a record (R334, R335). -/
def State.pushRecord (s : State) (b : By) (q : Nat) (r : List Byte) : VaRes × State :=
  let x := s.queue q
  match s.storeVa b (x.slotVa x.tail.toNat) (committed r) with
  | (.ok l, s) => (.ok l, s.modQueue q fun x => { x with tail := x.tail + 1 })
  | f => f

/-- What a join comes to. -/
inductive Joined where
  | done (s : State)
  | refused (s : State)
  | fail (cause va : Nat) (absent : Bool) (s : State)

/-- `Join` (R334). The block is changed last, so that a ring that cannot be written leaves it as it was. The block's
reserved bits are ignored, and kept by the change (DESIGN CHOICE, log 81). -/
def State.joinBlock (s : State) (b : By) (die va : Nat) : Joined :=
  match s.leavesFor b .store (spans va 64) with
  | (.inr (c, v, a), s) => .fail c v a s
  | (.inl fs, s) => match s.loadVa b va 64 with
    | (.fail c v a, s) => .fail c v a s
    | (.ok blk, s) =>
      let count := leNat (blk.take 4)
      let q := fld (leNat ((blk.drop 8).take 8)) 0 12
      let rec_ := (blk.drop 32).take 32
      let x := s.queue q
      let lower (s : State) : State := (s.storeVa b va (leBytes 4 (count - 1))).2
      if count = 0 then .done (s.event 7 die b.who { addr := BitVec.ofNat 64 va, pc := b.who.pc })
      else if count = 1 then
        if !x.open_ b.asid b.secure then .done ((lower s).event 8 die b.who { addr := BitVec.ofNat 64 va, pc := b.who.pc })
        else if x.free = 0 then .refused ((fs.head?.map fun f => homeOf f.1.cp f.1.at_).elim id (fun p s => s.countDrop p) (s.queueFail q die b.who))
        else match s.pushRecord b q rec_ with
          | (.fail c v a, s) => .fail c v a s
          | (.ok _, s) => .done (lower s)
      else .done (lower s)

namespace Ctx

/-- One lane's turn: a new state, or its fault. -/
abbrev Turn := State → Nat → State × Option LaneFault

/-- Each guarded lane acts in turn, ascending (R335). -/
def turns (c : Ctx) (f : Turn) : Out :=
  let r := c.ls.foldl (fun (q : State × List LaneFault) l =>
    match f q.1 l with
    | (s, none) => (s, q.2)
    | (s, some e) => (s, q.2 ++ [e])) (c.s0, [])
  if r.2.isEmpty then .done r.1 else .raise r.1 0 r.2

/-- A queue operand (R335): none for cause 3. -/
def queueOf (c : Ctx) (s : State) (v : Nat) : Option (Nat × Queue) :=
  let x := s.queue v
  if v < 4096 && x.open_ c.crew.asid c.crew.secure then some (v, x) else none

def fault3 (l : Nat) : LaneFault := laneFault l 3 0 0 false

/-- One lane of `SPAWN`. -/
def spawnLane (c : Ctx) (d a b : Opd) (s : State) (l : Nat) : State × Option LaneFault :=
  let va := c.rd .n64 a l
  match c.queueOf s (c.rd .n32 b l) with
  | none => (s, some (fault3 l))
  | some (q, x) =>
    if va % 32 ≠ 0 then (s, some (laneFault l 7 va 0 false))
    else if x.free = 0 then (c.write .n32 d l 0 (s.queueFail q c.die (c.crew.who c.sid l)), none)
    else match s.loadVa (c.byLane l) va 32 with
      | (.fail k v ab, s) => (s, some (laneFault l k v 1 ab))
      | (.ok r, s) => match s.pushRecord (c.byLane l) q r with
        | (.fail k v ab, s) => (s, some (laneFault l k v 2 ab))
        | (.ok _, s) => (c.write .n32 d l 1 s, none)

/-- One lane of `QRES`. -/
def qresLane (c : Ctx) (d a b : Opd) (s : State) (l : Nat) : State × Option LaneFault :=
  let n := c.rd .n32 b l
  match c.queueOf s (c.rd .n32 a l) with
  | none => (s, some (fault3 l))
  | some (q, x) =>
    if n = 0 || n > 256 then (s, some (fault3 l))
    else if x.free < n then (c.write .n64 d l 0 (s.queueFail q c.die (c.crew.who c.sid l)), none)
    else (c.write .n64 d l (BitVec.ofNat 64 (x.slotVa x.tail.toNat)) (s.modQueue q fun x => { x with tail := x.tail + BitVec.ofNat 32 n }), none)

/-- Addresses of n records from a slot on, wrapping; none where one of them is not reserved (R335). -/
def commitVas (x : Queue) (va n : Nat) : Option (List Nat) :=
  let off := va - x.base.toNat
  if va < x.base.toNat || off % 32 ≠ 0 || off / 32 ≥ x.size then none
  else
    let slot := off / 32
    let ahead := (slot + x.size - x.head.toNat % x.size) % x.size
    if ahead + n > x.count then none else some ((List.range n).map fun i => x.slotVa (slot + i))

/-- CMT set in each record that does not hold it. -/
def commitAll (b : By) : List Nat → State → VaRes × State
  | [], s => (.ok [], s)
  | va :: l, s => match s.loadVa b (va + 24) 8 with
    | (.ok r, s) =>
      let w := leNat r
      if fld w 63 1 = 1 then commitAll b l s
      else match s.storeVa b (va + 24) (leBytes 8 (w + 2 ^ 63)) with
        | (.ok _, s) => commitAll b l s
        | f => f
    | f => f

/-- One lane of `QCOMMIT`. -/
def qcommitLane (c : Ctx) (a b n : Opd) (s : State) (l : Nat) : State × Option LaneFault :=
  let k := c.rd .n32 n l
  match c.queueOf s (c.rd .n32 b l) with
  | none => (s, some (fault3 l))
  | some (_, x) =>
    if k = 0 || k > 256 then (s, some (fault3 l))
    else match commitVas x (c.rd .n64 a l) k with
      | none => (s, some (fault3 l))
      | some vas => match commitAll (c.byLane l) vas s with
        | (.ok _, s) => (s, none)
        | (.fail e v ab, s) => (s, some (laneFault l e v 2 ab))

/-- The release at `dev` of a word (R291). -/
def relDev (c : Ctx) : Bool := c.s0.released c.crew c.t false c.act none .dev

/-- JOIN in the lanes still to act: a refused lane stalls the word until its back-off is over, and the lanes before it do not act again (R334, R341). -/
def joinLanes (c : Ctx) (a : Opd) : List Nat → State → List LaneFault → Out
  | [], s, fs => if fs.isEmpty then .done s else .raise s 0 fs
  | l :: ls, s, fs =>
    let va := c.rd .n64 a l
    let port := corePort c.core
    let hold (s : State) : Out := .hold (c.modP s fun p => { p with only := some (lanesFrom (l :: ls) ||| lanesFrom (fs.map LaneFault.lane)) })
    if va % 64 ≠ 0 then c.joinLanes a ls s (fs ++ [laneFault l 7 va 0 false])
    else match s.joinMay port c.die c.id (some c.sid) l with
      | (false, s) => hold s
      | (true, s) => match s.joinBlock (c.byLane l) c.die va with
        | .done s => c.joinLanes a ls (s.served c.id (some c.sid) l) fs
        | .fail k v ab s => c.joinLanes a ls (s.served c.id (some c.sid) l) (fs ++ [laneFault l k v 2 ab])
        | .refused s => hold (s.refused port c.die c.id (some c.sid) l)

end Ctx

/-- SPAWN (R335). -/
def execSpawn (p : Pre) (d a b : Opd) (s : State) : Host.Outcome State Fault Refusal :=
  word (.spawn p d a b) s fun c => if c.act = 0 then .done c.s0 else if !c.relDev then .stall else c.turns (c.spawnLane d a b)

/-- JOIN (R334, R335). -/
def execJoin (p : Pre) (a : Opd) (s : State) : Host.Outcome State Fault Refusal :=
  word (.join p a) s fun c => if c.act = 0 then .done c.s0 else if !c.relDev then .stall else c.joinLanes a c.ls c.s0 []

/-- QRES (R335). -/
def execQres (p : Pre) (d a b : Opd) (s : State) : Host.Outcome State Fault Refusal :=
  word (.qres p d a b) s fun c => c.turns (c.qresLane d a b)

/-- QCOMMIT (R335). -/
def execQcommit (p : Pre) (a b n : Opd) (s : State) : Host.Outcome State Fault Refusal :=
  word (.qcommit p a b n) s fun c => if c.act = 0 then .done c.s0 else if !c.relDev then .stall else c.turns (c.qcommitLane a b n)

/-! ### The producer's queues (R357, R360, R363) -/

def pqCount (w : Word) : Nat := wfld w 5 6
def pqHead (w : Word) : Nat := wfld w 0 5
def pqWord (count head : Nat) : Word := BitVec.ofNat 64 (count % 64 * 32 + head % 32)

/-- First byte of entry i of queue n of a team (R357). -/
def Crew.entryPad (c : Crew) (n i : Nat) : Nat := c.padS - 1280 + 256 * n + 8 * (i % 32)

/-- Take pushes, in push order, while their queues have room (R360); paths that wait on a queue look again. -/
def State.takePushes (s : State) (crew r : Nat) : Nat → State
  | 0 => s
  | f + 1 =>
    match s.crew? crew, s.strand? crew (.producer r), s.team? crew r with
    | some c, some t, some tm =>
      match t.log.find? fun e => match wordOf e.word with | .qpush .. => true | _ => false with
      | some e =>
        match wordOf e.word with
        | .qpush _ _ n =>
          let q := tm.queues.getD n.toNat 0
          if 32 ≤ pqCount q then s
          else
            let s := s.modTeam crew r fun tm =>
              { tm.setPadNat (c.entryPad n.toNat (pqHead q + pqCount q)) 8 ((e.srcOf 0).getD 0 0).toNat with
                queues := listSet tm.queues n.toNat (pqWord (pqCount q + 1) (pqHead q)) }
            let s := s.modCrew crew fun c => c.endWaits (some r) fun w => w == .qpop
            (s.complete crew (.producer r) e.id 1).takePushes crew r f
        | _ => s
      | none => s
    | _, _, _ => s

/-- Pushes of a producer that have not been taken. -/
def Strand.pushes (t : Strand) : Nat := (t.log.filter fun e => match wordOf e.word with | .qpush .. => true | _ => false).length

/-- The oldest pushes of a team's producer arrive (R360). One that meets a full queue is dropped, its cluster's port counts the drop, and it waits its
back-off in the window with those behind it (R341, R342). -/
def State.sendPushes (s : State) (crew r : Nat) : State :=
  let s := s.takePushes crew r 9
  match s.crew? crew, s.strand? crew (.producer r) with
  | some c, some t =>
    let sid := some (Sid.producer r)
    let head := (t.log.find? fun e => match wordOf e.word with | .qpush .. => true | _ => false).map Entry.id
    let s := { s with replays := s.replays.filter fun x => x.crew != crew || x.sid != sid || some x.lane == head }
    match head with
    | none => s
    | some id => (s.refused (puntyPort (c.coreOf (.producer r))) c.die crew sid id).addCounter c.die (0x8000 + 8 * c.cluster) 1
  | _, _ => s

/-- The pushes that wait for a port's back-off are sent again once it is over. -/
def State.resendPushes (s : State) (port : Nat) : State :=
  (s.replays.filter fun r => r.port == port && s.crews.any fun c => c.id == r.crew && r.due ≤ s.clk c.die).foldl (fun s r => match r.sid with
    | some (.producer k) => s.sendPushes r.crew k
    | _ => s) s

/-- QPUSH (R360): a push waits in its window behind one that was dropped. -/
def execQpush (p : Pre) (a : Opd) (n : BitVec 2) (s : State) : Host.Outcome State Fault Refusal :=
  word (.qpush p a n) s fun c =>
    if c.act = 0 then .done c.s0
    else if 8 ≤ c.t.pushes || !c.t.canRaise ⟨0, 1, 0, 0⟩ then .stall
    else
      let s := (c.newEntry c.s0 false c.ls (fun l => [c.read .n64 a l]) ⟨0, 1, 0, 0⟩).2
      .done (if c.t.pushes = 0 then s.sendPushes c.id c.rank else s)

/-- The team owns the producer program of its core (R363). -/
def Ctx.ownsQueues (c : Ctx) : Bool := (c.team.map fun t => t.producer.isSome).getD false

/-- State word of a queue of the stream's team. -/
def Ctx.pq (c : Ctx) (n : Nat) : Word := (c.team.map fun t => t.queues.getD n 0).getD 0

/-- QPOP (R363): k entries in one move, the j-th oldest to the j-th guarded lane. -/
def execQpop (p : Pre) (t : Ty) (d : Opd) (n : BitVec 2) (s : State) : Host.Outcome State Fault Refusal :=
  word (.qpop p t d n) s fun c =>
    let q := c.pq n.toNat
    let k := c.ls.length
    if c.act = 0 then .done c.s0
    else if !c.ownsQueues then raiseAll c 0 3
    else if pqCount q < k then .wait c.s0 .qpop
    else
      let val (j : Nat) : Word := (c.team.map fun tm => tm.padWord (c.crew.entryPad n.toNat (pqHead q + j))).getD 0
      let s := ((List.range k).zip c.ls).foldl (fun s x => c.write t d x.2 (val x.1) s) c.s0
      .done (s.modTeam c.id c.rank fun tm => { tm with queues := listSet tm.queues n.toNat (pqWord (pqCount q - k) (pqHead q + k)) })

/-- QPEEK (R364). -/
def execQpeek (p : Pre) (d : Opd) (n : BitVec 2) (s : State) : Host.Outcome State Fault Refusal :=
  word (.qpeek p d n) s fun c =>
    if c.act = 0 then .done c.s0
    else if !c.ownsQueues then raiseAll c 0 3
    else .done (c.forLanes (fun l s => c.write .n32 d l (BitVec.ofNat 64 (pqCount (c.pq n.toNat))) s) c.s0)

/-- SLD (R359): not logged, since only waves and contexts have a log; its lane's result is written when the load completes. -/
def execSld (p : Pre) (t : Ty) (z : SldSize) (inc : Bool) (d a : Opd) (off : BitVec 16) (s : State) : Host.Outcome State Fault Refusal :=
  word (.sld p t z inc d a off) s fun c =>
    let ea (l : Nat) : Word := if inc then c.read .n64 a l else c.ea a off l
    let bad := c.memFaults ea (accessBytes (.sld p t z inc d a off)) 1
    let bump (s : State) : State := if inc then c.forLanes (fun l s => c.write .n64 a l (c.ea a off l) s) s else s
    if !bad.isEmpty then .raise c.s0 0 bad
    else if c.act = 0 then .done c.s0
    else if !c.t.canRaise ⟨1, 0, 0, 0⟩ then .stall
    else
      let (id, s) := c.newEntry c.s0 false c.ls (fun l => [ea l]) ⟨1, 0, 0, 0⟩
      .done (bump (s.sample c id c.ls ea))

/-- SLOOP (R361). -/
def execSloop (p : Pre) (a : Opd) (off : BitVec 30) (s : State) : Host.Outcome State Fault Refusal :=
  word (.sloop p a off) s fun c =>
    let n0 := if wbit c.t.ploop 63 then wfld c.t.ploop 0 32 else max 1 (c.rd .n32 a 0)
    if c.act = 0 then .jump c.s0 c.stay
    else if n0 > 1 then
      let tgt := c.addr + (off.signExtend 64 <<< 3)
      .jump (c.traceTransfer (fun _ => tgt) (c.modT c.s0 fun t => { t with ploop := BitVec.ofNat 64 (2 ^ 63 + (n0 - 1)) })) [(0, tgt)]
    else .jump (c.modT c.s0 fun t => { t with ploop := 0 }) [(0, c.fall)]

end Sys2Proof.Machine
end

