-- ==== Sys2Proof/Machine/Sync.lean ====
section
/-! DEFINITION. Waiting words and barriers (R301 to R308), and the words on special registers and snapshots (R101, R198, R319). -/

namespace Sys2Proof.Machine

namespace Ctx

/-- The acquire of a wait that ends: Invalidate on the issuer's core at `cr` or wider (R289). -/
def acquire (c : Ctx) (sc : Scope) (s : State) : State := if scopeInv sc && c.core.core < 4 then s.invalidateL1 c.core else s

end Ctx

/-- WAIT (R302). -/
def execWait (p : Pre) (ld st cp tl : BitVec 4) (s : State) : Host.Outcome State Fault Refusal :=
  word (.wait p ld st cp tl) s fun c =>
    let lim (x : BitVec 4) : Nat := if x = 15 then 99 else x.toNat
    if c.act = 0 || c.t.under (lim ld) (lim st) (lim cp) (lim tl) then .done c.s0
    else .wait c.s0 (.counts (lim ld) (lim st) (lim cp) (lim tl))

/-! ### Team and crew barriers (R304, R305) -/

/-- The check of an arrival of `k` lanes with count `n` at a barrier of `threads` threads (R304). -/
def barOk (x : Word) (n k threads : Nat) : Bool :=
  n ≤ threads && !(barOpen x && (n == 0) != barAll x) && !(barOpen x && n ≠ 0 && n ≠ barTarget x) && !(n ≠ 0 && barArrived x + k > n)

/-- The arrival. -/
def barArrive (x : Word) (n k : Nat) : Word :=
  if barOpen x then barWord (barPhase x) true (barAll x) (barArrived x + k) (barTarget x)
  else barWord (barPhase x) true (n == 0) (barArrived x + k) n

namespace Ctx

/-- The barrier that a word names, and its threads. -/
def barrier (c : Ctx) (crewWide : Bool) (n : Nat) : Word :=
  if crewWide then c.crew.cbars.getD n 0 else (c.team.map fun t => t.bars.getD n 0).getD 0
def barThreads (c : Ctx) (crewWide : Bool) : Nat := if crewWide then c.crew.desc.team * c.crew.teams.length else c.crew.desc.team

/-- The state after the arrival, settled. -/
def arriveAt (c : Ctx) (crewWide : Bool) (n cnt : Nat) : State :=
  let x := barArrive (c.barrier crewWide n) cnt c.ls.length
  c.s0.modCrew c.id fun k =>
    if crewWide then ({ k with cbars := listSet k.cbars n x }).settleCbar n
    else (k.modTeam c.rank fun t => { t with bars := listSet t.bars n x }).settleBar c.rank n

/-- `BAR` and `CBAR` (R304). -/
def barWordOut (c : Ctx) (crewWide sync : Bool) (b : Opd) (nf : BitVec 4) : Out :=
  let n := nf.toNat
  let sc : Scope := if crewWide then .cr else .tm
  if c.act = 0 && !sync then .done c.s0
  else
    let arrive : Out :=
      let cnt := c.rd .n32 b (lowLane c.act)
      if c.ls.any (fun l => c.rd .n32 b l ≠ cnt) || !barOk (c.barrier crewWide n) cnt c.ls.length (c.barThreads crewWide) then raiseAll c 0 3
      else if !c.s0.released c.crew c.t false c.act none sc then
        (if !sync then .stall else .wait c.s0 (match c.path.wait with
          | .more w _ => .more w (some (c.act, sc))
          | _ => .release c.act sc))
      else
        let ph := barPhase (c.barrier crewWide n)
        let w : Wait := if crewWide then .cbar n ph else .bar n ph
        -- lanes that joined a path at this word have arrived, and wait with it
        let joined : Bool := match c.path.wait with | .more _ _ => true | _ => false
        let c := if joined then { c with s0 := c.modP c.s0 fun p => { p with wait := w, only := none } } else c
        let s := c.arriveAt crewWide n cnt
        let now := barPhase (((s.crew? c.id).map fun k => { c with crew := k }.barrier crewWide n).getD 0)
        if !sync then .done s
        else if now = ph then .wait s w
        else if joined then .wait s (.over w)
        else .done (c.acquire sc s)
    if !sync then arrive
    else if c.act = 0 then (match c.path.wait with
      | .more w _ => .wait c.s0 w
      | _ => .done c.s0)
    else match c.path.wait with
      | .over _ => .done (c.acquire sc c.s0)
      | .bar m ph => .wait c.s0 (.bar m ph)
      | .cbar m ph => .wait c.s0 (.cbar m ph)
      | _ => arrive

end Ctx

/-- BAR.sync. -/
def execBarSync (p : Pre) (b : Opd) (n : BitVec 4) (s : State) : Host.Outcome State Fault Refusal :=
  word (.barSync p b n) s fun c => c.barWordOut false true b n
/-- BAR.arv. -/
def execBarArv (p : Pre) (b : Opd) (n : BitVec 4) (s : State) : Host.Outcome State Fault Refusal :=
  word (.barArv p b n) s fun c => c.barWordOut false false b n
/-- CBAR.sync. -/
def execCbarSync (p : Pre) (b : Opd) (n : BitVec 4) (s : State) : Host.Outcome State Fault Refusal :=
  word (.cbarSync p b n) s fun c => c.barWordOut true true b n
/-- CBAR.arv. -/
def execCbarArv (p : Pre) (b : Opd) (n : BitVec 4) (s : State) : Host.Outcome State Fault Refusal :=
  word (.cbarArv p b n) s fun c => c.barWordOut true false b n

/-! ### Transaction barriers (R306 to R308) -/

/-- A transaction barrier (R306). -/
structure Tb where
  phase  : Nat
  arr    : Nat
  sec    : Int
  reload : Nat
  clean  : Bool             -- its reserved bits are zero
deriving DecidableEq, Repr

/-- The barrier that 16 bytes hold, and the bytes' number. -/
def Tb.ofNat (v : Nat) : Tb :=
  { phase := fld v 0 4, arr := fld v 4 16, sec := sext 32 (fld v 20 32), reload := fld v 52 16, clean := fld v 68 60 == 0 }

def Tb.toNat (b : Tb) : Nat := b.phase % 16 + b.arr % 2 ^ 16 * 2 ^ 4 + wrapNat 32 b.sec * 2 ^ 20 + b.reload % 2 ^ 16 * 2 ^ 52

/-- Settle (R307), but for the waiters. -/
def Tb.settle (b : Tb) : Tb := if b.arr = 0 && b.sec = 0 then { b with phase := (b.phase + 1) % 16, arr := b.reload, sec := 0 } else b

/-- SEC in its range. -/
def secFits (i : Int) : Bool := -(2 ^ 31 : Nat) ≤ i && i < (2 ^ 31 : Nat)

def State.tbGet (s : State) (crew r off : Nat) : Tb := Tb.ofNat (((s.team? crew r).map fun t => t.padNat off 16).getD 0)

/-- A barrier changed, settled, and its waiters released whose awaited phase is no longer its phase. -/
def State.tbPut (s : State) (crew r off : Nat) (b : Tb) : State :=
  let b := b.settle
  (s.modTeam crew r fun t => t.setPadNat off 16 b.toNat).modCrew crew fun c => c.endWaits none fun w => match w with
    | .tbar r' o ph _ => r' == r && o == off && ph != b.phase
    | _ => false

/-- A barrier that has been changed stands in scratchpad bytes that have been written (R257). -/
def State.tbWritten (s : State) (crew : Nat) (q : Nat × Nat) : State := s.padWritten crew q.1 q.2 16

/-- One sector counted by an engine command (R308); none for a barrier fault, or where the barrier cannot be read (R257). -/
def State.tbSector (s : State) (crew r off : Nat) : Option State :=
  let b := s.tbGet crew r off
  if s.padLost crew r off 16 || !b.clean || !secFits (b.sec - 1) then none else some ((s.tbPut crew r off { b with sec := b.sec - 1 }).tbWritten crew (r, off))

/-- One arrival; none for a barrier fault, or where the barrier cannot be read. -/
def State.tbArrive (s : State) (crew r off : Nat) : Option State :=
  let b := s.tbGet crew r off
  if s.padLost crew r off 16 || !b.clean || b.arr = 0 then none else some (s.tbPut crew r off { b with arr := b.arr - 1 })

namespace Ctx

/-- The barrier that a lane's A names, or the cause it raises (R307). -/
def tbTarget (c : Ctx) (a : Opd) (l : Nat) : Option (Nat × Nat) × Option Nat :=
  let ea := c.read .n32 a l
  if c.isG && !wbit ea 23 then (none, some 6)
  else match c.crew.padTarget c.rank c.inH ea 16 with
    | none => (none, some 6)
    | some (r, o) => if o % 16 ≠ 0 then (none, some 7) else (some (r, o), none)

def tbFaults (c : Ctx) (a : Opd) : List LaneFault :=
  c.ls.filterMap fun l => (c.tbTarget a l).2.map fun k => { lane := l, cause := k, addr := c.read .n32 a l, kind := 0 }

/-- An older scratchpad access of the thread may still change or read those bytes (R267). -/
def padPending (c : Ctx) (r off n : Nat) : Bool := c.crew.padPending c.t c.act r off n

/-- A word that changes transaction barriers waits for its counter, for older acquires, and for its bytes (R299, R307). -/
def tbReady (c : Ctx) (ts : List (Nat × Nat)) : Bool :=
  c.t.canRaise ⟨0, 1, 0, 0⟩ && !c.acquirePending && !(ts.any fun q => c.padPending q.1 q.2 16)

/-- A lane's barrier cannot be read: the reading word raises cause 9 in that lane (R257). -/
def tbCause9 (c : Ctx) (a : Opd) (l : Nat) : LaneFault := { lane := l, cause := 9, addr := c.read .n32 a l, kind := 1 }

/-- The faults of a word with its effect, or its effect alone. -/
def doneOr (fs : List LaneFault) (s : State) : Out := if fs.isEmpty then .done s else .raise s 0 fs

def cause3 (ls : List Nat) : List LaneFault := ls.map fun l => { lane := l, cause := 3, addr := 0, kind := 0 }

/-- Lanes that disagree with the lowest guarded lane on their 32-bit sources. -/
def disagree (c : Ctx) (os : List Opd) : List Nat := c.ls.filter fun l => os.any fun o => c.rd .n32 o l ≠ c.rd .n32 o (lowLane c.act)

/-- A word that acts once for the path, on the barrier of its lowest guarded lane: `f` gives the new barrier, or none where every guarded lane
raises cause 3. -/
def tbOnce (c : Ctx) (a : Opd) (agree : List Opd) (reserved : Bool) (f : Tb → Option Tb) : Out :=
  if c.act = 0 then .done c.s0
  else
    let fs := c.tbFaults a ++ cause3 (c.disagree agree)
    match (c.tbTarget a (lowLane c.act)).1 with
    | none => .raise c.s0 0 fs
    | some (r, o) =>
      if !c.tbReady [(r, o)] then .stall
      else
        let b := c.s0.tbGet c.id r o
        if reserved && c.s0.padLost c.id r o 16 then .raise c.s0 0 (fs ++ [c.tbCause9 a (lowLane c.act)])
        else if reserved && !b.clean then raiseAll c 0 3
        else match f b with
          | none => raiseAll c 0 3
          | some b => doneOr fs ((c.s0.tbPut c.id r o b).tbWritten c.id (r, o))

end Ctx

/-- TBINIT (R307). -/
def execTbinit (p : Pre) (a b : Opd) (s : State) : Host.Outcome State Fault Refusal :=
  word (.tbinit p a b) s fun c =>
    let n := c.rd .n32 b (lowLane c.act)
    c.tbOnce a [a, b] false fun _ => if n = 0 || n > 65535 then none else some { phase := 0, arr := n, sec := 0, reload := n, clean := true }

/-- TBEXPECT (R307). -/
def execTbexpect (p : Pre) (a b : Opd) (s : State) : Host.Outcome State Fault Refusal :=
  word (.tbexpect p a b) s fun c =>
    let n := sext 32 (c.rd .n32 b (lowLane c.act))
    c.tbOnce a [a, b] true fun x => if secFits (x.sec + n) then some { x with sec := x.sec + n } else none

/-- One lane's arrival: its state, or the lane raises cause 3. -/
def arriveLane (c : Ctx) (a : Opd) (q : State × List LaneFault) (l : Nat) : State × List LaneFault :=
  match (c.tbTarget a l).1 with
  | none => q
  | some (r, o) => match q.1.tbArrive c.id r o with
    | some s => (s, q.2)
    | none => (q.1, q.2 ++ (if q.1.padLost c.id r o 16 then [c.tbCause9 a l] else Ctx.cause3 [l]))

/-- TBARRIVE.lane (R307): a release at the scope, then an arrival of each guarded lane, ascending. -/
def execTbarriveLane (p : Pre) (sc : Scope) (a : Opd) (s : State) : Host.Outcome State Fault Refusal :=
  word (.tbarriveLane p sc a) s fun c =>
    if c.act = 0 then .done c.s0
    else if !c.tbReady (c.ls.filterMap fun l => (c.tbTarget a l).1) || !c.s0.released c.crew c.t false c.act none sc then .stall
    else
      let r := c.ls.foldl (arriveLane c a) (c.s0, c.tbFaults a)
      let ts := dedup ((c.ls.filter fun l => !r.2.any fun f => f.lane == l).filterMap fun l => (c.tbTarget a l).1)
      Ctx.doneOr r.2 (ts.foldl (fun s q => s.tbWritten c.id q) r.1)

/-- TBARRIVE.path (R307): one arrival, at the barrier of the lowest guarded lane. -/
def execTbarrivePath (p : Pre) (sc : Scope) (a : Opd) (s : State) : Host.Outcome State Fault Refusal :=
  word (.tbarrivePath p sc a) s fun c =>
    if c.act = 0 then .done c.s0
    else match (c.tbTarget a (lowLane c.act)).1 with
      | none => .raise c.s0 0 (c.tbFaults a)
      | some (r, o) =>
        if !c.tbReady [(r, o)] || !c.s0.released c.crew c.t false c.act none sc then .stall
        else
          let b := c.s0.tbGet c.id r o
          if c.s0.padLost c.id r o 16 then .raise c.s0 0 (c.tbFaults a ++ [c.tbCause9 a (lowLane c.act)])
          else if !b.clean then raiseAll c 0 3
          else if b.arr = 0 then .raise c.s0 0 (c.tbFaults a ++ Ctx.cause3 [lowLane c.act])
          else Ctx.doneOr (c.tbFaults a) ((c.s0.tbPut c.id r o { b with arr := b.arr - 1 }).tbWritten c.id (r, o))

/-- TBWAIT (R307): lanes that disagree raise when the wait of the lowest guarded lane has passed. -/
def execTbwait (p : Pre) (sc : Scope) (a b : Opd) (s : State) : Host.Outcome State Fault Refusal :=
  word (.tbwait p sc a b) s fun c =>
    let fs := c.tbFaults a ++ Ctx.cause3 (c.disagree [a, b])
    let pass : Out := Ctx.doneOr fs (c.acquire sc c.s0)
    if c.act = 0 then .done c.s0
    else match c.path.wait with
      | .over _ => pass
      | .tbar r o ph k => .wait c.s0 (.tbar r o ph k)
      | _ => match (c.tbTarget a (lowLane c.act)).1 with
        | none => .raise c.s0 0 fs
        | some (r, o) =>
          let x := c.s0.tbGet c.id r o
          if c.acquirePending then .stall else
          let ph := c.rd .n32 b (lowLane c.act) % 16
          if c.padPending r o 16 then .wait c.s0 (.pad r o c.act)
          else if c.s0.padLost c.id r o 16 then .raise c.s0 0 (fs ++ [c.tbCause9 a (lowLane c.act)])
          else if !x.clean then raiseAll c 0 3
          else if x.phase ≠ ph then pass
          else .wait c.s0 (.tbar r o ph sc)

/-! ### Special registers (R101, R198) -/

/-- `W2Valid` (R101): the tile is one of the team's, and the 32 registers lie below the limit of w0. -/
def Ctx.w2Valid (c : Ctx) (x : Word) : Bool :=
  w2Tile x < c.tiles c.rank && (!w2En x || w2Base x + 31 < c.crew.desc.w0lim)

/-- What w2 keeps of a written value (R94): EN in [16], HALF in [15], TILE in [11:8], B in [7:0]. -/
def w2Keep (x : Word) : Word := x &&& 0x18FFF

/-- A trap register written (R197, R198). -/
def Strand.putTrap (t : Strand) (k : Nat) (x : Word) : Strand :=
  match k with
  | 40 => { t with trap := { t.trap with cause := BitVec.ofNat 32 (t.trap.cause.toNat - fld t.trap.cause.toNat 0 6 + wfld x 0 6) } }
  | 41 => { t with trap := { t.trap with mask := x.setWidth 32 } }
  | _ =>
    let kind := fld t.trap.cause.toNat 4 2
    { t with trap := { t.trap with pc := x &&& 0x1FFFFFFFFFFFFFF,
                                   cause := if kind < 2 then BitVec.ofNat 32 (t.trap.cause.toNat + (2 - kind) * 16) else t.trap.cause },
             intr := t.intr.map fun i => { i with path := { i.path with wait := .none } } }

/-- WRSR (R101). -/
def execWrsr (p : Pre) (t : Ty) (d : BitVec 10) (a : Opd) (s : State) : Host.Outcome State Fault Refusal :=
  word (.wrsr p t d a) s fun c =>
    let k := d.toNat % 256
    let x := c.read t a
    let l0 := lowLane c.act
    if c.act = 0 then .done c.s0
    else match k with
      | 40 | 41 | 42 =>
        if c.ls.any fun l => x l ≠ x l0 then raiseAll c 0 3 else .done (c.modT c.s0 fun t => t.putTrap k (x l0))
      | 36 =>
        let bad := c.ls.filter fun l => !c.w2Valid (x l) || wfld (x l) 0 17 ≠ wfld (x l0) 0 17
        let s := if bad.contains l0 then c.s0 else c.modT c.s0 fun t => { t with w2 := w2Keep (x l0) }
        Ctx.doneOr (Ctx.cause3 bad) s
      | 38 => .done (c.forLanes (fun l s => s.modThread c.id c.sid l fun h => { h with cvt := h.cvt &&& ~~~((x l).extractLsb' 0 7) }) c.s0)
      | 31 => .done (c.forLanes (fun l s => s.modThread c.id c.sid l fun h => { h with rlink := x l }) c.s0)
      | _ => .done (c.forLanes (fun l s => s.modThread c.id c.sid l fun h => { h with pred := (x l).extractLsb' 0 15 }) c.s0)

/-- SNAP (R319): once for the path, with the tag of its lowest guarded lane. -/
def execSnap (p : Pre) (a : Opd) (s : State) : Host.Outcome State Fault Refusal :=
  word (.snap p a) s fun c =>
    .done (if c.act = 0 then c.s0
      else c.s0.trigger c.die ((c.read .n32 a (lowLane c.act)).setWidth 32) { c.crew.who c.sid (lowLane c.act) with pc := c.hdrAddr })

end Sys2Proof.Machine
end

