-- ==== Sys2Proof/Machine/Tensor.lean ====
section
/-! DEFINITION. Element formats of tensors and reservation records (R107, R108, R171, R228), MX blocks and quantisation (R117, R118),
the matrix step (R120 to R122) and error bounds (R124 to R127). -/

namespace Sys2Proof.Machine

/-! ### Element formats (the FMT codes of R171) -/

/-- A code that R171 lists. -/
def matFmtOk (f : Nat) : Bool := f ≤ 6 || (8 ≤ f && f ≤ 11)

/-- Bits that an element takes in memory: a 6-bit code stands in a byte (R81). -/
def matBits (f : Nat) : Nat :=
  match f with
  | 4 | 6 => 4
  | 8 => 64
  | 9 => 32
  | 10 | 11 => 16
  | _ => 8

/-- The wide format of codes 8 to 11. -/
def matWide (f : Nat) : Option Fmt :=
  match f with
  | 8 => some fp64
  | 9 => some fp32
  | 10 => some fp16
  | 11 => some bf16f
  | _ => none

/-- A finite value times 2^k. -/
def Fv.scale (x : Fv) (k : Int) : Fv :=
  match x with
  | .num n m e => .num n m (e + k)
  | v => v

/-- What reading an element gives: its value, and whether it was the reserved int4 code or stood in a block whose scale is 0xFF. -/
structure Elem where
  v    : Fv
  rsvd : Bool
  bnan : Bool
deriving DecidableEq, Repr

/-- An element of a format, in a block of scale E where it has one (R107, R108). R81 has bits [7:6] of a byte that holds a 6-bit code emitted as zero, and
says nothing of a reader that finds them set: the model ignores them (DESIGN CHOICE, log 78). -/
def readElem (f : Nat) (scale : Option Nat) (code : Nat) : Elem :=
  match matWide f with
  | some w => ⟨w.read code, false, false⟩
  | none =>
    let n := (Narrow.ofCode f).getD .e4m3
    let (v, r) := n.read (code % 2 ^ n.bits)
    match scale with
    | none => ⟨v, r, false⟩
    | some 255 => ⟨.nan false 0, r, true⟩
    | some e => ⟨v.scale ((e : Int) - 127 - (if n == .int8 then 6 else 0)), r, false⟩

/-- Element i of packed bytes. -/
def elemCode (f : Nat) (l : List Byte) (i : Nat) : Nat :=
  let b := matBits f
  if b = 4 then fld ((l.getD (i / 2) 0).toNat) (4 * (i % 2)) 4 else leNat ((l.drop (i * (b / 8))).take (b / 8))

/-! ### Magnitudes: none stands for an infinity or a NaN -/

abbrev Mag := Option Dy

def Mag.max (a b : Mag) : Mag :=
  match a, b with
  | some x, some y => some (x.max y)
  | _, _ => none

def Mag.add (a b : Mag) : Mag :=
  match a, b with
  | some x, some y => some (x.add y)
  | _, _ => none

/-- `RoundUp32` (R110). -/
def roundUp (a : Mag) : Nat :=
  match a with
  | some x => roundUp32 x
  | none => fp32.infBits false

/-- A value that has been rounded up to FP32. -/
def up (a : Mag) : Mag :=
  match fp32.read (roundUp a) with
  | .num n m e => some (Fv.num n m e).dy
  | _ => none

/-- The product of two non-negative magnitudes; zero times anything is zero. -/
def Mag.mul (a b : Mag) : Mag :=
  match a, b with
  | some x, some y => some (x.mul y)
  | some x, none => if x.i = 0 then some Dy.zero else none
  | none, some y => if y.i = 0 then some Dy.zero else none
  | none, none => none

def Mag.scale (a : Mag) (k : Int) : Mag := a.map fun x => x.scale k

def Fv.mag (x : Fv) : Mag :=
  match x with
  | .num _ m e => some ⟨m, e⟩
  | _ => none

def magMax (l : List Mag) : Mag := l.foldl Mag.max (some Dy.zero)

/-- The bits of an FP32 bound, as a magnitude. -/
def boundMag (bits : Nat) : Mag := (fp32.read bits).mag

/-! ### Quantisation (R117, R118) -/

/-- One step of the xorshift64 generator. -/
def xorshift (s : Word) : Word :=
  let s := s ^^^ (s <<< 13)
  let s := s ^^^ (s >>> 7)
  s ^^^ (s <<< 17)

def xorshiftN (s : Word) : Nat → Word
  | 0 => s
  | n + 1 => xorshiftN (xorshift s) n

/-- `SignWord` (R118). -/
def signWord (seed : Word) (j : Nat) : BitVec 32 := (xorshiftN seed (j + 1)).setWidth 32

def popcount (n : Nat) : Nat := ((List.range 64).filter fun i => n.testBit i).length

/-- The values of a block after rotation; a sum that is zero has the sign of R105 and R110. -/
def rotateBlock (seed : Word) (j : Nat) (v : List Fv) : List Fv :=
  if seed = 0 then v
  else if v.any (fun x => x.isNaN || x.isInf) then v.map fun _ => .nan false 0
  else
    let d := signWord seed j
    (List.range 32).map fun i =>
      let flip (k : Nat) : Bool := d.getLsbD k != (popcount (k &&& i) % 2 == 1)
      let terms := ((List.range 32).zip v).map fun q => (q.2.neg != flip q.1, if flip q.1 then q.2.dy.negate else q.2.dy)
      let x := terms.foldl (fun acc t => acc.add t.2) Dy.zero
      .num (if x.i = 0 then zeroSign .rne (terms.map Prod.fst) else x.i < 0) x.i.natAbs x.e

/-- What quantising a block gives. -/
structure Quant where
  codes : List Nat
  scale : Nat
  fault : Bool
  flags : BitVec 7
  err   : Mag            -- the largest |q X - y|
  mag   : Mag            -- the largest |y|
  out   : Mag            -- the largest |q X|
  chg   : Mag            -- the largest |y - q X| over elements that an overflow or underflow action changed
deriving DecidableEq, Repr

/-- The difference of two values as a magnitude. -/
def Fv.dist (a b : Fv) : Mag :=
  match a, b with
  | .num _ _ _, .num _ _ _ => some (a.dy.sub b.dy).abs
  | _, _ => none

/-- The power of two just below a magnitude. -/
def floorLog2 (x : Dy) : Int := (Nat.log2 x.i.natAbs : Int) + x.e

/-- `Quantise` (R117) of values that have been rotated. Each element is converted at the block's scale. A block whose scale is 0xFF is written with code 0
in every element, and each of its elements that is not NaN differs from what is written (log 35). -/
def quantise (n : Narrow) (rm : Rm) (pol : BitVec 8) (y : List Fv) : Quant :=
  let fin := y.filterMap Fv.mag
  let amax := fin.foldl Dy.max Dy.zero
  let pnan := fld pol.toNat 6 2
  let nanBlock := y.any Fv.isNaN && pnan = 0
  let sh : Int := if n == .int8 then 6 else 0
  let e0 : Int := if amax.i = 0 then 0 else min 127 (max (-127) (floorLog2 amax - n.emax))
  let scale : Nat := if nanBlock then 255 else (e0 + 127).toNat
  let cs := y.map fun v => convert (.narrow n) rm pol (.fv (v.scale (sh - if nanBlock then 128 else e0)))
  let mag := magMax (y.map Fv.mag)
  if nanBlock then
    -- a NaN element is written as NaN, by the scale
    let cl (q : Fv × Conv) : BitVec 7 := if q.1.isNaN then flagNAN else q.2.flags ||| if q.2.fault then 0 else flagINEX
    { codes := y.map fun _ => 0, scale := 255, fault := cs.any Conv.fault, flags := ((y.zip cs).map cl).foldl (· ||| ·) 0,
      err := none, mag := none, out := none, chg := some Dy.zero }
  else
    let vals := cs.map fun c => (readElem (match n with | .e4m3 => 0 | .e5m2 => 1 | .e3m2 => 2 | .e2m3 => 3 | .e2m1 => 4 | .int8 => 5 | .int4 => 6)
      (some scale) c.code).v
    let ds := (y.zip vals).map fun q => q.1.dist q.2
    { codes := cs.map Conv.code, scale := scale, fault := cs.any Conv.fault, flags := (cs.map Conv.flags).foldl (· ||| ·) 0,
      err := magMax ds, mag := mag, out := magMax (vals.map Fv.mag),
      chg := magMax (((cs.zip ds).filter fun q => (q.1.flags &&& (flagOVF ||| flagUNF)) != 0).map Prod.snd) }

/-! ### The matrix step (R119 to R122) -/

/-- An exact product, times 2^k. -/
def prodF (k : Int) (a b : Fv) : Fv :=
  match a, b with
  | .nan _ _, _ => .nan false 0
  | _, .nan _ _ => .nan false 0
  | .inf n, .inf m => .inf (n != m)
  | .inf n, .num m x _ => if x = 0 then .nan false 0 else .inf (n != m)
  | .num n x _, .inf m => if x = 0 then .nan false 0 else .inf (n != m)
  | .num n x e, .num m y f => .num (n != m) (x * y) (e + f + k)

/-- One rounding of an exact sum of values (R120, R122). -/
def sumF (f : Fmt) (ts : List Fv) : Nat :=
  let infs := ts.filterMap fun v => match v with | .inf n => some n | _ => none
  if ts.any Fv.isNaN || (infs.contains true && infs.contains false) then f.canon
  else match infs with
    | n :: _ => f.infBits n
    | [] => roundSum f .rne (ts.map Fv.term)

/-- Neighbours of one level of the tree of R121 summed. -/
def treeLevel : List Fv → List Fv
  | a :: b :: l => fp64.read (sumF fp64 [a, b]) :: treeLevel l
  | l => l

/-- A step of FP64 inputs (R121): a five-level tree, then one addition to C. -/
def stepTree (c : Nat) (ts : List Fv) : Nat :=
  let n5 := treeLevel (treeLevel (treeLevel (treeLevel (treeLevel ts))))
  sumF fp64 (fp64.read c :: n5)

/-- One step of one element: `f` is the format that it accumulates in. -/
def stepElem (f : Fmt) (in64 : Bool) (k : Int) (c : Nat) (a b : List Fv) : Nat :=
  let ts := (a.zip b).map fun q => prodF k q.1 q.2
  if in64 then stepTree c ts else sumF f (f.read c :: ts)

/-! ### Bounds (R124, R125) -/

/-- The sum of partials, every one of them rounded up. -/
def upSum (l : List Mag) : Mag := l.foldl (fun acc t => up (Mag.add acc (up t))) (some Dy.zero)

/-- Δ of one step: `m` is M, `s` the largest Σ|a·b| of FP64 inputs, `k` the K of the step, `r` the exponent of R119. -/
def boundDelta (in64 acc64 : Bool) (m s : Mag) (k : Nat) (r : Int) (ba bb amax bmax : Mag) : Mag :=
  let base := if in64 then up ((up (Mag.add (up (Mag.mul (some ⟨6, 0⟩) (up s))) m)).scale (-53)) else up (m.scale (if acc64 then -53 else -24))
  let zero (x : Mag) : Bool := match x with | some d => d.i == 0 | none => false
  if zero ba && zero bb then base
  else upSum [base, up ((Mag.mul (some ⟨k, 0⟩) (upSum [Mag.mul ba bmax, Mag.mul bb amax, Mag.mul ba bb])).scale r)]

/-- `BoundStep` (R124). -/
def boundStep (bound : Nat) (m delta : Mag) : Nat := if m.isNone then fp32.infBits false else roundUp (Mag.add (boundMag bound) delta)

/-- A bound passes its threshold (R125). -/
def boundPasses (bound texp : Nat) (abs : Bool) (m : Mag) : Bool :=
  if texp = 0 then false
  else match boundMag bound with
    | none => true
    | some b =>
      if abs then (⟨1, -(texp : Int)⟩ : Dy).lt b
      else match m with
        | none => false
        | some x => (x.scale (-(texp : Int))).lt b

/-- A loaded bound: negative, NaN or -0 is taken as plus infinity (R188). -/
def loadedBound (v : Nat) : Nat :=
  match fp32.read v with
  | .nan _ _ => fp32.infBits false
  | x => if x.neg then fp32.infBits false else v

/-- `Ulp` of a magnitude in a format (R110). -/
def ulpOf (f : Fmt) (m : Dy) : Dy :=
  let e := if m.i = 0 then f.emin else max f.emin (floorLog2 m)
  ⟨1, e - f.m⟩

end Sys2Proof.Machine
end

