-- ==== Sys2Proof/Machine/Tile.lean ====
section
/-! DEFINITION. Tiles and their records (R169 to R193): staging operands, the tile instructions as they issue, and the steps of the matrix unit. -/

namespace Sys2Proof.Machine

/-! ### Reservation records (R171) -/

def rf (r : BitVec 128) (lo len : Nat) : Nat := fld r.toNat lo len
def recFmt (r : BitVec 128) : Nat := rf r 28 4
def recBlk (r : BitVec 128) : Bool := r.getLsbD 27
def recBeta (r : BitVec 128) : Nat := rf r 32 32
def recSeed (r : BitVec 128) : Nat := rf r 64 64
def recLen (r : BitVec 128) : Nat := if rf r 9 9 = 0 then 512 else rf r 9 9

/-- K of a step: elements of a row of 256 bytes. -/
def recK (r : BitVec 128) : Nat := 2048 / matBits (recFmt r)

/-- A record is valid for a team of `n` tiles. -/
def recValid (n : Nat) (r : BitVec 128) : Bool :=
  let f := recFmt r
  let len := recLen r
  let sc := rf r 0 9
  let u := if f = 4 then 2 else 1
  let beta := recBeta r
  matFmtOk f && !(recBlk r && 6 ≤ f) && rf r 18 9 + len ≤ 32 * n
    && (if recBlk r then sc ≠ 0 && sc % 32 = 0 && sc ≤ len && u * (sc / 32) ≤ len - sc else len % 32 = 0 && sc = 0)
    && beta ≤ 0x7F800000

/-- Input group of R181. -/
def fmtGroup (f : Nat) : Nat :=
  match f with
  | 8 => 0
  | 9 => 1
  | 10 => 2
  | 11 => 3
  | 4 | 6 => 5
  | _ => 4

/-- The records pair (R181). -/
def recsPair (a b : BitVec 128) : Bool := fmtGroup (recFmt a) == fmtGroup (recFmt b) && (fmtGroup (recFmt a) < 4 || recBlk a == recBlk b)

/-! ### Where a step stands (R178) -/

/-- The rows of a step, then its scales: start and length. -/
def stepSpans (r : BitVec 128) (g : List Word) (j : Nat) : List (Nat × Nat) :=
  let w (i : Nat) : Word := g.getD i 0
  let at_ (base rs ss i : Nat) : Nat := (base + i * rs + j * ss) % 2 ^ 64
  (List.range 32).map (fun i => (at_ (w 0).toNat (wfld (w 1) 0 32) (wfld (w 1) 32 32) i, 256))
    ++ if recBlk r then (List.range 32).map fun i => (at_ (w 2).toNat (wfld (w 3) 0 32) (wfld (w 3) 32 32) i, recK r / 32) else []

/-- The lines of ranges, each once. -/
def linesOf (l : List (Nat × Nat)) : List Nat := dedup ((l.map fun q => (spans q.1 q.2).map fun p => p.1 / 128).flatten)

/-- The lines that the n steps of one staging word touch. -/
def wordLines (r : BitVec 128) (g : List Word) (js : List Nat) : List Nat := linesOf ((js.map (stepSpans r g)).flatten)

/-- The bytes of ranges, each line read where a map says that it stands. -/
def State.gather (s : State) (m : List (Nat × Nat)) (l : List (Nat × Nat)) : List Byte :=
  (l.map fun q => ((spans q.1 q.2).map fun p => s.readVis (((assocGet m (p.1 / 128)).getD 0) * 128 + p.1 % 128) p.2).flatten).flatten

/-- A step's bytes as they now stand, and whether one of them is uncorrectable (R180, R182). -/
def State.stepData (s : State) (crew r : Nat) (x : Staged) : List Byte × Bool :=
  let sp := stepSpans x.rec_ x.grp x.idx
  if x.tlds then
    match s.team? crew r with
    | some tm => ((sp.map fun q => tm.padBytes q.1 q.2).flatten, sp.any fun q => tm.padBad.any fun b => q.1 ≤ b && b < q.1 + q.2)
    | none => ([], true)
  else (s.gather ((linesOf sp).zip x.lines) sp, x.lines.any s.lost.contains)

/-- Where the lines of a step are cut: an address and a length within one line each. -/
def Staged.pieces (x : Staged) : List (Nat × Nat) := ((stepSpans x.rec_ x.grp x.idx).map fun q => spans q.1 q.2).flatten

/-- A step's bytes from the lines that have been read. -/
def Staged.bytes (x : Staged) : List Byte :=
  (x.pieces.map fun p => (((assocGet x.part (p.1 / 128)).getD []).drop (p.1 % 128)).take p.2).flatten

/-- A line of a step has been read; with the last one the step is staged. -/
def Staged.readLine (x : Staged) (v : Nat) (l : List Byte) (bad : Bool) : Staged :=
  let x := { x with left := x.left.filter fun q => q.1 != v, part := x.part ++ [(v, l)], bad := x.bad || bad }
  if x.left.isEmpty then { x with data := some x.bytes, part := [] } else x

/-! ### Quotas (R179): lines of the team's staged steps, counted once in each staging word -/

def Staged.vlines (x : Staged) : List Nat := linesOf (stepSpans x.rec_ x.grp x.idx)

/-- Lines of the fetched steps that pass a test, by staging word and by the operation that claimed them. -/
def Team.stagedLines (t : Team) (p : Staged → Bool) : Nat :=
  let xs := t.steps.filter fun x => !x.tlds && p x
  let keys := dedup (xs.map fun x => (x.fetch, x.op))
  (keys.map fun k => (dedup ((xs.filter fun x => (x.fetch, x.op) == k).map Staged.vlines).flatten).length).sum

def Team.quotaU (t : Team) : Nat := t.stagedLines fun x => x.op.isNone
def Team.quotaH (t : Team) : Nat := t.stagedLines fun x => x.op.isSome
def Team.quota (t : Team) : Nat := Config.pinQuota * tileCount t.slots

/-- Unclaimed steps of a record, in order. -/
def Team.queue (t : Team) (r : Nat) : List Staged := t.steps.filter fun x => x.res == r && x.op.isNone

/-! ### Tiles as they stand -/

/-- A queued operation's effect on the format that its tile has afterwards: 0 FP32, 1 FP64, 2 packed. -/
def fmtAfter (o : TileOp) (f : Nat) : Nat :=
  match wordOf o.word with
  | .tmma .. => if f = 2 then 0 else f
  | .tzero _ a64 .. => b2n a64
  | .tcvt _ _ _ _ t _ => if t.toNat = 16 then 1 else if t.toNat = 17 then 0 else 2
  | _ => f

/-- The format of a tile at the place of a new word in the acceptance order (R175). -/
def Team.fmtAt (t : Team) (i : Nat) : Nat := (t.ops.filter fun o => o.tile == i).foldl (fun f o => fmtAfter o f) (t.tile i).fmt

/-- Bits of element (r, c) of a tile (R411). -/
def State.elem (s : State) (core : CoreId) (t : Team) (i f r c : Nat) : Nat :=
  if f = 1 then s.regNat core (t.slotAddr i + 8 * (32 * r + c)) 8 else s.regNat core (t.slotAddr i + 4 * (32 * r + c)) 4

/-- Every element of a tile, row by row. -/
def State.elems (s : State) (core : CoreId) (t : Team) (i f : Nat) : List Nat :=
  (List.range 1024).map fun k => s.elem core t i f (k / 32) (k % 32)

/-- The elements of a tile written. -/
def State.putElems (s : State) (core : CoreId) (t : Team) (i f : Nat) (l : List Nat) : State :=
  s.setRegBytes core (t.slotAddr i) (l.map (leBytes (if f = 1 then 8 else 4))).flatten

/-- The second half of a slot of an FP32 or packed tile: C0, or zero (R411). -/
def State.putHalf (s : State) (core : CoreId) (t : Team) (i : Nat) (l : List Byte) : State := s.setRegBytes core (t.slotAddr i + 0x1000) l

def zeroHalf : List Byte := List.replicate 4096 0

/-- An FP32 element widened exactly to FP64. -/
def widen32 (b : Nat) : Nat :=
  match fp32.read b with
  | .nan n p => fp64.nanBits n p
  | .inf n => fp64.infBits n
  | .num n m e => roundDy fp64 .rne n m e

/-- BOUND, TEXP and ABS of a bound register (R98). -/
def bBound (b : Word) : Nat := wfld b 0 32
def bTexp (b : Word) : Nat := wfld b 32 8
def bAbs (b : Word) : Bool := wbit b 40
def bWith (b : Word) (bound : Nat) : Word := wput b 0 32 bound

/-- Status with FMT replaced. -/
def statusFmt (w : Word) (f : Nat) : Word := wput w 6 2 f

/-- M: the largest magnitude of elements of a format. -/
def elemsMag (f : Nat) (l : List Nat) : Mag := magMax (l.map fun b => (if f = 1 then fp64 else fp32).read b |>.mag)

/-- The tile datum (R177). -/
def tileDatum (rank tile rec_ step : Nat) : Nat := rank % 4 + tile % 16 * 4 + rec_ % 32 * 64 + step % 256 * 4096

/-- A cause that stops a tile instruction: for causes 6 to 8 the address and the datum, for 9, 10 and 12 the datum alone (R177). -/
def State.tilePend (s : State) (crew : Nat) (inH : Bool) (cause datum va : Nat) (absent : Bool) (stop : Nat × Option Nat × Option Nat) : State :=
  let withVa := cause = 6 || cause = 7 || cause = 8
  s.modStrand crew .gaffer fun t => { t with pend := t.pend ++
    [(⟨cause, inH, none, if withVa then BitVec.ofNat 32 datum else 1, BitVec.ofNat 64 (if withVa then va % 2 ^ 57 else datum), 3, absent, some stop⟩ : Pend)] }

/-- A stop of the context names a tile or record of a team and has not been taken (R177). -/
def Crew.stopPending (c : Crew) (rank : Nat) (tile rec_ : Option Nat) : Bool :=
  (c.gaffer.map fun t => t.pend.any fun x => match x.stop with
    | some (k, i, r) => k == rank && ((i.isSome && i == tile) || (r.isSome && r == rec_))
    | none => false).getD false

/-- An operation that applies to a Suspended tile at once has been accepted and has not been applied. -/
def Team.nowOn (t : Team) (i : Nat) : Bool := t.ops.any fun o => o.tile == i && o.now

/-- An operation at whose acceptance the slot discards C0 (R169): a `TMMA` that has not begun, a `TZERO` or a `TCVT`. -/
def TileOp.discards (o : TileOp) : Bool :=
  match wordOf o.word with
  | .tmma .. => o.mma.all fun m => !m.started
  | .tzero .. | .tcvt .. => true
  | _ => false

/-- The slot holds C0 for an operation of the tile: none accepted after it has discarded it (R169). -/
def Team.c0Held (t : Team) (i id : Nat) : Bool := (t.tile i).c0 && !t.ops.any fun o => o.tile == i && id < o.id && o.discards

/-! ### Issue -/

namespace Ctx

/-- The word is refused at issue with the lowest of the listed causes (R175). -/
def tileFault (c : Ctx) (fs : List (Nat × Nat)) : Out :=
  .raise c.s0 0 (match minBy Prod.fst fs with
    | some f => [laneFault 0 f.1 f.2 0 false]
    | none => [])

/-- Accepted: the tile counter, and any other, is raised (R175, R298). -/
def tileAccept (c : Ctx) (k : Counts) (f : Nat → State → State) : Out :=
  let k := { k with tl := 1 }
  if !c.t.canRaise k then .stall
  else
    let (id, s) := c.s0.newId
    .done (f id (c.modT s fun t => t.raise k))

def teamOf (c : Ctx) (core : BitVec 2) : Option Team := c.crew.teams[core.toNat]?

/-- A tile operation in the order of its core's unit; with `now` it applies ahead of queued work (R183). -/
def addOp (c : Ctx) (core : BitVec 2) (tile : BitVec 4) (ga : Word) (now : Bool) (id : Nat) (s : State) : State :=
  s.modTeam c.id core.toNat fun t =>
    { t with ops := t.ops ++ [{ id := id, word := c.word, tile := tile.toNat, ga := ga, mma := none, inH := c.inH, now := now }] }

/-- A word that names a tile and is refused while the tile is Suspended. It waits for what applies to a Suspended tile at once (R183). -/
def tileWord (c : Ctx) (core : BitVec 2) (tile : BitVec 4) (bad : Team → List (Nat × Nat)) : Out :=
  match c.teamOf core with
  | none => .done c.s0
  | some t =>
    if c.act = 0 then .done c.s0
    else if t.nowOn tile.toNat then .stall
    else match bad t with
      | [] => c.tileAccept .none (c.addOp core tile 0 false)
      | fs => c.tileFault fs

end Ctx

/-- TRES (R172). -/
def execTres (p : Pre) (n : BitVec 5) (a b : Opd) (s : State) : Host.Outcome State Fault Refusal :=
  word (.tres p n a b) s fun c =>
    match c.team with
    | none => .done c.s0
    | some t =>
      let l0 := lowLane c.act
      let r (l : Nat) : BitVec 128 := BitVec.ofNat 128 (c.rd .n64 a l + c.rd .n64 b l * 2 ^ 64)
      let bad := c.ls.filter fun l => r l != r l0 || !recValid (tileCount t.slots) (r l)
      if c.act = 0 then .done c.s0
      else if bad.contains l0 then .raise c.s0 1 (Ctx.cause3 bad)
      else if t.tiles.any fun x => x.susp.isSome then .stall
      else
        let gone := (t.queue n.toNat).map Staged.id
        let s := c.s0.modTeam c.id c.rank fun t =>
          { t with recs := listSet t.recs n.toNat (r l0), steps := t.steps.filter fun x => !gone.contains x.id }
        let s := { s with pins := s.pins.filter fun q => match q.holder with
          | .tile k r' st => !(k == c.id && r' == c.rank && gone.contains st)
          | _ => true }
        -- staging commands with nothing left to stage have retired (R175); steps that a TMMA has claimed are still read (R173)
        let left (f : Fetch) : Bool := t.steps.any fun x => x.fetch == f.id && !gone.contains x.id && x.data.isNone
        let over_ := s.fetches.filter fun f => f.crew == c.id && f.rank == c.rank && f.res == n.toNat && !left f
        let s := { s with fetches := s.fetches.filter fun f => !over_.contains f }
        Ctx.doneOr (Ctx.cause3 bad) (s.modStrand c.id .gaffer fun t => t.lower ⟨0, 0, 0, (over_.filter Fetch.counted).length⟩)

namespace Ctx

/-- Steps of a staging word, waiting to be read. -/
def newSteps (r : BitVec 128) (res : Nat) (tlds : Bool) (g : List Word) (fetch id0 n : Nat) (first : Nat) (op : Option Nat) : List Staged :=
  (List.range n).map fun j =>
    { id := id0 + j, res := res, op := op, tlds := tlds, rec_ := r, grp := g, idx := first + j, fetch := fetch, data := none, bad := false, lines := [],
      srcw := false }

/-- A count of steps as a word holds it. -/
def stepsOf (n : BitVec 8) : Nat := if n = 0 then 256 else n.toNat

/-- `TFETCH` and `TLDS` at issue (R178 to R180). -/
def stage (c : Ctx) (tlds : Bool) (sc : Scope) (core : BitVec 2) (grp : BitVec 4) (res : BitVec 5) (nf : BitVec 8) : Out :=
  match c.teamOf core with
  | none => .done c.s0
  | some t =>
    let n := stepsOf nf
    let g := (List.range 4).map fun i => c.gReg (4 * grp.toNat + i)
    let w (i : Nat) : Word := g.getD i 0
    let r := t.recs.getD res.toNat 0
    let q := t.queue res.toNat
    let k32 := recK r / 32
    let valid := recValid (tileCount t.slots) r
    let js := List.range n
    let sp := (js.map (stepSpans r g)).flatten
    let mis (v m : Nat) : List (Nat × Nat) := if v % m ≠ 0 then [(7, v)] else []
    let align := mis (w 0).toNat 128 ++ mis (wfld (w 1) 0 32) 128 ++ mis (wfld (w 1) 32 32) 128
      ++ if recBlk r then mis (w 2).toNat k32 ++ mis (wfld (w 3) 0 32) k32 ++ mis (wfld (w 3) 32 32) k32 else []
    let lines := if tlds then [] else wordLines r g js
    let range := if tlds then (sp.filter fun x => c.crew.padS < x.1 + x.2).map (fun x => (6, x.1))
      else (lines.filter fun v => inBlockAperture (BitVec.ofNat 64 (v * 128))).map fun v => (6, v * 128)
    let l := lines.length
    let three := !valid || q.any (fun x => x.tlds != tlds) || q.length + n > 256 || (!tlds && t.quotaU + l > t.quota)
    let fs := (if three then [(3, 0)] else []) ++ range ++ align
    if c.act = 0 then .done c.s0
    else if !fs.isEmpty then c.tileFault fs
    else if (!tlds && t.quotaU + t.quotaH + l > t.quota) || !c.s0.released c.crew c.t false c.act none sc then .stall
    else c.tileAccept .none fun id s =>
      let s := { s with ids := s.ids + n, fetches := s.fetches ++ [(⟨id, c.id, core.toNat, res.toNat, c.inH, true⟩ : Fetch)] }
      s.modTeam c.id core.toNat fun t => { t with steps := t.steps ++ newSteps r res.toNat tlds g id (s.ids - n) n 0 none }

end Ctx

/-- TFETCH (R178 to R180). -/
def execTfetch (p : Pre) (sc : Scope) (core : BitVec 2) (grp : BitVec 4) (r : BitVec 5) (n : BitVec 8) (s : State) : Host.Outcome State Fault Refusal :=
  word (.tfetch p sc core grp r n) s fun c => c.stage false sc core grp r n

/-- TLDS. -/
def execTlds (p : Pre) (sc : Scope) (core : BitVec 2) (grp : BitVec 4) (r : BitVec 5) (n : BitVec 8) (s : State) : Host.Outcome State Fault Refusal :=
  word (.tlds p sc core grp r n) s fun c => c.stage true sc core grp r n

/-- Claim the first n unclaimed steps of a record (R182). -/
def claim (op res : Nat) : Nat → List Staged → List Staged
  | 0, l => l
  | _, [] => []
  | n + 1, x :: l => if x.res == res && x.op.isNone then { x with op := some op } :: claim op res n l else x :: claim op res (n + 1) l

/-- TMMA at issue (R181, R182). -/
def execTmma (p : Pre) (core : BitVec 2) (tile : BitVec 4) (ra rb : BitVec 5) (n : BitVec 8) (lehr zi bnd w64 : Bool) (s : State) :
    Host.Outcome State Fault Refusal :=
  word (.tmma p core tile ra rb n lehr zi bnd w64) s fun c =>
    match c.teamOf core with
    | none => .done c.s0
    | some t =>
      let k := Ctx.stepsOf n
      let a := t.recs.getD ra.toNat 0
      let b := t.recs.getD rb.toNat 0
      let tiles := tileCount t.slots
      let bad := ra == rb || !recValid tiles a || !recValid tiles b || !recsPair a b || recSeed a ≠ recSeed b
        || (t.queue ra.toNat).length < k || (t.queue rb.toNat).length < k || (t.tile tile.toNat).susp.isSome || (t.fmtAt tile.toNat = 2 && !zi)
      if c.act = 0 then .done c.s0
      else if t.nowOn tile.toNat then .stall
      else if bad then c.tileFault [(3, 0)]
      else c.tileAccept .none fun id s =>
        s.modTeam c.id core.toNat fun t =>
          let m : Mma := { n := k, recA := a, recB := b, lehr := lehr, bnd := bnd, depth := 0, colg := 0, wide := false, restarted := false, bound0 := 0,
                           started := false, trapped := false }
          { t with steps := claim id rb.toNat k (claim id ra.toNat k t.steps),
                   ops := t.ops ++ [{ id := id, word := c.word, tile := tile.toNat, ga := 0, mma := some m, inH := c.inH }] }

/-- A tile that is Suspended takes no other instruction (R183). -/
def suspBad (t : Team) (i : BitVec 4) : List (Nat × Nat) := if (t.tile i.toNat).susp.isSome then [(3, 0)] else []

/-- TZERO (R184). -/
def execTzero (p : Pre) (a64 : Bool) (core : BitVec 2) (tile : BitVec 4) (s : State) : Host.Outcome State Fault Refusal :=
  word (.tzero p a64 core tile) s fun c => c.tileWord core tile fun t => suspBad t tile

/-- TCVT (R185). -/
def execTcvt (p : Pre) (rm : Rm) (core : BitVec 2) (tile : BitVec 4) (tgt : BitVec 5) (pol : BitVec 8) (s : State) : Host.Outcome State Fault Refusal :=
  word (.tcvt p rm core tile tgt pol) s fun c => c.tileWord core tile fun t =>
    suspBad t tile ++ if t.fmtAt tile.toNat = 2 then [(3, 0)] else []

/-! ### Sequencer records (R190) -/

/-- The record of an interrupted TMMA, from its claimed steps. It has room for one staging instruction of each operand: for steps that several
staging words staged it names the first (log 78). -/
def seqRecord (c0 : Bool) (o : TileOp) (m : Mma) (xa xb : List Staged) : List Byte :=
  let g (l : List Staged) : List Nat := (List.range 4).map fun i => ((l.head?.map fun (x : Staged) => x.grp.getD i 0).getD 0).toNat
  let skip (l : List Staged) : Nat := ((l.head?.map Staged.idx).getD 0) % 256
  let src (l : List Staged) : Nat := b2n ((l.head?.map Staged.tlds).getD false)
  let w1 := m.depth % 512 + m.colg % 4 * 2 ^ 9 + b2n m.wide * 2 ^ 16 + b2n m.restarted * 2 ^ 17 + b2n c0 * 2 ^ 18 + b2n m.trapped * 2 ^ 19
  let w3 := skip xa + skip xb * 2 ^ 8 + src xa * 2 ^ 16 + src xb * 2 ^ 17
  ([o.word.toNat, w1, m.bound0.toNat, w3] ++ g xa ++ g xb ++ [rf m.recA 0 64, rf m.recA 64 64, rf m.recB 0 64, rf m.recB 64 64]).map (leBytes 8) |>.flatten

/-- What TSAVE writes for an Idle tile. -/
def idleRecord : List Byte := List.replicate 128 0

/-- Words of a sequencer record. -/
def seqWord (l : List Byte) (i : Nat) : Word := BitVec.ofNat 64 (leNat ((l.drop (8 * i)).take 8))

/-- The operation that a record holds, and its steps staged again (R192). The first reads what a `TMMA` word says. -/
def seqOp (l : List Byte) (id : Nat) (inH : Bool) : Option (TileOp × Mma) :=
  let w := seqWord l
  match decode (w 0) with
  | some (.tmma _ _ tile _ _ n lehr _ bnd _) =>
    let r (i : Nat) : BitVec 128 := BitVec.ofNat 128 ((w i).toNat + (w (i + 1)).toNat * 2 ^ 64)
    let m : Mma := { n := Ctx.stepsOf n, recA := r 12, recB := r 14, lehr := lehr, bnd := bnd, depth := wfld (w 1) 0 9, colg := wfld (w 1) 9 2,
                     wide := wbit (w 1) 16, restarted := wbit (w 1) 17, bound0 := w 2, started := true, trapped := wbit (w 1) 19,
                     reread := wbit (w 1) 17 }
    some ({ id := id, word := w 0, tile := tile.toNat, ga := 0, mma := some m, inH := inH }, m)
  | _ => none

/-- Steps of a resumed operation: those from SKIP on, all of them where the Lehr restart may read them again (R193). -/
def seqSteps (l : List Byte) (m : Mma) (op fa fb id0 : Nat) : List Staged :=
  let w := seqWord l
  let ra := wfld (w 0) 29 5
  let rb := wfld (w 0) 24 5
  let g (i : Nat) : List Word := (List.range 4).map fun k => w (i + k)
  Ctx.newSteps m.recA ra (wbit (w 3) 16) (g 4) fa id0 m.n (wfld (w 3) 0 8) (some op)
    ++ Ctx.newSteps m.recB rb (wbit (w 3) 17) (g 8) fb (id0 + m.n) m.n (wfld (w 3) 8 8) (some op)

/-- Lines that the steps of a record pin: those of A's staging and those of B's, each counted once. -/
def seqLines (l : List Byte) (m : Mma) : Nat :=
  let n (xs : List Staged) : Nat := (dedup ((xs.filter fun y => !y.tlds).map Staged.vlines).flatten).length
  let steps := seqSteps l m 0 0 0 0
  n (steps.take m.n) + n (steps.drop m.n)

/-- Reserved bits and ROW of a record are zero (R190, R192). -/
def seqClean (l : List Byte) : Bool := wfld (seqWord l 1) 20 44 = 0 && wfld (seqWord l 1) 11 5 = 0 && wfld (seqWord l 3) 18 46 = 0

/-! ### TRESUME (R192) -/

/-- A mode of TRESUME. -/
inductive Resume where
  | cont | wide | restart
deriving DecidableEq, Repr

/-- A record may be resumed on a tile (R192): the tile is Idle and holds no packed format, and the record names it and is well formed. -/
def seqOk (t : Team) (core i : Nat) (mode : Resume) (l : List Byte) (o : TileOp) (m : Mma) : Bool :=
  !t.ops.any (fun o => o.tile == i) && (t.tile i).susp.isNone && t.fmtAt i ≠ 2 && o.tile == i && wfld o.word 38 2 == core && seqClean l && m.depth ≤ m.n
    && recValid (tileCount t.slots) m.recA && recValid (tileCount t.slots) m.recB
    && (mode != .restart || ((t.tile i).c0 && wbit (seqWord l 1) 18))

/-- The tile and the operation as a mode leaves them: elements widened where it says so. -/
def State.resumeAs (s : State) (core : CoreId) (crew : Nat) (t : Team) (i : Nat) (mode : Resume) (m : Mma) : Mma × State :=
  let x := t.tile i
  let put (l : List Nat) (s : State) : State :=
    (s.putElems core t i 1 l).modTeam crew t.rank fun t => t.modTile i fun x => { x with status := statusFmt x.status 1, c0 := false }
  match mode with
  | .cont => ({ m with trapped := false }, s)
  | .wide =>
    if x.fmt = 0 then ({ m with wide := true, trapped := false }, put ((s.elems core t i 0).map widen32) s) else ({ m with wide := true, trapped := false }, s)
  | .restart =>
    let c0 := (List.range 1024).map fun k => widen32 (s.regNat core (t.slotAddr i + 0x1000 + 4 * k) 4)
    let s := (put c0 s).modTeam crew t.rank fun t => t.modTile i fun x => { x with bound := bWith x.bound (bBound m.bound0) }
    ({ m with wide := true, depth := 0, colg := 0, trapped := false, reread := true }, s)

end Sys2Proof.Machine
end

