-- ==== Sys2Proof/Machine/TileStep.lean ====
section
/-! DEFINITION. What the matrix unit does as it applies tile instructions (R176, R177, R182 to R193): reading staged steps, and TILE_STEP. -/

namespace Sys2Proof.Machine

/-! ### Reading the steps of a staging command (R180) -/

/-- The engine access of a tile instruction, as a watch record names it (R320). -/
def Crew.byTile (c : Crew) (r : Nat) (src : Nat) : By :=
  { asid := c.asid, secure := c.secure, team := some (c.id, r), who := c.who .gaffer 0, src := { src := src, chan := 0, tmpl := 0, retired := false }, lane := none }

/-- Places of a step's lines; none of them may lie in a peer window or the PCIe window (R365, R404). -/
def State.stepLeaves (s : State) (b : By) : List Nat → (List Leaf ⊕ (Nat × Nat × Bool)) × State
  | [] => (.inl [], s)
  | v :: l =>
    match s.leafFor b .load (v * 128) with
    | (.fail k a, s) => (.inr (k, v * 128, a), s)
    | (.ok f, s) =>
      if (keyPeer f.at_ || keyPcie f.at_) && !keyLpddr f.at_ then (.inr (6, v * 128, false), s)
      else match s.stepLeaves b l with
        | (.inl r, s) => (.inl (f :: r), s)
        | r => r

/-- Pins placed on lines (R180, R252); none while one must wait. A page of CP 2 has no place for a pin. -/
def State.pinLines (s : State) (h : PinHolder) : List Leaf → Option State
  | [] => some s
  | f :: l =>
    if f.cp = 2 || (keyLpddr f.at_ && f.cp ≠ 0) then s.pinLines h l
    else match s.pinRoom f with
      | none => none
      | some away => (s.placePin h f away).pinLines h l

/-- A staging command retires when its last step has been read. -/
def State.endFetch (s : State) (f : Fetch) : State :=
  let more := ((s.team? f.crew f.rank).map fun t => t.steps.any fun x => x.fetch == f.id && x.data.isNone).getD false
  if more then s
  else
    let s := { s with fetches := s.fetches.filter fun x => x.id != f.id }
    if f.counted then s.modStrand f.crew .gaffer fun t => t.lower ⟨0, 0, 0, 1⟩ else s

/-- A staging command that cause 6 or 7 stopped ends: its steps that were neither read nor claimed are never staged (R180). -/
def State.cutFetch (s : State) (f : Fetch) : State :=
  let s := { s with fetches := s.fetches.filter fun x => x.id != f.id }
  let s := s.modTeam f.crew f.rank fun t => { t with steps := t.steps.filter fun x => !(x.fetch == f.id && x.data.isNone && x.op.isNone) }
  if f.counted then s.modStrand f.crew .gaffer fun t => t.lower ⟨0, 0, 0, 1⟩ else s

/-- A staging command turns to its next step: the step's lines are placed and pinned. A fault stops the command before that step, once the steps
before it have been read. -/
def State.startStep (s : State) (c : Crew) (f : Fetch) (x : Staged) (before : Bool) : State :=
  let put (s : State) (y : Staged) : State := s.modTeam f.crew f.rank fun t => { t with steps := mapIf (fun z => z.id == y.id) (fun _ => y) t.steps }
  if x.tlds then put s { x with left := x.vlines.map fun v => (v, ⟨128 * v, 0, false, false, false, false, false⟩) }
  else
    match s.stepLeaves (c.byTile f.rank 2) x.vlines with
    | (.inr (k, va, ab), s') =>
      if before then s
      else
        let s := if k = 8 then s' else s'.cutFetch f
        s.tilePend f.crew f.inH k (tileDatum f.rank 0 f.res x.idx) va ab (f.rank, none, some f.res)
    | (.inl fs, s') =>
      match s'.pinLines (.tile f.crew f.rank x.id) fs with
      | none => s
      | some s =>
        put s { x with lines := fs.map fun l => lineOf l.at_, left := x.vlines.zip (fs.map fun l => { l with at_ := lineBase (lineOf l.at_) }) }

/-- One line of a step is read, at its home or in the scratchpad. -/
def State.readStepLine (s : State) (c : Crew) (f : Fetch) (t : Team) (x : Staged) (v : Nat) (l : Leaf) : State :=
  let put (s : State) (y : Staged) : State :=
    (s.modTeam f.crew f.rank fun t => { t with steps := mapIf (fun z => z.id == y.id) (fun _ => y) t.steps }).endFetch f
  if x.tlds then
    let bad := x.pieces.any fun p => p.1 / 128 == v && t.padBad.any fun b => p.1 ≤ b && b < p.1 + p.2
    put s (x.readLine v (t.padBytes (128 * v) 128) bad)
  else
    let (r, s) := s.readPiece (c.byTile f.rank 2) l 128
    put s (x.readLine v (r.getD []) r.isNone)

/-- READ of a staging command (R292): its next step is placed, or one line of a step that has been placed is read, in no order that the spec gives.
The commands of one record stage in the order in which they were accepted (R176). -/
def State.readFetch (s : State) (id : Nat) : State :=
  match s.fetches.find? fun f => f.id == id with
  | none => s
  | some f =>
    match s.crew? f.crew, s.team? f.crew f.rank with
    | some c, some t =>
      if c.stopPending f.rank none (some f.res) || s.fetches.any (fun g => g.crew == f.crew && g.rank == f.rank && g.res == f.res && g.id < f.id) then s
      else
        let xs := t.steps.filter fun x => x.fetch == id && x.data.isNone
        let reads := (xs.map fun x => x.left.map fun q => (x, q)).flatten
        let next := xs.find? fun x => x.left.isEmpty
        let (i, s) := s.drawIndex (reads.length + b2n next.isSome)
        match reads[i]?, next with
        | some (x, q), _ => s.readStepLine c f t x q.1 q.2
        | none, some x => s.startStep c f x (!reads.isEmpty)
        | none, none => s.endFetch f
    | _, _ => s

/-! ### Steps of TMMA -/

/-- The values of one row of a step. -/
def rowElems (r : BitVec 128) (d : List Byte) (row : Nat) : List Elem :=
  let bytes := (d.drop (256 * row)).take 256
  let k := recK r
  let sc := (d.drop (8192 + row * (k / 32))).take (k / 32)
  (List.range k).map fun i => readElem (recFmt r) (if recBlk r then some (sc.getD (i / 32) 0).toNat else none) (elemCode (recFmt r) bytes i)

/-- The prologue of R182: `.zi`, the width, C0 and B0. -/
def State.startMma (s : State) (core : CoreId) (crew : Nat) (t : Team) (o : TileOp) (m : Mma) : Mma × State :=
  let i := o.tile
  let x := t.tile i
  let (zi, w64) := match wordOf o.word with
    | .tmma _ _ _ _ _ _ _ zi _ w64 => (zi, w64)
    | _ => (false, false)
  let in64 := recFmt m.recA = 8
  let f0 := if zi then (if w64 || in64 then 1 else 0) else x.fmt
  let old := if zi then List.replicate 1024 0 else s.elems core t i x.fmt
  let wide := w64 || in64 || f0 = 1
  let els := if wide && f0 = 0 && !zi then old.map widen32 else old
  let bound := if zi then bWith x.bound 0 else x.bound
  let status := statusFmt (if zi then wput x.status 0 6 0 else x.status) (b2n wide)
  let s := s.putElems core t i (b2n wide) els
  let s := if wide then s else s.putHalf core t i ((els.map (leBytes 4)).flatten)
  let s := s.modTeam crew t.rank fun t => t.modTile i fun x => { x with bound := bound, status := status, c0 := !wide, owed := false }
  ({ m with wide := wide, bound0 := bound, started := true }, s)

/-- What one step gives. -/
structure StepOut where
  els  : List Nat
  bits : Nat                -- RSVD and BNAN
  mmax : Mag                -- M, rounded up
  delta : Mag
deriving Repr

/-- The group of 8 columns COLG of one step of the matrix unit (R119 to R122, R181), and what a whole step gives its bound (R124) once the last group
has been made. -/
def mmaStep (m : Mma) (els : List Nat) (da db : List Byte) : StepOut :=
  let fa := (List.range 32).map (rowElems m.recA da)
  let fb := (List.range 32).map (rowElems m.recB db)
  let va := fa.map fun l => l.map Elem.v
  let vb := fb.map fun l => l.map Elem.v
  let in64 := recFmt m.recA = 8
  let f := if m.wide then fp64 else fp32
  let k : Int := if recSeed m.recA ≠ 0 then -5 else 0
  let new := ((List.range 1024).zip els).map fun q =>
    let r := q.1 / 32
    let c := q.1 % 32
    if c / 8 ≠ m.colg then q.2 else stepElem f in64 k q.2 (va.getD r []) (vb.getD c [])
  let all := fa.flatten ++ fb.flatten
  let bits := (if all.any Elem.rsvd then stRSVD else 0) + (if all.any Elem.bnan then stBNAN else 0)
  let mm := up (elemsMag (b2n m.wide) new)
  let sOf (r c : Nat) : Mag := (((va.getD r []).zip (vb.getD c [])).map fun q => (prodF k q.1 q.2).mag).foldl Mag.add (some Dy.zero)
  let smax := if in64 then magMax ((List.range 1024).map fun q => sOf (q / 32) (q % 32)) else some Dy.zero
  let big (l : List (List Fv)) : Mag := magMax (l.flatten.map Fv.mag)
  { els := new, bits := bits, mmax := mm,
    delta := boundDelta in64 m.wide mm smax (recK m.recA) k (boundMag (recBeta m.recA)) (boundMag (recBeta m.recB)) (big va) (big vb) }

/-- A pinned source line of a step that the operation claimed was written (R180). -/
def Team.srcWritten (t : Team) (op : Nat) : Bool := t.steps.any fun x => x.op == some op && x.srcw

/-- The operation has retired: its steps, pins and count go; a pinned source that was written sets SRCW (R180, R182). -/
def State.retireMma (s : State) (crew r : Nat) (o : TileOp) (m : Mma) : State :=
  let s := s.modTeam crew r fun t => { (t.modTile o.tile fun x =>
    { x with owed := false,
             status := statusOr x.status ((if x.owed || t.srcWritten o.id then stSRCW else 0) + (if m.restarted then stLEHR else 0)) }) with
      ops := t.ops.filter fun y => y.id != o.id }
  s.releaseOp crew r o.id

/-- The tile is Suspended, holding its operation (R183). -/
def State.suspend (s : State) (crew r : Nat) (o : TileOp) (m : Mma) : State :=
  s.modTeam crew r fun t =>
    { (t.modTile o.tile fun x => { x with susp := some { o with mma := some { m with trapped := true } } }) with ops := t.ops.filter fun y => y.id != o.id }

def State.putOp (s : State) (crew r : Nat) (o : TileOp) (m : Mma) : State :=
  s.modTeam crew r fun t => { t with ops := mapIf (fun y => y.id == o.id) (fun y => { y with mma := some m }) t.ops }

/-- Claimed steps of an operation, A's and then B's. -/
def Team.claimed (t : Team) (o : TileOp) : List Staged × List Staged :=
  let ra := wfld o.word 29 5
  (t.steps.filter fun x => x.op == some o.id && x.res == ra, t.steps.filter fun x => x.op == some o.id && x.res != ra)

/-- The bytes of a claimed step as the unit reads them for a group of columns, and whether one is uncorrectable (R180, R182): as they were staged, or
where they stand when the step is read again. -/
def State.stepBytes (s : State) (crew r : Nat) (m : Mma) (x : Staged) : Option (List Byte × Bool) :=
  x.data.map fun d => if m.reread then s.stepData crew r x else (d, x.bad)

/-- The Lehr path (R182): C0 and B0 again, in FP64, from step 0. -/
def State.lehrStart (s : State) (core : CoreId) (crew : Nat) (t : Team) (o : TileOp) (m : Mma) : State :=
  let c0 := (List.range 1024).map fun k => widen32 (s.regNat core (t.slotAddr o.tile + 0x1000 + 4 * k) 4)
  ((s.putElems core t o.tile 1 c0).modTeam crew t.rank fun t => t.modTile o.tile fun x =>
    { x with bound := bWith x.bound (bBound m.bound0), status := statusFmt x.status 1, c0 := false }).putOp crew t.rank o
      { m with wide := true, restarted := true, reread := true, depth := 0, colg := 0 }

/-- A step whose last group has been made (R182): its bound and status, then the next step, the Lehr path, or cause 12. -/
def State.endStep (s : State) (core : CoreId) (crew : Nat) (t : Team) (o : TileOp) (m : Mma) (y : StepOut) : State :=
  let f := b2n m.wide
  let x := t.tile o.tile
  let bound := if m.bnd then boundStep (bBound x.bound) y.mmax y.delta else fp32.infBits false
  let passes := m.bnd && boundPasses bound (bTexp x.bound) (bAbs x.bound) y.mmax
  let restart := passes && !m.wide && m.lehr && !m.restarted
  let nans := !restart && y.els.any fun b => ((if m.wide then fp64 else fp32).read b).isNaN
  let s := s.modTeam crew t.rank fun t => t.modTile o.tile fun x =>
    { x with bound := bWith x.bound bound, status := statusOr x.status (y.bits + (if passes then stPASS else 0) + if nans then stNANS else 0) }
  if restart then s.lehrStart core crew t o m
  else
    let s := s.putElems core t o.tile f y.els
    let next := { m with depth := m.depth + 1, colg := 0 }
    if passes then
      (s.suspend crew t.rank o next).tilePend crew o.inH 12 (tileDatum t.rank o.tile (wfld o.word 29 5) m.depth) 0 false (t.rank, some o.tile, none)
    else s.putOp crew t.rank o next

/-- The next group of columns of a TMMA, or its retirement when no step is left (R181, R182). -/
def State.stepMma (s : State) (c : Crew) (r : Nat) (o : TileOp) (m : Mma) : State :=
  let core := c.teamCore r
  let (m, s) := match m.started, s.team? c.id r with
    | false, some t => s.startMma core c.id t o m
    | _, _ => (m, s)
  match s.team? c.id r with
  | none => s
  | some t =>
    let t := { t with rank := r }
    let claimed := t.claimed o
    if m.n ≤ m.depth then (s.putOp c.id r o m).retireMma c.id r o m
    else match claimed.1[m.depth]?, claimed.2[m.depth]? with
      | some a, some b => match s.stepBytes c.id r m a, s.stepBytes c.id r m b with
        | some (da, ea), some (db, eb) =>
          if ea || eb then
            (s.suspend c.id r o m).tilePend c.id o.inH 9 (tileDatum r o.tile (if ea then a.res else b.res) m.depth) 0 false (r, some o.tile, none)
          else
            let f := b2n m.wide
            let y := mmaStep m (s.elems core t o.tile f) da db
            if m.colg < 3 then (s.putElems core t o.tile f y.els).putOp c.id r o { m with colg := m.colg + 1 } else s.endStep core c.id t o m y
        | _, _ => s.putOp c.id r o m
      | _, _ => s.putOp c.id r o m

/-! ### The other operations -/

/-- An operation leaves its unit: retired, or stopped with no effect. -/
def State.endOp (s : State) (crew r : Nat) (o : TileOp) (k : Counts) : State :=
  (s.modTeam crew r fun t => { t with ops := t.ops.filter fun y => y.id != o.id }).modStrand crew .gaffer fun t => t.lower { k with tl := 1 }

/-- A memory access of the operation failed (R177, R188): for a missing page it is tried again when the fault is resolved. -/
def State.failOp (s : State) (crew r : Nat) (o : TileOp) (k : Counts) (cause va : Nat) (absent : Bool) : State :=
  let s := if cause = 8 then s else s.endOp crew r o k
  s.tilePend crew o.inH cause (tileDatum r o.tile 0 0) va absent (r, some o.tile, none)

/-- TZERO (R184). -/
def State.applyZero (s : State) (core : CoreId) (crew : Nat) (t : Team) (o : TileOp) (a64 : Bool) : State :=
  let s := s.setRegBytes core (t.slotAddr o.tile) (List.replicate 8192 0)
  s.modTeam crew t.rank fun t => t.modTile o.tile fun x =>
    { x with bound := bWith x.bound 0, status := BitVec.ofNat 64 (b2n a64 * 64), c0 := false }

/-- What converting a tile gives: the slot's first 4 KiB (or all 8 of an FP64 tile), its format, its bound and MAXMAG; none for the fault action. -/
structure Converted where
  bytes : List Byte
  fmt   : Nat
  bound : Nat
  maxmag : Nat
deriving Repr

/-- Words of one packed row (R186). -/
def packRow (b : Nat) (codes : List Nat) (scale : Option Nat) : List Byte :=
  let body := leBytes (32 * b / 8) (((List.range 32).zip codes).map fun q => q.2 % 2 ^ b * 2 ^ (b * q.1)).sum
  (body ++ (match scale with | some e => leBytes 4 e | none => []) ++ List.replicate 128 0).take 128

/-- The target of a wide conversion. -/
def cvtWide : Nat → Option Fmt
  | 16 => some fp64
  | 17 => some fp32
  | 18 => some fp16
  | 19 => some bf16f
  | _ => none

/-- TCVT of a whole tile (R185, R126). A conversion to the tile's own format leaves its elements as they are, but that it quiets their NaNs, and
its bound too (DESIGN CHOICE, log 78: R126 gives bounds for wider and for narrower targets alone). An element that is NaN or infinite afterwards sets the bound
to infinity, whatever the target. -/
def convertTile (f : Nat) (els : List Nat) (rm : Rm) (tgt : Nat) (pol : BitVec 8) (bound : Nat) : Option Converted :=
  let src := if f = 1 then fp64 else fp32
  let vs := els.map src.read
  let m := elemsMag f els
  let rows {α : Type} (l : List α) : List (List α) := (List.range 32).map fun r => (l.drop (32 * r)).take 32
  let n := (Narrow.ofCode (tgt % 8)).getD .e4m3
  let add (l : List Mag) : Nat := roundUp (l.foldl Mag.add (boundMag bound))
  if 8 ≤ tgt && tgt < 16 then
    let qs := (rows vs).map (quantise n rm pol)
    if qs.any Quant.fault then none
    else
      let xmax := (qs.map Quant.scale).foldl max 0
      let bad := qs.any fun q => q.out.isNone
      some { bytes := (qs.map fun q => packRow (if n.bits = 4 then 4 else 8) q.codes (some q.scale)).flatten, fmt := 2,
             bound := if bad then fp32.infBits false
               else add [some ⟨1, n.emax - n.mant - 1 + ((xmax : Int) - 127)⟩, magMax (qs.map Quant.chg)],
             maxmag := roundUp (magMax (qs.map Quant.out)) }
  else
    let t : Target := match cvtWide tgt with | some w => .wide w | none => .narrow n
    let own (e : Nat) (v : Fv) : Conv := match v with
      | .nan n p => ⟨src.nanBits n p, false, 0⟩
      | _ => ⟨e, false, 0⟩
    let cs := if tgt = 17 - f then (els.zip vs).map fun q => own q.1 q.2 else vs.map fun v => convert t rm pol (.fv v)
    let back (c : Nat) : Fv := match cvtWide tgt with | some w => w.read c | none => (n.read c).1
    let outs := cs.map fun c => back c.code
    let chg := magMax (((cs.zip (vs.zip outs)).filter fun q => (q.1.flags &&& (flagOVF ||| flagUNF)) != 0).map fun q => q.2.1.dist q.2.2)
    let wider := tgt = 16 || (tgt = 17 && f = 0)
    let ulp : Mag := match t with
      | .wide w => (up m).map (ulpOf w)
      | _ => match n.fmt with | some w => (up m).map (ulpOf w) | none => some ⟨1, 0⟩
    let bad := outs.any fun v => v.isNaN || v.isInf
    if cs.any Conv.fault then none
    else
      let codes := cs.map Conv.code
      let bits := match tgt with
        | 16 => 64
        | 17 => 32
        | 18 | 19 => 16
        | _ => if n.bits = 4 then 4 else 8
      some { bytes := if tgt = 16 || tgt = 17 then (codes.map (leBytes (bits / 8))).flatten else ((rows codes).map fun r => packRow bits r none).flatten,
             fmt := if tgt = 16 then 1 else if tgt = 17 then 0 else 2,
             bound := if bad then fp32.infBits false else if wider then bound else add [ulp.map fun u => u.scale (-1), chg],
             maxmag := roundUp (magMax (outs.map Fv.mag)) }

/-- TCVT applied. After the fault action the tile is as it was (R185), but that the slot has discarded C0 as it accepted the word (R169). -/
def State.applyCvt (s : State) (core : CoreId) (crew : Nat) (t : Team) (o : TileOp) (rm : Rm) (tgt : Nat) (pol : BitVec 8) : State :=
  let x := t.tile o.tile
  match convertTile x.fmt (s.elems core t o.tile x.fmt) rm tgt pol (bBound x.bound) with
  | none => (s.modTeam crew t.rank fun t => t.modTile o.tile fun x => { x with c0 := false }).tilePend crew o.inH 10 (tileDatum t.rank o.tile 0 0) 0 false
      (t.rank, some o.tile, none)
  | some y =>
    let s := s.setRegBytes core (t.slotAddr o.tile) y.bytes
    let s := if y.fmt = 1 then s else s.putHalf core t o.tile zeroHalf
    s.modTeam crew t.rank fun t => t.modTile o.tile fun x =>
      { x with bound := bWith x.bound y.bound, status := wput (statusFmt x.status y.fmt) 32 32 y.maxmag, c0 := false }

/-- MAXMAG of a tile as `TSTB` forms it (R187). -/
def State.maxMag (s : State) (core : CoreId) (t : Team) (i : Nat) : Nat :=
  let x := t.tile i
  if x.fmt = 2 then wfld x.status 32 32 else roundUp (elemsMag x.fmt (s.elems core t i x.fmt))

/-- TSTB (R188): the store is a message of the context until it is acknowledged. -/
def State.applyTstb (s : State) (c : Crew) (t : Team) (o : TileOp) (full : Bool) : State :=
  let core := c.teamCore t.rank
  match c.gaffer, s.translate c.asid c.secure .store o.ga with
  | none, _ => s
  | some _, (.fail k ab, s) => s.failOp c.id t.rank o ⟨0, 1, 0, 0⟩ k o.ga.toNat ab
  | some g, (.ok f, s) =>
    if inBlockAperture o.ga || !engineOk f then s.failOp c.id t.rank o ⟨0, 1, 0, 0⟩ 6 o.ga.toNat false
    else
      let mm := s.maxMag core t o.tile
      let x := t.tile o.tile
      let status := wput x.status 32 32 mm
      let s := s.modTeam c.id t.rank fun t => t.modTile o.tile fun x => { x with status := status }
      let (b, k) : Word × Word := if full then (x.bound &&& 0x1FFFFFFFFFF, status) else (BitVec.ofNat 64 (bBound x.bound + mm * 2 ^ 32), 0)
      let (id, s) := s.newId
      let e : Entry := { id := id, word := o.word, pos := 0, path := 0, inH := o.inH, logged := false, lanes := 1, done := 0, sent := 1, faults := [],
                         src := [[o.ga, b, k]], cnt := ⟨0, 1, 0, 0⟩, reads := [] }
      let s := s.modStrand c.id .gaffer fun t => { t with log := t.log ++ [e] }
      (s.post { baseMsg c g e .store [0] with
        point := homeOf f.cp f.at_, line := lineOf f.at_, leaf := f, acts := [⟨0, f.at_, if full then 16 else 8, b, k⟩],
        sys := (keyPcie f.at_ || keyPeer f.at_) && !keyLpddr f.at_ }).endOp c.id t.rank o .none

/-- TLDB (R188). -/
def State.applyTldb (s : State) (c : Crew) (t : Team) (o : TileOp) (full : Bool) : State :=
  match (if inBlockAperture o.ga then (.fail 6 o.ga.toNat false, s) else s.loadVa (c.byTile t.rank 0) o.ga.toNat (if full then 16 else 8)) with
  | (.fail k va ab, s) => s.failOp c.id t.rank o ⟨1, 0, 0, 0⟩ k va ab
  | (.ok l, s) =>
    let w0 := BitVec.ofNat 64 (leNat (l.take 8))
    let st := leNat ((l.drop 8).take 8)
    let s := s.modTeam c.id t.rank fun t => t.modTile o.tile fun x =>
      if full then { x with bound := bWith (w0 &&& 0x1FFFFFFFFFF) (loadedBound (bBound w0)), status := wput x.status 0 6 st }
      else { x with bound := bWith x.bound (loadedBound (bBound w0)) }
    s.endOp c.id t.rank o ⟨1, 0, 0, 0⟩

/-- TBSET (R189): the 41 bits whose mask is given. -/
def State.applyTbset (s : State) (crew : Nat) (t : Team) (o : TileOp) (x : Word) (withBound : Bool) : State :=
  (s.modTeam crew t.rank fun t => t.modTile o.tile fun y =>
    { y with bound := if withBound then x &&& 0x1FFFFFFFFFF else wput y.bound 32 9 (wfld x 32 9) }).endOp crew t.rank o .none

/-- TSAVE (R191) of the operation `v` in progress or Suspended on the tile, or of an Idle tile. A source write that the saved operation's status has still
to show is kept with the tile (R180, log 78). -/
def State.applyTsave (s : State) (c : Crew) (t : Team) (o : TileOp) (v : Option (TileOp × Mma)) : State :=
  let core := c.teamCore t.rank
  -- an operation that has not begun stands before its first step
  let (v, s) := match v with
    | some (y, m) => if m.started then (some (y, m), s) else let r := s.startMma core c.id t y m; (some (y, r.1), r.2)
    | none => (none, s)
  let t := { (s.team? c.id t.rank).getD t with rank := t.rank }
  let rec_ := match v with
    | some (y, m) => let x := t.claimed y; seqRecord (t.c0Held o.tile y.id) y m x.1 x.2
    | none => idleRecord
  match s.storeVa (c.byTile t.rank 0) o.ga.toNat rec_ with
  | (.fail k va ab, s) => s.failOp c.id t.rank o .none k va ab
  | (.ok _, s) =>
    let s := s.endOp c.id t.rank o .none
    match v with
    | none => s
    | some (y, _) =>
      (s.modTeam c.id t.rank fun t =>
        { (t.modTile o.tile fun x => { x with susp := none, owed := x.owed || t.srcWritten y.id }) with ops := t.ops.filter fun z => z.id != y.id }).releaseOp
          c.id t.rank y.id

/-- One operation applied, but for TMMA. `v` is the operation that TSAVE would save. -/
def State.applyOp (s : State) (c : Crew) (t : Team) (o : TileOp) (v : Option (TileOp × Mma)) : State :=
  let core := c.teamCore t.rank
  match wordOf o.word with
  | .tzero _ a64 .. => (s.applyZero core c.id t o a64).endOp c.id t.rank o .none
  | .tcvt _ rm _ _ tgt pol => (s.applyCvt core c.id t o rm tgt.toNat pol).endOp c.id t.rank o .none
  | .tstbEnt .. => s.applyTstb c t o false
  | .tstbFull .. => s.applyTstb c t o true
  | .tldbEnt .. => s.applyTldb c t o false
  | .tldbFull .. => s.applyTldb c t o true
  | .tbsetThr .. => s.applyTbset c.id t o o.ga false
  | .tbsetAll .. => s.applyTbset c.id t o o.ga true
  | .tbsetHdr .. =>
    match s.loadVa (c.byTile t.rank 0) (o.ga.toNat + 8) 8 with
    | (.fail k va ab, s) => s.failOp c.id t.rank o .none k va ab
    | (.ok l, s) => s.applyTbset c.id t o (BitVec.ofNat 64 (leNat l)) false
  | .tsave .. => s.applyTsave c t o v
  | _ => s

/-- An access that the operation makes as an `LD` or `ST` of the context is held back by older accesses of the context (R188, R191). -/
def State.opHeld (s : State) (crew : Nat) (o : TileOp) : Bool :=
  let back (n : Nat) : Bool := ((s.strand? crew .gaffer).map fun g => g.holdsBack o.inH (some o.id) (o.ga + BitVec.ofNat 64 n)).getD false
  match wordOf o.word with
  | .tstbEnt .. | .tstbFull .. | .tldbEnt .. | .tldbFull .. | .tsave .. | .tbsetHdr .. => back 0
  | _ => false

/-- A pending write of a lane word that was accepted before the operation still goes to its tile through the alias: the operation does not begin (R97).
While the crew is being saved, what has met a cause does not hold it (log 78). -/
def State.aliasOpen (s : State) (c : Crew) (t : Team) (id tile : Nat) : Bool :=
  t.waves.any fun w => w.log.any fun e =>
    e.id < id && (e.undone &&& (if c.saving.isSome then ~~~e.faultLanes else e.lanes)) != 0 && lateTile s c w e == some tile

/-- An operation does not begin: older accesses of the context hold back the one that it makes, pending writes of the alias view come before it (R97, R173), or
a stop names the record that a `TMMA` reads (R177). -/
def State.unitHeld (s : State) (c : Crew) (t : Team) (o : TileOp) : Bool :=
  s.opHeld c.id o || s.aliasOpen c t o.id o.tile
    || (o.mma.isSome && [wfld o.word 29 5, wfld o.word 24 5].any fun r => c.stopPending t.rank none (some r))

/-- An operation stands between two column groups of a step whose bytes are at hand: the unit runs one step at a time (R176). -/
def Team.midStep (t : Team) (i : Nat) : Bool :=
  match t.ops.find? fun o => o.tile == i with
  | some o => (o.mma.map fun m =>
      let x := t.claimed o
      m.started && m.colg ≠ 0 && (x.1[m.depth]?.bind Staged.data).isSome && (x.2[m.depth]?.bind Staged.data).isSome).getD false && (t.tile i).susp.isNone
  | none => false

/-- The unit of a team's core is inside a step of another tile. What a save has stopped is not in progress. -/
def State.unitBusy (s : State) (c : Crew) (t : Team) (i : Nat) : Bool :=
  s.crews.any fun d => d.saving.isNone && d.die == c.die && d.cluster == c.cluster && d.teams.any fun u => u.core == t.core &&
    (List.range u.tiles.length).any fun j => !(d.id == c.id && u.rank == t.rank && j == i) && u.midStep j && !d.stopPending u.rank (some j) none

def isTsave : Instr → Bool
  | .tsave .. => true
  | _ => false

/-- The head of a tile's queue goes on: a `TSAVE` right behind a `TMMA` acts at its next interruptible point (R191), an operation that names memory waits
for older accesses. A crew that is being saved finishes what a sequencer record cannot hold, and stops its last operation of each tile (R193). -/
def State.stepHead (s : State) (c : Crew) (t : Team) (o : TileOp) (rest : List TileOp) : State :=
  match o.mma with
  | none => if s.unitHeld c t o then s else s.applyOp c t o none
  | some m =>
    match rest.head?.filter fun y => isTsave (wordOf y.word) with
    | some y => if s.opHeld c.id y || (!m.started && s.unitHeld c t o) then s else s.applyOp c t y (some (o, m))
    | none =>
      if (c.saving.isSome && rest.isEmpty) || (!m.started && s.unitHeld c t o) then s
      else if s.limited && m.colg = 0 && m.depth < m.n then
        let (b, s) := s.drawBit
        if b then s.modDie c.die fun d => { d with wstep := d.wstep + 1 } else s.stepMma c t.rank o m
      else s.stepMma c t.rank o m

/-- TILE_STEP (R176, R181, R182): the operation whose turn it is on a tile goes on by a group of columns, or as a whole. On a Suspended tile only
what was accepted there applies (R177, R183). -/
def execTileStep (crew rank tile : Nat) (s : State) : Host.Outcome State Fault Refusal :=
  .next (match s.crew? crew, s.team? crew rank with
    | some c, some t =>
      let t := { t with rank := rank }
      let ops := t.ops.filter fun o => o.tile == tile
      if c.stopPending rank (some tile) none || (!t.midStep tile && s.unitBusy c t tile) then s
      else match (t.tile tile).susp with
        | some x => match ops.find? TileOp.now with
          | some o => if s.unitHeld c t o then s else s.applyOp c t o (x.mma.map fun m => (x, m))
          | none => s
        | none => match ops with
          | [] => s
          | o :: rest => s.stepHead c t o rest
    | _, _ => s)

end Sys2Proof.Machine
end

