-- ==== Sys2Proof/Machine/Copy.lean ====
section
/-! DEFINITION. The copy engine (R343 to R356): templates, boxes, what a command reads and writes, and the moves of an accepted command (R292, R308). -/

namespace Sys2Proof.Machine

/-! ### Records in bytes -/

/-- A field of `n` bits that starts `lo` bits into the 8-byte word at byte `off`. -/
def byteFld (l : List Byte) (off lo n : Nat) : Nat := fld (leNat ((l.drop off).take 8)) lo n

/-- Every byte of a range is zero. -/
def zeroFrom (l : List Byte) (off n : Nat) : Bool := ((l.drop off).take n).all (· == 0)

/-- A tensor header (R228). -/
structure THdr where
  base   : Nat
  fmt    : Nat
  blk    : Bool
  rank   : Nat
  shape  : List Nat
  stride : List Nat         -- STRIDE[0] to STRIDE[4]
  seed   : Word
  bounds : Nat
  scales : Nat
deriving DecidableEq, Repr

def THdr.ofBytes (l : List Byte) : THdr :=
  { base := byteFld l 0 0 64, fmt := byteFld l 8 0 4, blk := byteFld l 8 4 1 == 1, rank := byteFld l 8 5 3,
    shape := (List.range 5).map fun d => byteFld l (0x10 + 4 * d) 0 32, stride := (List.range 5).map fun d => byteFld l (0x28 + 8 * d) 0 64,
    seed := BitVec.ofNat 64 (byteFld l 0x50 0 64), bounds := byteFld l 0x58 0 64, scales := byteFld l 0x60 0 64 }

def THdr.dim (h : THdr) (d : Nat) : Nat := h.shape.getD d 1
def THdr.str (h : THdr) (d : Nat) : Nat := h.stride.getD d 0

/-- Bytes of a block of 32 elements. -/
def THdr.q (h : THdr) : Nat := if matBits h.fmt = 4 then 16 else 32

/-- The header is well formed (R228, R229). -/
def THdr.ok (l : List Byte) : Bool :=
  let h := THdr.ofBytes l
  matFmtOk h.fmt && 1 ≤ h.rank && h.rank ≤ 5 && byteFld l 8 8 24 == 0 && byteFld l 8 41 23 == 0 && zeroFrom l 0x24 4 && zeroFrom l 0x68 0x18
    && h.str 0 == 0 && h.bounds % 8 == 0 && (List.range 5).all (fun d => d < h.rank || h.dim d == 1)
    && (!h.blk || (h.fmt ≤ 5 && h.dim 0 % 32 == 0 && (List.range 5).all fun d => d == 0 || h.str d % h.q == 0))

/-- A copy template (R231). -/
structure Tmpl where
  kind   : Nat
  route  : Nat
  acq    : Bool
  rel    : Bool
  scope  : Nat
  mask   : Nat
  dfmt   : Nat
  policy : BitVec 8
  rm     : Nat
  rot    : Bool
  tben   : Bool
  tboff  : Nat
  src    : Nat
  dst    : Nat
  box    : List Nat
  halo   : List Nat
  conv   : List Nat
  l2base : Nat
  l2size : Nat
  dstr   : List Nat
deriving DecidableEq, Repr

def Tmpl.ofBytes (l : List Byte) : Tmpl :=
  { kind := byteFld l 0 0 4, route := byteFld l 0 4 2, acq := byteFld l 0 6 1 == 1, rel := byteFld l 0 7 1 == 1, scope := byteFld l 0 8 3,
    mask := byteFld l 0 12 4, dfmt := byteFld l 0 16 4, policy := BitVec.ofNat 8 (byteFld l 0 20 8), rm := byteFld l 0 28 2, rot := byteFld l 0 30 1 == 1,
    tben := byteFld l 0 31 1 == 1, tboff := byteFld l 0 32 32, src := byteFld l 8 0 64, dst := byteFld l 16 0 64,
    box := (List.range 5).map fun d => byteFld l (0x18 + 2 * d) 0 16, halo := (List.range 5).map fun d => byteFld l (0x22 + d) 0 8,
    conv := (List.range 8).map fun i => byteFld l (0x28 + i) 0 8, l2base := byteFld l 0x30 0 64, l2size := byteFld l 0x38 0 64,
    dstr := 0 :: (List.range 4).map fun d => byteFld l (0x40 + 4 * d) 0 32 }

def Tmpl.ext (t : Tmpl) (d : Nat) : Nat := max 1 (t.box.getD d 0)
def Tmpl.hal (t : Tmpl) (d : Nat) : Nat := t.halo.getD d 0
def Tmpl.cv (t : Tmpl) (i : Nat) : Nat := t.conv.getD i 0
def zeros (l : List Nat) : Bool := l.all (· == 0)

/-- The template is well formed (R348); `s` is the scratchpad request. -/
def Tmpl.ok (l : List Byte) (s : Nat) : Bool :=
  let t := Tmpl.ofBytes l
  let noL2 := t.l2base == 0 && t.l2size == 0
  let noCvt := t.policy == 0 && t.dfmt == 0
  byteFld l 0 11 1 == 0 && zeroFrom l 0x27 1 && zeroFrom l 0x50 0x30 && t.scope ≤ 5
    && (if t.tben then t.tboff < s && t.tboff % 16 == 0 else t.tboff == 0)
    && (!t.rot || t.kind == 3) && (t.rm == 0 || t.kind == 4)
    && (t.route != 2 || (t.mask == 0 && zeros t.dstr))
    && (match t.kind with
      | 0 => t.route ≤ 2 && zeros t.halo && zeros t.conv && noL2 && noCvt
      | 1 => t.route == 0 && zeros t.conv && noL2 && noCvt
      | 2 => t.route == 2 && t.dst == 0 && zeros t.halo && noCvt && t.box.getD 4 0 == 0 && (List.range 6).all (fun i => 1 ≤ t.cv i)
          && t.l2base % 128 == 0 && t.l2size % 128 == 0
          && t.l2size ≤ 2 ^ 21
      | 3 => t.route == 2 && t.dfmt ≤ 5 && zeros t.halo && zeros t.conv && noL2
      | 4 => t.route ≤ 2 && t.dfmt ≤ 7 && zeros t.halo && zeros t.conv && noL2
      | _ => false)

/-! ### Boxes (R349) -/

/-- The origin of a box: the coordinates that Δ names. -/
def THdr.origin (h : THdr) (delta : Nat) : List Nat :=
  let r := [4, 3, 2, 1].foldl (fun (q : List Nat × Nat) d =>
    let o := if d < h.rank && h.str d ≠ 0 then q.2 / h.str d else 0
    (o :: q.1, q.2 - o * h.str d)) ([], delta)
  (8 * r.2 / matBits h.fmt) :: r.1

/-- The remainder of Δ is a whole number of elements. -/
def THdr.exact (h : THdr) (delta : Nat) : Bool :=
  let r := [4, 3, 2, 1].foldl (fun (q : Nat) d => if d < h.rank && h.str d ≠ 0 then q % h.str d else q) delta
  8 * r % matBits h.fmt == 0

/-- Every index vector of the given extents, dimension 0 fastest. -/
def indices : List Nat → List (List Nat)
  | [] => [[]]
  | n :: l => ((indices l).map fun t => (List.range n).map fun i => i :: t).flatten

/-- The bit address of an element at coordinates inside the tensor. -/
def THdr.bitAt (h : THdr) (x : List Nat) : Nat :=
  8 * (h.base + ([1, 2, 3, 4].map fun d => x.getD d 0 * h.str d).sum) + x.getD 0 0 * matBits h.fmt

/-- The byte address of the scale of an element (R229). -/
def THdr.scaleAt (h : THdr) (x : List Nat) : Nat := h.scales + x.getD 0 0 / 32 + ([1, 2, 3, 4].map fun d => x.getD d 0 * (h.str d / h.q)).sum

def THdr.inside (h : THdr) (x : List Int) : Bool := (List.range 5).all fun d => 0 ≤ x.getD d 0 && x.getD d 0 < h.dim d

/-- The entry of a tile in the bound array (R230). -/
def THdr.boundAt (h : THdr) (x : List Nat) : Nat :=
  let n0 := (h.dim 0 + 31) / 32
  let n1 := (h.dim 1 + 31) / 32
  let hi := x.getD 2 0 + h.dim 2 * (x.getD 3 0 + h.dim 3 * x.getD 4 0)
  h.bounds + 8 * ((hi * n1 + x.getD 1 0 / 32) * n0 + x.getD 0 0 / 32)

/-- One element that a command moves: where its code is read (none for a zero) and where it is written, as bit addresses, with the places of its
block scales, and its coordinate along dimension 0 at the end that Δ names (R349). -/
structure Elt where
  from_ : Option Nat
  scale : Option Nat
  put_  : Nat
  toScale : Option Nat
  x0    : Nat
  dst   : List Nat
deriving DecidableEq, Repr

/-- A planned command: the formats of both ends, and its elements. `pad` says which end is scratchpad. -/
structure Plan where
  sfmt : Nat
  sbits : Nat
  dbits : Nat
  elts : List Elt
deriving Repr

/-- Bits of an element of a type code 0 to 7. -/
def tyBits (c : Nat) : Nat := ((Ty.ofCode c).map Ty.ebits).getD 32

/-- The FMT code that names a type code (R348). -/
def tyFmt (c : Nat) : Nat :=
  match c with
  | 4 => 9
  | 5 => 8
  | 6 => 10
  | 7 => 11
  | _ => 15

/-- Coordinates as integers, less a halo. -/
def shifted (o i : List Nat) (halo : List Nat) : List Int := (List.range 5).map fun d => (o.getD d 0 : Int) + i.getD d 0 - halo.getD d 0

def toNats (x : List Int) : List Nat := x.map Int.toNat

/-- The box of KIND 0, 1, 3 and 4, or an error code. `sd` says that the memory end with Δ is the source; `free` is the format that a scratchpad source
of KIND 4 is read in, which the spec does not name (log 28). -/
def planBox (t : Tmpl) (delta : Nat) (asrc : Bool) (s : Nat) (sh dh : THdr) (free : Nat) : Nat ⊕ Plan :=
  let ext := (List.range 5).map fun d => t.ext d + 2 * t.hal d
  let mem := if t.route == 1 then dh else if t.route == 0 then sh else if asrc then sh else dh
  let o := mem.origin delta
  let zero : List Nat := [0, 0, 0, 0, 0]
  let so := if t.route == 0 || (t.route == 2 && asrc) then o else zero
  let do_ := if t.route == 1 || (t.route == 2 && !asrc) then o else zero
  let sb := if t.route == 1 then (if t.kind == 4 then tyBits free else matBits dh.fmt) else matBits sh.fmt
  let db := if t.route == 0 then (if t.kind == 4 then tyBits t.dfmt else matBits sh.fmt) else matBits dh.fmt
  let is_ := indices ext
  let pad (base : Nat) (b : Nat) (i : List Nat) : Nat := 8 * (base + ([1, 2, 3, 4].map fun d => i.getD d 0 * t.dstr.getD d 0).sum) + i.getD 0 0 * b
  let four (h : THdr) : Bool := matBits h.fmt ≠ 4 || (o.getD 0 0 % 2 = 0 && t.ext 0 % 2 = 0)
  let padEnd (base b : Nat) : Bool := is_.all fun i => (pad base b i + b + 7) / 8 ≤ s
  let boxIn (h : THdr) (p : List Nat) : Bool := is_.all fun i => h.inside (shifted p i [])
  let bad5 := !mem.exact delta || (List.range 5).any (fun d => mem.dim d ≤ o.getD d 0)
    || (t.route ≠ 1 && !four sh) || (t.route ≠ 0 && !four dh)
    || (t.route ≠ 2 && (if t.route == 0 then sh.blk else dh.blk))
    || (t.route == 0 && !padEnd t.dst db) || (t.route == 1 && !padEnd t.src sb)
    || (t.kind ≠ 1 && ((t.route ≠ 1 && !boxIn sh so) || (t.route ≠ 0 && !boxIn dh do_)))
    || (t.kind == 0 && t.route == 2 && (sh.fmt ≠ dh.fmt || sh.blk ≠ dh.blk))
    || (t.kind == 3 && (!(9 ≤ sh.fmt && sh.fmt ≤ 11) || sh.blk || !dh.blk || dh.fmt ≠ t.dfmt || dh.seed ≠ (if t.rot then sh.seed else 0)
        || o.getD 0 0 % 32 ≠ 0 || t.ext 0 % 32 ≠ 0
        || (dh.bounds ≠ 0 && (o.getD 1 0 % 32 ≠ 0 || t.ext 1 % 32 ≠ 0) && do_.getD 1 0 + t.ext 1 ≠ dh.dim 1)))
    || (t.kind == 4 && t.route ≠ 0 && (t.dfmt < 4 || dh.fmt ≠ tyFmt t.dfmt || dh.blk))
  if bad5 then .inl 5
  else .inr { sfmt := if t.route == 1 then (if t.kind == 4 then 16 + free else dh.fmt) else sh.fmt, sbits := sb, dbits := db, elts := is_.map fun i =>
    let x := shifted so i t.halo
    let xs := toNats x
    let xd := toNats (shifted do_ i [])
    { from_ := if t.route == 1 then some (pad t.src sb i) else if sh.inside x then some (sh.bitAt xs) else none,
      scale := if t.route ≠ 1 && sh.blk then some (sh.scaleAt xs) else none,
      put_ := if t.route == 0 then pad t.dst db i else dh.bitAt xd,
      toScale := if t.route ≠ 0 && dh.blk then some (dh.scaleAt xd) else none,
      x0 := o.getD 0 0 + i.getD 0 0, dst := xd } }

/-- im2col (R351): the elements that it writes, in the order of q and p, or ECODE 5. CONV holds KH, KW, SH, SW, DH, DW, PH, PW in its bytes (R231). -/
def planIm2col (t : Tmpl) (delta : Nat) (asrc : Bool) (sh : THdr) : Nat ⊕ Plan :=
  let o := sh.origin (if asrc then delta else 0)
  let b := matBits sh.fmt
  let kh := t.cv 0
  let kw := t.cv 1
  let c := t.ext 0
  let out (box pad dil k st : Nat) : Int := ((box : Int) + 2 * pad - dil * (k - 1) - 1) / st + 1
  let oh := out (t.ext 2) (t.cv 6) (t.cv 4) kh (t.cv 2)
  let ow := out (t.ext 1) (t.cv 7) (t.cv 5) kw (t.cv 3)
  let n := t.ext 3
  if oh < 1 || ow < 1 || !sh.exact (if asrc then delta else 0) || (List.range 5).any (fun d => sh.dim d ≤ o.getD d 0)
      || (b = 4 && (o.getD 0 0 % 2 ≠ 0 || t.ext 0 % 2 ≠ 0)) then .inl 5
  else
    let rows := n * oh.toNat * ow.toNat
    let cols := kh * kw * c
    if 8 * t.l2size < rows * cols * b then .inl 5
    else .inr { sfmt := sh.fmt, sbits := b, dbits := b, elts := (List.range (rows * cols)).map fun k =>
      let p := k / cols
      let q := k % cols
      let x := p % ow.toNat
      let y := p / ow.toNat % oh.toNat
      let im := p / ow.toNat / oh.toNat
      let ch := q % c
      let kx := q / c % kw
      let ky := q / c / kw
      let at_ : List Int := [(o.getD 0 0 : Int) + ch, (o.getD 1 0 : Int) + x * t.cv 3 + kx * t.cv 5 - t.cv 7,
        (o.getD 2 0 : Int) + y * t.cv 2 + ky * t.cv 4 - t.cv 6, (o.getD 3 0 : Int) + im, o.getD 4 0]
      { from_ := if sh.inside at_ then some (sh.bitAt (toNats at_)) else none, scale := none, put_ := 8 * t.l2base + k * b, toScale := none, x0 := 0, dst := [] } }

/-! ### What a command reads and writes -/

/-- The 32-byte sectors that bits name, each once. -/
def sectorsOfBits (l : List (Nat × Nat)) : List Nat :=
  dedup ((l.map fun q => (List.range ((q.1 + q.2 - 1) / 256 - q.1 / 256 + 1)).map fun i => q.1 / 256 + i).flatten)

/-- Sectors that a plan reads: of a team's scratchpad, or of memory. -/
def Plan.reads (p : Plan) (rank : Option Nat) : List (Option Nat × Nat) :=
  (sectorsOfBits (p.elts.filterMap fun e => e.from_.map fun a => (a, p.sbits))).map (fun x => (rank, x))
    ++ (sectorsOfBits (p.elts.filterMap fun e => e.scale.map fun a => (8 * a, 8))).map fun x => ((none : Option Nat), x)

/-- Memory addresses that a planned copy reads and writes (R343): the first and the last byte of each element, scale and bound entry. -/
def Plan.named (p : Plan) (t : Tmpl) (dh : THdr) : List Nat :=
  let both (bit n : Nat) : List Nat := [bit / 8, (bit + n - 1) / 8]
  let src := if t.route == 1 then [] else (p.elts.filterMap Elt.from_).map fun a => both a p.sbits
  let scales := (p.elts.filterMap Elt.scale).map fun a => [a]
  let dst := if t.route == 0 then [] else p.elts.map fun e => both e.put_ p.dbits ++ e.toScale.toList
  let bounds := if t.kind == 3 && dh.bounds ≠ 0 then p.elts.map fun e => [dh.boundAt e.dst] else []
  (src ++ scales ++ dst ++ bounds).flatten

/-- A byte that a command has read; scratchpad bytes and memory bytes are kept apart. -/
def gotByte (got : List (Option Nat × Host.Cell)) (rank : Option Nat) (a : Nat) : Nat :=
  ((got.find? fun c => c.1 == rank && c.2.1 == a).map fun c => c.2.2.toNat).getD 0

/-- The code at a bit address. -/
def gotCode (got : List (Option Nat × Host.Cell)) (rank : Option Nat) (bit bits : Nat) : Nat :=
  if bits < 8 then fld (gotByte got rank (bit / 8)) (bit % 8) bits
  else ((List.range (bits / 8)).map fun i => gotByte got rank (bit / 8 + i) * 256 ^ i).sum

/-- The bits of each byte that a code at a bit address fills. -/
def bitCells (bit bits code : Nat) : List (Nat × Byte × Byte) :=
  if bits < 8 then [(bit / 8, BitVec.ofNat 8 ((2 ^ bits - 1) * 2 ^ (bit % 8)), BitVec.ofNat 8 (code % 2 ^ bits * 2 ^ (bit % 8)))]
  else (List.range (bits / 8)).map fun i => (bit / 8 + i, 0xFF, BitVec.ofNat 8 (code / 256 ^ i))

/-- Cells gathered into one write for each 32-byte sector; of two writes of one bit the first listed stands. -/
def writesOf (rank : Option Nat) (cells : List (Nat × Byte × Byte)) : List EngWrite :=
  (dedup (cells.map fun c => c.1 / 32)).map fun s => { rank := rank, cells := cells.filter fun c => c.1 / 32 == s }

/-- A source value of a conversion (R353). -/
def convSrc (sfmt : Nat) (scale : Option Nat) (code : Nat) : Src × BitVec 7 :=
  if 16 ≤ sfmt then (((Ty.ofCode (sfmt - 16)).getD .f32).srcOf code, 0)
  else
    let e := readElem sfmt scale code
    (.fv e.v, (if e.rsvd then flagRSVD else 0) ||| if e.bnan then flagBNAN else 0)

/-- What a command has to write once it has read everything: cells, with the flags of R115. One that met the fault action ends with ECODE 4; `cells` is then
what it had Sent before (R352). -/
structure Made where
  cells : List (Nat × Byte × Byte)
  fault : Bool
  flags : BitVec 7
deriving Repr

/-- The parts of a command that were Sent: all of them, or, where one of them faults, an open choice among the others (R352, log 46). -/
def sentParts (tmpl : List Byte) (faults : List Bool) : List Bool :=
  if faults.any (· == true) then ((List.range faults.length).zip faults).map fun q => !q.2 && Config.sentBefore tmpl q.1 else faults.map fun _ => true

/-- The runs of 32 elements of KIND 3, with their blocks, codes and bound entries (R352): an entry is written once its tile's runs all are. -/
def madeQuant (tmpl : List Byte) (t : Tmpl) (sh dh : THdr) (p : Plan) (code : Elt → Nat) : Made :=
  let n := (Narrow.ofCode t.dfmt).getD .e4m3
  let runs (l : List Elt) : List (List Elt) := (List.range (l.length / 32)).map fun k => (l.drop (32 * k)).take 32
  let qs := (runs p.elts).map fun es =>
    let v := es.map fun e => (readElem p.sfmt none (code e)).v
    (es, quantise n .rne t.policy (rotateBlock (if t.rot then sh.seed else 0) ((es.head?.map Elt.x0).getD 0 / 32) v))
  let sent := qs.zip (sentParts tmpl (qs.map fun q => q.2.fault))
  let cells := ((sent.filter Prod.snd).map fun ((q : List Elt × Quant), _) =>
    ((q.1.zip q.2.codes).map fun x => bitCells x.1.put_ p.dbits x.2).flatten
      ++ (match q.1.head?.bind Elt.toScale with | some a => bitCells (8 * a) 8 q.2.scale | none => [])).flatten
  let at_ (q : List Elt × Quant) : Nat := dh.boundAt ((q.1.head?.map Elt.dst).getD [])
  let entries := if dh.bounds = 0 then []
    else ((dedup (qs.map at_)).map fun a =>
      let ts := (sent.filter fun q => at_ q.1 == a)
      if ts.all Prod.snd then
        bitCells (8 * a) 64 (roundUp (magMax (ts.map fun q => q.1.2.err)) + roundUp (magMax (ts.map fun q => q.1.2.mag)) * 2 ^ 32)
      else []).flatten
  { cells := cells ++ entries, fault := qs.any fun q => q.2.fault, flags := (qs.map fun q => q.2.flags).foldl (· ||| ·) 0 }

/-- What a command writes (R349 to R353). KIND 0 to 2 move codes and read no values: a reserved int4 code or a scale 0xFF that they move records no flag
(DEDUCED, log 35). -/
def madeOf (tmpl : List Byte) (t : Tmpl) (sh dh : THdr) (p : Plan) (rank : Option Nat) (got : List (Option Nat × Host.Cell)) : Made :=
  let code (e : Elt) : Nat := (e.from_.map fun a => gotCode got rank a p.sbits).getD 0
  let scale (e : Elt) : Option Nat := e.scale.map fun a => gotByte got none a
  match t.kind with
  | 3 => madeQuant tmpl t sh dh p code
  | 4 =>
    let tgt := ((Ty.ofCode t.dfmt).getD .f32).target
    let rm : Rm := match t.rm with | 0 => .rne | 1 => .rtz | 2 => .rup | _ => .rdn
    let cs := p.elts.map fun e =>
      let (v, f) := convSrc p.sfmt (scale e) (code e)
      let r := convert tgt rm t.policy v
      (e, r, r.flags ||| f)
    let sent := cs.zip (sentParts tmpl (cs.map fun q => q.2.1.fault))
    { cells := ((sent.filter Prod.snd).map fun q => bitCells q.1.1.put_ p.dbits q.1.2.1.code).flatten, fault := cs.any fun q => q.2.1.fault,
      flags := (cs.map fun q => q.2.2).foldl (· ||| ·) 0 }
  | _ =>
    { cells := (p.elts.map fun e => bitCells e.put_ p.dbits (code e)
        ++ (match e.toScale, scale e with | some a, some x => bitCells (8 * a) 8 x | _, _ => [])).flatten, fault := false, flags := 0 }

/-! ### Commands as they stand -/

def State.modCmd (s : State) (id : Nat) (f : Cmd → Cmd) : State := { s with cmds := mapIf (fun k => k.id == id) f s.cmds }
def State.cmd? (s : State) (id : Nat) : Option Cmd := s.cmds.find? fun k => k.id == id

/-- Parts of a command's data word (R344). -/
def dwColl (w : Word) : Bool := wbit w 15
def dwAsrc (w : Word) : Bool := wbit w 13
def dwArr (w : Word) : Bool := wbit w 12
def dwTmpl (w : Word) : Nat := wfld w 0 12
def dwDelta (w : Word) : Nat := wfld w 16 48 * 64

/-- What a copy command has kept: its template, its headers. -/
def Cmd.template (k : Cmd) : Tmpl := Tmpl.ofBytes (k.tmpl.take 128)
def Cmd.srcHdr (k : Cmd) : THdr := THdr.ofBytes ((k.tmpl.drop 128).take 128)
def Cmd.dstHdr (k : Cmd) : THdr := THdr.ofBytes ((k.tmpl.drop 256).take 128)

/-- The agent of a command's accesses (R320). -/
def State.byCmd (s : State) (k : Cmd) : By :=
  { asid := k.asid, secure := k.secure, team := none, who := s.whoNow k.crew k.sid k.lane k.who,
    src := { src := if k.kind == .coll then 4 else 1, chan := k.chan, tmpl := dwTmpl k.data, retired := s.retired k.crew k.sid }, lane := none }

/-- ECODE of a cause (R347). -/
def ecodeOf (cause : Nat) : Nat := if cause = 8 then 2 else if cause = 9 then 3 else 1

/-- The command has failed: it reads and writes nothing more. -/
def Cmd.failed (k : Cmd) (e : Nat) : Cmd := { k with ecode := e, reads := [], writes := [], planned := true }

/-- The plan of a command, made from what it holds. -/
def Cmd.plan (k : Cmd) (s : Nat) : Nat ⊕ Plan :=
  let t := k.template
  if t.kind == 2 then planIm2col t (dwDelta k.data) (dwAsrc k.data) k.srcHdr
  else planBox t (dwDelta k.data) (dwAsrc k.data) s k.srcHdr k.dstHdr (Config.copyType k.tmpl % 8)

/-- The scratchpad that a command of ROUTE 1 reads. -/
def Cmd.srcRank (k : Cmd) : Option Nat := if k.template.route == 1 then k.dests.head? else none

/-- Writes of cells; of several values written along a stride-0 dimension one stays, an open choice (R349). -/
def Cmd.cellWrites (k : Cmd) (p : Plan) (cells : List (Nat × Byte × Byte)) : List EngWrite :=
  let turn := if cells.isEmpty then 0 else Config.copyLast k.tmpl * max 1 (p.dbits / 8) % cells.length
  let cells := cells.drop turn ++ cells.take turn
  if k.template.route == 0 then (k.dests.map fun r => writesOf (some r) cells).flatten else writesOf none cells

/-- Everything has been read: the writes follow (R292). -/
def Cmd.makeWrites (k : Cmd) : Cmd :=
  match k.plan (2 ^ 32) with
  | .inl e => k.failed e
  | .inr p =>
    let m := madeOf k.tmpl k.template k.srcHdr k.dstHdr p k.srcRank k.got
    { k with writes := k.cellWrites p m.cells, planned := true, flags := m.flags, ecode := if m.fault then 4 else k.ecode }

/-- Nothing that an element is made of is still to be read. -/
def Elt.ready (e : Elt) (p : Plan) (rank : Option Nat) (reads : List (Option Nat × Nat)) : Bool :=
  (e.from_.elim true fun a => (sectorsOfBits [(a, p.sbits)]).all fun x => !reads.contains (rank, x))
    && e.scale.elim true fun a => !reads.contains (none, a / 32)

/-- No two elements are written to one bit. -/
def Plan.apart (p : Plan) : Bool := decide (p.elts.Pairwise fun a b => a.put_ + p.dbits ≤ b.put_ ∨ b.put_ + p.dbits ≤ a.put_)

/-- A command that moves elements as they are to places apart, and counts no sectors, writes an element once its own source has been read; the others write
when everything has been read (R292, log 46). `before` holds the sources that were still to be read. -/
def Cmd.moveWrites (k : Cmd) (before : List (Option Nat × Nat)) (first : Bool) : Cmd :=
  if 2 < k.template.kind || k.template.tben then (if k.reads.isEmpty then k.makeWrites else k)
  else match k.plan (2 ^ 32) with
    | .inl e => k.failed e
    | .inr p =>
      if !p.apart then (if k.reads.isEmpty then k.makeWrites else k)
      else
        let new := p.elts.filter fun e => e.ready p k.srcRank k.reads && (first || !e.ready p k.srcRank before)
        let m := madeOf k.tmpl k.template k.srcHdr k.dstHdr { p with elts := new } k.srcRank k.got
        { k with writes := k.writes ++ k.cellWrites p m.cells, planned := k.reads.isEmpty }

/-- Commands of a channel, in acceptance order. -/
def State.chanCmds (s : State) (die cluster chan : Nat) : List Cmd :=
  s.cmds.filter fun k => k.kind != .rrot && k.die == die && k.cluster == cluster && k.chan == chan && !k.done

/-- The previous commands of its channel have sent their last writes (R347): a write is Sent as soon as what it holds has been read. -/
def State.cmdFirst (s : State) (k : Cmd) : Bool :=
  k.kind == .rrot || (s.chanCmds k.die k.cluster k.chan).all fun o => k.id ≤ o.id || o.planned

/-- A team's scratchpad request, or 0 where the crew has gone. -/
def State.padLimit (s : State) (crew : Nat) : Nat := ((s.crew? crew).map Crew.padS).getD 0

/-- A command's access through a window: it waits while no PCIe link is up, and a peer whose link is down ends it with ECODE 7 (R404, R406). -/
def State.atFarSide (s : State) (k : Cmd) (p : Point) (f : State → State) : State :=
  if s.reachable p then f s
  else match p with
    | .peer _ => s.modCmd k.id fun k => k.failed 7
    | _ => s

/-- One source of a command read (R292): a sector of a scratchpad or of memory. -/
def State.readSource (s : State) (k : Cmd) (q : Option Nat × Nat) : State :=
  let cells (l : List Byte) : List (Option Nat × Host.Cell) := ((List.range 32).zip l).map fun x => (q.1, (32 * q.2 + x.1, x.2))
  let add (s : State) (l : List Byte) : State :=
    s.modCmd k.id fun k =>
      let j := { k with reads := k.reads.filter (· != q), got := k.got ++ cells l }
      if k.kind == .copy then j.moveWrites k.reads k.got.isEmpty else j
  match q.1 with
  | some r => match s.team? k.crew r with
    | some t => if t.padBad.any (fun b => b / 32 == q.2) then s.modCmd k.id fun k => k.failed 3 else add s (t.padBytes (32 * q.2) 32)
    | none => let (l, s) := s.drawWords 4; add s ((l.map fun w => leBytes 8 w.toNat).flatten)
  | none => match s.leafFor (s.byCmd k) .load (32 * q.2) with
    | (.fail c _, s) => s.modCmd k.id fun k => k.failed (ecodeOf c)
    | (.ok f, s') => s'.atFarSide k (homeOf f.cp f.at_) fun s => match s.readPiece (s.byCmd k) f 32 with
      | (none, s) => s.modCmd k.id fun k => k.failed 3
      | (some l, s) => add s l

/-- READ of a command: one of its sources, in no order that the spec gives. -/
def State.readCmd (s : State) (id : Nat) : State :=
  match s.cmd? id with
  | none => s
  | some k =>
    if !s.cmdFirst k then s
    else
      let (i, s) := s.drawIndex k.reads.length
      match k.reads[i]? with
      | none => s
      | some q => s.readSource k q

/-- A byte with some of its bits replaced. -/
def maskByte (old m v : Byte) : Byte := (old &&& ~~~m) ||| (v &&& m)

/-- A command has met an engine error: it counts and arrives no more (R355). -/
def State.cmdFailed (s : State) (id : Nat) : Bool := (s.cmd? id).any fun k => k.ecode ≠ 0

/-- A command ends at a barrier fault (R308), or at a barrier that cannot be read (R257). -/
def State.barrierFault (s : State) (k : Cmd) (r : Nat) : State :=
  let e := if s.padLost k.crew r k.template.tboff 16 then 3 else 8
  s.modCmd k.id fun k => k.failed e

/-- The barrier of a team counts one sector (R308, R355); a barrier fault ends the command. -/
def State.countSector (s : State) (k : Cmd) (ranks : List Nat) : State :=
  if k.kind != .copy || !k.template.tben then s
  else ranks.foldl (fun s r =>
    if (s.team? k.crew r).isNone || s.cmdFailed k.id then s
    else match s.tbSector k.crew r k.template.tboff with
      | some s => s
      | none => s.barrierFault k r) s

/-- A command that has given its completion signals fails while its writes are applied: the status of its channel records it (R308, R347; log 46). -/
def State.failChan (s : State) (k : Cmd) : State :=
  { s with chans := mapIf (fun h => h.die == k.die && h.cluster == k.cluster && h.chan == k.chan) (fun h => { h with ecode := k.ecode, err := true }) s.chans }

/-- The arrivals of ARR at each barrier that counts the command (R355). -/
def State.arriveAll (s : State) (k : Cmd) : State :=
  if k.kind != .copy || !k.template.tben || !dwArr k.data || k.ecode ≠ 0 then s
  else k.dests.foldl (fun s r =>
    if (s.team? k.crew r).isNone || s.cmdFailed k.id then s
    else match s.tbArrive k.crew r k.template.tboff with
      | some s => s.tbWritten k.crew (r, k.template.tboff)
      | none => s.barrierFault k r) s

/-- A command whose signals were given while its writes were on their way (R292) goes when the last is applied; an arrival that has waited for the last count
at a scratchpad barrier is made then (R355), and a failure that its completion has not reported is reported, in the channel's status too (R308, R346, R347). -/
def State.reap (s : State) (id : Nat) : State :=
  match s.cmd? id with
  | none => s
  | some k =>
    if !k.done || !k.writes.isEmpty then s
    else
      let s := if k.template.route == 0 then s.arriveAll k else s
      let k := (s.cmd? id).getD k
      let s := if k.ecode ≠ 0 && !k.told then (s.failChan k).engineError k.die k.ecode k.who else s
      { s with cmds := s.cmds.filter fun x => x.id != id }

/-- One write of a command to memory; a sector that was counted when its write was Sent is not counted again (R355). -/
def State.writeMem (s : State) (k : Cmd) (w : EngWrite) : State :=
  let rest (s : State) : State := s.modCmd k.id fun k => { k with writes := k.writes.erase w }
  match w.cells with
  | [] => rest s
  | c :: _ =>
    let base := c.1 / 32 * 32
    match s.leafFor (s.byCmd k) .store base with
    | (.fail e _, s) => s.modCmd k.id fun k => k.failed (ecodeOf e)
    | (.ok f, s') => s'.atFarSide k (homeOf f.cp f.at_) fun s =>
      let addrs := dedup (w.cells.map Prod.fst)
      let cells : List Host.Cell := addrs.map fun a =>
        let key := f.at_ + (a - base)
        (key, (w.cells.filter fun c => c.1 == a).foldr (fun c b => maskByte b c.2.1 c.2.2) (s.memByte key))
      let p := homeOf f.cp f.at_
      let r := s.apply p f.hold (lineOf f.at_) cells none
      let s := rest ((r.2.2.watchFlushes (s.byCmd k) p r.1).watchParts (s.byCmd k) p (cells.map fun c => (c.1, 1)) true r.2.1)
      if k.done || k.ecode ≠ 0 then s else s.countSector k k.dests

/-- CHANGE of a command: one of its writes to memory. -/
def State.changeCmd (s : State) (id : Nat) : State :=
  match s.cmd? id with
  | none => s
  | some k =>
    let ws := k.writes.filter fun w => w.rank.isNone
    let (i, s) := s.drawIndex ws.length
    match ws[i]? with
    | none => s
    | some w => (s.writeMem k w).reap id

/-- ENGINE_SCRATCH_WRITE (R292): one of a command's writes to a scratchpad. -/
def execEngineScratchWrite (id : Nat) (s : State) : Host.Outcome State Fault Refusal :=
  .next (match s.cmd? id with
    | none => s
    | some k =>
      let ws := k.writes.filter fun w => w.rank.isSome
      let (i, s) := s.drawIndex ws.length
      match ws[i]? with
      | none => s
      | some w =>
        let r := w.rank.getD 0
        let s := s.modTeam k.crew r fun t => w.cells.foldr (fun c t =>
          { t.setPad c.1 [maskByte ((t.padBytes c.1 1).headD 0) c.2.1 c.2.2] with padBad := t.padBad.filter (· ≠ c.1) }) t
        ((s.modCmd id fun k => { k with writes := k.writes.erase w }).countSector k (if k.ecode = 0 then [r] else [])).reap id)

/-- READ (R286) of a message, a staging command or an engine command. -/
def execRead (a : AccRef) (s : State) : Host.Outcome State Fault Refusal :=
  .next (match a with
    | .msg id => s.readMsg id
    | .fetch id => s.readFetch id
    | .cmd id => s.readCmd id)

/-- CHANGE (R285, R286). A staging command changes nothing. -/
def execChange (a : AccRef) (s : State) : Host.Outcome State Fault Refusal :=
  .next (match a with
    | .msg id => s.changeMsg id
    | .fetch _ => s
    | .cmd id => s.changeCmd id)

/-! ### Completion (R292, R347, R355) -/

/-- The status of a channel after a command has ended. -/
def State.endChan (s : State) (die cluster chan tmpl ecode : Nat) (flags : BitVec 7) (secure : Bool) : State :=
  let same (h : Chan) : Bool := h.die == die && h.cluster == cluster && h.chan == chan
  let old := (s.chans.find? same).map Chan.fin
  let new : Chan := { die := die, cluster := cluster, chan := chan, fin := old.getD 0 + 1, tmpl := tmpl, ecode := ecode, err := ecode ≠ 0, flags := flags,
                      secure := secure }
  { s with chans := new :: s.chans.filter fun h => !same h }

/-- The release flag of a command's template (R231, R366); a matched `RROT` ends when its bytes are written (R270). -/
def Cmd.rel (k : Cmd) : Bool :=
  match k.kind with
  | .copy => k.template.rel
  | .coll => byteFld k.tmpl 0 9 1 == 1
  | .rrot => true

/-- A command without the release flag has Sent its writes, one after another: each names a place (R220), and those to memory are counted at the barrier
(R355). Those that were Sent before one that fails are still applied (R346). -/
def State.sendWrites (s : State) (k : Cmd) : State :=
  let ws := k.writes.filter fun w => w.rank.isNone
  ((List.range ws.length).zip ws).foldl (fun s q =>
    let stop (e : Nat) : State := s.modCmd k.id fun k => { k.failed e with writes := ws.take q.1 }
    if s.cmdFailed k.id && k.ecode = 0 then s
    else match q.2.cells with
    | [] => s
    | c :: _ => match s.leafFor (s.byCmd k) .store (c.1 / 32 * 32) with
      | (.fail e _, _) => stop (ecodeOf e)
      | (.ok _, s) =>
        let u := s.countSector k k.dests
        if u.cmdFailed k.id && k.ecode = 0 then u.modCmd k.id fun k => { k with writes := ws.take (q.1 + 1) } else u) s

/-- COPY_COMPLETE (R292): the completion signals of a command that has read everything; with the release flag it has also written everything. -/
def execCopyComplete (id : Nat) (s : State) : Host.Outcome State Fault Refusal :=
  .next (match s.cmd? id with
    | none => s
    | some k =>
      if k.done || !k.planned || !k.reads.isEmpty || (k.rel && !k.writes.isEmpty) then s
      else
        let s := s.sendWrites k
        let wait := k.template.route == 0 && !k.writes.isEmpty
        let s := if wait then s else s.arriveAll ((s.cmd? id).getD k)
        let k := (s.cmd? id).getD k
        let s := if k.kind == .rrot then s
          else
            let s := s.endChan k.die k.cluster k.chan (dwTmpl k.data) k.ecode k.flags k.secure
            if k.ecode ≠ 0 then s.engineError k.die k.ecode k.who else s
        let s := if k.writes.isEmpty then { s with cmds := s.cmds.filter fun x => x.id != id } else s.modCmd id fun k => { k with done := true, told := k.ecode ≠ 0 }
        s.complete k.crew k.sid k.entry (1#32 <<< k.lane))

end Sys2Proof.Machine
end

