-- ==== Sys2Proof/Machine/Real.lean ====
section
/-! DEFINITION. Real functions to any precision, by intervals whose ends are integers over a power of two, and the correctly rounded
transcendentals of R155: on the K4 every result is the true value rounded to nearest even (R156). -/

namespace Sys2Proof.Machine

/-- The reals from lo · 2^-P to hi · 2^-P; P is an argument of every operation. -/
structure Iv where
  lo : Int
  hi : Int
deriving DecidableEq, Repr

namespace Iv

/-- Ceiling of a quotient by a positive number. -/
def cdiv (a b : Int) : Int := -((-a) / b)

/-- The rational n / d, d positive. -/
def ofQ (P : Nat) (n d : Int) : Iv := ⟨n * 2 ^ P / d, cdiv (n * 2 ^ P) d⟩
def ofInt (P : Nat) (n : Int) : Iv := ⟨n * 2 ^ P, n * 2 ^ P⟩
def add (a b : Iv) : Iv := ⟨a.lo + b.lo, a.hi + b.hi⟩
def sub (a b : Iv) : Iv := ⟨a.lo - b.hi, a.hi - b.lo⟩
def negate (a : Iv) : Iv := ⟨-a.hi, -a.lo⟩
def mul (P : Nat) (a b : Iv) : Iv :=
  let w := a.lo * b.lo
  let x := a.lo * b.hi
  let y := a.hi * b.lo
  let z := a.hi * b.hi
  ⟨min (min w x) (min y z) / 2 ^ P, cdiv (max (max w x) (max y z)) (2 ^ P)⟩
/-- Product with an integer. -/
def smul (k : Int) (a : Iv) : Iv := if 0 ≤ k then ⟨a.lo * k, a.hi * k⟩ else ⟨a.hi * k, a.lo * k⟩
/-- Quotient by a positive integer. -/
def sdiv (a : Iv) (k : Int) : Iv := ⟨a.lo / k, cdiv a.hi k⟩
/-- Reciprocal of an interval that does not reach zero. -/
def inv (P : Nat) (a : Iv) : Iv :=
  let o : Int := 2 ^ (2 * P)
  if 0 < a.lo then ⟨o / a.hi, cdiv o a.lo⟩ else ⟨-(cdiv o (-a.hi)), -(o / (-a.lo))⟩
def div (P : Nat) (a b : Iv) : Iv := mul P a (inv P b)
/-- Square root; below zero counts as zero. -/
def sqrt (P : Nat) (a : Iv) : Iv := ⟨isqrt (a.lo.toNat * 2 ^ P), isqrt (a.hi.toNat * 2 ^ P) + 1⟩
/-- The interval reaches zero. -/
def hasZero (a : Iv) : Bool := a.lo ≤ 0 && 0 ≤ a.hi
/-- Greatest magnitude. -/
def mag (a : Iv) : Int := max a.lo.natAbs a.hi.natAbs
/-- Wider by e on both sides. -/
def widen (a : Iv) (e : Int) : Iv := ⟨a.lo - e, a.hi + e⟩

/-- Sum of x^(2k+1)/(2k+1), the signs alternating where `alt`: the series of atanh and atan for |x| ≤ 1/2. -/
def oddSeries (P : Nat) (alt : Bool) (x2 : Iv) : Nat → Nat → Iv → Iv → Iv
  | 0, _, t, acc => acc.widen (2 * t.mag + 2)
  | fuel + 1, k, t, acc =>
    let term := t.sdiv (2 * k + 1 : Nat)
    let acc' := if alt && k % 2 == 1 then acc.sub term else acc.add term
    if t.mag ≤ 2 then acc'.widen 8 else oddSeries P alt x2 fuel (k + 1) (t.mul P x2) acc'

/-- atanh x, for |x| ≤ 1/2. -/
def atanh (P : Nat) (x : Iv) : Iv := oddSeries P false (x.mul P x) (P + 8) 0 x ⟨0, 0⟩
/-- atan (1/n). -/
def atanInv (P : Nat) (n : Int) : Iv := let x := ofQ P 1 n; oddSeries P true (x.mul P x) (P + 8) 0 x ⟨0, 0⟩
/-- π = 16 atan (1/5) - 4 atan (1/239). -/
def pi (P : Nat) : Iv := (smul 16 (atanInv P 5)).sub (smul 4 (atanInv P 239))
/-- ln 2 = 2 atanh (1/3). -/
def ln2 (P : Nat) : Iv := smul 2 (atanh P (ofQ P 1 3))

/-- Sum of x^k/k! from term k on: the series of exp for 0 ≤ x ≤ 1. -/
def expSeries (P : Nat) (x : Iv) : Nat → Nat → Iv → Iv → Iv
  | 0, _, t, acc => acc.widen (2 * t.mag + 2)
  | fuel + 1, k, t, acc =>
    if t.mag ≤ 2 then acc.widen 16
    else let t' := (t.mul P x).sdiv (k + 1 : Nat); expSeries P x fuel (k + 1) t' (acc.add t')
/-- exp x for 0 ≤ x ≤ 1. -/
def exp (P : Nat) (x : Iv) : Iv := expSeries P x (P + 8) 0 (ofInt P 1) (ofInt P 1)

/-- Terms t · (-x²)^j / ((k+1)(k+2)…): the series of sin (from x, k = 1) and cos (from 1, k = 0), for |x| ≤ 2. -/
def trigSeries (P : Nat) (x2 : Iv) : Nat → Nat → Iv → Iv → Iv
  | 0, _, t, acc => acc.widen (2 * t.mag + 2)
  | fuel + 1, k, t, acc =>
    if t.mag ≤ 2 then acc.widen 16
    else let t' := ((t.mul P x2).sdiv ((k + 1) * (k + 2) : Nat)).negate; trigSeries P x2 fuel (k + 2) t' (acc.add t')
def sinSmall (P : Nat) (x : Iv) : Iv := trigSeries P (x.mul P x) (P + 8) 1 x x
def cosSmall (P : Nat) (x : Iv) : Iv := trigSeries P (x.mul P x) (P + 8) 0 (ofInt P 1) (ofInt P 1)

/-- sin and cos of the rational n / d, d positive: the argument is reduced by the nearest multiple of π/2. -/
def sinCosQ (P0 : Nat) (n d : Int) : Iv × Iv × Nat :=
  let P := P0 + (Nat.log2 n.natAbs - Nat.log2 d.natAbs) + 8
  let hp := (pi P).sdiv 2
  let k := (n * 2 ^ P * 2 + d * hp.lo) / (d * hp.lo * 2)
  let r := (ofQ P n d).sub (smul k hp)
  let s := sinSmall P r
  let c := cosSmall P r
  match (k % 4).toNat with
  | 0 => (s, c, P)
  | 1 => (c, s.negate, P)
  | 2 => (s.negate, c.negate, P)
  | _ => (c.negate, s, P)

/-- `Round` to nearest even of every real of the interval, when they all round alike. -/
def roundTo (P : Nat) (f : Fmt) (a : Iv) : Option Nat :=
  if 0 < a.lo then
    let x := roundQ f .rne false a.lo.toNat (2 ^ P)
    if x = roundQ f .rne false a.hi.toNat (2 ^ P) then some x else none
  else if a.hi < 0 then
    let x := roundQ f .rne true (-a.hi).toNat (2 ^ P)
    if x = roundQ f .rne true (-a.lo).toNat (2 ^ P) then some x else none
  else none

/-- Some bits of the interval's lower end: what a value that no precision of the list decides is given (log 12). -/
def anyBits (P : Nat) (f : Fmt) (a : Iv) : Nat := roundQ f .rne (a.lo < 0) a.lo.natAbs (2 ^ P)

/-- The rounding of a real known to any precision: the first precision that decides it. -/
def decideBits (f : Fmt) (g : Nat → Iv × Nat) : List Nat → Nat
  | [] => 0
  | [P] => let (a, P') := g P; (roundTo P' f a).getD (anyBits P' f a)
  | P :: l => let (a, P') := g P; match roundTo P' f a with
    | some b => b
    | none => decideBits f g l

end Iv

/-- Precisions tried in turn: the hardest FP32 argument of R155 is decided by the first or second (log 12). -/
def precisions (extra : Nat) : List Nat := [120 + extra, 280 + extra, 700 + extra]

/-- 2^i in a format. -/
def pow2Bits (f : Fmt) (i : Int) : Nat :=
  if i > 2000 then f.infBits false else if i < -2000 then 0 else roundDy f .rne false 1 i

/-- FEXP2 (R155). -/
def fexp2F (f : Fmt) : Fv → Nat
  | .nan n p => f.nanBits n p
  | .inf n => if n then 0 else f.infBits false
  | .num n m e =>
    if m = 0 then pow2Bits f 0
    else
      let (a, d) := dyQ m e
      let v : Int := if n then -(a : Int) else a
      let i : Int := v / d
      if i > 1000 then f.infBits false else if i < -1000 then 0
      else
        let r : Int := v - i * d
        if r = 0 then pow2Bits f i
        else Iv.decideBits f (fun P =>
          let x := Iv.exp P ((Iv.ofQ P r d).mul P (Iv.ln2 P))
          if 0 ≤ i then (Iv.smul (2 ^ i.toNat) x, P) else (x, P + (-i).toNat)) (precisions 0)

/-- FLOG2 (R155). -/
def flog2F (f : Fmt) : Fv → Nat
  | .nan n p => f.nanBits n p
  | .inf n => if n then f.canon else f.infBits false
  | .num n m e =>
    if m = 0 then f.infBits true else if n then f.canon
    else
      let k := Nat.log2 m
      let ex : Int := e + k
      if m = 2 ^ k then (if ex = 0 then 0 else roundQ f .rne (ex < 0) ex.natAbs 1)
      else Iv.decideBits f (fun P =>
        let z := Iv.ofQ P ((m : Int) - 2 ^ k) (m + 2 ^ k)
        ((Iv.ofInt P ex).add ((Iv.smul 2 (Iv.atanh P z)).div P (Iv.ln2 P)), P)) (precisions 0)

/-- FSIN and FCOS (R155): the argument is reduced exactly. -/
def fsincosF (f : Fmt) (cos : Bool) : Fv → Nat
  | .nan n p => f.nanBits n p
  | .inf _ => f.canon
  | .num n m e =>
    if m = 0 then (if cos then pow2Bits f 0 else f.put n 0 0)
    else
      let (a, d) := dyQ m e
      let v : Int := if n then -(a : Int) else a
      Iv.decideBits f (fun P => let (s, c, P') := Iv.sinCosQ P v d; (if cos then c else s, P')) (precisions (Nat.log2 d))

/-- FRSQ (R155). -/
def frsqF (f : Fmt) : Fv → Nat
  | .nan n p => f.nanBits n p
  | .inf n => if n then f.canon else 0
  | .num n m e =>
    if m = 0 then f.infBits n else if n then f.canon
    else
      let (x, d) := dyQ m e
      let (x', d') := sqrtSticky d x
      roundQ f .rne false x' d'

/-- FRCP (R155). -/
def frcpF (f : Fmt) : Fv → Nat
  | .nan n p => f.nanBits n p
  | .inf n => f.put n 0 0
  | .num n m e => if m = 0 then f.infBits n else let (x, d) := dyQ m e; roundQ f .rne n d x

/-- FTANH (R155). -/
def ftanhF (f : Fmt) : Fv → Nat
  | .nan n p => f.nanBits n p
  | .inf n => roundDy f .rne n 1 0
  | .num n m e =>
    if m = 0 then f.put n 0 0
    else
      let (a, d) := dyQ m e
      if a ≥ 32 * d then roundDy f .rne n 1 0
      else Iv.decideBits f (fun P =>
        let l := Iv.ln2 P
        let x := Iv.ofQ P (2 * a) d
        let k := x.lo / l.hi
        let E := Iv.smul (2 ^ k.toNat) (Iv.exp P (x.sub (Iv.smul k l)))
        let one := Iv.ofInt P 1
        let t := (E.sub one).div P (E.add one)
        (if n then t.negate else t, P)) (precisions (Nat.log2 d))

end Sys2Proof.Machine
end

