-- ==== Sys2Proof/Machine/Float.lean ====
section
/-! DEFINITION. Floating-point instructions (R148 to R156). -/

namespace Sys2Proof.Machine

/-- The format of one element of a type. -/
def fmtOf (t : Ty) : Fmt := t.fmt?.getD fp32

/-- Element i of a source in a lane, as bits and as a value. -/
def Ctx.fbits (c : Ctx) (t : Ty) (o : Opd) (l i : Nat) : Nat := fld (c.rd t o l) (t.ebits * i) t.ebits
def Ctx.fv (c : Ctx) (t : Ty) (o : Opd) (l i : Nat) : Fv := (fmtOf t).read (c.fbits t o l i)

/-- Each element computed on its own (R148). -/
def Ctx.feach (c : Ctx) (t : Ty) (d : Opd) (f : Nat → Nat → Nat) : Out := c.map t d fun l => joinElems t (f l)

/-- FADD (R150). -/
def execFadd (p : Pre) (t : Ty) (rm : Rm) (d a b : Opd) (s : State) : Host.Outcome State Fault Refusal :=
  word (.fadd p t rm d a b) s fun c => c.feach t d fun l i => faddF (fmtOf t) rm (c.fv t a l i) (c.fv t b l i)

/-- FSUB (R150). -/
def execFsub (p : Pre) (t : Ty) (rm : Rm) (d a b : Opd) (s : State) : Host.Outcome State Fault Refusal :=
  word (.fsub p t rm d a b) s fun c => c.feach t d fun l i => fsubF (fmtOf t) rm (c.fv t a l i) (c.fv t b l i)

/-- FMUL (R150). -/
def execFmul (p : Pre) (t : Ty) (rm : Rm) (d a b : Opd) (s : State) : Host.Outcome State Fault Refusal :=
  word (.fmul p t rm d a b) s fun c => c.feach t d fun l i => fmulF (fmtOf t) rm (c.fv t a l i) (c.fv t b l i)

/-- FFMA (R150). -/
def execFfma (p : Pre) (t : Ty) (rm : Rm) (d a b e : Opd) (s : State) : Host.Outcome State Fault Refusal :=
  word (.ffma p t rm d a b e) s fun c => c.feach t d fun l i => ffmaF (fmtOf t) rm (c.fv t a l i) (c.fv t b l i) (c.fv t e l i)

/-- FMIN (R151). -/
def execFmin (p : Pre) (t : Ty) (d a b : Opd) (s : State) : Host.Outcome State Fault Refusal :=
  word (.fmin p t d a b) s fun c => c.feach t d fun l i => fminmaxF (fmtOf t) false (c.fbits t a l i) (c.fbits t b l i)

/-- FMAX (R151). -/
def execFmax (p : Pre) (t : Ty) (d a b : Opd) (s : State) : Host.Outcome State Fault Refusal :=
  word (.fmax p t d a b) s fun c => c.feach t d fun l i => fminmaxF (fmtOf t) true (c.fbits t a l i) (c.fbits t b l i)

/-- FCMP (R152). -/
def execFcmp (p : Pre) (t : Ty) (cc : FCmp) (d : PField) (a b : Opd) (s : State) : Host.Outcome State Fault Refusal :=
  word (.fcmp p t cc d a b) s fun c => c.mapPred d fun l => fcmpF cc (c.fv t a l 0) (c.fv t b l 0)

/-- FCLASS (R153). -/
def execFclass (p : Pre) (t : Ty) (d : PField) (a b : Opd) (s : State) : Host.Outcome State Fault Refusal :=
  word (.fclass p t d a b) s fun c => c.mapPred d fun l => (c.read .n32 b l).getLsbD (fclassF (fmtOf t) (c.fbits t a l 0))

/-- FDIV (R150). -/
def execFdiv (p : Pre) (t : Ty) (rm : Rm) (d a b : Opd) (s : State) : Host.Outcome State Fault Refusal :=
  word (.fdiv p t rm d a b) s fun c => c.feach t d fun l i => fdivF (fmtOf t) rm (c.fv t a l i) (c.fv t b l i)

/-- FSQRT (R150). -/
def execFsqrt (p : Pre) (t : Ty) (rm : Rm) (d a : Opd) (s : State) : Host.Outcome State Fault Refusal :=
  word (.fsqrt p t rm d a) s fun c => c.feach t d fun l i => fsqrtF (fmtOf t) rm (c.fv t a l i)

/-- FRINT (R150). -/
def execFrint (p : Pre) (t : Ty) (rm : Rm) (d a : Opd) (s : State) : Host.Outcome State Fault Refusal :=
  word (.frint p t rm d a) s fun c => c.feach t d fun l i => frintF (fmtOf t) rm (c.fv t a l i)

/-- The sign bit of an element set to a function of itself; a NaN is quietened and keeps its sign (R150). -/
def signOp (f : Fmt) (g : Nat → Nat) (x : Nat) : Nat :=
  match f.read x with
  | .nan n q => f.nanBits n q
  | _ => let w := f.m + f.ebits; g (fld x w 1) * 2 ^ w + fld x 0 w

/-- FABS (R150). -/
def execFabs (p : Pre) (t : Ty) (d a : Opd) (s : State) : Host.Outcome State Fault Refusal :=
  word (.fabs p t d a) s fun c => c.feach t d fun l i => signOp (fmtOf t) (fun _ => 0) (c.fbits t a l i)

/-- FNEG (R150). -/
def execFneg (p : Pre) (t : Ty) (d a : Opd) (s : State) : Host.Outcome State Fault Refusal :=
  word (.fneg p t d a) s fun c => c.feach t d fun l i => signOp (fmtOf t) (fun x => 1 - x) (c.fbits t a l i)

/-- FDOT (R154). -/
def execFdot (p : Pre) (t : Ty) (rm : Rm) (d a b e : Opd) (s : State) : Host.Outcome State Fault Refusal :=
  word (.fdot p t rm d a b e) s fun c => c.map .f32 d fun l =>
    fdotF rm (c.fv t a l 0) (c.fv t a l 1) (c.fv t b l 0) (c.fv t b l 1) (c.fv .f32 e l 0)

/-- FEXP2 (R155). -/
def execFexp2 (p : Pre) (t : Ty) (d a : Opd) (s : State) : Host.Outcome State Fault Refusal :=
  word (.fexp2 p t d a) s fun c => c.feach t d fun l i => fexp2F (fmtOf t) (c.fv t a l i)

/-- FLOG2 (R155). -/
def execFlog2 (p : Pre) (t : Ty) (d a : Opd) (s : State) : Host.Outcome State Fault Refusal :=
  word (.flog2 p t d a) s fun c => c.feach t d fun l i => flog2F (fmtOf t) (c.fv t a l i)

/-- FSIN (R155). -/
def execFsin (p : Pre) (t : Ty) (d a : Opd) (s : State) : Host.Outcome State Fault Refusal :=
  word (.fsin p t d a) s fun c => c.feach t d fun l i => fsincosF (fmtOf t) false (c.fv t a l i)

/-- FCOS (R155). -/
def execFcos (p : Pre) (t : Ty) (d a : Opd) (s : State) : Host.Outcome State Fault Refusal :=
  word (.fcos p t d a) s fun c => c.feach t d fun l i => fsincosF (fmtOf t) true (c.fv t a l i)

/-- FRSQ (R155). -/
def execFrsq (p : Pre) (t : Ty) (d a : Opd) (s : State) : Host.Outcome State Fault Refusal :=
  word (.frsq p t d a) s fun c => c.feach t d fun l i => frsqF (fmtOf t) (c.fv t a l i)

/-- FRCP (R155). -/
def execFrcp (p : Pre) (t : Ty) (d a : Opd) (s : State) : Host.Outcome State Fault Refusal :=
  word (.frcp p t d a) s fun c => c.feach t d fun l i => frcpF (fmtOf t) (c.fv t a l i)

/-- FTANH (R155). -/
def execFtanh (p : Pre) (t : Ty) (d a : Opd) (s : State) : Host.Outcome State Fault Refusal :=
  word (.ftanh p t d a) s fun c => c.feach t d fun l i => ftanhF (fmtOf t) (c.fv t a l i)

end Sys2Proof.Machine
end

