-- ==== Sys2Proof/Machine/Sched.lean ====
section
/-! DEFINITION. Issue slots (R33 to R42, R340): the passing of clocks, causes taken at clause boundaries (R196), the choice of stream and path,
the check of a header and the read of its clause (R44 to R50), and the watchdog (R39). -/

namespace Sys2Proof.Machine

/-! ### Clocks -/

/-- Paths whose starvation counts run: the stream's own and those that a handler holds (R39, R200). -/
def Strand.starved (n : Nat) (t : Strand) : Strand :=
  let f (p : Path) : Path := { p with starve := min (2 ^ 32 - 1) (p.starve + n) }
  { t with paths := t.paths.map f, intr := t.intr.map fun i => { i with held := i.held.map f } }

def Crew.eachStrand (f : Strand → Strand) (c : Crew) : Crew :=
  { c with teams := c.teams.map fun t => { t with waves := t.waves.map f, producer := t.producer.map f }, gaffer := c.gaffer.map f }

/-- The signals of R315 that stand for paths' states on a clock: 2 paths ineligible on a ceiling, 3 on a barrier, 4 on `TBWAIT`; bank delays and replays
are free values, since their times are a figure of one part (R102). -/
def State.levels (s : State) (die : Nat) : State :=
  let s := s.crews.foldl (fun s c =>
    if c.die ≠ die then s
    else c.sids.foldl (fun s sid => match c.strand? sid with
      | none => s
      | some t => t.paths.foldl (fun s p =>
        let core := c.coreOf sid
        match p.wait with
        | .bar _ _ | .cbar _ _ => s.coreSignal core 3 1
        | .tbar _ _ _ _ => s.coreSignal core 4 1
        | .none => if s.ready c t p && p.clause.isNone && !s.eligible c sid t p then s.coreSignal core 2 1 else s
        | _ => s) s) s) s
  (s.activeBlocks die).foldl (fun s b =>
    if b < 0x200000 then
      let (x, s) := s.drawIndex 256
      let (y, s) := s.drawIndex 256
      (s.signal die b 5 x).signal die b 6 y
    else s) s

/-- Clocks of a die whose counter logic runs, one by one. -/
def State.clocks (s : State) (die : Nat) : Nat → State
  | 0 => s
  | n + 1 => ((s.levels die).tick die 1).clocks die n

/-- `n` clocks of a die pass: CLK advances (R310), and starvation counts of its resident crews rise (R39). A die held in reset counts none (R408). -/
def State.pass (s : State) (die n : Nat) : State :=
  if n = 0 || !s.up then s
  else
    let s := if (s.activeBlocks die).isEmpty then s.tick die n else s.clocks die n
    { s with crews := mapIf (fun c => c.die == die) (Crew.eachStrand (Strand.starved n)) s.crews }

/-! ### Clause boundaries (R196) -/

/-- The path is at a clause boundary: at a header, or at a waiting word that has not issued (R301). -/
def Path.boundary (p : Path) : Bool := p.frozen.isNone && !p.midClause

/-- Where a path stands: a header, or a word of a clause. -/
def Path.stands (p : Path) : Word × Option Nat :=
  match p.clause with
  | some cl => if p.wait == .none then (p.pc + BitVec.ofNat 64 (8 * (cl.pos + 1)), some cl.pos) else (p.pc, none)
  | none => (p.pc, p.at_)

def State.stalled (s : State) (crew : Nat) (sid : Sid) (pid : Nat) : Bool := s.stalls.contains (crew, sid, pid)

/-- A cause that a path takes at a clause boundary (R196), with the pending cause that it then takes away. -/
structure Due where
  path : Nat
  r    : Raise
  pend : Option Pend
deriving DecidableEq, Repr

/-- A trap of kind 2 where a path stands. -/
def Path.raise2 (p : Path) (cause : Nat) (mask : BitVec 32) (aux : Word) (access : Nat) (absent : Bool) : Raise :=
  { cause := cause, kind := 2, mask := mask, pc := p.stands.1, at_ := p.stands.2, aux := aux, pend := false, access := access, absent := absent }

/-- What TRAPMASK holds of a pending cause that a path takes (R196, R320): of a lane cause the path's own lanes. -/
def Pend.maskOf (x : Pend) (p : Path) : BitVec 32 := if x.cause = 13 then p.lanes else if x.stop.isSome then x.mask else x.mask &&& p.lanes

/-- Pending causes after a path has taken one: a lane cause stays pending for those of its lanes that stand on other paths (R320). -/
def Strand.pendLeft (t : Strand) (x : Pend) (p : Path) : List Pend :=
  let mask := x.mask &&& ~~~p.lanes &&& t.paths.foldl (fun m q => m ||| q.lanes) 0
  if x.cause = 13 || x.stop.isSome || mask = 0 then t.pend.erase x else t.pend.replace x { x with mask := mask }

/-- The watchdog trap of a path (R39): TRAPAUX holds its count as it expired, one past the limit (R199). -/
def Path.watchdog (p : Path) (limit : Nat) : Raise := p.raise2 13 p.lanes (BitVec.ofNat 64 (limit + 1)) 0 false

/-- The causes of the operand log that a path takes (R196, R198, R199): each recorded cause, on the oldest faulting entry. TRAPAUX is the address of that entry's
lowest incomplete lane; a page fault's record names the page that is missing. -/
def Strand.logDues (t : Strand) (p : Path) : List Due :=
  match t.faultyIn p.lanes with
  | [] => []
  | e :: es =>
    let fs := ((e :: es).map Entry.faults).flatten
    let low := lowLane e.undone
    let here := ((e.faults.find? fun x => x.lane == low).map LaneFault.addr).getD (lineAddr (wordOf e.word) (e.srcOf low))
    (dedup (fs.map LaneFault.cause)).filterMap fun k => (fs.find? fun f => f.cause == k).map fun f =>
      ({ path := p.id, pend := none,
         r := { cause := k, kind := 3, mask := e.undone, pc := p.stands.1, at_ := p.stands.2, aux := if k = 8 then f.addr else if k = 3 then e.word else here, pend := false,
                access := f.kind, absent := f.absent, entry := some e.id } } : Due)

/-- What a path takes at its boundary: causes of the operand log, pending causes of its lanes, and an expired watchdog (R196). -/
def Strand.duesOf (t : Strand) (limit : Nat) (p : Path) : List Due :=
  if p.midClause then []
  else
    let ps := t.pend.filter fun x => x.inH == t.inH && (x.stop.isSome || (x.mask &&& p.lanes) != 0)
    (if p.frozen.isSome then [] else t.logDues p ++ ps.map fun x =>
      ({ path := p.id, r := p.raise2 x.cause (x.maskOf p) x.aux x.access x.absent, pend := some x } : Due))
      ++ (if t.expired limit p then [{ path := p.id, r := p.watchdog limit, pend := none }] else [])

/-- What a stream takes now (R39, R196): where no clause of it is in progress the lowest cause of its paths, and where the only one in progress is stalled at
a word, the watchdog trap of its own path. -/
def State.due (s : State) (c : Crew) (sid : Sid) (t : Strand) : List Due :=
  match t.paths.filter Path.midClause with
  | [] => sortBy (fun d => d.r.cause) (t.paths.map (t.duesOf c.desc.limit)).flatten
  | [m] =>
    if t.expired c.desc.limit m && (s.stalled c.id sid m.id || !s.ready c t m) then
      { path := m.id, r := m.watchdog c.desc.limit, pend := none } :: (t.paths.map (t.duesOf c.desc.limit)).flatten
    else []
  | _ => []

/-- No further clause of the stream starts while a path of it has a cause to take, or an expired watchdog or a lone lane's trap waits for a clause of another
path (R39, R49, R196). -/
def Strand.heldBack (t : Strand) (limit : Nat) : Bool := t.paths.any fun p => p.raises || t.expired limit p || !(t.duesOf limit p).isEmpty

/-- A stream takes what is due: the lowest cause first, and the others stay pending (R196). A watchdog that expires on a path that a handler holds is a trap
in the handler (R202). -/
def State.takeBoundary (s : State) (crew : Nat) (sid : Sid) : State :=
  match s.crew? crew, s.strand? crew sid with
  | some c, some t =>
    let limit := c.desc.limit
    if !c.running then s
    else match (t.intr.map Intr.held).getD [] |>.find? (t.expired limit) with
      | some p =>
        let w := { c.who sid (lowLane p.lanes) with pc := p.stands.1 }
        (State.traceTrap { s with stalls := [] } c sid w).endCrew crew 5 w { cause := 13, pc := p.stands.1, aux := BitVec.ofNat 64 (limit + 1), addr := 0 }
      | none => match s.due c sid t with
        | [] => s
        | d :: ds =>
          let s := s.modStrand crew sid fun t => { t with pend := match d.pend, t.paths.find? fun p => p.id == d.path with
            | some x, some p => t.pendLeft x p
            | _, _ => t.pend }
          State.takeTrap { s with stalls := [] } crew sid d.path { d.r with pend := !ds.isEmpty }
  | _, _ => s

/-! ### The next word of a path -/

/-- A stream's classes (R51). -/
def runsClass (sid : Sid) (k : Class) : Bool :=
  match sid with
  | .wave _ _ => k == .a || k == .m
  | .gaffer => k == .g
  | .producer _ => k == .s

/-- A word as a path reads it: a lone lane reads its loop buffer (R36), any other path fetches. -/
def State.pathWord (s : State) (c : Crew) (sid : Sid) (t : Strand) (p : Path) (a : Word) : Fetched × State :=
  match (if p.lone then (t.thread (lowLane p.lanes)).bufWord a else none) with
  | some w => (.word w, s)
  | none => s.fetch (c.coreOf sid) c.asid c.secure a

/-- The words of a clause, up to the first that cannot be fetched. -/
def State.pathWords (s : State) (c : Crew) (sid : Sid) (t : Strand) (p : Path) (a : Word) : Nat → List Word × State
  | 0 => ([], s)
  | n + 1 =>
    match s.pathWord c sid t p a with
    | (.fail _ _, s) => ([], s)
    | (.word w, s) =>
      let (l, s) := s.pathWords c sid t p (a + 8) n
      (w :: l, s)

/-- The loop buffer after words (R35): the newest 48 stay. -/
def bufAppend (b l : List (Word × Word)) : List (Word × Word) := let x := b ++ l; x.drop (x.length - 48)

/-- A path stops at an address that it cannot read, or whose header fails (R48); a lone lane, when no other clause of the wave is in progress. -/
def State.stopAt (s : State) (crew : Nat) (sid : Sid) (p : Path) (cause : Nat) (pc : Word) (at_ : Option Nat) (aux : Word) (absent : Bool) : State :=
  if p.lone && (s.strand? crew sid).any fun t => t.othersMid p.id then s.modPath crew sid p.id fun p => { p with raises := true }
  else s.takeTrap crew sid p.id { cause := cause, kind := 1, mask := p.lanes, pc := pc, at_ := at_, aux := aux, pend := false, access := 0, absent := absent }

/-- Words that a wave has fetched for its current path enter the loop buffers of that path's lanes (R35). -/
def State.buffer (s : State) (c : Crew) (sid : Sid) (t : Strand) (p : Path) (l : List (Word × Word)) : State :=
  if p.id == t.cur && !p.lone then
    s.modStrand c.id sid fun t => (lanesOf p.lanes).foldl (fun t k => t.modThread k fun h => { h with buf := bufAppend h.buf l }) t
  else s

/-- A path's header is checked and its clause read (R44 to R50). The clause starts at its first word, or at the word that a handler returned to: then its
header and the words from there on are fetched (R49; log 77). The second part says whether a clause is in progress. -/
def State.startClause (s : State) (c : Crew) (sid : Sid) (t : Strand) (p : Path) : State × Bool :=
  let begin_ (s : State) (h : Header) (w a : Word) (pos : Nat) (first : Bool) : State × Bool :=
    let (ws, s) := s.pathWords c sid t p (a + BitVec.ofNat 64 (8 * (pos + 1))) (h.count + 1 - pos)
    let s := s.modPath c.id sid p.id fun p =>
      { p with pc := a, at_ := none, clause := some { hdr := w, head := h, words := List.replicate pos 0 ++ ws, pos := pos }, yielded := p.yielded && !first }
    (s.buffer c sid t p (((List.range ws.length).zip ws).map fun x => (a + BitVec.ofNat 64 (8 * (pos + x.1 + 1)), x.2)), true)
  let fresh (s : State) : State × Bool :=
    match s.pathWord c sid t p p.pc with
    | (.fail cause ab, s) => (s.stopAt c.id sid p cause p.pc none p.pc ab, false)
    | (.word w, s) =>
      let s := s.buffer c sid t p [(p.pc, w)]
      match Header.ofWord w with
      | some h => if runsClass sid h.cls && p.pc.toNat % 8 = 0 then begin_ s h w p.pc 0 true else (s.stopAt c.id sid p 1 p.pc none p.prev false, false)
      | none => (s.stopAt c.id sid p 1 p.pc none p.prev false, false)
  -- a `TRET` names its header (R380); a handler's return address that stands in no clause is a branch target (R49), with the ceilings of its own header
  let elsewhere (s : State) (q : Nat) : State × Bool :=
    if p.noCeil then (s.stopAt c.id sid p 1 (headerOf p.pc (some q)) none p.prev false, false)
    else (s.modPath c.id sid p.id fun p => { p with at_ := none, only := none, latch := [] }, false)
  match p.at_ with
  | none => fresh s
  | some q =>
    let a := headerOf p.pc (some q)
    match s.pathWord c sid t p a with
    | (.fail cause ab, s) => (s.stopAt c.id sid p cause p.pc (some q) a ab, false)
    | (.word w, s) =>
      let s := s.buffer c sid t p [(a, w)]
      match Header.ofWord w with
      | some h => if runsClass sid h.cls && q ≤ h.count then begin_ s h w a q false else elsewhere s q
      | none => elsewhere s q

/-- The word at a position of a clause in progress, read again when its first read failed (R48). -/
def State.haveWord (s : State) (c : Crew) (sid : Sid) (t : Strand) (p : Path) (cl : Clause) : State × Bool :=
  if cl.pos < cl.words.length then (s, true)
  else
    let a := p.pc + BitVec.ofNat 64 (8 * (cl.pos + 1))
    match s.pathWord c sid t p a with
    | (.fail cause ab, s) => (s.stopAt c.id sid p cause a (some cl.pos) a ab, false)
    | (.word w, s) =>
      (State.buffer (s.modPath c.id sid p.id fun p => { p with clause := p.clause.map fun k => { k with words := k.words ++ [w] } }) c sid t p [(a, w)], true)

/-- Tile and records that a tile word names (R174). -/
def tileNames : Instr → Option (Nat × Option Nat × List Nat)
  | .tfetch _ _ k _ r _ | .tlds _ _ k _ r _ => some (k.toNat, none, [r.toNat])
  | .tmma _ k i a b .. => some (k.toNat, some i.toNat, [a.toNat, b.toNat])
  | .tzero _ _ k i | .tcvt _ _ k i _ _ | .tstbEnt _ k i _ | .tstbFull _ k i _ | .tldbEnt _ k i _ | .tldbFull _ k i _ | .tbsetThr _ k i _
  | .tbsetHdr _ k i _ | .tbsetAll _ k i _ | .tsave _ k i _ | .tresumeCont _ _ k i _ | .tresumeWide _ _ k i _ | .tresumeRestart _ _ k i _ =>
    some (k.toNat, some i.toNat, [])
  | _ => none

/-- A word names the tile or the record of a stopped tile instruction (R177). -/
def namesStop (i : Instr) (stop : Nat × Option Nat × Option Nat) : Bool :=
  match tileNames i with
  | none => false
  | some (k, tile, recs) => k == stop.1 && ((tile.isSome && tile == stop.2.1) || (match stop.2.2 with | some r => recs.contains r | none => false))

/-- A context's word that names a stopped tile does not issue: the trap is taken at it (R177), in a handler where the stopped instruction is the handler's own. -/
def State.tileStop (s : State) (c : Crew) (sid : Sid) (p : Path) : Option State :=
  match s.strand? c.id sid, p.clause with
  | some t, some cl =>
    match cl.words[cl.pos]? with
    | none => none
    | some w =>
      match (t.pend.filter fun x => x.inH == t.inH).find? fun x => match x.stop with | some st => namesStop (wordOf w) st | none => false with
      | none => none
      | some x =>
        some ((s.modStrand c.id sid fun t => { t with pend := t.pend.erase x }).takeTrap c.id sid p.id
          { cause := x.cause, kind := 2, mask := x.mask, pc := p.pc + BitVec.ofNat 64 (8 * (cl.pos + 1)), at_ := some cl.pos, aux := x.aux,
            pend := t.pend.length > 1, access := x.access, absent := x.absent })
  | _, _ => none

/-- The issue slot goes to a path's next word, unless that word cannot be read or its header traps. -/
def State.grantTo (s : State) (crew : Nat) (sid : Sid) (pid : Nat) (lone : Bool) : State :=
  match s.crew? crew, s.strand? crew sid with
  | some c, some t =>
    match t.path? pid with
    | none => s
    | some p =>
      let (s, ok) := match p.clause with
        | some _ => (s, true)
        | none => s.startClause c sid t p
      if !ok then s
      else match (s.strand? crew sid).bind fun t => t.path? pid with
        | none => s
        | some p => match p.clause with
          | none => s
          | some cl =>
            let (s, ok) := s.haveWord c sid t p cl
            if !ok then s
            else match (s.strand? crew sid).bind fun t => t.path? pid with
              | none => s
              | some p => match s.tileStop c sid p with
                | some s => s
                | none => { s with slot := some { crew := crew, sid := sid, path := pid, lone := lone } }
  | _, _ => s

/-! ### Which stream has a word ready -/

/-- The clause of a wave in progress, that of a lone lane apart: its path issues on without a switch (R49). -/
def Strand.inProgress (t : Strand) : Option Path := t.paths.find? fun p => !p.lone && p.midClause

/-- The current path, where its next clause can issue. -/
def State.curReady (s : State) (c : Crew) (sid : Sid) (t : Strand) : Option Path :=
  (t.path? t.cur).filter fun p => !p.midClause && s.eligible c sid t p && !s.stalled c.id sid p.id

/-- The path of a stream that issues next in its normal slot (R34, R38, R49). The choice made at the last boundary stands until its clause begins; where
nothing could be chosen then, or with progress off, it is made from what is eligible now. -/
def State.readyPath (s : State) (c : Crew) (sid : Sid) : Option Nat × State :=
  match s.strand? c.id sid with
  | none => (none, s)
  | some t =>
    match t.inProgress with
    | some p => (if !c.exiting && s.ready c t p && !s.stalled c.id sid p.id then some p.id else none, s)
    | none =>
      if !c.running || t.heldBack c.desc.limit then (none, s)
      else match (if c.desc.prog && t.chosen then s.curReady c sid t else none) with
        | some p => (some p.id, s)
        | none =>
          let s := s.choosePath c.id sid
          (((s.strand? c.id sid).bind (s.curReady c sid)).map Path.id, s)

/-- A slot is used once a clock. -/
def State.slotFree (s : State) (die : Nat) (k : Nat × Nat × Nat) : Bool := assocGet (s.die die).issued k ≠ some (s.clk die)

def State.spendSlot (s : State) (die : Nat) (k : Nat × Nat × Nat) : State := s.modDie die fun d => { d with issued := assocSet d.issued k d.clk }

def State.useSlot (s : State) (die : Nat) (k : Nat × Nat × Nat) : State := if s.slot.isSome then s.spendSlot die k else s

/-- While the module stands at its power limit the part may withhold a slot, and counts it (R12, R410). -/
def State.withheld (s : State) (die : Nat) : Bool × State :=
  if !s.limited then (false, s)
  else
    let (b, s) := s.drawBit
    (b, if b then s.modDie die fun d => { d with wslot := d.wslot + 1 } else s)

/-- Streams of a quadrant with the crew that each belongs to: waves by slot, and in quadrant 3 the Punty slot as a 33rd (R25, R42). -/
def State.quadrant (s : State) (die cluster core quad : Nat) : List (Crew × Sid × Strand) :=
  ((s.crews.filter fun c => c.die == die && c.cluster == cluster).map fun c =>
    (c.sids.filterMap fun sid => match c.strand? sid with
      | some t =>
        if (c.coreOf sid).core ≠ core then none
        else match sid with
          | .wave _ _ => if t.slot % 4 = quad then some (c, sid, t) else none
          | .producer _ => if quad = 3 then some (c, sid, t) else none
          | .gaffer => none
      | none => none)).flatten

def isProducer : Sid → Bool
  | .producer _ => true
  | _ => false

/-- Order of R340 and R42: handlers by entry, the Punty slot when its producer has not issued in 7 clocks, or not at all, marked teams, then the longest
without issuing; ties go to the lowest slot. Smaller numbers come first. -/
def issueRank (clk : Nat) (x : Crew × Sid × Strand) : Nat :=
  let (c, sid, t) := x
  let slot := match sid with | .producer _ => 32 | _ => t.slot
  let urgent := ((sidTeam? sid).bind fun r => c.teams[r]?).map Team.urgent |>.getD false
  let big := 2 ^ 80
  match t.intr with
  | some i => i.since * 64 + slot
  | none =>
    if isProducer sid && (t.clauses = 0 && t.paths.all (fun p => p.clause.isNone) || clk - t.lastIssue > 7) then big + slot
    else if urgent && slot < 32 then 2 * big + slot
    else 3 * big + t.lastIssue * 64 + slot

/-- The first stream, in order, that has a word ready; it gets the slot. -/
def State.grantFirst (s : State) : List (Crew × Sid × Strand) → State
  | [] => s
  | (c, sid, _) :: l =>
    match s.readyPath c sid with
    | (some p, s) => s.grantTo c.id sid p false
    | (none, s) => s.grantFirst l

/-- A lane that may issue alone: its measure (in progress first, then the greatest age, the lowest slot, the lowest lane), its stream and its path. The spec
does not say which of several lanes with a lone clause in progress gets the slot: the one in the lowest slot, then the lowest lane (log 76). A lone lane whose
last clause executed `YIELD` comes after every other lane that qualifies (R165). Whether a lane's next clause is eligible, its own loop buffer says, whose words
it would run (R35, R36, R45). -/
def State.loneCands (s : State) (x : Crew × Sid × Strand) : List (Nat × Nat × Sid × Nat × Nat) :=
  let (c, sid, t) := x
  if !c.desc.prog || t.inH || (match sid with | .wave _ _ => false | _ => true) then []
  else (t.paths.map fun p =>
    if p.raises && t.othersMid p.id then []
    else if p.lone && (p.midClause || p.raises) then
      (if s.stalled c.id sid p.id || !s.ready c t p || c.exiting then [] else [(t.slot * 32 + lowLane p.lanes, c.id, sid, p.id, lowLane p.lanes)])
    else if p.id == t.cur || !p.boundary || !c.running || t.heldBack c.desc.limit || s.stalled c.id sid p.id then []
    else ((lanesOf p.lanes).filter fun l => t.inBuffer l (headerOf p.pc p.at_)
        && (((t.thread l).bufWord (headerOf p.pc p.at_)).bind Header.ofWord).any (s.startable c t p)).take 1 |>.map fun l =>
      (2 ^ 20 + b2n (p.lone && p.yielded) * 2 ^ 40 + (65535 - p.age) * 1024 + t.slot * 32 + l, c.id, sid, p.id, l)).flatten

/-! ### Time (R340)

A quadrant issues a word on each clock on which it has one ready, and its lone-issue slot one on each odd clock on which a lane qualifies (R36). So no clock
passes while a stream has a word ready in a slot that has not been used on this clock, nor while a stream has a trap to take (R39, R196). -/

/-- The issue slot of a stream: its quadrant's, or its Gaffer core's. -/
def Crew.slotKey (c : Crew) (sid : Sid) (t : Strand) : Nat × Nat × Nat :=
  match sid with
  | .wave _ _ => (c.cluster, (c.coreOf sid).core, t.slot % 4)
  | .producer _ => (c.cluster, (c.coreOf sid).core, 3)
  | .gaffer => (c.cluster, 4, 0)

/-- The lone-issue slot of a wave's quadrant. -/
def Crew.loneKey (c : Crew) (sid : Sid) (t : Strand) : Nat × Nat × Nat := (c.cluster, (c.coreOf sid).core, t.slot % 4 + 4)

/-- Of `n` clocks, those that may pass before a stream next issues a word, takes a trap, or has a path that expires. -/
def State.room (s : State) (c : Crew) (sid : Sid) (n : Nat) : Nat :=
  match c.strand? sid with
  | none => n
  | some t =>
    let limit := c.desc.limit
    let held := (t.intr.map Intr.held).getD []
    if c.running && (!(s.due c sid t).isEmpty || held.any (t.expired limit)) then 0
    else
      let n := if (s.readyPath c sid).1.isSome then min n (b2n (!s.slotFree c.die (c.slotKey sid t))) else n
      let n := if (s.loneCands (c, sid, t)).isEmpty then n else min n (b2n (s.clk c.die % 2 = 0 || !s.slotFree c.die (c.loneKey sid t)))
      ((t.paths ++ held).filter fun p => p.starve ≤ limit).foldl (fun m p => min m (limit + 1 - p.starve)) n

/-- The clocks of a die that a move of `n` lets pass: those that every stream there leaves, and that every save there has left (R212). -/
def State.ticks (s : State) (die n : Nat) : Nat :=
  (s.crews.filter fun c => c.die == die).foldl (fun m c => c.sids.foldl (fun m sid => s.room c sid m)
    (match c.saving with | some v => min m (c.desc.limit + 1 - (s.clk die - v.since)) | none => m)) n

/-- Paths that a handler or a restore returned to the header of a waiting word that they wait at read their clause again, once its ceilings allow it; then they
wait on as before, and their clause goes on without another check (R301, R311). -/
def State.rejoin (s : State) (crew : Nat) (sid : Sid) : State :=
  let waits (w : Wait) : Bool := match w with
    | .none | .over _ | .refill => false
    | _ => true
  let back (p : Path) : Bool := p.clause.isNone && p.at_.isNone && p.frozen.isNone && waits p.wait
  match s.crew? crew, s.strand? crew sid with
  | some c, some t =>
    if !c.running || t.heldBack c.desc.limit then s
    else (t.paths.filter back).foldl (fun s p => if s.eligible c sid t { p with wait := .none } then (s.startClause c sid t p).1 else s) s
  | _, _ => s

/-- What stands at the clause boundaries of streams: causes are taken (R196), and paths that wait at a header read their clauses. -/
def State.atBoundaries (s : State) (xs : List (Crew × Sid × Strand)) : State :=
  xs.foldl (fun s x => (s.takeBoundary x.1.id x.2.1).rejoin x.1.id x.2.1) s

/-- ISSUE_SLOT (R340): clocks pass, causes that stand at boundaries are taken, and the quadrant's next word gets the slot. -/
def execIssueSlot (die cluster core quad ticks : Nat) (s : State) : Host.Outcome State Fault Refusal :=
  let s := s.pass die (s.ticks die ticks)
  let key := (cluster, core, quad)
  .next (if !s.slotFree die key then s
    else
      let s := s.atBoundaries (s.quadrant die cluster core quad)
      match s.withheld die with
      | (true, s) => s.spendSlot die key
      | (false, s) => (s.grantFirst (sortBy (issueRank (s.clk die)) (s.quadrant die cluster core quad))).useSlot die key)

/-! ### Lone issue (R36, R37) -/

/-- A lane leaves its path to issue alone: a path of one lane with age 0. The spec gives it no creation rank: it keeps that of the path it leaves (log 76). -/
def Strand.leaveAlone (t : Strand) (pid lane : Nat) : Strand × Nat :=
  match t.path? pid with
  | none => (t, pid)
  | some p =>
    if p.lanes = 1#32 <<< lane then (t.modPath pid fun p => { p with lone := true, age := 0 }, pid)
    else
      let q := { p with id := t.nextId, lanes := 1#32 <<< lane, lone := true, age := 0 }
      let t' := t.modPath pid fun p => { p with lanes := p.lanes &&& ~~~(1#32 <<< lane) }
      ({ t' with paths := t'.paths ++ [q], nextId := t.nextId + 1 }, t.nextId)

/-- The slot has been given to another clause: what a lone `YIELD` asked for is done (R165). -/
def Strand.loneDone (t : Strand) : Strand := { t with paths := t.paths.map fun p => if p.lone then { p with yielded := false } else p }

/-- LONE_ISSUE_SLOT (R36): one word for one lone lane, on odd clocks. -/
def execLoneIssueSlot (die cluster core quad ticks : Nat) (s : State) : Host.Outcome State Fault Refusal :=
  let s := s.pass die (s.ticks die ticks)
  let key := (cluster, core, quad + 4)
  .next (if s.clk die % 2 = 0 || !s.slotFree die key then s
    else
      let s := s.atBoundaries (s.quadrant die cluster core quad)
      match s.withheld die with
      | (true, s) => s.spendSlot die key
      | (false, s) =>
        match minBy Prod.fst (((s.quadrant die cluster core quad).map s.loneCands).flatten) with
        | none => s
        | some (_, crew, sid, pid, lane) =>
          match s.strand? crew sid with
          | none => s
          | some t =>
            if ((t.path? pid).map Path.midClause).getD false then (s.grantTo crew sid pid true).useSlot die key
            else
              let (t', pid') := t.leaveAlone pid lane
              let s := s.modStrand crew sid fun _ => t'
              let s := (s.quadrant die cluster core quad).foldl (fun s x => s.modStrand x.1.id x.2.1 Strand.loneDone) s
              (s.grantTo crew sid pid' true).useSlot die key)

/-! ### The Gaffer core (R41) -/

/-- Contexts of a cluster's Gaffer core. -/
def State.contexts (s : State) (die cluster : Nat) : List (Crew × Sid × Strand) :=
  (s.crews.filter fun c => c.die == die && c.cluster == cluster).filterMap fun c => c.gaffer.map fun t => (c, Sid.gaffer, t)

/-- Order of R41: a context in its handler, then round robin after the one that last completed a clause. -/
def gafferRank (last : Option Nat) (x : Crew × Sid × Strand) : Nat :=
  match x.2.2.intr with
  | some i => i.since
  | none => 2 ^ 80 + (x.2.2.slot + 3 - (last.getD 3)) % 4

/-- GAFFER_ISSUE (R41): one word of one context, which switches at clause boundaries. -/
def execGafferIssue (die cluster ticks : Nat) (s : State) : Host.Outcome State Fault Refusal :=
  let s := s.pass die (s.ticks die ticks)
  let key := (cluster, 4, 0)
  .next (if !s.slotFree die key then s
    else
      let s := s.atBoundaries (s.contexts die cluster)
      match s.withheld die with
      | (true, s) => s.spendSlot die key
      | (false, s) =>
        let xs := s.contexts die cluster
        match xs.find? fun x => x.2.2.paths.any Path.midClause with
        | some x => (s.grantFirst [x]).useSlot die key
        | none => (s.grantFirst (sortBy (gafferRank (assocGet (s.die die).gaffer cluster)) xs)).useSlot die key)

/-! ### The watchdog (R39) -/

/-- WATCHDOG_EXPIRY: the path of a lane has starved past the limit. The stream takes what is due: the watchdog trap, or a lower cause that stands at the
boundary before it (R196); while a clause of another path is in progress, nothing. In a handler this is a trap in the handler (R202). The moves of the issue
slots take a due trap of their streams in the same way, so that none is missed. -/
def execWatchdogExpiry (crew : Nat) (sid : Sid) (lane : Nat) (s : State) : Host.Outcome State Fault Refusal :=
  .next (match s.crew? crew, s.strand? crew sid with
    | some c, some t =>
      let paths := t.paths ++ (t.intr.map Intr.held).getD []
      if paths.any fun p => p.lanes.getLsbD lane && t.expired c.desc.limit p then s.takeBoundary crew sid else s
    | _, _ => s)

end Sys2Proof.Machine
end

