-- ==== Sys2Proof/Machine/Accept.lean ====
section
/-! DEFINITION. Acceptance of aperture stores (R345, R346), collectives (R366 to R369), and ring rotation (R269, R270). -/

namespace Sys2Proof.Machine

/-! ### Offers -/

/-- The offers of one store word. -/
def Offer.with_ (o : Offer) (crew : Nat) (sid : Sid) (path : Nat) : Bool := o.crew == crew && o.sid == sid && o.path == path

/-- A lane's offer is settled; the entry that holds the copy counter, if there is one, loses a lane that started no command. -/
def State.settle (s : State) (o : Offer) (refused : Bool) : State :=
  let s := { s with offers := mapIf (fun x => x == o) (fun x => { x with settled := true, refused := refused }) s.offers }
  match o.entry with
  | some e => s.complete o.crew o.sid e (1#32 <<< o.lane)
  | none => s

/-- Refused with cause 3 (R346). -/
def State.refuseOffer (s : State) (c : Crew) (o : Offer) : State :=
  (s.endChan c.die c.cluster o.chan (dwTmpl o.data) 0 0 c.secure).settle o true

/-- Refused with cause 6: the copy names the block-transfer aperture (R343). -/
def State.refuseFar (s : State) (c : Crew) (o : Offer) (a : Nat) : State :=
  s.endChan c.die c.cluster o.chan (dwTmpl o.data) 0 0 c.secure |> fun s => s.settle o true |> fun s =>
    { s with offers := mapIf (fun x => x.with_ o.crew o.sid o.path && x.lane == o.lane) (fun x => { x with far := some a }) s.offers }

/-- The first of a list of addresses that lies in the block-transfer aperture. -/
def farOf (l : List Nat) : Option Nat := l.find? fun a => inBlockAperture (BitVec.ofNat 64 a)

/-- Refused with an engine error: the lane completes without a trap (R346). -/
def State.errorOffer (s : State) (c : Crew) (o : Offer) (e : Nat) : State :=
  ((s.endChan c.die c.cluster o.chan (dwTmpl o.data) e 0 c.secure).engineError c.die e (c.who o.sid o.lane)).settle o false

/-- The entry that holds the word's copy counter raised: made at the first acceptance, for every lane not refused (R298, R345). -/
def State.offerEntry (s : State) (t : Strand) (o : Offer) : Nat × State :=
  match o.entry with
  | some e => (e, s)
  | none =>
    let (id, s) := s.newId
    let all := s.offers.filter fun x => x.with_ o.crew o.sid o.path
    let lanes := lanesFrom ((all.filter fun x => !x.settled).map Offer.lane)
    let e : Entry := { id := id, word := o.word, pos := ((t.path? o.path).bind fun p => p.clause.map Clause.pos).getD 0, path := o.path, inH := t.inH,
                       logged := false, lanes := lanes, done := 0, sent := lanes, faults := [],
                       src := (List.range 32).map (fun l => ((all.find? fun x => x.lane == l).map fun x => [x.data]).getD []), cnt := ⟨0, 0, 1, 0⟩, reads := [] }
    let s := s.modStrand o.crew o.sid fun t => { t.raise ⟨0, 0, 1, 0⟩ with log := t.log ++ [e] }
    (id, { s with offers := mapIf (fun x => x.with_ o.crew o.sid o.path) (fun x => { x with entry := some id }) s.offers })

/-- A command joins its channel. -/
def State.takeCmd (s : State) (t : Strand) (o : Offer) (k : Cmd) : State :=
  let (e, s) := s.offerEntry t o
  let (id, s) := s.newId
  let s := { s with cmds := s.cmds ++ [{ k with id := id, entry := e }] }
  { s with offers := mapIf (fun x => x.with_ o.crew o.sid o.path && x.lane == o.lane) (fun x => { x with settled := true }) s.offers }

/-- A command as acceptance finds it. -/
def baseCmd (c : Crew) (o : Offer) (kind : CmdKind) (tmpl : List Byte) : Cmd :=
  { id := 0, kind := kind, crew := c.id, sid := o.sid, die := c.die, cluster := c.cluster, chan := o.chan, lane := o.lane, entry := 0, data := o.data,
    tmpl := tmpl, secure := c.secure, asid := c.asid, cores := c.teams.map fun t => (t.rank, t.core), reads := [], got := [], dests := [],
    planned := false, writes := [], ecode := 0, flags := 0, done := false, seq := 0, who := c.who o.sid o.lane }

def scopeOf : Nat → Scope
  | 0 => .th | 1 => .tm | 2 => .cr | 3 => .die | 4 => .dev | _ => .sys

/-- The acquire of a command waits for the issuer's older entries (R292). -/
def State.acqReady (s : State) (c : Crew) (t : Strand) (lane : Nat) (acq : Bool) (scope : Nat) : Bool :=
  !acq || s.released c t false (1#32 <<< lane) none (scopeOf scope)

/-! ### Copy commands -/

/-- The teams that a command's barriers stand in, and for scratchpad routes the teams of its data (R354, R355); none for cause 3. -/
def copyDests (c : Crew) (sid : Sid) (t : Tmpl) : Option (List Nat) :=
  let own := sidTeam? sid
  let bits := (List.range 4).filter fun i => t.mask.testBit i
  if t.mask = 0 then
    match own with
    | some r => some [r]
    | none => if t.route = 2 then some [] else none
  else if bits.any fun r => c.teams.length ≤ r then none
  else if t.route = 1 && bits.length ≠ 1 then none
  else some bits

/-- A header at an address that a template names: well formed, an ECODE, or none needed. -/
def State.readHdr (s : State) (b : By) (needed : Bool) (va : Nat) : (List Byte ⊕ Nat) × State :=
  if !needed then (.inl (List.replicate 128 0), s)
  else if va % 128 ≠ 0 then (.inr 5, s)
  else match s.loadVa b va 128 with
    | (.fail k _ _, s) => (.inr (ecodeOf k), s)
    | (.ok l, s) => (if THdr.ok l then .inl l else .inr 5, s)

/-- Places of an im2col region's lines (R351). -/
def State.regionLeaves (s : State) (b : By) : List Nat → (List Leaf ⊕ Nat) × State
  | [] => (.inl [], s)
  | v :: l => match s.leafFor b .store (v * 128) with
    | (.fail k _, s) => (.inr (ecodeOf k), s)
    | (.ok f, s) => match s.regionLeaves b l with
      | (.inl r, s) => (.inl (f :: r), s)
      | r => r

/-- The region of an im2col command pinned for its team, whose earlier region is released; none while a pin waits (R252, R351). -/
def State.pinRegion (s : State) (k : Cmd) (t : Tmpl) : Option (Nat × State) :=
  if t.kind ≠ 2 then some (0, s)
  else match s.regionLeaves (s.byCmd k) ((List.range (t.l2size / 128)).map fun i => t.l2base / 128 + i) with
    | (.inr e, s) => some (e, s)
    | (.inl fs, s) =>
      let h : PinHolder := .im2col k.crew ((sidTeam? k.sid).getD 4)
      ({ s with pins := s.pins.filter fun q => q.holder != h }.pinLines h fs).map fun s => (0, s)

/-- A copy template accepted or refused (R345, R346). -/
def State.acceptCopy (s : State) (c : Crew) (t : Strand) (o : Offer) (l : List Byte) : State :=
  let tm := Tmpl.ofBytes l
  let w := o.data
  match copyDests c o.sid tm with
  | none => s.refuseOffer c o
  | some dests =>
    if !Tmpl.ok l c.padS || (dwAsrc w && tm.route ≠ 2) || (dwArr w && !tm.tben) || (o.sid == .gaffer && tm.route = 2 && tm.tben) then s.refuseOffer c o
    else if !s.acqReady c t o.lane tm.acq tm.scope then s
    else
      let k0 := { baseCmd c o .copy l with dests := dests }
      let b := s.byCmd k0
      match farOf ((if tm.route = 1 then [] else [tm.src]) ++ (if tm.route = 0 || tm.kind = 2 then [] else [tm.dst])) with
      | some a => s.refuseFar c o a
      | none =>
      let (sh, s) := s.readHdr b (tm.route ≠ 1) tm.src
      let (dh, s) := s.readHdr b (tm.route ≠ 0 && tm.kind ≠ 2) tm.dst
      match sh, dh with
      | .inr e, _ => s.takeCmd t o (k0.failed e)
      | _, .inr e => s.takeCmd t o (k0.failed e)
      | .inl a, .inl d =>
        let k := { k0 with tmpl := l ++ a ++ d }
        match k.plan c.padS with
        | .inl e => s.takeCmd t o (k.failed e)
        | .inr p =>
          match farOf (p.named tm k.dstHdr), s.pinRegion k tm with
          | some a, _ => s.refuseFar c o a
          | none, none => s
          | none, some (e, s) =>
            if e ≠ 0 then s.takeCmd t o (k.failed e)
            else
              let k := { k with reads := p.reads k.srcRank }
              s.takeCmd t o (if k.reads.isEmpty then k.makeWrites else k)

/-! ### Collectives (R366 to R369) -/

/-- A collective template. -/
structure Coll where
  op    : Nat
  ty    : Nat
  acq   : Bool
  scope : Nat
  group : Nat
  root  : Nat
  src   : Nat
  dst   : Nat
  count : Nat
deriving DecidableEq, Repr

def Coll.ofBytes (l : List Byte) : Coll :=
  { op := byteFld l 0 0 4, ty := byteFld l 0 4 4, acq := byteFld l 0 8 1 == 1, scope := byteFld l 0 10 3, group := byteFld l 0 16 8, root := byteFld l 0 24 8,
    src := byteFld l 8 0 64, dst := byteFld l 16 0 64, count := byteFld l 24 0 40 }

def Coll.type (k : Coll) : Ty := (Ty.ofCode k.ty).getD .n32
def Coll.size (k : Coll) : Nat := tyBits k.ty / 8

/-- Reserved fields, codes and alignments of a collective template. -/
def Coll.ok (l : List Byte) : Bool :=
  let k := Coll.ofBytes l
  k.op ≤ 6 && k.ty ≤ 5 && (k.op < 3 || k.op = 6 || k.ty = 1 || k.ty = 3) && k.scope ≤ 5 && byteFld l 0 13 3 == 0 && byteFld l 0 32 32 == 0
    && k.src % k.size == 0 && k.dst % k.size == 0 && 1 ≤ k.count && byteFld l 24 40 24 == 0 && zeroFrom l 0x20 0x60

/-- The members of a group as a die's registers define it (R406): for each rank, the die of a local member. None where it is not defined. -/
def State.group (s : State) (die g : Nat) : Option (Nat × List (Option Nat)) :=
  match (s.die die).groups.find? fun x => x.1 == g with
  | none => none
  | some (_, w0, w1) =>
    let n := wfld w0 0 8 + 1
    let rank := wfld w0 8 8
    let tab := (List.range n).map fun r => s.memNat (wfld w1 4 48 * 16 + 2 * r) 2
    let ok := wbit w0 63 && rank < n && 2 ≤ n && wfld w1 4 48 * 16 + 2 * n ≤ Config.hbmBytes
      && (tab.all fun e => fld e 10 5 == 0 && (fld e 15 1 == 0 || fld e 2 8 == 0)) && tab.Nodup
      && (match tab[rank]? with | some e => fld e 15 1 == 1 && fld e 0 2 == die | none => false)
    if ok then some (rank, tab.map fun e => if fld e 15 1 = 1 then some (fld e 0 2) else none) else none

/-- Peers of the remote members of a collective's group. -/
def State.groupPeers (s : State) (die g : Nat) : List Nat :=
  match assocGet (s.die die).groups g with
  | none => []
  | some (w0, w1) => (List.range (wfld w0 0 8 + 1)).filterMap fun r =>
      let e := s.memNat (wfld w1 4 48 * 16 + 2 * r) 2
      if fld e 15 1 = 1 then none else some (fld e 2 8)

/-- A collective accepted or refused. -/
def State.acceptColl (s : State) (c : Crew) (t : Strand) (o : Offer) (l : List Byte) : State :=
  let k := Coll.ofBytes l
  match s.group c.die k.group with
  | none => s.refuseOffer c o
  | some (_, ms) =>
    if !Coll.ok l || ms.length ≤ k.root then s.refuseOffer c o
    else if !s.acqReady c t o.lane k.acq k.scope then s
    else
      let n := (assocGet (s.die c.die).groupSeq k.group).getD 0
      let s := s.modDie c.die fun d => { d with groupSeq := assocSet d.groupSeq k.group (n + 1) }
      let rs : List (Option Nat × Nat) := (sectorsOfBits [(8 * k.src, 8 * k.size * k.count)]).map fun x => (none, x)
      s.takeCmd t o { baseCmd c o .coll l with seq := n, reads := rs, members := ms, peers := s.groupPeers c.die k.group }

/-- What of a command's data word refuses it (R344, R346, R366). -/
def wordRefused (o : Offer) : Bool :=
  wbit o.data 14 || (dwColl o.data && (o.sid == .gaffer || wfld o.data 12 3 ≠ 0 || wfld o.data 16 48 ≠ 0))

/-- An aperture store's lane that no older access holds back (R289): the release of `ST.rel` at its scope has what it waits for (R343), and no acquire load of
the lane is incomplete. -/
def State.offerFree (s : State) (c : Crew) (t : Strand) (o : Offer) : Bool :=
  (match relScope (wordOf o.word) with
    | some sc => s.released c t false (1#32 <<< o.lane) none sc
    | none => true)
    && !t.acquireOpen t.inH none (1#32 <<< o.lane)

/-- COPY_ACCEPT (R345, R346): the next lane's command of an aperture store, in ascending order. The channel reads the template first, and then makes the checks. -/
def execCopyAccept (crew : Nat) (sid : Sid) (lane : Nat) (s : State) : Host.Outcome State Fault Refusal :=
  .next (match s.crew? crew, s.strand? crew sid, s.offers.find? fun o => o.crew == crew && o.sid == sid && o.lane == lane && !o.settled with
    | some c, some t, some o =>
      if s.offers.any fun x => x.with_ crew sid o.path && x.lane < lane && !x.settled then s
      else if 8 ≤ (s.chanCmds c.die c.cluster o.chan).length then s
      else if o.entry.isNone && !t.canRaise ⟨0, 0, 1, 0⟩ then s
      else if !s.offerFree c t o then s
      else
        let tt := (s.asidEntry c.asid).tt
        if tt = 0 then s.refuseOffer c o
        else
          let va := tt + 128 * dwTmpl o.data + if dwColl o.data then 0x80000 else 0
          match s.loadVa (s.byCmd (baseCmd c o .copy [])) va 128 with
          | (.fail k _ _, s) => s.errorOffer c o (ecodeOf k)
          | (.ok l, s) => if wordRefused o then s.refuseOffer c o else if dwColl o.data then s.acceptColl c t o l else s.acceptCopy c t o l
    | _, _, _ => s)

/-- `N` (R368): two contributions of an element folded. -/
def collFold (k : Coll) (a b : Nat) : Nat :=
  let f := k.type.fmt?
  match k.op with
  | 0 => match f with
    | some f => faddF f .rne (f.read a) (f.read b)
    | none => (a + b) % 2 ^ k.type.ebits
  | 1 => match f with
    | some f => fminmaxF f false a b
    | none => if elemVal k.type a 0 ≤ elemVal k.type b 0 then a else b
  | 2 => match f with
    | some f => fminmaxF f true a b
    | none => if elemVal k.type b 0 ≤ elemVal k.type a 0 then a else b
  | 3 => a &&& b
  | 4 => a ||| b
  | _ => a ^^^ b

/-- Elements that a member contributes. -/
def Cmd.contribution (k : Cmd) : List Nat :=
  let t := Coll.ofBytes k.tmpl
  (List.range t.count).map fun e => gotCode k.got none (8 * (t.src + e * t.size)) (8 * t.size)

/-- What the members of a collective agree on. -/
def Cmd.agrees (k : Cmd) : Nat × Nat × Nat × Nat := let t := Coll.ofBytes k.tmpl; (t.op, t.ty, t.root, t.count)

/-- SRC and DST overlap in part (R368). -/
def Cmd.partial_ (k : Cmd) : Bool :=
  let t := Coll.ofBytes k.tmpl
  let n := t.size * t.count
  t.src ≠ t.dst && t.src < t.dst + n && t.dst < t.src + n

/-- COLLECTIVE_PAIR (R367, R368): every member has issued and its source has been read; `remote` are the members of other packages. The group is as the tables
stood when each collective was accepted (R406). -/
def execCollectivePair (id : Nat) (remote : List Remote) (s : State) : Host.Outcome State Fault Refusal :=
  .next (match s.cmd? id with
    | none => s
    | some k =>
      let g := (Coll.ofBytes k.tmpl).group
      let ms := k.members
      match k.kind with
      | .coll =>
        let mine (d : Nat) : Option Cmd := s.cmds.find? fun x => x.kind == .coll && x.die == d && x.seq == k.seq && (Coll.ofBytes x.tmpl).group == g
        let local_ := ms.filterMap fun m => m.bind mine
        let here := (ms.filter fun m => m.isSome).length
        let missing := (List.range ms.length).any fun r => (ms.getD r none).isNone && !(remote.any fun x => x.rank == r)
        if !k.planned && k.peers.any s.peersDown.contains then s.modCmd id fun k => k.failed 7
        else if k.planned || local_.length ≠ here || missing || local_.any (fun x => !x.reads.isEmpty || x.planned) then s
        else
          let ids := local_.map Cmd.id
          let all (f : Cmd → Cmd) : State := { s with cmds := mapIf (fun x => ids.contains x.id) f s.cmds }
          let tables := local_.all fun x => x.members == ms && ms.contains (some x.die)
          let remotes := (List.range ms.length).filterMap fun r => if (ms.getD r none).isNone then remote.find? fun x => x.rank == r else none
          let same := local_.all (fun x => x.agrees == k.agrees) && remotes.all fun x => (x.op, x.ty, x.root, x.data.length) == k.agrees
          if !tables || !same then all fun x => x.failed 6
          else if local_.any Cmd.partial_ then all fun x => x.failed 5
          else
            let t := Coll.ofBytes k.tmpl
            let data (r : Nat) : List Nat := match ms.getD r none with
              | some d => ((mine d).map Cmd.contribution).getD []
              | none => ((remote.find? fun x => x.rank == r).map fun x => x.data.map fun w => w.toNat % 2 ^ (8 * t.size)).getD []
            let cols := (List.range ms.length).map data
            let result := (List.range t.count).map fun e =>
              let xs := cols.map fun l => l.getD e 0
              if t.op = 6 then xs.getD t.root 0 else xs.tail.foldl (collFold t) (xs.headD 0)
            all fun x =>
              let tx := Coll.ofBytes x.tmpl
              { x with planned := true, writes :=
                writesOf none (((List.range t.count).zip result).map fun q => bitCells (8 * (tx.dst + q.1 * t.size)) (8 * t.size) q.2).flatten }
      | _ => s)

/-- Every member of a collective's group is a die of this package that has issued it (R367). -/
def State.allIssued (s : State) (k : Cmd) : Bool :=
  let g := (Coll.ofBytes k.tmpl).group
  k.members.all fun m => m.any fun d =>
      s.cmds.any fun x => x.kind == .coll && x.die == d && x.seq == k.seq && (Coll.ofBytes x.tmpl).group == g && x.ecode = 0

/-- PEER_TIMEOUT (R367): a member has not issued within the host's timeout. -/
def execPeerTimeout (id : Nat) (s : State) : Host.Outcome State Fault Refusal :=
  .next (s.modCmd id fun k => if k.kind == .coll && !k.planned && !s.allIssued k then k.failed 7 else k)

/-! ### RROT (R269, R270) -/

/-- Operands of an `RROT` word. -/
def rrotOf : Instr → Option (Bool × Opd × Opd × Nat)
  | .rrot _ bwd a b n => some (bwd, a, b, 32 * (n.toNat + 1))
  | _ => none

/-- Arrivals of a team so far. -/
def Team.arrivals (t : Team) : Nat := (t.waves.map Strand.rrotK).sum

/-- One team's part of a match: the path that issues, its word, its offsets. -/
structure Rot where
  grant : Grant
  c     : Ctx
  i     : Instr
  bwd   : Bool
  a     : Nat
  b     : Nat
  n     : Nat

/-- The path of a team that waits with its k-th arrival. -/
def State.rotOf (s : State) (c : Crew) (t : Team) (k : Nat) : Option Rot :=
  (List.range t.waves.length).findSome? fun w =>
    let sid := Sid.wave t.rank w
    match t.waves[w]? with
    | none => none
    | some st => (st.paths.find? fun p => p.wait == .rrot k).bind fun p =>
      let g : Grant := { crew := c.id, sid := sid, path := p.id, lone := false }
      let i := ((p.clause.bind fun cl => cl.words[0]?).map wordOf).getD (.nop ⟨15, false, 0⟩)
      match { s with slot := some g }.ctx? i.pre, rrotOf i with
      | some cx, some (bwd, a, b, n) => some { grant := g, c := cx, i := i, bwd := bwd, a := cx.rd .n32 a (lowLane cx.act), b := cx.rd .n32 b (lowLane cx.act), n := n }
      | _, _ => none

/-- A team's own failures (R270): the lowest cause, if any. A source that cannot be read is cause 9 (R257; log 79). A team with no guarded lane rotates
nothing (log 29). -/
def Rot.own (r : Rot) (differ : Bool) : Option Nat :=
  match rrotOf r.i with
  | none => none
  | some (_, a, b, _) =>
    let dis := r.c.ls.any fun l => r.c.rd .n32 a l ≠ r.a || r.c.rd .n32 b l ≠ r.b
    let far := r.c.crew.padS < r.a + r.n || r.c.crew.padS < r.b + r.n
    if differ || (r.c.act != 0 && dis) then some 3
    else if r.c.act = 0 then none
    else if far then some 6
    else if r.a % 32 ≠ 0 || r.b % 32 ≠ 0 then some 7
    else if (r.c.team.map fun tm => tm.padLost r.a r.n).getD false then some 9
    else none

/-- The k-th arrivals of every team issue (R270). All sources are read at the match, before any destination is written. -/
def State.matchRot (s : State) (c : Crew) (rs : List Rot) : State :=
  let differ := rs.any fun r => rs.any fun q => r.n ≠ q.n || r.bwd != q.bwd
  let own := rs.map fun r => r.own differ
  let issue (r : Rot) (s : State) (f : Ctx → Out) : State :=
    match { s with slot := some r.grant }.ctx? r.i.pre with
    | some cx => cx.finish (cx.holdOf r.i) (f cx)
    | none => s
  if own.any Option.isSome then
    (rs.zip own).foldl (fun s q => issue q.1 s fun cx =>
      if cx.act = 0 then .done cx.s0
      else
        let k := q.2.getD 6
        .raise cx.s0 1 (cx.ls.map fun l => laneFault l k (if k = 7 && q.1.a % 32 = 0 then q.1.b else q.1.a) 0 false)) s
  else if rs.any (fun r => r.c.act != 0 && !r.c.t.canRaise ⟨0, 0, 1, 0⟩) then s
  else
    let n := rs.length
    let src (r : Rot) : List Byte := ((s.team? c.id r.c.rank).map fun t => t.padBytes r.a r.n).getD []
    rs.foldl (fun s r => issue r s fun cx =>
      if cx.act = 0 then .done cx.s0
      else
        -- the rank whose bytes arrive here
        let from_ := if r.bwd then (cx.rank + 1) % n else (cx.rank + n - 1) % n
        let (e, s) := cx.newEntry cx.s0 false cx.ls (fun _ => []) ⟨0, 0, 1, 0⟩
        let s := s.sample cx e cx.ls fun _ => BitVec.ofNat 64 r.a
        match rs.find? fun q => q.c.rank == from_ && q.c.act != 0 with
        | none => .done (s.complete cx.id cx.sid e cx.act)
        | some q =>
          let (id, s) := s.newId
          let o : Offer := { crew := cx.id, sid := cx.sid, path := r.grant.path, lane := lowLane cx.act, chan := 16, data := 0, word := cx.word, settled := true,
                             refused := false, entry := some e }
          let k := { baseCmd cx.crew o .rrot [] with
              id := id, entry := e, dests := [cx.rank], planned := true,
              writes := writesOf (some cx.rank) (((List.range r.n).zip (src q)).map fun x => ((r.b + x.1, 0xFF, x.2) : Nat × Byte × Byte)) }
          -- the other guarded lanes have nothing of their own to wait for
          .done ({ s with cmds := s.cmds ++ [k] }.complete cx.id cx.sid e (cx.act &&& ~~~(1#32 <<< o.lane)))) s

/-- The lowest arrival that every team has made. -/
def State.tryMatch (s : State) (crew : Nat) : State :=
  let s := ((s.crew? crew).map Crew.sids).getD [] |>.foldl (fun s sid => s.rejoin crew sid) s
  match s.crew? crew with
  | none => s
  | some c =>
    let top := (c.teams.map Team.arrivals).foldl max 0
    match (List.range top).findSome? fun k =>
      let rs := c.teams.filterMap fun t => s.rotOf c t k
      if rs.length = c.teams.length then some rs else none with
    | some rs => s.matchRot c rs
    | none => s

/-- RROT_MATCH (R270). A crew that is being saved does not match. -/
def execRrotMatch (crew : Nat) (s : State) : Host.Outcome State Fault Refusal :=
  .next (match s.crew? crew with
    | some c => if c.running then { s.tryMatch crew with slot := none } else s
    | none => s)

/-- RROT (R269): the path arrives and waits; a crew of one team matches at once. -/
def execRrot (p : Pre) (bwd : Bool) (a b : Opd) (n : BitVec 12) (s : State) : Host.Outcome State Fault Refusal :=
  match s.ctx? p with
  | none => .fault .noStream
  | some c =>
    let s' := c.run (.rrot p bwd a b n) fun c =>
      let k := (c.team.map Team.arrivals).getD 0
      .wait (c.modT c.s0 fun t => { t with rrotK := t.rrotK + 1 }) (.rrot k)
    .next (if c.crew.teams.length = 1 && (c.check (.rrot p bwd a b n)).isNone && (c.aliasGate (.rrot p bwd a b n)).isNone
      then { s'.tryMatch c.id with slot := none } else s')

end Sys2Proof.Machine
end

