-- ==== Sys2Proof/Machine/Convert.lean ====
section
/-! DEFINITION. Conversions (R157 to R160): one `Convert` a lane, its flags in CVTFLAG, and cause 10 where the fault action applies. -/

namespace Sys2Proof.Machine

/-- Each guarded lane converts (R157): flags are set in every lane, a lane that takes the fault action writes nothing and raises cause 10. -/
def Ctx.convertLanes (c : Ctx) (f : Nat → Conv) (put : Nat → Nat → State → State) : Out :=
  let s := c.forLanes (fun l s =>
    let r := f l
    let s := c.addCvt l r.flags s
    if r.fault then s else put l r.code s) c.s0
  match c.ls.filter fun l => (f l).fault with
  | [] => .done s
  | bad => .raise s 0 (bad.map fun l => { lane := l, cause := 10, addr := 0, kind := 0 })

/-- CVT (R158). -/
def execCvt (p : Pre) (t : Ty) (rm : Rm) (d a : Opd) (pol : BitVec 8) (f : BitVec 4) (s : State) : Host.Outcome State Fault Refusal :=
  word (.cvt p t rm d a pol f) s fun c =>
    let td := (Ty.ofCode f).getD .n32
    c.convertLanes (fun l => convert td.target rm pol (t.srcOf (c.rd t a l))) fun l q s => c.write td d l (BitVec.ofNat 64 q) s

/-- Where a narrow code stands in a register, by format and position (R159, R160). -/
def narrowShift (n : Narrow) (pos : Nat) : Nat := if n.bits = 4 then 4 * pos else 8 * pos

/-- CVTN (R159): a 6-bit code is zero-extended to its byte; the other bits of D are kept. -/
def execCvtn (p : Pre) (t : Ty) (rm : Rm) (pos : BitVec 2) (d a : Opd) (pol : BitVec 8) (f : BitVec 4) (s : State) :
    Host.Outcome State Fault Refusal :=
  word (.cvtn p t rm pos d a pol f) s fun c =>
    let n := (Narrow.ofCode f.toNat).getD .e4m3
    let w := if n.bits = 4 then 4 else 8
    c.convertLanes (fun l => convert (.narrow n) rm pol (t.srcOf (c.rd t a l))) fun l q s =>
      c.write .n32 d l (wput (c.read .n32 d l) (narrowShift n pos.toNat) w q) s

/-- CVTW (R160): int4 code -8 reads as 0 and sets RSVD. -/
def execCvtw (p : Pre) (t : Ty) (pos : BitVec 2) (d a : Opd) (pol : BitVec 8) (f : BitVec 4) (s : State) : Host.Outcome State Fault Refusal :=
  word (.cvtw p t pos d a pol f) s fun c =>
    let n := (Narrow.ofCode f.toNat).getD .e4m3
    c.convertLanes (fun l =>
      let (v, rsvd) := n.read (fld (c.rd .n32 a l) (narrowShift n pos.toNat) n.bits)
      let r := convert t.target .rne pol (.fv v)
      { r with flags := if rsvd then r.flags ||| flagRSVD else r.flags }) fun l q s => c.write t d l (BitVec.ofNat 64 q) s

end Sys2Proof.Machine
end

