-- ==== Sys2Proof/Machine/Fetch.lean ====
section
/-! DEFINITION. The word that the issue slot grants, as the next step reads it; the agenda of moves; and the state in which one given word issues next. -/

namespace Sys2Proof.Machine

/-- What the next step finds in the issue slot. -/
inductive Next where
  | stopped               -- no stream holds the slot
  | trapped (s : State)   -- the word's bits trap at decode
  | instr (i : Instr)
deriving Repr

/-- Cause of a word that decodes to nothing: 1 for OP 0xFE, otherwise 2 (R62, R64). -/
def badCause (w : Word) : Nat := if wfld w 56 8 = 0xFE then 1 else 2

/-- The word of the clause in progress that holds the slot, decoded (R50, R64). -/
def State.fetchNext (s : State) : Next :=
  match s.ctx? ⟨15, false, 0⟩ with
  | none => .stopped
  | some c =>
    match decode c.word with
    | some i => .instr i
    | none => .trapped (c.trapWord (c.issued c.s0) 1 (c.allLanes (badCause c.word)))

/-- A move that issues a word, or only passes time, or looks at the record of stalled words: it leaves that record as it is (log 6). -/
def keepsStalls : Instr → Bool
  | .issueSlot .. | .loneIssueSlot .. | .gafferIssue .. | .watchdogExpiry .. => true
  | _ => false

/-- The agenda without its first move; a move that can change what a stalled word waits for lets every stalled word be tried again. -/
def State.popAgenda (s : State) (i : Instr) : State :=
  { s with agenda := s.agenda.tail, stalls := if keepsStalls i then s.stalls else [] }

/-! ### A word at the issue slot (log 5) -/

/-- The descriptor of the crew that `install` makes: one team of 32 threads, 64 vector registers, 16 tiles, a handler, privileged. -/
def installDesc : Desc :=
  { lentry := 0x1000, gentry := 0x1000, pentry := 0x1000, hentry := 0x2000, team := 32, crew := 1, age := 0, wdog := 0, prog := true, priv := true,
    w0lim := 64, w1cnt := 16, w2en := false, w2tile := 0, w2base := 0, scratch := 4096, tape := 256, w3lim := 8 }

/-- A path of all lanes of a stream inside a one-word clause. -/
def installPath (cls : Class) (lanes : Lanes) (w : Word) : Path :=
  let h : Header := { cls := cls, count := 0, ld := 15, st := 15, cp := 15, tl := 15, yend := false }
  { id := 0, lanes := lanes, pc := 0x1000, at_ := none, prev := 0x1000, age := 0, starve := 0, crank := 0, lone := false,
    clause := some { hdr := h.word, head := h, words := [w], pos := 0 }, latch := [], wait := .none, only := none, yielded := false,
    noCeil := false, frozen := none }

/-- The crew that `install` makes, on core 0 of cluster 0 of die 0. -/
def installCrew (id : Nat) (cls : Class) (w : Word) : Crew :=
  let ps (b : Bool) (lanes : Lanes) : List Path := if b then [installPath cls lanes w] else []
  let isW := cls == .a || cls == .m
  { id := id, die := 0, cluster := 0, number := 0, exiting := false, desc := installDesc, kdesc := 0, taskRec := 0, frame := 0, join := 0, prio := 0,
    nopre := false, queue := 0, asid := 0, secure := false,
    teams := [{ rank := 0, core := 0, base0 := 0, base3 := 0x2000, slots := 0xFFFF, scratch := [], padBad := [], bars := List.replicate 16 0,
                tiles := List.replicate 16 Tile.fresh, recs := List.replicate 32 0, steps := [], ops := [],
                waves := [Strand.fresh (.wave 0 0) 0 0 0 32 (ps isW 0xFFFFFFFF)],
                producer := some (Strand.fresh (.producer 0) 0 0 0 1 (ps (cls == .s) 1)), queues := [0, 0, 0, 0], exited := false, urgent := false }],
    gaffer := some (Strand.fresh .gaffer 0 0 0 1 (ps (cls == .g) 1)), cbars := [0, 0, 0, 0], saving := none, nosave := none, placed := 0, marked := 0 }

/-- The class whose streams run a word: M where it is admitted, else G, else S. -/
def classFor (w : Word) : Class :=
  match decode w with
  | some i => if admits .m i then .m else if admits .g i then .g else .s
  | none => .m

/-- The stream that runs a class. -/
def sidFor : Class → Sid
  | .a | .m => .wave 0 0
  | .g => .gaffer
  | .s => .producer 0

/-- A new crew whose only ready word is the given one, with the issue slot granted to it. -/
def State.install (s : State) (nbits w : Nat) : State :=
  let x := BitVec.ofNat 64 (w % 2 ^ nbits)
  let cls := classFor x
  { s with crews := installCrew s.ids cls x :: s.crews, ids := s.ids + 1,
           slot := some { crew := s.ids, sid := sidFor cls, path := 0, lone := false } }

end Sys2Proof.Machine
end

