-- ==== Sys2Proof/Machine/RenderMath.lean ====
section
/-! DEFINITION. The arithmetic of the rendering words (R382 to R390), on exact values: signed rationals, sums of square roots rounded once,
rays against boxes and triangles, displacement patches, texture filters and edge samples. -/

namespace Sys2Proof.Machine

/-! ### Exact values -/

/-- A rational with the sign that it has when it is zero (R105). -/
structure Sv where
  neg : Bool
  q   : Rat
deriving DecidableEq, Repr

/-- The rational that a finite value is. -/
def Fv.rat? : Fv → Option Rat
  | .num n m e =>
    let a : Rat := if 0 ≤ e then ((m * 2 ^ e.toNat : Nat) : Rat) else mkRat m (2 ^ (-e).toNat)
    some (if n then -a else a)
  | _ => none

def Fv.sv? (x : Fv) : Option Sv := x.rat?.map fun q => ⟨x.neg, q⟩

/-- FP32 bits as an exact value. -/
def f32v (w : Nat) : Fv := fp32.read w

namespace Sv
def ofQ (q : Rat) : Sv := ⟨decide (q < 0), q⟩
def mul (a b : Sv) : Sv := ⟨a.neg != b.neg, a.q * b.q⟩
def negate (a : Sv) : Sv := ⟨!a.neg, -a.q⟩
/-- One exact sum of its terms (R382): zero is -0 only when every term is -0. -/
def sum (l : List Sv) : Sv :=
  let t := (l.map Sv.q).sum
  if t = 0 then ⟨!l.isEmpty && l.all fun x => x.q = 0 && x.neg, 0⟩ else ofQ t
def sub (a b : Sv) : Sv := sum [a, b.negate]
/-- The FP32 bits of one rounding to nearest even. -/
def bits (a : Sv) : Nat := if a.q = 0 then fp32.put a.neg 0 0 else roundQ fp32 .rne (a.q < 0) a.q.num.natAbs a.q.den
end Sv

/-- The square root of a rational that has one. -/
def ratRoot (q : Rat) : Option Rat :=
  let n := isqrt q.num.natAbs
  let d := isqrt q.den
  if 0 ≤ q && n * n = q.num.natAbs && d * d = q.den then some (mkRat n d) else none

/-- The FP32 bits of √q with a sign. -/
def rootBits (neg : Bool) (q : Rat) : Nat :=
  if q = 0 then fp32.put neg 0 0 else let (x, d) := sqrtSticky q.num.natAbs q.den; roundQ fp32 .rne neg x d

/-- r plus the sum of c · √w over a list of (c, w), w positive. -/
structure Surd where
  r : Rat
  l : List (Rat × Rat)
deriving DecidableEq, Repr

namespace Surd
def zero : Surd := ⟨0, []⟩

/-- c · √w joined to terms that have no two roots in a rational ratio. -/
def joinTerm (c w : Rat) : List (Rat × Rat) → List (Rat × Rat)
  | [] => [(c, w)]
  | (c', w') :: l => match ratRoot (w * w') with
    | some k => (c' + c * k / w', w') :: l
    | none => (c', w') :: joinTerm c w l

def addTerm (a : Surd) (c w : Rat) : Surd :=
  if c = 0 then a
  else match ratRoot w with
    | some k => { a with r := a.r + c * k }
    | none => { a with l := (joinTerm c w a.l).filter fun x => x.1 ≠ 0 }

def add (a b : Surd) : Surd := b.l.foldl (fun a x => a.addTerm x.1 x.2) { a with r := a.r + b.r }
def scale (k : Rat) (a : Surd) : Surd := if k = 0 then zero else ⟨k * a.r, a.l.map fun x => (k * x.1, x.2)⟩
def sum (l : List Surd) : Surd := l.foldl add zero
def isZero (a : Surd) : Bool := a.r = 0 && a.l.isEmpty

/-- r + c · √w, irrational: its sign and a fraction that rounds as it does in FP32, whose rounding points are multiples of 2^-150. -/
def one (r c w : Rat) : Bool × Nat × Nat :=
  let v := c * c * w
  let m : Int := r.num * v.den
  let b : Nat := v.num.natAbs * v.den * (r.den * r.den)
  let up : Bool := 0 < c
  let neg : Bool := if 0 ≤ m then !up && m.natAbs * m.natAbs < b else !(up && m.natAbs * m.natAbs < b)
  let big : Int := (if neg then -m else m) * 2 ^ 160
  let root : Int := isqrt (b * 4 ^ 160)
  let x : Int := if up != neg then big + root else big - root - 1
  (neg, 2 * x.toNat + 1, 2 * (r.den * v.den) * 2 ^ 160)

/-- An enclosing interval. -/
def iv (P : Nat) (a : Surd) : Iv :=
  a.l.foldl (fun s x => s.add ((Iv.ofQ P x.1.num x.1.den).mul P ((Iv.ofQ P x.2.num x.2.den).sqrt P))) (Iv.ofQ P a.r.num a.r.den)

/-- The FP32 bits of one rounding. A sum of two or three independent roots is irrational, and an interval decides it (log 12). -/
def bits (a : Surd) : Nat :=
  match a.l with
  | [] => (Sv.ofQ a.r).bits
  | [(c, w)] => let (n, x, d) := one a.r c w; roundQ fp32 .rne n x d
  | _ => Iv.decideBits fp32 (fun P => (a.iv P, P)) [600, 1200, 2400]

/-- Below zero; for a value that is not zero. -/
def isNeg (a : Surd) : Bool :=
  match a.l with
  | [] => decide (a.r < 0)
  | [(c, w)] => (one a.r c w).1
  | _ => (a.iv 2400).lo < 0
end Surd

/-! ### Vectors -/

structure V3 where
  x : Rat
  y : Rat
  z : Rat
deriving DecidableEq, Repr

namespace V3
def sub (a b : V3) : V3 := ⟨a.x - b.x, a.y - b.y, a.z - b.z⟩
def add (a b : V3) : V3 := ⟨a.x + b.x, a.y + b.y, a.z + b.z⟩
def scale (k : Rat) (a : V3) : V3 := ⟨k * a.x, k * a.y, k * a.z⟩
def dot (a b : V3) : Rat := a.x * b.x + a.y * b.y + a.z * b.z
def get (a : V3) : Nat → Rat
  | 0 => a.x
  | 1 => a.y
  | _ => a.z
def unit : Nat → V3
  | 0 => ⟨1, 0, 0⟩
  | 1 => ⟨0, 1, 0⟩
  | _ => ⟨0, 0, 1⟩
def det (u v w : V3) : Rat := u.x * (v.y * w.z - v.z * w.y) - u.y * (v.x * w.z - v.z * w.x) + u.z * (v.x * w.y - v.y * w.x)
/-- Three FP32 values; none where one is not finite. -/
def of? : List Nat → Option V3
  | [a, b, c] => match (f32v a).rat?, (f32v b).rat?, (f32v c).rat? with
    | some x, some y, some z => some ⟨x, y, z⟩
    | _, _, _ => none
  | _ => none
end V3

/-- 32-bit words of bytes. -/
def words32 (l : List Byte) : List Nat := (List.range (l.length / 4)).map fun i => leNat ((l.drop (4 * i)).take 4)

/-- Three words from word k on, as a vector. -/
def vecAt (w : List Nat) (k : Nat) : Option V3 := V3.of? ((w.drop k).take 3)

/-! ### Camera rays (R383) -/

def canon6 : List Nat := List.replicate 6 fp32.canon

/-- Every second bit of a tile index, from bit `o` on. -/
def morton (t o : Nat) : Nat := ((List.range 16).map fun j => fld t (2 * j + o) 1 * 2 ^ j).sum

/-- Column k of ROT as signed values. -/
def rotCol (w : List Nat) (k : Nat) : List Sv := (List.range 3).map fun r => ((f32v (w.getD (3 + 3 * r + k) 0)).sv?).getD ⟨false, 0⟩

/-- A pinhole direction ROTᵀ·c / |ROTᵀ·c|; none when it has no length. -/
def pinhole (w : List Nat) (c : List Sv) : Option (List Nat) :=
  let v := (List.range 3).map fun k => Sv.sum (((rotCol w k).zip c).map fun x => x.1.mul x.2)
  let n := (v.map fun a => a.q * a.q).sum
  if n = 0 then none else some (v.map fun a => rootBits a.neg (a.q * a.q / n))

/-- A value a + b·cos θ + c·sin θ, the angle one of R383's, with the interval of cos θ and sin θ that a precision gives. It is zero only when all three are:
1, cos θ and sin θ have no rational relation at these angles, and neither has √ξ1 times the two. -/
structure Lensed where
  a : Rat
  b : Rat
  c : Rat
deriving DecidableEq, Repr

def Lensed.isZero (x : Lensed) : Bool := x.a = 0 && x.b = 0 && x.c = 0

/-- An interval of it: `co` and `si` stand for √ξ1·cos θ and √ξ1·sin θ. -/
def Lensed.iv (P : Nat) (co si : Iv) (x : Lensed) : Iv :=
  let f (q : Rat) : Iv := Iv.ofQ P q.num q.den
  ((f x.a).add ((f x.b).mul P co)).add ((f x.c).mul P si)

/-- √ξ1·cos 2πξ2 and √ξ1·sin 2πξ2, for ξ = (n + 0.5)/65536. -/
def lensIv (n1 n2 P : Nat) : Iv × Iv :=
  let th := (Iv.smul (2 * (2 * n2 + 1) : Nat) (Iv.pi (P + 32))).sdiv (2 ^ 17)
  -- reduced to a quadrant: θ = k·π/2 + r with 0 ≤ r < π/2
  let k : Nat := (4 * (2 * n2 + 1)) / 2 ^ 17
  let r := th.sub ((Iv.smul (k : Int) (Iv.pi (P + 32))).sdiv 2)
  let s := Iv.sinSmall (P + 32) r
  let c := Iv.cosSmall (P + 32) r
  let (co, si) := match k % 4 with
    | 0 => (c, s)
    | 1 => (s.negate, c)
    | 2 => (c.negate, s.negate)
    | _ => (s, c.negate)
  let root := (Iv.ofQ (P + 32) (2 * n1 + 1) (2 ^ 17)).sqrt (P + 32)
  let down (a : Iv) : Iv := ⟨a.lo / 2 ^ 32, Iv.cdiv a.hi (2 ^ 32)⟩
  (down (root.mul (P + 32) co), down (root.mul (P + 32) si))

def lensPrecisions : List Nat := [700, 1200, 2400]

/-- A thin-lens ray; none when its direction has no length. -/
def thinLens (w : List Nat) (c : List Sv) (lens focus : Sv) (n1 n2 : Nat) : Option (List Nat) :=
  let rots := (List.range 3).map (rotCol w)
  -- FOCUS·c - e, with e = LENS·(√ξ1·cos, √ξ1·sin, 0)
  let v2 := Sv.sub (focus.mul (c.getD 2 ⟨false, 0⟩)) ⟨false, 0⟩
  let fc (r : Nat) : Rat := (focus.mul (c.getD r ⟨false, 0⟩)).q
  let neg01 (r : Nat) : Bool :=
    let x : Lensed := if r = 0 then ⟨fc 0, -lens.q, 0⟩ else ⟨fc 1, 0, -lens.q⟩
    let (co, si) := lensIv n1 n2 2400
    (x.iv 2400 co si).lo < 0
  let entry (k r : Nat) : Sv := (rots.getD k []).getD r ⟨false, 0⟩
  let n := (List.range 3).map fun k =>
    ({ a := (entry k 0).q * fc 0 + (entry k 1).q * fc 1 + (entry k 2).q * v2.q, b := -(lens.q * (entry k 0).q), c := -(lens.q * (entry k 1).q) } : Lensed)
  let zneg (k : Nat) : Bool := ((entry k 0).neg != neg01 0) && ((entry k 1).neg != neg01 1) && ((entry k 2).neg != v2.neg)
  let o := (List.range 3).map fun k =>
    let org := ((f32v (w.getD k 0)).sv?).getD ⟨false, 0⟩
    let (co, si) := lensIv n1 n2 2400
    let x : Lensed := ⟨org.q, lens.q * (entry k 0).q, lens.q * (entry k 1).q⟩
    if x.b = 0 && x.c = 0 then
      -- the products of ROTᵀ·e are zeros
      let zero (neg : Bool) : Sv := ⟨neg, 0⟩
      (Sv.sum [org, zero ((entry k 0).neg != (co.lo < 0)), zero ((entry k 1).neg != (si.lo < 0)), zero (entry k 2).neg]).bits
    else Iv.decideBits fp32 (fun P => let (co, si) := lensIv n1 n2 P; (x.iv P co si, P)) lensPrecisions
  if n.all Lensed.isZero then none
  else some (o ++ ((List.range 3).zip n).map fun q =>
    if q.2.isZero then fp32.put (zneg q.1) 0 0
    else Iv.decideBits fp32 (fun P =>
      let (co, si) := lensIv n1 n2 P
      let m := n.foldl (fun s x => let a := x.iv P co si; s.add (a.mul P a)) (Iv.ofInt P 0)
      ((q.2.iv P co si).div P (m.sqrt P), P)) lensPrecisions)

/-- RAYGEN of one lane (R383): `w` the projection block, `i` THREAD mod 64. -/
def raygenLane (w : List Nat) (t lensSample i : Nat) : List Nat :=
  let width := fld (w.getD 12 0) 0 16
  let height := fld (w.getD 12 0) 16 16
  let px := 8 * morton t 0 + i % 8
  let py := 8 * morton t 1 + i / 8
  let fs := ((List.range 16).filter (· ≠ 12)).map fun k => (f32v (w.getD k 0)).sv?
  let focal := ((f32v (w.getD 13 0)).sv?).getD ⟨false, 0⟩
  let lens := ((f32v (w.getD 14 0)).sv?).getD ⟨false, 0⟩
  let focus := ((f32v (w.getD 15 0)).sv?).getD ⟨false, 0⟩
  if width ≤ px || height ≤ py || fs.any Option.isNone || focal.q ≤ 0 || lens.q < 0 then canon6
  else
    let at_ (p n : Nat) : Sv := Sv.ofQ (((p : Rat) + 1 / 2 - (n : Rat) / 2) / focal.q)
    let c := [at_ px width, at_ py height, Sv.ofQ 1]
    if lens.q = 0 then (match pinhole w c with
      | some d => w.take 3 ++ d
      | none => canon6)
    else (thinLens w c lens focus (fld lensSample 0 16) (fld lensSample 16 16)).getD canon6

/-! ### Rays against boxes and triangles (R384, R385) -/

/-- The extended reals. -/
inductive Ext where
  | bot
  | fin (q : Rat)
  | top
deriving DecidableEq, Repr

namespace Ext
def le : Ext → Ext → Bool
  | .bot, _ => true
  | _, .top => true
  | .fin a, .fin b => decide (a ≤ b)
  | _, _ => false
def max (a b : Ext) : Ext := if a.le b then b else a
def min (a b : Ext) : Ext := if a.le b then a else b
def of? : Fv → Option Ext
  | .nan _ _ => none
  | .inf n => some (if n then .bot else .top)
  | x => x.rat?.map .fin
/-- (a - o) / d, d not zero. -/
def at_ (a : Ext) (o d : Rat) : Ext :=
  match a with
  | .fin q => .fin ((q - o) / d)
  | .bot => if d < 0 then .top else .bot
  | .top => if d < 0 then .bot else .top
end Ext

/-- A ray and its range; none where it meets nothing whatever it is tested against. -/
structure Ray where
  o  : V3
  d  : V3
  lo : Ext
  hi : Ext
deriving DecidableEq, Repr

def Ray.of? (r : List Nat) (tmin tmax : Nat) : Option Ray :=
  match vecAt r 0, vecAt r 3, Ext.of? (f32v tmin), Ext.of? (f32v tmax) with
  | some o, some d, some lo, some hi => if lo.le hi then some ⟨o, d, lo, hi⟩ else none
  | _, _, _, _ => none

/-- The closed segment meets a node's box: words 0 to 2 its least corner, 3 to 5 its greatest (R234). -/
def Ray.meets (r : Ray) (w : List Nat) : Bool :=
  let step (acc : Option (Ext × Ext)) (k : Nat) : Option (Ext × Ext) :=
    match acc, Ext.of? (f32v (w.getD k 0)), Ext.of? (f32v (w.getD (3 + k) 0)) with
    | some (lo, hi), some a, some b =>
      let o := r.o.get k
      let d := r.d.get k
      if d = 0 then (if a.le (.fin o) && Ext.le (.fin o) b then some (lo, hi) else none)
      else
        let t1 := a.at_ o d
        let t2 := b.at_ o d
        some (if d < 0 then (lo.max t2, hi.min t1) else (lo.max t1, hi.min t2))
    | _, _, _ => none
  match (List.range 3).foldl step (some (r.lo, r.hi)) with
  | some (lo, hi) => lo.le hi
  | none => false

/-- The solution of x·d - y·E1 - z·E2 = s; none for a zero determinant. -/
def solve3 (d e1 e2 s : V3) : Option V3 :=
  let n := V3.det d e1 e2
  if n = 0 then none else some ⟨V3.det s e1 e2 / n, -(V3.det d s e2) / n, -(V3.det d e1 s) / n⟩

/-- t, a and b of a ray and a triangle (R385), whether or not the point lies inside. -/
def Ray.solve (o d p0 p1 p2 : V3) : Option V3 := solve3 d (p1.sub p0) (p2.sub p0) (p0.sub o)

/-- A hit: t, a and b. -/
def Ray.hit (r : Ray) (p0 p1 p2 : V3) : Option V3 :=
  match Ray.solve r.o r.d p0 p1 p2 with
  | some s => if 0 ≤ s.y && 0 ≤ s.z && s.y + s.z ≤ 1 && r.lo.le (.fin s.x) && Ext.le (.fin s.x) r.hi then some s else none
  | none => none

/-- A candidate that the ray hits. -/
structure Hit where
  t     : Rat
  u     : Rat
  v     : Rat
  prim  : Nat
  micro : Nat
  word  : Nat          -- USER, or the micro index
  kind  : Nat
deriving DecidableEq, Repr

/-- Results of `TRACE` (R384). -/
def Hit.results (h : Hit) : List Nat := [(Sv.ofQ h.t).bits, (Sv.ofQ h.u).bits, (Sv.ofQ h.v).bits, h.prim, h.word, h.kind]
def missResults : List Nat := [fp32.infBits false, 0, 0, 0xFFFFFFFF, 0, 0]
def cycleResults : List Nat := [0, 0, 0, 0, 0, 15]

/-- Nearer: the least t, then the lower PRIM, then the lower micro index. -/
def Hit.before (a b : Hit) : Bool := a.t < b.t || (a.t = b.t && (a.prim < b.prim || (a.prim = b.prim && a.micro < b.micro)))

/-- The candidates that no other comes before. -/
def nearest (l : List Hit) : List Hit := dedup (l.filter fun a => !(l.any fun b => b.before a))

/-- A triangle record (R235). Its reserved bytes are ignored (DESIGN CHOICE, log 81). -/
def triHit (r : Ray) (w : List Nat) : Option Hit :=
  match vecAt w 0, vecAt w 3, vecAt w 6 with
  | some p0, some p1, some p2 => (r.hit p0 p1 p2).map fun s => ⟨s.x, s.y, s.z, w.getD 9 0, 0, w.getD 10 0, 1⟩
  | _, _, _ => none

/-! ### Patches (R236, R237, R386) -/

/-- A patch whose numbers are all finite. -/
structure Patch where
  v     : V3 × V3 × V3
  n     : V3 × V3 × V3
  prim  : Nat
  depth : Nat
  scale : Rat
  bias  : Rat
  codes : List Nat
  pairs : List (Nat × Nat)  -- the pyramid, level depth - 1 first
deriving DecidableEq, Repr

/-- Layout of a patch: depth, bytes of a code, vertices of its grid, bytes of the padded grid, pairs of the pyramid. -/
def patchDepth (w : List Nat) : Nat := fld (w.getD 10 0) 0 3
def patchWidth (w : List Nat) : Nat := if fld (w.getD 10 0) 3 1 = 1 then 2 else 1
def gridSize (d : Nat) : Nat := (2 ^ d + 1) * (2 ^ d + 2) / 2
def gridBytes (d width : Nat) : Nat := (gridSize d * width + 7) / 8 * 8
def pairCount (d : Nat) : Nat := (4 ^ d - 1) / 3
def patchNorm (w : List Nat) : Nat := w.getD 14 0 + w.getD 15 0 * 2 ^ 32

def unpackN (width : Nat) (l : List Byte) (n : Nat) : List Nat := (List.range n).map fun i => leNat ((l.drop (i * width)).take width)

/-- A patch from its header (R236), its normals and the bytes that follow the header. The reserved bits of a header are ignored (DESIGN CHOICE, log 81). -/
def Patch.of? (w nw : List Nat) (rest : List Byte) : Option Patch :=
  let d := patchDepth w
  let k := patchWidth w
  match vecAt w 0, vecAt w 3, vecAt w 6, vecAt nw 0, vecAt nw 3, vecAt nw 6, (f32v (w.getD 11 0)).rat?, (f32v (w.getD 12 0)).rat? with
  | some v0, some v1, some v2, some n0, some n1, some n2, some sc, some bi =>
    let ps := unpackN k (rest.drop (gridBytes d k)) (2 * pairCount d)
    some { v := (v0, v1, v2), n := (n0, n1, n2), prim := w.getD 9 0, depth := d, scale := sc, bias := bi, codes := unpackN k rest (gridSize d),
           pairs := (List.range (pairCount d)).map fun i => (ps.getD (2 * i) 0, ps.getD (2 * i + 1) 0) }
  | _, _, _, _, _, _, _, _ => none

namespace Patch

/-- A grid vertex (i, j). -/
abbrev Vtx := Nat × Nat

def index (q : Vtx) : Nat := q.1 * (q.1 + 1) / 2 + q.2
def code (p : Patch) (q : Vtx) : Nat := p.codes.getD (index q) 0

/-- Coarse barycentrics of a grid vertex. -/
def bary (p : Patch) (q : Vtx) : Rat × Rat × Rat :=
  let n : Rat := ((2 ^ p.depth : Nat) : Rat)
  (1 - (q.1 : Rat) / n, ((q.1 : Rat) - (q.2 : Rat)) / n, (q.2 : Rat) / n)

def mix (b : Rat × Rat × Rat) (v : V3 × V3 × V3) : V3 := ((V3.scale b.1 v.1).add (V3.scale b.2.1 v.2.1)).add (V3.scale b.2.2 v.2.2)

def offset (p : Patch) (q : Vtx) : Rat := p.scale * (p.code q : Rat) + p.bias
def normal (p : Patch) (q : Vtx) : V3 := mix (p.bary q) p.n

/-- Q of a grid vertex, each component rounded once (R386); none where one is not finite. -/
def vertex (p : Patch) (q : Vtx) : Option V3 :=
  let base := mix (p.bary q) p.v
  let n := p.normal q
  let nn := n.dot n
  let comp (k : Nat) : Nat :=
    if nn = 0 then (Surd.addTerm ⟨base.get k, []⟩ 0 1).bits else (Surd.addTerm ⟨base.get k, []⟩ (p.offset q * n.get k) (1 / nn)).bits
  V3.of? [comp 0, comp 1, comp 2]

/-- The micro-triangles with their indexes. The `down` triangle of R386 is read as the one between two `up` triangles of its row (log 30). -/
def micros (d : Nat) : List (Nat × Vtx × Vtx × Vtx) :=
  ((List.range (2 ^ d)).map fun i =>
    ((List.range (i + 1)).map fun j => (i * i + 2 * j, ((i, j), (i + 1, j), (i + 1, j + 1))))
      ++ (List.range i).map fun j => (i * i + 2 * j + 1, ((i, j), (i + 1, j + 1), (i, j + 1)))).flatten

def micro? (d k : Nat) : Option (Vtx × Vtx × Vtx) := ((micros d).find? fun x => x.1 == k).map Prod.snd

/-- Twice the signed area of three points, each given times 3. -/
def area (a b c : Int × Int) : Int := (b.1 - a.1) * (c.2 - a.2) - (b.2 - a.2) * (c.1 - a.1)

def triple (q : Vtx) : Int × Int := (3 * q.1, 3 * q.2)
def mid (a b : Vtx) : Vtx := ((a.1 + b.1) / 2, (a.2 + b.2) / 2)

/-- Sub-triangles of levels 0 to n - 1 that hold a point (given times 3), from a sub-triangle's corners on: level and index.
The middle child's V0 corner is read as the one opposite to V0 (log 30). -/
def enclosing (g : Int × Int) : Nat → Nat → Nat → Vtx → Vtx → Vtx → List (Nat × Nat)
  | 0, _, _, _, _, _ => []
  | n + 1, k, s, a, b, c =>
    let whole := area (triple a) (triple b) (triple c)
    let over_ (x : Int) : Bool := if 0 < whole then whole < 2 * x else 2 * x < whole
    let ab := mid a b
    let ac := mid a c
    let bc := mid b c
    (k, s) :: (if over_ (area g (triple b) (triple c)) then enclosing g n (k + 1) (4 * s) a ab ac
      else if over_ (area (triple a) g (triple c)) then enclosing g n (k + 1) (4 * s + 1) ab b bc
      else if over_ (area (triple a) (triple b) g) then enclosing g n (k + 1) (4 * s + 2) ac bc c
      else enclosing g n (k + 1) (4 * s + 3) bc ac ab)

/-- The pair of a sub-triangle. -/
def pair (p : Patch) (k s : Nat) : Nat × Nat := p.pairs.getD (pairCount p.depth - pairCount (k + 1) + s) (0, 0)

/-- A micro-triangle's codes lie inside the pair of every enclosing sub-triangle: it is always a candidate (R386). -/
def bounded (p : Patch) (m : Vtx × Vtx × Vtx) : Bool :=
  let (a, b, c) := m
  let g : Int × Int := ((a.1 + b.1 + c.1 : Nat), (a.2 + b.2 + c.2 : Nat))
  let n := 2 ^ p.depth
  (enclosing g p.depth 0 0 (0, 0) (n, 0) (n, n)).all fun x =>
    let (lo, hi) := p.pair x.1 x.2
    [a, b, c].all fun q => lo ≤ p.code q && p.code q ≤ hi

/-- The hits of a patch; `extra` says whether a micro-triangle that the pyramid does not bound is a candidate. -/
def hits (p : Patch) (r : Ray) (extra : Nat → Bool) : List Hit :=
  (micros p.depth).filterMap fun x =>
    let (k, a, b, c) := x
    if !(p.bounded (a, b, c) || extra k) then none
    else match p.vertex a, p.vertex b, p.vertex c with
      | some qa, some qb, some qc => (r.hit qa qb qc).map fun s =>
          let w0 := 1 - s.y - s.z
          let co (f : Rat × Rat × Rat → Rat) : Rat := w0 * f (p.bary a) + s.y * f (p.bary b) + s.z * f (p.bary c)
          ⟨s.x, co (·.2.1), co (·.2.2), p.prim, k, k, 2⟩
      | _, _, _ => none

end Patch

/-! ### The traversal adjoint (R387) -/

/-- What a destination word's value does to t, u and v. -/
structure Partial where
  off : Nat
  t   : Surd
  u   : Surd
  v   : Surd
deriving DecidableEq, Repr

/-- Responses of t, a and b to a displacement of the hit point along axis k. -/
def responses (d p0 p1 p2 : V3) : Option (List V3) :=
  if V3.det d (p1.sub p0) (p2.sub p0) = 0 then none
  else some ((List.range 3).filterMap fun k => solve3 d (p1.sub p0) (p2.sub p0) (V3.unit k))

def ratS (q : Rat) : Surd := ⟨q, []⟩

/-- Partials of a triangle's vertices. -/
def triPartials (o d p0 p1 p2 : V3) : Option (List Partial) :=
  match Ray.solve o d p0 p1 p2, responses d p0 p1 p2 with
  | some s, some rs =>
    let w : List Rat := [1 - s.y - s.z, s.y, s.z]
    some (((List.range 3).map fun m => (List.range 3).map fun k =>
      let x := rs.getD k ⟨0, 0, 0⟩
      let b := w.getD m 0
      (⟨12 * m + 4 * k, ratS (b * x.x), ratS (b * x.y), ratS (b * x.z)⟩ : Partial)).flatten)
  | _, _ => none

namespace Patch

/-- What a function f of the point's displacement (a linear response h along the axes) gives each destination word of a patch. -/
def dests (p : Patch) (ms : List (Rat × Vtx)) (h : V3) : List (Nat × Surd) :=
  let vs := (List.range 3).map fun n => (List.range 3).map fun k =>
    let bs := ms.map fun m => m.1 * [(p.bary m.2).1, (p.bary m.2).2.1, (p.bary m.2).2.2].getD n 0
    (12 * n + 4 * k, ratS (bs.sum * h.get k))
  let ns := (List.range 3).map fun n => (List.range 3).map fun k =>
    (0x24 + 12 * n + 4 * k, Surd.sum (ms.map fun m =>
      let b := m.1 * [(p.bary m.2).1, (p.bary m.2).2.1, (p.bary m.2).2.2].getD n 0
      let nv := p.normal m.2
      let nn := nv.dot nv
      if nn = 0 then Surd.zero else Surd.addTerm Surd.zero (b * p.offset m.2 * (h.get k - nv.get k * nv.dot h / nn)) (1 / nn)))
  let os := ms.map fun m =>
    let nv := p.normal m.2
    let nn := nv.dot nv
    (0x48 + 4 * index m.2, if nn = 0 then Surd.zero else Surd.addTerm Surd.zero (m.1 * nv.dot h) (1 / nn))
  vs.flatten ++ ns.flatten ++ os

/-- Partials of a micro-triangle: Q passes a change of its sum on unrounded (log 30). -/
def partials (p : Patch) (o d : V3) (k : Nat) : Option (List Partial) :=
  match micro? p.depth k with
  | none => none
  | some (a, b, c) =>
    match p.vertex a, p.vertex b, p.vertex c with
    | some qa, some qb, some qc =>
      match Ray.solve o d qa qb qc, responses d qa qb qc with
      | some s, some rs =>
        let ms : List (Rat × Vtx) := [(1 - s.y - s.z, a), (s.y, b), (s.z, c)]
        let ax (f : V3 → Rat) : V3 := ⟨f (rs.getD 0 ⟨0, 0, 0⟩), f (rs.getD 1 ⟨0, 0, 0⟩), f (rs.getD 2 ⟨0, 0, 0⟩)⟩
        let co (f : Rat × Rat × Rat → Rat) (x : V3) : Rat := x.y * (f (p.bary b) - f (p.bary a)) + x.z * (f (p.bary c) - f (p.bary a))
        let ts := p.dests ms (ax V3.x)
        let us := p.dests ms (ax (co (·.2.1)))
        let vs := p.dests ms (ax (co (·.2.2)))
        some ((ts.zip (us.zip vs)).map fun q => ⟨q.1.1, q.1.2, q.2.1.2, q.2.2.2⟩)
      | _, _ => none
    | _, _, _ => none

end Patch

/-- One upstream gradient times one partial: a finite value, an infinity, or a NaN. -/
def gradTerm (g : Fv) (x : Surd) : Surd ⊕ Option Bool :=
  match g with
  | .nan _ _ => .inr none
  | .inf n => if x.isZero then .inr none else .inr (some (n != x.isNeg))
  | _ => .inl (Surd.scale ((g.rat?).getD 0) x)

/-- The contribution to one destination: none for a NaN. -/
def contribution (gt gu gv : Fv) (x : Partial) : Option Nat :=
  let l := [gradTerm gt x.t, gradTerm gu x.u, gradTerm gv x.v]
  let infs := l.filterMap fun y => match y with
    | .inr b => some b
    | .inl _ => none
  match infs with
  | [] => some (Surd.sum (l.filterMap fun y => match y with | .inl v => some v | .inr _ => none)).bits
  | some b :: _ => if infs.all (· == some b) then some (fp32.infBits b) else none
  | none :: _ => none

/-- The contributions of a lane: none where a value is NaN; zeros are not sent. -/
def contributions (gt gu gv : Fv) (l : List Partial) : List (Nat × Nat) :=
  let r := l.map fun x => (x.off, contribution gt gu gv x)
  if r.any (fun x => x.2.isNone) then [] else (r.map fun x => (x.1, x.2.getD 0)).filter fun x => x.2 % 2 ^ 31 ≠ 0

/-! ### Texture sampling (R233, R388, R389) -/

/-- A sampler descriptor. -/
structure Sampler where
  tex    : Nat
  w      : Nat
  h      : Nat
  levels : Nat
  fmt    : Nat
  filt   : Nat
  wrapU  : Nat
  wrapV  : Nat
  ch     : Nat
  grad   : Nat
  border : Nat
deriving DecidableEq, Repr

def Sampler.ofBytes (l : List Byte) : Sampler :=
  let n (a k : Nat) : Nat := leNat ((l.drop a).take k)
  let x := n 8 8
  { tex := n 0 8, w := fld x 0 16, h := fld x 16 16, levels := fld x 32 4, fmt := fld x 36 4, filt := fld x 40 2, wrapU := fld x 42 2, wrapV := fld x 44 2,
    ch := fld x 46 2 + 1, grad := n 16 8, border := n 24 4 }

/-- A descriptor whose fields R233 gives a meaning. DESIGN CHOICE: its reserved bits, 0x08 [63:48] and 0x18 [63:32], are ignored (log 81). -/
def Sampler.ok (d : Sampler) : Bool := 1 ≤ d.levels && (d.fmt = 4 || d.fmt = 6 || d.fmt = 7 || d.fmt = 13) && d.filt < 3

/-- Bytes of a texel. -/
def Sampler.texel (d : Sampler) : Nat := if d.fmt = 13 then 4 else if d.fmt = 4 then 4 * d.ch else 2 * d.ch

def levelW (d : Sampler) (i : Nat) : Nat := max (d.w / 2 ^ i) 1
def levelH (d : Sampler) (i : Nat) : Nat := max (d.h / 2 ^ i) 1
def levelPitch (d : Sampler) (e i : Nat) : Nat := (levelW d i * e + 127) / 128 * 128

/-- Offset of a level of e-byte texels. -/
def levelBase (d : Sampler) (e i : Nat) : Nat := ((List.range i).map fun j => levelPitch d e j * levelH d j).sum

/-- Offset of a texel. -/
def texelOff (d : Sampler) (e i x y : Nat) : Nat := levelBase d e i + y * levelPitch d e i + x * e

/-- Nearest even integer of a rational. -/
def rneInt (q : Rat) : Int :=
  let k := roundInt .rne (q < 0) (q.num.natAbs / q.den) (q.num.natAbs % q.den) q.den
  if q < 0 then -(k : Int) else k

/-- L of R388. -/
def sampleLevel (d : Sampler) (lod : Fv) : Nat :=
  match lod with
  | .nan _ _ => 0
  | .inf n => if n then 0 else 256 * (d.levels - 1)
  | x => let q := (x.rat?).getD 0
         let q := if q < 0 then 0 else if ((d.levels - 1 : Nat) : Rat) < q then ((d.levels - 1 : Nat) : Rat) else q
         (rneInt (256 * q)).toNat

/-- A texel coordinate, in 16.8. -/
def sampleCoord (x : Fv) (n : Nat) : Int :=
  match x with
  | .inf neg => if neg then -(2 ^ 23) else 2 ^ 23 - 1
  | x => max (-(2 ^ 23)) (min (2 ^ 23 - 1) (rneInt (256 * ((x.rat?).getD 0 * (n : Rat) - 1 / 2))))

/-- A texel index wrapped; none for the border. -/
def wrapIndex (mode n : Nat) (k : Int) : Option Nat :=
  match mode with
  | 0 => some (max 0 (min ((n : Int) - 1) k)).toNat
  | 1 => some (k % (n : Int)).toNat
  | 2 => let m := (k % (2 * n : Int)).toNat; some (if m < n then m else 2 * n - 1 - m)
  | _ => if 0 ≤ k && k < n then some k.toNat else none

/-- A tap: level, texel (none for the border), and weight over 2^16 or, for nearest, 1 over 1. -/
structure Tap where
  level  : Nat
  texel  : Option (Nat × Nat)
  weight : Nat
deriving DecidableEq, Repr

/-- The texel that a pair of indexes names. -/
def tapTexel (d : Sampler) (i : Nat) (x y : Int) : Option (Nat × Nat) :=
  match wrapIndex d.wrapU (levelW d i) x, wrapIndex d.wrapV (levelH d i) y with
  | some a, some b => some (a, b)
  | _, _ => none

/-- The bilinear taps of a level that have a weight. -/
def bilTaps (d : Sampler) (s q : Fv) (i : Nat) : List Tap :=
  let x := sampleCoord s (levelW d i)
  let y := sampleCoord q (levelH d i)
  let fx := (x % 256).toNat
  let fy := (y % 256).toNat
  ([(0, 256 - fx), (1, fx)].map fun a => [(0, 256 - fy), (1, fy)].map fun b =>
    (⟨i, tapTexel d i (x / 256 + a.1) (y / 256 + b.1), a.2 * b.2⟩ : Tap)).flatten.filter fun t => t.weight ≠ 0

/-- The level or levels of a filter with their weights over 256. -/
def sampleLevels (d : Sampler) (lod : Fv) : List (Nat × Nat) :=
  let l := sampleLevel d lod
  if d.filt = 2 then
    let f := if l / 256 = d.levels - 1 then 0 else l % 256
    if f = 0 then [(l / 256, 256)] else [(l / 256, 256 - f), (l / 256 + 1, f)]
  else [((l + 128) / 256, 256)]

/-- The taps of a sample, with the weight of each level. -/
def sampleTaps (d : Sampler) (s q lod : Fv) : List (Nat × List Tap) :=
  (sampleLevels d lod).map fun lw =>
    (lw.2, if d.filt = 0 then
        let x := sampleCoord s (levelW d lw.1)
        let y := sampleCoord q (levelH d lw.1)
        [⟨lw.1, tapTexel d lw.1 ((x + 128) / 256) ((y + 128) / 256), 2 ^ 16⟩]
      else bilTaps d s q lw.1)

/-- A value of a texel's channel: finite and signed, an infinity, or a NaN. -/
def channelVal (d : Sampler) (l : List Byte) (c : Nat) : Fv ⊕ Sv :=
  match d.fmt with
  | 13 => .inr (Sv.ofQ (((l.getD c 0).toNat : Rat) / 255))
  | 4 => .inl (fp32.read (leNat ((l.drop (4 * c)).take 4)))
  | 6 => .inl (fp16.read (leNat ((l.drop (2 * c)).take 2)))
  | _ => .inl (bf16f.read (leNat ((l.drop (2 * c)).take 2)))

/-- A weighted sum over a power of two, rounded once; NaN and infinite terms as in a matrix step (R122, R388). -/
def weighted (l : List ((Fv ⊕ Sv) × Nat)) (den : Nat) : Nat :=
  let isN : (Fv ⊕ Sv) × Nat → Bool := fun x => match x.1 with | .inl v => v.isNaN | .inr _ => false
  let infs := l.filterMap fun x => match x.1 with
    | .inl (.inf n) => some n
    | _ => none
  if l.any isN then fp32.canon
  else match infs with
    | [] => (Sv.mul (Sv.sum (l.map fun x =>
        let v : Sv := match x.1 with
          | .inl v => (v.sv?).getD ⟨false, 0⟩
          | .inr v => v
        v.mul (Sv.ofQ (x.2 : Rat)))) (Sv.ofQ (1 / (den : Rat)))).bits
    | n :: ns => if ns.all (· == n) then fp32.infBits n else fp32.canon

/-- TSAMP.ADJ's contribution of an upstream gradient with a weight (R389). -/
def weightedGrad (g : Fv) (w den : Nat) : Nat := weighted [(.inl g, w)] den

/-! ### Edge samples (R390) -/

/-- The part of [lo, hi] in which p + λ·d lies in [c, c + 1]. -/
def clipEdge (p d : Rat) (c : Nat) (r : Option (Rat × Rat)) : Option (Rat × Rat) :=
  match r with
  | none => none
  | some (lo, hi) =>
    if d = 0 then (if (c : Rat) ≤ p && p ≤ (c : Rat) + 1 then some (lo, hi) else none)
    else
      let t1 := ((c : Rat) - p) / d
      let t2 := ((c : Rat) + 1 - p) / d
      let (a, b) := if d < 0 then (t2, t1) else (t1, t2)
      some (if lo < a then a else lo, if b < hi then b else hi)

/-- ESAMP of one lane. -/
def esampLane (e : List Nat) (pixel seed : Nat) : List Nat :=
  let zero := List.replicate 6 0
  match e.map fun w => (f32v w).sv? with
  | [some x0, some y0, some x1, some y1] =>
    let dx := Sv.sub x1 x0
    let dy := Sv.sub y1 y0
    let l2 := dx.q * dx.q + dy.q * dy.q
    match clipEdge y0.q dy.q (fld pixel 16 16) (clipEdge x0.q dx.q (fld pixel 0 16) (some (0, 1))) with
    | none => zero
    | some (a, b) =>
      if b ≤ a || l2 = 0 then zero
      else
        let lam := Sv.ofQ (a + (2 * (fld seed 0 16 : Rat) + 1) / 2 ^ 17 * (b - a))
        [ (Sv.sum [x0, lam.mul dx]).bits, (Sv.sum [y0, lam.mul dy]).bits, rootBits dy.neg (dy.q * dy.q / l2), rootBits (!dx.neg) (dx.q * dx.q / l2),
          rootBits false ((b - a) * (b - a) * l2), lam.bits ]
  | _ => zero

end Sys2Proof.Machine
end

