-- ==== Sys2Proof/Machine/Render.lean ====
section
/-! DEFINITION. The rendering words (R382 to R390): how they issue, and the move in which one has read memory and its results land. -/

namespace Sys2Proof.Machine

/-! ### Sources (R382) -/

/-- 32-bit values as the words of a log entry, the first lowest. -/
def packWords : List Nat → List Word
  | a :: b :: l => BitVec.ofNat 64 (a + b * 2 ^ 32) :: packWords l
  | [a] => [BitVec.ofNat 64 a]
  | [] => []

/-- The 32-bit values of an entry's words. -/
def unpackWords (l : List Word) : List Nat := (l.map fun w => [wfld w 0 32, wfld w 32 32]).flatten

namespace Ctx

/-- The registers of a group as numbers. -/
def groupWords (c : Ctx) (o : Opd) (n l : Nat) : List Nat := (c.readGroup o n l).map BitVec.toNat

/-- A 64-bit source as two 32-bit values. -/
def pairWords (c : Ctx) (o : Opd) (l : Nat) : List Nat := let v := c.rd .n64 o l; [v % 2 ^ 32, v / 2 ^ 32]

/-- A logged rendering word issues: addresses that are not aligned raise cause 7 at issue. -/
def renderIssue (c : Ctx) (k : Counts) (addr : Nat → Word) (align : Nat) (src : Nat → List Nat) : Out :=
  let bad := misaligned c.ls addr align
  c.logIssue c.s0 k bad (c.okLanes bad) (fun l => packWords (src l))

end Ctx

/-- RAYGEN (R383). The last value is THREAD mod 64. -/
def execRaygen (p : Pre) (d a b e : Opd) (s : State) : Host.Outcome State Fault Refusal :=
  word (.raygen p d a b e) s fun c =>
    c.renderIssue ⟨0, 0, 0, 1⟩ (c.read .n64 a) 64 fun l => c.pairWords a l ++ [c.rd .n32 b l, c.rd .n32 e l]

/-- TRACE (R384). -/
def execTrace (p : Pre) (d a b : Opd) (s : State) : Host.Outcome State Fault Refusal :=
  word (.trace p d a b) s fun c =>
    let root (l : Nat) : Word := let g := c.groupWords b 4 l; BitVec.ofNat 64 (g.getD 2 0 + g.getD 3 0 * 2 ^ 32)
    c.renderIssue ⟨0, 0, 0, 1⟩ root 64 fun l => c.groupWords a 6 l ++ c.groupWords b 4 l

/-- The gradient base of a `TRACE.ADJ`: its contributions move as `GSADD`'s, whose address is 4-aligned (R278, log 31). -/
def Ctx.gradBase (c : Ctx) (b : Opd) (l : Nat) : Word := let g := c.groupWords b 4 l; BitVec.ofNat 64 (g.getD 2 0 + g.getD 3 0 * 2 ^ 32)

/-- TRACE.ADJ.tri (R387). -/
def execTraceAdjTri (p : Pre) (a b e : Opd) (s : State) : Host.Outcome State Fault Refusal :=
  word (.traceAdjTri p a b e) s fun c =>
    c.renderIssue ⟨0, 1, 0, 0⟩ (c.gradBase b) 4 fun l => c.groupWords a 6 l ++ c.groupWords b 4 l ++ c.groupWords e 4 l

/-- TRACE.ADJ.patch (R387). -/
def execTraceAdjPatch (p : Pre) (a b e : Opd) (s : State) : Host.Outcome State Fault Refusal :=
  word (.traceAdjPatch p a b e) s fun c =>
    c.renderIssue ⟨0, 1, 0, 0⟩ (c.gradBase b) 4 fun l => c.groupWords a 6 l ++ c.groupWords b 4 l ++ c.groupWords e 4 l

/-- TSAMP (R388). -/
def execTsamp (p : Pre) (d a b e : Opd) (s : State) : Host.Outcome State Fault Refusal :=
  word (.tsamp p d a b e) s fun c =>
    c.renderIssue ⟨0, 0, 0, 1⟩ (c.read .n64 a) 32 fun l => c.pairWords a l ++ c.groupWords b 2 l ++ [c.rd .n32 e l]

/-- TSAMP.ADJ (R389): D names the quad of upstream gradients. -/
def execTsampAdj (p : Pre) (d a b e : Opd) (s : State) : Host.Outcome State Fault Refusal :=
  word (.tsampAdj p d a b e) s fun c =>
    c.renderIssue ⟨0, 1, 0, 0⟩ (c.read .n64 a) 32 fun l => c.pairWords a l ++ c.groupWords b 2 l ++ [c.rd .n32 e l] ++ c.groupWords d 4 l

/-- ESAMP (R390): not logged, no memory, no trap. -/
def execEsamp (p : Pre) (d a b e : Opd) (s : State) : Host.Outcome State Fault Refusal :=
  word (.esamp p d a b e) s fun c =>
    if c.act = 0 then .done c.s0
    else if !c.t.canRaise ⟨0, 0, 0, 1⟩ then .stall
    else .done (c.newEntry c.s0 false c.ls (fun l => packWords (c.groupWords a 4 l ++ [c.rd .n32 b l, c.rd .n32 e l])) ⟨0, 0, 0, 1⟩).2

/-! ### Reading (R382): as plain loads of the issuing thread -/

/-- Sectors that a read of a rendering word moves, in its word's sample (R314). -/
def State.movedFor (s : State) (b : By) (entry : Nat) (f : Leaf) (n : Nat) : State :=
  match b.lane with
  | some (crew, sid, _, l) => if s.samples.isEmpty then s else let k := s.sectorsMoved f [⟨l, f.at_, n, 0, 0⟩]; s.modSample crew sid entry fun x => { x with sectors := x.sectors + k }
  | none => s

/-- A plain load of a piece (R286, R243): from the core's L1 view where it holds the sectors and the part takes them there, else from a peer's on a ROC page
(R247), else at the home, with a fill where the part makes one. It counts as any load does (R254), and no older copy of the line is read afterwards (R287). -/
def State.readPlain (s : State) (b : By) (entry : Nat) (core : CoreId) (f : Leaf) (n : Nat) : Option (List Byte) × State :=
  let need := sectorsOf f.at_ n
  let line := lineOf f.at_
  let home (s : State) : Option (List Byte) × State :=
    match (s.movedFor b entry f n).readPiece b f n with
    | (none, s) => (none, s)
    | (some v, s) =>
      let s := if f.cp = 0 then s.copyFor (homeOf f.cp f.at_) line core b.team else s
      let s := (s.countCore core 1 1).dropOlder core line (s.lineState line).tag
      let (fill, s) := if f.cp = 2 then (false, s) else s.drawBit
      let (took, s) := if fill then s.fillIf core f b.secure b.asid need else (false, s)
      (some v, s.expand core (f.cmp && !took))
  let miss (s : State) : Option (List Byte) × State :=
    let s := s.coreSignal core 7 1
    if f.roc then
      match s.probe core line b.secure need with
      | (some e, s) => (some (e.bytes f.at_ n), ((s.movedFor b entry f n).countCore core 1 1).dropOlder core line e.tag)
      | (none, s) => home s
    else home s
  match s.l1Entry core line b.secure b.asid with
  | none => miss s
  | some e =>
    if e.sectors &&& need ≠ need then miss s
    else
      let (hit, s) := s.drawBit
      if hit then
        let (err, s) := s.drawError
        if err then (none, s.loseL1 core e) else (some (e.bytes f.at_ n), (s.hitL1 core e need).countCore core 1 1)
      else miss s

/-! ### Traversal (R384) -/

/-- A child entry of a node: its address, kind and count of triangles. Reserved bits, or a kind above 3, make it empty. -/
def childOf (node : List Byte) (k : Nat) : Nat × Nat × Nat :=
  let e := leNat ((node.drop (0x20 + 8 * k)).take 8)
  (fld e 6 51 * 64, if fld e 57 7 = 0 && fld e 0 3 ≤ 3 then fld e 0 3 else 0, fld e 3 3 + 1)

/-- The walk so far: nodes visited with the node children that the ray meets, and nodes still to visit. -/
structure Walking where
  seen : List (Nat × List Nat)
  todo : List Nat
  hits : List Hit
deriving DecidableEq, Repr

/-- The patch at an address: its header, its normals, its codes and pyramid. -/
def readPatch (rd : Nat → Nat → Rd (List Byte)) (va : Nat) : Rd (Option Patch) := do
  let h ← rd va 64
  let w := words32 h
  let d := patchDepth w
  let k := patchWidth w
  let (n, rest) ← bothRd (rd (patchNorm w) 36) (rd (va + 64) (gridBytes d k + 2 * k * pairCount d))
  pure (Patch.of? w (words32 n) rest)

/-- Hits of the primitives that a child entry names, for a `TRACE` of sources `v`. -/
def childHits (rd : Nat → Nat → Rd (List Byte)) (v : List Nat) (ray : Option Ray) (e : Nat × Nat × Nat) : Rd (List Hit) :=
  let (va, kind, n) := e
  match kind with
  | 2 => do
    let l ← mapRd (fun i => do
      let b ← rd (va + 48 * i) 48
      pure (ray.bind fun r => triHit r (words32 b))) (List.range n)
    pure (l.filterMap fun x => x)
  | 3 => do
    let p ← readPatch rd va
    pure (match ray, p with
      | some r, some q => q.hits r (Config.extraMicro v va)
      | _, _ => [])
  | _ => pure []

/-- The node children that the segment meets. -/
def metKids (rd : Nat → Nat → Rd (List Byte)) (ray : Option Ray) (l : List (Nat × Nat × Nat)) : Rd (List Nat) :=
  match ray with
  | none => pure []
  | some r => do
    let k ← mapRd (fun e => do
      let b ← rd e.1 64
      pure (if r.meets (words32 b) then some e.1 else none)) (l.filter fun e => e.2.1 == 1)
    pure (k.filterMap fun x => x)

/-- Nodes are visited one by one; one whose bytes are still to be read keeps none of the others from reading. -/
def walkNodes (rd : Nat → Nat → Rd (List Byte)) (v : List Nat) (ray : Option Ray) : Nat → Walking → Rd Walking
  | 0, w => .ok w
  | f + 1, w =>
    match w.todo with
    | [] => .ok w
    | a :: rest =>
      if w.seen.any fun x => x.1 == a then walkNodes rd v ray f { w with todo := rest }
      else
        let found := do
          let b ← rd a 64
          let es := (List.range 4).map (childOf b)
          bothRd (mapRd (childHits rd v ray) es) (metKids rd ray es)
        match found with
        | .ok (hs, ks) => walkNodes rd v ray f { seen := w.seen ++ [(a, ks)], todo := rest ++ ks, hits := w.hits ++ hs.flatten }
        | .error l => .error (l ++ lacks (walkNodes rd v ray f { w with seen := w.seen ++ [(a, [])], todo := rest }))

/-- Nodes left when those without a child that is left have been taken away, again and again: those of cycles and what leads to them. -/
def pruneLeaves : Nat → List (Nat × List Nat) → List (Nat × List Nat)
  | 0, l => l
  | f + 1, l => pruneLeaves f (l.filter fun x => x.2.any fun k => l.any fun y => y.1 == k)

/-- Some visited node reaches itself. -/
def hasCycle (l : List (Nat × List Nat)) : Bool := !(pruneLeaves l.length l).isEmpty

/-- TRACE of one lane: 10 source values. Every node visited but the root and those still to be read is named by a node that the lane has read, which names at
most four: with `m` pieces read the bound on the walk is never met. Candidates that tie in t, PRIM and micro index are an open choice of the ray and the scene (log 32, R21). -/
def traceLane (rd : Nat → Nat → Rd (List Byte)) (m : Nat) (v : List Nat) : Rd (List Nat) := do
  let ray := Ray.of? (v.take 6) (v.getD 6 0) (v.getD 7 0)
  let w ← walkNodes rd v ray (5 * (m + 2)) { seen := [], todo := [v.getD 8 0 + v.getD 9 0 * 2 ^ 32], hits := [] }
  if hasCycle w.seen then pure cycleResults
  else
    let best := nearest w.hits
    pure (match best[Config.traceTie v (best.map Hit.results) % best.length]? with
      | some h => h.results
      | none => missResults)

/-- TRACE.ADJ of one lane: 14 source values; destinations as addresses with FP32 bits. -/
def traceAdjLane (rd : Nat → Nat → Rd (List Byte)) (patch : Bool) (v : List Nat) : Rd (List (Nat × Nat)) := do
  let prim := v.getD 6 0 + v.getD 7 0 * 2 ^ 32
  let base := v.getD 8 0 + v.getD 9 0 * 2 ^ 32
  let g (k : Nat) : Fv := f32v (v.getD (10 + k) 0)
  let ps ← if patch then (do
      let p ← readPatch rd prim
      pure (match p, vecAt v 0, vecAt v 3 with
        | some q, some o, some d => q.partials o d (v.getD 13 0)
        | _, _, _ => none))
    else (do
      let b ← rd prim 48
      let w := words32 b
      pure (match vecAt v 0, vecAt v 3, vecAt w 0, vecAt w 3, vecAt w 6 with
        | some o, some d, some p0, some p1, some p2 => triPartials o d p0 p1 p2
        | _, _, _, _, _ => none))
  pure ((contributions (g 0) (g 1) (g 2) (ps.getD [])).map fun x => (base + x.1, x.2))

/-! ### Sampling (R388, R389) -/

/-- A tap's channels. -/
def readTap (rd : Nat → Nat → Rd (List Byte)) (d : Sampler) (t : Tap) : Rd (List (Fv ⊕ Sv)) :=
  match t.texel with
  | none => pure (List.replicate d.ch (.inl (f32v d.border)))
  | some (x, y) => do
    let b ← rd (d.tex + texelOff d d.texel t.level x y) d.texel
    pure ((List.range d.ch).map (channelVal d b))

/-- One level's value in each channel, rounded once. -/
def readLevel (rd : Nat → Nat → Rd (List Byte)) (d : Sampler) (l : List Tap) : Rd (List Nat) := do
  let vs ← mapRd (readTap rd d) l
  pure ((List.range d.ch).map fun c => weighted ((vs.zip l).map fun q => (q.1.getD c (.inl (f32v 0)), q.2.weight)) (2 ^ 16))

/-- TSAMP of one lane: 5 source values. A descriptor field outside R233's values gives open results (log 33). -/
def tsampLane (rd : Nat → Nat → Rd (List Byte)) (v : List Nat) : Rd (List Nat) := do
  let b ← rd (v.getD 0 0 + v.getD 1 0 * 2 ^ 32) 32
  let d := Sampler.ofBytes b
  let s := f32v (v.getD 2 0)
  let q := f32v (v.getD 3 0)
  if s.isNaN || q.isNaN then pure (List.replicate d.ch fp32.canon)
  else if !d.ok then pure ((List.range d.ch).map fun i => (Config.badSample b v i).toNat)
  else
    let ls := sampleTaps d s q (f32v (v.getD 4 0))
    let vs ← mapRd (fun x => readLevel rd d x.2) ls
    pure (match vs, ls with
      | [a], _ => a
      | [a, b], [x, y] => (List.range d.ch).map fun c => weighted [(.inl (f32v (a.getD c 0)), x.1), (.inl (f32v (b.getD c 0)), y.1)] 256
      | _, _ => [])

/-- TSAMP.ADJ of one lane: 9 source values. -/
def tsampAdjLane (rd : Nat → Nat → Rd (List Byte)) (v : List Nat) : Rd (List (Nat × Nat)) := do
  let b ← rd (v.getD 0 0 + v.getD 1 0 * 2 ^ 32) 32
  let d := Sampler.ofBytes b
  let s := f32v (v.getD 2 0)
  let q := f32v (v.getD 3 0)
  if s.isNaN || q.isNaN || !d.ok then pure []
  else
    let one (lw : Nat) (t : Tap) : List (Nat × Nat) := match t.texel with
      | none => []
      | some (x, y) => (List.range d.ch).map fun c =>
        (d.grad / 4 * 4 + texelOff d (4 * d.ch) t.level x y + 4 * c, weightedGrad (f32v (v.getD (5 + c) 0)) (t.weight * lw) (2 ^ 24))
    pure (((sampleTaps d s q (f32v (v.getD 4 0))).map fun x => (x.2.map (one x.1)).flatten).flatten)

/-! ### Results -/

/-- What a lane of a rendering word comes to. -/
inductive Drawn where
  | regs (l : List Nat)
  | adds (l : List (Nat × Nat))
deriving DecidableEq, Repr

/-- The places that contributions go to, or a cause with its address and tier flag: a gradient page must have W = 1 and CP = 0 (R278, R387). -/
def State.gradPlaces (s : State) (b : By) : List (Nat × Nat) → Except (Nat × Nat × Bool) (List (Leaf × Nat)) × State
  | [] => (.ok [], s)
  | (va, v) :: l =>
    match s.leafFor b .store va with
    | (.fail c a, s) => (.error (c, va, a), s)
    | (.ok f, s) =>
      if f.cp ≠ 0 then (.error (6, va, false), s)
      else
        let (r, s) := s.gradPlaces b l
        (r.map ((f, v) :: ·), s)

/-- One lane of a rendering word, from its sources and the pieces that it has read. -/
def drawLane (got : List LaneRead) (i : Instr) (thread : Nat) (v : List Nat) : Rd Drawn := do
  let rd := haveVa got
  match i with
  | .raygen .. =>
    let w ← rd (v.getD 0 0 + v.getD 1 0 * 2 ^ 32) 64
    pure (.regs (raygenLane (words32 w) (v.getD 2 0) (v.getD 3 0) (thread % 64)))
  | .trace .. => do let r ← traceLane rd got.length v; pure (.regs r)
  | .traceAdjTri .. => do let r ← traceAdjLane rd false v; pure (.adds r)
  | .traceAdjPatch .. => do let r ← traceAdjLane rd true v; pure (.adds r)
  | .tsamp .. => do let r ← tsampLane rd v; pure (.regs r)
  | .tsampAdj .. => do let r ← tsampAdjLane rd v; pure (.adds r)
  | _ => pure (.regs (esampLane (v.take 4) (v.getD 4 0) (v.getD 5 0)))

/-- The destination group of a rendering word. -/
def renderDest : Instr → Option Opd
  | .raygen _ d .. | .trace _ d .. | .tsamp _ d .. | .esamp _ d .. => some d
  | _ => none

/-- Contributions of a lane leave as `GSADD` messages, one for each line (R278, R286). -/
def State.sendAdds (s : State) (c : Crew) (t : Strand) (e : Entry) (l : Nat) (fs : List (Leaf × Nat)) : State :=
  let core := c.coreOf t.sid
  let num := (List.range fs.length).zip fs
  (dedup (fs.map fun q => lineOf q.1.at_)).foldl (fun s line =>
    let mine := num.filter fun q => lineOf q.2.1.at_ == line
    match mine.head? with
    | none => s
    | some (_, f, _) =>
      let s := mine.foldl (fun s q => s.dropSectors core line (sectorsOf q.2.1.at_ 4)) s
      s.post { baseMsg c t e .gsadd [l] with
        point := homeOf 0 f.at_, line := line, leaf := f,
        acts := mine.map fun q => ⟨l, q.2.1.at_, 4, BitVec.ofNat 64 q.2.2, BitVec.ofNat 64 q.1⟩ })
    (s.markSent c t e [l])

/-- A lane's access raises a cause, which waits for a boundary; what the lane has read is forgotten, and read again when it issues again (R206, R207). -/
def State.drawFault (s : State) (c : Crew) (t : Strand) (e : Entry) (l : Nat) (x : Nat × Nat × Bool) : State :=
  s.modEntry c.id t.sid e.id fun e =>
    { e with faults := e.faults ++ [laneFault l x.1 x.2.1 (match renderDest (wordOf e.word) with | some _ => 1 | none => 2) x.2.2],
             reads := e.reads.filter fun r => r.lane != l }

/-- A lane makes one of the reads that it still lacks, where no older access of its thread to that line is open (R286, R287). -/
def State.drawRead (s : State) (b : By) (c : Crew) (t : Strand) (e : Entry) (l : Nat) (p : Nat × Nat) : State :=
  if t.lineOpen (some e.id) l (BitVec.ofNat 64 p.1) then s
  else match s.leafFor b .load p.1 with
  | (.fail k a, s) => s.drawFault c t e l (k, p.1, a)
  | (.ok f, s) =>
    if s.lineInFlight c t f [l] then s
    else match s.answered f with
    | (false, s) => s.drawFault c t e l (6, p.1, false)
    | (true, s) => match s.readPlain b e.id (c.coreOf t.sid) f p.2 with
      | (none, s) => s.drawFault c t e l (9, p.1, false)
      | (some v, s) => s.modEntry c.id t.sid e.id fun e => { e with reads := e.reads ++ [⟨l, p.1, v⟩] }

/-- Cause of a destination group whose size the sampler's channels give, and so is known only with the results (R64, R382, log 33). -/
def groupFault (d : Opd) (n limit : Nat) : Option Nat :=
  match d with
  | .v k => if (n = 2 && k.toNat % 2 ≠ 0) || (n = 4 && k.toNat % 4 ≠ 0) then some 3 else if limit < k.toNat + n then some 4 else none
  | _ => none

/-- One lane's turn: it makes one of the reads that it lacks, of several the part picks one; with all of them made its results land whole, or wait for their
tile (`land`, R97), or a cause is recorded and nothing is written (R382, R206). Contributions leave once no older access of the thread to their lines is
open (R286). -/
def State.renderLane (s : State) (c : Crew) (t : Strand) (e : Entry) (land : Bool) (l : Nat) : State :=
  let i := wordOf e.word
  let b : By := { asid := c.asid, secure := c.secure, team := (sidTeam? t.sid).map fun r => (c.id, r), who := c.who t.sid l,
                  src := { src := 0, chan := 0, tmpl := 0, retired := false }, lane := some (c.id, t.sid, e.inH, l) }
  let thread := match t.sid with
    | .wave _ w => 32 * w + l
    | _ => 0
  match drawLane (e.got l) i thread (unpackWords (e.srcOf l)) with
  | .error ps =>
    let (k, s) := s.drawIndex ps.length
    (match ps[k]? with
      | some p => s.drawRead b c t e l p
      | none => s)
  | .ok (.regs r) =>
    if !land then s.markSent c t e [l] else
    let cx := entryCtx s c t e
    match renderDest i with
    | some d => (match groupFault d r.length (if e.inH then 8 else c.desc.w0lim) with
      | some k => s.drawFault c t e l (k, (e.ea l).toNat, false)
      | none => (if (t.thread l).exited then s else (cx.writeGroup d l (r.map (BitVec.ofNat 32)) s).lastLane c.id t.sid e l).complete c.id t.sid e.id (1#32 <<< l))
    | none => s.complete c.id t.sid e.id (1#32 <<< l)
  | .ok (.adds r) =>
    if r.any fun x => t.lineOpen (some e.id) l (BitVec.ofNat 64 x.1) then s
    else match s.gradPlaces b r with
    | (.error x, s) => s.drawFault c t e l x
    | (.ok fs, s) =>
      if fs.isEmpty then s.complete c.id t.sid e.id (1#32 <<< l)
      else if fs.any fun q => s.lineInFlight c t q.1 [l] then s
      else s.sendAdds c t e l fs

/-- A word of the rendering engines. -/
def isDrawing (i : Instr) : Bool := isRender i || (match i with | .esamp .. => true | _ => false)

/-- RENDER_RESULT (R382): a turn of each lane of a rendering word that still waits for its results, ascending, where its thread's older accesses have been
sent and no older acquire holds it back (R286, R289); a tile that its results go to may hold them (R97). -/
def execRenderResult (crew : Nat) (sid : Sid) (entry : Nat) (s : State) : Host.Outcome State Fault Refusal :=
  .next (match s.crew? crew, s.strand? crew sid, s.entry? crew sid entry with
    | some c, some t, some e =>
      if !isDrawing (wordOf e.word) then s
      else
        let open_ (l : Nat) : Bool := !e.faultLanes.getLsbD l && (!e.sent.getLsbD l || (renderDest (wordOf e.word)).isSome)
          && (!isRender (wordOf e.word) || t.nextOf e l)
        ((lanesOf e.undone).filter open_).foldl (fun s l => s.renderLane c t e (!s.lateHeld c t e) l) s
    | _, _, _ => s)

end Sys2Proof.Machine
end

