-- ==== Sys2Proof/Machine/Tape.lean ====
section
/-! DEFINITION. The tape engine (R370 to R381): a thread's tape share, its spans and blocks, spill, discard and refill, and the recompute call. -/

namespace Sys2Proof.Machine

/-! ### The share (R371) -/

/-- A tape share, with the Cullet entries that a word is about to write: their bytes stand at `cbase + at0` (R374). -/
structure Tape where
  top   : Nat
  used  : Nat
  hdr   : Nat
  nbuf  : Nat
  recd  : Bool            -- REC
  ctv   : Bool
  nres  : Nat
  cbase : Nat
  csize : Nat
  cused : Nat
  ctop  : Nat             -- 16 bytes
  buf   : List Nat
  ring  : List Byte
  at0   : Nat
  out   : List Byte
deriving DecidableEq, Repr

def Tape.ofBytes (l : List Byte) : Tape :=
  let n (a k : Nat) : Nat := leNat ((l.drop a).take k)
  let c := n 0 8
  { top := fld c 0 11, used := fld c 11 11, hdr := fld c 22 11, nbuf := fld c 33 4, recd := fld c 37 1 = 1, ctv := fld c 38 1 = 1, nres := fld c 39 7,
    cbase := n 8 8, csize := n 16 4, cused := n 20 4, ctop := n 24 16, buf := (List.range 8).map fun i => n (40 + 4 * i) 4, ring := l.drop 72,
    at0 := n 20 4, out := [] }

/-- The control word (R371). -/
def Tape.control (t : Tape) : Nat :=
  t.top + t.used * 2 ^ 11 + t.hdr * 2 ^ 22 + t.nbuf * 2 ^ 33 + b2n t.recd * 2 ^ 37 + b2n t.ctv * 2 ^ 38 + t.nres * 2 ^ 39

def Tape.bytes (t : Tape) : List Byte :=
  leBytes 8 t.control ++ leBytes 8 t.cbase ++ leBytes 4 t.csize ++ leBytes 4 t.cused ++ leBytes 16 t.ctop ++ (t.buf.map (leBytes 4)).flatten ++ t.ring

namespace Tape

/-- Bytes of the ring. -/
def size (t : Tape) : Nat := t.ring.length

def get (t : Tape) (off n : Nat) : List Byte := (List.range n).map fun i => t.ring.getD ((off + i) % t.size) 0

def put (t : Tape) (off : Nat) (l : List Byte) : Tape :=
  { t with ring := ((List.range l.length).zip l).foldl (fun r q => listSet r ((off + q.1) % t.size) q.2) t.ring }

/-- Store bytes: the ring grows downward (R372). -/
def store (t : Tape) (l : List Byte) : Tape :=
  let top := (t.top + t.size - l.length) % t.size
  ({ t with top := top, used := t.used + l.length }).put top l

/-- Free bytes at TOP. -/
def free (t : Tape) (n : Nat) : Tape := { t with top := (t.top + n) % t.size, used := t.used - n }

/-! ### Spans (R373) -/

/-- The two words of a span header as one 128-bit number. -/
def head (t : Tape) (off : Nat) : Nat := leNat (t.get off 16)

def hBytes (h : Nat) : Nat := fld h 0 12
def hWords (h : Nat) : Nat := fld h 12 15
def hRc (h : Nat) : Bool := fld h 27 1 = 1
def hDisc (h : Nat) : Bool := fld h 28 1 = 1
def hKey (h : Nat) : Nat := fld h 32 32
def hEntry (h : Nat) : Nat := fld h 64 64

/-- A header with its own counts. -/
def header (bytes words : Nat) (rc disc : Bool) (key entry : Nat) : Nat :=
  bytes % 2 ^ 12 + words % 2 ^ 15 * 2 ^ 12 + b2n rc * 2 ^ 27 + b2n disc * 2 ^ 28 + key % 2 ^ 32 * 2 ^ 32 + entry % 2 ^ 64 * 2 ^ 64

/-- Header of the oldest resident span: the highest 16 of the bytes held. -/
def oldest (t : Tape) : Nat := (t.top + t.used + t.size - 16) % t.size

/-- From a header down to the one n spans newer: each span's blocks stand below its header. -/
def newer (t : Tape) (h : Nat) : Nat → Nat
  | 0 => h
  | n + 1 => t.newer ((h + 3 * t.size - hBytes (t.head h) - 16) % t.size) n

/-- Header of the newest resident span. -/
def newest (t : Tape) : Nat := t.newer t.oldest (t.nres - 1)

/-- Bytes of a Cullet entry (R374). -/
def entrySize (h : Nat) : Nat := if hDisc h then 32 else 32 * ((16 + hBytes h + 31) / 32)

/-- A lane raises a cause, with the address it names. -/
abbrev Res (α : Type) := α ⊕ (Nat × Nat)

/-- `Need` (R374); `keep` says that the newest span receives the bytes. Each round spills or discards the oldest span. -/
def need (b : Nat) (keep : Bool) : Nat → Tape → Res Tape
  | 0, _ => .inr (3, 0)
  | f + 1, t =>
    if b ≤ t.size - t.used then .inl t
    else if t.nres = 0 || (keep && t.nres = 1) then .inr (3, 0)
    else
      let o := t.oldest
      let h := t.head o
      let n := hBytes h
      let h' := if hRc h then header n (hWords h) true true (hKey h) (hEntry h) else h
      let e : List Byte := if hRc h then List.replicate 16 0 ++ leBytes 16 h'
        else t.get (o + t.size - n) n ++ List.replicate (entrySize h - 16 - n) 0 ++ leBytes 16 h'
      need b keep f { t with out := t.out ++ e, cused := t.cused + e.length, ctop := h', ctv := true, used := t.used - (16 + n), nres := t.nres - 1 }

/-- A block of words, encoded (R372). -/
def encode (ws : List Nat) : List Byte :=
  BitVec.ofNat 8 (((List.range ws.length).zip ws).map fun q => if q.2 = 0 then 0 else 2 ^ q.1).sum :: ((ws.filter (· ≠ 0)).map (leBytes 4)).flatten

/-- `Flush` (R374). -/
def flush (t : Tape) : Res Tape :=
  if t.nbuf = 0 then .inl t
  else
    let e := encode (t.buf.take t.nbuf)
    match need e.length true 256 t with
    | .inr c => .inr c
    | .inl t =>
      let t := t.store e
      let h := t.head t.hdr
      .inl { t.put t.hdr (leBytes 16 (header (hBytes h + e.length) (hWords h + t.nbuf) (hRc h) (hDisc h) (hKey h) (hEntry h))) with nbuf := 0 }

/-- One word recorded (R375). -/
def push (t : Tape) (w : Nat) : Res Tape :=
  let t := { t with buf := listSet t.buf t.nbuf w, nbuf := t.nbuf + 1 }
  if t.nbuf = 8 then t.flush else .inl t

def pushAll (t : Tape) : List Nat → Res Tape
  | [] => .inl t
  | w :: l => match t.push w with
    | .inl t => t.pushAll l
    | r => r

/-- `TREC` of one lane (R375). -/
def record (t : Tape) (ws : List Nat) : Res Tape := if t.nres = 0 then .inr (3, 0) else t.pushAll ws

/-- A span opened (R376). -/
def openSpan (t : Tape) (rc : Bool) (entry key : Nat) : Res Tape :=
  if t.recd then .inr (3, 0)
  else if rc && (entry % 8 ≠ 0 || 2 ^ 57 ≤ entry) then .inr (7, entry)
  else match t.flush with
    | .inr c => .inr c
    | .inl t => match need 16 false 256 t with
      | .inr c => .inr c
      | .inl t => let t := t.store (leBytes 16 (header 0 0 rc false key entry)); .inl { t with hdr := t.top, nres := t.nres + 1 }

/-- `TSPAN.area` (R376); no form of `TSPAN` acts while REC is 1 (R379). -/
def area (t : Tape) (a b : Nat) : Res Tape :=
  if t.recd || t.cused ≠ 0 || a % 32 ≠ 0 || b % 32 ≠ 0 then .inr (3, 0) else .inl { t with cbase := a, csize := b }

/-! ### Popping (R377 to R379) -/

/-- How a pop comes out: its words, newest first; or the Cullet's top entry is needed, the ring being empty. -/
inductive Pop where
  | val (out : List Nat) (t : Tape)
  | refill (t : Tape)
  | call (t : Tape)
  | fail
deriving DecidableEq, Repr

/-- The newest block decoded into the buffer. -/
def decodeTop (t : Tape) : Tape :=
  let h := t.head t.hdr
  let cnt := if hWords h % 8 = 0 then 8 else hWords h % 8
  let mask := leNat (t.get t.top 1)
  let data := t.get (t.top + 1) 32
  let word (i : Nat) : Nat :=
    if fld mask i 1 = 1 then leNat ((data.drop (4 * ((List.range i).filter fun j => fld mask j 1 = 1).length)).take 4) else 0
  let n := 1 + 4 * ((List.range 8).filter fun j => fld mask j 1 = 1).length
  let t := { t.free n with buf := (List.range 8).map fun i => if i < cnt then word i else t.buf.getD i 0, nbuf := cnt }
  t.put t.hdr (leBytes 16 (header (hBytes h - n) (hWords h - cnt) (hRc h) (hDisc h) (hKey h) (hEntry h)))

def popLoop (k : Nat) : Nat → List Nat → Tape → Pop
  | 0, _, _ => .fail
  | f + 1, out, t =>
    if out.length = k then .val out t
    else if t.nbuf > 0 then popLoop k f (out ++ [t.buf.getD (t.nbuf - 1) 0]) { t with nbuf := t.nbuf - 1 }
    else if t.nres > 0 && hWords (t.head t.hdr) > 0 then popLoop k f out t.decodeTop
    else if !out.isEmpty then .fail
    else if t.nres > 0 then
      let t := { t.free 16 with nres := t.nres - 1 }
      popLoop k f out (if t.nres > 0 then { t with hdr := t.newest } else t)
    else if !t.ctv then .fail
    else if hDisc t.ctop then .call t
    else .refill t

/-- `TPOP` of k words (R377). -/
def pop (t : Tape) (k : Nat) : Pop := if t.recd then .fail else popLoop k 300 [] t

/-- Cullet bytes that a refill reads: the top entry, with the next header below it where there is one (R378). -/
def refillSpan (t : Tape) : Nat × Nat :=
  let n := entrySize t.ctop
  let m := if t.cused > n then n + 16 else n
  (t.cbase + t.cused - m, m)

/-- `Refill` (R378), given those bytes. -/
def refill (t : Tape) (l : List Byte) : Tape :=
  let n := entrySize t.ctop
  let e := l.drop (l.length - n)
  let h := leNat (e.drop (n - 16))
  let t := t.store (leBytes 16 h)
  let t := { t with hdr := t.top, nres := 1, cused := t.cused - n }
  let t := t.store (e.take (hBytes h))
  if t.cused ≠ 0 then { t with ctop := leNat (l.take 16) } else { t with ctv := false }

/-- `RecomputeCall` in the share (R379): the key, the entry and the share; the next top header is loaded by itself. -/
def call (t : Tape) : Nat × Nat × Tape :=
  let h := t.ctop
  let t := t.store (leBytes 16 (header 0 0 true false (hKey h) (hEntry h)))
  let t := { t with hdr := t.top, nres := 1, cused := t.cused - 32, recd := true }
  (hKey h, hEntry h, if t.cused = 0 then { t with ctv := false } else t)

end Tape

/-! ### Shares of a team -/

/-- Thread of a lane in its team. -/
def threadOf (sid : Sid) (lane : Nat) : Nat :=
  match sid with
  | .wave _ w => 32 * w + lane
  | _ => 0

def State.shareBytes (s : State) (c : Crew) (sid : Sid) (lane : Nat) : List Byte :=
  match s.team? c.id ((sidTeam? sid).getD 0) with
  | some tm => tm.padBytes (c.sharePad (threadOf sid lane)) c.desc.tape
  | none => []

/-- A lane's share meets an uncorrectable error (R257). -/
def State.shareLost (s : State) (c : Crew) (sid : Sid) (lane : Nat) : Bool :=
  match s.team? c.id ((sidTeam? sid).getD 0) with
  | some tm => tm.padLost (c.sharePad (threadOf sid lane)) c.desc.tape
  | none => false

/-- The tape engine reports it to the host as an engine error (R257, R346: ECODE 3); the word raises cause 9 in that lane (log 79). -/
def State.tapeError (s : State) (c : Crew) (sid : Sid) (lane : Nat) : State :=
  s.event 10 c.die (c.who sid lane) { aux := 3, access := 3, pc := (c.who sid lane).pc }

/-- A share written. -/
def State.setShare (s : State) (c : Crew) (sid : Sid) (lane : Nat) (l : List Byte) : State :=
  let r := (sidTeam? sid).getD 0
  let k := c.sharePad (threadOf sid lane)
  (s.modTeam c.id r fun tm => tm.setPad k l).padWritten c.id r k l.length

/-- The tape engine acts for a lane (R320: source 3). -/
def State.byTape (s : State) (c : Crew) (sid : Sid) (lane : Nat) : By :=
  { asid := c.asid, secure := c.secure, team := (sidTeam? sid).map fun r => (c.id, r), who := c.who sid lane,
    src := { src := 3, chan := 0, tmpl := 0, retired := s.retired c.id sid }, lane := none }

/-- A piece of a lane's spill or discard leaves for its line: a write of the tape engine, ordered with nothing but the refill of its span (R374, R292). -/
def State.postSpill (s : State) (c : Crew) (sid : Sid) (lane : Nat) (f : Leaf) (bytes : List Byte) : State :=
  let (e, s) := s.newId
  let acts := (List.range ((bytes.length + 15) / 16)).map fun i =>
    let b := (bytes.drop (16 * i)).take 16
    ({ lane := lane, key := f.at_ + 16 * i, size := b.length, b := 0, c := 0 } : Act).fill b
  s.post { id := 0, crew := c.id, sid := sid, entry := e, kind := .spill, word := 0, point := homeOf f.cp f.at_, line := lineOf f.at_, leaf := f, acts := acts,
           phase := .out, tag := 0, bad := false, held := false, sys := false, core := c.coreOf sid, secure := c.secure, asid := c.asid, who := c.who sid lane }

def State.postSpills (s : State) (c : Crew) (sid : Sid) (lane : Nat) : List (Leaf × Nat) → List Byte → State
  | [], _ => s
  | (f, n) :: l, bytes => (s.postSpill c sid lane f (bytes.take n)).postSpills c sid lane l (bytes.drop n)

/-- Spill and discard writes of a lane that are still to be applied. -/
def State.spilling (s : State) (crew : Nat) (sid : Sid) (lane : Nat) : List Msg :=
  s.msgs.filter fun m => m.kind == .spill && m.crew == crew && m.sid == sid && m.acts.any fun x => x.lane == lane

/-- The entries of a word leave for the Cullet, once it has passed its checks (R374); the share follows at once. -/
def State.commitTape (s : State) (c : Crew) (sid : Sid) (lane : Nat) (t : Tape) : State × Option (Nat × Nat × Bool) :=
  if t.out.isEmpty then (s.setShare c sid lane t.bytes, none)
  else if t.cbase = 0 || t.csize < t.cused then (s, some (3, 0, false))
  else match s.leavesFor (s.byTape c sid lane) .store (spans (t.cbase + t.at0) t.out.length) with
    | (.inr (k, v, ab), s) => (s, some (k, v, ab))
    | (.inl fs, s) => ((s.postSpills c sid lane fs t.out).setShare c sid lane t.bytes, none)

/-- Translation of Cullet bytes, as R374 makes it. -/
def State.cullet (s : State) (c : Crew) (sid : Sid) (lane : Nat) (sp : Nat × Nat) : Option (Nat × Nat × Bool) × State :=
  match s.leavesFor (s.byTape c sid lane) .store (spans sp.1 sp.2) with
  | (.inr r, s) => (some r, s)
  | (.inl _, s) => (none, s)

/-- A lane leaves its path for a recompute entry as a path of its own (R379). -/
def Strand.splitOff (t : Strand) (lane : Nat) (pc prev : Word) : Strand :=
  let m : Lanes := 1#32 <<< lane
  let cutL (p : Path) : Path := { p with lanes := p.lanes &&& ~~~m }
  let new (p : Path) : Path := { p.atBoundary pc prev with id := t.nextId, lanes := m, crank := t.nextId, lone := false, yielded := false, starve := 0 }
  match t.paths.find? fun p => p.lanes.getLsbD lane with
  | some p => { t with paths := (t.paths.map cutL) ++ [new p], nextId := t.nextId + 1 }
  | none => match t.intr with
    | none => t
    | some i => match (i.path :: i.held).find? fun p => p.lanes.getLsbD lane with
      | some p => { t with intr := some { i with path := cutL i.path, held := i.held.map cutL ++ [new p] }, nextId := t.nextId + 1 }
      | none => t

/-- RLINK after a recompute call (R379). -/
def recomputeLink (pc : Word) (pos : Nat) : Word := BitVec.ofNat 64 (wfld pc 0 57 + pos % 32 * 2 ^ 59)

/-- A recompute call of a lane (R379). -/
def State.recompute (cx : Ctx) (ty : Ty) (d : Opd) (lane : Nat) (pc : Word) (pos key entry : Nat) (s : State) : State :=
  let s := cx.write ty d lane (BitVec.ofNat 64 key) s
  let s := s.modThread cx.id cx.sid lane fun h => { h with rlink := recomputeLink pc pos }
  s.modStrand cx.id cx.sid fun t => t.splitOff lane (BitVec.ofNat 64 entry) pc

/-- Words of a popped value. -/
def popVal (out : List Nat) : Word := BitVec.ofNat 64 (if out.length = 2 then out.getD 1 0 + out.getD 0 0 * 2 ^ 32 else out.headD 0)

namespace Ctx

/-- Why a tape word does not act: a share below 128 bytes (R371), or a refill of one of its lanes (R378). -/
def tapeGate (c : Ctx) : Option Out :=
  if c.act = 0 then some (.done c.s0)
  else if c.crew.desc.tape < 128 then some (raiseAll c 0 3)
  else if c.t.refilling &&& c.act ≠ 0 then some .stall
  else none

/-- A word that changes the share of each guarded lane in turn. -/
def tapeWord (c : Ctx) (f : Nat → Tape → Tape.Res Tape) : Out :=
  match c.tapeGate with
  | some o => o
  | none =>
    let r := c.ls.foldl (fun (q : State × List LaneFault) l =>
      if q.1.shareLost c.crew c.sid l then (q.1.tapeError c.crew c.sid l, q.2 ++ [laneFault l 9 0 1 false]) else
      match f l (Tape.ofBytes (q.1.shareBytes c.crew c.sid l)) with
      | .inr (k, a) => (q.1, q.2 ++ [laneFault l k a 0 false])
      | .inl t => match q.1.commitTape c.crew c.sid l t with
        | (s, none) => (s, q.2)
        | (s, some (k, v, ab)) => (s, q.2 ++ [laneFault l k v 2 ab])) (c.s0, [])
    if r.2.isEmpty then .done r.1 else .raise r.1 0 r.2

/-- The pop fails once its refills are made, as the Cullet's bytes stand when the lane's spills are applied: an illegal operand at the word's execution
(R195, R378). -/
def popFails (c : Ctx) (s : State) (l k : Nat) : Nat → Tape → Bool
  | 0, _ => false
  | n + 1, tp => match tp.pop k with
    | .fail => true
    | .refill tp' => match (s.loadVa (s.byTape c.crew c.sid l) tp'.refillSpan.1 tp'.refillSpan.2).1 with
      | .ok b => c.popFails s l k n (tp'.refill b)
      | .fail _ _ _ => false
    | _ => false

/-- What `TPOP` finds in one lane, with the Cullet bytes translated: nothing has changed. -/
def popPlan (c : Ctx) (k : Nat) (s : State) (l : Nat) : (Tape.Pop ⊕ LaneFault) × State :=
  if s.shareLost c.crew c.sid l then (.inr (laneFault l 9 0 1 false), s.tapeError c.crew c.sid l) else
  match (Tape.ofBytes (s.shareBytes c.crew c.sid l)).pop k with
  | .fail => (.inr (laneFault l 3 0 0 false), s)
  | .val o t => (.inl (.val o t), s)
  | .refill t => match s.cullet c.crew c.sid l t.refillSpan with
    | (none, s) => (if c.popFails ((s.spilling c.id c.sid l).foldl (fun s m => s.changeMsg m.id) s) l k (t.cused / 32 + 1) (Tape.ofBytes (s.shareBytes c.crew c.sid l)) then .inr (laneFault l 3 0 0 false) else .inl (.refill t), s)
    | (some (e, v, ab), s) => (.inr (laneFault l e v 1 ab), s)
  | .call t =>
    if t.cused ≤ 32 then (.inl (.call t), s)
    else match s.cullet c.crew c.sid l (t.cbase + t.cused - 48, 16) with
      | (none, s) => (.inl (.call t), s)
      | (some (e, v, ab), s) => (.inr (laneFault l e v 1 ab), s)

end Ctx

/-- A pop needs the Cullet, and so the load counter (R378, R379). -/
def Tape.Pop.loads : Tape.Pop → Bool
  | .refill _ => true
  | .call t => t.cused > 32
  | _ => false

/-- TREC (R375). -/
def execTrec (p : Pre) (t : Ty) (a : Opd) (s : State) : Host.Outcome State Fault Refusal :=
  word (.trec p t a) s fun c =>
    c.tapeWord fun l tp => let v := c.rd t a l; tp.record (if t.is64 then [v % 2 ^ 32, v / 2 ^ 32] else [v])

/-- TSPAN (R376). -/
def execTspan (p : Pre) (s : State) : Host.Outcome State Fault Refusal :=
  word (.tspan p) s fun c => c.tapeWord fun _ tp => tp.openSpan false 0 0

/-- TSPAN.rc (R376). -/
def execTspanRc (p : Pre) (a b : Opd) (s : State) : Host.Outcome State Fault Refusal :=
  word (.tspanRc p a b) s fun c => c.tapeWord fun l tp => tp.openSpan true (c.rd .n64 a l) (c.rd .n32 b l)

/-- TSPAN.area (R376). -/
def execTspanArea (p : Pre) (a b : Opd) (s : State) : Host.Outcome State Fault Refusal :=
  word (.tspanArea p a b) s fun c => c.tapeWord fun l tp => tp.area (c.rd .n64 a l) (c.rd .n32 b l)

/-- TPOP (R377 to R379). A refill leaves the share as it stood before the word until its data is back; an entry of the word stands for the lanes
that wait, and holds the load counter raised. -/
def execTpop (p : Pre) (t : Ty) (d : Opd) (s : State) : Host.Outcome State Fault Refusal :=
  word (.tpop p t d) s fun c =>
    match c.tapeGate with
    | some o => o
    | none =>
      let k := if t.is64 then 2 else 1
      let r := c.ls.foldl (fun (q : State × List (Nat × Tape.Pop) × List LaneFault) l =>
        match c.popPlan k q.1 l with
        | (.inl o, s) => (s, q.2.1 ++ [(l, o)], q.2.2)
        | (.inr e, s) => (s, q.2.1, q.2.2 ++ [e])) (c.s0, [], [])
      let waits := (r.2.1.filter fun x => x.2.loads).map Prod.fst
      if !waits.isEmpty && !c.t.canRaise ⟨1, 0, 0, 0⟩ then .stall
      else
        let (e, s) := if waits.isEmpty then (0, r.1) else c.newEntry r.1 false waits (fun _ => [c.addr]) ⟨1, 0, 0, 0⟩
        let s := r.2.1.foldl (fun s x =>
          let (l, o) := x
          match o with
          | .val out tp => c.write t d l (popVal out) (s.setShare c.crew c.sid l tp.bytes)
          | .call tp =>
            let (key, ent, tp') := tp.call
            let s := if tp'.cused = 0 then s
              else c.modT s fun u => { u with refills := u.refills ++ [⟨l, e, true, c.s0.shareBytes c.crew c.sid l⟩] }
            State.recompute { c with s0 := s } t d l c.addr c.pos key ent (s.setShare c.crew c.sid l tp'.bytes)
          | _ => s) s
        if r.2.2.isEmpty then .done s else .raise s 0 r.2.2

/-- A lane's refill ends in a cause, raised at the path's next clause boundary as a logged load's is: the share stands as before the `TPOP` (R378). -/
def State.refillFault (s : State) (c : Crew) (sid : Sid) (e : Entry) (l : Nat) (f : Nat × Nat × Bool) : State :=
  let old := ((s.strand? c.id sid).bind fun t => t.refills.find? fun r => r.lane == l && r.entry == e.id).map Refill.old
  let s := match old with
    | some b => s.setShare c sid l b
    | none => s
  s.modStrand c.id sid fun t =>
    { t with refills := t.refills.filter (fun r => !(r.lane == l && r.entry == e.id)),
             log := mapIf (fun x => x.id == e.id) (fun x => { x with logged := true, faults := x.faults ++ [laneFault l f.1 f.2.1 1 f.2.2] }) t.log }

/-- A lane's pop is over. -/
def State.refillEnd (s : State) (c : Crew) (sid : Sid) (e : Entry) (l : Nat) : State :=
  (s.modStrand c.id sid fun t => { t with refills := t.refills.filter fun r => !(r.lane == l && r.entry == e.id) }).complete c.id sid e.id (1#32 <<< l)

/-- The share before the pop is kept, once. -/
def State.keepShare (s : State) (c : Crew) (sid : Sid) (e : Entry) (l : Nat) (call : Bool) : State :=
  let old := s.shareBytes c sid l
  s.modStrand c.id sid fun t =>
    if t.refills.any fun r => r.lane == l && r.entry == e.id then
      { t with refills := mapIf (fun r => r.lane == l && r.entry == e.id) (fun r => { r with call := call }) t.refills }
    else { t with refills := t.refills ++ [⟨l, e.id, call, old⟩] }

/-- What a pop that has the Cullet's data comes to: D is written, another entry is needed, or the span must be recomputed. -/
def State.refillPopped (s : State) (c : Crew) (sid : Sid) (t : Strand) (e : Entry) (l : Nat) (ty : Ty) (d : Opd) (o : Tape.Pop) : State :=
  let cx := entryCtx s c t e
  match o with
  | .val out tp => (cx.write ty d l (popVal out) (s.setShare c sid l tp.bytes)).refillEnd c sid e l
  | .refill tp => (s.keepShare c sid e l false).setShare c sid l tp.bytes
  | .fail => s.refillFault c sid e l (3, 0, false)
  | .call tp =>
    let (key, ent, tp') := tp.call
    let s := s.keepShare c sid e l true
    let s := State.recompute cx ty d l ((e.srcOf l).headD 0) e.pos key ent (s.setShare c sid l tp'.bytes)
    if tp'.cused = 0 then s.refillEnd c sid e l else s

/-- The reads of a refill (R292): its bytes, once every one has been made; else one more of them is made, of several the part picks one, or the refill ends in
a cause. Its translation comes first (R378). -/
def State.refillRead (s : State) (c : Crew) (sid : Sid) (e : Entry) (l : Nat) (sp : Nat × Nat) : Option (List Byte) × State :=
  match s.cullet c sid l sp with
  | (some f, s) => (none, s.refillFault c sid e l f)
  | (none, s) => match haveVa (e.got l) sp.1 sp.2 with
    | .ok b => (some b, s.modEntry c.id sid e.id fun e => { e with reads := e.reads.filter fun r => r.lane != l })
    | .error ps =>
      let (k, s) := s.drawIndex ps.length
      (none, match ps[k]? with
        | none => s
        | some p => match s.loadVa (s.byTape c sid l) p.1 p.2 with
          | (.fail k v ab, s) => s.refillFault c sid e l (k, v, ab)
          | (.ok b, s) => s.modEntry c.id sid e.id fun e => { e with reads := e.reads ++ [⟨l, p.1, b⟩] })

/-- TAPE_REFILL_DONE (R378, R379): a turn of one lane's refill, once the spills of the lane have been applied (R292). It makes one of its reads; with all of
them made the Cullet's data lands, where the pop's result may (R97). -/
def execTapeRefillDone (crew : Nat) (sid : Sid) (lane : Nat) (s : State) : Host.Outcome State Fault Refusal :=
  .next (match s.crew? crew, s.strand? crew sid with
    | some c, some t =>
      match t.log.find? fun e => e.undone.getLsbD lane && !e.faultLanes.getLsbD lane && (match wordOf e.word with | .tpop .. => true | _ => false) with
      | none => s
      | some e =>
        if s.lateHeld c t e || !(s.spilling crew sid lane).isEmpty then s
        else if s.shareLost c sid lane then (s.tapeError c sid lane).refillFault c sid e lane (9, 0, false)
        else match wordOf e.word with
        | .tpop _ ty d =>
          let tp := Tape.ofBytes (s.shareBytes c sid lane)
          if t.refills.any fun r => r.lane == lane && r.entry == e.id && r.call then
            match s.refillRead c sid e lane (tp.cbase + tp.cused - 16, 16) with
            | (none, s) => s
            | (some l, s) => (s.setShare c sid lane { tp with ctop := leNat l }.bytes).refillEnd c sid e lane
          else
            let k := if ty.is64 then 2 else 1
            match tp.pop k with
            | .refill tp' =>
              match s.refillRead c sid e lane tp'.refillSpan with
              | (none, s) => s
              | (some l, s) => s.refillPopped c sid t e lane ty d ((tp'.refill l).pop k)
            | o => s.refillPopped c sid t e lane ty d o
        | _ => s
    | _, _ => s)

/-- TRET (R380). -/
def execTret (p : Pre) (s : State) : Host.Outcome State Fault Refusal :=
  word (.tret p) s fun c =>
    let tgt (l : Nat) : Word := BitVec.ofNat 64 (wfld (c.t.thread l).rlink 0 57)
    let tape (s : State) (l : Nat) : Tape := Tape.ofBytes (s.shareBytes c.crew c.sid l)
    if c.act ≠ 0 && c.crew.desc.tape < 128 then raiseAll c 0 3
    else if c.t.refilling &&& c.act ≠ 0 then .stall
    else
      let lost := c.ls.filter (c.s0.shareLost c.crew c.sid)
      let bad := (c.ls.filter fun l => !lost.contains l && !(tape c.s0 l).recd).map fun l => laneFault l 3 0 0 false
      let gone := lost.map fun l => laneFault l 9 0 1 false
      let odd := (c.ls.filter fun l => (tgt l).toNat % 8 ≠ 0).map fun l => laneFault l 7 (tgt l).toNat 0 false
      if !(bad ++ gone ++ odd).isEmpty then .raise (lost.foldl (fun s l => s.tapeError c.crew c.sid l) c.s0) 1 (bad ++ gone ++ odd)
      else
        let s := c.forLanes (fun l s => s.setShare c.crew c.sid l { tape s l with recd := false }.bytes) c.s0
        .back (c.traceTransfer tgt s) ((lanesOf c.lanes).map fun l =>
          (l, if c.act.getLsbD l then (tgt l, some (wfld (c.t.thread l).rlink 59 5)) else (c.fall, none)))

end Sys2Proof.Machine
end

