-- ==== Sys2Proof/Machine/Save.lean ====
section
/-! DEFINITION. The team header and image (R213 to R216), and saving a crew (R208 to R212). -/

namespace Sys2Proof.Machine

/-! ### Thread records (R215) -/

/-- WKIND, WPHASE and WOBJ of a wait. A scratchpad offset names its team in the form of R266. A wait on counters is made anew at restore. -/
def waitFields : Wait → Nat × Nat × Nat
  | .bar n ph => (1, ph, n)
  | .cbar n ph => (2, ph, n)
  | .tbar r off ph _ => (3, ph, 2 ^ 23 + r % 4 * 2 ^ 20 + off)
  | .qpop => (4, 0, 0)
  | .over w => waitFields w
  | _ => (0, 0, 0)

/-- Every path of a stream: its own, then in a handler the interrupted one and the held ones. -/
def Strand.allPaths (t : Strand) : List Path := t.paths ++ (match t.intr with | some i => i.path :: i.held | none => [])

/-- CRANK in six bits: the place of a creation rank among the stream's paths. -/
def Strand.crankOf (t : Strand) (p : Path) : Nat := ((dedup (t.allPaths.map Path.crank)).filter fun k => k < p.crank).length

/-- The eight-byte words of a lane's thread record. -/
def Strand.threadRec (t : Strand) (lane : Nat) : List Nat :=
  let h := t.thread lane
  let p := (t.allPaths.find? fun p => p.lanes.getLsbD lane).getD Path.blank
  -- lanes that have joined a path at a waiting word stand at its header (R301)
  let wait (p : Path) : Wait := match p.wait with
    | .more w _ => if (p.only.getD 0).getLsbD lane then .none else w
    | w => w
  let (k, ph, ob) := if t.refills.any fun r => r.lane == lane then (5, 0, 0) else waitFields (wait p)
  [p.pc.toNat, h.pred.toNat + h.cvt.toNat * 2 ^ 40, h.rlink.toNat,
    p.age % 2 ^ 16 + p.starve % 2 ^ 32 * 2 ^ 16 + t.crankOf p % 64 * 2 ^ 48 + b2n h.exited * 2 ^ 54 + b2n p.lone * 2 ^ 55,
    k + ph % 16 * 2 ^ 4 + ob % 2 ^ 24 * 2 ^ 8, 0]

/-! ### Streams in the header (R213, R214) -/

/-- A path stopped at a word that it is to issue again in some lanes only, after cause 8 (R335). -/
def Path.reissues (p : Path) : Bool := p.only.isSome && p.at_.isSome

/-- The trap registers as a save writes them. A stream outside a handler has none, but a path that re-issues its word in some lanes only
is saved with cause 8 and those lanes in TRAPMASK (R335); of several such paths the registers hold the first (log 34). -/
def Strand.savedTrap (t : Strand) : TrapRegs :=
  if t.inH then t.trap
  else match t.paths.find? Path.reissues with
    | none => t.trap
    | some p => { cause := trapCause 8 0 t.logn false (p.at_.getD 0), mask := (p.only.getD 0), pc := p.pc, aux := 0 }

/-- COUNT, INH and LOGN. -/
def Strand.countWord (t : Strand) : Nat :=
  t.ld % 16 + t.st % 16 * 2 ^ 4 + t.cp % 16 * 2 ^ 8 + t.tl % 16 * 2 ^ 12 + b2n t.inH * 2 ^ 16 + t.logn % 16 * 2 ^ 17

/-- A wave-table entry (R214). -/
def Strand.waveEntry (t : Strand) : List Nat :=
  let r := t.savedTrap
  [t.w2.toNat, r.mask.toNat * 2 ^ 32 + r.cause.toNat, r.pc.toNat, r.aux.toNat, t.countWord, 0, 0, 0]

/-- Words from an offset on. -/
def wordsAt (off : Nat) (l : List Nat) : List (Nat × Nat) := (List.range l.length).zip l |>.map fun q => (off + 8 * q.1, q.2)

/-- The Gaffer context's part of the header of rank 0. -/
def Strand.gafferWords (t : Strand) : List (Nat × Nat) :=
  let r := t.savedTrap
  let p := (t.paths.head?).getD Path.blank
  let (k, ph, ob) := waitFields p.wait
  wordsAt 0xA00 [p.pc.toNat, (t.thread 0).pred.toNat, r.mask.toNat * 2 ^ 32 + r.cause.toNat, r.pc.toNat, r.aux.toNat, t.countWord,
      k + ph % 16 * 2 ^ 4 + ob % 2 ^ 24 * 2 ^ 8]
    ++ wordsAt 0xA40 ((List.range 64).map fun k => ((assocGet t.g k).getD 0).toNat)

/-- DIR: offsets of the parts that are present (R213). They stand one after another (log 34). -/
def dirWords (sizes : List Nat) : List Nat :=
  (List.range sizes.length).map fun i => if sizes.getD i 0 = 0 then 0 else 4096 + (sizes.take i).sum

/-- The words of a team header that are not zero (R213). -/
def Crew.headerWords (c : Crew) (t : Team) (reason : Nat) (valid : Bool) : List (Nat × Nat) :=
  wordsAt 0 [c.teams.length * 2 ^ 16 + t.rank * 2 ^ 12 + reason * 2 ^ 8 + 2 ^ 4 + b2n valid, c.kdesc.toNat, c.taskRec.toNat, c.frame.toNat,
      c.desc.scratch * 2 ^ 32 + c.desc.team, (c.w0 t).toNat, tileCount t.slots, (c.w3 t).toNat]
    ++ wordsAt 0x40 (dirWords (c.parts t)) ++ wordsAt 0x80 (t.bars.map BitVec.toNat)
    ++ (if t.rank = 0 then wordsAt 0x100 (c.cbars.map BitVec.toNat) else [])
    ++ wordsAt 0x200 ((t.waves.map Strand.waveEntry).flatten)
    ++ (if t.rank = 0 then (c.gaffer.map Strand.gafferWords).getD [] else [])
    ++ (match t.producer with
      | some p => wordsAt 0xC40 (((p.paths.head?).getD Path.blank).pc.toNat :: p.ploop.toNat :: t.queues.map BitVec.toNat)
      | none => [])

/-- The 4 KiB of a team header. -/
def Crew.headerBytes (c : Crew) (t : Team) (reason : Nat) (valid : Bool) : List Byte :=
  let w := c.headerWords t reason valid
  ((List.range 512).map fun i => leBytes 8 ((assocGet w (8 * i)).getD 0)).flatten

/-! ### The image (R216) -/

/-- Bytes filled with zero to a length. -/
def padTo (n : Nat) (l : List Byte) : List Byte := (l ++ List.replicate n 0).take n

/-- A log entry, as the one or two records of 1040 bytes that it takes (R216, R382). Lanes that do not re-issue count as complete (R206). -/
def Entry.image (e : Entry) : List Byte :=
  let cause := (e.faults.map LaneFault.cause).foldl min 15
  let head := leBytes 8 e.word.toNat
    ++ leBytes 8 ((~~~e.undone).toNat + e.pos % 32 * 2 ^ 32 + (if e.faults.isEmpty then 0 else cause) * 2 ^ 40)
  ((List.range (entryRecords e.word)).map fun k =>
    head ++ ((List.range 32).map fun l => padTo 32 ((((e.srcOf l).drop (4 * k)).take 4).map fun w => leBytes 8 w.toNat).flatten).flatten).flatten

def Strand.logImage (t : Strand) : List Byte := ((t.log.filter Entry.logged).map Entry.image).flatten

/-- The interrupted path's latch: entries 0 to 2, lanes 0 to 31. -/
def Strand.latchImage (t : Strand) : List Byte :=
  match t.intr with
  | none => []
  | some i => ((List.range 3).map fun e => ((List.range 32).map fun l =>
      leBytes 8 (((i.path.latch.find? fun x => x.ent == e && x.lane == l).map fun x => x.val.toNat).getD 0)).flatten).flatten

/-- A tile: 8 KiB of elements with C0 (R411), its bound, its status, its two records. -/
def State.tileImage (s : State) (core : CoreId) (t : Team) (i : Nat) : List Byte :=
  let x := t.tile i
  let low := s.regBytes core (t.slotAddr i) 4096
  let high := if x.fmt = 1 || x.c0 then s.regBytes core (t.slotAddr i + 4096) 4096 else zeroHalf
  let rec_ (k : Nat) : List Byte := leBytes 16 ((t.recs.getD k 0).toNat)
  low ++ high ++ leBytes 8 x.bound.toNat ++ leBytes 8 x.status.toNat ++ rec_ (2 * i) ++ rec_ (2 * i + 1)

/-- The sequencer record of a non-Idle tile (R190, R193). -/
def Crew.liveRecord (c : Crew) (q : Nat × TileOp) : List Byte :=
  match c.teams[q.1]?, q.2.mma with
  | some t, some m => let x := t.claimed q.2; seqRecord (t.c0Held q.2.tile q.2.id) q.2 m x.1 x.2
  | _, _ => idleRecord

/-- Part 6 in the order of its table: the software area, the tape shares, the trap area (R216, R242; log 34). -/
def Crew.padImage (c : Crew) (t : Team) : List Byte :=
  t.padBytes 0 c.padS ++ t.padBytes (c.padS + 2048) (c.desc.team * c.desc.tape) ++ t.padBytes c.padS 2048

/-- The image of a team, its parts in order. A team that has exited holds no registers any more (R28). -/
def State.teamImage (s : State) (c : Crew) (t : Team) : List Byte :=
  let core := c.teamCore t.rank
  let m := c.desc.team
  let held (addr n : Nat) : List Byte := if t.exited then List.replicate n 0 else s.regBytes core addr n
  ((t.waves.map fun w => ((List.range 32).map fun l => ((w.threadRec l).map (leBytes 8)).flatten).flatten).flatten)
    ++ held t.base0 (4 * m * c.desc.w0lim)
    ++ (if c.w3Limit = 8 then s.regBytes core t.base3 (32 * m) else [])
    ++ (t.waves.map Strand.latchImage).flatten
    ++ ((c.logStrands t).map Strand.logImage).flatten
    ++ ((List.range (tileCount t.slots)).map (s.tileImage core t)).flatten
    ++ c.padImage t
    ++ (if t.rank = 0 then leBytes 8 c.liveOps.length ++ (c.liveOps.map c.liveRecord).flatten else [])

/-! ### When a save can be made (R210, R311) -/

/-- No path of a stream is inside a clause. -/
def Strand.atBounds (t : Strand) : Bool := t.allPaths.all fun p => !p.midClause || p.frozen.isSome

def isRegWord : Instr → Bool
  | .ldrs .. | .strs .. => true
  | _ => false

/-- Every lane of an entry is complete or has recorded a cause, waits behind an older access that has, or waits for a tile that the save stops. -/
def State.entryStill (s : State) (c : Crew) (t : Strand) (e : Entry) : Bool :=
  let i := wordOf e.word
  let behind (l : Nat) : Bool := t.log.any fun o => o.id < e.id && t.sees e o && o.undone.getLsbD l
  (lanesOf e.undone).all fun l => e.faultLanes.getLsbD l
    || (isRegWord i && ((sidTeam? t.sid).bind fun r => c.teams[r]?).any fun tm => (tm.tileAt (e.ea l).toNat).any ((entryCtx s c t e).tileBusy tm.rank))
    || (e.logged && !e.sent.getLsbD l && ((memKind i).isSome || isRender i) && behind l && (isRender i || !s.sendOk c t e l))

/-- A tile has reached an interruptible point (R191, R193): what may still run on it is one `TMMA` between two groups of columns. -/
def Crew.tileStill (c : Crew) (t : Team) (i : Nat) : Bool :=
  let ops := t.ops.filter fun o => o.tile == i
  c.stopPending t.rank (some i) none || (match (t.tile i).susp with
    | some _ => !ops.any TileOp.now
    | none => match ops with
      | [] => true
      | [o] => o.mma.isSome
      | _ => false)

/-- Step 2 of R210 is over. -/
def State.saveReady (s : State) (c : Crew) : Bool :=
  let ts := c.sids.filterMap c.strand?
  ts.all (fun t => t.atBounds && t.log.all (s.entryStill c t))
    && s.msgs.all (fun m => m.crew != c.id || m.phase == .posted) && s.cmds.all (fun k => k.crew != c.id) && s.offers.all (fun o => o.crew != c.id)
    && c.teams.all fun t => (List.range t.tiles.length).all (c.tileStill t)

/-- Operations that have not begun stand before their first step, with their tile as that step finds it (R191), but for one behind an operation of the tile that
is to be tried again after cause 8 (R177): that one still finds the tile as it is. -/
def State.beginOps (s : State) (c : Crew) : State :=
  c.liveOps.foldl (fun s q => match q.2.mma, s.team? c.id q.1 with
    | some m, some t =>
      if m.started || (t.ops.find? fun o => o.tile == q.2.tile).any (fun o => o.id != q.2.id) then s
      else
        let r := s.startMma (c.teamCore q.1) c.id t q.2 m
        r.2.putOp c.id q.1 q.2 r.1
    | _, _ => s) s

/-- Staging commands all of whose steps belong to a saved operation have nothing left to stage: they retire (R175). -/
def State.spentFetches (s : State) (c : Crew) : List Fetch :=
  let live := c.liveOps.map fun q => q.2.id
  s.fetches.filter fun f => f.crew == c.id && (match c.teams[f.rank]? with
    | some t => (t.steps.filter fun x => x.fetch == f.id).all fun x => (x.op.map live.contains).getD false
    | none => true)

/-! ### Saving -/

/-- The part acts for a crew as a whole. -/
def Crew.by (c : Crew) : By :=
  { asid := c.asid, secure := c.secure, team := none, who := c.who (.wave 0 0) 0, src := { src := 0, chan := 0, tmpl := 0, retired := false }, lane := none }

/-- Address of a team's save area (R336). -/
def Queue.saveVa (q : Queue) (slot rank : Nat) : Nat := q.savebase.toNat + slot * q.stride.toNat + rank * (q.stride.toNat / 4)

/-- Store ranges one after another; none when one of them cannot be written. -/
def storeAll (b : By) : List (Nat × List Byte) → State → Option State
  | [], s => some s
  | (va, l) :: r, s => match s.storeVa b va l with
    | (.ok _, s) => storeAll b r s
    | (.fail _ _ _, _) => none

/-- A crew is Lost (R30). -/
def State.loseCrew (s : State) (c : Crew) (slot : Nat) : State :=
  (s.event 6 c.die (c.who (.wave 0 0) 0) { slot := slot, pc := ((c.strand? (.wave 0 0)).map fun t => t.pcOf 0).getD 0 }).removeCrew c.id

/-- A crew as its image finds it: operations stand before their first step, and staging commands with nothing left to stage have retired. -/
def State.saveBegun (s : State) (c : Crew) : State :=
  let s := s.beginOps c
  let spent := s.spentFetches c
  { s with fetches := s.fetches.filter fun f => !spent.contains f }.modStrand c.id .gaffer fun t => t.lower ⟨0, 0, 0, (spent.filter Fetch.counted).length⟩

/-- What a save writes: the headers and images of every team, and then VALID in each header. -/
def State.saveParts (s : State) (c : Crew) (v : Saving) : List (Nat × List Byte) :=
  let q := s.queue c.queue
  (c.teams.map fun t => (q.saveVa v.slot t.rank, c.headerBytes t v.reason false ++ s.teamImage c t))
    ++ c.teams.map fun t => (q.saveVa v.slot t.rank, (c.headerBytes t v.reason true).take 8)

/-- The fault record that a crew's save holds back says instead that the crew waits unsaved under a number (R336). -/
def HostRec.unsaved (r : HostRec) (n : Nat) : HostRec :=
  { r with slot := n, w := listMod r.w 0 fun x => wput (wput x 24 16 n) 40 1 1 }

/-- A save is given up, since the headers and images no longer fit the slot that was chosen when it began (R336): the log has grown since. Nothing was
written. A crew that met a missing page waits for RESUME with that slot's number, or with the number that it already waits for, as without a slot, and its fault
record says so; any other goes on (DESIGN CHOICE, log 27). -/
def State.giveUpSave (s : State) (c : Crew) (v : Saving) : State :=
  let n := c.nosave.getD v.slot
  let mine (r : HostRec) : Bool := r.fault && r.queue == c.queue && r.slot == v.slot && !wbit (r.w.headD 0) 40
  let s := if v.reason = 1 then { s with posts := mapIf mine (fun r => r.unsaved n) s.posts } else s
  s.modCrew c.id fun d =>
    let d := { d with saving := none, nosave := if v.reason = 1 then some n else d.nosave }
    let free (p : Path) : Path := { p with frozen := if p.frozen = some v.slot then (if v.reason = 1 then some n else none) else p.frozen }
    let strand (t : Strand) : Strand := { t with paths := t.paths.map free }
    { d with teams := d.teams.map (fun t => { t with waves := t.waves.map strand, producer := t.producer.map strand }), gaffer := d.gaffer.map strand }

/-- CREW_SAVE (R210): when everything outstanding has completed or faulted, images and headers are written, VALID last, and the crew is Saved. A save that
has not ended within the watchdog limit is not made any more (R212).
A sampled word emits its record when it completes after the restore (R314). -/
def execCrewSave (crew : Nat) (s : State) : Host.Outcome State Fault Refusal :=
  .next (match s.crew? crew with
    | none => s
    | some c0 => match c0.saving with
      | none => s
      | some sv =>
        if c0.desc.limit < s.clk c0.die - sv.since || !s.saveReady c0 then s
        else
          let s1 := s.saveBegun c0
          match s1.crew? crew with
          | none => s
          | some c =>
            if !c.fitsSlot (s1.queue c.queue) then s.giveUpSave c0 sv
            else match storeAll c.by (s1.saveParts c sv) s1 with
            | none => s
            | some s2 =>
              let held := s2.posts.any fun r => r.fault && r.queue == c.queue && r.slot == sv.slot && !wbit (r.w.headD 0) 40
              let x : Saved := { queue := c.queue, slot := sv.slot, ready := sv.reason = 2, posted := !held, crew := c,
                                 fetches := s2.fetches.filter fun f => f.crew == crew }
              { s2.removeCrew crew with saved := s2.saved ++ [x], samples := s2.samples })

/-- The cores that hold a team of a crew. -/
def Crew.cores (c : Crew) : List Nat := c.teams.map Team.core

/-- SAVE_TIMEOUT (R212): the save is cut short; each core that holds a team of the crew is reset, and every crew with a team there is Lost. -/
def execSaveTimeout (crew : Nat) (s : State) : Host.Outcome State Fault Refusal :=
  .next (match s.crew? crew with
    | none => s
    | some c => match c.saving with
      | none => s
      | some sv =>
        if s.clk c.die - sv.since ≤ c.desc.limit then s
        else
          let hit (d : Crew) : Bool := d.die == c.die && d.cluster == c.cluster && !d.exiting && d.cores.any c.cores.contains
          let s := (s.crews.filter hit).foldl (fun s d => s.loseCrew d ((d.saving.map Saving.slot).getD 0)) s
          c.cores.foldl (fun s k =>
            let core : CoreId := { die := c.die, cluster := c.cluster, core := k }
            let s := s.invalidateL1 core
            { s with ibuf := assocDel s.ibuf core }) s)

end Sys2Proof.Machine
end

