-- ==== Sys2Proof/Machine/Restore.lean ====
section
/-! DEFINITION. Restoring a saved crew (R30, R207, R211, R311): every value that the team headers and images hold is read from memory;
what they have no place for is as the crew had it at its save (log 34). -/

namespace Sys2Proof.Machine

/-! ### Reading the save area -/

/-- A little-endian number of `n` bytes at an offset. -/
def rdAt (l : List Byte) (off n : Nat) : Nat := leNat ((l.drop off).take n)

/-- `n` words of eight bytes from an offset on. -/
def rdWords (l : List Byte) (off n : Nat) : List Nat := (List.range n).map fun i => rdAt l (off + 8 * i) 8

/-- Load ranges one after another. -/
def loadAll (b : By) : List (Nat × Nat) → State → Option (List (List Byte)) × State
  | [], s => (some [], s)
  | (va, n) :: r, s => match s.loadVa b va n with
    | (.fail _ _ _, s) => (none, s)
    | (.ok l, s) => match loadAll b r s with
      | (some ls, s) => (some (l :: ls), s)
      | (none, s) => (none, s)

/-- A team's header and image parts as they stand in a save area. -/
structure Image where
  hdr   : List Byte
  parts : List (List Byte)
deriving DecidableEq, Repr

/-- Eight-byte word i of a header. -/
def Image.w (m : Image) (i : Nat) : Nat := rdAt m.hdr (8 * i) 8

/-- Image part i. -/
def Image.part (m : Image) (i : Nat) : List Byte := m.parts.getD i []

/-- A team header that may be restored (R211): VALID = 1, with the values that R213 and R226 give its version, its rank, its crew size and its shape.
The spec says of no other field what an odd value means. DESIGN CHOICE: reserved bits of a header, of a wave's entry and of a thread's record are ignored,
and are zero in what the next save writes (log 81). -/
def headerOk (rank : Nat) (h : List Byte) : Bool :=
  let w (i : Nat) : Nat := rdAt h (8 * i) 8
  let m := fld (w 4) 0 32
  fld (w 0) 0 1 = 1 && fld (w 0) 4 4 = 1 && fld (w 0) 12 2 == rank && 1 ≤ fld (w 0) 16 3 && fld (w 0) 16 3 ≤ 4
    && 32 ≤ m && m ≤ 1024 && m % 32 = 0 && fld (w 4) 32 32 ≤ 458752 && 8 ≤ fld (w 5) 32 9 && fld (w 5) 32 9 ≤ 256 && fld (w 6) 0 5 ≤ 16

/-- A crew's descriptor as a team header shapes it: SCRATCH, TEAMSIZE, and the limits of its views (R94, R213). -/
def Desc.shaped (d : Desc) (h : List Byte) : Desc :=
  let w (i : Nat) : Nat := rdAt h (8 * i) 8
  { d with team := fld (w 4) 0 32, crew := fld (w 0) 16 3, scratch := fld (w 4) 32 32, w0lim := fld (w 5) 32 9, w1cnt := fld (w 6) 0 5,
           w3lim := fld (w 7) 32 9 }

/-- The four words of a wave's table entry from the mask and cause on, and its count word (R214). -/
def waveWords (h : List Byte) (w : Nat) : List Nat := rdWords h (0x200 + 64 * w + 8) 4

/-- INH and LOGN of a count word. -/
def inhOf (w : Nat) : Bool := fld w 16 1 == 1
def lognOf (w : Nat) : Nat := fld w 17 4

/-- Sizes of the parts that a header describes; part 7 has its count alone. -/
def Desc.partsOf (d : Desc) (gaffer : Bool) (rank : Nat) (h : List Byte) : List Nat :=
  let counts := (List.range (d.team / 32)).map fun w => (waveWords h w).getD 3 0
  let g := if gaffer && rank = 0 then lognOf (rdAt h 0xA28 8) else 0
  d.parts (counts.filter inhOf).length ((counts.map lognOf).sum + g) d.w1cnt (if rank = 0 then some 0 else none)

/-- A team's save area, read part by part where DIR says that each part stands (R213). A crew has at most 64 tiles, and so records. -/
def State.loadImage (s : State) (b : By) (d : Desc) (gaffer : Bool) (rank va : Nat) : Option Image × State :=
  match s.loadVa b va 4096 with
  | (.fail _ _ _, s) => (none, s)
  | (.ok h, s) =>
    let dir (i : Nat) : Nat := rdAt h (0x40 + 8 * i) 8
    let sizes := (d.shaped h).partsOf gaffer rank h
    let range (i n : Nat) : Nat × Nat := (va + dir i, if dir i = 0 then 0 else n)
    match loadAll b ((List.range 8).map fun i => range i (sizes.getD i 0)) s with
    | (none, s) => (none, s)
    | (some ps, s) =>
      let (va7, n) := range 7 (8 + 128 * min 64 (rdAt (ps.getD 7 []) 0 8))
      match s.loadVa b va7 (if rank = 0 then n else 0) with
      | (.fail _ _ _, s) => (none, s)
      | (.ok l, s) => (some { hdr := h, parts := listSet ps 7 l }, s)

/-- Save areas of the listed ranks. -/
def State.loadImages (s : State) (b : By) (q : Queue) (slot : Nat) (d : Desc) (gaffer : Bool) : List Nat → Option (List Image) × State
  | [] => (some [], s)
  | r :: rs =>
    match s.loadImage b d gaffer r (q.saveVa slot r) with
    | (none, s) => (none, s)
    | (some m, s) => match s.loadImages b q slot d gaffer rs with
      | (some l, s) => (some (m :: l), s)
      | (none, s) => (none, s)

/-- Headers of the teams that rank 0's header counts (R213), all of them valid, or none. -/
def State.loadHeaders (s : State) (b : By) (q : Queue) (slot : Nat) : Option (List (List Byte)) × State :=
  match s.loadVa b (q.saveVa slot 0) 4096 with
  | (.fail _ _ _, s) => (none, s)
  | (.ok h, s) => match loadAll b ((List.range (fld (rdAt h 0 8) 16 3)).map fun r => (q.saveVa slot r, 4096)) s with
    | (none, s) => (none, s)
    | (some hs, s) => (if !hs.isEmpty && ((List.range hs.length).zip hs).all fun y => headerOk y.1 y.2 then some hs else none, s)

/-! ### Paths -/

/-- A wait as a record holds it. -/
def waitOf (w : Nat) : Wait :=
  let ob := fld w 8 24
  match fld w 0 4 with
  | 1 => .bar ob (fld w 4 4)
  | 2 => .cbar ob (fld w 4 4)
  | 3 => .tbar (fld ob 20 2) (fld ob 0 20) (fld w 4 4) .tm
  | _ => .none

/-- A wait that a save keeps: that on a barrier (R301, R311). Any other is made again by the word at the header. -/
def Wait.kept : Wait → Wait
  | .over w => match w with
    | .bar .. | .cbar .. | .tbar .. => .over w
    | _ => .none
  | .bar n ph => .bar n ph
  | .cbar n ph => .cbar n ph
  | .tbar r off ph sc => .tbar r off ph sc
  | _ => .none

/-- A path as it resumes, on its new core, at its header or word. A LONE mark stays with it (R215), and so does the wait for RESUME of a crew without a
slot (R336). -/
def Path.restored (nosave : Option Nat) (p : Path) : Path :=
  { p with clause := none, frozen := if nosave.isSome && p.frozen == nosave then nosave else none, yielded := false, wait := p.wait.kept }

/-- Paths as a save finds them: lanes that had joined a path at a waiting word part from it (R301). -/
def partedPaths : Nat → List Path → List Path × Nat
  | n, [] => ([], n)
  | n, p :: l =>
    let (a, b) := match p.wait with
      | .more w _ => p.parted w n
      | _ => (p, none)
    let (r, n') := partedPaths (n + b2n b.isSome) l
    (a :: (b.toList ++ r), n')

/-- A path re-formed from threads with equal PC, AGE and CRANK (R215), from the record of its lowest lane. `old` is the path in which that lane was saved, as it
resumes: what a record has no place for is that path's, where the record leaves the lane at the place of the path (log 34). -/
def pathOf (id : Nat) (lanes : Lanes) (r : List Nat) (old : Path) : Path :=
  let a : Word := BitVec.ofNat 64 (r.getD 0 0)
  let p := if old.pc = a then old else { Path.blank with prev := a, frozen := old.frozen }
  let w := r.getD 4 0
  { p with id := id, lanes := lanes, pc := a, age := fld (r.getD 3 0) 0 16, starve := fld (r.getD 3 0) 16 32, crank := fld (r.getD 3 0) 48 6,
           lone := fld (r.getD 3 0) 55 1 == 1, wait := if waitFields old.wait = (fld w 0 4, fld w 4 4, fld w 8 24) then old.wait else waitOf w }

/-- What forms a path of lanes: PC, AGE and CRANK (R215), and the wait, since lanes that have joined a path at a waiting word have still to act there. -/
def placeOfRec (r : List Nat) : Nat × Nat × Nat × Nat := (r.getD 0 0, fld (r.getD 3 0) 0 16, fld (r.getD 3 0) 48 6, r.getD 4 0)

/-- A stream's handler as INH says (R214). A stream that the image takes out of its handler has its paths alone; one that it puts into a handler runs it
with the paths that it has, and what was interrupted stands at TRAPPC with all their lanes (log 34). `clk` and `first` are those of a new handler. -/
def Strand.withInh (t : Strand) (inh : Bool) (clk first : Nat) : Strand :=
  match inh, t.intr with
  | false, some i => { t with paths := t.paths ++ i.held, intr := none }
  | true, none =>
    { t with intr := some { path := { Path.blank with lanes := t.paths.foldl (fun m p => m ||| p.lanes) 0, pc := t.trap.pc, prev := t.trap.pc }, held := [],
                            since := clk, first := first, cur := t.cur } }
  | _, _ => t

/-- The threads and paths of a stream from its thread records. A path keeps its number where its lowest lane has stayed the lowest of its path; the
interrupted path of a handler has no record, and keeps its lanes that have not ended, with its rank among the paths as they were saved. -/
def Strand.loadThreads (t : Strand) (nosave : Option Nat) (recs : List (List Nat)) : Strand :=
  let n := t.threads.length
  let r (l : Nat) : List Nat := recs.getD l []
  let gone (l : Nat) : Bool := fld ((r l).getD 3 0) 54 1 == 1
  let own (l : Nat) : Bool := !t.inH || t.paths.any fun p => p.lanes.getLsbD l
  let (paths, n1) := partedPaths t.nextId t.paths
  let (held, next) := partedPaths n1 ((t.intr.map Intr.held).getD [])
  let old (l : Nat) : Path := Path.restored nosave (((paths ++ held).find? fun p => p.lanes.getLsbD l).getD { Path.blank with id := next + 32 + l })
  let live := (List.range n).filter fun l => !gone l
  let key (l : Nat) : Bool × Nat × Nat × Nat × Nat := (own l, placeOfRec (r l))
  let groups := (dedup (live.map key)).map fun k => (k.1, live.filter fun l => key l == k)
  let ids := groups.map fun g => (old (g.2.headD 0)).id
  let news := ((List.range groups.length).zip groups).map fun q =>
    let l := q.2.2.headD 0
    let id := (old l).id
    (q.2.1, pathOf (if (ids.take q.1).contains id then next + q.1 else id) (lanesFrom q.2.2) (r l) (old l))
  { t with
    threads := (List.range n).map fun l =>
      { pred := BitVec.ofNat 15 ((r l).getD 1 0), cvt := BitVec.ofNat 7 (fld ((r l).getD 1 0) 40 7), rlink := BitVec.ofNat 64 ((r l).getD 2 0),
        exited := gone l, buf := [] },
    paths := (news.filter Prod.fst).map Prod.snd,
    intr := t.intr.map fun i =>
      { i with path := { Path.restored nosave i.path with lanes := i.path.lanes &&& lanesWhere (fun l => l < n && !gone l), crank := t.crankOf i.path },
               held := (news.filter fun q => !q.1).map Prod.snd },
    chosen := false, nextId := next + 64 }

/-! ### The log, the trap registers and the counters -/

/-- An entry that a restore makes where the saved stream had none. -/
def Entry.blank (id : Nat) (word : Word) : Entry :=
  { id := id, word := word, pos := 0, path := 0, inH := false, logged := true, lanes := 0, done := 0, sent := 0, faults := [], src := [], cnt := countsOf (wordOf word), reads := [] }

/-- A log entry from its record: its lanes that are not complete re-issue, with the saved sources (R207). An entry of an interrupted path keeps the cause
that it recorded until its handler returns. DESIGN CHOICE: bits of the record that hold nothing are ignored (log 81). -/
def Entry.restored (e : Entry) (inH : Bool) (l : List Byte) : Entry :=
  let bm : Lanes := BitVec.ofNat 32 (rdAt l 8 4)
  let lanes := e.lanes ||| ~~~bm
  let word := BitVec.ofNat 64 (rdAt l 0 8)
  let n := max (4 * entryRecords word) ((e.src.map List.length).foldl max 0)
  let cause := fld (rdAt l 8 8) 40 4
  let src := (List.range 32).map fun k => (List.range n).map fun i => BitVec.ofNat 64 (rdAt l (1040 * (i / 4) + 16 + 32 * k + 8 * (i % 4)) 8)
  let faults := if e.inH == inH || cause = 0 then []
    else if (e.faults.map LaneFault.cause).foldl min 15 = cause && !e.faults.isEmpty then e.faults
    else (lanesOf (~~~bm)).map fun k => laneFault k cause ((src.getD k []).headD 0).toNat (if (memKind (wordOf word)) == some .load then 1 else 2) false
  { e with word := word, pos := rdAt l 12 1 % 32, lanes := lanes, done := lanes &&& bm, sent := lanes &&& bm, faults := faults, src := src, reads := [] }

/-- The entries of a stream in order, from `left` records that begin the bytes; `old` are its entries as they stood, `id` numbers new ones. -/
def restoreLog (inH : Bool) (left id : Nat) : Nat → List Entry → List Byte → List Entry
  | 0, old, _ => old.filter fun e => !e.logged
  | n + 1, old, l =>
    if left = 0 then old.filter fun e => !e.logged
    else
      let word := BitVec.ofNat 64 (rdAt l 0 8)
      let k := entryRecords word
      let others := old.takeWhile fun e => !e.logged
      match old.dropWhile fun e => !e.logged with
      | e :: es => others ++ e.restored inH l :: restoreLog inH (left - k) id n es (l.drop (1040 * k))
      | [] => others ++ (Entry.blank id word).restored inH l :: restoreLog inH (left - k) (id + 1) n [] (l.drop (1040 * k))

/-- Bits of TRAPCAUSE that hold something (R197). -/
def causeBits : BitVec 32 := 0x1F1F3F

/-- The trap registers, or for a path that re-issues its word in some lanes those lanes (R335). `w` holds the words from the mask and cause on. -/
def Strand.loadTrap (t : Strand) (w : List Nat) : Strand :=
  let mask : BitVec 32 := BitVec.ofNat 32 (fld (w.getD 0 0) 32 32)
  if t.inH then
    { t with trap := { cause := BitVec.ofNat 32 (w.getD 0 0) &&& causeBits, mask := mask, pc := BitVec.ofNat 64 (w.getD 1 0) &&& 0x1FFFFFFFFFFFFFF,
                       aux := BitVec.ofNat 64 (w.getD 2 0) } }
  else match t.paths.find? Path.reissues with
    | some p => t.modPath p.id fun p => { p with only := some mask }
    | none => t

/-- The interrupted path's latch (R216, part 3). -/
def Strand.loadLatch (t : Strand) (l : List Byte) : Strand :=
  { t with intr := t.intr.map fun i => { i with path := { i.path with latch :=
      ((List.range 3).map fun e => (lanesOf i.path.lanes).map fun k => ({ ent := e, lane := k, val := BitVec.ofNat 64 (rdAt l (256 * e + 8 * k) 8) } : Latched)).flatten } } }

/-- A stream as a restore leaves it, from its records, the four words from its mask and cause on, and its log records. -/
def Strand.reload (t : Strand) (nosave : Option Nat) (recs : List (List Nat)) (w : List Nat) (log : List Byte) (slot clk ids : Nat) : Strand :=
  let k := w.getD 3 0
  let inh := inhOf k
  let own := if inh then t.log else t.log.map fun (e : Entry) => { e with inH := false }
  let t := ({ t with trap := { t.trap with pc := BitVec.ofNat 64 (w.getD 1 0) &&& 0x1FFFFFFFFFFFFFF } } : Strand).withInh inh clk ids
  let t := { t with log := restoreLog inh (lognOf k) ids 16 own log,
                    pend := t.pend.filter fun x => x.cause ≠ 8 }
  let t := (t.loadThreads nosave recs).loadTrap w
  { t with slot := slot, ld := fld k 0 4, st := fld k 4 4, cp := fld k 8 4, tl := fld k 12 4, lastIssue := clk, rrotK := 0,
           trap := if inh then t.trap else ⟨0, 0, 0, 0⟩, intr := t.intr.map fun (i : Intr) => { i with since := clk } }

/-- The waves of a team from its save area: the wave number, the bytes of parts 3 and 4 not yet read. Waves that the saved team did not have are new ones. -/
def loadWaves (t : Team) (nosave : Option Nat) (m : Image) (slots : List Nat) (clk ids : Nat) : Nat → Nat → List Byte → List Byte → List Strand
  | 0, _, _, _ => []
  | n + 1, w, lat, log =>
    let x := (t.waves[w]?).getD (Strand.fresh (.wave t.rank w) 0 0 clk 32 [])
    let k := (waveWords m.hdr w).getD 3 0
    let recs := (List.range 32).map fun l => rdWords (m.part 0) (48 * (32 * w + l)) 6
    let y := x.reload nosave recs (waveWords m.hdr w) log (slots.getD w 0) clk (ids + 16 * w)
    let y := { y with w2 := BitVec.ofNat 64 (rdAt m.hdr (0x200 + 64 * w) 8) &&& 0x18FFF }
    let y := if inhOf k then y.loadLatch lat else y
    y :: loadWaves t nosave m slots clk ids n (w + 1) (if inhOf k then lat.drop 768 else lat) (log.drop (1040 * lognOf k))

/-- The Gaffer context from the header of rank 0. -/
def Strand.loadGaffer (g : Strand) (nosave : Option Nat) (l log : List Byte) (slot clk ids : Nat) : Strand :=
  let old := g.threadRec 0
  let w := rdWords l 0xA00 7
  let rec_ := [w.getD 0 0, (w.getD 1 0) % 2 ^ 15 + fld (old.getD 1 0) 40 7 * 2 ^ 40, old.getD 2 0, old.getD 3 0, w.getD 6 0, 0]
  let g := g.reload nosave [rec_] (w.drop 2) log slot clk ids
  { g with g := (List.range 64).filterMap fun k => let v := rdAt l (0xA40 + 8 * k) 8; if v = 0 then none else some (k, BitVec.ofNat 64 v) }

/-- A producer program from its team's header. -/
def Strand.loadProducer (p : Strand) (nosave : Option Nat) (l : List Byte) : Strand :=
  let old := p.threadRec 0
  let p := { p.loadThreads nosave [(rdAt l 0xC40 8) :: old.drop 1] with ploop := BitVec.ofNat 64 (rdAt l 0xC48 8), clauses := 0, rrotK := 0 }
  { p with ld := 0, st := 0 }

/-! ### Teams -/

/-- Steps that a restore stages again from their descriptors (R169). A source line that was written has been (R180). -/
def Staged.again (x : Staged) : Staged := { x with data := none, bad := false, lines := [], left := [], part := [] }

/-- What a restore reassigns of a team: its core, slots and areas. -/
structure Place where
  core  : Nat
  slots : List Nat
  base0 : Nat
  base3 : Nat
  accs  : BitVec 16
deriving DecidableEq, Repr

/-- Bits of a barrier word, a bound register, a status word and a queue word that hold something (R98, R187, R303, R357). -/
def barBits : Word := 0xFC1FFF1FFF
def boundBits : Word := 0x1FFFFFFFFFF
def statusBits : Word := 0xFFFFFFFF000000FF
def queueBits : Word := 0x7FF

/-- A team that the saved crew did not have. -/
def Team.blank (rank : Nat) : Team :=
  { rank := rank, core := 0, base0 := 0, base3 := 0, slots := 0, scratch := [], padBad := [], bars := [], tiles := [], recs := [], steps := [], ops := [],
    waves := [], producer := none, queues := [0, 0, 0, 0], exited := false, urgent := false }

/-- A scratchpad from part 6 of an image. -/
def Desc.loadPad (d : Desc) (l : List Byte) : List Host.Cell :=
  let shares := d.team * d.tape
  memPut (memPut (memPut [] 0 (l.take d.scratch)) (d.scratch + 2048) ((l.drop d.scratch).take shares)) d.scratch ((l.drop (d.scratch + shares)).take 2048)

/-- A team from its save area, as the crew's descriptor now shapes it. The operations in `lost` do not come back as they were. A team has exited where
every thread record says so (R28). -/
def Team.load (t : Team) (nosave : Option Nat) (d : Desc) (m : Image) (p : Place) (clk ids : Nat) (lost : List Nat) : Team :=
  let tile (i : Nat) : List Byte := ((m.part 5).drop (8240 * i)).take 8240
  let reg (mask : Word) (v : Nat) : Word := BitVec.ofNat 64 v &&& mask
  let owed (i : Nat) : Bool := t.steps.any fun x => x.srcw && x.op.any fun o =>
    lost.contains o && ((t.tile i).susp.any (fun y => y.id == o) || t.ops.any fun y => y.id == o && y.tile == i)
  let waves := loadWaves t nosave m p.slots clk ids (d.team / 32) 0 (m.part 3) (m.part 4)
  { t with
    core := p.core, base0 := p.base0, base3 := p.base3, slots := p.accs,
    scratch := d.loadPad (m.part 6), padBad := [],
    bars := (rdWords m.hdr 0x80 16).map (reg barBits),
    tiles := (List.range d.w1cnt).map fun i =>
      { t.tile i with bound := reg boundBits (rdAt (tile i) 8192 8), status := reg statusBits (rdAt (tile i) 8200 8),
                      susp := (t.tile i).susp.filter fun o => !lost.contains o.id, owed := (t.tile i).owed || owed i },
    recs := (List.range (2 * d.w1cnt)).map fun k => BitVec.ofNat 128 (rdAt (tile (k / 2)) (8208 + 16 * (k % 2)) 16),
    steps := (t.steps.filter fun x => !(x.op.any lost.contains)).map Staged.again,
    ops := t.ops.filter fun o => !lost.contains o.id,
    waves := waves,
    producer := t.producer.map fun x => x.loadProducer nosave m.hdr,
    queues := if t.producer.isSome then (rdWords m.hdr 0xC50 4).map (reg queueBits) else t.queues,
    exited := waves.all fun w => w.threads.all Thread.exited }

/-- The registers of a team from its image: vectors, handler registers, accumulator slots (R411). -/
def State.loadRegs (s : State) (d : Desc) (t : Team) (core : CoreId) (m : Image) : State :=
  let s := if t.exited then s else s.setRegBytes core t.base0 (m.part 1)
  let s := if d.w3lim = 8 then s.setRegBytes core t.base3 (m.part 2) else s
  (List.range d.w1cnt).foldl (fun s i => s.setRegBytes core (t.slotAddr i) (((m.part 5).drop (8240 * i)).take 8192)) s

/-- An operation from a sequencer record that is not as the save wrote it (R193): Suspended again where the record says TRAPPED, otherwise going on as
`TRESUME.cont` would. Its steps are staged again by two commands that count in no counter. A record that names no `TMMA` of the crew is passed over. DESIGN CHOICE: reserved bits
of a record that a restore reads are ignored (log 81); those of one that `TRESUME.rec` reads are checked (R192). -/
def State.loadOp (s : State) (crew : Nat) (l : List Byte) : State :=
  match seqOp l s.ids false with
  | none => s
  | some (o, m) =>
    let r := wfld o.word 38 2
    let fa := s.ids + 1
    let fr (k res : Nat) : Fetch := ⟨fa + k, crew, r, res, false, false⟩
    let steps := seqSteps l m s.ids fa (fa + 1) (fa + 2)
    if ((s.team? crew r).map fun t => decide (t.tiles.length ≤ o.tile)).getD true then s
    else
      let s := { s with ids := s.ids + 3 + 2 * m.n, fetches := s.fetches ++ [fr 0 (wfld o.word 29 5), fr 1 (wfld o.word 24 5)] }
      s.modTeam crew r fun t =>
        let t := { t with steps := t.steps ++ steps }
        if m.trapped then t.modTile o.tile fun x => { x with susp := some o, c0 := x.c0 && wbit (seqWord l 1) 18 } else { t with ops := o :: t.ops }

/-- A wait whose phase has passed is over (R311). -/
def Crew.passedWaits (c : Crew) : Crew :=
  let phase (r off : Nat) : Nat := ((c.teams[r]?).map fun t => (Tb.ofNat (t.padNat off 16)).phase).getD 0
  { c with teams := c.teams.map (fun t => { t with waves := t.waves.map (Strand.endWaits fun w => match w with
        | .bar n ph => barPhase (t.bars.getD n 0) != ph
        | .cbar n ph => barPhase (c.cbars.getD n 0) != ph
        | .tbar r off ph _ => phase r off != ph
        | _ => false) }),
           gaffer := c.gaffer.map (Strand.endWaits fun w => match w with
        | .tbar r off ph _ => phase r off != ph
        | _ => false) }

/-- Staging commands of the steps that stand in a crew's queues: those that were not done at the save keep their count, the others have none. -/
def Saved.refetch (x : Saved) (c : Crew) : List Fetch :=
  (c.teams.map fun t => (dedup (t.steps.map fun y => (y.fetch, y.res))).map fun q =>
    (x.fetches.find? fun f => f.id == q.1).getD ⟨q.1, c.id, t.rank, q.2, false, false⟩).flatten

/-- A core's register bytes cleared. -/
def State.clearRegs (s : State) (core : CoreId) (lo n : Nat) : State :=
  { s with regs := assocSet s.regs core (((assocGet s.regs core).getD []).filter fun e => e.1 * 4 < lo || lo + n ≤ e.1 * 4) }

/-- The acquire of a placement (R291): each core of the crew starts with an empty L1 view, and fetches anew (R50). -/
def State.placeAcquire (s : State) (c : Crew) : State :=
  (c.teams.map Team.core ++ [4]).foldl (fun s k =>
    let core : CoreId := { die := c.die, cluster := c.cluster, core := k }
    let s := s.invalidateL1 core
    { s with ibuf := assocDel s.ibuf core }) s

/-- The sequencer records of a crew's image, each with the operation that the save wrote there (R216, part 7). -/
def recordsOf (old : Crew) (m : Image) : List (Option (Nat × TileOp) × List Byte) :=
  (List.range (min 64 (rdAt (m.part 7) 0 8))).map fun i => (old.liveOps[i]?, ((m.part 7).drop (8 + 128 * i)).take 128)

/-- Operations that come back as they were: their records are as the save wrote them. So their steps are staged again from every staging word
that they came from, which a record has no room for (log 78). -/
def keptOps (old : Crew) (m : Image) : List Nat :=
  (recordsOf old m).filterMap fun q => q.1.bind fun o => if q.2 == old.liveRecord o then some o.2.id else none

/-- The values that a restore reads again from the kernel descriptor (R296, R309); one that cannot be read leaves those of the saved crew (log 34). -/
def Desc.again (d : Desc) (l : Option (List Byte)) : Desc :=
  match l with
  | none => d
  | some l => { d with age := fld (rdAt l 0x20 8) 24 8, wdog := fld (rdAt l 0x20 8) 32 16, prog := fld (rdAt l 0x20 8) 48 1 == 1 }

/-- A saved crew comes back from its save areas, at the given places (R211). -/
def State.restoreCrew (s : State) (x : Saved) (kernel : Option (List Byte)) (die cluster number gctx : Nat) (ps : List Place) (ms : List Image) : State :=
  let old := x.crew
  let clk := s.clk die
  let m0 : Image := ms.headD ⟨[], []⟩
  let kept := keptOps old m0
  let lost := (old.liveOps.map fun q => q.2.id).filter fun o => !kept.contains o
  let d := (old.desc.shaped m0.hdr).again kernel
  let blank : Place := ⟨0, [], 0, 0, 0⟩
  let teams := ((List.range ms.length).zip ms).map fun q =>
    { ((old.teams[q.1]?).getD (Team.blank q.1)).load old.nosave d q.2 (ps.getD q.1 blank) clk (s.ids + 512 * q.1) lost with rank := q.1 }
  let t0log := (m0.part 4).drop (1040 * (((List.range (d.team / 32)).map fun w => lognOf ((waveWords m0.hdr w).getD 3 0)).sum))
  let new : Crew := { old with
    die := die, cluster := cluster, number := number, saving := none, placed := clk, marked := clk, desc := d,
    kdesc := BitVec.ofNat 64 (m0.w 1), taskRec := BitVec.ofNat 64 (m0.w 2), frame := BitVec.ofNat 64 (m0.w 3),
    teams := teams, gaffer := old.gaffer.map fun g => g.loadGaffer old.nosave m0.hdr t0log gctx clk (s.ids + 2048),
    cbars := (rdWords m0.hdr 0x100 4).map fun v => BitVec.ofNat 64 v &&& barBits }
  let new := new.passedWaits
  let s := { s with ids := s.ids + 2064, crews := s.crews ++ [new], fetches := s.fetches ++ x.refetch new, saved := s.saved.filter fun y => y != x }
  let s := old.sids.foldl (fun s sid => s.reissued old.id sid (((old.strand? sid).map Strand.log).getD [])) s
  let s := (new.teams.zip ms).foldl (fun s q => s.loadRegs d q.1 { die := die, cluster := cluster, core := q.1.core } q.2) s
  let s := ((recordsOf old m0).filter fun q => !(q.1.any fun o => kept.contains o.2.id)).foldl (fun s q => s.loadOp new.id q.2) s
  let s := s.placeAcquire new
  let s := new.teams.foldl (fun s t => s.takePushes new.id t.rank 9) s
  -- entries that the image holds as complete in every lane leave the log
  new.sids.foldl (fun s sid => ((s.strand? new.id sid).map Strand.log).getD [] |>.foldl (fun s e => s.retire new.id sid e.id) s) s

end Sys2Proof.Machine
end

