-- ==== Sys2Proof/Machine/Crew.lean ====
section
/-! DEFINITION. Placing crews (R24 to R27, R330 to R333, R336 to R338), the exit of a crew (R29, R334), and the urgency predictor (R339). -/

namespace Sys2Proof.Machine

/-! ### Kernel descriptors (R226, R227) -/

def Desc.ofBytes (l : List Byte) : Desc :=
  let w (i : Nat) : Nat := rdAt l (8 * i) 8
  let e (i : Nat) : Word := BitVec.ofNat 64 (w i)
  { lentry := e 0, gentry := e 1, pentry := e 2, hentry := e 3, team := fld (w 4) 0 11, crew := fld (w 4) 16 3, age := fld (w 4) 24 8,
    wdog := fld (w 4) 32 16, prog := fld (w 4) 48 1 == 1, priv := fld (w 4) 49 1 == 1, w0lim := fld (w 5) 0 9, w1cnt := fld (w 5) 16 5,
    w2en := fld (w 5) 24 1 == 1, w2tile := fld (w 5) 28 4, w2base := fld (w 5) 32 8, scratch := fld (w 6) 0 19, tape := fld (w 6) 32 12,
    w3lim := if w 3 = 0 then 0 else 8 }

/-- Reserved bits of a descriptor are zero. -/
def descClean (l : List Byte) : Bool :=
  let w (i : Nat) : Nat := rdAt l (8 * i) 8
  fld (w 4) 11 5 = 0 && fld (w 4) 19 5 = 0 && fld (w 4) 50 14 = 0 && fld (w 5) 9 7 = 0 && fld (w 5) 21 3 = 0 && fld (w 5) 25 3 = 0
    && fld (w 5) 40 24 = 0 && fld (w 6) 19 13 = 0 && fld (w 6) 44 20 = 0 && (l.drop 0x38).all (· == 0)

/-- A descriptor is well formed (R227), but for its reserved bits. -/
def Desc.ok (d : Desc) : Bool :=
  let al (w : Word) : Bool := w.toNat % 8 == 0
  32 ≤ d.team && d.team ≤ 1024 && d.team % 32 = 0 && 1 ≤ d.crew && d.crew ≤ 4 && 8 ≤ d.w0lim && d.w0lim ≤ 256 && d.w1cnt ≤ 16
    && d.scratch % 256 = 0 && d.scratch ≤ 458752 && d.tape % 32 = 0 && d.tape ≤ 2048 && d.lentry != 0 && al d.lentry && al d.gentry && al d.pentry
    && al d.hentry && (!d.w2en || (d.w2tile < d.w1cnt && d.w2base + 31 < d.w0lim))

/-- Bytes rounded up to 1 KiB units (R92). -/
def units (n : Nat) : Nat := (n + 1023) / 1024 * 1024

/-- Bytes of a team's vector area, handler area and scratchpad (R92, R241). -/
def Desc.vec (d : Desc) : Nat := units (d.team * d.w0lim * 4)
def Desc.hnd (d : Desc) : Nat := if d.w3lim = 8 then units (d.team * 32) else 0
def Desc.pad (d : Desc) : Nat := d.scratch + 2048 + d.team * d.tape

/-- A single team could fit a core (R92, R241). -/
def Desc.placeable (d : Desc) : Bool := d.vec + d.hnd ≤ Config.vectorBytes && d.pad ≤ Config.scratchRegion

/-! ### Resources (R26) -/

/-- What a crew that is to be placed needs: its descriptor, and which of its teams have exited and need no wave slots and no vector area (R28). -/
structure Want where
  queue  : Nat
  cand   : Cand
  prio   : Nat
  desc   : Desc
  exited : List Bool
deriving DecidableEq, Repr

/-- Crews of a cluster that hold resources. -/
def State.residents (s : State) (die cluster : Nat) : List Crew := s.crews.filter fun c => c.die == die && c.cluster == cluster && !c.exiting

/-- Teams of crews on one core. -/
def teamsOn (cs : List Crew) (core : Nat) : List (Crew × Team) := (cs.map fun c => (c.teams.filter fun t => t.core == core).map fun t => (c, t)).flatten

/-- Wave slots in use on a core. -/
def usedSlots (cs : List Crew) (core : Nat) : List Nat := ((teamsOn cs core).map fun q => if q.2.exited then [] else q.2.waves.map Strand.slot).flatten

/-- Areas in use in the vector range of a core: start and length. -/
def usedAreas (cs : List Crew) (core : Nat) : List (Nat × Nat) :=
  ((teamsOn cs core).map fun q => (if q.2.exited then [] else [(q.2.base0, q.1.desc.vec)]) ++ (if q.1.desc.hnd = 0 then [] else [(q.2.base3, q.1.desc.hnd)])).flatten

/-- Accumulator slots in use on a core. -/
def usedAccs (cs : List Crew) (core : Nat) : BitVec 16 := (teamsOn cs core).foldl (fun m q => m ||| q.2.slots) 0

/-- Scratchpad bytes in use on a core. -/
def usedPad (cs : List Crew) (core : Nat) : Nat := ((teamsOn cs core).map fun q => q.1.padSize).sum

/-- The Punty slot of a core is taken. -/
def usedPunty (cs : List Crew) (core : Nat) : Bool := (teamsOn cs core).any fun q => q.2.producer.isSome

def usedContexts (cs : List Crew) : List Nat := cs.filterMap fun c => c.gaffer.map Strand.slot

/-- An area lies in the vector range, on a 1 KiB boundary, apart from others. -/
def areaFree (used : List (Nat × Nat)) (base n : Nat) : Bool :=
  base % 1024 = 0 && base + n ≤ Config.vectorBytes && used.all fun u => base + n ≤ u.1 || u.1 + u.2 ≤ base

/-- Starts of free areas of a length, in units. -/
def freeBases (used : List (Nat × Nat)) (n : Nat) : List Nat := ((List.range 384).map (· * 1024)).filter fun b => areaFree used b n

/-- Both areas of a team find room: each is contiguous (R93). -/
def areasFit (used : List (Nat × Nat)) (v h : Nat) : Bool :=
  if v = 0 then h = 0 || !(freeBases used h).isEmpty
  else if h = 0 then !(freeBases used v).isEmpty
  else (freeBases used v).any fun b => !(freeBases ((b, v) :: used) h).isEmpty

/-- A team fits a core (R26, R92, R241). -/
def fitsCore (cs : List Crew) (d : Desc) (gone : Bool) (core : Nat) : Bool :=
  (gone || (usedSlots cs core).length + d.team / 32 ≤ Config.waveSlots) && areasFit (usedAreas cs core) (if gone then 0 else d.vec) d.hnd
    && tileCount (usedAccs cs core) + d.w1cnt ≤ 16 && usedPad cs core + d.pad ≤ Config.scratchRegion
    && (d.pentry == 0 || !usedPunty cs core)

/-- Teams find cores in ascending order, each the first that fits it: the order of ranks is that of cores (R26). -/
def fitCores (cs : List Crew) (d : Desc) : List Bool → List Nat → Bool
  | [], _ => true
  | _, [] => false
  | g :: gs, k :: ks => if fitsCore cs d g k then fitCores cs d gs ks else fitCores cs d (g :: gs) ks

/-- A crew fits a cluster whose crews hold what they hold (R26). -/
def fits (cs : List Crew) (w : Want) : Bool :=
  cs.length < Config.maxCrews && (w.desc.gentry == 0 || (usedContexts cs).length < Config.gafferContexts)
    && fitCores cs w.desc w.exited (List.range Config.coresPerCluster)

/-! ### Candidates (R337) -/

/-- The scheduler acts for a queue. -/
def State.byQueue (s : State) (q : Nat) (record : Nat) : By :=
  let x := s.queue q
  { asid := x.asid, secure := x.world, team := none,
    who := { gln := 0, prod := false, gaff := false, secure := x.world, pc := 0, task := BitVec.ofNat 64 record, asid := x.asid, queue := q },
    src := { src := 0, chan := 0, tmpl := 0, retired := false }, lane := none }

/-- The need of a saved crew, from its team headers (R337): a team has exited where each of its thread records says so (R215). A crew whose headers are
not valid needs what it needed at its save; it is Lost when its turn comes (R211). -/
def State.savedWant (s : State) (x : Saved) : Want × State :=
  let b := x.crew.by
  let q := s.queue x.queue
  let want (d : Desc) (gone : List Bool) : Want := { queue := x.queue, cand := .slot x.slot, prio := x.crew.prio, desc := d, exited := gone }
  match s.loadHeaders b q x.slot with
  | (none, s) => (want x.crew.desc (x.crew.teams.map Team.exited), s)
  | (some hs, s) =>
    let d := x.crew.desc.shaped (hs.headD [])
    match loadAll b (((List.range hs.length).zip hs).map fun y => (q.saveVa x.slot y.1 + rdAt y.2 0x40 8, 48 * d.team)) s with
    | (none, s) => (want d (hs.map fun _ => false), s)
    | (some ts, s) => (want d (ts.map fun l => (List.range d.team).all fun k => fld (rdAt l (48 * k + 24) 8) 54 1 == 1), s)

/-- What a queue offers. -/
inductive Offered where
  | nothing
  | refused                        -- its head is refused (R333)
  | restore (x : Saved) (w : Want)
  | start (w : Want) (rec_ desc : List Byte)
deriving DecidableEq, Repr

/-- A record that may run (R331, R333), with its descriptor. -/
def recordOk (x : Queue) (r d : List Byte) : Bool :=
  let w3 := rdAt r 24 8
  let de := Desc.ofBytes d
  fld w3 13 50 = 0 && fld w3 11 1 = 0 && fld w3 3 5 = 0 && descClean d && de.ok && (fld w3 8 3 = 0 || fld w3 8 3 == de.crew) && (!de.priv || x.privok) && de.placeable

/-- A hold stands until its candidate is placed (R338), or is no more: its record has been popped, or its saved crew has gone. -/
def State.holdLive (s : State) (h : Hold) : Bool :=
  match h.cand with
  | .slot n => s.saved.any fun y => y.queue == h.queue && y.slot == n
  | .record i => (s.queue h.queue).head.toNat = i && (s.queue h.queue).head ≠ (s.queue h.queue).tail

/-- The saved crew that a queue offers: its oldest restorable one (R337). A candidate for which crews have been pre-empted stays its queue's candidate, so that
it takes what is held for it (R338; DEDUCED, log 38). -/
def State.offeredSaved (s : State) (q : Nat) : Option Saved :=
  s.saved.find? fun y => y.queue == q && y.ready && y.posted && (match s.holds.find? fun h => h.queue == q && s.holdLive h with
    | some h => h.cand == .slot y.slot
    | none => true)

/-- The candidate of a queue (R337). A queue that is disabled still has its saved crews restored (R329). -/
def State.offered (s : State) (q : Nat) : Offered × State :=
  let x := s.queue q
  match s.offeredSaved q with
  | some y => let (w, s) := s.savedWant y; (.restore y w, s)
  | none =>
    if !x.en || x.head == x.tail then (.nothing, s)
    else
      let va := x.slotVa x.head.toNat
      let b := s.byQueue q va
      match s.loadVa b va 32 with
      | (.fail _ _ _, s) => (.refused, s)
      | (.ok r, s) =>
        if x.kind && fld (rdAt r 24 8) 63 1 = 0 then (.nothing, s)
        else
          let code := rdAt r 0 8
          if code = 0 || code % 256 ≠ 0 then (.refused, s)
          else match s.loadVa b code 256 with
            | (.fail _ _ _, s) => (.refused, s)
            | (.ok d, s) =>
              if !recordOk x r d then (.refused, s)
              else
                let de := Desc.ofBytes d
                (.start { queue := q, cand := .record x.head.toNat, prio := fld (rdAt r 24 8) 0 3, desc := de, exited := List.replicate de.crew false } r d, s)

def Offered.want : Offered → Option Want
  | .restore _ w => some w
  | .start w _ _ => some w
  | _ => none

/-- Candidates of every queue, in ascending queue order. -/
def State.offers_ (s : State) : List Nat → List (Nat × Offered) × State
  | [] => ([], s)
  | q :: l =>
    let (o, s) := s.offered q
    let (r, s) := s.offers_ l
    ((q, o) :: r, s)

/-- HEAD moves past a record; in a graph queue its CMT is cleared with it (R332). -/
def State.pop (s : State) (q : Nat) : State :=
  let x := s.queue q
  let va := x.slotVa x.head.toNat
  let b := s.byQueue q va
  let s := if !x.kind then s
    else match s.loadVa b (va + 24) 8 with
      | (.fail _ _ _, s) => s
      | (.ok w, s) => (s.storeVa b (va + 24) (leBytes 8 (leNat w % 2 ^ 63))).2
  s.modQueue q fun x => { x with head := x.head + 1 }

/-- A refused record (R333): popped without running; its join block is left alone. -/
def State.refuseRecord (s : State) (die q : Nat) : State :=
  let x := s.queue q
  let b := s.byQueue q (x.slotVa x.head.toNat)
  ((s.pop q).modQueue q fun x => { x with err := true }).event 2 die { b.who with gln := die * 2 ^ 18 } { aux := BitVec.ofNat 64 x.head.toNat }

/-! ### Pre-emption (R338) -/

/-- Subsets of `k` elements, those of earlier elements first. -/
def choose {α : Type} : Nat → List α → List (List α)
  | 0, _ => [[]]
  | _ + 1, [] => []
  | k + 1, x :: l => (choose k l).map (x :: ·) ++ choose (k + 1) l

/-- A hold is for a candidate. -/
def Hold.isFor (h : Hold) (w : Want) : Bool := h.queue == w.queue && h.cand == w.cand

/-- What a candidate finds taken on a cluster: the resident crews, and what the saved victims of other candidates held, which is kept for those alone (R338). A
victim that is still being saved is resident; one that has come back holds resources of its own beside what it gave up. -/
def State.takenFor (s : State) (die cluster : Nat) (w : Want) : List Crew :=
  let cs := s.residents die cluster
  cs ++ ((s.holds.filter fun h => h.die == die && h.cluster == cluster && !h.isFor w).map fun h =>
    h.victims.filter fun v => !(cs.any fun c => c.id == v.id && c.placed == v.placed && c.saving.isSome)).flatten

/-- Crews of a cluster that a candidate of priority `p` may pre-empt: the lowest priority first, then the youngest. -/
def State.victims (s : State) (die cluster p : Nat) : List Crew :=
  sortBy (fun c => c.prio * 2 ^ 80 + (2 ^ 79 - c.placed)) ((s.residents die cluster).reverse.filter fun c =>
    c.running && c.prio < p && !c.nopre && c.fitsSlot (s.queue c.queue))

/-- Every victim finds a save slot of its queue. -/
def State.slotsFor (s : State) (vs : List Crew) : Bool :=
  vs.all fun c => (vs.filter fun d => d.queue == c.queue).length ≤ (s.freeSlots' c.queue).length

/-- The fewest victims whose removal lets a candidate fit a cluster. -/
def State.victimSet (s : State) (die cluster : Nat) (w : Want) : Option (List Crew) :=
  let cs := s.takenFor die cluster w
  let vs := s.victims die cluster w.prio
  ((List.range vs.length).map fun k => choose (k + 1) vs).flatten.find? fun l =>
    s.slotsFor l && fits (cs.filter fun c => !(l.any fun v => v.id == c.id)) w

/-- Every cluster of the package, in the order of its number within its die (R14). The spec does not order clusters of equal number: the lower die
comes first (DESIGN CHOICE, log 10). -/
def clusterList : List (Nat × Nat) := ((List.range Config.clusters).map fun k => (List.range Config.dies).map fun d => (d, k)).flatten

/-- The cluster that needs the fewest victims, the lowest first. -/
def State.preemptAt (s : State) (w : Want) : Option ((Nat × Nat) × List Crew) :=
  minBy (fun q => q.2.length) (clusterList.filterMap fun k => (s.victimSet k.1 k.2 w).map fun l => (k, l))

/-- Victims begin to be saved with reason 2, each into a free slot of its queue, and the cluster is held for the candidate. -/
def State.preempt (s : State) (w : Want) (die cluster : Nat) (vs : List Crew) : State :=
  let s := vs.foldl (fun s c =>
    match s.pickSlot c with
    | (some n, s) => s.modCrew c.id fun c => { c with saving := some { reason := 2, slot := n, since := s.clk c.die } }
    | (none, s) => s) s
  { s with holds := s.holds ++ [{ queue := w.queue, cand := w.cand, die := die, cluster := cluster, victims := vs }] }

/-! ### Allocation (R25 to R27, R92 to R94) -/

/-- The places that a pick gives teams. -/
def Pick.place (p : Pick) (d : Desc) (i : Nat) : Place :=
  ⟨p.cores.getD i 0, p.slots.getD i [], p.base0.getD i 0, if d.hnd = 0 then 0 else p.base3.getD i 0, p.accs.getD i 0⟩

/-- One team's place is free (R26). -/
def placeFree (cs : List Crew) (d : Desc) (gone : Bool) (p : Place) : Bool :=
  let used := usedAreas cs p.core
  let both := if gone then used else (p.base0, d.vec) :: used
  p.core < Config.coresPerCluster
    && (gone || (p.slots.length = d.team / 32 && (dedup p.slots).length = p.slots.length && p.slots.all (fun k => k < Config.waveSlots && !(usedSlots cs p.core).contains k)
      && areaFree used p.base0 d.vec))
    && (d.hnd = 0 || areaFree both p.base3 d.hnd)
    && tileCount p.accs = d.w1cnt && p.accs &&& usedAccs cs p.core = 0 && usedPad cs p.core + d.pad ≤ Config.scratchRegion
    && (d.pentry == 0 || !usedPunty cs p.core)

/-- Cores ascend. -/
def ascending : List Nat → Bool
  | a :: b :: l => a < b && ascending (b :: l)
  | _ => true

/-- A pick is one that R26 allows on a cluster. -/
def pickOk (cs : List Crew) (w : Want) (p : Pick) : Bool :=
  let d := w.desc
  cs.length < Config.maxCrews && p.cores.length = d.crew && ascending p.cores
    && ((List.range d.crew).all fun i => placeFree cs d (w.exited.getD i false) (Pick.place p d i))
    && (d.gentry == 0 || (p.gctx < Config.gafferContexts && !(usedContexts cs).contains p.gctx))

/-- The lowest number that no resident crew of the cluster holds (R24). -/
def lowestNumber (cs : List Crew) : Nat := ((List.range 16).find? fun i => !cs.any fun c => c.number == i).getD 0

/-- A path at an entry. -/
def entryPath (lanes : Lanes) (pc : Word) : Path := { Path.blank with lanes := lanes, pc := pc, prev := pc }

/-- A team as allocation leaves it: everything reads zero (R27). -/
def newTeam (d : Desc) (rank : Nat) (p : Place) (clk : Nat) : Team :=
  let w2 := BitVec.ofNat 64 (b2n d.w2en * 2 ^ 16 + d.w2tile * 2 ^ 8 + d.w2base)
  { rank := rank, core := p.core, base0 := p.base0, base3 := p.base3, slots := p.accs, scratch := [], padBad := [], bars := List.replicate 16 0,
    tiles := List.replicate d.w1cnt Tile.fresh, recs := List.replicate (2 * d.w1cnt) 0, steps := [], ops := [],
    waves := (List.range (d.team / 32)).map fun w => Strand.fresh (.wave rank w) (p.slots.getD w 0) w2 clk 32 [entryPath 0xFFFFFFFF d.lentry],
    producer := if d.pentry = 0 then none else some (Strand.fresh (.producer rank) 0 0 0 1 [entryPath 1 d.pentry]),
    queues := [0, 0, 0, 0], exited := false, urgent := false }

/-- A crew from its record and descriptor. -/
def State.newCrew (s : State) (w : Want) (r : List Byte) (die cluster number : Nat) (p : Pick) : Crew :=
  let d := w.desc
  let x := s.queue w.queue
  let clk := s.clk die
  { id := s.ids, die := die, cluster := cluster, number := number, exiting := false, desc := d, kdesc := BitVec.ofNat 64 (rdAt r 0 8),
    taskRec := BitVec.ofNat 64 (x.slotVa x.head.toNat), frame := BitVec.ofNat 64 (rdAt r 8 8), join := BitVec.ofNat 64 (rdAt r 16 8), prio := w.prio,
    nopre := fld (rdAt r 24 8) 12 1 == 1 && x.nopreok, queue := w.queue, asid := x.asid, secure := x.world,
    teams := (List.range d.crew).map fun i => newTeam d i (Pick.place p d i) clk,
    gaffer := if d.gentry = 0 then none else some (Strand.fresh .gaffer p.gctx 0 clk 1 [entryPath 1 d.gentry]),
    cbars := [0, 0, 0, 0], saving := none, nosave := none, placed := clk, marked := clk }

/-- M1 after a placement (R408): SM3 over M1, the descriptor and CODE. -/
def State.measure (s : State) (r d : List Byte) : State := { s with m1 := Config.sm3 ((leBytes 32 s.m1.toNat).reverse ++ d ++ r.take 8) }

/-- A new crew is allocated (R27): its registers, slots and scratchpads are cleared before anything issues. -/
def State.allocate (s : State) (w : Want) (r d : List Byte) (die cluster : Nat) (p : Pick) : State :=
  let c := s.newCrew w r die cluster (lowestNumber (s.residents die cluster)) p
  let s := ((s.pop w.queue).measure r d)
  let s := { s with ids := s.ids + 1, crews := s.crews ++ [c] }
  let s := c.teams.foldl (fun s t =>
    let core := c.teamCore t.rank
    let s := (s.clearRegs core t.base0 w.desc.vec).clearRegs core t.base3 w.desc.hnd
    (List.range w.desc.w1cnt).foldl (fun s i => s.clearRegs core (t.slotAddr i) Config.slotBytes) s) s
  s.placeAcquire c

/-- A saved crew is restored, or Lost when a header of it is not valid (R211). -/
def State.restore (s : State) (x : Saved) (die cluster : Nat) (w : Want) (p : Pick) : State :=
  let c := x.crew
  let q := s.queue x.queue
  let lost (s : State) : State :=
    { s.event 6 die (c.who (.wave 0 0) 0) { slot := x.slot } with saved := s.saved.filter fun y => y != x }
  match s.loadHeaders c.by q x.slot with
  | (none, s) => lost s
  | (some hs, s) => match s.loadImages c.by q x.slot c.desc c.gaffer.isSome (List.range hs.length) with
    | (none, s) => lost s
    | (some ms, s) =>
      match storeAll c.by (((List.range ms.length).zip ms).map fun y => (q.saveVa x.slot y.1, leBytes 8 (y.2.w 0 - 1))) s with
      | none => lost s
      | some s =>
        let (k, s) := match s.loadVa c.by ((ms.headD ⟨[], []⟩).w 1) 256 with
          | (.ok l, s) => (some l, s)
          | (.fail _ _ _, s) => (none, s)
        s.restoreCrew x k die cluster (lowestNumber (s.residents die cluster)) p.gctx ((List.range ms.length).map fun i => Pick.place p w.desc i) ms

/-! ### CREW_PLACE -/

/-- Candidates in the order in which a cluster takes them (R337): the highest priority, then round robin after the die's last queue. -/
def placeOrder (last : Nat) (ws : List (Offered × Want)) : List (Offered × Want) :=
  sortBy (fun w => (7 - w.2.prio) * 4096 + (w.2.queue + 4095 - last) % 4096) ws

/-- The first candidate, in order, that fits here is placed, if the pick is one that R26 allows. The die's round robin moves on where a crew was
placed (R337); a restore that ends Lost places none. -/
def State.placeFirst (s : State) (die cluster : Nat) (pick : Pick) : List (Offered × Want) → State
  | [] => s
  | (o, w) :: l =>
    let cs := s.takenFor die cluster w
    if !fits cs w then s.placeFirst die cluster pick l
    else if !pickOk cs w pick then s
    else
      let t := { s with holds := s.holds.filter fun h => !h.isFor w }
      let t := match o with
        | .start w r d => t.allocate w r d die cluster pick
        | .restore x w => t.restore x die cluster w pick
        | _ => t
      if s.crews.length < t.crews.length then t.modDie die fun d => { d with lastQ := w.queue } else t

/-- CREW_PLACE (R337, R338): a cluster chooses work. A refused record is popped first; then pre-emption for a candidate that fits nowhere;
then the placement itself, whose slots and areas the move names, since the spec leaves them open (log 10). -/
def execCrewPlace (die cluster : Nat) (pick : Pick) (s : State) : Host.Outcome State Fault Refusal :=
  .next (if !s.up || Config.dies ≤ die || Config.clusters ≤ cluster then s
    else
      let (os, s) := s.offers_ (sortBy id (dedup (s.queues.map Prod.fst ++ s.saved.map Saved.queue)))
      match os.find? fun o => match o.2 with | .refused => true | _ => false with
      | some o => s.refuseRecord die o.1
      | none =>
        let s := { s with holds := s.holds.filter s.holdLive }
        let cs := os.filterMap fun o => o.2.want.map fun w => (o.2, w)
        let cs := placeOrder (s.die die).lastQ cs
        let stuck := (cs.map Prod.snd).find? fun w =>
          !(s.holds.any fun h => h.isFor w) && !(clusterList.any fun k => fits (s.takenFor k.1 k.2 w) w)
            && (s.preemptAt w).isSome
        match stuck.bind fun w => (s.preemptAt w).map fun q => (w, q) with
        | some (w, k, vs) => if k = (die, cluster) then s.preempt w die cluster vs else s.placeFirst die cluster pick cs
        | none => s.placeFirst die cluster pick cs)

/-! ### CREW_EXIT (R29, R334) -/

/-- A command that still writes the crew's scratchpad. -/
def Cmd.intoPad (k : Cmd) : Bool :=
  match k.kind with
  | .rrot => true
  | .copy => k.template.route == 0
  | .coll => false

/-- The conditions of R29. -/
def State.exitReady (s : State) (c : Crew) : Bool :=
  c.saving.isNone && c.teams.all (fun t => t.exited && t.ops.isEmpty && t.tiles.all (fun x => x.susp.isNone)
      && (t.producer.map fun p => p.paths.isEmpty).getD true && t.waves.all fun w => w.refills.isEmpty && w.refilling == 0)
    && (c.gaffer.map fun g => g.paths.isEmpty && g.intr.isNone).getD true
    && !s.fetches.any (fun f => f.crew == c.id && f.counted) && !s.cmds.any (fun k => k.crew == c.id && k.intoPad)
    && !s.offers.any fun o => o.crew == c.id

/-- The release of the exit, at `dev` (R291): every access of the crew's streams, its flushes and its `TSTB` among them, has completed or has stopped
on a cause. -/
def Crew.exitReleased (c : Crew) : Bool :=
  (c.sids.filterMap c.strand?).all fun t => t.log.all fun e =>
    !(e.logged || isFlushWord (wordOf e.word) || isTstb (wordOf e.word)) || e.undone &&& ~~~e.faultLanes = 0

/-- The exit of a crew that holds nothing any more: its final join (R334). -/
def State.finishExit (s : State) (c : Crew) : State :=
  if !c.exitReleased then s
  else if c.join = 0 then s.removeCrew c.id
  else
    let w := c.who (.wave 0 0) 0
    let bad (s : State) : State := (s.event 8 c.die w { addr := c.join }).removeCrew c.id
    let port := corePort (c.coreOf .gaffer)
    if c.join.toNat % 64 ≠ 0 then bad s
    else match s.joinMay port c.die c.id none 0 with
      | (false, s) => s
      | (true, s) => match s.joinBlock c.by c.die c.join.toNat with
        | .done s => (s.served c.id none 0).removeCrew c.id
        | .refused s => s.refused port c.die c.id none 0
        | .fail _ _ _ s => bad (s.served c.id none 0)

/-- CREW_EXIT (R29): the crew's resources are freed together, and its join is performed; a refused join is tried again (R334). -/
def execCrewExit (crew : Nat) (s : State) : Host.Outcome State Fault Refusal :=
  .next (match s.crew? crew with
    | none => s
    | some c =>
      if c.exiting then s.finishExit c
      else if !s.exitReady c then s
      else
        let s := s.modCrew crew fun c => { c with exiting := true }
        let s := { s with pins := s.pins.filter fun p => match p.holder with
          | .tile k _ _ => k != crew
          | .soft k _ => k != crew
          | .im2col k _ => k != crew }
        match s.crew? crew with
        | some c => s.finishExit c
        | none => s)

/-! ### URGENCY_MARK (R339) -/

/-- Clauses that a team has completed since the last mark. -/
def Team.clauseCount (t : Team) : Nat := (t.waves.map Strand.clauses).sum

/-- URGENCY_MARK: every 4096 clocks the team with the fewest clauses is marked, the lowest rank among equals. -/
def execUrgencyMark (crew : Nat) (s : State) : Host.Outcome State Fault Refusal :=
  .next (match s.crew? crew with
    | none => s
    | some c =>
      if c.teams.length < 2 || s.clk c.die - c.marked < 4096 then s
      else
        let slow := (minBy Team.clauseCount c.teams).map Team.rank
        s.modCrew crew fun c => { c with
          marked := s.clk c.die,
          teams := c.teams.map fun t => { t with urgent := slow == some t.rank, waves := t.waves.map fun w => { w with clauses := 0 } } })

end Sys2Proof.Machine
end

