-- ==== Sys2Proof/Machine/Host.lean ====
section
/-! DEFINITION. What the host writes and what the part does for it: work queues (R329, R330, R336), package and die control (R399), the observation
apertures (R254, R317, R322), snapshots (R318), fault records (R401, R402) and containment (R409). -/

namespace Sys2Proof.Machine

/-! ### Who writes (R5, R398, R400) -/

/-- A write of the host reaches the part: the firmware has enabled the links, and one is trained (R398, R408). -/
def State.hostIn (s : State) : Bool := s.up && s.links.any Link.up

/-- The queue whose block stands n-th in the window of a function: a virtual function sees the queues that QOWNER gives it, in ascending order (R400). -/
def State.queueOf (s : State) (who : HostFn) (n : Nat) : Option Nat :=
  if who.fn = 0 then (if n < 4096 then some n else none)
  else if who.fn ≤ 63 then (sortBy id ((s.qowner.filter fun e => e.2.toNat == who.fn).map Prod.fst))[n]?
  else none

/-- A host write to a queue's block. -/
def State.onQueue (s : State) (who : HostFn) (n : Nat) (f : Nat → State) : State :=
  if !s.hostIn then s
  else match s.queueOf who n with
    | some q => f q
    | none => s

/-! ### Work-queue registers -/

/-- What binding a queue asks (R329). -/
def State.bindOk (s : State) (x : Queue) : Bool :=
  let a := s.asidEntry x.asid
  a.v && a.sworld == x.world && x.base != 0 && x.base.toNat % 64 = 0 && x.log2n.toNat ≤ 20

/-- A write of EN = 1. -/
def State.enableQueue (s : State) (q : Nat) : State :=
  s.modQueue q fun x => if s.bindOk x then { x with en := true } else { x with bind := true }

/-- A write of EN = 0: pops stop. -/
def State.disableQueue (s : State) (q : Nat) : State := s.modQueue q fun x => { x with en := false }

/-- A write of TAIL (R330): it is read-only in a graph queue, and one that would pass N disables the queue. -/
def State.writeTail (s : State) (q : Nat) (v : BitVec 32) : State :=
  s.modQueue q fun x =>
    if x.kind then x
    else if x.size < (v - x.head).toNat then { x with err := true, en := false }
    else { x with tail := v }

/-- Lanes of the paths that wait for a slot's RESUME. -/
def Strand.frozenAt (t : Strand) (slot : Nat) : Lanes :=
  (t.allPaths.filter fun p => p.frozen == some slot).foldl (fun m p => m ||| p.lanes) 0

/-- Paths that waited for RESUME are eligible again, and what faulted in their lanes re-issues (R208, R336). -/
def Strand.resumed (slot : Nat) (t : Strand) : Strand :=
  let ls := t.frozenAt slot
  if ls = 0 then t
  else
    let f (p : Path) : Path := if p.frozen == some slot then { p with frozen := none } else p
    let g (e : Entry) : Entry :=
      let mine := e.faults.filter fun x => x.cause == 8 && ls.getLsbD x.lane
      { e with faults := e.faults.filter (fun x => !mine.contains x), sent := e.sent &&& ~~~(lanesFrom (mine.map LaneFault.lane)) }
    { t with paths := t.paths.map f, intr := t.intr.map (fun i => { i with path := f i.path, held := i.held.map f }),
             log := t.log.map g, pend := t.pend.filter fun x => x.cause != 8 }

/-- Entries of its log that issue again then, where they have recorded a cause. -/
def Strand.resuming (slot : Nat) (t : Strand) : List Entry :=
  t.log.filter fun e => e.faults.any fun x => x.cause == 8 && (t.frozenAt slot).getLsbD x.lane

/-- Every stream of a crew, its producers among them. -/
def Crew.resumed (slot : Nat) (c : Crew) : Crew := { c.eachStrand (Strand.resumed slot) with nosave := none }

/-- A crew that waits with NOSAVE under a slot number. -/
def Crew.waits (q slot : Nat) (c : Crew) : Bool := c.queue == q && c.nosave == some slot

/-- A RESUME write names a saved or a waiting crew by a number below SAVECOUNT (R336). -/
def State.resumable (s : State) (q slot : Nat) : Bool :=
  slot < (s.queue q).savecount.toNat && (s.saved.any (fun x => x.queue == q && (x.slot == slot || x.crew.waits q slot)) || s.crews.any (Crew.waits q slot))

def State.queueErr (s : State) (q : Nat) : State := s.modQueue q fun x => { x with err := true }

/-- RESUME with DROP = 0. -/
def State.resumeSlot (s : State) (q slot : Nat) : State :=
  if !s.resumable q slot then s.queueErr q
  else
    let cs := (s.crews ++ s.saved.map Saved.crew).filter (Crew.waits q slot)
    let s := cs.foldl (fun s c => c.sids.foldl (fun s sid => s.reissued c.id sid (((c.strand? sid).map (Strand.resuming slot)).getD [])) s) s
    { s with saved := mapIf (fun x => x.queue == q && x.crew.waits q slot) (fun x => { x with crew := x.crew.resumed slot })
                  (mapIf (fun x => x.queue == q && x.slot == slot) (fun x => { x with ready := true }) s.saved),
                crews := mapIf (Crew.waits q slot) (Crew.resumed slot) s.crews }

/-- RESUME with DROP = 1: the crew is Lost (R30). -/
def State.dropSlot (s : State) (q slot : Nat) : State :=
  if !s.resumable q slot then s.queueErr q
  else
    let hit (x : Saved) : Bool := x.queue == q && (x.slot == slot || x.crew.waits q slot)
    let s := (s.saved.filter hit).foldl (fun s x => s.event 6 x.crew.die (x.crew.who (.wave 0 0) 0) { slot := slot }) s
    let s := { s with saved := s.saved.filter fun x => !hit x,
                      posts := s.posts.filter fun r => !(r.queue == q && r.slot == slot) }
    (s.crews.filter (Crew.waits q slot)).foldl (fun s c => s.loseCrew c slot) s

/-- The fields at offset 0x00: while EN = 1 some of them keep their values. -/
def Queue.writeBind (x : Queue) (secure : Bool) (v : Word) : Queue :=
  let x := { x with privok := if secure then wbit v 4 else x.privok, nopreok := wbit v 3 }
  if x.en then x
  else { x with asid := v.extractLsb' 16 16, log2n := v.extractLsb' 8 5, world := if secure then wbit v 2 else x.world, kind := wbit v 1 }

/-- A write to a queue's block (R329). -/
def State.writeQueue (s : State) (who : HostFn) (q off : Nat) (v : Word) : State :=
  match off with
  | 0x00 =>
    let s := s.modQueue q fun x => x.writeBind who.secure v
    if wbit v 0 then s.enableQueue q else s.disableQueue q
  | 0x08 => s.modQueue q fun x => if x.en then x else { x with base := v }
  | 0x18 => s.writeTail q (v.extractLsb' 0 32)
  | 0x20 => s.modQueue q fun x => if x.en then x else { x with savebase := v }
  | 0x28 => s.modQueue q fun x => { x with savecount := v.extractLsb' 32 16, stride := v.extractLsb' 0 32 }
  | 0x30 => if wbit v 16 then s.dropSlot q (wfld v 0 16) else s.resumeSlot q (wfld v 0 16)
  | 0x38 => s.modQueue q fun x =>
      { x with bind := x.bind && !wbit v 50, err := x.err && !wbit v 49, exh := x.exh && !wbit v 48, exhlim := v.extractLsb' 32 16 }
  | _ => s

/-! ### Fault and event rings (R402) -/

/-- A write to ring block i. -/
def State.writeRing (s : State) (who : HostFn) (i off : Nat) (v : Word) : State :=
  if 2 ≤ i && !who.secure then s
  else s.modRing i fun r =>
    match off with
    | 0x00 => if r.rctl.getLsbD 0 then r else { r with rbase := v &&& ~~~0xFFF }
    | 0x08 => if r.rctl.getLsbD 0 || wfld v 0 5 < 4 || 16 < wfld v 0 5 then r else { r with rlog2 := v.extractLsb' 0 5 }
    | 0x10 => { r with rhead := v.extractLsb' 0 32 }
    | 0x20 => { r with rctl := v.extractLsb' 0 13 }
    | 0x40 => if i % 2 = 1 && v = 0 then { r with lostev := 0 } else r
    | _ => r

/-- A held fault record that may be written: the crew it reports is not still being saved. -/
def State.postable (s : State) (secure : Bool) (r : HostRec) : Bool :=
  r.secure == secure && r.fault && !s.crews.any fun c => c.queue == r.queue && (match c.saving with
    | some x => x.slot == r.slot && !wbit (r.w.headD 0) 40
    | none => false)

/-- FAULT_RECORD_POST (R401): the oldest held record goes into its ring once that has room, and the saved crew that it reports becomes restorable. -/
def execFaultRecordPost (secure : Bool) (s : State) : Host.Outcome State Fault Refusal :=
  .next (match s.posts.find? (s.postable secure) with
    | none => s
    | some r =>
      let i := ringIndex secure true
      if !s.ringTakes i then s
      else
        let s := s.writeRecord i r.w
        let s := { s with posts := s.posts.erase r }
        if wbit (r.w.headD 0) 40 then s
        else { s with saved := mapIf (fun x => x.queue == r.queue && x.slot == r.slot) (fun x => { x with posted := true }) s.saved })

/-! ### Translation invalidates (R224, R399) -/

def State.startInval (s : State) (asid : BitVec 16) : State := { s with invals := s.invals ++ [asid] }

/-! ### Observation apertures (R254, R317) -/

/-- What non-secure writes do not reach: the registers of a core on which a secure crew is resident (R403, R407). -/
def State.shielded (s : State) (who : HostFn) (die core : Nat) : Bool := !who.secure && s.secureOn die (core / 4) (some (core % 4))

/-- A block of the observation aperture, with its core where it is one. -/
def obsBlock (off : Nat) : Option (Option Nat) :=
  if 0x100000 ≤ off ∧ off < 0x100000 + 0x1000 * 168 then some (some ((off - 0x100000) / 0x1000))
  else if 0x200000 ≤ off ∧ off < 0x200000 + 0x1000 * Config.coreSlices then some none
  else if 0x300000 ≤ off ∧ off < 0x300000 + 0x1000 * Config.memSlices then some none
  else none

/-- Fields of CELL (R316). -/
def cellMask : Word := 0xFFFF0003FFFF0007

/-- A CELL write: its run in progress is cleared. -/
def State.writeCell (s : State) (die off : Nat) (v : Word) : State :=
  { s.setObs die off (v &&& cellMask) with runs := assocDel s.runs (die, off) }

/-- Streams of a core as path trace takes them: a Gaffer context goes with each core of its crew. -/
def coreStreams (core : CoreId) (c : Crew) (sid : Sid) : Bool :=
  match sid with
  | .gaffer => c.teams.any fun t => c.teamCore t.rank == core
  | _ => c.coreOf sid == core

/-- TRCTL written (R322): path trace that is switched on begins with a SYNC record and a PATH record for each path. -/
def State.writeTrace (s : State) (core : CoreId) (v : Word) : State :=
  let was := s.traced core
  let s := s.setObs core.die (coreBlock core + 0xF00) (v &&& 1)
  if wbit v 0 && !was then s.emitSync core.die (coreStreams core) else s

/-- A write to the BINs (R317), 32-bit counters at 4-byte offsets: zero clears the one that it names, and an 8-byte write clears each of its two that it
writes with zero (log 26). -/
def State.clearBins (s : State) (die off : Nat) (v : Word) : State :=
  let at_ := off / 8 * 8
  let clear (lo : Nat) (x : Nat) (w : Word) : Word := if x = 0 then wput w lo 32 0 else w
  let w := s.obsWord die at_
  s.setObs die at_ (if off % 8 = 4 then clear 32 (wfld v 0 32) w else clear 32 (wfld v 32 32) (clear 0 (wfld v 0 32) w))

/-- A host write to a die's observation aperture. -/
def State.writeObs (s : State) (who : HostFn) (die off : Nat) (v : Word) : State :=
  match obsBlock off with
  | none => s
  | some core =>
    let o := off % 0x1000
    if (core.map (s.shielded who die)).getD false then s
    else if o < 0x80 then s.writeCell die off v
    else if o < 0x100 then s.setObs die off (v &&& 0x7FFFFFFFFFFFFFFF)
    else if o < 0x180 then (if v = 0 then s.setObs die off 0 else s)
    else if 0x200 ≤ o && o < 0x400 then s.clearBins die off v
    else match core with
      | none => s
      | some k =>
        if o = 0xF00 then s.writeTrace { die := die, cluster := k / 4, core := k % 4 } v
        else if o = 0xF08 then s.setObs die off (v &&& 0xF)
        else s

/-- A host write to BAR2 (R399). -/
def State.writeBar2 (s : State) (who : HostFn) (off : Nat) (v : Word) : State :=
  if off < 0x400000 then s.writeCounter who.secure (off / 0x100000) (off % 0x100000) v
  else if 0x800000 ≤ off ∧ off < 0x1800000 then s.writeObs who ((off - 0x800000) / 0x400000) ((off - 0x800000) % 0x400000) v
  else s

/-- MEMORY_COUNTER_CLEAR (R254), by a function of the non-secure world; the secure one writes the register itself (log 26). -/
def execMemoryCounterClear (die off : Nat) (v : Word) (s : State) : Host.Outcome State Fault Refusal :=
  .next (if s.hostIn && die < Config.dies && off < 0x100000 then s.writeCounter false die off v else s)

/-- CELL_WRITE (R317). -/
def execCellWrite (who : HostFn) (die off : Nat) (v : Word) (s : State) : Host.Outcome State Fault Refusal :=
  .next (if s.hostIn && who.fn = 0 && die < Config.dies && off % 8 = 0 && off % 0x1000 < 0x80 then s.writeObs who die off v else s)

/-- TRACE_CONTROL_WRITE (R322): `core` is a core's number in the package. -/
def execTraceControlWrite (who : HostFn) (core : Nat) (v : Word) (s : State) : Host.Outcome State Fault Refusal :=
  .next (if s.hostIn && who.fn = 0 && core < 672 && !s.shielded who (core / 168) (core % 168) then s.writeTrace (coreAt core) v else s)

/-- SNAPSHOT_MESSAGE (R318): a die takes its next trigger, in SSEQ order. -/
def execSnapshotMessage (die : Nat) (s : State) : Host.Outcome State Fault Refusal :=
  .next (match minBy Snap.seq (s.snaps.filter fun x => x.die == die) with
    | none => s
    | some x => { s with snaps := s.snaps.erase x }.snapshotAt die x.seq x.tag x.who)

/-! ### Containment (R409) -/

/-- Secure crews, and what belongs to them, are reached only by the secure host function (R407). -/
def whoReaches (who : HostFn) (secure : Bool) : Bool := who.secure || !secure

/-- Containment reset of one cluster: its crews are Lost, and what it sent and what is addressed to it is discarded. A change that has been made stands. -/
def State.containCluster (s : State) (who : HostFn) (die q : Nat) : State :=
  let on (d k : Nat) (secure : Bool) : Bool := d == die && k == q && whoReaches who secure
  let s := (s.crews.filter fun c => on c.die c.cluster c.secure).foldl (fun s c => s.loseCrew c ((c.saving.map Saving.slot).getD 0)) s
  let s := { s with msgs := s.msgs.filter fun m => !on m.core.die m.core.cluster m.secure,
                    cmds := s.cmds.filter fun k => !on k.die k.cluster k.secure,
                    replays := s.replays.filter fun r => 2 ^ 19 ≤ r.port || r.port / 8 != die * 256 + q }
  let s := { s with msgs := mapIf (fun m => m.core.die == die && m.core.cluster == q) (fun m => { m with held := false }) s.msgs }
  let s := (List.range 5).foldl (fun s k =>
    let core : CoreId := { die := die, cluster := q, core := k }
    let s := s.invalidateL1 core
    { s with ibuf := assocDel s.ibuf core }) s
  s.event 13 die { gln := glaneOf { die := die, cluster := q, core := 0 } 0 0, prod := false, gaff := false, secure := false, pc := 0, task := 0,
                   asid := 0, queue := 0 } {}

/-- A write of CONTAIN: bit q resets cluster q. -/
def State.contain (s : State) (who : HostFn) (die : Nat) (mask : Word) : State :=
  ((List.range Config.clusters).filter fun q => wbit mask q).foldl (fun s q => s.containCluster who die q) s

/-- CONTAINMENT_RESET. -/
def execContainmentReset (who : HostFn) (die : Nat) (mask : Word) (s : State) : Host.Outcome State Fault Refusal :=
  .next (if s.hostIn && who.fn = 0 && die < Config.dies then s.contain who die mask else s)

/-! ### Package and die control (R399, R406) -/

/-- A group's word written. -/
def State.writeGroup (s : State) (die g : Nat) (second : Bool) (v : Word) : State :=
  s.modDie die fun d =>
    let (w0, w1) := (assocGet d.groups g).getD (0, 0)
    { d with groups := assocSet d.groups g (if second then (w0, v &&& 0xFFFFFFFFFFFF0) else (v &&& 0x800000000000FFFF, w1)) }

/-- A write to die control. -/
def State.writeDie (s : State) (who : HostFn) (die off : Nat) (v : Word) : State :=
  match off with
  | 0x00 => s.modDie die fun d => { d with backoff := v &&& 0xFFF }
  | 0x08 => s.modDie die fun d => { d with scatbase := v }
  | 0x10 => s.modDie die fun d => { d with scatsize := v }
  | 0x18 => s.modDie die fun d => { d with trbase := v }
  | 0x20 => s.modDie die fun d => { d with trsize := v }
  | 0x28 => s.modDie die fun d => { d with trread := v }
  | 0x40 => s.modDie die fun d => { d with peerto := v }
  | 0x48 => if who.secure then s.modDie die fun d => { d with strbase := v } else s
  | 0x50 => if who.secure then s.modDie die fun d => { d with strsize := v } else s
  | 0x58 => if who.secure then s.modDie die fun d => { d with strread := v } else s
  | 0x200 => s.contain who die v
  | _ =>
    if 0x80 ≤ off ∧ off < 0x100 then
      let second := off % 16 = 8
      s.modDie die fun d => { d with watch := listMod d.watch ((off - 0x80) / 16) fun w =>
        if second then (w.1, v &&& 0xFFFFFFFFFFFFF) else (v &&& 0x700FFFFFFFFFFFFF, w.2) }
    else if 0x400 ≤ off ∧ off < 0x1400 then s.writeGroup die ((off - 0x400) / 16) (off % 16 = 8) v
    else s

/-- A write to package control; only the physical function sees it (R400). -/
def State.writePackage (s : State) (who : HostFn) (off : Nat) (v : Word) : State :=
  if off = 0x00 then { s with asidbase := v }
  else if off = 0x08 then s.startInval (v.extractLsb' 0 16)
  else if off = 0x18 then { s with debugarm := v.extractLsb' 0 17, armsec := who.secure }
  else if 0x100 ≤ off ∧ off < 0x1100 then
    { s with qowner := ((List.range 8).zip (leBytes 8 v.toNat)).foldl (fun (m : List (Nat × BitVec 8)) q => assocSet m (off - 0x100 + q.1) q.2) s.qowner }
  else s

/-- An offset of a BIN (R317), at which the host may write 4 bytes. -/
def binOffset (off : Nat) : Bool := 0x10800000 ≤ off && off < 0x11800000 && 0x200 ≤ off % 0x1000 && off % 0x1000 < 0x400

/-- A host write at an offset of BAR0, or from 0x1000_0000 on of BAR2 (log 26). -/
def State.hostWrite (s : State) (who : HostFn) (off : Nat) (v : Word) : State :=
  if !s.hostIn || off % 4 ≠ 0 || (off % 8 ≠ 0 && !binOffset off) then s
  else if off < 0x40000 then s.onQueue who (off / 64) fun q => s.writeQueue who q (off % 64) v
  else if who.fn ≠ 0 then s
  else if off < 0x80000 then s.writePackage who (off - 0x40000) v
  else if off < 0x100000 then (if off < 0x80400 then s.writeRing who ((off - 0x80000) / 0x100) (off % 0x100) v else s)
  else if off < 0x140000 then s.writeDie who ((off - 0x100000) / 0x10000) (off % 0x10000) v
  else if 0x10000000 ≤ off ∧ off < 0x20000000 then s.writeBar2 who (off - 0x10000000) v
  else s

/-! ### What the host reads (R5): a read changes nothing -/

/-- A queue's block as a host function reads it (R329): the secure fields read zero elsewhere, RESUME is write-only. -/
def State.readQueue (s : State) (who : HostFn) (q off : Nat) : Word :=
  let x := s.queue q
  let sec (b : Bool) : Nat := b2n (b && who.secure)
  let n : Nat := match off with
    | 0x00 => x.asid.toNat * 2 ^ 16 + x.log2n.toNat * 2 ^ 8 + sec x.privok * 2 ^ 4 + b2n x.nopreok * 2 ^ 3 + sec x.world * 2 ^ 2 + b2n x.kind * 2 + b2n x.en
    | 0x08 => x.base.toNat
    | 0x10 => x.head.toNat
    | 0x18 => x.tail.toNat
    | 0x20 => x.savebase.toNat
    | 0x28 => (s.freeSlots' q).length % 2 ^ 16 * 2 ^ 48 + x.savecount.toNat * 2 ^ 32 + x.stride.toNat
    | 0x38 => b2n x.bind * 2 ^ 50 + b2n x.err * 2 ^ 49 + b2n x.exh * 2 ^ 48 + x.exhlim.toNat * 2 ^ 32 + x.fails.toNat
    | _ => 0
  BitVec.ofNat 64 n

/-- A ring block (R402): in the secure blocks every RW field is RWS. -/
def State.readRing (s : State) (who : HostFn) (i off : Nat) : Word :=
  let r := s.ringN i
  let rw (v : Nat) : Word := if 2 ≤ i && !who.secure then 0 else BitVec.ofNat 64 v
  match off with
  | 0x00 => rw r.rbase.toNat
  | 0x08 => rw r.rlog2.toNat
  | 0x10 => rw r.rhead.toNat
  | 0x18 => BitVec.ofNat 64 r.rtail.toNat
  | 0x20 => rw r.rctl.toNat
  | 0x40 => if i % 2 = 1 then rw r.lostev.toNat else 0
  | _ => 0

/-- Die control (R399, R406, R410): CONTAIN is write-only, and the four words of the secure record ring read zero outside the secure world.
R410 names the words from +0x300 on in this order, one after another (log 26). -/
def State.readDie (s : State) (who : HostFn) (die off : Nat) : Word :=
  let d := s.die die
  let sec (v : Word) : Word := if who.secure then v else 0
  match off with
  | 0x00 => d.backoff
  | 0x08 => d.scatbase
  | 0x10 => d.scatsize
  | 0x18 => d.trbase
  | 0x20 => d.trsize
  | 0x28 => d.trread
  | 0x30 => d.trwrite
  | 0x40 => d.peerto
  | 0x48 => sec d.strbase
  | 0x50 => sec d.strsize
  | 0x58 => sec d.strread
  | 0x60 => sec d.strwrite
  | 0x300 => d.wslot
  | 0x308 => d.wstep
  | 0x310 => Config.gauge 0 die d.clk
  | 0x318 => Config.gauge 1 die d.clk
  | _ =>
    if 0x80 ≤ off ∧ off < 0x100 then
      let w := d.watch.getD ((off - 0x80) / 16) (0, 0)
      if off % 16 = 8 then w.2 else w.1
    else if 0x400 ≤ off ∧ off < 0x1400 then
      let w := (assocGet d.groups ((off - 0x400) / 16)).getD (0, 0)
      if off % 16 = 8 then w.2 else w.1
    else 0

/-- Package control (R399): INVAL is write-only. -/
def State.readPackage (s : State) (off : Nat) : Word :=
  if off = 0x00 then s.asidbase
  else if off = 0x10 then s.invdone
  else if off = 0x18 then BitVec.ofNat 64 s.debugarm.toNat
  else if 0x100 ≤ off ∧ off < 0x1100 then
    BitVec.ofNat 64 (leNat ((List.range 8).map fun i => (assocGet s.qowner (off - 0x100 + i)).getD 0))
  else 0

/-- A host read of 8 bytes at an offset of BAR0, or from 0x1000_0000 on of BAR2 (R5, R399, R400): what no register has reads zero. A read that does not
reach the part has no value of the part's. -/
def State.hostRead (s : State) (who : HostFn) (off : Nat) : Option Word :=
  if !s.hostIn || off % 8 ≠ 0 then none
  else some (
    if off < 0x40000 then (match s.queueOf who (off / 64) with
      | some q => s.readQueue who q (off % 64)
      | none => 0)
    else if who.fn ≠ 0 then 0
    else if off < 0x80000 then s.readPackage (off - 0x40000)
    else if off < 0x80400 then s.readRing who ((off - 0x80000) / 0x100) (off % 0x100)
    else if 0x100000 ≤ off ∧ off < 0x140000 then s.readDie who ((off - 0x100000) / 0x10000) (off % 0x10000)
    else if 0x10000000 ≤ off ∧ off < 0x20000000 then s.apertureRead (off - 0x10000000) who.secure
    else 0)

/-! ### The moves -/

/-- REGISTER_WRITE (R5): a host write to a register under its access code. -/
def execRegisterWrite (who : HostFn) (off : Nat) (v : Word) (s : State) : Host.Outcome State Fault Refusal := .next (s.hostWrite who off v)

/-- QUEUE_ENABLE (R329). -/
def execQueueEnable (who : HostFn) (q : Nat) (s : State) : Host.Outcome State Fault Refusal := .next (s.onQueue who q s.enableQueue)

/-- QUEUE_DISABLE (R329). -/
def execQueueDisable (who : HostFn) (q : Nat) (s : State) : Host.Outcome State Fault Refusal := .next (s.onQueue who q s.disableQueue)

/-- TAIL_WRITE (R330). -/
def execTailWrite (who : HostFn) (q : Nat) (v : BitVec 32) (s : State) : Host.Outcome State Fault Refusal := .next (s.onQueue who q fun q => s.writeTail q v)

/-- RESUME (R336). -/
def execResume (who : HostFn) (q slot : Nat) (s : State) : Host.Outcome State Fault Refusal := .next (s.onQueue who q fun q => s.resumeSlot q slot)

/-- RESUME_DROP (R336). -/
def execResumeDrop (who : HostFn) (q slot : Nat) (s : State) : Host.Outcome State Fault Refusal := .next (s.onQueue who q fun q => s.dropSlot q slot)

/-- ASID_INVALIDATE (R224). -/
def execAsidInvalidate (asid : BitVec 16) (s : State) : Host.Outcome State Fault Refusal := .next (if s.hostIn then s.startInval asid else s)

/-- INVALIDATE_COMPLETE (R224): only the new entries are used from here on, and INVDONE counts it. -/
def execInvalidateComplete (asid : BitVec 16) (s : State) : Host.Outcome State Fault Refusal :=
  .next (if s.invals.contains asid then { s.dropTlb asid with invals := s.invals.erase asid, invdone := s.invdone + 1 } else s)

end Sys2Proof.Machine
end

