-- ==== Sys2Proof/Machine/Lane.lean ====
section
/-! DEFINITION. Instructions across the lanes of one path (R144 to R147). The participants are the guarded lanes. -/

namespace Sys2Proof.Machine

/-- Source lane of SHFL (R145), for a segment width that is valid. -/
def shflSource (mode : Shfl) (l k w : Nat) : Nat :=
  let base := l - l % w
  match mode with
  | .idx => base + k % w
  | .up => if k ≤ l - base then l - k else l
  | .down => if l + k < base + w then l + k else l
  | .xor => l ^^^ (k % w)

/-- Segment widths of SHFL (R145). -/
def shflWidth (w : Nat) : Bool := [1, 2, 4, 8, 16, 32].contains w

/-- SHFL (R145): a lane with an invalid width raises cause 3 and writes nothing; it still supplies its value (R144). -/
def execShfl (p : Pre) (t : Ty) (mode : Shfl) (d a b e : Opd) (s : State) : Host.Outcome State Fault Refusal :=
  word (.shfl p t mode d a b e) s fun c =>
    let bad := c.ls.filter fun l => !shflWidth (c.rd .n32 e l)
    let s := c.forLanes (fun l s =>
      if bad.contains l then s
      else
        let i := shflSource mode l (c.rd .n32 b l) (c.rd .n32 e l)
        c.write t d l (c.read t a (if c.act.getLsbD i then i else l)) s) c.s0
    if bad.isEmpty then .done s else .raise s 0 (bad.map fun l => { lane := l, cause := 3, addr := 0, kind := 0 })

/-- VOTE (R146). -/
def execVote (p : Pre) (t : Ty) (kind : Vote) (d a : Opd) (s : State) : Host.Outcome State Fault Refusal :=
  word (.vote p t kind d a) s fun c =>
    let holds (l : Nat) : Bool := c.rd t a l != 0
    let v : Nat := match kind with
      | .all => b2n (c.ls.all holds)
      | .any => b2n (c.ls.any holds)
      | .eq => b2n (c.ls.all fun l => c.rd t a l == c.rd t a (lowLane c.act))
      | .ballot => (lanesFrom (c.ls.filter holds)).toNat
    c.map .n32 d fun _ => v

/-- MATCH (R146). -/
def execMatchl (p : Pre) (t : Ty) (d a : Opd) (s : State) : Host.Outcome State Fault Refusal :=
  word (.matchl p t d a) s fun c => c.map .n32 d fun l => (lanesFrom (c.ls.filter fun i => c.rd t a i == c.rd t a l)).toNat

/-- Node value of LRED (R147). -/
def lredNode (t : Ty) (op : Lred) (x y : Nat) : Nat :=
  let f := t.fmt?.getD fp32
  let isF := t.fmt?.isSome
  match op with
  | .add => if isF then faddF f .rne (f.read x) (f.read y) else (x + y) % 2 ^ t.ebits
  | .min => if isF then fminmaxF f false x y else if elemVal t x 0 ≤ elemVal t y 0 then x else y
  | .max => if isF then fminmaxF f true x y else if elemVal t x 0 ≥ elemVal t y 0 then x else y
  | .and => x &&& y
  | .or => x ||| y
  | .xor => x ^^^ y

/-- One level of the tree: neighbours join, and ABSENT joins nothing. -/
def lredLevel (f : Nat → Nat → Nat) : List (Option Nat) → List (Option Nat)
  | x :: y :: l =>
    (match x, y with
      | some a, some b => some (f a b)
      | none, y => y
      | x, none => x) :: lredLevel f l
  | l => l

/-- The five levels. -/
def lredTree (f : Nat → Nat → Nat) : Nat → List (Option Nat) → Option Nat
  | 0, l => l.headD none
  | n + 1, l => lredTree f n (lredLevel f l)

/-- LRED (R147). -/
def execLred (p : Pre) (t : Ty) (op : Lred) (d a : Opd) (s : State) : Host.Outcome State Fault Refusal :=
  word (.lred p t op d a) s fun c =>
    let x0 := (List.range 32).map fun j => if c.act.getLsbD j then some (c.rd t a j) else none
    let r := (lredTree (lredNode t op) 5 x0).getD 0
    c.map t d fun _ => r

end Sys2Proof.Machine
end

