-- ==== Sys2Proof/Machine/Links.lean ====
section
/-! DEFINITION. Dropping and replay between units (R341, R342), the links to peers and host (R398, R404 to R406), boot and attestation (R408), power and
temperature (R12, R410). -/

namespace Sys2Proof.Machine

/-! ### Dropping and replay (R341, R342). Receiving ports have the numbers of R342; sending ports those of `Msg.sender`. -/

/-- The dies that traffic between two dies crosses, both ends included: between dies 0 and 3 it passes through die 1, between 1 and 2 through die 0 (R10). -/
def dieRoute (a b : Nat) : List Nat := if a = b then [a] else if a + b = 3 then [a, (if min a b = 0 then 1 else 0), b] else [a, b]

/-- The die at which a message leaves the ring for its ordering point: the PCIe links stand on dies 0 and 3 (R398), and a peer's requests leave on
the issuer's own die (log 7). -/
def State.farDie (s : State) (m : Msg) : Nat :=
  match m.point with
  | .slice d _ | .mslice d _ | .lpddr d | .aperture d => d
  | .pcie => 3 * s.linkFor m.core.die
  | .pad _ _ | .peer _ => m.core.die

/-- The dies on which a receiving port stands on a message's way (R10, R341, R342): a ring or UCIe port on every die that it crosses, the port of the
unit that it goes to on that unit's die. -/
def State.arrivesAt (s : State) (m : Msg) (port : Nat) : List Nat :=
  let onRing : List Nat := if 192 ≤ port && port < 200 && (match m.point with | .pad _ _ => false | _ => true) then dieRoute m.core.die (s.farDie m) else []
  if m.phase == .back then (if port == m.core.cluster then [m.core.die] else onRing)
  else match m.point with
    | .slice d k => if port == 64 + k then [d] else onRing
    | .mslice d k => if port == 128 + k then [d] else onRing
    | .pad _ _ => if port == m.core.cluster then [m.core.die] else []
    | _ => onRing

/-- A refused message waits its back-off (R342). Of the later unaccepted messages of its port to the same receiver, those that the receiver has not accepted
wait behind it: which, is a free choice (R341; log 66). -/
def State.refuseMsg (s : State) (m : Msg) : State :=
  let due := s.resendAt (portDie m) (m.tries + 1)
  let later := (s.window m.sender).filter fun o => m.id < o.id && !o.held && m.sameReceiver o
  let s := s.modMsg m.id fun m => { m with held := true, tries := m.tries + 1, due := due }
  later.foldl (fun s o =>
    let (b, s) := s.drawBit
    s.modMsg o.id fun o => if b then { o with accepted := true } else { o with held := true, due := max o.due due }) s

/-- MESSAGE_DROP (R341): a message meets a full or refusing queue at a receiving port; it waits in its sender's window, and the port counts the drop. -/
def execMessageDrop (port msg : Nat) (s : State) : Host.Outcome State Fault Refusal :=
  .next (match s.msg? msg with
    | none => s
    | some m =>
      let ds := s.arrivesAt m port
      if ds.isEmpty || m.held || m.accepted || m.phase == .posted then s
      else
        -- the move names a port's number; which die's port it is, is a free choice among those on the way (log 7)
        let (k, s) := s.drawIndex ds.length
        (s.addCounter (ds.getD k 0) (0x8000 + 8 * port) 1).refuseMsg m)

/-- The message that a port sends again next: the oldest of those it holds for a receiver whose back-off is over. The later ones follow by moves of their own,
in their original order (R341). -/
def State.nextResend (s : State) (port : Nat) : Option Msg :=
  let hs := (s.window port).filter Msg.held
  hs.find? fun m => m.due ≤ s.clk (portDie m) && !hs.any fun o => o.id < m.id && m.sameReceiver o

/-- REPLAY_RESEND (R341): after its back-off a port's oldest held message is on its way again; so are the pushes that a producer holds back (R360). -/
def execReplayResend (port : Nat) (s : State) : Host.Outcome State Fault Refusal :=
  .next ((match s.nextResend port with
    | some m => s.modMsg m.id fun m => { m with held := false }
    | none => s).resendPushes port)

/-! ### UALink (R405, R406) -/

/-- The window that a virtual address of a command stands in. -/
def State.windowOf (s : State) (k : Cmd) (va : Nat) : Option Point :=
  match s.walk k.asid (BitVec.ofNat 64 va) with
  | .ok l => some (homeOf l.cp l.at_)
  | .fail _ _ => none

/-- A command still reads or writes through a window. -/
def State.usesWindow (s : State) (k : Cmd) (p : Point) (writes : Bool) : Bool :=
  (k.reads.any fun q => q.1.isNone && s.windowOf k (32 * q.2) == some p)
    || (writes && k.writes.any fun w => w.rank.isNone && s.windowOf k (((w.cells.head?).map Prod.fst).getD 0 / 32 * 32) == some p)

/-- A copy names an address in a peer's window (R343, R406). -/
def State.namesPeer (s : State) (k : Cmd) (peer : Nat) : Bool :=
  match k.plan (2 ^ 32) with
  | .inl _ => false
  | .inr p => (p.named k.template k.dstHdr).any fun a => s.windowOf k a == some (.peer peer)

/-- A command that a peer's link carries: what it has still to read or write there, or where it has not read everything yet, what it names there. -/
def State.toPeer (s : State) (k : Cmd) (peer : Nat) : Bool :=
  match k.kind with
  | .coll => !k.planned && k.peers.contains peer
  | .copy => s.usesWindow k (.peer peer) true || (!k.planned && s.namesPeer k peer)
  | .rrot => false

/-- PEER_LINK_DOWN (R406): commands to the peer end with ECODE 7, and stores on their way through its window complete with an engine error. -/
def execPeerLinkDown (peer : Nat) (s : State) : Host.Outcome State Fault Refusal :=
  .next (if 256 ≤ peer then s
    else
      let s := { s with peersDown := if s.peersDown.contains peer then s.peersDown else s.peersDown ++ [peer] }
      let s := { s with cmds := mapIf (fun k => s.toPeer k peer) (fun k => k.failed 7) s.cmds }
      let s := (s.cmds.map Cmd.id).foldl State.reap s
      (s.msgs.filter fun m => m.phase == .out && m.point == .peer peer && m.kind == .store).foldl State.storeFails s)

/-- UALINK_LINK_UP (R406). -/
def execUalinkLinkUp (peer : Nat) (s : State) : Host.Outcome State Fault Refusal := .next { s with peersDown := s.peersDown.filter (· ≠ peer) }

/-! ### PCIe (R398, R404) -/

/-- PCIE_LINK_TRAIN (R398): generation 5 to 7, at ×16, or at ×8 or ×4 when lanes fail; not before boot has enabled the links (R408). -/
def execPcieLinkTrain (link gen width : Nat) (s : State) : Host.Outcome State Fault Refusal :=
  .next (if s.up && link < 2 && 5 ≤ gen && gen ≤ 7 && [16, 8, 4].contains width
    then { s with links := listSet s.links link { up := true, gen := gen, width := width } } else s)

/-- PCIE_LINK_DOWN (R404): what it carried goes through the other link. -/
def execPcieLinkDown (link : Nat) (s : State) : Host.Outcome State Fault Refusal :=
  .next { s with links := listMod s.links link fun l => { l with up := false } }

/-- The zero-length read that obtains the far side's acknowledgement of a posted write has failed (R404): cause 6 in the lanes that wait for it with a release
at `sys`; other waits read again (log 70). -/
def State.flushFails (s : State) (m : Msg) : State :=
  match s.strand? m.crew m.sid with
  | none => s
  | some t => (t.log.filter fun e => m.entry < e.id && relScope (wordOf e.word) == some .sys).foldl (fun s e =>
      s.logFault m.crew m.sid e.id ((m.acts.map Act.lane).filter fun l => e.undone.getLsbD l && !e.sent.getLsbD l) 6 2 false) s

/-- A copy with the release flag that has written through the PCIe window waits for the far side's acknowledgement (R292, R404). -/
def State.flushesPcie (s : State) (k : Cmd) : Bool :=
  k.kind == .copy && k.rel && k.planned && k.reads.isEmpty && k.writes.isEmpty && !k.done && k.ecode = 0 && k.template.route != 0
    && (match k.plan (2 ^ 32) with
      | .inl _ => false
      | .inr p => p.elts.any fun e => s.windowOf k (e.put_ / 8) == some .pcie)

/-- PCIE_COMPLETION_TIMEOUT (R404): cause 6 in the lanes of a logged word, ECODE 1 for a command. A staging command never reads the window. -/
def execPcieCompletionTimeout (a : AccRef) (s : State) : Host.Outcome State Fault Refusal :=
  .next (match a with
    | .msg id => match s.msg? id with
      | none => s
      | some m =>
        if m.phase == .posted then s.flushFails m
        else if m.point != .pcie || m.held || !(m.phase == .out || m.phase == .back) || !(m.kind == .load || m.kind == .atom || m.kind == .acas
            || (m.kind == .store && m.phase == .back && wantsTag (wordOf m.word))) then s
        else
          let live := match s.entry? m.crew m.sid m.entry with
            | some e => (m.acts.map Act.lane).filter fun l => e.undone.getLsbD l
            | none => []
          ((s.dropMsg id).modEntry m.crew m.sid m.entry fun e => { e with sent := e.sent &&& ~~~(lanesFrom live) }).logFault m.crew m.sid m.entry live 6
            (kindOf (wordOf m.word)) false
    | .fetch _ => s
    | .cmd id => match s.cmd? id with
      | none => s
      | some k => if s.usesWindow k .pcie false || s.flushesPcie k then (s.modCmd id fun k => k.failed 1).reap id else s)

/-! ### Boot and attestation (R408) -/

/-- An entry of the secure region table with its reserved bits zero (R223). -/
def regionWord (r : Word × Word) : Word × Word := (r.1 &&& 0xFFFFFFFE00003, r.2 &&& 0xFFFFFFFE00000)

/-- Bytes of the secure region table. -/
def State.regionBytes (s : State) : List Byte := (s.regions.map fun r => leBytes 8 r.1.toNat ++ leBytes 8 r.2.toNat).flatten

/-- A 256-bit digest as bytes, the most significant first. -/
def digestBytes (d : BitVec 256) : List Byte := (leBytes 32 d.toNat).reverse

/-- BOOT (R408): the firmware is verified, its region table is written, and the links may train. The status register holds bit 0, a failed signature,
and bit 1, a thermal trip before this boot (log 26). -/
def execBoot (fw : Firmware) (s : State) : Host.Outcome State Fault Refusal :=
  .next (if s.up then s
    else
      let d := Config.sm3 fw.image
      let trip := BitVec.ofNat 64 (2 * b2n s.tripped)
      if Config.sm2Verify Config.vendorKey d fw.sig then
        { s with up := true, m0 := d, m1 := 0, status := trip, tripped := false,
                 regions := ((fw.regions ++ List.replicate 64 (0, 0)).take 64).map regionWord }
      else { s with status := trip ||| 1 })

/-- ATTESTATION_REQUEST (R408): the report and its signature. -/
def execAttestationRequest (nonce : BitVec 256) (s : State) : Host.Outcome State Fault Refusal :=
  .next (if !s.hostIn then s
    else
      let body := digestBytes nonce ++ digestBytes s.m0 ++ digestBytes s.m1 ++ digestBytes (Config.sm3 s.regionBytes) ++ Config.serial
      { s with report := some (body ++ Config.sm2Sign body) })

/-! ### Power and temperature (R12, R410) -/

/-- THERMAL_TRIP (R410): all dies reset, every crew is Lost, no record is posted, and the next boot reports it. Memory keeps its bytes, since the spec
says nothing else of them (log 26). -/
def execThermalTrip (s : State) : Host.Outcome State Fault Refusal :=
  .next { State.reset with agenda := s.agenda, free := s.free, ids := s.ids, mem := s.mem, lost := s.lost, tripped := true }

/-- POWER_LIMIT_REACHED (R12): issue slots and matrix steps may be withheld from here on, and are counted. -/
def execPowerLimitReached (s : State) : Host.Outcome State Fault Refusal := .next { s with limited := true }

/-- POWER_LIMIT_RELEASED (R12). -/
def execPowerLimitReleased (s : State) : Host.Outcome State Fault Refusal := .next { s with limited := false }

end Sys2Proof.Machine
end

