-- ==== Sys2Proof/Machine/TileWords.lean ====
section
/-! DEFINITION. The tile words that may name a Suspended tile as they issue (R183): bounds and status (R188, R189), TSAVE (R191) and TRESUME (R192). -/

namespace Sys2Proof.Machine

/-! ### Bounds, thresholds and TSAVE -/

/-- A misaligned address (R188 to R191). -/
def misBad (ga : Word) (n : Nat) : List (Nat × Nat) := if ga.toNat % n ≠ 0 then [(7, ga.toNat)] else []

namespace Ctx

/-- A word that may name a Suspended tile. There it applies at once, ahead of queued work (R183), as soon as older accesses of the context let the access
that it makes go (R188); elsewhere it takes its place in the order of the core's unit (R175). -/
def boundWord (c : Ctx) (core : BitVec 2) (tile : BitVec 4) (x : BitVec 6) (k : Counts) (bad : Word → List (Nat × Nat)) : Out :=
  match c.teamOf core with
  | none => .done c.s0
  | some t =>
    let ga := c.gReg x.toNat
    if c.act = 0 then .done c.s0
    else match bad ga with
      | [] =>
        let o : TileOp := { id := c.s0.ids, word := c.word, tile := tile.toNat, ga := ga, mma := none, inH := c.inH }
        match (t.tile tile.toNat).susp with
        | none => if t.nowOn tile.toNat then .stall else c.tileAccept k (c.addOp core tile ga false)
        | some y =>
          if t.nowOn tile.toNat || c.s0.unitHeld c.crew { t with rank := core.toNat } o then .stall
          else c.tileAccept k fun id s =>
            let s := c.addOp core tile ga true id s
            match s.crew? c.id, s.team? c.id core.toNat with
            | some d, some u => s.applyOp d { u with rank := core.toNat } { o with id := id, now := true } (y.mma.map fun m => (y, m))
            | _, _ => s
      | fs => c.tileFault fs

end Ctx

/-- TSTB.ent (R188). -/
def execTstbEnt (p : Pre) (core : BitVec 2) (tile : BitVec 4) (x : BitVec 6) (s : State) : Host.Outcome State Fault Refusal :=
  word (.tstbEnt p core tile x) s fun c => c.boundWord core tile x ⟨0, 1, 0, 0⟩ fun g => misBad g 8
/-- TSTB.full. -/
def execTstbFull (p : Pre) (core : BitVec 2) (tile : BitVec 4) (x : BitVec 6) (s : State) : Host.Outcome State Fault Refusal :=
  word (.tstbFull p core tile x) s fun c => c.boundWord core tile x ⟨0, 1, 0, 0⟩ fun g => misBad g 16
/-- TLDB.ent. -/
def execTldbEnt (p : Pre) (core : BitVec 2) (tile : BitVec 4) (x : BitVec 6) (s : State) : Host.Outcome State Fault Refusal :=
  word (.tldbEnt p core tile x) s fun c => c.boundWord core tile x ⟨1, 0, 0, 0⟩ fun g => misBad g 8
/-- TLDB.full. -/
def execTldbFull (p : Pre) (core : BitVec 2) (tile : BitVec 4) (x : BitVec 6) (s : State) : Host.Outcome State Fault Refusal :=
  word (.tldbFull p core tile x) s fun c => c.boundWord core tile x ⟨1, 0, 0, 0⟩ fun g => misBad g 16
/-- TBSET.thr (R189). -/
def execTbsetThr (p : Pre) (core : BitVec 2) (tile : BitVec 4) (x : BitVec 6) (s : State) : Host.Outcome State Fault Refusal :=
  word (.tbsetThr p core tile x) s fun c => c.boundWord core tile x .none fun _ => []
/-- TBSET.hdr. -/
def execTbsetHdr (p : Pre) (core : BitVec 2) (tile : BitVec 4) (x : BitVec 6) (s : State) : Host.Outcome State Fault Refusal :=
  word (.tbsetHdr p core tile x) s fun c => c.boundWord core tile x .none fun g => misBad g 128
/-- TBSET.all. -/
def execTbsetAll (p : Pre) (core : BitVec 2) (tile : BitVec 4) (x : BitVec 6) (s : State) : Host.Outcome State Fault Refusal :=
  word (.tbsetAll p core tile x) s fun c => c.boundWord core tile x .none fun g =>
    if loadedBound (bBound g) ≠ bBound g then [(3, 0)] else []
/-- TSAVE (R191). -/
def execTsave (p : Pre) (core : BitVec 2) (tile : BitVec 4) (x : BitVec 6) (s : State) : Host.Outcome State Fault Refusal :=
  word (.tsave p core tile x) s fun c => c.boundWord core tile x .none fun g => misBad g 128

/-! ### TRESUME (R192) -/

namespace Ctx

/-- TRESUME of the Suspended operation: it acts at once, and retires (R183, R298), behind the alias accesses accepted before it (R173). A tile that is not
Suspended is cause 3: R192 says so of an Idle one, and the model takes a Running one alike (DEDUCED, log 78). -/
def resumeHeld (c : Ctx) (core : BitVec 2) (tile : BitVec 4) (mode : Resume) : Out :=
  match c.teamOf core with
  | none => .done c.s0
  | some t =>
    let x := t.tile tile.toNat
    if c.act = 0 then .done c.s0
    else if t.nowOn tile.toNat then .stall
    else match x.susp.bind fun o => o.mma.map fun m => (o, m) with
      | none => c.tileFault [(3, 0)]
      | some (o, m) =>
        if mode == .restart && !t.c0Held tile.toNat o.id then c.tileFault [(3, 0)]
        else if !c.t.canRaise ⟨0, 0, 0, 1⟩ || c.s0.aliasOpen c.crew t c.s0.ids tile.toNat then .stall
        else
          let (m, s) := c.s0.resumeAs (c.crew.teamCore core.toNat) c.id t tile.toNat mode m
          .done (s.modTeam c.id core.toNat fun t => { (t.modTile tile.toNat fun x => { x with susp := none }) with ops := { o with mma := some m } :: t.ops })

/-- Work on a tile that a word behind it waits for: a `TSAVE` that will leave the tile Idle, or operations that leave it Idle of themselves. An operation
in progress behind the last `TSAVE` is no such work (R191, R192). -/
def idleSoon (t : Team) (i : Nat) : Bool :=
  let ops := t.ops.filter fun o => o.tile == i
  !ops.isEmpty && ((ops.reverse.find? fun o => isTsave (wordOf o.word) || o.mma.isSome).all fun o => o.mma.isNone)

/-- TRESUME.rec: the record is read by the context as an `LD`, behind older accesses and behind a `TSAVE` that writes it, and its steps are staged
again; the context waits for quota (R192). A record that is not 128-aligned is cause 7, which R195 gives for alignment at issue, though R192 says that any
failure is cause 3 (DEDUCED, log 78). -/
def resumeRec (c : Ctx) (core : BitVec 2) (tile : BitVec 4) (x : BitVec 6) (mode : Resume) : Out :=
  match c.teamOf core with
  | none => .done c.s0
  | some t =>
    let ga := (c.gReg x.toNat).toNat
    let i := tile.toNat
    let saves (u : Team) : Bool := u.ops.any fun o => isTsave (wordOf o.word) && o.ga.toNat / 128 == ga / 128
    if c.act = 0 then .done c.s0
    else if ga % 128 ≠ 0 then c.tileFault [(7, ga)]
    else if c.s0.aliasOpen c.crew t c.s0.ids i || t.nowOn i || idleSoon t i || c.crew.teams.any saves || c.t.holdsBack c.inH none (c.gReg x.toNat) then .stall
    else match c.s0.loadVa (c.byLane 0) ga 128 with
      | (.fail k va ab, _) => .raise c.s0 0 [laneFault 0 k va 1 ab]
      | (.ok l, s) =>
        match seqOp l 0 c.inH with
        | none => c.tileFault [(3, 0)]
        | some (o, m) =>
          if !seqOk t core.toNat i mode l o m then c.tileFault [(3, 0)]
          else
            if t.quotaU + t.quotaH + seqLines l m > t.quota then .stall
            else c.tileAccept .none fun id _ =>
              let (m', s) := (c.modT { s with ids := s.ids + 1 } fun t => t.raise ⟨0, 0, 0, 1⟩).resumeAs (c.crew.teamCore core.toNat) c.id t i mode m
              let n := 2 + 2 * m.n
              let fa := s.ids
              let fr (k res : Nat) : Fetch := ⟨fa + k, c.id, core.toNat, res, c.inH, false⟩
              let s := { s with ids := s.ids + n, fetches := s.fetches ++ [fr 0 (wfld o.word 29 5), fr 1 (wfld o.word 24 5)] }
              -- the two staging commands count in no counter of their own
              s.modTeam c.id core.toNat fun t =>
                { t with steps := t.steps ++ seqSteps l m id fa (fa + 1) (fa + 2), ops := t.ops ++ [{ o with id := id, mma := some m' }] }

end Ctx

/-- TRESUME.cont. -/
def execTresumeCont (p : Pre) (fromRec : Bool) (core : BitVec 2) (tile : BitVec 4) (x : BitVec 6) (s : State) : Host.Outcome State Fault Refusal :=
  word (.tresumeCont p fromRec core tile x) s fun c => if fromRec then c.resumeRec core tile x .cont else c.resumeHeld core tile .cont
/-- TRESUME.wide. -/
def execTresumeWide (p : Pre) (fromRec : Bool) (core : BitVec 2) (tile : BitVec 4) (x : BitVec 6) (s : State) : Host.Outcome State Fault Refusal :=
  word (.tresumeWide p fromRec core tile x) s fun c => if fromRec then c.resumeRec core tile x .wide else c.resumeHeld core tile .wide
/-- TRESUME.restart. -/
def execTresumeRestart (p : Pre) (fromRec : Bool) (core : BitVec 2) (tile : BitVec 4) (x : BitVec 6) (s : State) : Host.Outcome State Fault Refusal :=
  word (.tresumeRestart p fromRec core tile x) s fun c => if fromRec then c.resumeRec core tile x .restart else c.resumeHeld core tile .restart

end Sys2Proof.Machine
end

