-- ==== Sys2Proof/Machine/Dispatch.lean ====
section
/-! DEFINITION. One arm for each constructor of `Instr`: a direct call of its meaning. -/

namespace Sys2Proof.Machine

open Sys2Proof

def exec (i : Instr) (s : State) : Host.Outcome State Fault Refusal :=
  match i with
  | .nop p => Sys2Proof.Machine.execNop p s
  | .bra p uni off => Sys2Proof.Machine.execBra p uni off s
  | .brx p uni a => Sys2Proof.Machine.execBrx p uni a s
  | .call p uni a off => Sys2Proof.Machine.execCall p uni a off s
  | .callx p uni d a => Sys2Proof.Machine.execCallx p uni d a s
  | .ret p uni a => Sys2Proof.Machine.execRet p uni a s
  | .yield p => Sys2Proof.Machine.execYield p s
  | .exit p => Sys2Proof.Machine.execExit p s
  | .iadd p t sat d a b => Sys2Proof.Machine.execIadd p t sat d a b s
  | .isub p t sat d a b => Sys2Proof.Machine.execIsub p t sat d a b s
  | .imul p t d a b => Sys2Proof.Machine.execImul p t d a b s
  | .imulhi p t d a b => Sys2Proof.Machine.execImulhi p t d a b s
  | .imad p t d a b c => Sys2Proof.Machine.execImad p t d a b c s
  | .iwmad p t d a b c => Sys2Proof.Machine.execIwmad p t d a b c s
  | .imin p t d a b => Sys2Proof.Machine.execImin p t d a b s
  | .imax p t d a b => Sys2Proof.Machine.execImax p t d a b s
  | .iabs p t sat d a => Sys2Proof.Machine.execIabs p t sat d a s
  | .isad p t d a b c => Sys2Proof.Machine.execIsad p t d a b c s
  | .iaddi p t sat d a imm => Sys2Proof.Machine.execIaddi p t sat d a imm s
  | .lea p t sh d a b => Sys2Proof.Machine.execLea p t sh d a b s
  | .idp4 p t sat xb d a b c => Sys2Proof.Machine.execIdp4 p t sat xb d a b c s
  | .and p t d a b => Sys2Proof.Machine.execAnd p t d a b s
  | .or p t d a b => Sys2Proof.Machine.execOr p t d a b s
  | .xor p t d a b => Sys2Proof.Machine.execXor p t d a b s
  | .andn p t d a b => Sys2Proof.Machine.execAndn p t d a b s
  | .shl p t d a b => Sys2Proof.Machine.execShl p t d a b s
  | .shr p t d a b => Sys2Proof.Machine.execShr p t d a b s
  | .sar p t d a b => Sys2Proof.Machine.execSar p t d a b s
  | .rot p t d a b => Sys2Proof.Machine.execRot p t d a b s
  | .bfx p t d a b => Sys2Proof.Machine.execBfx p t d a b s
  | .bfi p t d a b c => Sys2Proof.Machine.execBfi p t d a b c s
  | .popc p t d a => Sys2Proof.Machine.execPopc p t d a s
  | .clz p t d a => Sys2Proof.Machine.execClz p t d a s
  | .brev p t d a => Sys2Proof.Machine.execBrev p t d a s
  | .movi p t d imm => Sys2Proof.Machine.execMovi p t d imm s
  | .movhi p t b40 d a imm => Sys2Proof.Machine.execMovhi p t b40 d a imm s
  | .icmp p t cc d a b => Sys2Proof.Machine.execIcmp p t cc d a b s
  | .plop p lut d a b c => Sys2Proof.Machine.execPlop p lut d a b c s
  | .sel p t d a b c => Sys2Proof.Machine.execSel p t d a b c s
  | .mov p t d a => Sys2Proof.Machine.execMov p t d a s
  | .shfl p t mode d a b c => Sys2Proof.Machine.execShfl p t mode d a b c s
  | .vote p t kind d a => Sys2Proof.Machine.execVote p t kind d a s
  | .matchl p t d a => Sys2Proof.Machine.execMatchl p t d a s
  | .lred p t op d a => Sys2Proof.Machine.execLred p t op d a s
  | .p2v p t ones d a => Sys2Proof.Machine.execP2v p t ones d a s
  | .v2p p t d a => Sys2Proof.Machine.execV2p p t d a s
  | .fadd p t rm d a b => Sys2Proof.Machine.execFadd p t rm d a b s
  | .fsub p t rm d a b => Sys2Proof.Machine.execFsub p t rm d a b s
  | .fmul p t rm d a b => Sys2Proof.Machine.execFmul p t rm d a b s
  | .ffma p t rm d a b c => Sys2Proof.Machine.execFfma p t rm d a b c s
  | .fmin p t d a b => Sys2Proof.Machine.execFmin p t d a b s
  | .fmax p t d a b => Sys2Proof.Machine.execFmax p t d a b s
  | .fcmp p t cc d a b => Sys2Proof.Machine.execFcmp p t cc d a b s
  | .fclass p t d a b => Sys2Proof.Machine.execFclass p t d a b s
  | .fdiv p t rm d a b => Sys2Proof.Machine.execFdiv p t rm d a b s
  | .fsqrt p t rm d a => Sys2Proof.Machine.execFsqrt p t rm d a s
  | .frint p t rm d a => Sys2Proof.Machine.execFrint p t rm d a s
  | .fabs p t d a => Sys2Proof.Machine.execFabs p t d a s
  | .fneg p t d a => Sys2Proof.Machine.execFneg p t d a s
  | .fdot p t rm d a b c => Sys2Proof.Machine.execFdot p t rm d a b c s
  | .fexp2 p t d a => Sys2Proof.Machine.execFexp2 p t d a s
  | .flog2 p t d a => Sys2Proof.Machine.execFlog2 p t d a s
  | .fsin p t d a => Sys2Proof.Machine.execFsin p t d a s
  | .fcos p t d a => Sys2Proof.Machine.execFcos p t d a s
  | .frsq p t d a => Sys2Proof.Machine.execFrsq p t d a s
  | .frcp p t d a => Sys2Proof.Machine.execFrcp p t d a s
  | .ftanh p t d a => Sys2Proof.Machine.execFtanh p t d a s
  | .cvt p t rm d a pol f => Sys2Proof.Machine.execCvt p t rm d a pol f s
  | .cvtn p t rm pos d a pol f => Sys2Proof.Machine.execCvtn p t rm pos d a pol f s
  | .cvtw p t pos d a pol f => Sys2Proof.Machine.execCvtw p t pos d a pol f s
  | .ld p t m d a off hint => Sys2Proof.Machine.execLd p t m d a off hint s
  | .st p t m tag d a off hint => Sys2Proof.Machine.execSt p t m tag d a off hint s
  | .lds p t z d a off => Sys2Proof.Machine.execLds p t z d a off s
  | .sts p t z d a off => Sys2Proof.Machine.execSts p t z d a off s
  | .ldrs p t z d a off => Sys2Proof.Machine.execLdrs p t z d a off s
  | .strs p t z d a off => Sys2Proof.Machine.execStrs p t z d a off s
  | .pref p l1 a off hint => Sys2Proof.Machine.execPref p l1 a off hint s
  | .pin p d a off => Sys2Proof.Machine.execPin p d a off s
  | .unpin p a off => Sys2Proof.Machine.execUnpin p a off s
  | .cctlIinv p => Sys2Proof.Machine.execCctlIinv p s
  | .cctlL1 p => Sys2Proof.Machine.execCctlL1 p s
  | .cctlEvict p a off => Sys2Proof.Machine.execCctlEvict p a off s
  | .cctlFlush p a off => Sys2Proof.Machine.execCctlFlush p a off s
  | .rrot p bwd a b n => Sys2Proof.Machine.execRrot p bwd a b n s
  | .rrotMatch crew => Sys2Proof.Machine.execRrotMatch crew s
  | .fence p sc => Sys2Proof.Machine.execFence p sc s
  | .atom p t op d a b => Sys2Proof.Machine.execAtom p t op d a b s
  | .acas p t d a b c => Sys2Proof.Machine.execAcas p t d a b c s
  | .gsadd p a b => Sys2Proof.Machine.execGsadd p a b s
  | .gsflush p a b => Sys2Proof.Machine.execGsflush p a b s
  | .gsflushAll p => Sys2Proof.Machine.execGsflushAll p s
  | .wait p ld st cp tl => Sys2Proof.Machine.execWait p ld st cp tl s
  | .barSync p b n => Sys2Proof.Machine.execBarSync p b n s
  | .barArv p b n => Sys2Proof.Machine.execBarArv p b n s
  | .cbarSync p b n => Sys2Proof.Machine.execCbarSync p b n s
  | .cbarArv p b n => Sys2Proof.Machine.execCbarArv p b n s
  | .tbinit p a b => Sys2Proof.Machine.execTbinit p a b s
  | .tbarriveLane p sc a => Sys2Proof.Machine.execTbarriveLane p sc a s
  | .tbarrivePath p sc a => Sys2Proof.Machine.execTbarrivePath p sc a s
  | .tbexpect p a b => Sys2Proof.Machine.execTbexpect p a b s
  | .tbwait p sc a b => Sys2Proof.Machine.execTbwait p sc a b s
  | .spawn p d a b => Sys2Proof.Machine.execSpawn p d a b s
  | .join p a => Sys2Proof.Machine.execJoin p a s
  | .qres p d a b => Sys2Proof.Machine.execQres p d a b s
  | .qcommit p a b c => Sys2Proof.Machine.execQcommit p a b c s
  | .qpop p t d n => Sys2Proof.Machine.execQpop p t d n s
  | .qpeek p d n => Sys2Proof.Machine.execQpeek p d n s
  | .trec p t a => Sys2Proof.Machine.execTrec p t a s
  | .tspan p => Sys2Proof.Machine.execTspan p s
  | .tspanRc p a b => Sys2Proof.Machine.execTspanRc p a b s
  | .tspanArea p a b => Sys2Proof.Machine.execTspanArea p a b s
  | .tpop p t d => Sys2Proof.Machine.execTpop p t d s
  | .tapeRefillDone crew sid lane => Sys2Proof.Machine.execTapeRefillDone crew sid lane s
  | .tret p => Sys2Proof.Machine.execTret p s
  | .raygen p d a b c => Sys2Proof.Machine.execRaygen p d a b c s
  | .trace p d a b => Sys2Proof.Machine.execTrace p d a b s
  | .traceAdjTri p a b c => Sys2Proof.Machine.execTraceAdjTri p a b c s
  | .traceAdjPatch p a b c => Sys2Proof.Machine.execTraceAdjPatch p a b c s
  | .tsamp p d a b c => Sys2Proof.Machine.execTsamp p d a b c s
  | .tsampAdj p d a b c => Sys2Proof.Machine.execTsampAdj p d a b c s
  | .esamp p d a b c => Sys2Proof.Machine.execEsamp p d a b c s
  | .renderResult crew sid entry => Sys2Proof.Machine.execRenderResult crew sid entry s
  | .tres p n a b => Sys2Proof.Machine.execTres p n a b s
  | .tfetch p sc core grp rec n => Sys2Proof.Machine.execTfetch p sc core grp rec n s
  | .tlds p sc core grp rec n => Sys2Proof.Machine.execTlds p sc core grp rec n s
  | .tmma p core tile ra rb n lehr zi bnd w64 => Sys2Proof.Machine.execTmma p core tile ra rb n lehr zi bnd w64 s
  | .tileStep crew rank tile => Sys2Proof.Machine.execTileStep crew rank tile s
  | .tzero p a64 core tile => Sys2Proof.Machine.execTzero p a64 core tile s
  | .tcvt p rm core tile tgt pol => Sys2Proof.Machine.execTcvt p rm core tile tgt pol s
  | .tstbEnt p core tile x => Sys2Proof.Machine.execTstbEnt p core tile x s
  | .tstbFull p core tile x => Sys2Proof.Machine.execTstbFull p core tile x s
  | .tldbEnt p core tile x => Sys2Proof.Machine.execTldbEnt p core tile x s
  | .tldbFull p core tile x => Sys2Proof.Machine.execTldbFull p core tile x s
  | .tbsetThr p core tile x => Sys2Proof.Machine.execTbsetThr p core tile x s
  | .tbsetHdr p core tile x => Sys2Proof.Machine.execTbsetHdr p core tile x s
  | .tbsetAll p core tile x => Sys2Proof.Machine.execTbsetAll p core tile x s
  | .tsave p core tile x => Sys2Proof.Machine.execTsave p core tile x s
  | .tresumeCont p fromRec core tile x => Sys2Proof.Machine.execTresumeCont p fromRec core tile x s
  | .tresumeWide p fromRec core tile x => Sys2Proof.Machine.execTresumeWide p fromRec core tile x s
  | .tresumeRestart p fromRec core tile x => Sys2Proof.Machine.execTresumeRestart p fromRec core tile x s
  | .trap p imm => Sys2Proof.Machine.execTrap p imm s
  | .brk p imm => Sys2Proof.Machine.execBrk p imm s
  | .hret p => Sys2Proof.Machine.execHret p s
  | .snap p a => Sys2Proof.Machine.execSnap p a s
  | .wrsr p t d a => Sys2Proof.Machine.execWrsr p t d a s
  | .sld p t z inc d a off => Sys2Proof.Machine.execSld p t z inc d a off s
  | .qpush p a n => Sys2Proof.Machine.execQpush p a n s
  | .sloop p a off => Sys2Proof.Machine.execSloop p a off s
  | .issueSlot die cluster core quad ticks => Sys2Proof.Machine.execIssueSlot die cluster core quad ticks s
  | .loneIssueSlot die cluster core quad ticks => Sys2Proof.Machine.execLoneIssueSlot die cluster core quad ticks s
  | .gafferIssue die cluster ticks => Sys2Proof.Machine.execGafferIssue die cluster ticks s
  | .watchdogExpiry crew sid lane => Sys2Proof.Machine.execWatchdogExpiry crew sid lane s
  | .send crew sid entry lane => Sys2Proof.Machine.execSend crew sid entry lane s
  | .hit msg => Sys2Proof.Machine.execHit msg s
  | .read a => Sys2Proof.Machine.execRead a s
  | .change a => Sys2Proof.Machine.execChange a s
  | .accept msg spill => Sys2Proof.Machine.execAccept msg spill s
  | .deliver msg => Sys2Proof.Machine.execDeliver msg s
  | .fill core line asid secure sectors => Sys2Proof.Machine.execFill core line asid secure sectors s
  | .drop core line => Sys2Proof.Machine.execDrop core line s
  | .speculativeLoad core line asid secure sectors => Sys2Proof.Machine.execSpeculativeLoad core line asid secure sectors s
  | .memsideWriteback die slice line => Sys2Proof.Machine.execMemsideWriteback die slice line s
  | .engineScratchWrite cmd => Sys2Proof.Machine.execEngineScratchWrite cmd s
  | .copyAccept crew sid lane => Sys2Proof.Machine.execCopyAccept crew sid lane s
  | .copyComplete cmd => Sys2Proof.Machine.execCopyComplete cmd s
  | .collectivePair cmd remote => Sys2Proof.Machine.execCollectivePair cmd remote s
  | .peerTimeout cmd => Sys2Proof.Machine.execPeerTimeout cmd s
  | .crewPlace die cluster pick => Sys2Proof.Machine.execCrewPlace die cluster pick s
  | .crewSave crew => Sys2Proof.Machine.execCrewSave crew s
  | .saveTimeout crew => Sys2Proof.Machine.execSaveTimeout crew s
  | .crewExit crew => Sys2Proof.Machine.execCrewExit crew s
  | .urgencyMark crew => Sys2Proof.Machine.execUrgencyMark crew s
  | .queueEnable who q => Sys2Proof.Machine.execQueueEnable who q s
  | .queueDisable who q => Sys2Proof.Machine.execQueueDisable who q s
  | .tailWrite who q v => Sys2Proof.Machine.execTailWrite who q v s
  | .resume who q slot => Sys2Proof.Machine.execResume who q slot s
  | .resumeDrop who q slot => Sys2Proof.Machine.execResumeDrop who q slot s
  | .asidInvalidate asid => Sys2Proof.Machine.execAsidInvalidate asid s
  | .invalidateComplete asid => Sys2Proof.Machine.execInvalidateComplete asid s
  | .containmentReset who die mask => Sys2Proof.Machine.execContainmentReset who die mask s
  | .memoryCounterClear die off v => Sys2Proof.Machine.execMemoryCounterClear die off v s
  | .cellWrite who die off v => Sys2Proof.Machine.execCellWrite who die off v s
  | .registerWrite who off v => Sys2Proof.Machine.execRegisterWrite who off v s
  | .snapshotMessage die => Sys2Proof.Machine.execSnapshotMessage die s
  | .faultRecordPost secure => Sys2Proof.Machine.execFaultRecordPost secure s
  | .traceControlWrite who core v => Sys2Proof.Machine.execTraceControlWrite who core v s
  | .peerLinkDown peer => Sys2Proof.Machine.execPeerLinkDown peer s
  | .ualinkLinkUp peer => Sys2Proof.Machine.execUalinkLinkUp peer s
  | .messageDrop port msg => Sys2Proof.Machine.execMessageDrop port msg s
  | .replayResend port => Sys2Proof.Machine.execReplayResend port s
  | .pcieLinkDown link => Sys2Proof.Machine.execPcieLinkDown link s
  | .pcieLinkTrain link gen width => Sys2Proof.Machine.execPcieLinkTrain link gen width s
  | .pcieCompletionTimeout a => Sys2Proof.Machine.execPcieCompletionTimeout a s
  | .boot fw => Sys2Proof.Machine.execBoot fw s
  | .attestationRequest nonce => Sys2Proof.Machine.execAttestationRequest nonce s
  | .thermalTrip => Sys2Proof.Machine.execThermalTrip s
  | .powerLimitReached => Sys2Proof.Machine.execPowerLimitReached s
  | .powerLimitReleased => Sys2Proof.Machine.execPowerLimitReleased s

end Sys2Proof.Machine
end

