-- ==== Sys2Proof/Machine/Step.lean ====
section
/-! DEFINITION. One step of the machine: the word that holds the issue slot, or the next move of the agenda (logs 3, 6);
and the state in which a given word issues next (log 5). -/

namespace Sys2Proof.Machine

open Sys2Proof

/-- One step. A word whose bits decode to nothing traps (R64); with nothing to do the machine stays as it is. -/
def step (s : State) : Host.Outcome State Fault Refusal :=
  match s.slot with
  | some _ =>
    match s.fetchNext with
    | .stopped => .fault .noStream
    | .trapped s' => .next s'
    | .instr i => exec i s
  | none =>
    match s.agenda with
    | [] => .next s
    | i :: _ => if i.isWord then .fault .badAgenda else exec i (s.popAgenda i)

/-- `s` with an instruction word where the next step fetches it: the clause in progress of a stream that holds the issue slot. -/
def State.withFetchWord (s : State) (nbits w : Nat) : State := s.install nbits w

end Sys2Proof.Machine
end

