-- ==== Sys2Proof/Safety.lean ====
section
/-! DEFINITION. What counts as a safe step and a safe state, in the terms that claims use. -/

namespace Sys2Proof.Machine

/-- The memory and the scratchpads list their bytes in the one canonical form: keys strictly rising, no entry that holds what an unlisted byte reads as. -/
abbrev Memory.wf (m : List Host.Cell) : Prop := sparseWf 0 m = true

/-- The step makes a next state. -/
def Goes (s : State) : Prop := ∃ t, step s = .next t

/-! ### What a word leaves alone -/

/-- A stream without the record of where its paths stand: the paths with their latches and ages, the current path and its choice, the path numbers, the
clauses completed, and the clock of the last issue. -/
def Strand.still (t : Strand) : Strand := { t with paths := [], cur := 0, chosen := false, nextId := 0, clauses := 0, lastIssue := 0 }

/-- The state without the progress of its streams: the issue slot, the record of where paths stand, the context that issued last on each die,
and the raw signals of counter logic. Two states that are equal in this agree in memory, every register, every table and every queue. -/
def State.still (s : State) : State :=
  { s with slot := none, signals := [], crews := s.crews.map (Crew.eachStrand Strand.still), dies := s.dies.map fun d => { d with gaffer := [] } }

/-- The issue slot presents the word `i` in the surroundings `c`, the word passes the checks of R64, and no alias access stops it (R96, R97). -/
structure Issues (s : State) (i : Instr) (c : Ctx) : Prop where
  slot  : s.ctx? i.pre = some c
  check : c.check i = none
  alias_ : c.aliasGate i = none

/-- An outcome is a next state that agrees with `e` in everything but the streams' progress. -/
def Leaves (o : Host.Outcome State Fault Refusal) (e : State) : Prop := ∃ u, o = .next u ∧ u.still = e.still

/-- Lanes have joined the path at its waiting word (R31, R301). -/
def Path.joined (p : Path) : Bool :=
  match p.wait with
  | .more _ _ => true
  | _ => false

/-- A lane of the word's stream stands at the clause header at an address, outside a clause (R31, R161); where a path waits at that header's word, the lane may have
joined it (R301). -/
def StandsAt (u : State) (c : Ctx) (l : Nat) (a : Word) : Prop :=
  ∃ t q, u.strand? c.id c.sid = some t ∧ q ∈ t.paths ∧ q.lanes.getLsbD l = true ∧ q.pc = a ∧ q.at_ = none ∧ (q.clause = none ∨ q.joined = true)

/-- The destination of each guarded lane holds the lane's value, and nothing else has changed (R129). -/
def Ctx.wrote (c : Ctx) (t : Ty) (d : Opd) (v : Nat → Nat) (s : State) : State := c.forLanes (fun l s => c.write t d l (BitVec.ofNat 64 (v l)) s) s

/-- The predicate destination of each guarded lane holds the lane's truth value, and nothing else has changed. -/
def Ctx.wrotePred (c : Ctx) (d : PField) (v : Nat → Bool) (s : State) : State := c.forLanes (fun l s => c.setPred d l (v l) s) s

/-- The range of an element of a type (R129). -/
def elemLo (t : Ty) : Int := if t.isSigned then -(2 ^ (t.ebits - 1) : Nat) else 0
def elemHi (t : Ty) : Int := if t.isSigned then (2 ^ (t.ebits - 1) : Nat) - 1 else (2 ^ t.ebits : Nat) - 1

/-- Element i of a value as bits. -/
def elemBits (t : Ty) (x i : Nat) : BitVec t.ebits := BitVec.ofNat t.ebits (x / 2 ^ (t.ebits * i))

/-- `x` holds the exact results `y i` as elements of a type: with `sat` each clamped to the range, otherwise each modulo 2^e (R129). -/
def Holds (t : Ty) (sat : Bool) (x : Nat) (y : Nat → Int) : Prop :=
  x < 2 ^ (t.ebits * t.elems) ∧ ∀ i, i < t.elems →
    if sat then elemVal t x i = max (elemLo t) (min (elemHi t) (y i))
    else elemLo t ≤ elemVal t x i ∧ elemVal t x i ≤ elemHi t ∧ ∃ k : Int, elemVal t x i = y i + k * (2 ^ t.ebits : Nat)

/-! ### Words that leave something behind them to be done -/

/-- The outcome is a next state in which a new entry of the word stands last in its stream's log, for the guarded lanes with their sources, and its
counters are raised; memory and register space are as they were (R206, R298). -/
def Ctx.Enters (c : Ctx) (o : Host.Outcome State Fault Refusal) (logged : Bool) (k : Counts) (src : Nat → List Word) : Prop :=
  ∃ u t e, o = .next u ∧ u.mem = c.s0.mem ∧ u.regs = c.s0.regs ∧ u.strand? c.id c.sid = some t ∧ t.log = c.t.log ++ [e]
    ∧ e.word = c.word ∧ e.lanes = c.act ∧ e.done = 0 ∧ e.faults = [] ∧ e.logged = logged ∧ e.cnt = k
    ∧ (∀ l, c.act.getLsbD l = true → e.srcOf l = src l)
    ∧ t.ld = c.t.ld + k.ld ∧ t.st = c.t.st + k.st ∧ t.cp = c.t.cp + k.cp ∧ t.tl = c.t.tl + k.tl

/-- The outcome is a next state in which a tile word stands last in the order of a core's unit, with the Gaffer register that it names as read at issue,
and its counters are raised; memory and register space are as they were (R175, R298). -/
def Ctx.Accepts (c : Ctx) (o : Host.Outcome State Fault Refusal) (core : BitVec 2) (tile : BitVec 4) (ga : Word) (k : Counts) : Prop :=
  ∃ u t tm x, o = .next u ∧ u.mem = c.s0.mem ∧ u.regs = c.s0.regs ∧ u.strand? c.id c.sid = some t ∧ u.team? c.id core.toNat = some tm
    ∧ tm.ops = ((c.teamOf core).map Team.ops).getD [] ++ [x] ∧ x.word = c.word ∧ x.tile = tile.toNat ∧ x.ga = ga ∧ x.inH = c.inH
    ∧ t.ld = c.t.ld + k.ld ∧ t.st = c.t.st + k.st ∧ t.cp = c.t.cp ∧ t.tl = c.t.tl + 1

/-- No watch range of any die matches anything (R320). -/
def State.unwatched (s : State) : Prop := ∀ die wr parts, s.watched die wr parts = []

/-- The path that issued the word waits (R301): the slot is free again, and memory and register space are as they were. -/
def Ctx.Waits (c : Ctx) (o : Host.Outcome State Fault Refusal) (w : Wait) : Prop :=
  ∃ u t q, o = .next u ∧ u.slot = none ∧ u.mem = c.s0.mem ∧ u.regs = c.s0.regs ∧ u.strand? c.id c.sid = some t ∧ t.path? c.grant.path = some q
    ∧ q.lanes = c.path.lanes ∧ q.wait = w

end Sys2Proof.Machine
end

