-- ==== Sys2Proof/Laws/Still.lean ====
section
/-! SUPPORT. What follows a word moves paths and nothing else: the state without its streams' progress (`State.still`) is what the word's effect left. -/

namespace Sys2Proof.Machine

/-! ### Updates that `still` does not see -/

theorem listMod_map {α β : Type} (l : List α) (i : Nat) (f : α → α) (g : α → β) (h : ∀ x, g (f x) = g x) : (listMod l i f).map g = l.map g := by
  induction l generalizing i with
  | nil => rfl
  | cons x l ih => cases i <;> simp [listMod, h, ih]

theorem mapIf_map {α β : Type} (p : α → Bool) (l : List α) (f : α → α) (g : α → β) (h : ∀ x, g (f x) = g x) : (mapIf p f l).map g = l.map g := by
  simp only [mapIf, List.map_map]
  congr 1
  funext x
  simp only [Function.comp]
  split <;> simp [h]

theorem eachStrand_modStrand (c : Crew) (sid : Sid) (f : Strand → Strand) (h : ∀ t, (f t).still = t.still) :
    (c.modStrand sid f).eachStrand Strand.still = c.eachStrand Strand.still := by
  cases sid with
  | wave r w =>
    simp only [Crew.modStrand, Crew.modTeam, Crew.eachStrand]
    rw [listMod_map]
    intro tm
    simp only [listMod_map _ _ _ _ h]
  | gaffer =>
    simp only [Crew.modStrand, Crew.eachStrand]
    cases c.gaffer <;> simp [h]
  | producer r =>
    simp only [Crew.modStrand, Crew.modTeam, Crew.eachStrand]
    rw [listMod_map]
    intro tm
    cases tm.producer <;> simp [h]

@[simp] theorem still_modStrand (s : State) (crew : Nat) (sid : Sid) (f : Strand → Strand) (h : ∀ t, (f t).still = t.still) :
    (s.modStrand crew sid f).still = s.still := by
  simp only [State.modStrand, State.modCrew, State.still]
  rw [mapIf_map _ _ _ _ fun c => eachStrand_modStrand c sid f h]

@[simp] theorem still_modPath (s : State) (crew : Nat) (sid : Sid) (id : Nat) (f : Path → Path) : (s.modPath crew sid id f).still = s.still :=
  still_modStrand _ _ _ _ fun _ => rfl

@[simp] theorem still_modDie_gaffer (s : State) (d : Nat) (f : Die → List (Nat × Nat)) :
    (s.modDie d fun x => { x with gaffer := f x }).still = s.still := by
  simp only [State.modDie, State.still]
  rw [listMod_map]
  intro x; rfl

@[simp] theorem still_signal (s : State) (die block sig n : Nat) : (s.signal die block sig n).still = s.still := by
  simp only [State.signal]; split <;> rfl

@[simp] theorem still_coreSignal (s : State) (c : CoreId) (sig n : Nat) : (s.coreSignal c sig n).still = s.still := by
  simp only [State.coreSignal]; split <;> simp

@[simp] theorem still_slot (s : State) (g : Option Grant) : ({ s with slot := g }).still = s.still := rfl

/-! ### Issue and the clause boundary -/

@[simp] theorem still_issued (c : Ctx) (s : State) : (c.issued s).still = s.still := by
  simp only [Ctx.issued, still_slot, still_coreSignal, Ctx.modP, Ctx.modT, still_modPath]
  refine still_modStrand _ _ _ _ ?_
  intro t; rfl

@[simp] theorem still_choosePath (s : State) (crew : Nat) (sid : Sid) : (s.choosePath crew sid).still = s.still := by
  simp only [State.choosePath]
  split
  · refine Eq.trans (still_modStrand _ _ _ _ ?_) (still_coreSignal ..)
    intro t; rfl
  · rfl

@[simp] theorem still_endClauseAt (c : Ctx) (s : State) (next : List (Nat × Dest)) : (c.endClauseAt s next).still = s.still := by
  simp only [Ctx.endClauseAt]
  split
  · rfl
  · split
    · rfl
    · split
      · refine Eq.trans (still_modDie_gaffer ..) (still_modStrand _ _ _ _ ?_)
        intro t; rfl
      · split
        · refine Eq.trans (still_modStrand _ _ _ _ ?_) (still_modStrand _ _ _ _ ?_) <;> (intro t; rfl)
        · refine Eq.trans (still_choosePath ..) (still_modStrand _ _ _ _ ?_)
          intro t; rfl

@[simp] theorem still_endClause (c : Ctx) (s : State) (next : List (Nat × Word)) : (c.endClause s next).still = s.still := by
  simp [Ctx.endClause]

@[simp] theorem still_putLatch (c : Ctx) (h : Option (Nat → Word)) (s : State) : (c.putLatch h s).still = s.still := by
  cases h <;> simp [Ctx.putLatch, Ctx.modP]

@[simp] theorem still_advance (c : Ctx) (s : State) : (c.advance s).still = s.still := by
  simp only [Ctx.advance]
  split
  · refine still_modStrand _ _ _ _ ?_
    intro t; rfl
  · split <;> simp [Ctx.modP]

/-- A word that has had its effect: what it leaves, but for the streams' progress, is that effect. -/
theorem still_finish_done (c : Ctx) (h : Option (Nat → Word)) (e : State) : (c.finish h (.done e)).still = e.still := by
  simp [Ctx.finish]

/-! ### From `exec` to the effect -/

/-- A word that issues answers what `finish` makes of its body. -/
theorem word_issues {i : Instr} {s : State} {c : Ctx} (h : Issues s i c) (body : Ctx → Out) :
    word i s body = .next (c.finish (c.holdOf i) (body c)) := by
  simp only [word, h.slot, Ctx.run, h.check, h.alias_]

/-- A word whose body is done answers a next state that is its effect, but for the streams' progress. -/
theorem word_done {i : Instr} {s : State} {c : Ctx} (h : Issues s i c) {body : Ctx → Out} {e : State} (hb : body c = .done e) :
    ∃ u, word i s body = .next u ∧ u.still = e.still :=
  ⟨_, word_issues h body, by rw [hb, still_finish_done]⟩

end Sys2Proof.Machine
end

