-- ==== Sys2Proof/Certificates/Slice0/Obligations.lean ====
section
/-! DEFINITION. The statements about the K4 for the provers, in the order of the table's families. Each docstring names the rule that it formalises. -/

open Sys2Proof Sys2Proof.Machine

/-! ### Integer and bit instructions (R128 to R143) -/

/-- R128 to R131: `IADD`, `ISUB`, `IMUL`, `IABS` and `IADDI` complete wherever they issue. Each element of the destination is the exact result, reduced
modulo 2^e or with `.sat` clamped, in the guarded lanes; nothing else changes but the progress of the stream. R130, R132, R133: `IMULHI`, `IMAD`, `IWMAD`,
`IMIN`, `IMAX`, `ISAD`, `LEA` and `IDP4` complete wherever they issue, with the results of their rows. -/
def Obligations.IntegerWords : Prop :=
  (∀ (s : State) (c : Ctx) (p : Pre) (t : Ty) (sat : Bool) (d a b : Opd) (imm : BitVec 20),
     (Issues s (.iadd p t sat d a b) c → ∃ v : Nat → Nat, Leaves (exec (.iadd p t sat d a b) s) (c.wrote t d v s)
       ∧ ∀ l, Holds t sat (v l) fun i => elemVal t (c.rd t a l) i + elemVal t (c.rd t b l) i)
     ∧ (Issues s (.isub p t sat d a b) c → ∃ v : Nat → Nat, Leaves (exec (.isub p t sat d a b) s) (c.wrote t d v s)
       ∧ ∀ l, Holds t sat (v l) fun i => elemVal t (c.rd t a l) i - elemVal t (c.rd t b l) i)
     ∧ (Issues s (.imul p t d a b) c → ∃ v : Nat → Nat, Leaves (exec (.imul p t d a b) s) (c.wrote t d v s)
       ∧ ∀ l, Holds t false (v l) fun i => elemVal t (c.rd t a l) i * elemVal t (c.rd t b l) i)
     ∧ (Issues s (.iabs p t sat d a) c → ∃ v : Nat → Nat, Leaves (exec (.iabs p t sat d a) s) (c.wrote t d v s)
       ∧ ∀ l, Holds t sat (v l) fun i => |elemVal t (c.rd t a l) i|)
     ∧ (Issues s (.iaddi p t sat d a imm) c → ∃ v : Nat → Nat, Leaves (exec (.iaddi p t sat d a imm) s) (c.wrote t d v s)
       ∧ ∀ l, Holds t sat (v l) fun i => elemVal t (c.rd t a l) i + imm.toInt))
  ∧ (∀ (s : State) (c : Ctx) (p : Pre) (t : Ty) (sat xb : Bool) (sh : BitVec 3) (d a b e : Opd),
     (Issues s (.imulhi p t d a b) c → ∃ v : Nat → Nat, Leaves (exec (.imulhi p t d a b) s) (c.wrote t d v s)
       ∧ ∀ l, Holds t false (v l) fun i => (elemVal t (c.rd t a l) i * elemVal t (c.rd t b l) i) / (2 ^ t.ebits : Nat))
     ∧ (Issues s (.imad p t d a b e) c → ∃ v : Nat → Nat, Leaves (exec (.imad p t d a b e) s) (c.wrote t d v s)
       ∧ ∀ l, Holds t false (v l) fun i => elemVal t (c.rd t a l) i * elemVal t (c.rd t b l) i + elemVal t (c.rd t e l) i)
     ∧ (Issues s (.iwmad p t d a b e) c → ∃ v : Nat → Nat, Leaves (exec (.iwmad p t d a b e) s) (c.wrote (wideTy t) d v s)
       ∧ ∀ l, Holds (wideTy t) false (v l) fun i =>
         elemVal t (c.rd t a l) i * elemVal t (c.rd t b l) i + elemVal (wideTy t) (c.rd (wideTy t) e l) i)
     ∧ (Issues s (.imin p t d a b) c → ∃ v : Nat → Nat, Leaves (exec (.imin p t d a b) s) (c.wrote t d v s)
       ∧ ∀ l, Holds t true (v l) fun i => min (elemVal t (c.rd t a l) i) (elemVal t (c.rd t b l) i))
     ∧ (Issues s (.imax p t d a b) c → ∃ v : Nat → Nat, Leaves (exec (.imax p t d a b) s) (c.wrote t d v s)
       ∧ ∀ l, Holds t true (v l) fun i => max (elemVal t (c.rd t a l) i) (elemVal t (c.rd t b l) i))
     ∧ (Issues s (.isad p t d a b e) c → ∃ v : Nat → Nat, Leaves (exec (.isad p t d a b e) s) (c.wrote .n32 d v s)
       ∧ ∀ l, Holds .n32 false (v l) fun _ => (c.rd .n32 e l : Int)
         + ((List.range t.elems).map fun i => |elemVal t (c.rd t a l) i - elemVal t (c.rd t b l) i|).sum)
     ∧ (Issues s (.lea p t sh d a b) c → ∃ v : Nat → Nat, Leaves (exec (.lea p t sh d a b) s) (c.wrote .n64 d v s)
       ∧ ∀ l, Holds .n64 false (v l) fun _ => (c.rd .n64 a l : Int) + elemVal t (c.rd t b l) 0 * (2 ^ sh.toNat : Nat))
     ∧ (Issues s (.idp4 p t sat xb d a b e) c → ∃ v : Nat → Nat, Leaves (exec (.idp4 p t sat xb d a b e) s) (c.wrote .n32 d v s)
       ∧ ∀ l, let tb := if xb then otherBytes t else t
         let r : Ty := if t = .n8x4 ∧ tb = .n8x4 then .n32 else .i32
         Holds r sat (v l) fun _ => elemVal r (c.rd .n32 e l) 0
           + ((List.range 4).map fun i => elemVal t (c.rd t a l) i * elemVal tb (c.rd t b l) i).sum))

/-- R134: the logic instructions act bit by bit; `SHL`, `SHR`, `SAR` and `ROT` act on each element by its amount, with the results of the table for amounts
of the width and more. All complete wherever they issue. -/
def Obligations.LogicAndShifts : Prop :=
  ∀ (s : State) (c : Ctx) (p : Pre) (t : Ty) (d a b : Opd),
    (Issues s (.and p t d a b) c → ∃ v : Nat → Nat, Leaves (exec (.and p t d a b) s) (c.wrote t d v s)
      ∧ ∀ l k, (v l).testBit k = ((c.rd t a l).testBit k && (c.rd t b l).testBit k))
    ∧ (Issues s (.or p t d a b) c → ∃ v : Nat → Nat, Leaves (exec (.or p t d a b) s) (c.wrote t d v s)
      ∧ ∀ l k, (v l).testBit k = ((c.rd t a l).testBit k || (c.rd t b l).testBit k))
    ∧ (Issues s (.xor p t d a b) c → ∃ v : Nat → Nat, Leaves (exec (.xor p t d a b) s) (c.wrote t d v s)
      ∧ ∀ l k, (v l).testBit k = ((c.rd t a l).testBit k != (c.rd t b l).testBit k))
    ∧ (Issues s (.andn p t d a b) c → ∃ v : Nat → Nat, Leaves (exec (.andn p t d a b) s) (c.wrote t d v s)
      ∧ ∀ l k, (v l).testBit k = ((c.rd t a l).testBit k && !(c.rd t b l).testBit k))
    ∧ (Issues s (.shl p t d a b) c → ∃ v : Nat → Nat, Leaves (exec (.shl p t d a b) s) (c.wrote t d v s)
      ∧ ∀ l i, i < t.elems → (elemBits t (v l) i) = elemBits t (c.rd t a l) i <<< c.amount t b l i)
    ∧ (Issues s (.shr p t d a b) c → ∃ v : Nat → Nat, Leaves (exec (.shr p t d a b) s) (c.wrote t d v s)
      ∧ ∀ l i, i < t.elems → (elemBits t (v l) i) = elemBits t (c.rd t a l) i >>> c.amount t b l i)
    ∧ (Issues s (.sar p t d a b) c → ∃ v : Nat → Nat, Leaves (exec (.sar p t d a b) s) (c.wrote t d v s)
      ∧ ∀ l i, i < t.elems → (elemBits t (v l) i) = (elemBits t (c.rd t a l) i).sshiftRight (c.amount t b l i))
    ∧ (Issues s (.rot p t d a b) c → ∃ v : Nat → Nat, Leaves (exec (.rot p t d a b) s) (c.wrote t d v s)
      ∧ ∀ l i, i < t.elems → (elemBits t (v l) i) = (elemBits t (c.rd t a l) i).rotateLeft (c.amount t b l i))

/-- R135, R136: what `BFX` and `BFI` put into each bit, the counts of `POPC` and `CLZ`, and the reversal of `BREV`. All complete wherever they issue. R137,
R138, R140: the moves and immediates complete wherever they issue; `MOVHI` replaces the bits of its field and keeps the others. -/
def Obligations.BitFieldsAndMoves : Prop :=
  (∀ (s : State) (c : Ctx) (p : Pre) (t : Ty) (d a b e : Opd), t = .i32 ∨ t = .n32 ∨ t = .i64 ∨ t = .n64 →
     (Issues s (.bfx p t d a b) c → ∃ v : Nat → Nat, Leaves (exec (.bfx p t d a b) s) (c.wrote t d v s)
       ∧ ∀ l k, k < t.ebits → let q := c.rd .n32 b l % 256
         let n := min (c.rd .n32 b l / 256 % 256) t.ebits
         let f (j : Nat) : Bool := if q + j < t.ebits then (c.rd t a l).testBit (q + j) else t.isSigned && (c.rd t a l).testBit (t.ebits - 1)
         (v l).testBit k = if n = 0 then false else if k < n then f k else t.isSigned && f (n - 1))
     ∧ (Issues s (.bfi p t d a b e) c → ∃ v : Nat → Nat, Leaves (exec (.bfi p t d a b e) s) (c.wrote t d v s)
       ∧ ∀ l k, k < t.ebits → let q := c.rd .n32 b l % 256
         let n := c.rd .n32 b l / 256 % 256
         (v l).testBit k = if q ≤ k ∧ k - q < n then (c.rd t a l).testBit (k - q) else (c.rd t e l).testBit k)
     ∧ (Issues s (.popc p t d a) c → ∃ v : Nat → Nat, Leaves (exec (.popc p t d a) s) (c.wrote .n32 d v s)
       ∧ ∀ l, v l = ((List.range t.ebits).filter fun k => (c.rd t a l).testBit k).length)
     ∧ (Issues s (.clz p t d a) c → ∃ v : Nat → Nat, Leaves (exec (.clz p t d a) s) (c.wrote .n32 d v s)
       ∧ ∀ l, v l ≤ t.ebits ∧ (∀ k, t.ebits - v l ≤ k → (c.rd t a l).testBit k = false)
         ∧ (v l < t.ebits → (c.rd t a l).testBit (t.ebits - 1 - v l) = true))
     ∧ (Issues s (.brev p t d a) c → ∃ v : Nat → Nat, Leaves (exec (.brev p t d a) s) (c.wrote t d v s)
       ∧ ∀ l k, k < t.ebits → (v l).testBit k = (c.rd t a l).testBit (t.ebits - 1 - k)))
  ∧ (∀ (s : State) (c : Ctx) (p : Pre) (t : Ty) (d a b : Opd) (e : PField) (b40 : Bool) (imm : BitVec 20), t = .i32 ∨ t = .n32 ∨ t = .i64 ∨ t = .n64 →
     (Issues s (.movi p t d imm) c → ∃ v : Nat → Nat, Leaves (exec (.movi p t d imm) s) (c.wrote t d v s)
       ∧ ∀ l, Holds t false (v l) fun _ => if t.isSigned then imm.toInt else imm.toNat)
     ∧ (Issues s (.movhi p t b40 d a imm) c → ∃ v : Nat → Nat, Leaves (exec (.movhi p t b40 d a imm) s) (c.wrote t d v s)
       ∧ ∀ l k, k < t.ebits → let lo := if b40 then 40 else 20
         (v l).testBit k = if lo ≤ k ∧ k < lo + 20 then imm.toNat.testBit (k - lo) else (c.rd t a l).testBit k)
     ∧ (Issues s (.mov p t d a) c → Leaves (exec (.mov p t d a) s) (c.wrote t d (c.rd t a) s))
     ∧ (Issues s (.sel p t d a b e) c → Leaves (exec (.sel p t d a b e) s)
         (c.wrote t d (fun l => if c.pred e l then c.rd t a l else c.rd t b l) s)))

/-- R141 to R143, R152, R153: the instructions that write a predicate, and `P2V`, complete wherever they issue. -/
def Obligations.PredicateWords : Prop :=
  ∀ (s : State) (c : Ctx) (p : Pre) (t : Ty) (cc : Cmp) (fc : FCmp) (lut : BitVec 4) (ones : Bool) (d f g h : PField) (w a b : Opd),
    (Issues s (.icmp p t cc d a b) c → Leaves (exec (.icmp p t cc d a b) s) (c.wrotePred d (fun l =>
      let x := elemVal t (c.rd t a l) 0; let y := elemVal t (c.rd t b l) 0
      match cc with
      | .eq => decide (x = y) | .ne => decide (x ≠ y) | .lt => decide (x < y) | .le => decide (x ≤ y) | .gt => decide (y < x) | .ge => decide (y ≤ x)) s))
    ∧ (Issues s (.plop p lut d f g h) c → Leaves (exec (.plop p lut d f g h) s) (c.wrotePred d (fun l =>
      lut.getLsbD ((if c.pred f l then 2 else 0) + (if c.pred g l then 1 else 0)) && c.pred h l) s))
    ∧ (Issues s (.v2p p t d a) c → Leaves (exec (.v2p p t d a) s) (c.wrotePred d (fun l => decide (c.rd t a l ≠ 0)) s))
    ∧ (Issues s (.p2v p t ones w f) c → Leaves (exec (.p2v p t ones w f) s)
        (c.wrote t w (fun l => if c.pred f l then (if ones then 2 ^ t.ebits - 1 else 1) else 0) s))
    ∧ (Issues s (.fcmp p t fc d a b) c → Leaves (exec (.fcmp p t fc d a b) s) (c.wrotePred d (fun l =>
      fcmpF fc ((fmtOf t).read (fld (c.rd t a l) 0 t.ebits)) ((fmtOf t).read (fld (c.rd t b l) 0 t.ebits))) s))
    ∧ (Issues s (.fclass p t d a b) c → Leaves (exec (.fclass p t d a b) s) (c.wrotePred d (fun l =>
      (c.rd .n32 b l).testBit (fclassF (fmtOf t) (fld (c.rd t a l) 0 t.ebits))) s))

/-- R144 to R147: the lane instructions. The participants are the guarded lanes; `SHFL` reads a participant's value or the lane's own, and lanes whose
width is none of 1, 2, 4, 8, 16 and 32 are not among those stated here. `VOTE`, `MATCH` and `LRED` complete wherever they issue. -/
def Obligations.LaneWords : Prop :=
  ∀ (s : State) (c : Ctx) (p : Pre) (t : Ty) (mode : Shfl) (op : Lred) (d a b e : Opd),
    (Issues s (.shfl p t mode d a b e) c → (∀ l, c.act.getLsbD l → c.rd .n32 e l ∈ [1, 2, 4, 8, 16, 32]) →
      Leaves (exec (.shfl p t mode d a b e) s) (c.wrote t d (fun l =>
        let w := c.rd .n32 e l; let base := l - l % w; let k := c.rd .n32 b l
        let i := match mode with
          | .idx => base + k % w
          | .up => if k ≤ l - base then l - k else l
          | .down => if l + k < base + w then l + k else l
          | .xor => l ^^^ (k % w)
        if c.act.getLsbD i then c.rd t a i else c.rd t a l) s))
    ∧ (Issues s (.vote p t .all d a) c → Leaves (exec (.vote p t .all d a) s)
        (c.wrote .n32 d (fun _ => if ∀ l ∈ List.range 32, c.act.getLsbD l → c.rd t a l ≠ 0 then 1 else 0) s))
    ∧ (Issues s (.vote p t .any d a) c → Leaves (exec (.vote p t .any d a) s)
        (c.wrote .n32 d (fun _ => if ∃ l ∈ List.range 32, c.act.getLsbD l ∧ c.rd t a l ≠ 0 then 1 else 0) s))
    ∧ (Issues s (.vote p t .eq d a) c → Leaves (exec (.vote p t .eq d a) s)
        (c.wrote .n32 d (fun _ => if ∀ l ∈ List.range 32, ∀ k ∈ List.range 32, c.act.getLsbD l → c.act.getLsbD k → c.rd t a l = c.rd t a k then 1 else 0) s))
    ∧ (Issues s (.vote p t .ballot d a) c → ∃ v : Nat, Leaves (exec (.vote p t .ballot d a) s) (c.wrote .n32 d (fun _ => v) s)
        ∧ ∀ k, v.testBit k = (c.act.getLsbD k && decide (c.rd t a k ≠ 0)))
    ∧ (Issues s (.matchl p t d a) c → ∃ v : Nat → Nat, Leaves (exec (.matchl p t d a) s) (c.wrote .n32 d v s)
        ∧ ∀ l k, (v l).testBit k = (c.act.getLsbD k && decide (c.rd t a k = c.rd t a l)))
    ∧ (Issues s (.lred p t op d a) c → Leaves (exec (.lred p t op d a) s) (c.wrote t d (fun _ =>
        (lredTree (lredNode t op) 5 ((List.range 32).map fun j => if c.act.getLsbD j then some (c.rd t a j) else none)).getD 0) s))

/-! ### Floating point and conversions (R148 to R160) -/

/-- R148, R150, R151, R154: the arithmetic of floating point completes wherever it issues. Each element on its own is the named operation of the elements
of the sources, under the rounding mode of the word where it has one; no flag changes. R155: the functions complete wherever they issue, each element on
its own. -/
def Obligations.FloatingPoint : Prop :=
  (∀ (s : State) (c : Ctx) (p : Pre) (t : Ty) (rm : Rm) (d a b e : Opd),
     let x (o : Opd) (l i : Nat) : Nat := fld (c.rd t o l) (t.ebits * i) t.ebits
     let y (o : Opd) (l i : Nat) : Fv := (fmtOf t).read (x o l i)
     (Issues s (.fadd p t rm d a b) c → Leaves (exec (.fadd p t rm d a b) s)
         (c.wrote t d (fun l => joinElems t fun i => faddF (fmtOf t) rm (y a l i) (y b l i)) s))
     ∧ (Issues s (.fsub p t rm d a b) c → Leaves (exec (.fsub p t rm d a b) s)
         (c.wrote t d (fun l => joinElems t fun i => fsubF (fmtOf t) rm (y a l i) (y b l i)) s))
     ∧ (Issues s (.fmul p t rm d a b) c → Leaves (exec (.fmul p t rm d a b) s)
         (c.wrote t d (fun l => joinElems t fun i => fmulF (fmtOf t) rm (y a l i) (y b l i)) s))
     ∧ (Issues s (.ffma p t rm d a b e) c → Leaves (exec (.ffma p t rm d a b e) s)
         (c.wrote t d (fun l => joinElems t fun i => ffmaF (fmtOf t) rm (y a l i) (y b l i) (y e l i)) s))
     ∧ (Issues s (.fdiv p t rm d a b) c → Leaves (exec (.fdiv p t rm d a b) s)
         (c.wrote t d (fun l => joinElems t fun i => fdivF (fmtOf t) rm (y a l i) (y b l i)) s))
     ∧ (Issues s (.fsqrt p t rm d a) c → Leaves (exec (.fsqrt p t rm d a) s)
         (c.wrote t d (fun l => joinElems t fun i => fsqrtF (fmtOf t) rm (y a l i)) s))
     ∧ (Issues s (.frint p t rm d a) c → Leaves (exec (.frint p t rm d a) s)
         (c.wrote t d (fun l => joinElems t fun i => frintF (fmtOf t) rm (y a l i)) s))
     ∧ (Issues s (.fmin p t d a b) c → Leaves (exec (.fmin p t d a b) s)
         (c.wrote t d (fun l => joinElems t fun i => fminmaxF (fmtOf t) false (x a l i) (x b l i)) s))
     ∧ (Issues s (.fmax p t d a b) c → Leaves (exec (.fmax p t d a b) s)
         (c.wrote t d (fun l => joinElems t fun i => fminmaxF (fmtOf t) true (x a l i) (x b l i)) s))
     ∧ (Issues s (.fabs p t d a) c → Leaves (exec (.fabs p t d a) s)
         (c.wrote t d (fun l => joinElems t fun i => signOp (fmtOf t) (fun _ => 0) (x a l i)) s))
     ∧ (Issues s (.fneg p t d a) c → Leaves (exec (.fneg p t d a) s)
         (c.wrote t d (fun l => joinElems t fun i => signOp (fmtOf t) (fun n => 1 - n) (x a l i)) s))
     ∧ (Issues s (.fdot p t rm d a b e) c → Leaves (exec (.fdot p t rm d a b e) s)
         (c.wrote .f32 d (fun l => fdotF rm (y a l 0) (y a l 1) (y b l 0) (y b l 1) (fp32.read (fld (c.rd .f32 e l) 0 32))) s)))
  ∧ (∀ (s : State) (c : Ctx) (p : Pre) (t : Ty) (d a : Opd),
     let y (l i : Nat) : Fv := (fmtOf t).read (fld (c.rd t a l) (t.ebits * i) t.ebits)
     (Issues s (.fexp2 p t d a) c → Leaves (exec (.fexp2 p t d a) s) (c.wrote t d (fun l => joinElems t fun i => fexp2F (fmtOf t) (y l i)) s))
     ∧ (Issues s (.flog2 p t d a) c → Leaves (exec (.flog2 p t d a) s) (c.wrote t d (fun l => joinElems t fun i => flog2F (fmtOf t) (y l i)) s))
     ∧ (Issues s (.fsin p t d a) c → Leaves (exec (.fsin p t d a) s) (c.wrote t d (fun l => joinElems t fun i => fsincosF (fmtOf t) false (y l i)) s))
     ∧ (Issues s (.fcos p t d a) c → Leaves (exec (.fcos p t d a) s) (c.wrote t d (fun l => joinElems t fun i => fsincosF (fmtOf t) true (y l i)) s))
     ∧ (Issues s (.frsq p t d a) c → Leaves (exec (.frsq p t d a) s) (c.wrote t d (fun l => joinElems t fun i => frsqF (fmtOf t) (y l i)) s))
     ∧ (Issues s (.frcp p t d a) c → Leaves (exec (.frcp p t d a) s) (c.wrote t d (fun l => joinElems t fun i => frcpF (fmtOf t) (y l i)) s))
     ∧ (Issues s (.ftanh p t d a) c → Leaves (exec (.ftanh p t d a) s) (c.wrote t d (fun l => joinElems t fun i => ftanhF (fmtOf t) (y l i)) s)))

/-- R157 to R160: a conversion in which no lane takes the fault action completes: each guarded lane's flags are added to CVTFLAG and its code is written;
`CVTN` keeps the other bits of its destination, and `CVTW` reads one narrow code. -/
def Obligations.Conversions : Prop :=
  ∀ (s : State) (c : Ctx) (p : Pre) (t : Ty) (rm : Rm) (pos : BitVec 2) (d a : Opd) (pol : BitVec 8) (f : BitVec 4),
    let n := (Narrow.ofCode f.toNat).getD .e4m3
    let w := if n.bits = 4 then 4 else 8
    let lo := if n.bits = 4 then 4 * pos.toNat else 8 * pos.toNat
    (Issues s (.cvt p t rm d a pol f) c →
      let td := (Ty.ofCode f).getD .n32
      let r (l : Nat) : Conv := convert td.target rm pol (t.srcOf (c.rd t a l))
      (∀ l, c.act.getLsbD l → (r l).fault = false) → Leaves (exec (.cvt p t rm d a pol f) s)
        (c.forLanes (fun l s => c.write td d l (BitVec.ofNat 64 (r l).code) (c.addCvt l (r l).flags s)) s))
    ∧ (Issues s (.cvtn p t rm pos d a pol f) c →
      let r (l : Nat) : Conv := convert (.narrow n) rm pol (t.srcOf (c.rd t a l))
      (∀ l, c.act.getLsbD l → (r l).fault = false) → Leaves (exec (.cvtn p t rm pos d a pol f) s)
        (c.forLanes (fun l s => c.write .n32 d l (wput (c.read .n32 d l) lo w (r l).code) (c.addCvt l (r l).flags s)) s))
    ∧ (Issues s (.cvtw p t pos d a pol f) c →
      let src (l : Nat) := n.read (fld (c.rd .n32 a l) lo n.bits)
      let r (l : Nat) : Conv := convert t.target .rne pol (.fv (src l).1)
      (∀ l, c.act.getLsbD l → (r l).fault = false) → Leaves (exec (.cvtw p t pos d a pol f) s)
        (c.forLanes (fun l s => c.write t d l (BitVec.ofNat 64 (r l).code)
          (c.addCvt l (if (src l).2 then (r l).flags ||| flagRSVD else (r l).flags) s)) s))

/-! ### Control transfer (R46, R55, R161 to R168) -/

/-- R55: the lanes that a word acts in are exactly the issuing path's lanes whose guard predicate is true, inverted where the word says so; p15 reads 1, so
that `?p15` guards nothing. -/
def Obligations.GuardedLanes : Prop :=
  ∀ (s : State) (c : Ctx) (p : Pre), s.ctx? p = some c → c.path.only = none → ∀ l, l < 32 →
    (c.act.getLsbD l = (c.path.lanes.getLsbD l && ((predBits c.crew c.sid c.t l).getLsbD p.pg.toNat != p.pn)))
    ∧ (p.pg = 15 → p.pn = false → c.act.getLsbD l = c.path.lanes.getLsbD l)

/-- R46, R161, R167: `NOP` has no effect. Inside a clause the path goes on to the next word of the clause; after the last word every lane stands at the
fall-through, 8 bytes after the clause's last word. R165: `YIELD` changes no register and no memory. Inside a clause it marks the path, whose turn ends at
the boundary; in a Gaffer context and with no guarded lane it marks nothing. -/
def Obligations.NopAndYield : Prop :=
  (∀ (s : State) (c : Ctx) (p : Pre), Issues s (.nop p) c → c.path.lanes ≠ 0 →
     ∃ u, exec (.nop p) s = .next u ∧ u.still = s.still
       ∧ (c.pos < c.cl.head.count → ∃ t q, u.strand? c.id c.sid = some t ∧ t.path? c.grant.path = some q ∧ q.lanes = c.path.lanes ∧ q.pc = c.path.pc
           ∧ q.clause = some { c.cl with pos := c.pos + 1 })
       ∧ (c.cl.head.count ≤ c.pos → ∀ l, c.path.lanes.getLsbD l = true → StandsAt u c l (c.path.pc + BitVec.ofNat 64 (8 * (c.cl.head.count + 2)))))
  ∧ (∀ (s : State) (c : Ctx) (p : Pre), Issues s (.yield p) c → c.path.lanes ≠ 0 →
     ∃ u, exec (.yield p) s = .next u ∧ u.still = s.still
       ∧ (c.pos < c.cl.head.count → ∃ t q, u.strand? c.id c.sid = some t ∧ t.path? c.grant.path = some q
           ∧ q.yielded = (c.path.yielded || (decide (c.act ≠ 0) && !c.isG))))

/-- R161 to R163: `BRA`, `BRX` and `RET` with aligned targets, and with `.uni` one common next address, send every lane of the path to its next address:
the target where the guard is true, the fall-through elsewhere. Nothing else changes while the stream is not traced. -/
def Obligations.Branches : Prop :=
  ∀ (s : State) (c : Ctx) (p : Pre) (uni : Bool) (a : Opd) (off : BitVec 30), c.lanes ≠ 0 → s.tracedStream c.crew c.sid = false →
    let go (i : Instr) (tgt : Nat → Word) : Prop := Issues s i c →
      let next (l : Nat) : Word := if c.act.getLsbD l then tgt l else c.fall
      (∀ l, c.act.getLsbD l = true → (tgt l).toNat % 8 = 0) →
      (uni = true → ∀ l k, c.lanes.getLsbD l = true → c.lanes.getLsbD k = true → next l = next k) →
      ∃ u, exec i s = .next u ∧ u.still = s.still ∧ ∀ l, c.lanes.getLsbD l = true → StandsAt u c l (next l)
    go (.bra p uni off) (fun _ => c.addr + (off.signExtend 64 <<< 3)) ∧ go (.brx p uni a) (c.read .n64 a) ∧ go (.ret p uni a) (c.read .n64 a)

/-- R161, R164: `CALL` and `CALLX` write the fall-through to the link destination and to RLINK in each guarded lane, and then transfer as `BRA` and `BRX`
do; the target of `CALLX` is read first. -/
def Obligations.Calls : Prop :=
  ∀ (s : State) (c : Ctx) (p : Pre) (uni : Bool) (d a : Opd) (off : BitVec 30), c.lanes ≠ 0 → s.tracedStream c.crew c.sid = false →
    let go (i : Instr) (d : Opd) (tgt : Nat → Word) : Prop := Issues s i c →
      let next (l : Nat) : Word := if c.act.getLsbD l then tgt l else c.fall
      (∀ l, c.act.getLsbD l = true → (tgt l).toNat % 8 = 0) →
      (uni = true → ∀ l k, c.lanes.getLsbD l = true → c.lanes.getLsbD k = true → next l = next k) →
      ∃ u, exec i s = .next u ∧ (∀ l, c.lanes.getLsbD l = true → StandsAt u c l (next l))
        ∧ u.still = (c.forLanes (fun l s => (c.write .n64 d l c.fall s).modThread c.id c.sid l fun h => { h with rlink := c.fall }) s).still
    go (.call p uni a off) a (fun _ => c.addr + (off.signExtend 64 <<< 3)) ∧ go (.callx p uni d a) d (c.read .n64 a)

/-- R166: `EXIT` ends the thread of each guarded lane of a wave, and the other lanes go to the fall-through; a team has exited when its last thread has
ended (R28). In a handler it closes the handler for those lanes: while others stay the stream is in its handler, and with none left it leaves it, its trap
registers clear. R183, R42: in a Gaffer context `EXIT` leaves no path outside a handler and no Suspended operation on any tile, and in a producer program
no path; neither changes memory or a register. -/
def Obligations.Exit : Prop :=
  ∀ (s : State) (c : Ctx) (p : Pre), Issues s (.exit p) c →
    (c.t.intr = none → ∃ u, exec (.exit p) s = .next u ∧ u.mem = s.mem ∧ u.regs = s.regs
      ∧ (∀ l, c.lanes.getLsbD l = true → c.act.getLsbD l = false → StandsAt u c l c.fall)
      ∧ (∀ r w, c.sid = .wave r w → ∀ t, u.strand? c.id c.sid = some t →
          (∀ l, l < c.t.threads.length → (t.thread l).exited = ((c.t.thread l).exited || c.act.getLsbD l))
          ∧ ∀ tm, u.team? c.id r = some tm → tm.exited = decide (tm.unexited = 0))
      ∧ (c.isG = true → c.act ≠ 0 → c.act = c.path.lanes → c.t.paths = [c.path] →
          (∀ t, u.strand? c.id c.sid = some t → t.paths = []) ∧ ∀ k, u.crew? c.id = some k → ∀ tm ∈ k.teams, ∀ x ∈ tm.tiles, x.susp = none)
      ∧ (c.isP = true → c.act = c.path.lanes → c.t.paths = [c.path] → ∀ t, u.strand? c.id c.sid = some t → t.paths = []))
    ∧ ∀ i, c.t.intr = some i → c.act ≠ 0 → c.t.paths = [c.path] → fld c.t.trap.cause.toNat 4 2 ≠ 3 → ∃ u t, exec (.exit p) s = .next u
      ∧ u.strand? c.id c.sid = some t ∧ (∀ l, l < c.t.threads.length → (t.thread l).exited = ((c.t.thread l).exited || c.act.getLsbD l))
      ∧ (c.act ≠ c.path.lanes → c.path.only = none → t.intr.isSome = true
          ∧ ∀ l, c.lanes.getLsbD l = true → c.act.getLsbD l = false → StandsAt u c l c.fall)
      ∧ (c.act = c.path.lanes → t.intr = none ∧ t.trap = { cause := 0, mask := 0, pc := 0, aux := 0 })

/-- R205, R47: when every lane of the only handler path takes `HRET`, the return address being 8-aligned, and the trap was not one of the operand log (kind
3), the stream leaves its handler: the trap registers read 0, and each lane of the interrupted path whose thread has not ended stands at TRAPPC, or at
TRAPPC + 8 after a kind 0 trap none of whose lanes is to issue again. After a kind 0 trap some of whose lanes are in TRAPMASK, exactly those issue the word
again; that until then all lanes stand at TRAPPC as one path is the model's choice (log 14). A return address that is not 8-aligned raises cause 7 with
kind 1 at the word. -/
def Obligations.HandlerReturn : Prop :=
  (∀ (s : State) (c : Ctx) (p : Pre), Issues s (.hret p) c → c.path.joined = false → c.act ≠ 0 → c.mustHold = false → c.t.trap.pc.toNat % 8 ≠ 0 →
    ∃ r : Raise, exec (.hret p) s = .next ((c.issued s).takeTrap c.id c.sid c.grant.path r) ∧ r.cause = 7 ∧ r.kind = 1 ∧ r.pc = c.addr ∧ r.mask = c.act
      ∧ r.aux = c.t.trap.pc)
  ∧ ∀ (s : State) (c : Ctx) (p : Pre) (i : Intr), Issues s (.hret p) c → c.t.intr = some i → c.act = c.path.lanes → c.t.paths = [c.path] →
    c.t.trap.pc.toNat % 8 = 0 → i.path.clause = none → s.tracedStream c.crew c.sid = false →
    let kind := fld c.t.trap.cause.toNat 4 2
    let back := i.path.lanes &&& c.t.alive
    kind ≠ 3 →
    ∃ u t, exec (.hret p) s = .next u ∧ u.strand? c.id c.sid = some t ∧ t.intr = none ∧ t.trap = { cause := 0, mask := 0, pc := 0, aux := 0 }
      ∧ ∀ l, back.getLsbD l = true → ∃ q ∈ t.paths, q.lanes.getLsbD l = true ∧ (q.clause = none ∨ q.joined = true)
          ∧ q.pc = (if kind = 0 ∧ back &&& c.t.trap.mask = 0 then c.t.trap.pc + 8 else c.t.trap.pc)
          ∧ (kind = 0 → back &&& c.t.trap.mask ≠ 0 → i.path.wait = .none → q.lanes = back ∧ q.only = some (back &&& c.t.trap.mask))

/-! ### Traps, handlers and special registers (R62 to R64, R100, R101, R195 to R204, R319) -/

/-- R195 to R201: a trap on one path of a stream outside a handler, for which a handler exists and which neither swaps the crew (cause 8) nor goes to an
armed debugger (cause 14). The trap registers hold cause, kind, position, mask, return point and datum in the places of R197 and R198; the path's lanes run
the handler from its first word, with an empty latch and no other path to run; the interrupted path keeps its latch and stands at the return point, and the
other paths are held. PEND says that a cause stays pending, an expired watchdog of another path among them (R39, R196). Memory and registers are as they
were. -/
def Obligations.TrapEntry : Prop :=
  ∀ (s : State) (crew : Nat) (sid : Sid) (pid : Nat) (r : Raise) (c : Crew) (t : Strand) (p : Path),
    s.crew? crew = some c → s.strand? crew sid = some t → t.path? pid = some p → t.intr = none → c.handlerOf sid ≠ 0 → r.cause ≠ 8 → r.cause < 16 →
    r.kind < 4 → (∀ q, r.at_ = some q → q < 32) → (r.cause ≠ 14 ∨ s.armed c.asid c.secure = false) → s.tracedStream c sid = false →
    let u := s.takeTrap crew sid pid r
    u.mem = s.mem ∧ u.regs = s.regs ∧ ∃ t' i h, u.strand? crew sid = some t' ∧ t'.intr = some i ∧ t'.paths = [h]
      ∧ fld t'.trap.cause.toNat 0 4 = r.cause ∧ fld t'.trap.cause.toNat 4 2 = r.kind ∧ fld t'.trap.cause.toNat 8 4 = t.logn % 16
      ∧ fld t'.trap.cause.toNat 12 1 = (if r.pend = true ∨ ∃ q ∈ t.paths, t.expired c.desc.limit q = true ∧ ¬(q.id = pid ∧ r.cause = 13) then 1 else 0)
      ∧ fld t'.trap.cause.toNat 16 5 = r.at_.getD 0
      ∧ fld t'.trap.cause.toNat 6 2 = 0 ∧ fld t'.trap.cause.toNat 13 3 = 0 ∧ fld t'.trap.cause.toNat 21 11 = 0
      ∧ t'.trap.mask = r.mask ∧ t'.trap.pc = r.pc &&& 0x1FFFFFFFFFFFFFF ∧ t'.trap.aux = r.aux
      ∧ h.lanes = p.lanes ∧ h.pc = c.handlerOf sid ∧ h.latch = [] ∧ h.clause = none ∧ h.starve = 0
      ∧ i.path.lanes = p.lanes ∧ i.path.latch = p.latch ∧ i.path.pc = r.pc ∧ i.held = t.paths.filter (fun q => q.id != pid)

/-- R203, R202: a trap for which no handler exists, and a trap in a handler other than cause 8, end the crew: it is resident no more, and the crews that
stay are those that were there. -/
def Obligations.TrapEndsCrew : Prop :=
  ∀ (s : State) (crew : Nat) (sid : Sid) (pid : Nat) (r : Raise) (c : Crew) (t : Strand) (p : Path),
    s.crew? crew = some c → s.strand? crew sid = some t → t.path? pid = some p → (t.intr.isSome ∨ c.handlerOf sid = 0) → r.cause ≠ 8 →
    (t.intr.isSome ∨ r.cause ≠ 14 ∨ s.armed c.asid c.secure = false) → s.tracedStream c sid = false →
    (s.takeTrap crew sid pid r).crews = s.crews.filter fun k => k.id != crew

/-- R64: a word that fails a check at decode has no effect in any lane: it traps at itself, for every lane of the path, with kind 1 and the cause of the
first check that fails, and TRAPAUX names the word. A lone lane's word that traps waits first until no clause of another path is in progress, which is the
model's choice (log 76). R62, R64: a word whose bits are no instruction traps at itself for every lane of the path with kind 1: cause 1 for OP 0xFE, else
cause 2. -/
def Obligations.DecodeTraps : Prop :=
  (∀ (s : State) (c : Ctx) (i : Instr) (k : Nat), i.isWord = true → s.ctx? i.pre = some c → c.check i = some k → c.path.lanes ≠ 0 →
     (c.mustHold = false → exec i s = .next ((c.issued s).takeTrap c.id c.sid c.grant.path
       { cause := k, kind := 1, mask := c.path.lanes, pc := c.addr, at_ := some c.pos, aux := c.word, pend := false, access := 0, absent := false }))
     ∧ (c.mustHold = true → ∃ u t q, exec i s = .next u ∧ u.slot = none ∧ u.mem = s.mem ∧ u.regs = s.regs ∧ u.strand? c.id c.sid = some t
         ∧ t.path? c.grant.path = some q ∧ q = { c.path with raises := true }))
  ∧ (∀ (s : State) (c : Ctx), s.ctx? ⟨15, false, 0⟩ = some c → decode c.word = none → c.path.lanes ≠ 0 → c.mustHold = false →
     step s = .next ((c.issued s).takeTrap c.id c.sid c.grant.path
       { cause := if wfld c.word 56 8 = 0xFE then 1 else 2, kind := 1, mask := c.path.lanes, pc := c.addr, at_ := some c.pos,
         aux := c.word, pend := false, access := 0, absent := false }))

/-- R63: where `TSAVE`, `TRESUME` or a write of TRAPCAUSE or TRAPMASK passes every check in a privileged crew, the same word in the same surroundings of a
crew that is not privileged raises cause 5. No other word looks at the privilege of its crew. -/
def Obligations.Privilege : Prop :=
  ∀ (s : State) (c : Ctx) (i : Instr), s.ctx? i.pre = some c →
    let in_ (priv : Bool) : Ctx := { c with crew := { c.crew with desc := { c.crew.desc with priv := priv } } }
    let special : Bool := match i with
      | .tsave .. | .tresumeCont .. | .tresumeWide .. | .tresumeRestart .. => true
      | .wrsr _ _ d _ => d == 0x128 || d == 0x129
      | _ => false
    (special = true → ((in_ true).check i = none → (in_ false).check i = some 5) ∧ (in_ true).check i ≠ some 5
      ∧ ∀ k, (in_ true).check i = some k → (in_ false).check i = some k)
    ∧ (special = false → (in_ false).check i = (in_ true).check i ∧ c.check i ≠ some 5)

/-- R195, R204: `TRAP` and `BRK` with a guarded lane complete and raise cause 15 or 14 behind themselves with kind 2: TRAPPC is the address after the word,
the mask is the guarded lanes, and TRAPAUX is imm20. With no guarded lane they do nothing. R318, R319: `SNAP` with a guarded lane completes; one trigger
arises for the path: the snapshot sequence number rises by one, and a message with that number and the tag of the lowest guarded lane goes to each of the
other dies, and to its own where an earlier trigger is still on its way there. With no guarded lane it does nothing. -/
def Obligations.SoftTrapsAndSnapshots : Prop :=
  (∀ (s : State) (c : Ctx) (p : Pre) (imm : BitVec 20),
     let go (i : Instr) (cause : Nat) : Prop := Issues s i c →
       (c.act = 0 → Leaves (exec i s) s)
       ∧ (c.act ≠ 0 → c.mustHold = false → c.t.intr = none → c.crew.handlerOf c.sid ≠ 0 → s.armed c.crew.asid c.crew.secure = false → s.tracedStream c.crew c.sid = false →
         ∃ u t, exec i s = .next u ∧ u.mem = s.mem ∧ u.regs = s.regs ∧ u.strand? c.id c.sid = some t ∧ fld t.trap.cause.toNat 0 4 = cause
           ∧ fld t.trap.cause.toNat 4 2 = 2 ∧ t.trap.mask = c.act ∧ t.trap.pc = (c.addr + 8) &&& 0x1FFFFFFFFFFFFFF ∧ t.trap.aux = imm.setWidth 64
           ∧ t.paths.map Path.pc = [c.crew.handlerOf c.sid])
     go (.trap p imm) 15 ∧ go (.brk p imm) 14)
  ∧ (∀ (s : State) (c : Ctx) (p : Pre) (a : Opd), Issues s (.snap p a) c →
     (c.act = 0 → Leaves (exec (.snap p a) s) s)
     ∧ (c.act ≠ 0 → ∃ u, exec (.snap p a) s = .next u ∧ u.sseq = s.sseq + 1
         ∧ u.snaps.map (fun m => (m.die, m.seq, m.tag)) = s.snaps.map (fun m => (m.die, m.seq, m.tag))
           ++ ((List.range 4).filter fun d => decide (d ≠ c.die) || s.snaps.any fun m => m.die == c.die).map fun d => (d, s.sseq + 1, (c.read .n32 a (lowLane c.act)).setWidth 32)))

/-- R100, R57: sources that are constants and special registers. A constant has its signed value under an integer type of one element; every register of
the table reads as its row and R24, R33 and R94 say; outside a handler the trap registers read 0. -/
def Obligations.SpecialRegisters : Prop :=
  ∀ (s : State) (c : Ctx) (p : Pre) (l : Nat), s.ctx? p = some c → l < 32 →
    (∀ k : BitVec 8, c.read .i64 (.k k) l = k.signExtend 64 ∧ c.read .i32 (.k k) l = (k.signExtend 32).setWidth 64)
    ∧ (c.isP = false → c.rd .n32 (.x 16) l = l ∧ c.rd .n32 (.x 17) l = (32 * c.wave + l) % 2 ^ 32 ∧ c.rd .n32 (.x 28) l = c.path.lanes.toNat)
    ∧ (c.isP = true → c.rd .n32 (.x 16) l = 0 ∧ c.rd .n32 (.x 17) l = 0 ∧ c.rd .n32 (.x 24) l = 0 ∧ c.rd .n32 (.x 28) l = 1)
    ∧ c.rd .n32 (.x 26) l = c.crew.desc.team % 2 ^ 32 ∧ c.rd .n32 (.x 27) l = c.crew.teams.length % 2 ^ 32
    ∧ c.read .n64 (.x 30) l = BitVec.ofNat 64 (s.clk c.crew.die) ∧ c.read .n64 (.x 31) l = (c.t.thread l).rlink
    ∧ c.read .n64 (.x 33) l = c.crew.frame ∧ c.read .n64 (.x 32) l = c.crew.kdesc
    ∧ c.rd .n32 (.x 18) l = c.rank % 2 ^ 32 ∧ c.rd .n32 (.x 19) l = c.crew.number % 2 ^ 32 ∧ c.rd .n32 (.x 20) l = c.core.core % 2 ^ 32
    ∧ c.rd .n32 (.x 21) l = c.crew.cluster % 2 ^ 32 ∧ c.rd .n32 (.x 22) l = c.crew.die % 2 ^ 32 ∧ c.rd .n32 (.x 23) l = c.crew.taskRec.toNat / 32 % 2 ^ 32
    ∧ (c.isP = false → c.rd .n32 (.x 24) l = c.path.age % 2 ^ 32)
    ∧ (∀ r w, c.sid = .wave r w → c.rd .n32 (.x 25) l
        = c.crew.die % 4 * 2 ^ 18 + c.crew.cluster % 64 * 2 ^ 12 + c.core.core % 4 * 2 ^ 10 + c.t.slot % 32 * 2 ^ 5 + l)
    ∧ (c.isP = false → c.rd .n32 (.x 29) l = (c.t.thread l).pred.toNat + 2 ^ 15)
    ∧ (∀ tm, c.team = some tm → c.read .n64 (.x 34) l = BitVec.ofNat 64 (c.crew.desc.w0lim * 2 ^ 32 + tm.base0)
        ∧ c.read .n64 (.x 35) l = tm.slots.setWidth 64 ∧ c.read .n64 (.x 37) l = BitVec.ofNat 64 (c.crew.desc.w3lim * 2 ^ 32 + tm.base3))
    ∧ c.read .n64 (.x 36) l = c.t.w2 ∧ c.rd .n32 (.x 38) l = (c.t.thread l).cvt.toNat ∧ (c.isG = true → c.rd .n32 (.x 39) l = c.t.slot % 2 ^ 32)
    ∧ (∀ k : BitVec 8, 16 ≤ k.toNat → c.read .n32 (.x k) l = ((c.read .n64 (.x k) l).setWidth 32).setWidth 64)
    ∧ (c.t.intr = none → ∀ k ∈ [40, 41, 42, 43], c.read .n64 (.x (BitVec.ofNat 8 k)) l = 0)
    ∧ (c.t.intr ≠ none → c.rd .n32 (.x 40) l = c.t.trap.cause.toNat ∧ c.rd .n32 (.x 41) l = c.t.trap.mask.toNat
        ∧ c.read .n64 (.x 42) l = c.t.trap.pc ∧ c.read .n64 (.x 43) l = c.t.trap.aux)

/-- R101, R198, R4: `WRSR` completes, for each register that it may write, with exactly these effects. PMASK, CVTFLAG and RLINK are each guarded lane's
own; w2 takes the fields that R94 gives it where every guarded lane gives one valid value; a trap register takes the value that the guarded lanes share,
and a write of TRAPPC sets KIND from 0 or 1 to 2. -/
def Obligations.WriteSpecial : Prop :=
  ∀ (s : State) (c : Ctx) (p : Pre) (t : Ty) (a : Opd),
    let x (l : Nat) : Word := c.read t a l
    let one : Prop := c.act ≠ 0 ∧ ∀ l, c.act.getLsbD l = true → x l = x (lowLane c.act)
    let go (k : Nat) (h : Prop) (e : State) : Prop :=
      Issues s (.wrsr p t (BitVec.ofNat 10 (256 + k)) a) c → h → Leaves (exec (.wrsr p t (BitVec.ofNat 10 (256 + k)) a) s) e
    let lanes (f : Nat → Thread → Thread) : State := c.forLanes (fun l s => s.modThread c.id c.sid l (f l)) s
    let strand (f : Strand → Strand) : State := s.modStrand c.id c.sid f
    go 29 True (lanes fun l h => { h with pred := (x l).setWidth 15 })
    ∧ go 31 True (lanes fun l h => { h with rlink := x l })
    ∧ go 38 True (lanes fun l h => { h with cvt := h.cvt &&& ~~~((x l).setWidth 7) })
    ∧ go 36 (one ∧ c.w2Valid (x (lowLane c.act)) = true) (strand fun t => { t with w2 := x (lowLane c.act) &&& 0x18FFF })
    ∧ go 41 one (strand fun t => { t with trap := { t.trap with mask := (x (lowLane c.act)).setWidth 32 } })
    ∧ (Issues s (.wrsr p t (BitVec.ofNat 10 296) a) c → one → ∃ f : Strand → Strand,
        Leaves (exec (.wrsr p t (BitVec.ofNat 10 296) a) s) (strand f) ∧ ∀ t, (f t).trap.pc = t.trap.pc ∧ (f t).trap.mask = t.trap.mask
          ∧ ∀ k, (f t).trap.cause.getLsbD k = if k < 6 then (x (lowLane c.act)).getLsbD k else t.trap.cause.getLsbD k)
    ∧ (Issues s (.wrsr p t (BitVec.ofNat 10 298) a) c → one → ∃ f : Strand → Strand,
        Leaves (exec (.wrsr p t (BitVec.ofNat 10 298) a) s) (strand f) ∧ ∀ t, (f t).trap.pc = x (lowLane c.act) &&& 0x1FFFFFFFFFFFFFF
          ∧ (f t).trap.mask = t.trap.mask ∧ fld (f t).trap.cause.toNat 0 4 = fld t.trap.cause.toNat 0 4
          ∧ fld (f t).trap.cause.toNat 4 2 = (if fld t.trap.cause.toNat 4 2 = 3 then 3 else 2))

/-! ### Memory words (R206, R258 to R282, R298, R343 to R345) -/

/-- R206, R258, R298: a logged memory word whose guarded lanes are aligned and name no address of the block-transfer aperture enters the operand log with
its addresses and data, and raises the counters of its row; no memory and no register has changed yet. It needs room in the log and the counters, and no
incomplete older entry of a lane that names its line. -/
def Obligations.LoggedAccesses : Prop :=
  ∀ (s : State) (c : Ctx) (p : Pre) (t : Ty) (m : MemMode) (z : Size) (tag : Bool) (op : AtomOp) (d a b e : Opd) (off : BitVec 16) (hint : BitVec 3),
    c.act ≠ 0 → c.t.logn + entryRecords c.word ≤ 8 →
    let addr := c.ea a off
    let at_ := c.read .n64 a
    let w : Nat := if t.is64 then 8 else 4
    let good (i : Instr) (f : Nat → Word) (n : Nat) (k : Counts) (src : Nat → List Word) : Prop :=
      Issues s i c ∧ (∀ l, c.act.getLsbD l = true → (f l).toNat % n = 0 ∧ inBlockAperture (f l) = false) ∧ c.t.canRaise k = true
        ∧ c.lineTaken src c.ls = false
    let data (z : Size) (l : Nat) : List Word := let h := halves (c.groupNat t z d l); [addr l, h.1, h.2]
    let go (i : Instr) (f : Nat → Word) (n : Nat) (k : Counts) (src : Nat → List Word) : Prop := good i f n k src → c.Enters (exec i s) true k src
    go (.ld p t m d a off hint) addr (sizeBytes t (MemSize m)) ⟨1, 0, 0, 0⟩ (fun l => [addr l])
    ∧ go (.st p t m tag d a off hint) addr (sizeBytes t (MemSize m)) ⟨if tag then 1 else 0, 1, 0, 0⟩ (data (MemSize m))
    ∧ go (.pin p d a off) addr 1 ⟨1, 0, 0, 0⟩ (fun l => [addr l])
    ∧ go (.atom p t op d a b) at_ w ⟨1, 1, 0, 0⟩ (fun l => [at_ l, c.read t b l])
    ∧ go (.acas p t d a b e) at_ w ⟨1, 1, 0, 0⟩ (fun l => [at_ l, c.read t b l, c.read t e l])
    ∧ go (.gsadd p a b) at_ 4 ⟨0, 1, 0, 0⟩ (fun l => [at_ l, c.read .f32 b l])
    ∧ (Issues s (.lds p t z d a off) c → (∀ l, c.act.getLsbD l = true → (addr l).toNat % sizeBytes t z = 0) → c.t.canRaise ⟨1, 0, 0, 0⟩ = true →
        c.lineTaken (fun l => [addr l]) c.ls = false → c.Enters (exec (.lds p t z d a off) s) true ⟨1, 0, 0, 0⟩ fun l => [addr l])
    ∧ (Issues s (.sts p t z d a off) c → (∀ l, c.act.getLsbD l = true → (addr l).toNat % sizeBytes t z = 0) → c.t.canRaise ⟨0, 1, 0, 0⟩ = true →
        c.lineTaken (data z) c.ls = false → c.Enters (exec (.sts p t z d a off) s) true ⟨0, 1, 0, 0⟩ (data z))

/-- R262, R195, R199: a load all of whose guarded lanes are misaligned raises cause 7 at issue: it traps at itself with kind 0 in those lanes, and TRAPAUX
will hold the effective address of the lowest one. Nothing is logged. R161: when the lowest guarded lane of a `BRX` names a target that is not 8-aligned,
the word has no effect in any lane and traps with cause 7 and kind 1 at itself; TRAPAUX will hold the lane's target. R157: a lane that takes the fault
action of a conversion writes nothing and the word traps with cause 10 and kind 0 at itself, naming exactly the lanes that took it; the other lanes have
completed. R304: an arrival whose guarded lanes disagree on the count, or that fails the checks of R304, raises cause 3 in every guarded lane with kind 0.
-/
def Obligations.TrapsAtIssue : Prop :=
  (∀ (s : State) (c : Ctx) (p : Pre) (t : Ty) (z : Size) (d a : Opd) (off : BitVec 16), Issues s (.lds p t z d a off) c → c.path.joined = false →
     c.mustHold = false → c.act ≠ 0 → (∀ l, c.act.getLsbD l = true → (c.ea a off l).toNat % sizeBytes t z ≠ 0) →
     exec (.lds p t z d a off) s = .next ((c.putLatch (c.holdOf (.lds p t z d a off)) (c.issued s)).takeTrap c.id c.sid c.grant.path
       { cause := 7, kind := 0, mask := c.act, pc := c.addr, at_ := some c.pos, aux := c.ea a off (lowLane c.act), pend := false, access := 0,
         absent := false }))
  ∧ (∀ (s : State) (c : Ctx) (p : Pre) (a : Opd), Issues s (.brx p false a) c → c.path.joined = false → c.act ≠ 0 → c.mustHold = false →
     (c.read .n64 a (lowLane c.act)).toNat % 8 ≠ 0 →
     ∃ r : Raise, exec (.brx p false a) s = .next ((c.issued s).takeTrap c.id c.sid c.grant.path r) ∧ r.cause = 7 ∧ r.kind = 1 ∧ r.pc = c.addr
       ∧ r.aux = c.read .n64 a (lowLane c.act)
       ∧ ∀ l, r.mask.getLsbD l = (c.act.getLsbD l && decide ((c.read .n64 a l).toNat % 8 ≠ 0)))
  ∧ (∀ (s : State) (c : Ctx) (p : Pre) (t : Ty) (rm : Rm) (d a : Opd) (pol : BitVec 8) (f : BitVec 4),
     Issues s (.cvt p t rm d a pol f) c → c.path.joined = false → c.mustHold = false →
     let td := (Ty.ofCode f).getD .n32
     let r (l : Nat) : Conv := convert td.target rm pol (t.srcOf (c.rd t a l))
     let bad := c.ls.filter fun l => (r l).fault
     bad ≠ [] → exec (.cvt p t rm d a pol f) s = .next ((c.putLatch (c.holdOf (.cvt p t rm d a pol f)) (c.issued
         (c.forLanes (fun l s => if (r l).fault then c.addCvt l (r l).flags s
           else c.write td d l (BitVec.ofNat 64 (r l).code) (c.addCvt l (r l).flags s)) s))).takeTrap c.id c.sid c.grant.path
       { cause := 10, kind := 0, mask := lanesFrom bad, pc := c.addr, at_ := some c.pos, aux := c.word, pend := false, access := 0, absent := false }))
  ∧ (∀ (s : State) (c : Ctx) (p : Pre) (b : Opd) (n : BitVec 4), Issues s (.barArv p b n) c → c.path.joined = false → c.mustHold = false → c.act ≠ 0 →
     ((∃ l k, c.act.getLsbD l = true ∧ c.act.getLsbD k = true ∧ c.rd .n32 b l ≠ c.rd .n32 b k)
       ∨ barOk (c.barrier false n.toNat) (c.rd .n32 b (lowLane c.act)) c.ls.length c.crew.desc.team = false) →
     exec (.barArv p b n) s = .next ((c.putLatch (c.holdOf (.barArv p b n)) (c.issued s)).takeTrap c.id c.sid c.grant.path
       { cause := 3, kind := 0, mask := c.act, pc := c.addr, at_ := some c.pos, aux := c.word, pend := false, access := 0, absent := false }))

/-- R258, R273, R281, R298, R343, R359: the words that send messages without being logged complete as they issue, where the counter that they raise is
below 15: with no guarded lane they do nothing, and else an entry of the word stands for its guarded lanes, with its addresses, until they are answered;
memory and register space are as they were. They need no room in the log. `SLD` with its increment also writes A plus the offset to A, and changes nothing
else, but for the record of a sample (R314; that `GSFLUSH` raises the store counter by one for the word, whatever its lanes, is the model's choice, log
47). -/
def Obligations.UnloggedAccesses : Prop :=
  ∀ (s : State) (c : Ctx) (p : Pre) (t : Ty) (z : SldSize) (d a b : Opd) (off : BitVec 16),
    let outside : Prop := ∀ l, c.act.getLsbD l = true → inBlockAperture (c.ea a off l) = false
    let completes (i : Instr) (h : Prop) (src : Nat → List Word) : Prop := Issues s i c →
      (c.act = 0 → Leaves (exec i s) s)
      ∧ (c.act ≠ 0 → c.t.canRaise ⟨0, 1, 0, 0⟩ = true → h → c.Enters (exec i s) false ⟨0, 1, 0, 0⟩ src)
    completes (.cctlEvict p a off) outside (fun l => [c.ea a off l])
    ∧ completes (.cctlFlush p a off) outside (fun l => [c.ea a off l])
    ∧ completes (.gsflush p a b) True (fun l => [c.read .n64 a l, c.read .n32 b l])
    ∧ completes (.gsflushAll p) True (fun _ => [])
    ∧ ∀ inc : Bool, Issues s (.sld p t z inc d a off) c → c.isP = true →
        let ea (l : Nat) : Word := if inc then c.read .n64 a l else c.ea a off l
        (c.act = 0 → Leaves (exec (.sld p t z inc d a off) s) s)
        ∧ (c.act ≠ 0 → c.t.canRaise ⟨1, 0, 0, 0⟩ = true →
          (∀ l, c.act.getLsbD l = true → (ea l).toNat % accessBytes (.sld p t z inc d a off) = 0 ∧ inBlockAperture (ea l) = false) →
          c.Enters (exec (.sld p t z inc d a off) s) false ⟨1, 0, 0, 0⟩ (fun l => [ea l])
          ∧ ∃ e, let s1 := (State.modStrand { s with ids := s.ids + 1 } c.id c.sid fun t => { t.raise ⟨1, 0, 0, 0⟩ with log := t.log ++ [e] }).sample c s.ids c.ls ea
            Leaves (exec (.sld p t z inc d a off) s) (if inc then c.forLanes (fun l s => c.write .n64 a l (c.ea a off l) s) s1 else s1))

/-- R268: `LDRS` and `STRS` whose guarded lanes are aligned and in range of the team's register space, and touch no busy tile, act at once: registers
receive the bytes as they stood, and the bytes of register space receive the registers. Nothing else changes, but for the record of a sample (R314). -/
def Obligations.RegisterSpace : Prop :=
  ∀ (s : State) (c : Ctx) (tm : Team) (p : Pre) (t : Ty) (z : Size) (d a : Opd) (off : BitVec 16), c.team = some tm → c.acquirePending = false →
    let addr (l : Nat) : Nat := (c.ea a off l).toNat
    let n := sizeBytes t z
    (∀ l, c.act.getLsbD l = true → addr l % n = 0 ∧ c.crew.regRangeOk tm (c.ea a off l) n = true
      ∧ ∀ i, tm.tileAt (addr l) = some i → c.tileBusy c.rank i = false) →
    let sampled (u : State) : State := if c.act = 0 then u else u.sampleNow c c.ls (c.ea a off)
    (Issues s (.ldrs p t z d a off) c → Leaves (exec (.ldrs p t z d a off) s)
      (sampled (c.forLanes (fun l s' => c.putGroup t z d l (leNat (s.regBytes c.core (addr l) n)) s') s)))
    ∧ (Issues s (.strs p t z d a off) c → Leaves (exec (.strs p t z d a off) s)
      (sampled (c.forLanes (fun l s' => s'.putReg c.core tm (addr l) (leBytes n (c.groupNat t z d l))) s)))

/-- R271 to R273: `PREF` writes no register, and no memory but the record of a sample that is due (R314; so for the others). `UNPIN` leaves the issuer no
software pin on the line of any guarded lane whose address translates, and adds none. `CCTL.iinv` empties the instruction buffer of its core and the loop
buffer of every lane on the core (R50), and `CCTL.l1` its L1 view. -/
def Obligations.CacheWords : Prop :=
  ∀ (s : State) (c : Ctx) (p : Pre) (l1 : Bool) (a : Opd) (off : BitVec 16) (hint : BitVec 3),
    (Issues s (.pref p l1 a off hint) c → ∃ u, exec (.pref p l1 a off hint) s = .next u ∧ u.regs = s.regs ∧ u.msgs = s.msgs
        ∧ (s.sampleDue c.core = false → u.mem = s.mem))
    ∧ (Issues s (.unpin p a off) c → ∃ u, exec (.unpin p a off) s = .next u ∧ u.regs = s.regs ∧ (s.sampleDue c.core = false → u.mem = s.mem)
        ∧ (∀ q ∈ u.pins, q ∈ s.pins)
        ∧ ∀ l f, c.act.getLsbD l = true → inBlockAperture (c.ea a off l) = false →
          let walk (v : State) (k : Nat) : State :=
            if inBlockAperture (c.ea a off k) = true then v else (v.translate c.crew.asid c.crew.secure .load (c.ea a off k)).2
          (((c.ls.filter (· < l)).foldl walk s).translate c.crew.asid c.crew.secure .load (c.ea a off l)).1 = .ok f →
          ∀ q ∈ u.pins, ¬(q.holder = c.softHolder ∧ q.line = lineOf f.at_))
    ∧ (Issues s (.cctlIinv p) c → ∃ u, exec (.cctlIinv p) s = .next u ∧ u.regs = s.regs ∧ (s.sampleDue c.core = false → u.mem = s.mem)
        ∧ (c.act ≠ 0 → (∀ x ∈ u.ibuf, x.1 ≠ c.core)
          ∧ ∀ k ∈ u.crews, ∀ d ∈ k.sids, k.coreOf d = c.core → ∀ t, k.strand? d = some t → ∀ h ∈ t.threads, h.buf = []))
    ∧ (Issues s (.cctlL1 p) c → Leaves (exec (.cctlL1 p) s)
        (if c.act = 0 ∨ 4 ≤ c.core.core then s else State.sampleNow { s with l1 := assocSet s.l1 c.core [] } c c.ls fun _ => 0))

/-- R343 to R346, R49: an `ST` of 64 bits into the block-transfer aperture, `.rel` or not, offers its guarded lanes' data to the channels that their
addresses name, and holds its path at its word inside its clause. When every lane's command has been accepted it completes; where some were refused, the
accepted lanes have completed and the refused ones raise cause 3 with kind 0. -/
def Obligations.ApertureStore : Prop :=
  ∀ (s : State) (c : Ctx) (p : Pre) (t : Ty) (m : MemMode) (d a : Opd) (off : BitVec 16) (hint : BitVec 3),
    let i : Instr := .st p t m false d a off hint
    Issues s i c → wordOf c.word = i → c.path.joined = false → (t = .n64 ∨ t = .i64) → MemSize m = .nat → c.act ≠ 0 → c.t.canRaise ⟨0, 0, 1, 0⟩ = true →
    let at_ (l : Nat) : Nat := (c.ea a off l).toNat - blockAperture
    (∀ l, c.act.getLsbD l = true → inBlockAperture (c.ea a off l) = true ∧ at_ l < 0x80 ∧ at_ l % 8 = 0) →
    (c.offers = [] → ∃ u t1 q, exec i s = .next u ∧ u.slot = none ∧ u.mem = s.mem ∧ u.regs = s.regs
      ∧ u.strand? c.id c.sid = some t1 ∧ t1.path? c.grant.path = some q ∧ q.clause = some c.cl ∧ q.pc = c.path.pc ∧ q.at_ = c.path.at_
      ∧ q.lanes = c.path.lanes ∧ q.only = c.path.only ∧ q.wait = c.path.wait
      ∧ u.offers.map (fun o => (o.lane, o.chan, o.data, o.settled))
        = s.offers.map (fun o => (o.lane, o.chan, o.data, o.settled))
          ++ c.ls.map fun l => (l, at_ l / 8, BitVec.ofNat 64 (c.groupNat t .nat d l), false))
    ∧ (c.offers.map Offer.lane = c.ls → (∀ o ∈ c.offers, o.word = c.word ∧ o.settled = true) →
        let refused : List Nat := (c.offers.filter Offer.refused).map Offer.lane
        let done_ : List Nat := c.ls.filter fun l => !refused.contains l
        let after : State := if done_ = [] then c.withoutOffers s else (c.withoutOffers s).sampleNow c done_ (c.ea a off)
        (refused = [] → Leaves (exec i s) after)
        ∧ (refused ≠ [] → (∀ o ∈ c.offers, o.far = none) → c.mustHold = false →
            exec i s = .next ((c.putLatch (c.holdOf i) (c.issued after)).takeTrap c.id c.sid c.grant.path
              { cause := 3, kind := 0, mask := lanesFrom refused, pc := c.addr, at_ := some c.pos, aux := c.word, pend := false, access := 0,
                absent := false })))

/-! ### Waits and barriers (R301 to R308) -/

/-- R282, R289: a `FENCE` completes once everything older of its path has completed as its scope asks, and at `cr` and wider empties the L1 view of its
core; until then it stalls. With no guarded lane it does nothing. It changes nothing else but the record of a sample (R314). R302: `WAIT` completes at once
when each counter is at or below its limit, 15 being no limit, or when no lane is guarded; otherwise the path waits on the four limits. Nothing else
changes. -/
def Obligations.FenceAndWait : Prop :=
  (∀ (s : State) (c : Ctx) (p : Pre) (sc : Scope), Issues s (.fence p sc) c →
     (c.act = 0 → Leaves (exec (.fence p sc) s) s)
     ∧ (c.act ≠ 0 → s.released c.crew c.t c.inH c.path.lanes none sc = true → Leaves (exec (.fence p sc) s)
         (State.sampleNow (if sc ≠ .th ∧ sc ≠ .tm ∧ c.core.core < 4 then { s with l1 := assocSet s.l1 c.core [] } else s) c c.ls fun _ => 0))
     ∧ (c.act ≠ 0 → s.released c.crew c.t c.inH c.path.lanes none sc = false →
         exec (.fence p sc) s = .next { s with slot := none, stalls := (c.id, c.sid, c.grant.path) :: s.stalls }))
  ∧ (∀ (s : State) (c : Ctx) (p : Pre) (ld st cp tl : BitVec 4), Issues s (.wait p ld st cp tl) c →
     let within (n : Nat) (x : BitVec 4) : Prop := n ≤ x.toNat
     let beyond (n : Nat) (x : BitVec 4) : Prop := x.toNat < n ∧ x ≠ 15
     (c.act = 0 ∨ (within c.t.ld ld ∧ within c.t.st st ∧ within c.t.cp cp ∧ within c.t.tl tl) → Leaves (exec (.wait p ld st cp tl) s) s)
     ∧ (c.act ≠ 0 → beyond c.t.ld ld ∨ beyond c.t.st st ∨ beyond c.t.cp cp ∨ beyond c.t.tl tl →
         let lim (x : BitVec 4) : Nat := if x = 15 then 99 else x.toNat
         c.Waits (exec (.wait p ld st cp tl) s) (.counts (lim ld) (lim st) (lim cp) (lim tl))))

/-- R301, R303 to R305, R289: an arrival of k guarded lanes with one count at a team or crew barrier, which passes the checks of R304 and whose release is
made. ARRIVED rises by k; when it reaches the count, or with count 0 the unexited threads, the phase rises by one, ARRIVED is 0 and the barrier is closed.
`.arv` completes then. `.sync` completes when the phase is complete: it waits on nothing, its path goes on to the next word or the fall-through, and its
acquire is made, which for a crew barrier empties the L1 view of its core; otherwise its path waits. With no guarded lane none of them does anything. -/
def Obligations.Barriers : Prop :=
  ∀ (s : State) (c : Ctx) (p : Pre) (b : Opd) (n : BitVec 4) (cnt : Nat),
    let go (crewWide : Bool) : Prop :=
      let arv : Instr := if crewWide then .cbarArv p b n else .barArv p b n
      let sync : Instr := if crewWide then .cbarSync p b n else .barSync p b n
      let old := c.barrier crewWide n.toNat
      let sc : Scope := if crewWide then .cr else .tm
      let members := if crewWide then c.crew.unexited else (c.team.map Team.unexited).getD 0
      let arrived := barArrived old + c.ls.length
      let full : Bool := if cnt = 0 then decide (members ≤ arrived) else decide (arrived = cnt)
      let after (u : State) : Word := if crewWide then ((u.crew? c.id).map fun k => k.cbars.getD n.toNat 0).getD 0
        else ((u.team? c.id c.rank).map fun t => t.bars.getD n.toNat 0).getD 0
      let arrives (u : State) : Prop := u.mem = s.mem ∧ u.regs = s.regs ∧ barPhase (after u) = (barPhase old + if full then 1 else 0) % 16
        ∧ barOpen (after u) = !full ∧ barArrived (after u) = (if full then 0 else arrived) ∧ (full = false → barAll (after u) = decide (cnt = 0))
        ∧ (cnt ≠ 0 → barTarget (after u) = cnt)
      (c.act = 0 → (Issues s arv c → Leaves (exec arv s) s) ∧ (Issues s sync c → c.path.joined = false → Leaves (exec sync s) s))
      ∧ (c.act ≠ 0 → (∀ l, c.act.getLsbD l = true → c.rd .n32 b l = cnt) → cnt < 8192 →
        (if crewWide then n.toNat < c.crew.cbars.length else ∃ tm, c.team = some tm ∧ n.toNat < tm.bars.length) → arrived < 8192 →
        barOk old cnt c.ls.length (c.barThreads crewWide) = true → s.released c.crew c.t false c.act none sc = true →
        (Issues s arv c → ∃ u, exec arv s = .next u ∧ arrives u ∧ u.l1 = s.l1)
        ∧ (Issues s sync c → c.path.wait = .none → ∃ u, exec sync s = .next u ∧ arrives u ∧ u.slot = none
          ∧ (full = false → ∃ t q, u.strand? c.id c.sid = some t ∧ t.path? c.grant.path = some q
              ∧ q.wait = if crewWide then .cbar n.toNat (barPhase old) else .bar n.toNat (barPhase old))
          ∧ (full = true → (u.l1 = if crewWide = true ∧ c.core.core < 4 then assocSet s.l1 c.core [] else s.l1)
            ∧ if c.isLast then ∀ l, c.path.lanes.getLsbD l = true → StandsAt u c l c.fall
              else ∃ t q, u.strand? c.id c.sid = some t ∧ t.path? c.grant.path = some q ∧ q.wait = .none ∧ q.lanes = c.path.lanes
                ∧ q.clause = some { c.cl with pos := c.cl.pos + 1 })))
    go false ∧ go true

/-- R306, R307, R257: the words of transaction barriers, in guarded lanes that name one barrier, with its bytes and the counter free, and readable where
the word reads it. `TBINIT` makes it with phase 0; `TBEXPECT` adds to SEC; `TBARRIVE.path` takes one from ARR and `.lane` one for each guarded lane; each
settles, so that with ARR and SEC both 0 the phase rises and ARR takes RELOAD. `TBWAIT` completes when the phase is not the one that B names, and otherwise
waits. -/
def Obligations.TransactionBarriers : Prop :=
  ∀ (s : State) (c : Ctx) (tm : Team) (p : Pre) (sc : Scope) (a b : Opd) (r o : Nat), c.act ≠ 0 → c.disagree [a, b] = [] → c.disagree [a] = [] →
    c.tbTarget a (lowLane c.act) = (some (r, o), none) → s.team? c.id r = some tm → Memory.wf tm.scratch →
    let x := s.tbGet c.id r o
    let n := c.rd .n32 b (lowLane c.act)
    let becomes (i : Instr) (y : Tb) : Prop := ∃ u, exec i s = .next u ∧ u.mem = s.mem ∧ u.regs = s.regs ∧ u.tbGet c.id r o = y
    let readable : Prop := s.padLost c.id r o 16 = false
    let settled (y : Tb) : Tb := if y.arr = 0 ∧ y.sec = 0 then { y with phase := (y.phase + 1) % 16, arr := y.reload, sec := 0 } else y
    let arrive (y : Tb) : Tb := settled { y with arr := y.arr - 1 }
    (Issues s (.tbinit p a b) c → c.tbReady [(r, o)] = true → 1 ≤ n → n ≤ 65535 →
      becomes (.tbinit p a b) { phase := 0, arr := n, sec := 0, reload := n, clean := true })
    ∧ (Issues s (.tbexpect p a b) c → readable → c.tbReady [(r, o)] = true → x.clean = true → -(2 ^ 31 : Nat) ≤ x.sec + sext 32 n → x.sec + sext 32 n < (2 ^ 31 : Nat) →
        becomes (.tbexpect p a b) (settled { x with sec := x.sec + sext 32 n }))
    ∧ (Issues s (.tbarrivePath p sc a) c → readable → c.tbReady [(r, o)] = true → x.clean = true → x.arr ≠ 0 → s.released c.crew c.t false c.act none sc = true →
        becomes (.tbarrivePath p sc a) (arrive x))
    ∧ (Issues s (.tbarriveLane p sc a) c → readable → c.tbReady (c.ls.map fun _ => (r, o)) = true → x.clean = true →
        (∀ k, k < c.ls.length → (arrive^[k] x).arr ≠ 0) → s.released c.crew c.t false c.act none sc = true →
        becomes (.tbarriveLane p sc a) (arrive^[c.ls.length] x))
    ∧ (Issues s (.tbwait p sc a b) c → readable → c.path.wait = .none → c.acquirePending = false → x.clean = true → c.padPending r o 16 = false →
        (x.phase ≠ n % 16 → Leaves (exec (.tbwait p sc a b) s) (c.acquire sc s))
        ∧ (x.phase = n % 16 → c.Waits (exec (.tbwait p sc a b) s) (.tbar r o x.phase sc)))

/-! ### Queue words and the producer (R329 to R335, R357 to R364) -/

/-- R332, R335: `QRES` and `SPAWN` complete. With no guarded lane `SPAWN` does nothing. In one guarded lane, at a graph queue that is open to its crew:
with room, `QRES` gives the slot at TAIL and moves TAIL past the n records, and `SPAWN`, its release made, puts the record that it has read into the slot
at TAIL, moves TAIL by one and gives 1; without room, D is 0, EXH is set and TAIL stays. In several lanes, none of whose turns raises, they complete as
those turns in ascending order leave the state. R334, R335: `QCOMMIT` and `JOIN` complete, their release made; with no guarded lane they do nothing. In one
guarded lane of `QCOMMIT`, n records that all stand reserved get CMT. In one of `JOIN`, at a join block that can be read and written: COUNT 0 changes no
memory of the block and posts an event; a COUNT above 1 falls by one; COUNT 1 pushes the block's record into its queue and falls to 0, where that queue is
open to the crew and has room. Where it has none the join is refused: EXH is set, the path stays at its word, and the join waits its first back-off in its
port's window (R341, R342). In several lanes, none of whose turns raises, `QCOMMIT` completes as those turns leave the state. -/
def Obligations.QueueWords : Prop :=
  ((∀ (s : State) (c : Ctx) (p : Pre) (d a b : Opd) (l : Nat), c.ls = [l] →
     let va := c.rd .n64 a l
     let n := c.rd .n32 b l
     let full (q : Nat) : State := s.queueFail q c.die (c.crew.who c.sid l)
     let q := c.rd .n32 a l
     (Issues s (.qres p d a b) c → q < 4096 → (s.queue q).open_ c.crew.asid c.crew.secure = true → 1 ≤ n → n ≤ 256 →
       let x := s.queue q
       (n ≤ x.free → Leaves (exec (.qres p d a b) s) (c.write .n64 d l (BitVec.ofNat 64 (x.base.toNat + 32 * (x.tail.toNat % x.size)))
         { s with queues := assocSet s.queues q { x with tail := x.tail + BitVec.ofNat 32 n } }))
       ∧ (x.free < n → Leaves (exec (.qres p d a b) s) (c.write .n64 d l 0 (full q)) ∧ ((full q).queue q).exh = true ∧ ((full q).queue q).tail = x.tail))
     ∧ (Issues s (.spawn p d a b) c → n < 4096 → (s.queue n).open_ c.crew.asid c.crew.secure = true → va % 32 = 0 →
       s.released c.crew c.t false c.act none .dev = true →
       let s1 := (s.loadVa (c.byLane l) va 32).2
       (∀ r, (s.queue n).free ≠ 0 → (s.loadVa (c.byLane l) va 32).1 = .ok r → (s1.pushRecord (c.byLane l) n r).1 = .ok [] →
         let s2 := (s1.pushRecord (c.byLane l) n r).2
         Leaves (exec (.spawn p d a b) s) (c.write .n32 d l 1 s2) ∧ (s2.queue n).tail = (s1.queue n).tail + 1)
       ∧ ((s.queue n).free = 0 → Leaves (exec (.spawn p d a b) s) (c.write .n32 d l 0 (full n)) ∧ ((full n).queue n).exh = true
           ∧ ((full n).queue n).tail = (s.queue n).tail)))
   ∧ ∀ (s e : State) (c : Ctx) (p : Pre) (d a b : Opd),
     (Issues s (.qres p d a b) c → c.turns (c.qresLane d a b) = .done e → Leaves (exec (.qres p d a b) s) e)
     ∧ (Issues s (.spawn p d a b) c → c.act = 0 → Leaves (exec (.spawn p d a b) s) s)
     ∧ (Issues s (.spawn p d a b) c → s.released c.crew c.t false c.act none .dev = true → c.turns (c.spawnLane d a b) = .done e →
         Leaves (exec (.spawn p d a b) s) e))
  ∧ ((∀ (s : State) (c : Ctx) (p : Pre) (a b n : Opd) (l : Nat), c.ls = [l] → s.released c.crew c.t false c.act none .dev = true →
     let by_ := c.byLane l
     let q := c.rd .n32 b l
     let va := c.rd .n64 a l
     (∀ vas, Issues s (.qcommit p a b n) c → q < 4096 → (s.queue q).open_ c.crew.asid c.crew.secure = true → 1 ≤ c.rd .n32 n l → c.rd .n32 n l ≤ 256 →
       Ctx.commitVas (s.queue q) va (c.rd .n32 n l) = some vas → (Ctx.commitAll by_ vas s).1 = .ok [] →
       Leaves (exec (.qcommit p a b n) s) (Ctx.commitAll by_ vas s).2)
     ∧ ∀ fs blk, Issues s (.join p a) c → va % 64 = 0 → s.replay? c.id (some c.sid) l = none → s.inWindow (corePort c.core) < 8 →
       let s1 := (s.leavesFor by_ .store (spans va 64)).2
       let s2 := (s1.loadVa by_ va 64).2
       (s.leavesFor by_ .store (spans va 64)).1 = .inl fs → (s1.loadVa by_ va 64).1 = .ok blk →
       let count := leNat (blk.take 4)
       let to_ := fld (leNat ((blk.drop 8).take 8)) 0 12
       let pushed := s2.pushRecord by_ to_ ((blk.drop 32).take 32)
       let lowered (u : State) : State := (u.storeVa by_ va (leBytes 4 (count - 1))).2
       let passed (u : State) : Prop := Leaves (exec (.join p a) s) (u.served c.id (some c.sid) l)
       (count = 0 → passed (s2.event 7 c.die by_.who { addr := BitVec.ofNat 64 va, pc := by_.who.pc }))
       ∧ (2 ≤ count → passed (lowered s2))
       ∧ (count = 1 → (s2.queue to_).open_ c.crew.asid c.crew.secure = true → (s2.queue to_).free ≠ 0 → pushed.1 = .ok [] → passed (lowered pushed.2))
       ∧ (count = 1 → (s2.queue to_).open_ c.crew.asid c.crew.secure = true → (s2.queue to_).free = 0 →
           ∃ u t q, exec (.join p a) s = .next u ∧ u.slot = none ∧ u.regs = s.regs ∧ (u.queue to_).exh = true
             ∧ u.strand? c.id c.sid = some t ∧ t.path? c.grant.path = some q ∧ q.clause = some c.cl ∧ q.pc = c.path.pc ∧ q.lanes = c.path.lanes
             ∧ ∃ r ∈ u.replays, r.isFor c.id (some c.sid) l = true ∧ r.port = corePort c.core ∧ r.tries = 1
               ∧ r.due = u.clk c.die + backoffClocks (u.die c.die).backoff 1))
   ∧ ∀ (s e : State) (c : Ctx) (p : Pre) (a b n : Opd),
     (c.act = 0 → (Issues s (.qcommit p a b n) c → Leaves (exec (.qcommit p a b n) s) s) ∧ (Issues s (.join p a) c → Leaves (exec (.join p a) s) s))
     ∧ (Issues s (.qcommit p a b n) c → s.released c.crew c.t false c.act none .dev = true → c.turns (c.qcommitLane a b n) = .done e →
         Leaves (exec (.qcommit p a b n) s) e))

/-- R357, R360, R363, R364: in a team that owns a producer, `QPOP` gives its k guarded lanes the k oldest entries in order and moves the head past them,
and `QPEEK` gives the count and takes nothing. R360, R361: `QPUSH` into a queue with room, with no older push waiting, puts A behind the newest entry; that
it does so at once is the model's choice (log 62). `SLOOP` counts its loop down and goes back while a pass remains; at the end it forgets the count and
goes on. -/
def Obligations.ProducerQueues : Prop :=
  (∀ (s : State) (c : Ctx) (tm : Team) (p : Pre) (t : Ty) (d : Opd) (n : BitVec 2), c.team = some tm → tm.producer.isSome = true → c.act ≠ 0 →
     let q := tm.queues.getD n.toNat 0
     let k := c.ls.length
     (Issues s (.qpop p t d n) c → k ≤ pqCount q → Leaves (exec (.qpop p t d n) s)
       ((((List.range k).zip c.ls).foldl (fun s x => c.write t d x.2 (tm.padWord (c.crew.padS - 1280 + 256 * n.toNat + 8 * ((pqHead q + x.1) % 32))) s) s).modTeam
         c.id c.rank fun tm => { tm with queues := listSet tm.queues n.toNat (pqWord (pqCount q - k) (pqHead q + k)) }))
     ∧ (Issues s (.qpop p t d n) c → pqCount q < k → c.Waits (exec (.qpop p t d n) s) .qpop)
     ∧ (Issues s (.qpeek p d n) c → Leaves (exec (.qpeek p d n) s) (c.forLanes (fun l s => c.write .n32 d l (BitVec.ofNat 64 (pqCount q)) s) s)))
  ∧ (∀ (s : State) (c : Ctx) (tm : Team) (p : Pre) (a : Opd) (n : BitVec 2) (off : BitVec 30), c.team = some tm → c.sid = .producer c.rank → c.act = 1 →
     (let q := tm.queues.getD n.toNat 0
      Issues s (.qpush p a n) c → decode c.word = some (.qpush p a n) → s.samples = [] → c.t.pushes = 0 → c.t.canRaise ⟨0, 1, 0, 0⟩ = true → pqCount q < 32 →
       n.toNat < tm.queues.length → ∃ u tm', exec (.qpush p a n) s = .next u ∧ u.mem = s.mem ∧ u.regs = s.regs ∧ u.team? c.id c.rank = some tm'
         ∧ tm'.queues = listSet tm.queues n.toNat (pqWord (pqCount q + 1) (pqHead q))
         ∧ tm'.scratch = memPut tm.scratch (c.crew.padS - 1280 + 256 * n.toNat + 8 * ((pqHead q + pqCount q) % 32)) (leBytes 8 (c.rd .n64 a 0)))
     ∧ (Issues s (.sloop p a off) c → s.tracedStream c.crew c.sid = false →
       let left := if c.t.ploop.getLsbD 63 then c.t.ploop.toNat % 2 ^ 32 else max 1 (c.rd .n32 a 0)
       ∃ u, exec (.sloop p a off) s = .next u
         ∧ (1 < left → StandsAt u c 0 (c.addr + (off.signExtend 64 <<< 3))
             ∧ u.still = (s.modStrand c.id c.sid fun t => { t with ploop := BitVec.ofNat 64 (2 ^ 63 + (left - 1)) }).still)
         ∧ (left ≤ 1 → StandsAt u c 0 c.fall ∧ u.still = (s.modStrand c.id c.sid fun t => { t with ploop := 0 }).still)))

/-! ### The tape (R370 to R381) -/

/-- R371 to R377: the tape words of one guarded lane where its share has the room they need and meets no error (R257). `TREC` appends its words to the
buffer, `TSPAN` and `TSPAN.rc` store a span header and open it, `TSPAN.area` sets the Cullet, and `TPOP` takes the newest words from the buffer. Nothing
else changes. -/
def Obligations.TapeWords : Prop :=
  ∀ (s : State) (c : Ctx) (p : Pre) (t : Ty) (d a b : Opd) (l : Nat), c.ls = [l] → 128 ≤ c.crew.desc.tape → c.t.refilling &&& c.act = 0 →
    s.shareLost c.crew c.sid l = false →
    let x := Tape.ofBytes (s.shareBytes c.crew c.sid l)
    let sets (i : Instr) (y : Tape) : Prop := Issues s i c → Leaves (exec i s) (s.setShare c.crew c.sid l y.bytes)
    let v := c.rd t a l
    let opened (rc : Bool) (entry key : Nat) : Tape :=
      let y := x.store (leBytes 16 (Tape.header 0 0 rc false key entry))
      { y with hdr := y.top, nres := x.nres + 1 }
    (x.nres ≠ 0 → x.nbuf < 7 → t.is64 = false → sets (.trec p t a) { x with buf := listSet x.buf x.nbuf v, nbuf := x.nbuf + 1 })
    ∧ (x.nres ≠ 0 → x.nbuf < 6 → t.is64 = true →
        sets (.trec p t a) { x with buf := listSet (listSet x.buf x.nbuf (v % 2 ^ 32)) (x.nbuf + 1) (v / 2 ^ 32), nbuf := x.nbuf + 2 })
    ∧ (x.recd = false → x.nbuf = 0 → 16 ≤ x.size - x.used → sets (.tspan p) (opened false 0 0))
    ∧ (x.recd = false → x.nbuf = 0 → 16 ≤ x.size - x.used → c.rd .n64 a l % 8 = 0 → c.rd .n64 a l < 2 ^ 57 →
        sets (.tspanRc p a b) (opened true (c.rd .n64 a l) (c.rd .n32 b l)))
    ∧ (x.recd = false → x.cused = 0 → c.rd .n64 a l % 32 = 0 → c.rd .n32 b l % 32 = 0 → sets (.tspanArea p a b) { x with cbase := c.rd .n64 a l, csize := c.rd .n32 b l })
    ∧ (x.recd = false → 0 < x.nbuf → t.is64 = false → Issues s (.tpop p t d) c → Leaves (exec (.tpop p t d) s)
        (c.write t d l (BitVec.ofNat 64 (x.buf.getD (x.nbuf - 1) 0)) (s.setShare c.crew c.sid l { x with nbuf := x.nbuf - 1 }.bytes)))
    ∧ (x.recd = false → 1 < x.nbuf → t.is64 = true → Issues s (.tpop p t d) c → Leaves (exec (.tpop p t d) s)
        (c.write t d l (BitVec.ofNat 64 (x.buf.getD (x.nbuf - 2) 0 + x.buf.getD (x.nbuf - 1) 0 * 2 ^ 32))
          (s.setShare c.crew c.sid l { x with nbuf := x.nbuf - 2 }.bytes)))

/-- R378, R292: the refill of a lane whose pop waits for it, with no spill of the lane still to be applied, no tile that holds it back and no error in its
share. A turn makes one of the reads that it lacks, which its entry keeps; once every one is made, the span goes back into the share, the pop goes on as in
R377, D is written, and the refill is over. That reads are turns of their own, and that a Cullet that cannot be read any more at one of them ends the
refill in a cause that names the lane and waits for a boundary as a load's does, is the model's choice (log 36). -/
def Obligations.TapeRefill : Prop :=
  ∀ (s : State) (crew : Nat) (sid : Sid) (lane : Nat) (c : Crew) (t : Strand) (e : Entry) (pre : Pre) (ty : Ty) (d : Opd) (x : Tape),
    s.crew? crew = some c → s.strand? crew sid = some t →
    (t.log.find? fun e => e.undone.getLsbD lane && !e.faultLanes.getLsbD lane && (match wordOf e.word with | .tpop .. => true | _ => false)) = some e →
    wordOf e.word = .tpop pre ty d → t.refills = [] → s.shareLost c sid lane = false → s.spilling crew sid lane = [] → s.lateHeld c t e = false →
    (Tape.ofBytes (s.shareBytes c sid lane)).pop (if ty.is64 then 2 else 1) = .refill x →
    let sp := x.refillSpan
    let move := exec (.tapeRefillDone crew sid lane) s
    let ends (v : State) (k : Nat) (va : Nat) (ab : Bool) : Prop :=
      ∃ u t' e', move = .next u ∧ u.mem = v.mem ∧ u.regs = v.regs ∧ u.strand? crew sid = some t' ∧ e' ∈ t'.log ∧ e'.id = e.id ∧ e'.logged = true
        ∧ laneFault lane k va 1 ab ∈ e'.faults
    (∀ s1 k va ab, s.cullet c sid lane sp = (some (k, va, ab), s1) → ends s1 k va ab)
    ∧ ∀ s1, s.cullet c sid lane sp = (none, s1) →
      (∀ l out y, haveVa (e.got lane) sp.1 sp.2 = .ok l → (x.refill l).pop (if ty.is64 then 2 else 1) = .val out y →
        let s2 := s1.modEntry c.id sid e.id fun e => { e with reads := e.reads.filter fun r => r.lane != lane }
        move = .next (((entryCtx s2 c t e).write ty d lane (popVal out) (s2.setShare c sid lane y.bytes)).refillEnd c sid e lane))
      ∧ ∀ ps p, haveVa (e.got lane) sp.1 sp.2 = .error ps → ps[(s1.drawIndex ps.length).1]? = some p →
        let s2 := (s1.drawIndex ps.length).2
        (∀ b s3, s2.loadVa (s2.byTape c sid lane) p.1 p.2 = (.ok b, s3) →
          move = .next (s3.modEntry c.id sid e.id fun e => { e with reads := e.reads ++ [⟨lane, p.1, b⟩] }))
        ∧ ∀ k va ab s3, s2.loadVa (s2.byTape c sid lane) p.1 p.2 = (.fail k va ab, s3) → ends s3 k va ab

/-- R380: `TRET` in lanes that are recording, whose shares meet no error, with RLINK naming aligned headers, clears REC in each share and sends each
guarded lane to the word at the position that RLINK holds; the other lanes go to the fall-through. -/
def Obligations.TapeReturn : Prop :=
  ∀ (s : State) (c : Ctx) (p : Pre), Issues s (.tret p) c → c.lanes ≠ 0 → 128 ≤ c.crew.desc.tape → c.t.refilling &&& c.act = 0 →
    s.tracedStream c.crew c.sid = false →
    let link (l : Nat) : Word := (c.t.thread l).rlink
    let to_ (l : Nat) : Word := BitVec.ofNat 64 ((link l).toNat % 2 ^ 57)
    (∀ l, c.act.getLsbD l = true → (Tape.ofBytes (s.shareBytes c.crew c.sid l)).recd = true ∧ (to_ l).toNat % 8 = 0
      ∧ s.shareLost c.crew c.sid l = false) →
    ∃ u, exec (.tret p) s = .next u
      ∧ u.still = (c.forLanes (fun l s => s.setShare c.crew c.sid l { Tape.ofBytes (s.shareBytes c.crew c.sid l) with recd := false }.bytes) s).still
      ∧ ∀ l, c.lanes.getLsbD l = true → if c.act.getLsbD l then
          ∃ t q, u.strand? c.id c.sid = some t ∧ q ∈ t.paths ∧ q.lanes.getLsbD l = true ∧ q.pc = to_ l ∧ q.clause = none ∧ q.at_ = some ((link l).toNat / 2 ^ 59)
        else StandsAt u c l c.fall

/-! ### Rendering (R382 to R390) -/

/-- R382, R298: a rendering word whose guarded lanes name aligned blocks enters the log with its sources and its counter raised; `ESAMP` is not logged and
stands only in its counter. R382, R206, R298: the one lane of a rendering word that still waits, and that no tile and no older access holds back, gets its
results whole, in the registers of D, once it has made the reads that they need; a group of D whose size only the results give, and that does not fit, is
cause 3 or 4 then (log 33). Until then a turn makes one read that it lacks, which its entry keeps or whose cause its entry records, and no register is
written. One plain load for each turn, and the results in a turn after the last, are the model's choice (log 11); that a block which `TRACE.ADJ` names must
be aligned is log 31. -/
def Obligations.RenderingWords : Prop :=
  (∀ (s : State) (c : Ctx) (p : Pre) (d a b e : Opd), c.act ≠ 0 → c.t.logn + entryRecords c.word ≤ 8 →
     let go (i : Instr) (k : Counts) (at_ : Nat → Word) (n : Nat) (src : Nat → List Nat) : Prop :=
       Issues s i c → c.t.canRaise k = true → (∀ l, c.act.getLsbD l = true → (at_ l).toNat % n = 0) →
       c.lineTaken (fun l => packWords (src l)) c.ls = false → c.Enters (exec i s) true k fun l => packWords (src l)
     let root (l : Nat) : Word := let g := c.groupWords b 4 l; BitVec.ofNat 64 (g.getD 2 0 + g.getD 3 0 * 2 ^ 32)
     let tri (l : Nat) : List Nat := c.groupWords a 6 l ++ c.groupWords b 4 l ++ c.groupWords e 4 l
     let tex (l : Nat) : List Nat := c.pairWords a l ++ c.groupWords b 2 l ++ [c.rd .n32 e l]
     go (.raygen p d a b e) ⟨0, 0, 0, 1⟩ (c.read .n64 a) 64 (fun l => c.pairWords a l ++ [c.rd .n32 b l, c.rd .n32 e l])
     ∧ go (.trace p d a b) ⟨0, 0, 0, 1⟩ root 64 (fun l => c.groupWords a 6 l ++ c.groupWords b 4 l)
     ∧ go (.traceAdjTri p a b e) ⟨0, 1, 0, 0⟩ root 4 tri ∧ go (.traceAdjPatch p a b e) ⟨0, 1, 0, 0⟩ root 4 tri
     ∧ go (.tsamp p d a b e) ⟨0, 0, 0, 1⟩ (c.read .n64 a) 32 tex
     ∧ go (.tsampAdj p d a b e) ⟨0, 1, 0, 0⟩ (c.read .n64 a) 32 (fun l => tex l ++ c.groupWords d 4 l)
     ∧ (Issues s (.esamp p d a b e) c → c.t.canRaise ⟨0, 0, 0, 1⟩ = true →
         c.Enters (exec (.esamp p d a b e) s) false ⟨0, 0, 0, 1⟩ fun l => packWords (c.groupWords a 4 l ++ [c.rd .n32 b l, c.rd .n32 e l])))
  ∧ (∀ (s : State) (crew : Nat) (sid : Sid) (c : Crew) (t : Strand) (e : Entry) (l n : Nat) (d : Opd),
     s.crew? crew = some c → s.strand? crew sid = some t → t.sid = sid → s.entry? crew sid e.id = some e → isDrawing (wordOf e.word) = true →
     renderDest (wordOf e.word) = some d → lanesOf e.undone = [l] → e.sent = 0 → e.faults = [] → t.log = [e] → (t.thread l).exited = false →
     s.samples = [] → s.lateHeld c t e = false → sid = .wave n 0 →
     let b : By := { asid := c.asid, secure := c.secure, team := some (crew, n), who := c.who sid l, src := { src := 0, chan := 0, tmpl := 0, retired := false },
                     lane := some (crew, sid, e.inH, l) }
     let sees := drawLane (e.got l) (wordOf e.word) l (unpackWords (e.srcOf l))
     let found (u : State) (P : Entry → Prop) : Prop := u.regs = s.regs ∧ ∃ t' e', u.strand? crew sid = some t'
       ∧ t'.log.find? (fun x => x.id == e.id) = some e' ∧ P e'
     (∀ ps p, sees = .error ps → ps[(s.drawIndex ps.length).1]? = some p →
       let at_ := (s.drawIndex ps.length).2.leafFor b .load p.1
       (∀ f, at_.1 = .ok f → at_.2.lineInFlight c t f [l] = false) →
       ∃ u, exec (.renderResult crew sid e.id) s = .next u ∧ found u fun e' => match at_.1 with
         | .fail k ab => laneFault l k p.1 1 ab ∈ e'.faults
         | .ok f => if (at_.2.answered f).1 = false then laneFault l 6 p.1 1 false ∈ e'.faults
           else match ((at_.2.answered f).2.readPlain b e.id (c.coreOf sid) f p.2).1 with
           | none => laneFault l 9 p.1 1 false ∈ e'.faults
           | some v => { lane := l, va := p.1, data := v } ∈ e'.reads)
     ∧ (∀ r, sees = .ok (.regs r) → ∃ u, exec (.renderResult crew sid e.id) s = .next u ∧ u.mem = s.mem
       ∧ match groupFault d r.length (if e.inH then 8 else c.desc.w0lim) with
         | some k => found u fun e' => laneFault l k (e.ea l).toNat 1 false ∈ e'.faults
         | none => u.regs = ((entryCtx s c t e).writeGroup d l (r.map (BitVec.ofNat 32)) s).regs))

/-! ### Tiles (R169 to R193) and ring rotation (R269, R270) -/

/-- R175, R183 to R191: the words that act on one tile and are accepted without a check of what memory holds, where nothing still waits to apply to a
Suspended tile at once. On a tile that is not Suspended each joins the order of its core's unit with the Gaffer register that it names, and raises the tile
counter; `TSTB` raises the store counter too and `TLDB` the load counter. On a Suspended tile each applies at once, ahead of what is queued, once nothing
holds the access that it makes back: `TBSET` sets the threshold, with `.all` the bound too; `TSTB` sends its entry or its full state to memory, and sets
MAXMAG; `TLDB` takes the bound that it reads; `TSAVE` writes the sequencer record of the Suspended operation, which leaves the tile with its steps. -/
def Obligations.TileWords : Prop :=
  ∀ (s : State) (c : Ctx) (t : Team) (p : Pre) (a64 : Bool) (rm : Rm) (core : BitVec 2) (tile : BitVec 4) (x : BitVec 6) (tgt : BitVec 5) (pol : BitVec 8),
    c.act ≠ 0 → c.teamOf core = some t → t.nowOn tile.toNat = false →
    let g := c.gReg x.toNat
    let go (i : Instr) (ga : Word) (k : Counts) (h : Prop) : Prop :=
      Issues s i c → (t.tile tile.toNat).susp = none → c.t.canRaise { k with tl := 1 } = true → h → c.Accepts (exec i s) core tile ga k
    let at_ := t.tile tile.toNat
    -- the state as the word is accepted
    let took (k : Counts) : State := c.addOp core tile g true s.ids (c.modT { s with ids := s.ids + 1 } fun q => q.raise { k with tl := 1 })
    let now (i : Instr) (k : Counts) (h : Prop) (P : State → Strand → Team → Prop) : Prop := Issues s i c → wordOf c.word = i → c.sid = .gaffer →
      t.rank = core.toNat → at_.susp.isSome = true → c.t.canRaise { k with tl := 1 } = true → (∀ o ∈ t.ops, o.id < s.ids) → tile.toNat < t.tiles.length →
      s.unitHeld c.crew t { id := s.ids, word := c.word, tile := tile.toNat, ga := g, mma := none, inH := c.inH } = false → h →
      ∃ u q y, exec i s = .next u ∧ u.regs = s.regs ∧ u.strand? c.id c.sid = some q ∧ u.team? c.id core.toNat = some y ∧ P u q y
    let sets (i : Instr) (h : Prop) (f : Word → Word) : Prop := now i .none h fun u q y => u.mem = s.mem ∧ q.tl = c.t.tl
        ∧ y.ops = t.ops ∧ (y.tile tile.toNat).bound = f at_.bound ∧ (y.tile tile.toNat).status = at_.status ∧ (y.tile tile.toNat).susp = at_.susp
    let stores (i : Instr) (full : Bool) : Prop :=
      let k : Counts := ⟨0, 1, 0, 0⟩
      let mm := s.maxMag (c.crew.teamCore core.toNat) t tile.toNat
      let status := wput at_.status 32 32 mm
      ∀ f s1, (took k).translate c.crew.asid c.crew.secure .store g = (.ok f, s1) → engineOk f = true → inBlockAperture g = false → g.toNat % (if full then 16 else 8) = 0 →
      now i k (c.crew.gaffer.isSome = true) fun u q y => u.mem = s1.mem ∧ q.tl = c.t.tl ∧ q.st = c.t.st + 1 ∧ y.ops = t.ops
        ∧ (y.tile tile.toNat).status = status ∧ (y.tile tile.toNat).bound = at_.bound ∧ (y.tile tile.toNat).susp = at_.susp
        ∧ ∃ m ∈ u.msgs, m.kind = .store ∧ m.point = homeOf f.cp f.at_ ∧ m.acts = [if full then ⟨0, f.at_, 16, at_.bound &&& 0x1FFFFFFFFFF, status⟩
            else ⟨0, f.at_, 8, BitVec.ofNat 64 (wfld at_.bound 0 32 + mm * 2 ^ 32), 0⟩]
    let loads (i : Instr) (k : Counts) (off n m : Nat) (bound : List Byte → Word) (status : List Byte → Word) : Prop :=
      ∀ d l s1, (took k).crew? c.id = some d → (took k).loadVa (d.byTile core.toNat 0) (g.toNat + off) n = (.ok l, s1) → inBlockAperture g = false →
      g.toNat % m = 0 → now i k True fun u q y => u.mem = s1.mem ∧ q.tl = c.t.tl ∧ q.ld = c.t.ld ∧ y.ops = t.ops
        ∧ (y.tile tile.toNat).bound = bound l ∧ (y.tile tile.toNat).status = status l ∧ (y.tile tile.toNat).susp = at_.susp
    let low (l : List Byte) (n : Nat) : Word := BitVec.ofNat 64 (leNat (l.take n))
    let taken (b : Word) : Nat := loadedBound (wfld b 0 32)
    let bound : Prop := wbit g 31 = false ∧ wfld g 0 31 ≤ 0x7F800000
    go (.tzero p a64 core tile) 0 .none True
    ∧ go (.tcvt p rm core tile tgt pol) 0 .none (t.fmtAt tile.toNat ≠ 2)
    ∧ go (.tstbEnt p core tile x) g ⟨0, 1, 0, 0⟩ (g.toNat % 8 = 0)
    ∧ go (.tstbFull p core tile x) g ⟨0, 1, 0, 0⟩ (g.toNat % 16 = 0)
    ∧ go (.tldbEnt p core tile x) g ⟨1, 0, 0, 0⟩ (g.toNat % 8 = 0)
    ∧ go (.tldbFull p core tile x) g ⟨1, 0, 0, 0⟩ (g.toNat % 16 = 0)
    ∧ go (.tbsetThr p core tile x) g .none True
    ∧ go (.tbsetHdr p core tile x) g .none (g.toNat % 128 = 0)
    ∧ go (.tbsetAll p core tile x) g .none bound
    ∧ go (.tsave p core tile x) g .none (g.toNat % 128 = 0)
    ∧ sets (.tbsetThr p core tile x) True (fun b => wput b 32 9 (wfld g 32 9))
    ∧ sets (.tbsetAll p core tile x) bound (fun _ => g &&& 0x1FFFFFFFFFF)
    ∧ stores (.tstbEnt p core tile x) false ∧ stores (.tstbFull p core tile x) true
    ∧ loads (.tldbEnt p core tile x) ⟨1, 0, 0, 0⟩ 0 8 8 (fun l => wput at_.bound 0 32 (taken (low l 8))) (fun _ => at_.status)
    ∧ loads (.tldbFull p core tile x) ⟨1, 0, 0, 0⟩ 0 16 16 (fun l => wput (low l 8 &&& 0x1FFFFFFFFFF) 0 32 (taken (low l 8)))
        (fun l => wput at_.status 0 6 (leNat ((l.drop 8).take 8)))
    ∧ loads (.tbsetHdr p core tile x) .none 8 8 128 (fun l => wput at_.bound 32 9 (wfld (BitVec.ofNat 64 (leNat l)) 32 9)) (fun _ => at_.status)
    ∧ ∀ o m d t1 s1, at_.susp = some o → o.mma = some m → m.started = true → (took .none).crew? c.id = some d → (took .none).team? c.id core.toNat = some t1 →
        let rec_ := seqRecord (t1.c0Held tile.toNat o.id) o m (t1.claimed o).1 (t1.claimed o).2
        (∃ l, (took .none).storeVa (d.byTile core.toNat 0) g.toNat rec_ = (.ok l, s1)) →
        now (.tsave p core tile x) .none (g.toNat % 128 = 0) fun u q y => u.mem = s1.mem ∧ q.tl = c.t.tl - 1 ∧ y.ops = t.ops.filter (fun z => z.id != o.id)
          ∧ (y.tile tile.toNat).bound = at_.bound ∧ (y.tile tile.toNat).susp = none ∧ ∀ z ∈ y.steps, z.op ≠ some o.id

/-- R172, R178 to R182: a `TRES` whose guarded lanes give one valid record sets it and drops the record's unclaimed steps. An accepted `TFETCH` or `TLDS`
appends its n steps to the record's queue, in order; an accepted `TMMA` takes the first n steps of the queues of both records. -/
def Obligations.TileStaging : Prop :=
  ∀ (s : State) (c : Ctx) (t : Team) (p : Pre) (sc : Scope) (core : BitVec 2) (grp tile : BitVec 4) (r ra rb : BitVec 5) (nf : BitVec 8) (a b : Opd)
    (lehr zi bnd w64 : Bool), c.act ≠ 0 →
    let n := if nf = 0 then 256 else nf.toNat
    let tiles := tileCount t.slots
    let mine (u : State) (x : Team) : Prop := u.mem = s.mem ∧ u.regs = s.regs ∧ u.team? c.id core.toNat = some x
    let one : Prop := c.t.canRaise ⟨0, 0, 0, 1⟩ = true
    (Issues s (.tres p r a b) c → c.team = some t → (∀ x ∈ t.tiles, x.susp = none) →
      ∀ w : BitVec 128, (∀ l, c.act.getLsbD l = true → w = c.read .n64 b l ++ c.read .n64 a l) → recValid tiles w = true →
      ∃ u x, exec (.tres p r a b) s = .next u ∧ u.mem = s.mem ∧ u.regs = s.regs ∧ u.team? c.id c.rank = some x ∧ x.recs = listSet t.recs r.toNat w
        ∧ x.queue r.toNat = [] ∧ x.tiles = t.tiles)
    ∧ (c.teamOf core = some t → one →
      let w (i : Nat) : Word := c.gReg (4 * grp.toNat + i)
      let g : List Word := [w 0, w 1, w 2, w 3]
      let rec_ := t.recs.getD r.toNat 0
      let k := recK rec_ / 32
      let lines := wordLines rec_ g (List.range n)
      recValid tiles rec_ = true → (t.queue r.toNat).length + n ≤ 256 → s.released c.crew c.t false c.act none sc = true →
      (w 0).toNat % 128 = 0 → wfld (w 1) 0 32 % 128 = 0 → wfld (w 1) 32 32 % 128 = 0 →
      (recBlk rec_ = true → (w 2).toNat % k = 0 ∧ wfld (w 3) 0 32 % k = 0 ∧ wfld (w 3) 32 32 % k = 0) →
      let stages (tlds : Bool) (i : Instr) : Prop := Issues s i c → (∀ x ∈ t.queue r.toNat, x.tlds = tlds) → ∃ u x q id id0, exec i s = .next u ∧ mine u x
        ∧ u.strand? c.id c.sid = some q ∧ q.tl = c.t.tl + 1
        ∧ x.steps = t.steps ++ Ctx.newSteps rec_ r.toNat tlds g id id0 n 0 none ∧ u.fetches = s.fetches ++ [⟨id, c.id, core.toNat, r.toNat, c.inH, true⟩]
      ((∀ v ∈ lines, inBlockAperture (BitVec.ofNat 64 (v * 128)) = false) → t.quotaU + t.quotaH + lines.length ≤ t.quota →
        stages false (.tfetch p sc core grp r nf))
      ∧ ((∀ j < n, ∀ y ∈ stepSpans rec_ g j, y.1 + y.2 ≤ c.crew.padS) → stages true (.tlds p sc core grp r nf)))
    ∧ (Issues s (.tmma p core tile ra rb nf lehr zi bnd w64) c → c.teamOf core = some t → t.nowOn tile.toNat = false → one → ra ≠ rb →
      let xa := t.recs.getD ra.toNat 0
      let xb := t.recs.getD rb.toNat 0
      recValid tiles xa = true → recValid tiles xb = true → recsPair xa xb = true → recSeed xa = recSeed xb →
      n ≤ (t.queue ra.toNat).length → n ≤ (t.queue rb.toNat).length → (t.tile tile.toNat).susp = none → (t.fmtAt tile.toNat = 2 → zi = true) →
      ∃ u x q o, exec (.tmma p core tile ra rb nf lehr zi bnd w64) s = .next u ∧ mine u x ∧ u.strand? c.id c.sid = some q ∧ q.tl = c.t.tl + 1
        ∧ x.ops = t.ops ++ [o] ∧ o.word = c.word ∧ o.tile = tile.toNat ∧ x.queue ra.toNat = (t.queue ra.toNat).drop n
        ∧ x.queue rb.toNat = (t.queue rb.toNat).drop n)

/-- R192, R193: the modes of `TRESUME`. The Suspended operation goes on before everything queued: `.cont` as it was, `.wide` in FP64, and `.restart` in
FP64 from its first step, from C0, with the bound that the operation began with. With `.rec` a record that passes the checks, once nothing older of the
context or the tile holds it back, joins the unit's order with its operation and its steps staged again. -/
def Obligations.TileResume : Prop :=
  ∀ (s : State) (c : Ctx) (t : Team) (p : Pre) (core : BitVec 2) (tile : BitVec 4) (x : BitVec 6), c.act ≠ 0 → c.teamOf core = some t →
    t.nowOn tile.toNat = false → c.t.canRaise ⟨0, 0, 0, 1⟩ = true → t.rank = core.toNat → tile.toNat < t.tiles.length →
    s.aliasOpen c.crew t s.ids tile.toNat = false →
    let at_ := t.tile tile.toNat
    let k := c.crew.teamCore core.toNat
    let c0 : List Nat := (List.range 1024).map fun j => widen32 (s.regNat k (t.slotAddr tile.toNat + 0x1000 + 4 * j) 4)
    let widened : State := if at_.fmt = 0 then s.putElems k t tile.toNat 1 ((s.elems k t tile.toNat 0).map widen32) else s
    let shape (mode : Resume) (m : Mma) (y : Tile) : Prop :=
      y.bound = (if mode = .restart then wput at_.bound 0 32 (wfld m.bound0 0 32) else at_.bound)
      ∧ y.fmt = if mode = .restart ∨ (mode = .wide ∧ at_.fmt = 0) then 1 else at_.fmt
    let go (i : Bool → Instr) (mode : Resume) (f : Mma → Mma) (e : State) : Prop :=
      (∀ o m, Issues s (i false) c → at_.susp = some o → o.mma = some m → (mode = .restart → t.c0Held tile.toNat o.id = true) →
        ∃ u y, exec (i false) s = .next u ∧ u.mem = s.mem ∧ u.regs = e.regs ∧ u.team? c.id core.toNat = some y
          ∧ shape mode m (y.tile tile.toNat) ∧ (y.tile tile.toNat).susp = none ∧ y.ops = { o with mma := some (f m) } :: t.ops)
      ∧ (∀ l o m, Issues s (i true) c → let ga := c.gReg x.toNat
        ga.toNat % 128 = 0 → Ctx.idleSoon t tile.toNat = false → c.t.holdsBack c.inH none ga = false →
        (∀ u ∈ c.crew.teams, ∀ o ∈ u.ops, isTsave (wordOf o.word) = true → o.ga.toNat / 128 ≠ ga.toNat / 128) →
        (s.loadVa (c.byLane 0) ga.toNat 128).1 = .ok l → seqOp l 0 c.inH = some (o, m) → seqOk t core.toNat tile.toNat mode l o m = true →
        t.quotaU + t.quotaH + seqLines l m ≤ t.quota →
        ∃ u y z n, exec (i true) s = .next u ∧ u.mem = (s.loadVa (c.byLane 0) ga.toNat 128).2.mem ∧ u.regs = e.regs ∧ u.team? c.id core.toNat = some y
          ∧ shape mode m (y.tile tile.toNat) ∧ y.ops = t.ops ++ [z] ∧ z.word = o.word ∧ z.mma = some (f m) ∧ y.steps = t.steps ++ seqSteps l m z.id n (n + 1) (n + 2))
    go (fun r => .tresumeCont p r core tile x) .cont (fun m => { m with trapped := false }) s
    ∧ go (fun r => .tresumeWide p r core tile x) .wide (fun m => { m with wide := true, trapped := false }) widened
    ∧ go (fun r => .tresumeRestart p r core tile x) .restart (fun m => { m with wide := true, depth := 0, colg := 0, trapped := false, reread := true })
        (s.putElems k t tile.toNat 1 c0)

/-- R176, R181, R182, R184, R189, R119 to R122: a move of the matrix unit lets the oldest operation of a tile go on, where no older write of a lane still
goes to the tile and no step of another tile is in progress. `TZERO` clears the elements, the bound and the status; `TBSET` sets the threshold, with `.all`
the bound too. A `TMMA` that has begun, and keeps no bound, makes one group of 8 columns of its step (a move for each group, and one for the retirement,
are the model's choice, log 59): to each element of those columns it adds the products of its rows, in one rounded sum or, for FP64 inputs, in the tree;
the others stay. After the fourth group the next step follows, with an infinite bound; and after the last step the operation retires, and lets go of its
steps. -/
def Obligations.TileSteps : Prop :=
  ∀ (s : State) (crew rank i : Nat) (c : Crew) (t : Team) (o : TileOp) (rest : List TileOp), s.crew? crew = some c → s.team? crew rank = some t → t.rank = rank →
    c.stopPending rank (some i) none = false → s.unitBusy c t i = false → (t.tile i).susp = none → i < t.tiles.length →
    (t.ops.filter fun o => o.tile == i) = o :: rest →
    let core := c.teamCore rank
    let is_ (w : Instr) : Prop := decode o.word = some w ∧ o.mma = none ∧ s.aliasOpen c t o.id i = false
    let gives (f : Tile → Tile) (e : State) : Prop := ∃ u y, exec (.tileStep crew rank i) s = .next u ∧ u.mem = s.mem ∧ u.regs = e.regs
      ∧ u.team? crew rank = some y ∧ y.ops = t.ops.filter (fun z => z.id != o.id) ∧ y.tile i = f (t.tile i)
    (∀ p a64 k n, is_ (.tzero p a64 k n) → gives (fun x => { x with bound := bWith x.bound 0, status := if a64 then 64 else 0, c0 := false })
      (s.setRegBytes core (t.slotAddr i) (List.replicate 8192 0)))
    ∧ (∀ p k n x, is_ (.tbsetThr p k n x) → gives (fun y => { y with bound := wput y.bound 32 9 (wfld o.ga 32 9) }) s)
    ∧ (∀ p k n x, is_ (.tbsetAll p k n x) → gives (fun y => { y with bound := o.ga &&& 0x1FFFFFFFFFF }) s)
    ∧ ∀ m, o.mma = some m → m.started = true → (∀ y, rest.head? = some y → isTsave (wordOf y.word) = false) → (c.saving = none ∨ rest ≠ []) →
      (∀ a b da db, m.reread = false → m.bnd = false → m.depth < m.n → m.colg < 4 → s.limited = false →
        (t.claimed o).1[m.depth]? = some a → (t.claimed o).2[m.depth]? = some b → a.data = some da → b.data = some db → a.bad = false → b.bad = false →
        let f := if m.wide then fp64 else fp32
        let row (r : BitVec 128) (d : List Byte) (k : Nat) : List Fv := (rowElems r d k).map Elem.v
        let new (k : Nat) (old : Nat) : Nat := if k % 32 / 8 = m.colg then
            stepElem f (recFmt m.recA = 8) (if recSeed m.recA ≠ 0 then -5 else 0) old (row m.recA da (k / 32)) (row m.recB db (k % 32)) else old
        ∃ u y z, exec (.tileStep crew rank i) s = .next u ∧ u.mem = s.mem ∧ u.team? crew rank = some y
          ∧ u.regs = (s.putElems core t i (if m.wide then 1 else 0) (((List.range 1024).zip (s.elems core t i (if m.wide then 1 else 0))).map
              fun q => new q.1 q.2)).regs
          ∧ z ∈ y.ops ∧ z.id = o.id ∧ z.mma = some (if m.colg < 3 then { m with colg := m.colg + 1 } else { m with depth := m.depth + 1, colg := 0 })
          ∧ (y.tile i).bound = if m.colg < 3 then (t.tile i).bound else bWith (t.tile i).bound 0x7F800000)
      ∧ (m.n ≤ m.depth → ∃ u y, exec (.tileStep crew rank i) s = .next u ∧ u.mem = s.mem ∧ u.regs = s.regs ∧ u.team? crew rank = some y
          ∧ (∀ z ∈ y.ops, z.id ≠ o.id) ∧ ∀ x ∈ y.steps, x.op ≠ some o.id)

/-- R269, R270: in a crew of several teams an `RROT` arrives and its path waits; in a crew of one team that has made no arrival yet it matches as it
issues. When the n teams of a crew have all made an arrival, which agree on N and M and pass the checks, the match makes one write command for each team,
raises each team's copy counter, and changes no memory: the N bytes that stood at the source offset of rank (r − 1) mod n, with `.bwd` of rank (r + 1) mod
n, go to the destination offset of rank r. So rank r's bytes are received by rank (r + 1) mod n forward and by rank (r − 1) mod n backward. -/
def Obligations.RingRotation : Prop :=
  (∀ (s : State) (c : Ctx) (p : Pre) (bwd : Bool) (a b : Opd) (n : BitVec 12), Issues s (.rrot p bwd a b n) c → c.crew.teams.length ≠ 1 →
    c.Waits (exec (.rrot p bwd a b n) s) (.rrot ((c.team.map Team.arrivals).getD 0)))
  ∧ (∀ (s : State) (c : Ctx) (p : Pre) (bwd : Bool) (a b : Opd) (nf : BitVec 12) (t : Team) (w x y : Nat),
    let i : Instr := .rrot p bwd a b nf
    let n := 32 * (nf.toNat + 1)
    Issues s i c → wordOf c.word = i → c.crew.teams = [t] → t.rank = 0 → c.sid = .wave 0 w → c.path.wait = .none → c.act ≠ 0 →
    (∀ d u, c.crew.strand? d = some u → ∀ q ∈ u.paths, (q.wait = .none ∨ q.clause ≠ none) ∧ ∀ j, q.wait ≠ .rrot j) →
    (∀ l, c.act.getLsbD l = true → c.rd .n32 a l = x ∧ c.rd .n32 b l = y) → x % 32 = 0 → y % 32 = 0 → x + n ≤ c.crew.padS → y + n ≤ c.crew.padS →
    t.padLost x n = false → c.t.canRaise ⟨0, 0, 1, 0⟩ = true →
    ∃ u k v, exec i s = .next u ∧ u.slot = none ∧ u.mem = s.mem ∧ u.cmds = s.cmds ++ [k] ∧ k.kind = .rrot ∧ k.crew = c.id ∧ k.dests = [0] ∧ k.planned = true
      ∧ k.writes = writesOf (some 0) (((List.range n).zip (t.padBytes x n)).map fun z => (y + z.1, 0xFF, z.2))
      ∧ u.strand? c.id c.sid = some v ∧ v.cp = c.t.cp + 1)
  ∧ ∀ (s : State) (crew j n : Nat) (bwd : Bool) (k : Crew) (rs : List Rot), s.crew? crew = some k → k.running = true → rs ≠ [] →
    k.teams.map Team.rank = List.range k.teams.length →
    (∀ d u, k.strand? d = some u → ∀ q ∈ u.paths, q.wait = .none ∨ q.clause ≠ none) →
    k.teams.map (fun t => s.rotOf k t j) = rs.map some → (∀ i < j, ∃ t ∈ k.teams, s.rotOf k t i = none) → (∃ t ∈ k.teams, j < t.arrivals) →
    (∀ r ∈ rs, r.c.act ≠ 0 ∧ r.own false = none ∧ r.n = n ∧ r.bwd = bwd ∧ r.c.t.canRaise ⟨0, 0, 1, 0⟩ = true) →
    ∃ u xs, exec (.rrotMatch crew) s = .next u ∧ u.mem = s.mem ∧ u.cmds = s.cmds ++ xs ∧ xs.length = rs.length
      ∧ ∀ d r q t x, rs[d]? = some r → rs[if bwd then (d + 1) % rs.length else (d + rs.length - 1) % rs.length]? = some q →
          k.teams[if bwd then (d + 1) % rs.length else (d + rs.length - 1) % rs.length]? = some t → xs[d]? = some x →
          x.kind = .rrot ∧ x.crew = crew ∧ x.dests = [d] ∧ x.planned = true
          ∧ x.writes = writesOf (some d) (((List.range n).zip (t.padBytes q.a n)).map fun z => (r.b + z.1, 0xFF, z.2))
          ∧ ∃ v, u.strand? crew r.c.sid = some v ∧ v.cp = r.c.t.cp + 1

/-! ### Issue slots and the watchdog (R33 to R42, R310, R340) -/

/-- R39, R41, R49, R310, R340: clocks that pass advance CLK. Where all of a move's clocks may pass, and after them the only stream of a quadrant, or the
only context of a Gaffer core, stands inside a clause with nothing to keep it from issuing, the slot goes to its path's next word; on an odd clock the lone
slot goes to a lone path in the same way. The one path of a stream that has starved past the crew's limit, with no clause of another path in progress and
no other cause to take, traps with cause 13 and kind 2 where it stands, and TRAPAUX will hold its count as it expired. That a slot is granted in one step
and its word runs in the next is the model's choice (log 6), and so is how many of the clocks that a move names may pass (log 7). -/
def Obligations.IssueSlots : Prop :=
  (∀ (s : State) (die n : Nat), s.up = true → die < s.dies.length → (s.pass die n).clk die = s.clk die + n)
  ∧ (∀ (s : State) (die cluster core quad n : Nat) (c : Crew) (sid : Sid) (t : Strand) (p : Path) (k : Clause),
    let s1 := s.pass die n
    s.ticks die n = n → s1.limited = false → s1.crew? c.id = some c → c.strand? sid = some t → t.paths = [p] → p.clause = some k → p.wait = .none →
    k.pos < k.words.length → p.lanes ≠ 0 → p.frozen = none → t.pend = [] → c.running = true → s1.stalled c.id sid p.id = false →
    (∀ i, t.intr = some i → ∀ q ∈ i.held, t.expired c.desc.limit q = false) →
    let to_ (i : Instr) (lone : Bool) : Prop := ∃ u, exec i s = .next u ∧ u.mem = s1.mem ∧ u.regs = s1.regs
      ∧ u.slot = some { crew := c.id, sid := sid, path := p.id, lone := lone }
    (s1.quadrant die cluster core quad = [(c, sid, t)] → p.lone = false → s1.slotFree die (cluster, core, quad) = true →
      to_ (.issueSlot die cluster core quad n) false)
    ∧ (s1.quadrant die cluster core quad = [(c, sid, t)] → p.lone = true → s1.slotFree die (cluster, core, quad + 4) = true → s1.clk die % 2 = 1 →
      c.desc.prog = true → t.intr = none → (∃ r w, sid = .wave r w) → to_ (.loneIssueSlot die cluster core quad n) true)
    ∧ (s1.contexts die cluster = [(c, sid, t)] → p.lone = false → s1.slotFree die (cluster, 4, 0) = true → to_ (.gafferIssue die cluster n) false))
  ∧ ∀ (s : State) (c : Crew) (sid : Sid) (t : Strand) (p : Path) (lane : Nat), s.crew? c.id = some c → (∀ k ∈ s.crews, k.id = c.id → k = c) →
    s.strand? c.id sid = some t → c.running = true → t.intr = none → t.paths.filter (t.expired c.desc.limit) = [p] → p.lanes.getLsbD lane = true →
    t.pend = [] → (∀ e ∈ t.log, e.faults = []) →
    (∀ q ∈ t.paths, q.midClause = true → q = p ∧ (s.stalled c.id sid p.id = true ∨ s.ready c t p = false)) →
    exec (.watchdogExpiry c.id sid lane) s = .next (State.takeTrap { s with stalls := [] } c.id sid p.id
      { cause := 13, kind := 2, mask := p.lanes, pc := p.stands.1, at_ := p.stands.2, aux := BitVec.ofNat 64 (c.desc.limit + 1), pend := false, access := 0,
        absent := false })

/-! ### The ordering machine (R243 to R248, R262 to R267, R274 to R278, R284 to R293) -/

/-- R284, R286, R220, R206, R341: SEND and READ complete. SEND of the one lane of a logged memory word that waits, with room in its port's window, makes
one message to the home of its translated address, with the lane's data; where translation fails it records the cause in the lane. READ of a load that is
on its way answers it. At the home of its line the response takes the bytes as they then stand and the line's tag, and of an uncorrectable line only that
it is one; a scratchpad load takes its team's bytes, and whether they are or are found to be uncorrectable (R257; a free choice, log 79); a load of the
device aperture takes its register. Neither changes memory or a register, where no watch range matches. -/
def Obligations.SendAndRead : Prop :=
  (∀ (s : State) (c : Crew) (sid : Sid) (t : Strand) (e : Entry) (l : Nat) (i : Instr) (k : MsgKind),
    s.crew? c.id = some c → s.strand? c.id sid = some t → t.sid = sid → s.entry? c.id sid e.id = some e → lanesOf e.undone = [l] →
    s.sendOk c t e l = true → s.inWindow (corePort (c.coreOf sid)) < 8 → decode e.word = some i → memKind i = some k → k ≠ .flush → k ≠ .flushAll →
    isPadWord i = false → inBlockAperture (e.ea l) = false →
    let w := (s.translate c.asid c.secure (accessOf i) (e.ea l)).1
    let s1 := (s.translate c.asid c.secure (accessOf i) (e.ea l)).2
    (∀ f, w = .ok f → placeTakes i f (e.ea l) = true → (∀ m ∈ s1.msgs, m.line ≠ lineOf f.at_) →
      ∃ u x, exec (.send c.id sid e.id l) s = .next u ∧ u.mem = s.mem ∧ u.regs = s.regs ∧ u.msgs = s1.msgs ++ [x] ∧ x.kind = k ∧ x.word = e.word
        ∧ x.entry = e.id ∧ x.phase = .out ∧ x.line = lineOf f.at_ ∧ x.leaf = f ∧ x.point = homeOf (if k = .gsadd then 0 else f.cp) f.at_
        ∧ x.acts = [{ lane := l, key := f.at_, size := accessBytes i, b := (e.srcOf l).getD 1 0, c := (e.srcOf l).getD 2 0 }])
    ∧ (∀ cause absent, w = .fail cause absent → isFlushWord i = false →
      exec (.send c.id sid e.id l) s = .next (s1.logFault c.id sid e.id [l] cause (kindOf i) absent)))
  ∧ ∀ (s : State) (id : Nat) (m : Msg), s.msg? id = some m → m.id = id → m.held = false → m.phase = .out → m.kind = .load →
    (∀ k r, m.point = .pad k r → s.padBlocked m = false ∧ ∃ tm, s.team? k r = some tm) → s.pcieBlocked m = false → s.reachable m.point = true →
    (∃ u x, exec (.read (.msg id)) s = .next u ∧ u.regs = s.regs ∧ u.msg? id = some x ∧ x.phase = .back)
    ∧ (s.unwatched → s.samples = [] → m.leaf.roc = false →
      let back (x : Act → Act) (bad : Bool) (tag : BitVec 32) : Prop := ∃ u y, exec (.read (.msg id)) s = .next u ∧ u.mem = s.mem ∧ u.regs = s.regs
        ∧ u.msg? id = some y ∧ y.phase = .back ∧ y.bad = bad ∧ y.tag = tag ∧ y.acts = m.acts.map x
      ((∀ k r, m.point ≠ .pad k r) → (∀ d, m.point ≠ .aperture d) →
        (m.line ∉ s.lost → back (fun a => a.fill (s.readVis a.key a.size)) m.bad (s.lineState m.line).tag) ∧ (m.line ∈ s.lost → back (fun a => a) true m.tag))
      ∧ (∀ k r tm, m.point = .pad k r → s.team? k r = some tm → back (fun a => a.fill (tm.padBytes a.key a.size))
          (Config.eccError s.free || m.acts.any fun a => tm.padBad.any fun b => a.key ≤ b && b < a.key + a.size) m.tag)
      ∧ (∀ d, m.point = .aperture d → back (fun a => { a with b := s.apertureRead a.key m.secure }) m.bad m.tag))

/-- R265, R274, R277, R278, R285, R286: CHANGE of a store of one lane to a line without scatter slots writes its bytes and no other, takes the next
sequence tag of its point for the line, and answers with it; of an atomic it stores the value that the table of R274 gives and answers with the old value.
ACCEPT adds a contribution to its word's slot, or to a new one, and changes no memory. -/
def Obligations.ChangeAndAccept : Prop :=
  (∀ (s : State) (id : Nat) (m : Msg) (x : Act) (d n : Nat), s.msg? id = some m → m.id = id → m.held = false → m.phase = .out → m.acts = [x] →
    (m.point = .slice d n ∨ m.point = .mslice d n ∨ m.point = .lpddr d) → s.unwatched → s.samples = [] → s.slotWords m.line = [] → Memory.wf s.mem →
    let writes (v : Nat) (y : Act) (tag : Option (BitVec 32)) : Prop := ∃ u z, exec (.change (.msg id)) s = .next u ∧ u.regs = s.regs
      ∧ (∀ j < x.size, u.memByte (x.key + j) = BitVec.ofNat 8 (v / 256 ^ j)) ∧ (∀ a, a < x.key ∨ x.key + x.size ≤ a → u.memByte a = s.memByte a)
      ∧ u.change m.point = s.change m.point + 1 ∧ (u.lineState m.line).tag = s.change m.point ∧ u.msg? id = some z ∧ z.phase = .back ∧ z.acts = [y]
      ∧ ∀ t, tag = some t → z.tag = t
    (m.kind = .store → writes (x.b.toNat + x.c.toNat * 2 ^ 64) x (some (s.change m.point)))
    ∧ (∀ p t op dd a b, m.kind = .atom → decode m.word = some (.atom p t op dd a b) → m.line ∉ s.lost → x.size ≤ 8 →
        writes (atomNew t op (s.memNat x.key x.size) x.b.toNat % 2 ^ 64) { x with b := BitVec.ofNat 64 (s.memNat x.key x.size), c := 0 } none)
    ∧ (∀ p t dd a b e, m.kind = .acas → decode m.word = some (.acas p t dd a b e) → m.line ∉ s.lost → x.size ≤ 8 →
        writes (if s.memNat x.key x.size = x.b.toNat then x.c.toNat else s.memNat x.key x.size)
          { x with b := BitVec.ofNat 64 (s.memNat x.key x.size), c := 0 } none))
  ∧ ∀ (s : State) (id spill : Nat) (m : Msg) (x : Act), s.msg? id = some m → m.held = false → m.phase = .out → m.kind = .gsadd →
    (m.acts.find? fun a => a.size ≠ 0) = some x →
    let gives (l : List Scatter) : Prop := ∃ u, exec (.accept id spill) s = .next u ∧ u.mem = s.mem ∧ u.regs = s.regs ∧ u.scatter = l
    ((s.scatter.any fun y => y.word == x.key) = true → gives (mapIf (fun y => y.word == x.key) (fun y => y.addBits x.b.toNat) s.scatter))
    ∧ ((s.scatter.any fun y => y.word == x.key) = false → (s.slotsOf (paDie (keyPa x.key)) (paSlice (keyPa x.key))).length < Config.scatterSlots →
        gives (s.scatter ++ [(Scatter.fresh x.key).addBits x.b.toNat]))

/-- R263, R286, R257: DELIVER of the response of one lane of a load whose results no tile holds back, and HIT of such a load in the L1 view of its core,
write the lane's destination as R260 shapes the bytes; the message is gone, and memory is as it was. An entry of L1 that is found to be uncorrectable (a
free choice, log 79) goes instead, and the lane records cause 9. -/
def Obligations.HitAndDeliver : Prop :=
  ∀ (s : State) (id : Nat) (m : Msg) (x : Act) (c : Crew) (t : Strand) (e : Entry) (p : Pre) (ty : Ty) (md : MemMode) (d a : Opd) (off : BitVec 16)
    (h : BitVec 3), s.msg? id = some m → m.id = id → m.held = false → m.bad = false → m.acts = [x] → s.crew? m.crew = some c →
    s.strand? m.crew m.sid = some t → s.entry? m.crew m.sid m.entry = some e → e.undone.getLsbD x.lane = true → (t.thread x.lane).exited = false →
    s.samples = [] → decode e.word = some (.ld p ty md d a off h) → e.word = m.word → s.resultsHeld m = false →
    let gets (i : Instr) (v : Nat) : Prop := ∃ u, exec i s = .next u ∧ u.mem = s.mem ∧ u.msg? id = none
      ∧ u.regs = ((entryCtx s c t e).putGroup ty (MemSize md) d x.lane v s).regs
    (m.phase = .back → gets (.deliver id) (x.b.toNat + x.c.toNat * 2 ^ 64))
    ∧ (∀ y, m.phase = .out → m.kind = .load → (∀ sc, md = .ordered sc → scopeInv sc = false) → m.core.core < 4 → (∀ k r, m.point ≠ .pad k r) →
        x.size ≤ 16 → s.l1Entry m.core m.line m.secure m.asid = some y → y.sectors &&& sectorsOf x.key x.size = sectorsOf x.key x.size →
        e.faultLanes.getLsbD x.lane = false →
        if Config.eccError s.free then ∃ u e', exec (.hit id) s = .next u ∧ u.mem = s.mem ∧ u.regs = s.regs ∧ u.msg? id = none
            ∧ (∀ z ∈ u.l1Of m.core, ¬(z.line = m.line ∧ z.secure = m.secure ∧ z.asid = m.asid))
            ∧ u.entry? m.crew m.sid m.entry = some e' ∧ ∃ f ∈ e'.faults, f.lane = x.lane ∧ f.cause = 9
        else gets (.hit id) (leNat ((y.data.drop (x.key % 128)).take x.size)))

/-- R243, R248, R286, R293, R395: a FILL whose virtual line translates, where a Fill is enabled for the core, puts the current bytes of its sectors into
the core's L1 view, with the line's tag; so does a SPECULATIVE_LOAD of sectors that a load of a clause whose header has met its ceilings names in one of
its lanes (which of those loads start, and when, is the model's choice: log 80). DROP leaves nothing of a line in the view. A memory-side write-back leaves
the line held and no longer written; it changes memory only where it finds the line lost (R257; that it may is log 79). No register changes. -/
def Obligations.LineMoves : Prop :=
  (∀ (s : State) (core line asid : Nat) (secure : Bool) (sec : BitVec 4) (f : Leaf),
    let at_ := s.translate (BitVec.ofNat 16 asid) secure .load (BitVec.ofNat 64 (line * 128))
    at_.1 = .ok f → at_.2.fillOk (coreAt core) f secure (BitVec.ofNat 16 asid) sec = true →
    ∀ i, i = Instr.fill core line asid secure sec
        ∨ (i = Instr.speculativeLoad core line asid secure sec ∧ sec &&& ~~~(s.speculable (coreAt core) (BitVec.ofNat 16 asid) secure line) = 0) →
    ∃ u y, exec i s = .next u ∧ u.mem = s.mem ∧ u.regs = s.regs ∧ u.l1Entry (coreAt core) (lineOf f.at_) secure (BitVec.ofNat 16 asid) = some y
      ∧ sec &&& y.sectors = sec ∧ y.tag = (s.lineState (lineOf f.at_)).tag
      ∧ ∀ j < 128, sec.getLsbD (j / 32) = true → y.data[j]? = (s.readVis (lineBase (lineOf f.at_)) 128)[j]?)
  ∧ (∀ (s : State) (core line : Nat), ∃ u, exec (.drop core line) s = .next u ∧ u.mem = s.mem ∧ u.regs = s.regs
      ∧ u.l1Of (coreAt core) = (s.l1Of (coreAt core)).filter fun e => e.line ≠ line)
  ∧ ∀ (s : State) (die slice line : Nat), ∃ u, exec (.memsideWriteback die slice line) s = .next u ∧ u.regs = s.regs ∧ (u.lost = s.lost → u.mem = s.mem)
      ∧ u.heldAt (.mslice die slice) = (s.heldAt (.mslice die slice)).map fun h => if h.line = line then { h with written := false } else h

/-! ### Engines (R292, R343 to R356, R366 to R369) -/

/-- R292, R345, R347, R366: COPY_ACCEPT of the lowest open lane of an aperture store of which nothing is accepted yet, and that no older access holds back,
gives the channel its command, and settles the lane: a collective takes its group's next number, and a copy whose template, headers and plan are good, and
that names no byte of the block-transfer aperture, keeps them. ENGINE_SCRATCH_WRITE writes the selected bits of a byte of the one sector that waits.
COPY_COMPLETE of a command that has read everything, and with the release flag has written everything too, raises its channel's DONE by one and takes the
lane's part of the copy counter; the command goes, or stays for the writes that it has yet to make. -/
def Obligations.CopyCommands : Prop :=
  (∀ (s : State) (c : Crew) (sid : Sid) (t : Strand) (o : Offer) (l : List Byte) (s1 : State), s.crew? c.id = some c → s.strand? c.id sid = some t →
    o.crew = c.id → o.sid = sid → (s.offers.find? fun x => x.crew == c.id && x.sid == sid && x.lane == o.lane && !x.settled) = some o →
    (∀ x ∈ s.offers, x.with_ c.id sid o.path = true → o.lane ≤ x.lane ∨ x.settled = true) → (s.chanCmds c.die c.cluster o.chan).length < 8 →
    o.entry = none → t.canRaise ⟨0, 0, 1, 0⟩ = true → s.offerFree c t o = true → (s.asidEntry c.asid).tt ≠ 0 → wordRefused o = false →
    s.loadVa (s.byCmd (baseCmd c o .copy [])) ((s.asidEntry c.asid).tt + 128 * dwTmpl o.data + if dwColl o.data then 0x80000 else 0) 128 = (.ok l, s1) →
    let takes (s2 : State) (h : Cmd → Prop) : Prop := ∃ u k, exec (.copyAccept c.id sid o.lane) s = .next u ∧ u.mem = s2.mem ∧ u.regs = s2.regs
      ∧ u.cmds = s2.cmds ++ [k] ∧ k.data = o.data ∧ k.lane = o.lane ∧ k.chan = o.chan ∧ h k
      ∧ ∀ x ∈ u.offers, x.with_ c.id sid o.path = true → x.lane = o.lane → x.settled = true
    (∀ r ms, dwColl o.data = true → s1.group c.die (Coll.ofBytes l).group = some (r, ms) → Coll.ok l = true → (Coll.ofBytes l).root < ms.length →
      s1.acqReady c t o.lane (Coll.ofBytes l).acq (Coll.ofBytes l).scope = true →
      takes s1 fun k => k.kind = .coll ∧ k.tmpl = l ∧ k.planned = false ∧ k.members = ms ∧ k.seq = (assocGet (s1.die c.die).groupSeq (Coll.ofBytes l).group).getD 0)
    ∧ (let tm := Tmpl.ofBytes l
      ∀ dests a d s2 s3 pl s4, dwColl o.data = false → copyDests c sid tm = some dests → Tmpl.ok l c.padS = true →
        (dwAsrc o.data = true → tm.route = 2) → (dwArr o.data = true → tm.tben = true) → (sid = .gaffer → tm.route = 2 → tm.tben = false) →
        s1.acqReady c t o.lane tm.acq tm.scope = true →
        let k0 : Cmd := { baseCmd c o .copy l with dests := dests }
        farOf ((if tm.route = 1 then [] else [tm.src]) ++ (if tm.route = 0 || tm.kind = 2 then [] else [tm.dst])) = none →
        s1.readHdr (s1.byCmd k0) (tm.route ≠ 1) tm.src = (.inl a, s2) →
        s2.readHdr (s1.byCmd k0) (tm.route ≠ 0 && tm.kind ≠ 2) tm.dst = (.inl d, s3) →
        let k1 : Cmd := { k0 with tmpl := l ++ a ++ d }
        k1.plan c.padS = .inr pl → farOf (pl.named tm k1.dstHdr) = none → s3.pinRegion k1 tm = some (0, s4) →
        takes s4 fun k => k.kind = .copy ∧ k.dests = dests ∧ k.tmpl = l ++ a ++ d
          ∧ (pl.reads k1.srcRank ≠ [] → k.ecode = 0 ∧ k.reads = pl.reads k1.srcRank)))
  ∧ (∀ (s : State) (k : Cmd) (w : EngWrite) (r a : Nat) (m v : Byte) (t : Team), s.cmd? k.id = some k → (k.writes.filter fun w => w.rank.isSome) = [w] →
    k.done = false → w.rank = some r → w.cells = [(a, m, v)] → (k.kind ≠ .copy ∨ k.template.tben = false) → s.team? k.crew r = some t →
    ∃ u x y, exec (.engineScratchWrite k.id) s = .next u ∧ u.mem = s.mem ∧ u.regs = s.regs ∧ u.team? k.crew r = some x
      ∧ x.scratch = memPut t.scratch a [((t.padBytes a 1).headD 0 &&& ~~~m) ||| (v &&& m)] ∧ x.padBad = t.padBad.filter (· ≠ a) ∧ u.cmd? k.id = some y ∧ y.writes = k.writes.erase w)
  ∧ ∀ (s : State) (k : Cmd), s.cmd? k.id = some k → k.done = false → k.planned = true → k.reads = [] → (k.rel = true → k.writes = []) → k.ecode = 0 → k.kind ≠ .rrot →
    (s.sendWrites k).cmd? k.id = some k →
    (k.kind = .copy → k.template.tben = true → dwArr k.data = false) →
    let old := (s.chans.find? fun h => h.die == k.die && h.cluster == k.cluster && h.chan == k.chan).map Chan.fin
    ∃ u, exec (.copyComplete k.id) s = .next u ∧ u.cmd? k.id = (if k.writes = [] then none else some { k with done := true, told := false })
      ∧ u.chans.head? = some { die := k.die, cluster := k.cluster, chan := k.chan, fin := old.getD 0 + 1, tmpl := dwTmpl k.data, ecode := 0, err := false,
                               flags := k.flags, secure := k.secure }
      ∧ ∀ t e, s.strand? k.crew k.sid = some t → s.entry? k.crew k.sid k.entry = some e → e.undone = 1#32 <<< k.lane →
          ∃ t', u.strand? k.crew k.sid = some t' ∧ t'.cp = t.cp - e.cnt.cp ∧ ∀ x ∈ t'.log, x.id ≠ k.entry

/-- R366 to R368, R406: when every member of a group on the package, as the group stood when each was accepted, has issued and its source has been read,
and the members agree, COLLECTIVE_PAIR gives each of them the writes of the result at its own DST: the contributions folded in rank order, or for a
broadcast the root's. PEER_TIMEOUT ends a collective that some member has not issued with ECODE 7. -/
def Obligations.Collectives : Prop :=
  (∀ (s : State) (k : Cmd) (ds : List Nat) (member : Nat → Cmd), s.cmd? k.id = some k → k.kind = .coll → k.planned = false →
    let g := (Coll.ofBytes k.tmpl).group
    k.members = ds.map some → (∀ p ∈ k.peers, p ∉ s.peersDown) →
    (∀ d ∈ ds, (s.cmds.find? fun x => x.kind == .coll && x.die == d && x.seq == k.seq && (Coll.ofBytes x.tmpl).group == g) = some (member d)) →
    (∀ d ∈ ds, (member d).reads = [] ∧ (member d).planned = false ∧ (member d).agrees = k.agrees ∧ (member d).partial_ = false
      ∧ (member d).members = ds.map some ∧ (member d).die ∈ ds) →
    let t := Coll.ofBytes k.tmpl
    let parts (e : Nat) : List Nat := ds.map fun d => (member d).contribution.getD e 0
    let result (e : Nat) : Nat := if t.op = 6 then (parts e).getD t.root 0 else (parts e).tail.foldl (collFold t) ((parts e).headD 0)
    ∃ u, exec (.collectivePair k.id []) s = .next u ∧ u.mem = s.mem ∧ u.regs = s.regs ∧ ∀ d ∈ ds, ∃ y ∈ u.cmds, y.id = (member d).id ∧ y.planned = true
      ∧ y.writes = writesOf none (((List.range t.count).map fun e =>
          bitCells (8 * ((Coll.ofBytes (member d).tmpl).dst + e * t.size)) (8 * t.size) (result e)).flatten))
  ∧ ∀ (s : State) (k : Cmd), s.cmd? k.id = some k → k.kind = .coll → k.planned = false → s.allIssued k = false →
    ∃ u y, exec (.peerTimeout k.id) s = .next u ∧ u.mem = s.mem ∧ u.regs = s.regs ∧ u.cmd? k.id = some y ∧ y.ecode = 7 ∧ y.reads = [] ∧ y.writes = []
      ∧ y.planned = true

/-! ### Crews (R24 to R30, R210 to R212, R329 to R339, R408) -/

/-- R24 to R27, R331, R337, R408: CREW_PLACE of the only candidate, a record that may run, on a cluster that it fits and at places that R26 allows: the
crew is resident with what its descriptor and record say, every team's waves at LENTRY, HEAD is past the record, and M1 is extended by the descriptor and
CODE. -/
def Obligations.CrewPlacement : Prop :=
  ∀ (s s1 : State) (die cluster q : Nat) (pick : Pick) (w : Want) (r d : List Byte), s.up = true → die < 4 → cluster < 42 →
    s.offers_ (sortBy id (dedup (s.queues.map Prod.fst ++ s.saved.map Saved.queue))) = ([(q, .start w r d)], s1) → s1.holds = [] → w.queue = q →
    fits (s1.residents die cluster) w = true → pickOk (s1.residents die cluster) w pick = true → (s1.queue q).kind = false →
    ∃ u c, exec (.crewPlace die cluster pick) s = .next u ∧ u.mem = s1.mem ∧ u.crews = s1.crews ++ [c] ∧ (u.queue q).head = (s1.queue q).head + 1
      ∧ c.die = die ∧ c.cluster = cluster ∧ c.desc = w.desc ∧ c.queue = q ∧ c.asid = (s1.queue q).asid ∧ c.secure = (s1.queue q).world
      ∧ c.kdesc = BitVec.ofNat 64 (rdAt r 0 8) ∧ c.frame = BitVec.ofNat 64 (rdAt r 8 8) ∧ c.join = BitVec.ofNat 64 (rdAt r 16 8)
      ∧ c.teams.length = w.desc.crew ∧ (∀ t ∈ c.teams, t.waves.length = w.desc.team / 32 ∧ t.scratch = []
        ∧ ∀ x ∈ t.waves, x.paths.map (fun p => (p.lanes, p.pc)) = [(0xFFFFFFFF, w.desc.lentry)])
      ∧ u.m1 = Config.sm3 ((leBytes 32 s1.m1.toNat).reverse ++ d ++ r.take 8)

/-- R28 to R30, R39, R210, R212, R334, R339: the other moves of a crew. A save with nothing outstanding that fits its slot writes its parts and leaves the
crew Saved; one that has run past the limit is not made, and loses every crew with a team on a core of the crew. A crew that holds nothing any more exits,
with its final join where it names one; a join that is refused is to be sent again after its back-off. That a crew saved for reason 2, and for no other,
may be placed again at once is log 39. Every 4096 clocks a team that has completed the fewest clauses is marked urgent, and no other. -/
def Obligations.CrewMoves : Prop :=
  ∀ (s : State) (c : Crew), s.crew? c.id = some c →
    (∀ v d s2, c.saving = some v → s.saveReady c = true → ¬(c.desc.limit < s.clk c.die - v.since) → (s.saveBegun c).crew? c.id = some d → d.fitsSlot ((s.saveBegun c).queue d.queue) = true →
      storeAll d.by ((s.saveBegun c).saveParts d v) (s.saveBegun c) = some s2 →
      ∃ u x, exec (.crewSave c.id) s = .next u ∧ u.mem = s2.mem ∧ u.crew? c.id = none ∧ u.saved = s2.saved ++ [x] ∧ x.queue = d.queue ∧ x.slot = v.slot
        ∧ x.crew = d ∧ x.ready = decide (v.reason = 2))
    ∧ (∀ v, c.saving = some v → c.desc.limit < s.clk c.die - v.since → c.exiting = false → ∃ u, exec (.saveTimeout c.id) s = .next u
      ∧ ∀ d ∈ s.crews, d.die = c.die → d.cluster = c.cluster → d.exiting = false → (∃ k, k ∈ d.cores ∧ k ∈ c.cores) → u.crew? d.id = none)
    ∧ (s.exitReady c = true → c.exitReleased = true → c.exiting = false → c.join = 0 →
        ∃ u, exec (.crewExit c.id) s = .next u ∧ u.mem = s.mem ∧ u.crew? c.id = none)
    ∧ (c.exiting = true → c.exitReleased = true → c.join ≠ 0 → c.join.toNat % 64 = 0 → s.replay? c.id none 0 = none →
        let port := corePort (c.coreOf .gaffer)
        s.inWindow port < 8 →
        (∀ s2, s.joinBlock c.by c.die c.join.toNat = .done s2 → exec (.crewExit c.id) s = .next ((s2.served c.id none 0).removeCrew c.id))
        ∧ (∀ s2, s.joinBlock c.by c.die c.join.toNat = .refused s2 → exec (.crewExit c.id) s = .next (s2.refused port c.die c.id none 0)))
    ∧ (2 ≤ c.teams.length → 4096 ≤ s.clk c.die - c.marked → ∃ u d t, exec (.urgencyMark c.id) s = .next u ∧ u.mem = s.mem ∧ u.regs = s.regs
        ∧ u.crew? c.id = some d ∧ d.marked = s.clk c.die ∧ t ∈ c.teams ∧ (∀ x ∈ c.teams, t.clauseCount ≤ x.clauseCount)
        ∧ d.teams.map Team.urgent = c.teams.map fun x => decide (x.rank = t.rank))

/-! ### The host (R5, R224, R254, R317 to R322, R329, R330, R336, R401, R407, R409) -/

/-- R329, R330, R336: the host's writes to the block of a queue that it sees. EN is set where the binding is good, and BIND otherwise; EN = 0 clears it;
TAIL takes the value unless it would pass N, which disables the queue with ERR; RESUME of a number below SAVECOUNT makes the saved crew ready, and
RESUME_DROP loses it, and any other number sets ERR alone; a register write of BASE reaches a queue that is not enabled. But for RESUME_DROP, which writes
an event for the host, no memory and no register changes. That TAIL is not written where it would pass N, and that an enable checks again, are log 71; that
a number from SAVECOUNT on sets ERR is log 27. -/
def Obligations.QueueControl : Prop :=
  ∀ (s : State) (who : HostFn) (n q slot : Nat) (v : BitVec 32) (w : Word), s.hostIn = true → s.queueOf who n = some q →
    let x := s.queue q
    let a := s.asidEntry x.asid
    let good : Prop := a.v = true ∧ a.sworld = x.world ∧ x.base ≠ 0 ∧ x.base.toNat % 64 = 0 ∧ x.log2n.toNat ≤ 20
    let gives (i : Instr) (y : Queue) : Prop := ∃ u, exec i s = .next u ∧ u.mem = s.mem ∧ u.regs = s.regs ∧ u.queue q = y ∧ ∀ k, k ≠ q → u.queue k = s.queue k
    (good → gives (.queueEnable who n) { x with en := true }) ∧ (¬good → gives (.queueEnable who n) { x with bind := true })
    ∧ gives (.queueDisable who n) { x with en := false }
    ∧ gives (.tailWrite who n v) (if x.kind then x else if x.size < (v - x.head).toNat then { x with err := true, en := false } else { x with tail := v })
    ∧ (n < 4096 → gives (.registerWrite who (64 * n + 8) w) (if x.en then x else { x with base := w }))
    ∧ (s.resumable q slot = false → gives (.resume who n slot) { x with err := true } ∧ gives (.resumeDrop who n slot) { x with err := true })
    ∧ (∀ y ∈ s.saved, y.queue = q → y.slot = slot → slot < x.savecount.toNat →
        (∃ u, exec (.resume who n slot) s = .next u ∧ u.mem = s.mem ∧ u.regs = s.regs ∧
          { y with ready := true, crew := if y.crew.waits q slot then y.crew.resumed slot else y.crew } ∈ u.saved)
        ∧ ∃ u, exec (.resumeDrop who n slot) s = .next u ∧ ∀ z ∈ u.saved, ¬(z.queue = q ∧ z.slot = slot))

/-- R224, R254, R317, R318, R322, R401, R409: the host's other moves. An invalidate joins those under way, and when it completes no cached translation of
its ASID is left, no older table is used any more, and INVDONE has risen; a write of zero clears a counter, and one half of the 8 bytes that two BINs fill
where it names that one alone; a CELL write keeps the fields of R316 and TRCTL its one bit, which when it is set begins with a SYNC record and a PATH
record for each path; a die takes its oldest trigger; a held fault record goes into its ring; and containment leaves no crew of the cluster that the writer
reaches. What is write-only reads zero, the fields of a secure ring block and of the secure record ring read zero to the other world, and BASE reads as it
stands. The offsets of the registers, and what half a BIN pair is cleared by, are log 26; which tables an old entry may come from is log 20; the reach of
containment is log 69. -/
def Obligations.HostMoves : Prop :=
  ∀ (s : State) (who : HostFn) (asid : BitVec 16) (die off : Nat) (v : Word), s.hostIn = true → die < 4 →
    (∃ u, exec (.asidInvalidate asid) s = .next u ∧ u.mem = s.mem ∧ u.regs = s.regs ∧ u.invals = s.invals ++ [asid])
    ∧ (asid ∈ s.invals → ∃ u, exec (.invalidateComplete asid) s = .next u ∧ u.mem = s.mem ∧ u.regs = s.regs ∧ u.invdone = s.invdone + 1
        ∧ (∀ e ∈ u.tlb, e.1.1 ≠ asid) ∧ (∀ k n, u.oldMems asid k n = []) ∧ u.invals = s.invals.erase asid)
    ∧ (off < 0x100000 → off % 8 = 0 → counterAssigned off = true → s.counterHidden die off = false → ∃ u, exec (.memoryCounterClear die off 0) s = .next u ∧ u.mem = s.mem
        ∧ assocGet u.counters (die, off) = some 0)
    ∧ (who.fn = 0 → ∀ k < 168, ∀ i < 16, s.shielded who die k = false →
        (∃ u, exec (.cellWrite who die (0x100000 + 0x1000 * k + 8 * i) v) s = .next u ∧ u.mem = s.mem ∧ u.regs = s.regs
          ∧ u.obsWord die (0x100000 + 0x1000 * k + 8 * i) = v &&& 0xFFFF0003FFFF0007)
        ∧ (∀ j < 64, ∃ u, exec (.registerWrite who (0x10900204 + 0x400000 * die + 0x1000 * k + 8 * j) 0) s = .next u ∧ u.mem = s.mem ∧ u.regs = s.regs
          ∧ wfld (u.obsWord die (0x100200 + 0x1000 * k + 8 * j)) 32 32 = 0
          ∧ wfld (u.obsWord die (0x100200 + 0x1000 * k + 8 * j)) 0 32 = wfld (s.obsWord die (0x100200 + 0x1000 * k + 8 * j)) 0 32)
        ∧ ∃ u, exec (.traceControlWrite who (168 * die + k) (v &&& ~~~1)) s = .next u ∧ u.mem = s.mem ∧ u.regs = s.regs
          ∧ u.traced { die := die, cluster := k / 4, core := k % 4 } = false)
    ∧ (who.fn = 0 → ∀ k < 168, s.shielded who die k = false →
        let core : CoreId := { die := die, cluster := k / 4, core := k % 4 }
        ∃ u, exec (.traceControlWrite who (168 * die + k) (v ||| 1)) s = .next u ∧ u.regs = s.regs ∧ u.traced core = true ∧ (s.traced core = true → u.mem = s.mem)
          ∧ (s.traced core = false → u = (s.setObs die (0x100000 + 0x1000 * k + 0xF00) 1).emitSync die (coreStreams core)))
    ∧ (∀ x, minBy Snap.seq (s.snaps.filter fun y => y.die == die) = some x → ∃ u, exec (.snapshotMessage die) s = .next u ∧ u.snaps = s.snaps.erase x
        ∧ u.regs = s.regs)
    ∧ (∀ secure r, s.posts.find? (s.postable secure) = some r → s.ringTakes (ringIndex secure true) = true → ∃ u, exec (.faultRecordPost secure) s = .next u
        ∧ u.posts = s.posts.erase r ∧ (ringIndex secure true < s.rings.length → (u.ringN (ringIndex secure true)).rtail = (s.ringN (ringIndex secure true)).rtail + 1))
    ∧ (∀ n q, s.queueOf who n = some q → n < 4096 → s.hostRead who (64 * n + 0x30) = some 0 ∧ s.hostRead who (64 * n + 8) = some (s.queue q).base)
    ∧ (who.fn = 0 → s.hostRead who 0x40008 = some 0 ∧ s.hostRead who (0x100200 + 0x10000 * die) = some 0)
    ∧ (who.secure = false → ∀ i, 2 ≤ i → i < 4 → ∀ x ∈ [0, 8, 0x10, 0x20, 0x48, 0x50, 0x58, 0x60],
        s.hostRead who (if x < 0x40 then 0x80000 + 0x100 * i + x else 0x100000 + 0x10000 * die + x) = some 0)
    ∧ (who.fn = 0 → ∃ u, exec (.containmentReset who die v) s = .next u ∧ ∀ c ∈ s.crews, c.die = die → c.cluster < 42 → wbit v c.cluster = true →
        (who.secure = true ∨ c.secure = false) → u.crew? c.id = none)

/-! ### Links, replay, boot, power (R12, R341, R342, R398, R404 to R406, R408, R410) -/

/-- R341, R342, R404, R406: a dropped message is held, one refusal more, until its back-off is over, and counted at the port that dropped it, on a die of
its way that has that port; of the later messages of its port to its receiver each has been accepted already or is held behind it. After the back-off a
port's oldest held message is on its way again, and no later one to its receiver before it. A peer whose links go down is marked, and the collectives that
wait for it and the copies that name it and have not read everything end with ECODE 7; a link that comes up ends the mark. A PCIe link trains to a
generation and a width that R398 allows, and goes down; a completion that does not come raises cause 6 in the waiting lane. Which die's port drops is log
7, what stands in a window is log 66, and what a link keeps when it goes down and a timeout after the host has performed are log 70. -/
def Obligations.LinkMoves : Prop :=
  ∀ (s : State),
    (∀ port m, s.msg? m.id = some m → (s.msgs.map Msg.id).Nodup → s.arrivesAt m port ≠ [] → m.held = false → m.accepted = false → m.phase ≠ .posted →
      let due := s.clk (portDie m) + backoffClocks (s.die (portDie m)).backoff (m.tries + 1)
      let behind (o : Msg) : Prop := o ∈ s.window m.sender ∧ m.id < o.id ∧ o.held = false ∧ m.sameReceiver o = true
      ∃ u die, die ∈ s.arrivesAt m port ∧ exec (.messageDrop port m.id) s = .next u ∧ u.mem = s.mem ∧ u.regs = s.regs
        ∧ u.msg? m.id = some { m with held := true, tries := m.tries + 1, due := due }
        ∧ assocGet u.counters (die, 0x8000 + 8 * port) = some ((assocGet s.counters (die, 0x8000 + 8 * port)).getD 0 + 1)
        ∧ ∀ o ∈ s.msgs, o.id ≠ m.id → (¬behind o → u.msg? o.id = some o)
            ∧ (behind o → u.msg? o.id = some { o with accepted := true } ∨ u.msg? o.id = some { o with held := true, due := max o.due due }))
    ∧ (∀ port m rest, (s.window port).filter Msg.held = m :: rest → m.due ≤ s.clk (portDie m) → (∀ o ∈ rest, m.id < o.id) → s.replays = [] →
      ∃ u, exec (.replayResend port) s = .next u ∧ u.mem = s.mem ∧ u.regs = s.regs
        ∧ u.msgs = s.msgs.map fun o => if o.id = m.id then { o with held := false } else o)
    ∧ (∀ port m o, (s.window port).filter Msg.held = [m, o] → s.clk (portDie m) < m.due → m.id < o.id → o.sameReceiver m = true → s.replays = [] →
      exec (.replayResend port) s = .next s)
    ∧ (∀ peer, peer < 256 → ∃ u, exec (.peerLinkDown peer) s = .next u ∧ u.regs = s.regs ∧ peer ∈ u.peersDown
      ∧ ∀ k ∈ s.cmds, k.planned = false → (k.kind = .coll ∧ peer ∈ k.peers) ∨ (k.kind = .copy ∧ s.namesPeer k peer = true) →
        (∀ x ∈ s.cmds, x.id = k.id → x.done = false) → k.failed 7 ∈ u.cmds)
    ∧ (∀ peer, ∃ u, exec (.ualinkLinkUp peer) s = .next u ∧ u.mem = s.mem ∧ u.regs = s.regs ∧ u.peersDown = s.peersDown.filter (· ≠ peer))
    ∧ (∀ link gen width, s.up = true → link < s.links.length → link < 2 → 5 ≤ gen → gen ≤ 7 → width = 16 ∨ width = 8 ∨ width = 4 →
      ∃ u, exec (.pcieLinkTrain link gen width) s = .next u ∧ u.mem = s.mem ∧ u.regs = s.regs ∧ u.links[link]? = some { up := true, gen := gen, width := width })
    ∧ (∀ link l, s.links[link]? = some l → ∃ u, exec (.pcieLinkDown link) s = .next u ∧ u.mem = s.mem ∧ u.regs = s.regs
        ∧ u.links[link]? = some { l with up := false })
    ∧ ∀ m x e t, s.msg? m.id = some m → m.point = .pcie → m.held = false → m.phase = .out ∨ m.phase = .back → m.kind = .load → m.acts = [x] →
        s.strand? m.crew m.sid = some t → s.entry? m.crew m.sid m.entry = some e → e.undone.getLsbD x.lane = true → e.faults = [] → x.lane < 32 →
        ∃ u y, exec (.pcieCompletionTimeout (.msg m.id)) s = .next u ∧ u.mem = s.mem ∧ u.regs = s.regs ∧ u.msg? m.id = none
          ∧ u.entry? m.crew m.sid m.entry = some y ∧ y.faults.map (fun f => (f.lane, f.cause)) = [(x.lane, 6)] ∧ y.sent.getLsbD x.lane = false

/-- R12, R408, R410: a boot whose signature verifies brings the part up with M0 the digest of the firmware, M1 zero and the firmware's region table; one
whose signature fails leaves it down with bit 0 of the status set. An attestation names the nonce, both measurements and the digest of the region table. A
thermal trip leaves no crew and a part that is down; the power limit is reached and released. The places of the status bits, and that memory keeps its
bytes over a trip, are the model's (log 26). -/
def Obligations.BootAndPower : Prop :=
  ∀ (s : State) (fw : Firmware) (nonce : BitVec 256),
    (s.up = false → ∃ u, exec (.boot fw) s = .next u ∧ u.mem = s.mem ∧ u.crews = s.crews ∧ u.status.getLsbD 1 = s.tripped
      ∧ if Config.sm2Verify Config.vendorKey (Config.sm3 fw.image) fw.sig then
          u.up = true ∧ u.m0 = Config.sm3 fw.image ∧ u.m1 = 0 ∧ u.status.getLsbD 0 = false ∧ u.regions.length = 64
          ∧ ∀ i < 64, ∀ r, fw.regions[i]? = some r → u.regions[i]? = some (r.1 &&& 0xFFFFFFFE00003, r.2 &&& 0xFFFFFFFE00000)
        else u.up = false ∧ u.status.getLsbD 0 = true)
    ∧ (s.hostIn = true → ∃ u b, exec (.attestationRequest nonce) s = .next u ∧ u.mem = s.mem ∧ u.report = some (b ++ Config.sm2Sign b)
      ∧ b = digestBytes nonce ++ digestBytes s.m0 ++ digestBytes s.m1 ++ digestBytes (Config.sm3 s.regionBytes) ++ Config.serial)
    ∧ (∃ u, exec .thermalTrip s = .next u ∧ u.crews = [] ∧ u.saved = [] ∧ u.up = false ∧ u.tripped = true ∧ u.mem = s.mem)
    ∧ (∃ u, exec .powerLimitReached s = .next u ∧ u.limited = true ∧ u.mem = s.mem ∧ u.regs = s.regs)
    ∧ ∃ u, exec .powerLimitReleased s = .next u ∧ u.limited = false ∧ u.mem = s.mem ∧ u.regs = s.regs

/-! ### The machine as a whole -/

/-- R3, R46, R62, R64: where a stream holds the issue slot inside a clause, and the next word of that clause decodes to an instruction, a step runs that
instruction in the surroundings of that very word. That moves come from an agenda, and words from the stream that holds the slot, is the model's choice
(logs 3 and 6): with the slot free a step runs the agenda's first move, which leaves the agenda, and with nothing to do it changes nothing. -/
def Obligations.StepRunsDecoded : Prop :=
  (∀ (s : State) (c : Ctx) (i : Instr), s.ctx? i.pre = some c → decode c.word = some i → step s = exec i s ∧ c.cl.words[c.cl.pos]? = some c.word
      ∧ c.addr = c.path.pc + BitVec.ofNat 64 (8 * (c.cl.pos + 1)))
  ∧ (∀ (s : State) (i : Instr) (l : List Instr), s.slot = none → s.agenda = i :: l → i.isWord = false →
      ∃ s', step s = exec i s' ∧ s'.agenda = l ∧ { s' with agenda := s.agenda, stalls := s.stalls } = s)
  ∧ ∀ s : State, s.slot = none → s.agenda = [] → step s = .next s

/-- R310, R329, R342, R406, R408: what the spec says of the machine after reset: every work-queue field is 0, BACKOFF is MAXEXP 6 and BASE 16, the groups'
words are 0, the clocks count from 0, and the part is held in reset with no link trained until a boot. The other registers are 0 by the model's choice (log
1), and memory lists nothing (log 2), which is the canonical form. -/
def Obligations.ResetValues : Prop :=
  (∀ q, let x := State.reset.queue q
    x.asid = 0 ∧ x.log2n = 0 ∧ x.privok = false ∧ x.nopreok = false ∧ x.world = false ∧ x.kind = false ∧ x.en = false ∧ x.base = 0 ∧ x.head = 0 ∧ x.tail = 0
      ∧ x.savebase = 0 ∧ x.savecount = 0 ∧ x.stride = 0 ∧ x.bind = false ∧ x.err = false ∧ x.exh = false ∧ x.exhlim = 0)
  ∧ (∀ d, d < 4 → wfld (State.reset.die d).backoff 8 4 = 6 ∧ wfld (State.reset.die d).backoff 0 8 = 16 ∧ State.reset.clk d = 0
      ∧ ∀ g, State.reset.group d g = none)
  ∧ State.reset.up = false ∧ State.reset.crews = [] ∧ State.reset.hostIn = false ∧ (∀ a, State.reset.memByte a = 0) ∧ State.reset.mem = [] ∧ Memory.wf State.reset.mem

/-- R57, R91, R93, R95: outside a handler and outside the alias view, register n of lane l of wave w of a team whose area begins at BASE0 is the word at
BASE0 + ((w·LIMIT + n)·32 + l)·4, and in a handler register k is the word at BASE3 + (8w + k)·128 + 4l. A 32-bit operand reads that word, and a 64-bit one
the pair, low half first. A destination of a 32-bit type holds the value written to it, a 64-bit value stands in a pair with its low half first, and every
other word of the register space of every core is as it was. -/
def Obligations.VectorRegisters : Prop :=
  ∀ (s : State) (c : Ctx) (tm : Team) (n : BitVec 8) (l : Nat) (v : Word), c.team = some tm → c.isG = false → c.isP = false →
    (∀ k, sparseWf 0 ((assocGet s.regs k).getD []) = true) → tm.base0 % 4 = 0 → tm.base3 % 4 = 0 → (c.inH = true ∨ c.aliased n.toNat = false) →
    (c.inH = true ∨ c.aliased (n.toNat + 1) = false) →
    let at_ (k : Nat) : Nat := if c.inH then tm.base3 + (c.wave * 8 + k) * 128 + l * 4 else tm.base0 + ((c.wave * c.crew.desc.w0lim + k) * 32 + l) * 4
    (∀ ty : Ty, (ty.is64 = false → c.read ty (.v n) l = (c.s0.regWord c.core (at_ n.toNat)).setWidth 64)
      ∧ (ty.is64 = true → c.read ty (.v n) l = c.s0.regWord c.core (at_ (n.toNat + 1)) ++ c.s0.regWord c.core (at_ n.toNat)))
    ∧ (let u := c.write .n32 (.v n) l v s;
      u.regWord c.core (at_ n.toNat) = v.setWidth 32 ∧ u.mem = s.mem
        ∧ ∀ k a, k ≠ c.core ∨ a / 4 ≠ at_ n.toNat / 4 → u.regWord k a = s.regWord k a)
    ∧ (let u := c.write .n64 (.v n) l v s;
      u.regWord c.core (at_ n.toNat) = v.extractLsb' 0 32 ∧ u.regWord c.core (at_ (n.toNat + 1)) = v.extractLsb' 32 32 ∧ u.mem = s.mem
        ∧ ∀ k a, k ≠ c.core ∨ (a / 4 ≠ at_ n.toNat / 4 ∧ a / 4 ≠ at_ (n.toNat + 1) / 4) → u.regWord k a = s.regWord k a)

/-- R52, R64: every well-formed instruction has a word that decodes to it, with every operand at every value that its encoding admits; and a word that
decodes is the word of the instruction that it decodes to, so that no bit of a word is without a meaning. -/
def Obligations.DecodeEncode : Prop :=
  (∀ i : Instr, i.wellFormed = true → ∃ w, encode i = some w ∧ decode w = some i) ∧ ∀ (w : Word) (i : Instr), decode w = some i → encode i = some w

/-- R52 to R62: words that the spec writes out, or that are written out here from its encodings, decode to the instructions that they stand for; OP 0xFE,
which is a clause header's, decodes to none. -/
def Obligations.DecodingSanity : Prop :=
  let p : Pre := ⟨15, false, 0⟩
  decode 0x2D30F00100034560 = some (.movi p .n64 (.v 4) 0x34560) ∧ decode 0x3002F00080381400 = some (.icmp p .i32 .lt 2 (.v 3) (.k 5))
  ∧ decode 0x0300F00280000004 = some (.call p false (.v 10) 4) ∧ decode 0xC300F0480102E000 = some (.tmma p 1 2 0 1 2 true true true false)
  ∧ decode 0xC000F00000401803 = some (.tres p 3 (.v 4) (.v 6)) ∧ decode 0xD000F0000000002A = some (.trap p 0x2A)
  ∧ decode 0xD200F00000000000 = some (.hret p) ∧ decode 0xA000F00100201800 = some (.spawn p (.v 4) (.v 2) (.v 6))
  ∧ decode 0x7010F00200200400 = some (.ld p .n32 (.sized .nat) (.v 8) (.v 2) 0x40 0) ∧ decode 0xFE00F00000000000 = none

/-- The canonical form of memory is the model's own choice, and no rule of the spec (log 2): no step loses the form in which the model lists the bytes of
memory (R218), so that equal memories are equal data. -/
def Obligations.MemoryFormKept : Prop :=
  ∀ s s' : State, Memory.wf s.mem → step s = .next s' → Memory.wf s'.mem

/-- R99, R57: p0 to p14 of each thread and every g register are 0 at allocation. p15 reads 1 in every lane, and a write to it changes nothing; a write of a
predicate changes that bit of that thread, and a read is of that bit. A 32-bit operand reads bits [31:0] of a g register, and a 32-bit result zero-extends
into all 64 bits; a 64-bit operand and result take the register whole, and no other g register changes. -/
def Obligations.PredicatesAndGRegisters : Prop :=
  (∀ sid slot w2 clk n ps l, (Strand.fresh sid slot w2 clk n ps).g = [] ∧ ((Strand.fresh sid slot w2 clk n ps).thread l).pred = 0)
  ∧ (∀ (s : State) (c : Ctx) (f : PField) (l : Nat) (b : Bool), (f.toNat % 16 = 15 → c.pred f l = true ∧ c.setPred f l b s = s)
    ∧ (f.toNat % 16 < 15 → c.isP = false → c.pred f l = (c.t.thread l).pred.getLsbD (f.toNat % 16))
    ∧ (f.toNat % 16 < 15 → c.isP = false → l < c.t.threads.length → s.strand? c.id c.sid = some c.t → ∃ t, (c.setPred f l b s).strand? c.id c.sid = some t
      ∧ ∀ k q, (t.thread k).pred.getLsbD q = if k = l ∧ q = f.toNat % 16 then b else (c.t.thread k).pred.getLsbD q))
  ∧ ∀ (s : State) (c : Ctx) (n m : BitVec 8) (l : Nat) (v : Word), s.strand? c.id c.sid = some c.t →
    c.read .n64 (.g n) l = (assocGet c.t.g n.toNat).getD 0 ∧ (c.read .n32 (.g n) l).toNat = ((assocGet c.t.g n.toNat).getD 0).toNat % 2 ^ 32
    ∧ ∃ t u, (c.write .n32 (.g n) l v s).strand? c.id c.sid = some t ∧ (c.write .n64 (.g n) l v s).strand? c.id c.sid = some u
      ∧ (assocGet t.g n.toNat).getD 0 = BitVec.ofNat 64 (v.toNat % 2 ^ 32) ∧ (assocGet u.g n.toNat).getD 0 = v
      ∧ (m ≠ n → assocGet t.g m.toNat = assocGet c.t.g m.toNat ∧ assocGet u.g m.toNat = assocGet c.t.g m.toNat)
end

