-- ==== Sys2Proof/Laws/Assoc.lean ====
section
/-! SUPPORT. What the finite maps do: reads after writes, and the canonical form of sparse maps is kept. -/

namespace Sys2Proof.Machine

theorem sparseWfFrom_lower {α : Type} [DecidableEq α] {d : α} {m : List (Nat × α)} {k : Nat} (h : sparseWfFrom d (some k) m = true) :
    ∀ a, a ≤ k → sparseGet d m a = d := by
  induction m generalizing k with
  | nil => intro a _; rfl
  | cons p m ih =>
    intro a ha
    obtain ⟨x, v⟩ := p
    simp only [sparseWfFrom, Bool.and_eq_true, decide_eq_true_eq] at h
    obtain ⟨⟨hx, -⟩, -⟩ := h
    simp only [sparseGet]
    rw [if_neg (by omega), if_pos (by omega)]

theorem sparseWfFrom_mono {α : Type} [DecidableEq α] {d : α} {m : List (Nat × α)} {lo : Option Nat} {k : Nat}
    (h : sparseWfFrom d (some k) m = true) (hlo : ∀ l, lo = some l → l ≤ k) : sparseWfFrom d lo m = true := by
  cases m with
  | nil => rfl
  | cons p m =>
    obtain ⟨x, v⟩ := p
    simp only [sparseWfFrom, Bool.and_eq_true, decide_eq_true_eq] at h ⊢
    obtain ⟨⟨hx, hv⟩, hm⟩ := h
    refine ⟨⟨?_, hv⟩, hm⟩
    cases lo with
    | none => rfl
    | some l => have := hlo l rfl; simp; omega

/-- Writing keeps the canonical form above a bound that the written key respects. -/
theorem sparseWfFrom_set {α : Type} [DecidableEq α] {d : α} {m : List (Nat × α)} {lo : Option Nat} (a : Nat) (v : α)
    (h : sparseWfFrom d lo m = true) (hlo : ∀ l, lo = some l → l < a) : sparseWfFrom d lo (sparseSet d m a v) = true := by
  induction m generalizing lo with
  | nil =>
    simp only [sparseSet]
    split
    · rfl
    · rename_i hv
      simp only [sparseWfFrom, Bool.and_eq_true, decide_eq_true_eq, and_true]
      refine ⟨?_, hv⟩
      cases lo with
      | none => rfl
      | some l => simpa using hlo l rfl
  | cons p m ih =>
    obtain ⟨x, w⟩ := p
    have h' := h
    simp only [sparseWfFrom, Bool.and_eq_true, decide_eq_true_eq] at h'
    obtain ⟨⟨hx, hw⟩, hm⟩ := h'
    simp only [sparseSet]
    split
    · rename_i hax
      split
      · exact h
      · rename_i hv
        simp only [sparseWfFrom, Bool.and_eq_true, decide_eq_true_eq]
        refine ⟨⟨?_, hv⟩, ⟨⟨hax, hw⟩, hm⟩⟩
        cases lo with
        | none => rfl
        | some l => simpa using hlo l rfl
    · split
      · rename_i hax
        subst hax
        split
        · exact sparseWfFrom_mono hm (fun l hl => le_of_lt (hlo l hl))
        · rename_i hv
          simp only [sparseWfFrom, Bool.and_eq_true, decide_eq_true_eq]
          exact ⟨⟨hx, hv⟩, hm⟩
      · simp only [sparseWfFrom, Bool.and_eq_true, decide_eq_true_eq]
        refine ⟨⟨hx, hw⟩, ih hm ?_⟩
        intro l hl; cases hl; omega

/-- Writing keeps the canonical form. -/
theorem sparseWf_set {α : Type} [DecidableEq α] {d : α} {m : List (Nat × α)} (a : Nat) (v : α) (h : sparseWf d m = true) :
    sparseWf d (sparseSet d m a v) = true := sparseWfFrom_set a v h (by intro l hl; cases hl)

/-- A read elsewhere gives what it gave before a write. -/
theorem sparseGet_set_ne {α : Type} [DecidableEq α] {d : α} {m : List (Nat × α)} {lo : Option Nat} {a b : Nat} (v : α)
    (h : sparseWfFrom d lo m = true) (hab : b ≠ a) : sparseGet d (sparseSet d m a v) b = sparseGet d m b := by
  induction m generalizing lo with
  | nil =>
    simp only [sparseSet]
    split
    · rfl
    · simp only [sparseGet]; rw [if_neg (Ne.symm hab)]; simp
  | cons p m ih =>
    obtain ⟨x, w⟩ := p
    simp only [sparseWfFrom, Bool.and_eq_true, decide_eq_true_eq] at h
    obtain ⟨⟨-, -⟩, hm⟩ := h
    simp only [sparseSet]
    split
    · rename_i hax
      split
      · rfl
      · simp only [sparseGet]
        rw [if_neg (Ne.symm hab)]
        split
        · rw [if_neg (by omega), if_pos (by omega)]
        · rfl
    · split
      · rename_i hax
        subst hax
        split
        · simp only [sparseGet]
          rw [if_neg (Ne.symm hab)]
          split
          · exact sparseWfFrom_lower hm b (by omega)
          · rfl
        · simp only [sparseGet]
          rw [if_neg (Ne.symm hab)]
          rw [if_neg (Ne.symm hab)]
      · simp only [sparseGet]
        split
        · rfl
        · split
          · rfl
          · exact ih hm

/-- A read after a write to the same place gives the value written. -/
theorem sparseGet_set_same {α : Type} [DecidableEq α] {d : α} {m : List (Nat × α)} {lo : Option Nat} (a : Nat) (v : α)
    (h : sparseWfFrom d lo m = true) : sparseGet d (sparseSet d m a v) a = v := by
  induction m generalizing lo with
  | nil =>
    simp only [sparseSet]
    split
    · rename_i hv; rw [hv]; rfl
    · simp [sparseGet]
  | cons p m ih =>
    obtain ⟨x, w⟩ := p
    simp only [sparseWfFrom, Bool.and_eq_true, decide_eq_true_eq] at h
    obtain ⟨⟨-, -⟩, hm⟩ := h
    simp only [sparseSet]
    split
    · rename_i hax
      split
      · rename_i hv
        simp only [sparseGet]
        rw [if_neg (by omega), if_pos hax, hv]
      · simp [sparseGet]
    · split
      · rename_i hax
        subst hax
        split
        · rename_i hv
          rw [hv]
          exact sparseWfFrom_lower hm a (le_refl a)
        · simp [sparseGet]
      · simp only [sparseGet]
        rw [if_neg (by omega), if_neg (by omega)]
        exact ih hm

end Sys2Proof.Machine
end

