-- ==== Sys2Proof/Laws/Encoding.lean ====
section
/-! SUPPORT. Small lemmas of the codes, the formats and the prefix: each reads back what was laid out. -/

set_option linter.unusedSimpArgs false

namespace Sys2Proof

@[simp] theorem Ty.ofCode_code (t : Ty) : Ty.ofCode t.code = some t := by cases t <;> rfl
@[simp] theorem Rm.ofCode_code (r : Rm) : Rm.ofCode r.code = r := by cases r <;> rfl
@[simp] theorem Rm.ofM_m (r : Rm) : Rm.ofM r.m = some r := by cases r <;> rfl
@[simp] theorem Scope.ofCode_code (s : Scope) : Scope.ofCode s.code = some s := by cases s <;> rfl
@[simp] theorem Scope.ofM_m (s : Scope) : Scope.ofM s.m = some s := by cases s <;> rfl
@[simp] theorem flagOfM_flagM (b : Bool) : flagOfM (flagM b) = some b := by cases b <;> rfl
@[simp] theorem Cmp.ofM_m (c : Cmp) : Cmp.ofM c.m = some c := by cases c <;> rfl
@[simp] theorem FCmp.ofM_m (c : FCmp) : FCmp.ofM c.m = some c := by cases c <;> rfl
@[simp] theorem Shfl.ofM_m (c : Shfl) : Shfl.ofM c.m = some c := by cases c <;> rfl
@[simp] theorem Vote.ofM_m (c : Vote) : Vote.ofM c.m = some c := by cases c <;> rfl
@[simp] theorem Lred.ofM_m (c : Lred) : Lred.ofM c.m = some c := by cases c <;> rfl
@[simp] theorem AtomOp.ofM_m (c : AtomOp) : AtomOp.ofM c.m = some c := by cases c <;> rfl
@[simp] theorem Size.ofM_m (z : Size) : Size.ofM z.m = some z := by cases z <;> rfl
@[simp] theorem SldSize.ofCode_code (z : SldSize) : SldSize.ofCode z.code = some z := by cases z <;> rfl
@[simp] theorem MemMode.ofM_m (m : MemMode) : MemMode.ofM m.m = some m := by
  cases m with
  | sized z => cases z <;> rfl
  | ordered s => cases s <;> rfl

/-- Bits of a concatenation that lie in its low part. -/
theorem extract_append_low {n m : Nat} (x : BitVec n) (y : BitVec m) (s k : Nat) (h : s + k ≤ m) :
    (x ++ y).extractLsb' s k = y.extractLsb' s k := by
  ext i hi
  simp only [BitVec.getElem_extractLsb', BitVec.getLsbD_append]
  rw [if_pos (by omega)]

/-- Bits of a concatenation that lie in its high part. -/
theorem extract_append_high {n m : Nat} (x : BitVec n) (y : BitVec m) (s k : Nat) (h : m ≤ s) :
    (x ++ y).extractLsb' s k = x.extractLsb' (s - m) k := by
  ext i hi
  simp only [BitVec.getElem_extractLsb', BitVec.getLsbD_append]
  rw [if_neg (by omega)]
  congr 1; omega

theorem extract_all {n : Nat} (x : BitVec n) : x.extractLsb' 0 n = x := by
  ext i hi
  simp

@[simp] theorem Opd.ofBits_bits (o : Opd) : Opd.ofBits o.bits = o := by
  cases o <;>
    simp (disch := decide) only [Opd.ofBits, Opd.bits, extract_append_low, extract_append_high, Nat.reduceSub, extract_all] <;> rfl

@[simp] theorem bit_eq_one (b : Bool) : (bit b == 1) = b := by cases b <;> rfl

@[simp] theorem Fields.ofWord_word (f : Fields) : Fields.ofWord f.word = f := by
  cases f
  simp (disch := decide) only [Fields.ofWord, Fields.word, extract_append_low, extract_append_high, Nat.reduceSub, extract_all]

@[simp] theorem Pre.fields_pre (p : Pre) (op : BitVec 8) (t m : BitVec 4) (ub : BitVec 1) (e : BitVec 40) :
    (p.fields op t m ub e).pre = p := by
  cases p; simp only [Pre.fields, Fields.pre, bit_eq_one]

@[simp] theorem fmtR_at30 (d a b c : BitVec 10) : (fmtR d a b c).extractLsb' 30 10 = d := by
  simp (disch := decide) only [fmtR, extract_append_low, extract_append_high, Nat.reduceSub, extract_all]
@[simp] theorem fmtR_at20 (d a b c : BitVec 10) : (fmtR d a b c).extractLsb' 20 10 = a := by
  simp (disch := decide) only [fmtR, extract_append_low, extract_append_high, Nat.reduceSub, extract_all]
@[simp] theorem fmtR_at10 (d a b c : BitVec 10) : (fmtR d a b c).extractLsb' 10 10 = b := by
  simp (disch := decide) only [fmtR, extract_append_low, extract_append_high, Nat.reduceSub, extract_all]
@[simp] theorem fmtR_at0 (d a b c : BitVec 10) : (fmtR d a b c).extractLsb' 0 10 = c := by
  simp (disch := decide) only [fmtR, extract_append_low, extract_append_high, Nat.reduceSub, extract_all]

@[simp] theorem fmtI_at30 (d a : BitVec 10) (i : BitVec 20) : (fmtI d a i).extractLsb' 30 10 = d := by
  simp (disch := decide) only [fmtI, extract_append_low, extract_append_high, Nat.reduceSub, extract_all]
@[simp] theorem fmtI_at20 (d a : BitVec 10) (i : BitVec 20) : (fmtI d a i).extractLsb' 20 10 = a := by
  simp (disch := decide) only [fmtI, extract_append_low, extract_append_high, Nat.reduceSub, extract_all]
@[simp] theorem fmtI_at0 (d a : BitVec 10) (i : BitVec 20) : (fmtI d a i).extractLsb' 0 20 = i := by
  simp (disch := decide) only [fmtI, extract_append_low, extract_append_high, Nat.reduceSub, extract_all]

@[simp] theorem fmtB_at30 (a : BitVec 10) (o : BitVec 30) : (fmtB a o).extractLsb' 30 10 = a := by
  simp (disch := decide) only [fmtB, extract_append_low, extract_append_high, Nat.reduceSub, extract_all]
@[simp] theorem fmtB_at0 (a : BitVec 10) (o : BitVec 30) : (fmtB a o).extractLsb' 0 30 = o := by
  simp (disch := decide) only [fmtB, extract_append_low, extract_append_high, Nat.reduceSub, extract_all]

@[simp] theorem fmtMem_at30 (d a : BitVec 10) (o : BitVec 16) (t : BitVec 1) (h : BitVec 3) : (fmtMem d a o t h).extractLsb' 30 10 = d := by
  simp (disch := decide) only [fmtMem, extract_append_low, extract_append_high, Nat.reduceSub, extract_all]
@[simp] theorem fmtMem_at20 (d a : BitVec 10) (o : BitVec 16) (t : BitVec 1) (h : BitVec 3) : (fmtMem d a o t h).extractLsb' 20 10 = a := by
  simp (disch := decide) only [fmtMem, extract_append_low, extract_append_high, Nat.reduceSub, extract_all]
@[simp] theorem fmtMem_at4 (d a : BitVec 10) (o : BitVec 16) (t : BitVec 1) (h : BitVec 3) : (fmtMem d a o t h).extractLsb' 4 16 = o := by
  simp (disch := decide) only [fmtMem, extract_append_low, extract_append_high, Nat.reduceSub, extract_all]
@[simp] theorem fmtMem_at3 (d a : BitVec 10) (o : BitVec 16) (t : BitVec 1) (h : BitVec 3) : (fmtMem d a o t h).extractLsb' 3 1 = t := by
  simp (disch := decide) only [fmtMem, extract_append_low, extract_append_high, Nat.reduceSub, extract_all]
@[simp] theorem fmtMem_at0 (d a : BitVec 10) (o : BitVec 16) (t : BitVec 1) (h : BitVec 3) : (fmtMem d a o t h).extractLsb' 0 3 = h := by
  simp (disch := decide) only [fmtMem, extract_append_low, extract_append_high, Nat.reduceSub, extract_all]

@[simp] theorem fmtP_at30 (d a : BitVec 10) (p : BitVec 8) (f : BitVec 4) : (fmtP d a p f).extractLsb' 30 10 = d := by
  simp (disch := decide) only [fmtP, extract_append_low, extract_append_high, Nat.reduceSub, extract_all]
@[simp] theorem fmtP_at20 (d a : BitVec 10) (p : BitVec 8) (f : BitVec 4) : (fmtP d a p f).extractLsb' 20 10 = a := by
  simp (disch := decide) only [fmtP, extract_append_low, extract_append_high, Nat.reduceSub, extract_all]
@[simp] theorem fmtP_at12 (d a : BitVec 10) (p : BitVec 8) (f : BitVec 4) : (fmtP d a p f).extractLsb' 12 8 = p := by
  simp (disch := decide) only [fmtP, extract_append_low, extract_append_high, Nat.reduceSub, extract_all]
@[simp] theorem fmtP_at8 (d a : BitVec 10) (p : BitVec 8) (f : BitVec 4) : (fmtP d a p f).extractLsb' 8 4 = f := by
  simp (disch := decide) only [fmtP, extract_append_low, extract_append_high, Nat.reduceSub, extract_all]
@[simp] theorem fmtP_at0 (d a : BitVec 10) (p : BitVec 8) (f : BitVec 4) : (fmtP d a p f).extractLsb' 0 8 = 0#8 := by
  simp (disch := decide) only [fmtP, extract_append_low, extract_append_high, Nat.reduceSub, extract_all]

@[simp] theorem fmtG_at38 (c : BitVec 2) (t : BitVec 4) (a b : BitVec 5) (k f : BitVec 8) : (fmtG c t a b k f).extractLsb' 38 2 = c := by
  simp (disch := decide) only [fmtG, extract_append_low, extract_append_high, Nat.reduceSub, extract_all]
@[simp] theorem fmtG_at34 (c : BitVec 2) (t : BitVec 4) (a b : BitVec 5) (k f : BitVec 8) : (fmtG c t a b k f).extractLsb' 34 4 = t := by
  simp (disch := decide) only [fmtG, extract_append_low, extract_append_high, Nat.reduceSub, extract_all]
@[simp] theorem fmtG_at29 (c : BitVec 2) (t : BitVec 4) (a b : BitVec 5) (k f : BitVec 8) : (fmtG c t a b k f).extractLsb' 29 5 = a := by
  simp (disch := decide) only [fmtG, extract_append_low, extract_append_high, Nat.reduceSub, extract_all]
@[simp] theorem fmtG_at24 (c : BitVec 2) (t : BitVec 4) (a b : BitVec 5) (k f : BitVec 8) : (fmtG c t a b k f).extractLsb' 24 5 = b := by
  simp (disch := decide) only [fmtG, extract_append_low, extract_append_high, Nat.reduceSub, extract_all]
@[simp] theorem fmtG_at16 (c : BitVec 2) (t : BitVec 4) (a b : BitVec 5) (k f : BitVec 8) : (fmtG c t a b k f).extractLsb' 16 8 = k := by
  simp (disch := decide) only [fmtG, extract_append_low, extract_append_high, Nat.reduceSub, extract_all]
@[simp] theorem fmtG_at8 (c : BitVec 2) (t : BitVec 4) (a b : BitVec 5) (k f : BitVec 8) : (fmtG c t a b k f).extractLsb' 8 8 = f := by
  simp (disch := decide) only [fmtG, extract_append_low, extract_append_high, Nat.reduceSub, extract_all]
@[simp] theorem fmtG_at0 (c : BitVec 2) (t : BitVec 4) (a b : BitVec 5) (k f : BitVec 8) : (fmtG c t a b k f).extractLsb' 0 8 = 0#8 := by
  simp (disch := decide) only [fmtG, extract_append_low, extract_append_high, Nat.reduceSub, extract_all]

end Sys2Proof
end

