-- ==== Sys2Proof/Laws/State.lean ====
section
/-! SUPPORT. What each named update of the state leaves in each field, so that no proof unfolds a record update; and that every write of memory
keeps the canonical form and every other byte. -/

namespace Sys2Proof.Machine

/-! ### modCrew -/

@[simp] theorem State.modCrew_agenda (s : State) (i : Nat) (f : Crew → Crew) : (s.modCrew i f).agenda = s.agenda := rfl
@[simp] theorem State.modCrew_slot (s : State) (i : Nat) (f : Crew → Crew) : (s.modCrew i f).slot = s.slot := rfl
@[simp] theorem State.modCrew_free (s : State) (i : Nat) (f : Crew → Crew) : (s.modCrew i f).free = s.free := rfl
@[simp] theorem State.modCrew_ids (s : State) (i : Nat) (f : Crew → Crew) : (s.modCrew i f).ids = s.ids := rfl
@[simp] theorem State.modCrew_stalls (s : State) (i : Nat) (f : Crew → Crew) : (s.modCrew i f).stalls = s.stalls := rfl
@[simp] theorem State.modCrew_mem (s : State) (i : Nat) (f : Crew → Crew) : (s.modCrew i f).mem = s.mem := rfl
@[simp] theorem State.modCrew_lost (s : State) (i : Nat) (f : Crew → Crew) : (s.modCrew i f).lost = s.lost := rfl
@[simp] theorem State.modCrew_corrected (s : State) (i : Nat) (f : Crew → Crew) : (s.modCrew i f).corrected = s.corrected := rfl
@[simp] theorem State.modCrew_lines (s : State) (i : Nat) (f : Crew → Crew) : (s.modCrew i f).lines = s.lines := rfl
@[simp] theorem State.modCrew_changes (s : State) (i : Nat) (f : Crew → Crew) : (s.modCrew i f).changes = s.changes := rfl
@[simp] theorem State.modCrew_scatter (s : State) (i : Nat) (f : Crew → Crew) : (s.modCrew i f).scatter = s.scatter := rfl
@[simp] theorem State.modCrew_spill2 (s : State) (i : Nat) (f : Crew → Crew) : (s.modCrew i f).spill2 = s.spill2 := rfl
@[simp] theorem State.modCrew_held (s : State) (i : Nat) (f : Crew → Crew) : (s.modCrew i f).held = s.held := rfl
@[simp] theorem State.modCrew_pins (s : State) (i : Nat) (f : Crew → Crew) : (s.modCrew i f).pins = s.pins := rfl
@[simp] theorem State.modCrew_counters (s : State) (i : Nat) (f : Crew → Crew) : (s.modCrew i f).counters = s.counters := rfl
@[simp] theorem State.modCrew_msgs (s : State) (i : Nat) (f : Crew → Crew) : (s.modCrew i f).msgs = s.msgs := rfl
@[simp] theorem State.modCrew_l1 (s : State) (i : Nat) (f : Crew → Crew) : (s.modCrew i f).l1 = s.l1 := rfl
@[simp] theorem State.modCrew_ibuf (s : State) (i : Nat) (f : Crew → Crew) : (s.modCrew i f).ibuf = s.ibuf := rfl
@[simp] theorem State.modCrew_tlb (s : State) (i : Nat) (f : Crew → Crew) : (s.modCrew i f).tlb = s.tlb := rfl
@[simp] theorem State.modCrew_past (s : State) (i : Nat) (f : Crew → Crew) : (s.modCrew i f).past = s.past := rfl
@[simp] theorem State.modCrew_tables (s : State) (i : Nat) (f : Crew → Crew) : (s.modCrew i f).tables = s.tables := rfl
@[simp] theorem State.modCrew_invals (s : State) (i : Nat) (f : Crew → Crew) : (s.modCrew i f).invals = s.invals := rfl
@[simp] theorem State.modCrew_invdone (s : State) (i : Nat) (f : Crew → Crew) : (s.modCrew i f).invdone = s.invdone := rfl
@[simp] theorem State.modCrew_replays (s : State) (i : Nat) (f : Crew → Crew) : (s.modCrew i f).replays = s.replays := rfl
@[simp] theorem State.modCrew_regs (s : State) (i : Nat) (f : Crew → Crew) : (s.modCrew i f).regs = s.regs := rfl
@[simp] theorem State.modCrew_saved (s : State) (i : Nat) (f : Crew → Crew) : (s.modCrew i f).saved = s.saved := rfl
@[simp] theorem State.modCrew_holds (s : State) (i : Nat) (f : Crew → Crew) : (s.modCrew i f).holds = s.holds := rfl
@[simp] theorem State.modCrew_fetches (s : State) (i : Nat) (f : Crew → Crew) : (s.modCrew i f).fetches = s.fetches := rfl
@[simp] theorem State.modCrew_offers (s : State) (i : Nat) (f : Crew → Crew) : (s.modCrew i f).offers = s.offers := rfl
@[simp] theorem State.modCrew_cmds (s : State) (i : Nat) (f : Crew → Crew) : (s.modCrew i f).cmds = s.cmds := rfl
@[simp] theorem State.modCrew_chans (s : State) (i : Nat) (f : Crew → Crew) : (s.modCrew i f).chans = s.chans := rfl
@[simp] theorem State.modCrew_queues (s : State) (i : Nat) (f : Crew → Crew) : (s.modCrew i f).queues = s.queues := rfl
@[simp] theorem State.modCrew_rings (s : State) (i : Nat) (f : Crew → Crew) : (s.modCrew i f).rings = s.rings := rfl
@[simp] theorem State.modCrew_posts (s : State) (i : Nat) (f : Crew → Crew) : (s.modCrew i f).posts = s.posts := rfl
@[simp] theorem State.modCrew_msix (s : State) (i : Nat) (f : Crew → Crew) : (s.modCrew i f).msix = s.msix := rfl
@[simp] theorem State.modCrew_dies (s : State) (i : Nat) (f : Crew → Crew) : (s.modCrew i f).dies = s.dies := rfl
@[simp] theorem State.modCrew_regions (s : State) (i : Nat) (f : Crew → Crew) : (s.modCrew i f).regions = s.regions := rfl
@[simp] theorem State.modCrew_asidbase (s : State) (i : Nat) (f : Crew → Crew) : (s.modCrew i f).asidbase = s.asidbase := rfl
@[simp] theorem State.modCrew_debugarm (s : State) (i : Nat) (f : Crew → Crew) : (s.modCrew i f).debugarm = s.debugarm := rfl
@[simp] theorem State.modCrew_armsec (s : State) (i : Nat) (f : Crew → Crew) : (s.modCrew i f).armsec = s.armsec := rfl
@[simp] theorem State.modCrew_qowner (s : State) (i : Nat) (f : Crew → Crew) : (s.modCrew i f).qowner = s.qowner := rfl
@[simp] theorem State.modCrew_obs (s : State) (i : Nat) (f : Crew → Crew) : (s.modCrew i f).obs = s.obs := rfl
@[simp] theorem State.modCrew_shadows (s : State) (i : Nat) (f : Crew → Crew) : (s.modCrew i f).shadows = s.shadows := rfl
@[simp] theorem State.modCrew_runs (s : State) (i : Nat) (f : Crew → Crew) : (s.modCrew i f).runs = s.runs := rfl
@[simp] theorem State.modCrew_signals (s : State) (i : Nat) (f : Crew → Crew) : (s.modCrew i f).signals = s.signals := rfl
@[simp] theorem State.modCrew_sseq (s : State) (i : Nat) (f : Crew → Crew) : (s.modCrew i f).sseq = s.sseq := rfl
@[simp] theorem State.modCrew_snaps (s : State) (i : Nat) (f : Crew → Crew) : (s.modCrew i f).snaps = s.snaps := rfl
@[simp] theorem State.modCrew_sampling (s : State) (i : Nat) (f : Crew → Crew) : (s.modCrew i f).sampling = s.sampling := rfl
@[simp] theorem State.modCrew_samples (s : State) (i : Nat) (f : Crew → Crew) : (s.modCrew i f).samples = s.samples := rfl
@[simp] theorem State.modCrew_links (s : State) (i : Nat) (f : Crew → Crew) : (s.modCrew i f).links = s.links := rfl
@[simp] theorem State.modCrew_peersDown (s : State) (i : Nat) (f : Crew → Crew) : (s.modCrew i f).peersDown = s.peersDown := rfl
@[simp] theorem State.modCrew_limited (s : State) (i : Nat) (f : Crew → Crew) : (s.modCrew i f).limited = s.limited := rfl
@[simp] theorem State.modCrew_up (s : State) (i : Nat) (f : Crew → Crew) : (s.modCrew i f).up = s.up := rfl
@[simp] theorem State.modCrew_tripped (s : State) (i : Nat) (f : Crew → Crew) : (s.modCrew i f).tripped = s.tripped := rfl
@[simp] theorem State.modCrew_status (s : State) (i : Nat) (f : Crew → Crew) : (s.modCrew i f).status = s.status := rfl
@[simp] theorem State.modCrew_m0 (s : State) (i : Nat) (f : Crew → Crew) : (s.modCrew i f).m0 = s.m0 := rfl
@[simp] theorem State.modCrew_m1 (s : State) (i : Nat) (f : Crew → Crew) : (s.modCrew i f).m1 = s.m1 := rfl
@[simp] theorem State.modCrew_report (s : State) (i : Nat) (f : Crew → Crew) : (s.modCrew i f).report = s.report := rfl

/-! ### modTeam -/

@[simp] theorem State.modTeam_agenda (s : State) (i r : Nat) (f : Team → Team) : (s.modTeam i r f).agenda = s.agenda := rfl
@[simp] theorem State.modTeam_slot (s : State) (i r : Nat) (f : Team → Team) : (s.modTeam i r f).slot = s.slot := rfl
@[simp] theorem State.modTeam_free (s : State) (i r : Nat) (f : Team → Team) : (s.modTeam i r f).free = s.free := rfl
@[simp] theorem State.modTeam_ids (s : State) (i r : Nat) (f : Team → Team) : (s.modTeam i r f).ids = s.ids := rfl
@[simp] theorem State.modTeam_stalls (s : State) (i r : Nat) (f : Team → Team) : (s.modTeam i r f).stalls = s.stalls := rfl
@[simp] theorem State.modTeam_mem (s : State) (i r : Nat) (f : Team → Team) : (s.modTeam i r f).mem = s.mem := rfl
@[simp] theorem State.modTeam_lost (s : State) (i r : Nat) (f : Team → Team) : (s.modTeam i r f).lost = s.lost := rfl
@[simp] theorem State.modTeam_corrected (s : State) (i r : Nat) (f : Team → Team) : (s.modTeam i r f).corrected = s.corrected := rfl
@[simp] theorem State.modTeam_lines (s : State) (i r : Nat) (f : Team → Team) : (s.modTeam i r f).lines = s.lines := rfl
@[simp] theorem State.modTeam_changes (s : State) (i r : Nat) (f : Team → Team) : (s.modTeam i r f).changes = s.changes := rfl
@[simp] theorem State.modTeam_scatter (s : State) (i r : Nat) (f : Team → Team) : (s.modTeam i r f).scatter = s.scatter := rfl
@[simp] theorem State.modTeam_spill2 (s : State) (i r : Nat) (f : Team → Team) : (s.modTeam i r f).spill2 = s.spill2 := rfl
@[simp] theorem State.modTeam_held (s : State) (i r : Nat) (f : Team → Team) : (s.modTeam i r f).held = s.held := rfl
@[simp] theorem State.modTeam_pins (s : State) (i r : Nat) (f : Team → Team) : (s.modTeam i r f).pins = s.pins := rfl
@[simp] theorem State.modTeam_counters (s : State) (i r : Nat) (f : Team → Team) : (s.modTeam i r f).counters = s.counters := rfl
@[simp] theorem State.modTeam_msgs (s : State) (i r : Nat) (f : Team → Team) : (s.modTeam i r f).msgs = s.msgs := rfl
@[simp] theorem State.modTeam_l1 (s : State) (i r : Nat) (f : Team → Team) : (s.modTeam i r f).l1 = s.l1 := rfl
@[simp] theorem State.modTeam_ibuf (s : State) (i r : Nat) (f : Team → Team) : (s.modTeam i r f).ibuf = s.ibuf := rfl
@[simp] theorem State.modTeam_tlb (s : State) (i r : Nat) (f : Team → Team) : (s.modTeam i r f).tlb = s.tlb := rfl
@[simp] theorem State.modTeam_past (s : State) (i r : Nat) (f : Team → Team) : (s.modTeam i r f).past = s.past := rfl
@[simp] theorem State.modTeam_tables (s : State) (i r : Nat) (f : Team → Team) : (s.modTeam i r f).tables = s.tables := rfl
@[simp] theorem State.modTeam_invals (s : State) (i r : Nat) (f : Team → Team) : (s.modTeam i r f).invals = s.invals := rfl
@[simp] theorem State.modTeam_invdone (s : State) (i r : Nat) (f : Team → Team) : (s.modTeam i r f).invdone = s.invdone := rfl
@[simp] theorem State.modTeam_replays (s : State) (i r : Nat) (f : Team → Team) : (s.modTeam i r f).replays = s.replays := rfl
@[simp] theorem State.modTeam_regs (s : State) (i r : Nat) (f : Team → Team) : (s.modTeam i r f).regs = s.regs := rfl
@[simp] theorem State.modTeam_saved (s : State) (i r : Nat) (f : Team → Team) : (s.modTeam i r f).saved = s.saved := rfl
@[simp] theorem State.modTeam_holds (s : State) (i r : Nat) (f : Team → Team) : (s.modTeam i r f).holds = s.holds := rfl
@[simp] theorem State.modTeam_fetches (s : State) (i r : Nat) (f : Team → Team) : (s.modTeam i r f).fetches = s.fetches := rfl
@[simp] theorem State.modTeam_offers (s : State) (i r : Nat) (f : Team → Team) : (s.modTeam i r f).offers = s.offers := rfl
@[simp] theorem State.modTeam_cmds (s : State) (i r : Nat) (f : Team → Team) : (s.modTeam i r f).cmds = s.cmds := rfl
@[simp] theorem State.modTeam_chans (s : State) (i r : Nat) (f : Team → Team) : (s.modTeam i r f).chans = s.chans := rfl
@[simp] theorem State.modTeam_queues (s : State) (i r : Nat) (f : Team → Team) : (s.modTeam i r f).queues = s.queues := rfl
@[simp] theorem State.modTeam_rings (s : State) (i r : Nat) (f : Team → Team) : (s.modTeam i r f).rings = s.rings := rfl
@[simp] theorem State.modTeam_posts (s : State) (i r : Nat) (f : Team → Team) : (s.modTeam i r f).posts = s.posts := rfl
@[simp] theorem State.modTeam_msix (s : State) (i r : Nat) (f : Team → Team) : (s.modTeam i r f).msix = s.msix := rfl
@[simp] theorem State.modTeam_dies (s : State) (i r : Nat) (f : Team → Team) : (s.modTeam i r f).dies = s.dies := rfl
@[simp] theorem State.modTeam_regions (s : State) (i r : Nat) (f : Team → Team) : (s.modTeam i r f).regions = s.regions := rfl
@[simp] theorem State.modTeam_asidbase (s : State) (i r : Nat) (f : Team → Team) : (s.modTeam i r f).asidbase = s.asidbase := rfl
@[simp] theorem State.modTeam_debugarm (s : State) (i r : Nat) (f : Team → Team) : (s.modTeam i r f).debugarm = s.debugarm := rfl
@[simp] theorem State.modTeam_armsec (s : State) (i r : Nat) (f : Team → Team) : (s.modTeam i r f).armsec = s.armsec := rfl
@[simp] theorem State.modTeam_qowner (s : State) (i r : Nat) (f : Team → Team) : (s.modTeam i r f).qowner = s.qowner := rfl
@[simp] theorem State.modTeam_obs (s : State) (i r : Nat) (f : Team → Team) : (s.modTeam i r f).obs = s.obs := rfl
@[simp] theorem State.modTeam_shadows (s : State) (i r : Nat) (f : Team → Team) : (s.modTeam i r f).shadows = s.shadows := rfl
@[simp] theorem State.modTeam_runs (s : State) (i r : Nat) (f : Team → Team) : (s.modTeam i r f).runs = s.runs := rfl
@[simp] theorem State.modTeam_signals (s : State) (i r : Nat) (f : Team → Team) : (s.modTeam i r f).signals = s.signals := rfl
@[simp] theorem State.modTeam_sseq (s : State) (i r : Nat) (f : Team → Team) : (s.modTeam i r f).sseq = s.sseq := rfl
@[simp] theorem State.modTeam_snaps (s : State) (i r : Nat) (f : Team → Team) : (s.modTeam i r f).snaps = s.snaps := rfl
@[simp] theorem State.modTeam_sampling (s : State) (i r : Nat) (f : Team → Team) : (s.modTeam i r f).sampling = s.sampling := rfl
@[simp] theorem State.modTeam_samples (s : State) (i r : Nat) (f : Team → Team) : (s.modTeam i r f).samples = s.samples := rfl
@[simp] theorem State.modTeam_links (s : State) (i r : Nat) (f : Team → Team) : (s.modTeam i r f).links = s.links := rfl
@[simp] theorem State.modTeam_peersDown (s : State) (i r : Nat) (f : Team → Team) : (s.modTeam i r f).peersDown = s.peersDown := rfl
@[simp] theorem State.modTeam_limited (s : State) (i r : Nat) (f : Team → Team) : (s.modTeam i r f).limited = s.limited := rfl
@[simp] theorem State.modTeam_up (s : State) (i r : Nat) (f : Team → Team) : (s.modTeam i r f).up = s.up := rfl
@[simp] theorem State.modTeam_tripped (s : State) (i r : Nat) (f : Team → Team) : (s.modTeam i r f).tripped = s.tripped := rfl
@[simp] theorem State.modTeam_status (s : State) (i r : Nat) (f : Team → Team) : (s.modTeam i r f).status = s.status := rfl
@[simp] theorem State.modTeam_m0 (s : State) (i r : Nat) (f : Team → Team) : (s.modTeam i r f).m0 = s.m0 := rfl
@[simp] theorem State.modTeam_m1 (s : State) (i r : Nat) (f : Team → Team) : (s.modTeam i r f).m1 = s.m1 := rfl
@[simp] theorem State.modTeam_report (s : State) (i r : Nat) (f : Team → Team) : (s.modTeam i r f).report = s.report := rfl

/-! ### modStrand -/

@[simp] theorem State.modStrand_agenda (s : State) (i : Nat) (sid : Sid) (f : Strand → Strand) : (s.modStrand i sid f).agenda = s.agenda := rfl
@[simp] theorem State.modStrand_slot (s : State) (i : Nat) (sid : Sid) (f : Strand → Strand) : (s.modStrand i sid f).slot = s.slot := rfl
@[simp] theorem State.modStrand_free (s : State) (i : Nat) (sid : Sid) (f : Strand → Strand) : (s.modStrand i sid f).free = s.free := rfl
@[simp] theorem State.modStrand_ids (s : State) (i : Nat) (sid : Sid) (f : Strand → Strand) : (s.modStrand i sid f).ids = s.ids := rfl
@[simp] theorem State.modStrand_stalls (s : State) (i : Nat) (sid : Sid) (f : Strand → Strand) : (s.modStrand i sid f).stalls = s.stalls := rfl
@[simp] theorem State.modStrand_mem (s : State) (i : Nat) (sid : Sid) (f : Strand → Strand) : (s.modStrand i sid f).mem = s.mem := rfl
@[simp] theorem State.modStrand_lost (s : State) (i : Nat) (sid : Sid) (f : Strand → Strand) : (s.modStrand i sid f).lost = s.lost := rfl
@[simp] theorem State.modStrand_corrected (s : State) (i : Nat) (sid : Sid) (f : Strand → Strand) : (s.modStrand i sid f).corrected = s.corrected := rfl
@[simp] theorem State.modStrand_lines (s : State) (i : Nat) (sid : Sid) (f : Strand → Strand) : (s.modStrand i sid f).lines = s.lines := rfl
@[simp] theorem State.modStrand_changes (s : State) (i : Nat) (sid : Sid) (f : Strand → Strand) : (s.modStrand i sid f).changes = s.changes := rfl
@[simp] theorem State.modStrand_scatter (s : State) (i : Nat) (sid : Sid) (f : Strand → Strand) : (s.modStrand i sid f).scatter = s.scatter := rfl
@[simp] theorem State.modStrand_spill2 (s : State) (i : Nat) (sid : Sid) (f : Strand → Strand) : (s.modStrand i sid f).spill2 = s.spill2 := rfl
@[simp] theorem State.modStrand_held (s : State) (i : Nat) (sid : Sid) (f : Strand → Strand) : (s.modStrand i sid f).held = s.held := rfl
@[simp] theorem State.modStrand_pins (s : State) (i : Nat) (sid : Sid) (f : Strand → Strand) : (s.modStrand i sid f).pins = s.pins := rfl
@[simp] theorem State.modStrand_counters (s : State) (i : Nat) (sid : Sid) (f : Strand → Strand) : (s.modStrand i sid f).counters = s.counters := rfl
@[simp] theorem State.modStrand_msgs (s : State) (i : Nat) (sid : Sid) (f : Strand → Strand) : (s.modStrand i sid f).msgs = s.msgs := rfl
@[simp] theorem State.modStrand_l1 (s : State) (i : Nat) (sid : Sid) (f : Strand → Strand) : (s.modStrand i sid f).l1 = s.l1 := rfl
@[simp] theorem State.modStrand_ibuf (s : State) (i : Nat) (sid : Sid) (f : Strand → Strand) : (s.modStrand i sid f).ibuf = s.ibuf := rfl
@[simp] theorem State.modStrand_tlb (s : State) (i : Nat) (sid : Sid) (f : Strand → Strand) : (s.modStrand i sid f).tlb = s.tlb := rfl
@[simp] theorem State.modStrand_past (s : State) (i : Nat) (sid : Sid) (f : Strand → Strand) : (s.modStrand i sid f).past = s.past := rfl
@[simp] theorem State.modStrand_tables (s : State) (i : Nat) (sid : Sid) (f : Strand → Strand) : (s.modStrand i sid f).tables = s.tables := rfl
@[simp] theorem State.modStrand_invals (s : State) (i : Nat) (sid : Sid) (f : Strand → Strand) : (s.modStrand i sid f).invals = s.invals := rfl
@[simp] theorem State.modStrand_invdone (s : State) (i : Nat) (sid : Sid) (f : Strand → Strand) : (s.modStrand i sid f).invdone = s.invdone := rfl
@[simp] theorem State.modStrand_replays (s : State) (i : Nat) (sid : Sid) (f : Strand → Strand) : (s.modStrand i sid f).replays = s.replays := rfl
@[simp] theorem State.modStrand_regs (s : State) (i : Nat) (sid : Sid) (f : Strand → Strand) : (s.modStrand i sid f).regs = s.regs := rfl
@[simp] theorem State.modStrand_saved (s : State) (i : Nat) (sid : Sid) (f : Strand → Strand) : (s.modStrand i sid f).saved = s.saved := rfl
@[simp] theorem State.modStrand_holds (s : State) (i : Nat) (sid : Sid) (f : Strand → Strand) : (s.modStrand i sid f).holds = s.holds := rfl
@[simp] theorem State.modStrand_fetches (s : State) (i : Nat) (sid : Sid) (f : Strand → Strand) : (s.modStrand i sid f).fetches = s.fetches := rfl
@[simp] theorem State.modStrand_offers (s : State) (i : Nat) (sid : Sid) (f : Strand → Strand) : (s.modStrand i sid f).offers = s.offers := rfl
@[simp] theorem State.modStrand_cmds (s : State) (i : Nat) (sid : Sid) (f : Strand → Strand) : (s.modStrand i sid f).cmds = s.cmds := rfl
@[simp] theorem State.modStrand_chans (s : State) (i : Nat) (sid : Sid) (f : Strand → Strand) : (s.modStrand i sid f).chans = s.chans := rfl
@[simp] theorem State.modStrand_queues (s : State) (i : Nat) (sid : Sid) (f : Strand → Strand) : (s.modStrand i sid f).queues = s.queues := rfl
@[simp] theorem State.modStrand_rings (s : State) (i : Nat) (sid : Sid) (f : Strand → Strand) : (s.modStrand i sid f).rings = s.rings := rfl
@[simp] theorem State.modStrand_posts (s : State) (i : Nat) (sid : Sid) (f : Strand → Strand) : (s.modStrand i sid f).posts = s.posts := rfl
@[simp] theorem State.modStrand_msix (s : State) (i : Nat) (sid : Sid) (f : Strand → Strand) : (s.modStrand i sid f).msix = s.msix := rfl
@[simp] theorem State.modStrand_dies (s : State) (i : Nat) (sid : Sid) (f : Strand → Strand) : (s.modStrand i sid f).dies = s.dies := rfl
@[simp] theorem State.modStrand_regions (s : State) (i : Nat) (sid : Sid) (f : Strand → Strand) : (s.modStrand i sid f).regions = s.regions := rfl
@[simp] theorem State.modStrand_asidbase (s : State) (i : Nat) (sid : Sid) (f : Strand → Strand) : (s.modStrand i sid f).asidbase = s.asidbase := rfl
@[simp] theorem State.modStrand_debugarm (s : State) (i : Nat) (sid : Sid) (f : Strand → Strand) : (s.modStrand i sid f).debugarm = s.debugarm := rfl
@[simp] theorem State.modStrand_armsec (s : State) (i : Nat) (sid : Sid) (f : Strand → Strand) : (s.modStrand i sid f).armsec = s.armsec := rfl
@[simp] theorem State.modStrand_qowner (s : State) (i : Nat) (sid : Sid) (f : Strand → Strand) : (s.modStrand i sid f).qowner = s.qowner := rfl
@[simp] theorem State.modStrand_obs (s : State) (i : Nat) (sid : Sid) (f : Strand → Strand) : (s.modStrand i sid f).obs = s.obs := rfl
@[simp] theorem State.modStrand_shadows (s : State) (i : Nat) (sid : Sid) (f : Strand → Strand) : (s.modStrand i sid f).shadows = s.shadows := rfl
@[simp] theorem State.modStrand_runs (s : State) (i : Nat) (sid : Sid) (f : Strand → Strand) : (s.modStrand i sid f).runs = s.runs := rfl
@[simp] theorem State.modStrand_signals (s : State) (i : Nat) (sid : Sid) (f : Strand → Strand) : (s.modStrand i sid f).signals = s.signals := rfl
@[simp] theorem State.modStrand_sseq (s : State) (i : Nat) (sid : Sid) (f : Strand → Strand) : (s.modStrand i sid f).sseq = s.sseq := rfl
@[simp] theorem State.modStrand_snaps (s : State) (i : Nat) (sid : Sid) (f : Strand → Strand) : (s.modStrand i sid f).snaps = s.snaps := rfl
@[simp] theorem State.modStrand_sampling (s : State) (i : Nat) (sid : Sid) (f : Strand → Strand) : (s.modStrand i sid f).sampling = s.sampling := rfl
@[simp] theorem State.modStrand_samples (s : State) (i : Nat) (sid : Sid) (f : Strand → Strand) : (s.modStrand i sid f).samples = s.samples := rfl
@[simp] theorem State.modStrand_links (s : State) (i : Nat) (sid : Sid) (f : Strand → Strand) : (s.modStrand i sid f).links = s.links := rfl
@[simp] theorem State.modStrand_peersDown (s : State) (i : Nat) (sid : Sid) (f : Strand → Strand) : (s.modStrand i sid f).peersDown = s.peersDown := rfl
@[simp] theorem State.modStrand_limited (s : State) (i : Nat) (sid : Sid) (f : Strand → Strand) : (s.modStrand i sid f).limited = s.limited := rfl
@[simp] theorem State.modStrand_up (s : State) (i : Nat) (sid : Sid) (f : Strand → Strand) : (s.modStrand i sid f).up = s.up := rfl
@[simp] theorem State.modStrand_tripped (s : State) (i : Nat) (sid : Sid) (f : Strand → Strand) : (s.modStrand i sid f).tripped = s.tripped := rfl
@[simp] theorem State.modStrand_status (s : State) (i : Nat) (sid : Sid) (f : Strand → Strand) : (s.modStrand i sid f).status = s.status := rfl
@[simp] theorem State.modStrand_m0 (s : State) (i : Nat) (sid : Sid) (f : Strand → Strand) : (s.modStrand i sid f).m0 = s.m0 := rfl
@[simp] theorem State.modStrand_m1 (s : State) (i : Nat) (sid : Sid) (f : Strand → Strand) : (s.modStrand i sid f).m1 = s.m1 := rfl
@[simp] theorem State.modStrand_report (s : State) (i : Nat) (sid : Sid) (f : Strand → Strand) : (s.modStrand i sid f).report = s.report := rfl

/-! ### modPath -/

@[simp] theorem State.modPath_agenda (s : State) (i : Nat) (sid : Sid) (p : Nat) (f : Path → Path) : (s.modPath i sid p f).agenda = s.agenda := rfl
@[simp] theorem State.modPath_slot (s : State) (i : Nat) (sid : Sid) (p : Nat) (f : Path → Path) : (s.modPath i sid p f).slot = s.slot := rfl
@[simp] theorem State.modPath_free (s : State) (i : Nat) (sid : Sid) (p : Nat) (f : Path → Path) : (s.modPath i sid p f).free = s.free := rfl
@[simp] theorem State.modPath_ids (s : State) (i : Nat) (sid : Sid) (p : Nat) (f : Path → Path) : (s.modPath i sid p f).ids = s.ids := rfl
@[simp] theorem State.modPath_stalls (s : State) (i : Nat) (sid : Sid) (p : Nat) (f : Path → Path) : (s.modPath i sid p f).stalls = s.stalls := rfl
@[simp] theorem State.modPath_mem (s : State) (i : Nat) (sid : Sid) (p : Nat) (f : Path → Path) : (s.modPath i sid p f).mem = s.mem := rfl
@[simp] theorem State.modPath_lost (s : State) (i : Nat) (sid : Sid) (p : Nat) (f : Path → Path) : (s.modPath i sid p f).lost = s.lost := rfl
@[simp] theorem State.modPath_corrected (s : State) (i : Nat) (sid : Sid) (p : Nat) (f : Path → Path) : (s.modPath i sid p f).corrected = s.corrected := rfl
@[simp] theorem State.modPath_lines (s : State) (i : Nat) (sid : Sid) (p : Nat) (f : Path → Path) : (s.modPath i sid p f).lines = s.lines := rfl
@[simp] theorem State.modPath_changes (s : State) (i : Nat) (sid : Sid) (p : Nat) (f : Path → Path) : (s.modPath i sid p f).changes = s.changes := rfl
@[simp] theorem State.modPath_scatter (s : State) (i : Nat) (sid : Sid) (p : Nat) (f : Path → Path) : (s.modPath i sid p f).scatter = s.scatter := rfl
@[simp] theorem State.modPath_spill2 (s : State) (i : Nat) (sid : Sid) (p : Nat) (f : Path → Path) : (s.modPath i sid p f).spill2 = s.spill2 := rfl
@[simp] theorem State.modPath_held (s : State) (i : Nat) (sid : Sid) (p : Nat) (f : Path → Path) : (s.modPath i sid p f).held = s.held := rfl
@[simp] theorem State.modPath_pins (s : State) (i : Nat) (sid : Sid) (p : Nat) (f : Path → Path) : (s.modPath i sid p f).pins = s.pins := rfl
@[simp] theorem State.modPath_counters (s : State) (i : Nat) (sid : Sid) (p : Nat) (f : Path → Path) : (s.modPath i sid p f).counters = s.counters := rfl
@[simp] theorem State.modPath_msgs (s : State) (i : Nat) (sid : Sid) (p : Nat) (f : Path → Path) : (s.modPath i sid p f).msgs = s.msgs := rfl
@[simp] theorem State.modPath_l1 (s : State) (i : Nat) (sid : Sid) (p : Nat) (f : Path → Path) : (s.modPath i sid p f).l1 = s.l1 := rfl
@[simp] theorem State.modPath_ibuf (s : State) (i : Nat) (sid : Sid) (p : Nat) (f : Path → Path) : (s.modPath i sid p f).ibuf = s.ibuf := rfl
@[simp] theorem State.modPath_tlb (s : State) (i : Nat) (sid : Sid) (p : Nat) (f : Path → Path) : (s.modPath i sid p f).tlb = s.tlb := rfl
@[simp] theorem State.modPath_past (s : State) (i : Nat) (sid : Sid) (p : Nat) (f : Path → Path) : (s.modPath i sid p f).past = s.past := rfl
@[simp] theorem State.modPath_tables (s : State) (i : Nat) (sid : Sid) (p : Nat) (f : Path → Path) : (s.modPath i sid p f).tables = s.tables := rfl
@[simp] theorem State.modPath_invals (s : State) (i : Nat) (sid : Sid) (p : Nat) (f : Path → Path) : (s.modPath i sid p f).invals = s.invals := rfl
@[simp] theorem State.modPath_invdone (s : State) (i : Nat) (sid : Sid) (p : Nat) (f : Path → Path) : (s.modPath i sid p f).invdone = s.invdone := rfl
@[simp] theorem State.modPath_replays (s : State) (i : Nat) (sid : Sid) (p : Nat) (f : Path → Path) : (s.modPath i sid p f).replays = s.replays := rfl
@[simp] theorem State.modPath_regs (s : State) (i : Nat) (sid : Sid) (p : Nat) (f : Path → Path) : (s.modPath i sid p f).regs = s.regs := rfl
@[simp] theorem State.modPath_saved (s : State) (i : Nat) (sid : Sid) (p : Nat) (f : Path → Path) : (s.modPath i sid p f).saved = s.saved := rfl
@[simp] theorem State.modPath_holds (s : State) (i : Nat) (sid : Sid) (p : Nat) (f : Path → Path) : (s.modPath i sid p f).holds = s.holds := rfl
@[simp] theorem State.modPath_fetches (s : State) (i : Nat) (sid : Sid) (p : Nat) (f : Path → Path) : (s.modPath i sid p f).fetches = s.fetches := rfl
@[simp] theorem State.modPath_offers (s : State) (i : Nat) (sid : Sid) (p : Nat) (f : Path → Path) : (s.modPath i sid p f).offers = s.offers := rfl
@[simp] theorem State.modPath_cmds (s : State) (i : Nat) (sid : Sid) (p : Nat) (f : Path → Path) : (s.modPath i sid p f).cmds = s.cmds := rfl
@[simp] theorem State.modPath_chans (s : State) (i : Nat) (sid : Sid) (p : Nat) (f : Path → Path) : (s.modPath i sid p f).chans = s.chans := rfl
@[simp] theorem State.modPath_queues (s : State) (i : Nat) (sid : Sid) (p : Nat) (f : Path → Path) : (s.modPath i sid p f).queues = s.queues := rfl
@[simp] theorem State.modPath_rings (s : State) (i : Nat) (sid : Sid) (p : Nat) (f : Path → Path) : (s.modPath i sid p f).rings = s.rings := rfl
@[simp] theorem State.modPath_posts (s : State) (i : Nat) (sid : Sid) (p : Nat) (f : Path → Path) : (s.modPath i sid p f).posts = s.posts := rfl
@[simp] theorem State.modPath_msix (s : State) (i : Nat) (sid : Sid) (p : Nat) (f : Path → Path) : (s.modPath i sid p f).msix = s.msix := rfl
@[simp] theorem State.modPath_dies (s : State) (i : Nat) (sid : Sid) (p : Nat) (f : Path → Path) : (s.modPath i sid p f).dies = s.dies := rfl
@[simp] theorem State.modPath_regions (s : State) (i : Nat) (sid : Sid) (p : Nat) (f : Path → Path) : (s.modPath i sid p f).regions = s.regions := rfl
@[simp] theorem State.modPath_asidbase (s : State) (i : Nat) (sid : Sid) (p : Nat) (f : Path → Path) : (s.modPath i sid p f).asidbase = s.asidbase := rfl
@[simp] theorem State.modPath_debugarm (s : State) (i : Nat) (sid : Sid) (p : Nat) (f : Path → Path) : (s.modPath i sid p f).debugarm = s.debugarm := rfl
@[simp] theorem State.modPath_armsec (s : State) (i : Nat) (sid : Sid) (p : Nat) (f : Path → Path) : (s.modPath i sid p f).armsec = s.armsec := rfl
@[simp] theorem State.modPath_qowner (s : State) (i : Nat) (sid : Sid) (p : Nat) (f : Path → Path) : (s.modPath i sid p f).qowner = s.qowner := rfl
@[simp] theorem State.modPath_obs (s : State) (i : Nat) (sid : Sid) (p : Nat) (f : Path → Path) : (s.modPath i sid p f).obs = s.obs := rfl
@[simp] theorem State.modPath_shadows (s : State) (i : Nat) (sid : Sid) (p : Nat) (f : Path → Path) : (s.modPath i sid p f).shadows = s.shadows := rfl
@[simp] theorem State.modPath_runs (s : State) (i : Nat) (sid : Sid) (p : Nat) (f : Path → Path) : (s.modPath i sid p f).runs = s.runs := rfl
@[simp] theorem State.modPath_signals (s : State) (i : Nat) (sid : Sid) (p : Nat) (f : Path → Path) : (s.modPath i sid p f).signals = s.signals := rfl
@[simp] theorem State.modPath_sseq (s : State) (i : Nat) (sid : Sid) (p : Nat) (f : Path → Path) : (s.modPath i sid p f).sseq = s.sseq := rfl
@[simp] theorem State.modPath_snaps (s : State) (i : Nat) (sid : Sid) (p : Nat) (f : Path → Path) : (s.modPath i sid p f).snaps = s.snaps := rfl
@[simp] theorem State.modPath_sampling (s : State) (i : Nat) (sid : Sid) (p : Nat) (f : Path → Path) : (s.modPath i sid p f).sampling = s.sampling := rfl
@[simp] theorem State.modPath_samples (s : State) (i : Nat) (sid : Sid) (p : Nat) (f : Path → Path) : (s.modPath i sid p f).samples = s.samples := rfl
@[simp] theorem State.modPath_links (s : State) (i : Nat) (sid : Sid) (p : Nat) (f : Path → Path) : (s.modPath i sid p f).links = s.links := rfl
@[simp] theorem State.modPath_peersDown (s : State) (i : Nat) (sid : Sid) (p : Nat) (f : Path → Path) : (s.modPath i sid p f).peersDown = s.peersDown := rfl
@[simp] theorem State.modPath_limited (s : State) (i : Nat) (sid : Sid) (p : Nat) (f : Path → Path) : (s.modPath i sid p f).limited = s.limited := rfl
@[simp] theorem State.modPath_up (s : State) (i : Nat) (sid : Sid) (p : Nat) (f : Path → Path) : (s.modPath i sid p f).up = s.up := rfl
@[simp] theorem State.modPath_tripped (s : State) (i : Nat) (sid : Sid) (p : Nat) (f : Path → Path) : (s.modPath i sid p f).tripped = s.tripped := rfl
@[simp] theorem State.modPath_status (s : State) (i : Nat) (sid : Sid) (p : Nat) (f : Path → Path) : (s.modPath i sid p f).status = s.status := rfl
@[simp] theorem State.modPath_m0 (s : State) (i : Nat) (sid : Sid) (p : Nat) (f : Path → Path) : (s.modPath i sid p f).m0 = s.m0 := rfl
@[simp] theorem State.modPath_m1 (s : State) (i : Nat) (sid : Sid) (p : Nat) (f : Path → Path) : (s.modPath i sid p f).m1 = s.m1 := rfl
@[simp] theorem State.modPath_report (s : State) (i : Nat) (sid : Sid) (p : Nat) (f : Path → Path) : (s.modPath i sid p f).report = s.report := rfl

/-! ### modThread -/

@[simp] theorem State.modThread_agenda (s : State) (i : Nat) (sid : Sid) (l : Nat) (f : Thread → Thread) : (s.modThread i sid l f).agenda = s.agenda := rfl
@[simp] theorem State.modThread_slot (s : State) (i : Nat) (sid : Sid) (l : Nat) (f : Thread → Thread) : (s.modThread i sid l f).slot = s.slot := rfl
@[simp] theorem State.modThread_free (s : State) (i : Nat) (sid : Sid) (l : Nat) (f : Thread → Thread) : (s.modThread i sid l f).free = s.free := rfl
@[simp] theorem State.modThread_ids (s : State) (i : Nat) (sid : Sid) (l : Nat) (f : Thread → Thread) : (s.modThread i sid l f).ids = s.ids := rfl
@[simp] theorem State.modThread_stalls (s : State) (i : Nat) (sid : Sid) (l : Nat) (f : Thread → Thread) : (s.modThread i sid l f).stalls = s.stalls := rfl
@[simp] theorem State.modThread_mem (s : State) (i : Nat) (sid : Sid) (l : Nat) (f : Thread → Thread) : (s.modThread i sid l f).mem = s.mem := rfl
@[simp] theorem State.modThread_lost (s : State) (i : Nat) (sid : Sid) (l : Nat) (f : Thread → Thread) : (s.modThread i sid l f).lost = s.lost := rfl
@[simp] theorem State.modThread_corrected (s : State) (i : Nat) (sid : Sid) (l : Nat) (f : Thread → Thread) : (s.modThread i sid l f).corrected = s.corrected := rfl
@[simp] theorem State.modThread_lines (s : State) (i : Nat) (sid : Sid) (l : Nat) (f : Thread → Thread) : (s.modThread i sid l f).lines = s.lines := rfl
@[simp] theorem State.modThread_changes (s : State) (i : Nat) (sid : Sid) (l : Nat) (f : Thread → Thread) : (s.modThread i sid l f).changes = s.changes := rfl
@[simp] theorem State.modThread_scatter (s : State) (i : Nat) (sid : Sid) (l : Nat) (f : Thread → Thread) : (s.modThread i sid l f).scatter = s.scatter := rfl
@[simp] theorem State.modThread_spill2 (s : State) (i : Nat) (sid : Sid) (l : Nat) (f : Thread → Thread) : (s.modThread i sid l f).spill2 = s.spill2 := rfl
@[simp] theorem State.modThread_held (s : State) (i : Nat) (sid : Sid) (l : Nat) (f : Thread → Thread) : (s.modThread i sid l f).held = s.held := rfl
@[simp] theorem State.modThread_pins (s : State) (i : Nat) (sid : Sid) (l : Nat) (f : Thread → Thread) : (s.modThread i sid l f).pins = s.pins := rfl
@[simp] theorem State.modThread_counters (s : State) (i : Nat) (sid : Sid) (l : Nat) (f : Thread → Thread) : (s.modThread i sid l f).counters = s.counters := rfl
@[simp] theorem State.modThread_msgs (s : State) (i : Nat) (sid : Sid) (l : Nat) (f : Thread → Thread) : (s.modThread i sid l f).msgs = s.msgs := rfl
@[simp] theorem State.modThread_l1 (s : State) (i : Nat) (sid : Sid) (l : Nat) (f : Thread → Thread) : (s.modThread i sid l f).l1 = s.l1 := rfl
@[simp] theorem State.modThread_ibuf (s : State) (i : Nat) (sid : Sid) (l : Nat) (f : Thread → Thread) : (s.modThread i sid l f).ibuf = s.ibuf := rfl
@[simp] theorem State.modThread_tlb (s : State) (i : Nat) (sid : Sid) (l : Nat) (f : Thread → Thread) : (s.modThread i sid l f).tlb = s.tlb := rfl
@[simp] theorem State.modThread_past (s : State) (i : Nat) (sid : Sid) (l : Nat) (f : Thread → Thread) : (s.modThread i sid l f).past = s.past := rfl
@[simp] theorem State.modThread_tables (s : State) (i : Nat) (sid : Sid) (l : Nat) (f : Thread → Thread) : (s.modThread i sid l f).tables = s.tables := rfl
@[simp] theorem State.modThread_invals (s : State) (i : Nat) (sid : Sid) (l : Nat) (f : Thread → Thread) : (s.modThread i sid l f).invals = s.invals := rfl
@[simp] theorem State.modThread_invdone (s : State) (i : Nat) (sid : Sid) (l : Nat) (f : Thread → Thread) : (s.modThread i sid l f).invdone = s.invdone := rfl
@[simp] theorem State.modThread_replays (s : State) (i : Nat) (sid : Sid) (l : Nat) (f : Thread → Thread) : (s.modThread i sid l f).replays = s.replays := rfl
@[simp] theorem State.modThread_regs (s : State) (i : Nat) (sid : Sid) (l : Nat) (f : Thread → Thread) : (s.modThread i sid l f).regs = s.regs := rfl
@[simp] theorem State.modThread_saved (s : State) (i : Nat) (sid : Sid) (l : Nat) (f : Thread → Thread) : (s.modThread i sid l f).saved = s.saved := rfl
@[simp] theorem State.modThread_holds (s : State) (i : Nat) (sid : Sid) (l : Nat) (f : Thread → Thread) : (s.modThread i sid l f).holds = s.holds := rfl
@[simp] theorem State.modThread_fetches (s : State) (i : Nat) (sid : Sid) (l : Nat) (f : Thread → Thread) : (s.modThread i sid l f).fetches = s.fetches := rfl
@[simp] theorem State.modThread_offers (s : State) (i : Nat) (sid : Sid) (l : Nat) (f : Thread → Thread) : (s.modThread i sid l f).offers = s.offers := rfl
@[simp] theorem State.modThread_cmds (s : State) (i : Nat) (sid : Sid) (l : Nat) (f : Thread → Thread) : (s.modThread i sid l f).cmds = s.cmds := rfl
@[simp] theorem State.modThread_chans (s : State) (i : Nat) (sid : Sid) (l : Nat) (f : Thread → Thread) : (s.modThread i sid l f).chans = s.chans := rfl
@[simp] theorem State.modThread_queues (s : State) (i : Nat) (sid : Sid) (l : Nat) (f : Thread → Thread) : (s.modThread i sid l f).queues = s.queues := rfl
@[simp] theorem State.modThread_rings (s : State) (i : Nat) (sid : Sid) (l : Nat) (f : Thread → Thread) : (s.modThread i sid l f).rings = s.rings := rfl
@[simp] theorem State.modThread_posts (s : State) (i : Nat) (sid : Sid) (l : Nat) (f : Thread → Thread) : (s.modThread i sid l f).posts = s.posts := rfl
@[simp] theorem State.modThread_msix (s : State) (i : Nat) (sid : Sid) (l : Nat) (f : Thread → Thread) : (s.modThread i sid l f).msix = s.msix := rfl
@[simp] theorem State.modThread_dies (s : State) (i : Nat) (sid : Sid) (l : Nat) (f : Thread → Thread) : (s.modThread i sid l f).dies = s.dies := rfl
@[simp] theorem State.modThread_regions (s : State) (i : Nat) (sid : Sid) (l : Nat) (f : Thread → Thread) : (s.modThread i sid l f).regions = s.regions := rfl
@[simp] theorem State.modThread_asidbase (s : State) (i : Nat) (sid : Sid) (l : Nat) (f : Thread → Thread) : (s.modThread i sid l f).asidbase = s.asidbase := rfl
@[simp] theorem State.modThread_debugarm (s : State) (i : Nat) (sid : Sid) (l : Nat) (f : Thread → Thread) : (s.modThread i sid l f).debugarm = s.debugarm := rfl
@[simp] theorem State.modThread_armsec (s : State) (i : Nat) (sid : Sid) (l : Nat) (f : Thread → Thread) : (s.modThread i sid l f).armsec = s.armsec := rfl
@[simp] theorem State.modThread_qowner (s : State) (i : Nat) (sid : Sid) (l : Nat) (f : Thread → Thread) : (s.modThread i sid l f).qowner = s.qowner := rfl
@[simp] theorem State.modThread_obs (s : State) (i : Nat) (sid : Sid) (l : Nat) (f : Thread → Thread) : (s.modThread i sid l f).obs = s.obs := rfl
@[simp] theorem State.modThread_shadows (s : State) (i : Nat) (sid : Sid) (l : Nat) (f : Thread → Thread) : (s.modThread i sid l f).shadows = s.shadows := rfl
@[simp] theorem State.modThread_runs (s : State) (i : Nat) (sid : Sid) (l : Nat) (f : Thread → Thread) : (s.modThread i sid l f).runs = s.runs := rfl
@[simp] theorem State.modThread_signals (s : State) (i : Nat) (sid : Sid) (l : Nat) (f : Thread → Thread) : (s.modThread i sid l f).signals = s.signals := rfl
@[simp] theorem State.modThread_sseq (s : State) (i : Nat) (sid : Sid) (l : Nat) (f : Thread → Thread) : (s.modThread i sid l f).sseq = s.sseq := rfl
@[simp] theorem State.modThread_snaps (s : State) (i : Nat) (sid : Sid) (l : Nat) (f : Thread → Thread) : (s.modThread i sid l f).snaps = s.snaps := rfl
@[simp] theorem State.modThread_sampling (s : State) (i : Nat) (sid : Sid) (l : Nat) (f : Thread → Thread) : (s.modThread i sid l f).sampling = s.sampling := rfl
@[simp] theorem State.modThread_samples (s : State) (i : Nat) (sid : Sid) (l : Nat) (f : Thread → Thread) : (s.modThread i sid l f).samples = s.samples := rfl
@[simp] theorem State.modThread_links (s : State) (i : Nat) (sid : Sid) (l : Nat) (f : Thread → Thread) : (s.modThread i sid l f).links = s.links := rfl
@[simp] theorem State.modThread_peersDown (s : State) (i : Nat) (sid : Sid) (l : Nat) (f : Thread → Thread) : (s.modThread i sid l f).peersDown = s.peersDown := rfl
@[simp] theorem State.modThread_limited (s : State) (i : Nat) (sid : Sid) (l : Nat) (f : Thread → Thread) : (s.modThread i sid l f).limited = s.limited := rfl
@[simp] theorem State.modThread_up (s : State) (i : Nat) (sid : Sid) (l : Nat) (f : Thread → Thread) : (s.modThread i sid l f).up = s.up := rfl
@[simp] theorem State.modThread_tripped (s : State) (i : Nat) (sid : Sid) (l : Nat) (f : Thread → Thread) : (s.modThread i sid l f).tripped = s.tripped := rfl
@[simp] theorem State.modThread_status (s : State) (i : Nat) (sid : Sid) (l : Nat) (f : Thread → Thread) : (s.modThread i sid l f).status = s.status := rfl
@[simp] theorem State.modThread_m0 (s : State) (i : Nat) (sid : Sid) (l : Nat) (f : Thread → Thread) : (s.modThread i sid l f).m0 = s.m0 := rfl
@[simp] theorem State.modThread_m1 (s : State) (i : Nat) (sid : Sid) (l : Nat) (f : Thread → Thread) : (s.modThread i sid l f).m1 = s.m1 := rfl
@[simp] theorem State.modThread_report (s : State) (i : Nat) (sid : Sid) (l : Nat) (f : Thread → Thread) : (s.modThread i sid l f).report = s.report := rfl

/-! ### modDie -/

@[simp] theorem State.modDie_agenda (s : State) (d : Nat) (f : Die → Die) : (s.modDie d f).agenda = s.agenda := rfl
@[simp] theorem State.modDie_slot (s : State) (d : Nat) (f : Die → Die) : (s.modDie d f).slot = s.slot := rfl
@[simp] theorem State.modDie_free (s : State) (d : Nat) (f : Die → Die) : (s.modDie d f).free = s.free := rfl
@[simp] theorem State.modDie_ids (s : State) (d : Nat) (f : Die → Die) : (s.modDie d f).ids = s.ids := rfl
@[simp] theorem State.modDie_stalls (s : State) (d : Nat) (f : Die → Die) : (s.modDie d f).stalls = s.stalls := rfl
@[simp] theorem State.modDie_mem (s : State) (d : Nat) (f : Die → Die) : (s.modDie d f).mem = s.mem := rfl
@[simp] theorem State.modDie_lost (s : State) (d : Nat) (f : Die → Die) : (s.modDie d f).lost = s.lost := rfl
@[simp] theorem State.modDie_corrected (s : State) (d : Nat) (f : Die → Die) : (s.modDie d f).corrected = s.corrected := rfl
@[simp] theorem State.modDie_lines (s : State) (d : Nat) (f : Die → Die) : (s.modDie d f).lines = s.lines := rfl
@[simp] theorem State.modDie_changes (s : State) (d : Nat) (f : Die → Die) : (s.modDie d f).changes = s.changes := rfl
@[simp] theorem State.modDie_scatter (s : State) (d : Nat) (f : Die → Die) : (s.modDie d f).scatter = s.scatter := rfl
@[simp] theorem State.modDie_spill2 (s : State) (d : Nat) (f : Die → Die) : (s.modDie d f).spill2 = s.spill2 := rfl
@[simp] theorem State.modDie_held (s : State) (d : Nat) (f : Die → Die) : (s.modDie d f).held = s.held := rfl
@[simp] theorem State.modDie_pins (s : State) (d : Nat) (f : Die → Die) : (s.modDie d f).pins = s.pins := rfl
@[simp] theorem State.modDie_counters (s : State) (d : Nat) (f : Die → Die) : (s.modDie d f).counters = s.counters := rfl
@[simp] theorem State.modDie_msgs (s : State) (d : Nat) (f : Die → Die) : (s.modDie d f).msgs = s.msgs := rfl
@[simp] theorem State.modDie_l1 (s : State) (d : Nat) (f : Die → Die) : (s.modDie d f).l1 = s.l1 := rfl
@[simp] theorem State.modDie_ibuf (s : State) (d : Nat) (f : Die → Die) : (s.modDie d f).ibuf = s.ibuf := rfl
@[simp] theorem State.modDie_tlb (s : State) (d : Nat) (f : Die → Die) : (s.modDie d f).tlb = s.tlb := rfl
@[simp] theorem State.modDie_past (s : State) (d : Nat) (f : Die → Die) : (s.modDie d f).past = s.past := rfl
@[simp] theorem State.modDie_tables (s : State) (d : Nat) (f : Die → Die) : (s.modDie d f).tables = s.tables := rfl
@[simp] theorem State.modDie_invals (s : State) (d : Nat) (f : Die → Die) : (s.modDie d f).invals = s.invals := rfl
@[simp] theorem State.modDie_invdone (s : State) (d : Nat) (f : Die → Die) : (s.modDie d f).invdone = s.invdone := rfl
@[simp] theorem State.modDie_replays (s : State) (d : Nat) (f : Die → Die) : (s.modDie d f).replays = s.replays := rfl
@[simp] theorem State.modDie_regs (s : State) (d : Nat) (f : Die → Die) : (s.modDie d f).regs = s.regs := rfl
@[simp] theorem State.modDie_crews (s : State) (d : Nat) (f : Die → Die) : (s.modDie d f).crews = s.crews := rfl
@[simp] theorem State.modDie_saved (s : State) (d : Nat) (f : Die → Die) : (s.modDie d f).saved = s.saved := rfl
@[simp] theorem State.modDie_holds (s : State) (d : Nat) (f : Die → Die) : (s.modDie d f).holds = s.holds := rfl
@[simp] theorem State.modDie_fetches (s : State) (d : Nat) (f : Die → Die) : (s.modDie d f).fetches = s.fetches := rfl
@[simp] theorem State.modDie_offers (s : State) (d : Nat) (f : Die → Die) : (s.modDie d f).offers = s.offers := rfl
@[simp] theorem State.modDie_cmds (s : State) (d : Nat) (f : Die → Die) : (s.modDie d f).cmds = s.cmds := rfl
@[simp] theorem State.modDie_chans (s : State) (d : Nat) (f : Die → Die) : (s.modDie d f).chans = s.chans := rfl
@[simp] theorem State.modDie_queues (s : State) (d : Nat) (f : Die → Die) : (s.modDie d f).queues = s.queues := rfl
@[simp] theorem State.modDie_rings (s : State) (d : Nat) (f : Die → Die) : (s.modDie d f).rings = s.rings := rfl
@[simp] theorem State.modDie_posts (s : State) (d : Nat) (f : Die → Die) : (s.modDie d f).posts = s.posts := rfl
@[simp] theorem State.modDie_msix (s : State) (d : Nat) (f : Die → Die) : (s.modDie d f).msix = s.msix := rfl
@[simp] theorem State.modDie_regions (s : State) (d : Nat) (f : Die → Die) : (s.modDie d f).regions = s.regions := rfl
@[simp] theorem State.modDie_asidbase (s : State) (d : Nat) (f : Die → Die) : (s.modDie d f).asidbase = s.asidbase := rfl
@[simp] theorem State.modDie_debugarm (s : State) (d : Nat) (f : Die → Die) : (s.modDie d f).debugarm = s.debugarm := rfl
@[simp] theorem State.modDie_armsec (s : State) (d : Nat) (f : Die → Die) : (s.modDie d f).armsec = s.armsec := rfl
@[simp] theorem State.modDie_qowner (s : State) (d : Nat) (f : Die → Die) : (s.modDie d f).qowner = s.qowner := rfl
@[simp] theorem State.modDie_obs (s : State) (d : Nat) (f : Die → Die) : (s.modDie d f).obs = s.obs := rfl
@[simp] theorem State.modDie_shadows (s : State) (d : Nat) (f : Die → Die) : (s.modDie d f).shadows = s.shadows := rfl
@[simp] theorem State.modDie_runs (s : State) (d : Nat) (f : Die → Die) : (s.modDie d f).runs = s.runs := rfl
@[simp] theorem State.modDie_signals (s : State) (d : Nat) (f : Die → Die) : (s.modDie d f).signals = s.signals := rfl
@[simp] theorem State.modDie_sseq (s : State) (d : Nat) (f : Die → Die) : (s.modDie d f).sseq = s.sseq := rfl
@[simp] theorem State.modDie_snaps (s : State) (d : Nat) (f : Die → Die) : (s.modDie d f).snaps = s.snaps := rfl
@[simp] theorem State.modDie_sampling (s : State) (d : Nat) (f : Die → Die) : (s.modDie d f).sampling = s.sampling := rfl
@[simp] theorem State.modDie_samples (s : State) (d : Nat) (f : Die → Die) : (s.modDie d f).samples = s.samples := rfl
@[simp] theorem State.modDie_links (s : State) (d : Nat) (f : Die → Die) : (s.modDie d f).links = s.links := rfl
@[simp] theorem State.modDie_peersDown (s : State) (d : Nat) (f : Die → Die) : (s.modDie d f).peersDown = s.peersDown := rfl
@[simp] theorem State.modDie_limited (s : State) (d : Nat) (f : Die → Die) : (s.modDie d f).limited = s.limited := rfl
@[simp] theorem State.modDie_up (s : State) (d : Nat) (f : Die → Die) : (s.modDie d f).up = s.up := rfl
@[simp] theorem State.modDie_tripped (s : State) (d : Nat) (f : Die → Die) : (s.modDie d f).tripped = s.tripped := rfl
@[simp] theorem State.modDie_status (s : State) (d : Nat) (f : Die → Die) : (s.modDie d f).status = s.status := rfl
@[simp] theorem State.modDie_m0 (s : State) (d : Nat) (f : Die → Die) : (s.modDie d f).m0 = s.m0 := rfl
@[simp] theorem State.modDie_m1 (s : State) (d : Nat) (f : Die → Die) : (s.modDie d f).m1 = s.m1 := rfl
@[simp] theorem State.modDie_report (s : State) (d : Nat) (f : Die → Die) : (s.modDie d f).report = s.report := rfl

/-! ### setMem -/

@[simp] theorem State.setMem_agenda (s : State) (k : Nat) (l : List Byte) : (s.setMem k l).agenda = s.agenda := rfl
@[simp] theorem State.setMem_slot (s : State) (k : Nat) (l : List Byte) : (s.setMem k l).slot = s.slot := rfl
@[simp] theorem State.setMem_free (s : State) (k : Nat) (l : List Byte) : (s.setMem k l).free = s.free := rfl
@[simp] theorem State.setMem_ids (s : State) (k : Nat) (l : List Byte) : (s.setMem k l).ids = s.ids := rfl
@[simp] theorem State.setMem_stalls (s : State) (k : Nat) (l : List Byte) : (s.setMem k l).stalls = s.stalls := rfl
@[simp] theorem State.setMem_lost (s : State) (k : Nat) (l : List Byte) : (s.setMem k l).lost = s.lost := rfl
@[simp] theorem State.setMem_corrected (s : State) (k : Nat) (l : List Byte) : (s.setMem k l).corrected = s.corrected := rfl
@[simp] theorem State.setMem_lines (s : State) (k : Nat) (l : List Byte) : (s.setMem k l).lines = s.lines := rfl
@[simp] theorem State.setMem_changes (s : State) (k : Nat) (l : List Byte) : (s.setMem k l).changes = s.changes := rfl
@[simp] theorem State.setMem_scatter (s : State) (k : Nat) (l : List Byte) : (s.setMem k l).scatter = s.scatter := rfl
@[simp] theorem State.setMem_spill2 (s : State) (k : Nat) (l : List Byte) : (s.setMem k l).spill2 = s.spill2 := rfl
@[simp] theorem State.setMem_held (s : State) (k : Nat) (l : List Byte) : (s.setMem k l).held = s.held := rfl
@[simp] theorem State.setMem_pins (s : State) (k : Nat) (l : List Byte) : (s.setMem k l).pins = s.pins := rfl
@[simp] theorem State.setMem_counters (s : State) (k : Nat) (l : List Byte) : (s.setMem k l).counters = s.counters := rfl
@[simp] theorem State.setMem_msgs (s : State) (k : Nat) (l : List Byte) : (s.setMem k l).msgs = s.msgs := rfl
@[simp] theorem State.setMem_l1 (s : State) (k : Nat) (l : List Byte) : (s.setMem k l).l1 = s.l1 := rfl
@[simp] theorem State.setMem_ibuf (s : State) (k : Nat) (l : List Byte) : (s.setMem k l).ibuf = s.ibuf := rfl
@[simp] theorem State.setMem_tlb (s : State) (k : Nat) (l : List Byte) : (s.setMem k l).tlb = s.tlb := rfl
@[simp] theorem State.setMem_tables (s : State) (k : Nat) (l : List Byte) : (s.setMem k l).tables = s.tables := rfl
@[simp] theorem State.setMem_invals (s : State) (k : Nat) (l : List Byte) : (s.setMem k l).invals = s.invals := rfl
@[simp] theorem State.setMem_invdone (s : State) (k : Nat) (l : List Byte) : (s.setMem k l).invdone = s.invdone := rfl
@[simp] theorem State.setMem_replays (s : State) (k : Nat) (l : List Byte) : (s.setMem k l).replays = s.replays := rfl
@[simp] theorem State.setMem_regs (s : State) (k : Nat) (l : List Byte) : (s.setMem k l).regs = s.regs := rfl
@[simp] theorem State.setMem_crews (s : State) (k : Nat) (l : List Byte) : (s.setMem k l).crews = s.crews := rfl
@[simp] theorem State.setMem_saved (s : State) (k : Nat) (l : List Byte) : (s.setMem k l).saved = s.saved := rfl
@[simp] theorem State.setMem_holds (s : State) (k : Nat) (l : List Byte) : (s.setMem k l).holds = s.holds := rfl
@[simp] theorem State.setMem_fetches (s : State) (k : Nat) (l : List Byte) : (s.setMem k l).fetches = s.fetches := rfl
@[simp] theorem State.setMem_offers (s : State) (k : Nat) (l : List Byte) : (s.setMem k l).offers = s.offers := rfl
@[simp] theorem State.setMem_cmds (s : State) (k : Nat) (l : List Byte) : (s.setMem k l).cmds = s.cmds := rfl
@[simp] theorem State.setMem_chans (s : State) (k : Nat) (l : List Byte) : (s.setMem k l).chans = s.chans := rfl
@[simp] theorem State.setMem_queues (s : State) (k : Nat) (l : List Byte) : (s.setMem k l).queues = s.queues := rfl
@[simp] theorem State.setMem_rings (s : State) (k : Nat) (l : List Byte) : (s.setMem k l).rings = s.rings := rfl
@[simp] theorem State.setMem_posts (s : State) (k : Nat) (l : List Byte) : (s.setMem k l).posts = s.posts := rfl
@[simp] theorem State.setMem_msix (s : State) (k : Nat) (l : List Byte) : (s.setMem k l).msix = s.msix := rfl
@[simp] theorem State.setMem_dies (s : State) (k : Nat) (l : List Byte) : (s.setMem k l).dies = s.dies := rfl
@[simp] theorem State.setMem_regions (s : State) (k : Nat) (l : List Byte) : (s.setMem k l).regions = s.regions := rfl
@[simp] theorem State.setMem_asidbase (s : State) (k : Nat) (l : List Byte) : (s.setMem k l).asidbase = s.asidbase := rfl
@[simp] theorem State.setMem_debugarm (s : State) (k : Nat) (l : List Byte) : (s.setMem k l).debugarm = s.debugarm := rfl
@[simp] theorem State.setMem_armsec (s : State) (k : Nat) (l : List Byte) : (s.setMem k l).armsec = s.armsec := rfl
@[simp] theorem State.setMem_qowner (s : State) (k : Nat) (l : List Byte) : (s.setMem k l).qowner = s.qowner := rfl
@[simp] theorem State.setMem_obs (s : State) (k : Nat) (l : List Byte) : (s.setMem k l).obs = s.obs := rfl
@[simp] theorem State.setMem_shadows (s : State) (k : Nat) (l : List Byte) : (s.setMem k l).shadows = s.shadows := rfl
@[simp] theorem State.setMem_runs (s : State) (k : Nat) (l : List Byte) : (s.setMem k l).runs = s.runs := rfl
@[simp] theorem State.setMem_signals (s : State) (k : Nat) (l : List Byte) : (s.setMem k l).signals = s.signals := rfl
@[simp] theorem State.setMem_sseq (s : State) (k : Nat) (l : List Byte) : (s.setMem k l).sseq = s.sseq := rfl
@[simp] theorem State.setMem_snaps (s : State) (k : Nat) (l : List Byte) : (s.setMem k l).snaps = s.snaps := rfl
@[simp] theorem State.setMem_sampling (s : State) (k : Nat) (l : List Byte) : (s.setMem k l).sampling = s.sampling := rfl
@[simp] theorem State.setMem_samples (s : State) (k : Nat) (l : List Byte) : (s.setMem k l).samples = s.samples := rfl
@[simp] theorem State.setMem_links (s : State) (k : Nat) (l : List Byte) : (s.setMem k l).links = s.links := rfl
@[simp] theorem State.setMem_peersDown (s : State) (k : Nat) (l : List Byte) : (s.setMem k l).peersDown = s.peersDown := rfl
@[simp] theorem State.setMem_limited (s : State) (k : Nat) (l : List Byte) : (s.setMem k l).limited = s.limited := rfl
@[simp] theorem State.setMem_up (s : State) (k : Nat) (l : List Byte) : (s.setMem k l).up = s.up := rfl
@[simp] theorem State.setMem_tripped (s : State) (k : Nat) (l : List Byte) : (s.setMem k l).tripped = s.tripped := rfl
@[simp] theorem State.setMem_status (s : State) (k : Nat) (l : List Byte) : (s.setMem k l).status = s.status := rfl
@[simp] theorem State.setMem_m0 (s : State) (k : Nat) (l : List Byte) : (s.setMem k l).m0 = s.m0 := rfl
@[simp] theorem State.setMem_m1 (s : State) (k : Nat) (l : List Byte) : (s.setMem k l).m1 = s.m1 := rfl
@[simp] theorem State.setMem_report (s : State) (k : Nat) (l : List Byte) : (s.setMem k l).report = s.report := rfl

/-! ### setRegWord -/

@[simp] theorem State.setRegWord_agenda (s : State) (c : CoreId) (a : Nat) (v : BitVec 32) : (s.setRegWord c a v).agenda = s.agenda := rfl
@[simp] theorem State.setRegWord_slot (s : State) (c : CoreId) (a : Nat) (v : BitVec 32) : (s.setRegWord c a v).slot = s.slot := rfl
@[simp] theorem State.setRegWord_free (s : State) (c : CoreId) (a : Nat) (v : BitVec 32) : (s.setRegWord c a v).free = s.free := rfl
@[simp] theorem State.setRegWord_ids (s : State) (c : CoreId) (a : Nat) (v : BitVec 32) : (s.setRegWord c a v).ids = s.ids := rfl
@[simp] theorem State.setRegWord_stalls (s : State) (c : CoreId) (a : Nat) (v : BitVec 32) : (s.setRegWord c a v).stalls = s.stalls := rfl
@[simp] theorem State.setRegWord_mem (s : State) (c : CoreId) (a : Nat) (v : BitVec 32) : (s.setRegWord c a v).mem = s.mem := rfl
@[simp] theorem State.setRegWord_lost (s : State) (c : CoreId) (a : Nat) (v : BitVec 32) : (s.setRegWord c a v).lost = s.lost := rfl
@[simp] theorem State.setRegWord_corrected (s : State) (c : CoreId) (a : Nat) (v : BitVec 32) : (s.setRegWord c a v).corrected = s.corrected := rfl
@[simp] theorem State.setRegWord_lines (s : State) (c : CoreId) (a : Nat) (v : BitVec 32) : (s.setRegWord c a v).lines = s.lines := rfl
@[simp] theorem State.setRegWord_changes (s : State) (c : CoreId) (a : Nat) (v : BitVec 32) : (s.setRegWord c a v).changes = s.changes := rfl
@[simp] theorem State.setRegWord_scatter (s : State) (c : CoreId) (a : Nat) (v : BitVec 32) : (s.setRegWord c a v).scatter = s.scatter := rfl
@[simp] theorem State.setRegWord_spill2 (s : State) (c : CoreId) (a : Nat) (v : BitVec 32) : (s.setRegWord c a v).spill2 = s.spill2 := rfl
@[simp] theorem State.setRegWord_held (s : State) (c : CoreId) (a : Nat) (v : BitVec 32) : (s.setRegWord c a v).held = s.held := rfl
@[simp] theorem State.setRegWord_pins (s : State) (c : CoreId) (a : Nat) (v : BitVec 32) : (s.setRegWord c a v).pins = s.pins := rfl
@[simp] theorem State.setRegWord_counters (s : State) (c : CoreId) (a : Nat) (v : BitVec 32) : (s.setRegWord c a v).counters = s.counters := rfl
@[simp] theorem State.setRegWord_msgs (s : State) (c : CoreId) (a : Nat) (v : BitVec 32) : (s.setRegWord c a v).msgs = s.msgs := rfl
@[simp] theorem State.setRegWord_l1 (s : State) (c : CoreId) (a : Nat) (v : BitVec 32) : (s.setRegWord c a v).l1 = s.l1 := rfl
@[simp] theorem State.setRegWord_ibuf (s : State) (c : CoreId) (a : Nat) (v : BitVec 32) : (s.setRegWord c a v).ibuf = s.ibuf := rfl
@[simp] theorem State.setRegWord_tlb (s : State) (c : CoreId) (a : Nat) (v : BitVec 32) : (s.setRegWord c a v).tlb = s.tlb := rfl
@[simp] theorem State.setRegWord_past (s : State) (c : CoreId) (a : Nat) (v : BitVec 32) : (s.setRegWord c a v).past = s.past := rfl
@[simp] theorem State.setRegWord_tables (s : State) (c : CoreId) (a : Nat) (v : BitVec 32) : (s.setRegWord c a v).tables = s.tables := rfl
@[simp] theorem State.setRegWord_invals (s : State) (c : CoreId) (a : Nat) (v : BitVec 32) : (s.setRegWord c a v).invals = s.invals := rfl
@[simp] theorem State.setRegWord_invdone (s : State) (c : CoreId) (a : Nat) (v : BitVec 32) : (s.setRegWord c a v).invdone = s.invdone := rfl
@[simp] theorem State.setRegWord_replays (s : State) (c : CoreId) (a : Nat) (v : BitVec 32) : (s.setRegWord c a v).replays = s.replays := rfl
@[simp] theorem State.setRegWord_crews (s : State) (c : CoreId) (a : Nat) (v : BitVec 32) : (s.setRegWord c a v).crews = s.crews := rfl
@[simp] theorem State.setRegWord_saved (s : State) (c : CoreId) (a : Nat) (v : BitVec 32) : (s.setRegWord c a v).saved = s.saved := rfl
@[simp] theorem State.setRegWord_holds (s : State) (c : CoreId) (a : Nat) (v : BitVec 32) : (s.setRegWord c a v).holds = s.holds := rfl
@[simp] theorem State.setRegWord_fetches (s : State) (c : CoreId) (a : Nat) (v : BitVec 32) : (s.setRegWord c a v).fetches = s.fetches := rfl
@[simp] theorem State.setRegWord_offers (s : State) (c : CoreId) (a : Nat) (v : BitVec 32) : (s.setRegWord c a v).offers = s.offers := rfl
@[simp] theorem State.setRegWord_cmds (s : State) (c : CoreId) (a : Nat) (v : BitVec 32) : (s.setRegWord c a v).cmds = s.cmds := rfl
@[simp] theorem State.setRegWord_chans (s : State) (c : CoreId) (a : Nat) (v : BitVec 32) : (s.setRegWord c a v).chans = s.chans := rfl
@[simp] theorem State.setRegWord_queues (s : State) (c : CoreId) (a : Nat) (v : BitVec 32) : (s.setRegWord c a v).queues = s.queues := rfl
@[simp] theorem State.setRegWord_rings (s : State) (c : CoreId) (a : Nat) (v : BitVec 32) : (s.setRegWord c a v).rings = s.rings := rfl
@[simp] theorem State.setRegWord_posts (s : State) (c : CoreId) (a : Nat) (v : BitVec 32) : (s.setRegWord c a v).posts = s.posts := rfl
@[simp] theorem State.setRegWord_msix (s : State) (c : CoreId) (a : Nat) (v : BitVec 32) : (s.setRegWord c a v).msix = s.msix := rfl
@[simp] theorem State.setRegWord_dies (s : State) (c : CoreId) (a : Nat) (v : BitVec 32) : (s.setRegWord c a v).dies = s.dies := rfl
@[simp] theorem State.setRegWord_regions (s : State) (c : CoreId) (a : Nat) (v : BitVec 32) : (s.setRegWord c a v).regions = s.regions := rfl
@[simp] theorem State.setRegWord_asidbase (s : State) (c : CoreId) (a : Nat) (v : BitVec 32) : (s.setRegWord c a v).asidbase = s.asidbase := rfl
@[simp] theorem State.setRegWord_debugarm (s : State) (c : CoreId) (a : Nat) (v : BitVec 32) : (s.setRegWord c a v).debugarm = s.debugarm := rfl
@[simp] theorem State.setRegWord_armsec (s : State) (c : CoreId) (a : Nat) (v : BitVec 32) : (s.setRegWord c a v).armsec = s.armsec := rfl
@[simp] theorem State.setRegWord_qowner (s : State) (c : CoreId) (a : Nat) (v : BitVec 32) : (s.setRegWord c a v).qowner = s.qowner := rfl
@[simp] theorem State.setRegWord_obs (s : State) (c : CoreId) (a : Nat) (v : BitVec 32) : (s.setRegWord c a v).obs = s.obs := rfl
@[simp] theorem State.setRegWord_shadows (s : State) (c : CoreId) (a : Nat) (v : BitVec 32) : (s.setRegWord c a v).shadows = s.shadows := rfl
@[simp] theorem State.setRegWord_runs (s : State) (c : CoreId) (a : Nat) (v : BitVec 32) : (s.setRegWord c a v).runs = s.runs := rfl
@[simp] theorem State.setRegWord_signals (s : State) (c : CoreId) (a : Nat) (v : BitVec 32) : (s.setRegWord c a v).signals = s.signals := rfl
@[simp] theorem State.setRegWord_sseq (s : State) (c : CoreId) (a : Nat) (v : BitVec 32) : (s.setRegWord c a v).sseq = s.sseq := rfl
@[simp] theorem State.setRegWord_snaps (s : State) (c : CoreId) (a : Nat) (v : BitVec 32) : (s.setRegWord c a v).snaps = s.snaps := rfl
@[simp] theorem State.setRegWord_sampling (s : State) (c : CoreId) (a : Nat) (v : BitVec 32) : (s.setRegWord c a v).sampling = s.sampling := rfl
@[simp] theorem State.setRegWord_samples (s : State) (c : CoreId) (a : Nat) (v : BitVec 32) : (s.setRegWord c a v).samples = s.samples := rfl
@[simp] theorem State.setRegWord_links (s : State) (c : CoreId) (a : Nat) (v : BitVec 32) : (s.setRegWord c a v).links = s.links := rfl
@[simp] theorem State.setRegWord_peersDown (s : State) (c : CoreId) (a : Nat) (v : BitVec 32) : (s.setRegWord c a v).peersDown = s.peersDown := rfl
@[simp] theorem State.setRegWord_limited (s : State) (c : CoreId) (a : Nat) (v : BitVec 32) : (s.setRegWord c a v).limited = s.limited := rfl
@[simp] theorem State.setRegWord_up (s : State) (c : CoreId) (a : Nat) (v : BitVec 32) : (s.setRegWord c a v).up = s.up := rfl
@[simp] theorem State.setRegWord_tripped (s : State) (c : CoreId) (a : Nat) (v : BitVec 32) : (s.setRegWord c a v).tripped = s.tripped := rfl
@[simp] theorem State.setRegWord_status (s : State) (c : CoreId) (a : Nat) (v : BitVec 32) : (s.setRegWord c a v).status = s.status := rfl
@[simp] theorem State.setRegWord_m0 (s : State) (c : CoreId) (a : Nat) (v : BitVec 32) : (s.setRegWord c a v).m0 = s.m0 := rfl
@[simp] theorem State.setRegWord_m1 (s : State) (c : CoreId) (a : Nat) (v : BitVec 32) : (s.setRegWord c a v).m1 = s.m1 := rfl
@[simp] theorem State.setRegWord_report (s : State) (c : CoreId) (a : Nat) (v : BitVec 32) : (s.setRegWord c a v).report = s.report := rfl

/-! ### setObs -/

@[simp] theorem State.setObs_agenda (s : State) (d off : Nat) (v : Word) : (s.setObs d off v).agenda = s.agenda := rfl
@[simp] theorem State.setObs_slot (s : State) (d off : Nat) (v : Word) : (s.setObs d off v).slot = s.slot := rfl
@[simp] theorem State.setObs_free (s : State) (d off : Nat) (v : Word) : (s.setObs d off v).free = s.free := rfl
@[simp] theorem State.setObs_ids (s : State) (d off : Nat) (v : Word) : (s.setObs d off v).ids = s.ids := rfl
@[simp] theorem State.setObs_stalls (s : State) (d off : Nat) (v : Word) : (s.setObs d off v).stalls = s.stalls := rfl
@[simp] theorem State.setObs_mem (s : State) (d off : Nat) (v : Word) : (s.setObs d off v).mem = s.mem := rfl
@[simp] theorem State.setObs_lost (s : State) (d off : Nat) (v : Word) : (s.setObs d off v).lost = s.lost := rfl
@[simp] theorem State.setObs_corrected (s : State) (d off : Nat) (v : Word) : (s.setObs d off v).corrected = s.corrected := rfl
@[simp] theorem State.setObs_lines (s : State) (d off : Nat) (v : Word) : (s.setObs d off v).lines = s.lines := rfl
@[simp] theorem State.setObs_changes (s : State) (d off : Nat) (v : Word) : (s.setObs d off v).changes = s.changes := rfl
@[simp] theorem State.setObs_scatter (s : State) (d off : Nat) (v : Word) : (s.setObs d off v).scatter = s.scatter := rfl
@[simp] theorem State.setObs_spill2 (s : State) (d off : Nat) (v : Word) : (s.setObs d off v).spill2 = s.spill2 := rfl
@[simp] theorem State.setObs_held (s : State) (d off : Nat) (v : Word) : (s.setObs d off v).held = s.held := rfl
@[simp] theorem State.setObs_pins (s : State) (d off : Nat) (v : Word) : (s.setObs d off v).pins = s.pins := rfl
@[simp] theorem State.setObs_counters (s : State) (d off : Nat) (v : Word) : (s.setObs d off v).counters = s.counters := rfl
@[simp] theorem State.setObs_msgs (s : State) (d off : Nat) (v : Word) : (s.setObs d off v).msgs = s.msgs := rfl
@[simp] theorem State.setObs_l1 (s : State) (d off : Nat) (v : Word) : (s.setObs d off v).l1 = s.l1 := rfl
@[simp] theorem State.setObs_ibuf (s : State) (d off : Nat) (v : Word) : (s.setObs d off v).ibuf = s.ibuf := rfl
@[simp] theorem State.setObs_tlb (s : State) (d off : Nat) (v : Word) : (s.setObs d off v).tlb = s.tlb := rfl
@[simp] theorem State.setObs_past (s : State) (d off : Nat) (v : Word) : (s.setObs d off v).past = s.past := rfl
@[simp] theorem State.setObs_tables (s : State) (d off : Nat) (v : Word) : (s.setObs d off v).tables = s.tables := rfl
@[simp] theorem State.setObs_invals (s : State) (d off : Nat) (v : Word) : (s.setObs d off v).invals = s.invals := rfl
@[simp] theorem State.setObs_invdone (s : State) (d off : Nat) (v : Word) : (s.setObs d off v).invdone = s.invdone := rfl
@[simp] theorem State.setObs_replays (s : State) (d off : Nat) (v : Word) : (s.setObs d off v).replays = s.replays := rfl
@[simp] theorem State.setObs_regs (s : State) (d off : Nat) (v : Word) : (s.setObs d off v).regs = s.regs := rfl
@[simp] theorem State.setObs_crews (s : State) (d off : Nat) (v : Word) : (s.setObs d off v).crews = s.crews := rfl
@[simp] theorem State.setObs_saved (s : State) (d off : Nat) (v : Word) : (s.setObs d off v).saved = s.saved := rfl
@[simp] theorem State.setObs_holds (s : State) (d off : Nat) (v : Word) : (s.setObs d off v).holds = s.holds := rfl
@[simp] theorem State.setObs_fetches (s : State) (d off : Nat) (v : Word) : (s.setObs d off v).fetches = s.fetches := rfl
@[simp] theorem State.setObs_offers (s : State) (d off : Nat) (v : Word) : (s.setObs d off v).offers = s.offers := rfl
@[simp] theorem State.setObs_cmds (s : State) (d off : Nat) (v : Word) : (s.setObs d off v).cmds = s.cmds := rfl
@[simp] theorem State.setObs_chans (s : State) (d off : Nat) (v : Word) : (s.setObs d off v).chans = s.chans := rfl
@[simp] theorem State.setObs_queues (s : State) (d off : Nat) (v : Word) : (s.setObs d off v).queues = s.queues := rfl
@[simp] theorem State.setObs_rings (s : State) (d off : Nat) (v : Word) : (s.setObs d off v).rings = s.rings := rfl
@[simp] theorem State.setObs_posts (s : State) (d off : Nat) (v : Word) : (s.setObs d off v).posts = s.posts := rfl
@[simp] theorem State.setObs_msix (s : State) (d off : Nat) (v : Word) : (s.setObs d off v).msix = s.msix := rfl
@[simp] theorem State.setObs_dies (s : State) (d off : Nat) (v : Word) : (s.setObs d off v).dies = s.dies := rfl
@[simp] theorem State.setObs_regions (s : State) (d off : Nat) (v : Word) : (s.setObs d off v).regions = s.regions := rfl
@[simp] theorem State.setObs_asidbase (s : State) (d off : Nat) (v : Word) : (s.setObs d off v).asidbase = s.asidbase := rfl
@[simp] theorem State.setObs_debugarm (s : State) (d off : Nat) (v : Word) : (s.setObs d off v).debugarm = s.debugarm := rfl
@[simp] theorem State.setObs_armsec (s : State) (d off : Nat) (v : Word) : (s.setObs d off v).armsec = s.armsec := rfl
@[simp] theorem State.setObs_qowner (s : State) (d off : Nat) (v : Word) : (s.setObs d off v).qowner = s.qowner := rfl
@[simp] theorem State.setObs_shadows (s : State) (d off : Nat) (v : Word) : (s.setObs d off v).shadows = s.shadows := rfl
@[simp] theorem State.setObs_runs (s : State) (d off : Nat) (v : Word) : (s.setObs d off v).runs = s.runs := rfl
@[simp] theorem State.setObs_signals (s : State) (d off : Nat) (v : Word) : (s.setObs d off v).signals = s.signals := rfl
@[simp] theorem State.setObs_sseq (s : State) (d off : Nat) (v : Word) : (s.setObs d off v).sseq = s.sseq := rfl
@[simp] theorem State.setObs_snaps (s : State) (d off : Nat) (v : Word) : (s.setObs d off v).snaps = s.snaps := rfl
@[simp] theorem State.setObs_sampling (s : State) (d off : Nat) (v : Word) : (s.setObs d off v).sampling = s.sampling := rfl
@[simp] theorem State.setObs_samples (s : State) (d off : Nat) (v : Word) : (s.setObs d off v).samples = s.samples := rfl
@[simp] theorem State.setObs_links (s : State) (d off : Nat) (v : Word) : (s.setObs d off v).links = s.links := rfl
@[simp] theorem State.setObs_peersDown (s : State) (d off : Nat) (v : Word) : (s.setObs d off v).peersDown = s.peersDown := rfl
@[simp] theorem State.setObs_limited (s : State) (d off : Nat) (v : Word) : (s.setObs d off v).limited = s.limited := rfl
@[simp] theorem State.setObs_up (s : State) (d off : Nat) (v : Word) : (s.setObs d off v).up = s.up := rfl
@[simp] theorem State.setObs_tripped (s : State) (d off : Nat) (v : Word) : (s.setObs d off v).tripped = s.tripped := rfl
@[simp] theorem State.setObs_status (s : State) (d off : Nat) (v : Word) : (s.setObs d off v).status = s.status := rfl
@[simp] theorem State.setObs_m0 (s : State) (d off : Nat) (v : Word) : (s.setObs d off v).m0 = s.m0 := rfl
@[simp] theorem State.setObs_m1 (s : State) (d off : Nat) (v : Word) : (s.setObs d off v).m1 = s.m1 := rfl
@[simp] theorem State.setObs_report (s : State) (d off : Nat) (v : Word) : (s.setObs d off v).report = s.report := rfl

/-! ### modRing -/

@[simp] theorem State.modRing_agenda (s : State) (i : Nat) (f : Ring → Ring) : (s.modRing i f).agenda = s.agenda := rfl
@[simp] theorem State.modRing_slot (s : State) (i : Nat) (f : Ring → Ring) : (s.modRing i f).slot = s.slot := rfl
@[simp] theorem State.modRing_free (s : State) (i : Nat) (f : Ring → Ring) : (s.modRing i f).free = s.free := rfl
@[simp] theorem State.modRing_ids (s : State) (i : Nat) (f : Ring → Ring) : (s.modRing i f).ids = s.ids := rfl
@[simp] theorem State.modRing_stalls (s : State) (i : Nat) (f : Ring → Ring) : (s.modRing i f).stalls = s.stalls := rfl
@[simp] theorem State.modRing_mem (s : State) (i : Nat) (f : Ring → Ring) : (s.modRing i f).mem = s.mem := rfl
@[simp] theorem State.modRing_lost (s : State) (i : Nat) (f : Ring → Ring) : (s.modRing i f).lost = s.lost := rfl
@[simp] theorem State.modRing_corrected (s : State) (i : Nat) (f : Ring → Ring) : (s.modRing i f).corrected = s.corrected := rfl
@[simp] theorem State.modRing_lines (s : State) (i : Nat) (f : Ring → Ring) : (s.modRing i f).lines = s.lines := rfl
@[simp] theorem State.modRing_changes (s : State) (i : Nat) (f : Ring → Ring) : (s.modRing i f).changes = s.changes := rfl
@[simp] theorem State.modRing_scatter (s : State) (i : Nat) (f : Ring → Ring) : (s.modRing i f).scatter = s.scatter := rfl
@[simp] theorem State.modRing_spill2 (s : State) (i : Nat) (f : Ring → Ring) : (s.modRing i f).spill2 = s.spill2 := rfl
@[simp] theorem State.modRing_held (s : State) (i : Nat) (f : Ring → Ring) : (s.modRing i f).held = s.held := rfl
@[simp] theorem State.modRing_pins (s : State) (i : Nat) (f : Ring → Ring) : (s.modRing i f).pins = s.pins := rfl
@[simp] theorem State.modRing_counters (s : State) (i : Nat) (f : Ring → Ring) : (s.modRing i f).counters = s.counters := rfl
@[simp] theorem State.modRing_msgs (s : State) (i : Nat) (f : Ring → Ring) : (s.modRing i f).msgs = s.msgs := rfl
@[simp] theorem State.modRing_l1 (s : State) (i : Nat) (f : Ring → Ring) : (s.modRing i f).l1 = s.l1 := rfl
@[simp] theorem State.modRing_ibuf (s : State) (i : Nat) (f : Ring → Ring) : (s.modRing i f).ibuf = s.ibuf := rfl
@[simp] theorem State.modRing_tlb (s : State) (i : Nat) (f : Ring → Ring) : (s.modRing i f).tlb = s.tlb := rfl
@[simp] theorem State.modRing_past (s : State) (i : Nat) (f : Ring → Ring) : (s.modRing i f).past = s.past := rfl
@[simp] theorem State.modRing_tables (s : State) (i : Nat) (f : Ring → Ring) : (s.modRing i f).tables = s.tables := rfl
@[simp] theorem State.modRing_invals (s : State) (i : Nat) (f : Ring → Ring) : (s.modRing i f).invals = s.invals := rfl
@[simp] theorem State.modRing_invdone (s : State) (i : Nat) (f : Ring → Ring) : (s.modRing i f).invdone = s.invdone := rfl
@[simp] theorem State.modRing_replays (s : State) (i : Nat) (f : Ring → Ring) : (s.modRing i f).replays = s.replays := rfl
@[simp] theorem State.modRing_regs (s : State) (i : Nat) (f : Ring → Ring) : (s.modRing i f).regs = s.regs := rfl
@[simp] theorem State.modRing_crews (s : State) (i : Nat) (f : Ring → Ring) : (s.modRing i f).crews = s.crews := rfl
@[simp] theorem State.modRing_saved (s : State) (i : Nat) (f : Ring → Ring) : (s.modRing i f).saved = s.saved := rfl
@[simp] theorem State.modRing_holds (s : State) (i : Nat) (f : Ring → Ring) : (s.modRing i f).holds = s.holds := rfl
@[simp] theorem State.modRing_fetches (s : State) (i : Nat) (f : Ring → Ring) : (s.modRing i f).fetches = s.fetches := rfl
@[simp] theorem State.modRing_offers (s : State) (i : Nat) (f : Ring → Ring) : (s.modRing i f).offers = s.offers := rfl
@[simp] theorem State.modRing_cmds (s : State) (i : Nat) (f : Ring → Ring) : (s.modRing i f).cmds = s.cmds := rfl
@[simp] theorem State.modRing_chans (s : State) (i : Nat) (f : Ring → Ring) : (s.modRing i f).chans = s.chans := rfl
@[simp] theorem State.modRing_queues (s : State) (i : Nat) (f : Ring → Ring) : (s.modRing i f).queues = s.queues := rfl
@[simp] theorem State.modRing_posts (s : State) (i : Nat) (f : Ring → Ring) : (s.modRing i f).posts = s.posts := rfl
@[simp] theorem State.modRing_msix (s : State) (i : Nat) (f : Ring → Ring) : (s.modRing i f).msix = s.msix := rfl
@[simp] theorem State.modRing_dies (s : State) (i : Nat) (f : Ring → Ring) : (s.modRing i f).dies = s.dies := rfl
@[simp] theorem State.modRing_regions (s : State) (i : Nat) (f : Ring → Ring) : (s.modRing i f).regions = s.regions := rfl
@[simp] theorem State.modRing_asidbase (s : State) (i : Nat) (f : Ring → Ring) : (s.modRing i f).asidbase = s.asidbase := rfl
@[simp] theorem State.modRing_debugarm (s : State) (i : Nat) (f : Ring → Ring) : (s.modRing i f).debugarm = s.debugarm := rfl
@[simp] theorem State.modRing_armsec (s : State) (i : Nat) (f : Ring → Ring) : (s.modRing i f).armsec = s.armsec := rfl
@[simp] theorem State.modRing_qowner (s : State) (i : Nat) (f : Ring → Ring) : (s.modRing i f).qowner = s.qowner := rfl
@[simp] theorem State.modRing_obs (s : State) (i : Nat) (f : Ring → Ring) : (s.modRing i f).obs = s.obs := rfl
@[simp] theorem State.modRing_shadows (s : State) (i : Nat) (f : Ring → Ring) : (s.modRing i f).shadows = s.shadows := rfl
@[simp] theorem State.modRing_runs (s : State) (i : Nat) (f : Ring → Ring) : (s.modRing i f).runs = s.runs := rfl
@[simp] theorem State.modRing_signals (s : State) (i : Nat) (f : Ring → Ring) : (s.modRing i f).signals = s.signals := rfl
@[simp] theorem State.modRing_sseq (s : State) (i : Nat) (f : Ring → Ring) : (s.modRing i f).sseq = s.sseq := rfl
@[simp] theorem State.modRing_snaps (s : State) (i : Nat) (f : Ring → Ring) : (s.modRing i f).snaps = s.snaps := rfl
@[simp] theorem State.modRing_sampling (s : State) (i : Nat) (f : Ring → Ring) : (s.modRing i f).sampling = s.sampling := rfl
@[simp] theorem State.modRing_samples (s : State) (i : Nat) (f : Ring → Ring) : (s.modRing i f).samples = s.samples := rfl
@[simp] theorem State.modRing_links (s : State) (i : Nat) (f : Ring → Ring) : (s.modRing i f).links = s.links := rfl
@[simp] theorem State.modRing_peersDown (s : State) (i : Nat) (f : Ring → Ring) : (s.modRing i f).peersDown = s.peersDown := rfl
@[simp] theorem State.modRing_limited (s : State) (i : Nat) (f : Ring → Ring) : (s.modRing i f).limited = s.limited := rfl
@[simp] theorem State.modRing_up (s : State) (i : Nat) (f : Ring → Ring) : (s.modRing i f).up = s.up := rfl
@[simp] theorem State.modRing_tripped (s : State) (i : Nat) (f : Ring → Ring) : (s.modRing i f).tripped = s.tripped := rfl
@[simp] theorem State.modRing_status (s : State) (i : Nat) (f : Ring → Ring) : (s.modRing i f).status = s.status := rfl
@[simp] theorem State.modRing_m0 (s : State) (i : Nat) (f : Ring → Ring) : (s.modRing i f).m0 = s.m0 := rfl
@[simp] theorem State.modRing_m1 (s : State) (i : Nat) (f : Ring → Ring) : (s.modRing i f).m1 = s.m1 := rfl
@[simp] theorem State.modRing_report (s : State) (i : Nat) (f : Ring → Ring) : (s.modRing i f).report = s.report := rfl

/-! ### The changed fields -/

@[simp] theorem State.modCrew_crews (s : State) (i : Nat) (f : Crew → Crew) : (s.modCrew i f).crews = mapIf (fun c => c.id == i) f s.crews := rfl
@[simp] theorem State.modDie_dies (s : State) (d : Nat) (f : Die → Die) : (s.modDie d f).dies = listMod s.dies d f := rfl
@[simp] theorem State.setMem_mem (s : State) (k : Nat) (l : List Byte) : (s.setMem k l).mem = memPut s.mem k l := rfl
@[simp] theorem State.modRing_rings (s : State) (i : Nat) (f : Ring → Ring) : (s.modRing i f).rings = listMod s.rings i f := rfl
@[simp] theorem State.setObs_obs (s : State) (d off : Nat) (v : Word) : (s.setObs d off v).obs = assocSet s.obs (d, off) v := rfl

/-- A raised signal changes the raised signals and nothing else. -/
theorem State.signal_eq (s : State) (die block sig n : Nat) : ∃ l, s.signal die block sig n = { s with signals := l } := by
  simp only [State.signal]; split <;> exact ⟨_, rfl⟩

theorem State.coreSignal_eq (s : State) (c : CoreId) (sig n : Nat) : ∃ l, s.coreSignal c sig n = { s with signals := l } := by
  simp only [State.coreSignal]; split
  · exact State.signal_eq ..
  · exact ⟨_, rfl⟩

/-! ### Memory -/

/-- Writing bytes keeps the canonical form. -/
theorem memPut_wf {m : List Host.Cell} (k : Nat) (l : List Byte) (h : sparseWf 0 m = true) : sparseWf 0 (memPut m k l) = true := by
  induction l generalizing m k with
  | nil => exact h
  | cons b l ih => exact ih (k + 1) (sparseWf_set k b h)

/-- Writing bytes leaves every other byte. -/
theorem memPut_other {m : List Host.Cell} (k : Nat) (l : List Byte) (a : Nat) (h : sparseWf 0 m = true) (ha : a < k ∨ k + l.length ≤ a) :
    sparseGet 0 (memPut m k l) a = sparseGet 0 m a := by
  induction l generalizing m k with
  | nil => rfl
  | cons b l ih =>
    simp only [List.length_cons] at ha
    simp only [memPut]
    rw [ih (k + 1) (sparseWf_set k b h) (by omega)]
    exact sparseGet_set_ne b h (by omega)

/-- A byte written reads as written. -/
theorem memPut_same {m : List Host.Cell} (k : Nat) (l : List Byte) (i : Nat) (h : sparseWf 0 m = true) (hi : i < l.length) :
    sparseGet 0 (memPut m k l) (k + i) = l[i] := by
  induction l generalizing m k i with
  | nil => simp at hi
  | cons b l ih =>
    simp only [memPut]
    cases i with
    | zero => rw [memPut_other _ _ _ (sparseWf_set k b h) (by omega)]; exact sparseGet_set_same k b h
    | succ i =>
      have := ih (k + 1) i (sparseWf_set k b h) (by simpa using hi)
      rw [show k + (i + 1) = k + 1 + i by omega, this]; rfl

/-- `setMem` keeps the canonical form. -/
theorem State.setMem_wf (s : State) (k : Nat) (l : List Byte) (h : sparseWf 0 s.mem = true) : sparseWf 0 (s.setMem k l).mem = true := memPut_wf k l h

/-- A byte outside a write reads as before. -/
theorem State.memByte_setMem_other (s : State) (k : Nat) (l : List Byte) (a : Nat) (h : sparseWf 0 s.mem = true) (ha : a < k ∨ k + l.length ≤ a) :
    (s.setMem k l).memByte a = s.memByte a := memPut_other k l a h ha

/-- A byte inside a write reads as written. -/
theorem State.memByte_setMem_same (s : State) (k : Nat) (l : List Byte) (i : Nat) (h : sparseWf 0 s.mem = true) (hi : i < l.length) :
    (s.setMem k l).memByte (k + i) = l[i] := memPut_same k l i h hi

/-- A team's scratchpad keeps the form as well. -/
theorem Team.setPad_wf (t : Team) (off : Nat) (l : List Byte) (h : sparseWf 0 t.scratch = true) : sparseWf 0 (t.setPad off l).scratch = true :=
  memPut_wf off l h

end Sys2Proof.Machine
end

