-- ==== Sys2Proof/Laws/Ops.lean ====
section
/-! SUPPORT. What the shared operations can do, said once: the surroundings of a word, issuing it, taking a trap, returning from it, writing memory. -/

namespace Sys2Proof.Machine

/-! ### The surroundings of a word -/

/-- Where the surroundings come from: the grant, its crew, its stream, its path, the clause in progress and the word there. -/
theorem ctx_eq {s : State} {p : Pre} {c : Ctx} (h : s.ctx? p = some c) :
    c.s0 = s ∧ s.slot = some c.grant ∧ s.crew? c.id = some c.crew ∧ s.strand? c.id c.sid = some c.t ∧ c.t.path? c.grant.path = some c.path
      ∧ c.path.clause = some c.cl ∧ c.cl.words[c.pos]? = some c.word ∧ c.addr = c.path.pc + BitVec.ofNat 64 (8 * (c.pos + 1)) ∧ c.hnd = c.t.inH
      ∧ c.lanes = (match c.path.only with | some m => c.path.lanes &&& m | none => c.path.lanes)
      ∧ c.act = lanesWhere fun l => c.lanes.getLsbD l && guardBit p (predBits c.crew c.sid c.t l) := by
  unfold State.ctx? at h
  split at h
  · cases h
  · rename_i g hg
    split at h
    · rename_i cr t hcr ht
      split at h
      · cases h
      · rename_i q hq
        split at h
        · cases h
        · rename_i cl hcl
          split at h
          · cases h
          · rename_i w hw
            cases h
            exact ⟨rfl, hg, hcr, ht, hq, hcl, hw, rfl, rfl, rfl, rfl⟩
    · cases h

/-- A word makes a next state, or there is no word to issue: it never refuses. -/
theorem word_cases (i : Instr) (s : State) (body : Ctx → Out) :
    (s.ctx? i.pre = none ∧ word i s body = .fault .noStream) ∨ ∃ c, s.ctx? i.pre = some c ∧ word i s body = .next (c.run i body) := by
  simp only [word]
  split
  · exact .inl ⟨by assumption, rfl⟩
  · exact .inr ⟨_, by assumption, rfl⟩

/-- Issuing a word: it traps at itself before any effect, the alias view stops it, or its body runs (R64, R96, R97). -/
theorem run_cases (c : Ctx) (i : Instr) (body : Ctx → Out) :
    (∃ k, c.check i = some k ∧ c.run i body = c.trapWord (c.issued c.s0) 1 (c.allLanes k))
      ∨ (∃ o, c.check i = none ∧ c.aliasGate i = some o ∧ c.run i body = c.finish (c.holdOf i) o)
      ∨ (c.check i = none ∧ c.aliasGate i = none ∧ c.run i body = c.finish (c.holdOf i) (body c)) := by
  simp only [Ctx.run]
  split
  · exact .inl ⟨_, by assumption, rfl⟩
  · split
    · exact .inr (.inl ⟨_, by assumption, by assumption, rfl⟩)
    · exact .inr (.inr ⟨by assumption, by assumption, rfl⟩)

/-! ### What follows a word, by how it ends -/

theorem finish_done (c : Ctx) (h : Option (Nat → Word)) (s : State) : c.finish h (.done s) = c.advance (c.putLatch h (c.issued s)) := rfl
theorem finish_stall (c : Ctx) (h : Option (Nat → Word)) :
    c.finish h .stall = { c.s0 with slot := none, stalls := (c.id, c.sid, c.grant.path) :: c.s0.stalls } := rfl
theorem finish_jump (c : Ctx) (h : Option (Nat → Word)) (s : State) (n : List (Nat × Word)) :
    c.finish h (.jump s n) = c.checkReturn (c.endClause (c.issued s) (n ++ c.skipped s)) := rfl
theorem finish_back (c : Ctx) (h : Option (Nat → Word)) (s : State) (n : List (Nat × Dest)) :
    c.finish h (.back s n) = c.checkReturn (c.endClauseAt (c.issued s) (n ++ (c.skipped s).map fun x => (x.1, x.2, none))) := rfl

/-! ### Memory -/

/-- A change of scattered bytes keeps the canonical form. -/
theorem memPutCells_wf {m : List Host.Cell} (l : List Host.Cell) (h : sparseWf 0 m = true) : sparseWf 0 (memPutCells m l) = true := by
  induction l generalizing m with
  | nil => exact h
  | cons p l ih => obtain ⟨k, b⟩ := p; exact ih (sparseWf_set k b h)

/-- A change of scattered bytes leaves every byte that it does not list. -/
theorem memPutCells_other {m : List Host.Cell} (l : List Host.Cell) (a : Nat) (h : sparseWf 0 m = true) (ha : ∀ p ∈ l, p.1 ≠ a) :
    sparseGet 0 (memPutCells m l) a = sparseGet 0 m a := by
  induction l generalizing m with
  | nil => rfl
  | cons p l ih =>
    obtain ⟨k, b⟩ := p
    simp only [memPutCells]
    rw [ih (sparseWf_set k b h) fun q hq => ha q (List.mem_cons_of_mem _ hq)]
    exact sparseGet_set_ne b h (Ne.symm (ha (k, b) (List.mem_cons_self ..)))

/-- A sequence of updates that leave memory leaves memory. -/
theorem foldl_mem {α : Type} (f : State → α → State) (l : List α) (s : State) (h : ∀ s x, (f s x).mem = s.mem) : (l.foldl f s).mem = s.mem := by
  induction l generalizing s with
  | nil => rfl
  | cons x l ih => rw [List.foldl_cons, ih, h]

@[simp] theorem State.signal_mem (s : State) (die block sig n : Nat) : (s.signal die block sig n).mem = s.mem := by
  obtain ⟨l, h⟩ := s.signal_eq die block sig n; rw [h]

@[simp] theorem State.addCounter_mem (s : State) (d off n : Nat) : (s.addCounter d off n).mem = s.mem := by
  simp only [State.addCounter]; split <;> rfl

@[simp] theorem State.signalAt_mem (s : State) (p : Point) (i n : Nat) : (s.signalAt p i n).mem = s.mem := by
  cases p <;> simp [State.signalAt]

@[simp] theorem State.setHeld_mem (s : State) (p : Point) (l : List Held) : (s.setHeld p l).mem = s.mem := by
  simp [State.setHeld]

@[simp] theorem State.countAt_mem (s : State) (p : Point) (i n : Nat) : (s.countAt p i n).mem = s.mem := by
  cases p <;> simp [State.countAt]

@[simp] theorem State.dropCopies_mem (s : State) (p : Point) (l : Nat) : (s.dropCopies p l).mem = s.mem := by
  cases p with
  | slice d k =>
    simp only [State.dropCopies, State.countAt_mem]
    exact foldl_mem _ _ s fun _ _ => State.setHeld_mem ..
  | _ => rfl

@[simp] theorem State.unlose_mem (s : State) (l : Nat) (ws : List Host.Cell) : (s.unlose l ws).mem = s.mem := by
  simp only [State.unlose]; split <;> rfl

@[simp] theorem State.coreSignal_mem (s : State) (c : CoreId) (sig n : Nat) : (s.coreSignal c sig n).mem = s.mem := by
  obtain ⟨l, h⟩ := s.coreSignal_eq c sig n; rw [h]

/-! ### Traps -/

/-- A trap of a word outside a handler, in a stream that has one: the stream enters it, and only the trace may change beside (R195 to R200). -/
theorem takeTrap_enters {s : State} {crew pid : Nat} {sid : Sid} {r : Raise} {c : Crew} {t : Strand} {p : Path}
    (hc : s.crew? crew = some c) (ht : s.strand? crew sid = some t) (hp : t.path? pid = some p) (h8 : r.cause ≠ 8) (h14 : r.cause ≠ 14)
    (hH : t.inH = false) (hn : c.handlerOf sid ≠ 0) (htr : s.tracedStream c sid = false) :
    s.takeTrap crew sid pid r = s.modStrand crew sid fun t => t.enter p r (c.handlerOf sid) (s.clk c.die) s.ids c.desc.limit := by
  have hn' : ¬ c.handlerOf sid = 0#64 := hn
  simp [State.takeTrap, hc, ht, hp, h8, h14, hH, hn', htr, State.traceTrap]

/-- A trap with no handler to go to ends the crew (R202); one inside a handler does so too (R203). -/
theorem takeTrap_ends {s : State} {crew pid : Nat} {sid : Sid} {r : Raise} {c : Crew} {t : Strand} {p : Path}
    (hc : s.crew? crew = some c) (ht : s.strand? crew sid = some t) (hp : t.path? pid = some p) (h8 : r.cause ≠ 8) (h14 : r.cause ≠ 14)
    (hH : t.inH = true ∨ c.handlerOf sid = 0) (htr : s.tracedStream c sid = false) :
    ∃ k w i, s.takeTrap crew sid pid r = s.endCrew crew k w i := by
  rcases hH with hH | hn
  · exact ⟨5, _, _, by simp only [State.takeTrap, hc, ht, hp]; simp [h8, hH, htr, State.traceTrap]; rfl⟩
  · cases hH : t.inH
    · exact ⟨if r.cause = 13 then 3 else 4, _, _, by simp only [State.takeTrap, hc, ht, hp]; simp [h8, h14, hH, hn, htr, State.traceTrap]; rfl⟩
    · exact ⟨5, _, _, by simp only [State.takeTrap, hc, ht, hp]; simp [h8, hH, htr, State.traceTrap]; rfl⟩

/-- A handler entered: where it stands, what is saved, and the rest of the stream as it was (R197 to R200). -/
theorem enter_spec (t : Strand) (p : Path) (r : Raise) (e : Word) (clk first limit : Nat) :
    (t.enter p r e clk first limit).inH = true ∧ (t.enter p r e clk first limit).paths = [handlerPath t.nextId p e] ∧ (t.enter p r e clk first limit).trap.mask = r.mask
      ∧ (t.enter p r e clk first limit).trap.aux = r.aux ∧ (t.enter p r e clk first limit).trap.cause = trapCause r.cause r.kind t.logn (r.pend || !(t.laterWatchdogs limit p.id r.cause).isEmpty) (r.at_.getD 0)
      ∧ (t.enter p r e clk first limit).threads = t.threads ∧ (t.enter p r e clk first limit).g = t.g ∧ (t.enter p r e clk first limit).log = t.log
      ∧ (t.enter p r e clk first limit).ld = t.ld ∧ (t.enter p r e clk first limit).st = t.st ∧ (t.enter p r e clk first limit).cp = t.cp ∧ (t.enter p r e clk first limit).tl = t.tl :=
  ⟨rfl, rfl, rfl, rfl, rfl, rfl, rfl, rfl, rfl, rfl, rfl, rfl⟩

/-- A stream that leaves its handler is in none, and its trap registers are clear (R205). -/
theorem leave_spec (t : Strand) (hret : Word) (last : Option Nat) :
    (t.leave hret last).inH = false ∧ (t.inH = true → (t.leave hret last).trap = { cause := 0, mask := 0, pc := 0, aux := 0 }) := by
  simp only [Strand.leave, Strand.inH]
  cases h : t.intr <;> simp [h]

/-! ### Counters -/

/-- What an entry raised it lowers again (R298). -/
theorem lower_raise (t : Strand) (k : Counts) : (t.raise k).lower k = t := by
  simp [Strand.raise, Strand.lower]

/-! ### Barriers -/

/-- A phase is complete after `Settle` exactly where its target is met: then it goes on by one, and nothing has arrived in the new one (R305). -/
theorem barSettle_cases (b : Word) (n : Nat) :
    barSettle b n = b ∨ (barOpen b = true ∧ barSettle b n = barWord (barPhase b + 1) false false 0 (barTarget b)) := by
  unfold barSettle
  by_cases h : (barOpen b && (if barAll b then decide (barArrived b ≥ n) else barArrived b == barTarget b)) = true
  · rw [if_pos h]; exact .inr ⟨(Bool.and_eq_true _ _ ▸ h).1, rfl⟩
  · rw [if_neg h]; exact .inl rfl

/-! ### A step -/

/-- A granted word that decodes is executed (R50); one that does not traps (R64). -/
theorem step_word {s : State} {c : Ctx} {i : Instr} (hs : s.ctx? ⟨15, false, 0⟩ = some c) (hd : decode c.word = some i) : step s = exec i s := by
  have hg := (ctx_eq hs).2.1
  have hf : s.fetchNext = .instr i := by unfold State.fetchNext; rw [hs]; simp only [hd]
  unfold step; rw [hg]; simp only [hf]

end Sys2Proof.Machine
end

