-- ==== Sys2Proof/Laws/PerInstr.lean ====
section
/-! SUPPORT. A law of each instruction as syntax: the word that an instruction encodes to reads back the instruction's prefix (R52 to R60). -/

set_option linter.unusedSimpArgs false

/-- The prefix of the encoded word, the guard and HL, is the instruction's; a move has no word. -/
def Sys2Proof.Laws.Prefix.Statement (i : Sys2Proof.Instr) : Prop :=
  ∀ w, Sys2Proof.encode i = some w → (Sys2Proof.Fields.ofWord w).pre = i.pre

namespace Sys2Proof.Laws.Prefix

open Sys2Proof

/-- A word built from a prefix reads the prefix back. -/
theorem of_fields {i : Instr} {f : Fields} (hf : i.fields = some f) (hp : f.pre = i.pre) : Statement i := by
  intro w h
  simp only [encode, hf, Option.map_some, Option.some.injEq] at h
  rw [← h, Fields.ofWord_word, hp]

/-- A move has no word. -/
theorem of_move {i : Instr} (hf : i.fields = none) : Statement i := by
  intro w h
  simp [encode, hf] at h

theorem nop (a0 : Pre) : Statement (.nop a0) := of_fields rfl (Pre.fields_pre ..)
theorem bra (a0 : Pre) (a1 : Bool) (a2 : BitVec 30) : Statement (.bra a0 a1 a2) := of_fields rfl (Pre.fields_pre ..)
theorem brx (a0 : Pre) (a1 : Bool) (a2 : Opd) : Statement (.brx a0 a1 a2) := of_fields rfl (Pre.fields_pre ..)
theorem call (a0 : Pre) (a1 : Bool) (a2 : Opd) (a3 : BitVec 30) : Statement (.call a0 a1 a2 a3) := of_fields rfl (Pre.fields_pre ..)
theorem callx (a0 : Pre) (a1 : Bool) (a2 : Opd) (a3 : Opd) : Statement (.callx a0 a1 a2 a3) := of_fields rfl (Pre.fields_pre ..)
theorem ret (a0 : Pre) (a1 : Bool) (a2 : Opd) : Statement (.ret a0 a1 a2) := of_fields rfl (Pre.fields_pre ..)
theorem yield (a0 : Pre) : Statement (.yield a0) := of_fields rfl (Pre.fields_pre ..)
theorem exit (a0 : Pre) : Statement (.exit a0) := of_fields rfl (Pre.fields_pre ..)
theorem iadd (a0 : Pre) (a1 : Ty) (a2 : Bool) (a3 : Opd) (a4 : Opd) (a5 : Opd) : Statement (.iadd a0 a1 a2 a3 a4 a5) := of_fields rfl (Pre.fields_pre ..)
theorem isub (a0 : Pre) (a1 : Ty) (a2 : Bool) (a3 : Opd) (a4 : Opd) (a5 : Opd) : Statement (.isub a0 a1 a2 a3 a4 a5) := of_fields rfl (Pre.fields_pre ..)
theorem imul (a0 : Pre) (a1 : Ty) (a2 : Opd) (a3 : Opd) (a4 : Opd) : Statement (.imul a0 a1 a2 a3 a4) := of_fields rfl (Pre.fields_pre ..)
theorem imulhi (a0 : Pre) (a1 : Ty) (a2 : Opd) (a3 : Opd) (a4 : Opd) : Statement (.imulhi a0 a1 a2 a3 a4) := of_fields rfl (Pre.fields_pre ..)
theorem imad (a0 : Pre) (a1 : Ty) (a2 : Opd) (a3 : Opd) (a4 : Opd) (a5 : Opd) : Statement (.imad a0 a1 a2 a3 a4 a5) := of_fields rfl (Pre.fields_pre ..)
theorem iwmad (a0 : Pre) (a1 : Ty) (a2 : Opd) (a3 : Opd) (a4 : Opd) (a5 : Opd) : Statement (.iwmad a0 a1 a2 a3 a4 a5) := of_fields rfl (Pre.fields_pre ..)
theorem imin (a0 : Pre) (a1 : Ty) (a2 : Opd) (a3 : Opd) (a4 : Opd) : Statement (.imin a0 a1 a2 a3 a4) := of_fields rfl (Pre.fields_pre ..)
theorem imax (a0 : Pre) (a1 : Ty) (a2 : Opd) (a3 : Opd) (a4 : Opd) : Statement (.imax a0 a1 a2 a3 a4) := of_fields rfl (Pre.fields_pre ..)
theorem iabs (a0 : Pre) (a1 : Ty) (a2 : Bool) (a3 : Opd) (a4 : Opd) : Statement (.iabs a0 a1 a2 a3 a4) := of_fields rfl (Pre.fields_pre ..)
theorem isad (a0 : Pre) (a1 : Ty) (a2 : Opd) (a3 : Opd) (a4 : Opd) (a5 : Opd) : Statement (.isad a0 a1 a2 a3 a4 a5) := of_fields rfl (Pre.fields_pre ..)
theorem iaddi (a0 : Pre) (a1 : Ty) (a2 : Bool) (a3 : Opd) (a4 : Opd) (a5 : BitVec 20) : Statement (.iaddi a0 a1 a2 a3 a4 a5) := of_fields rfl (Pre.fields_pre ..)
theorem lea (a0 : Pre) (a1 : Ty) (a2 : BitVec 3) (a3 : Opd) (a4 : Opd) (a5 : Opd) : Statement (.lea a0 a1 a2 a3 a4 a5) := of_fields rfl (Pre.fields_pre ..)
theorem idp4 (a0 : Pre) (a1 : Ty) (a2 : Bool) (a3 : Bool) (a4 : Opd) (a5 : Opd) (a6 : Opd) (a7 : Opd) : Statement (.idp4 a0 a1 a2 a3 a4 a5 a6 a7) := of_fields rfl (Pre.fields_pre ..)
theorem and (a0 : Pre) (a1 : Ty) (a2 : Opd) (a3 : Opd) (a4 : Opd) : Statement (.and a0 a1 a2 a3 a4) := of_fields rfl (Pre.fields_pre ..)
theorem or (a0 : Pre) (a1 : Ty) (a2 : Opd) (a3 : Opd) (a4 : Opd) : Statement (.or a0 a1 a2 a3 a4) := of_fields rfl (Pre.fields_pre ..)
theorem xor (a0 : Pre) (a1 : Ty) (a2 : Opd) (a3 : Opd) (a4 : Opd) : Statement (.xor a0 a1 a2 a3 a4) := of_fields rfl (Pre.fields_pre ..)
theorem andn (a0 : Pre) (a1 : Ty) (a2 : Opd) (a3 : Opd) (a4 : Opd) : Statement (.andn a0 a1 a2 a3 a4) := of_fields rfl (Pre.fields_pre ..)
theorem shl (a0 : Pre) (a1 : Ty) (a2 : Opd) (a3 : Opd) (a4 : Opd) : Statement (.shl a0 a1 a2 a3 a4) := of_fields rfl (Pre.fields_pre ..)
theorem shr (a0 : Pre) (a1 : Ty) (a2 : Opd) (a3 : Opd) (a4 : Opd) : Statement (.shr a0 a1 a2 a3 a4) := of_fields rfl (Pre.fields_pre ..)
theorem sar (a0 : Pre) (a1 : Ty) (a2 : Opd) (a3 : Opd) (a4 : Opd) : Statement (.sar a0 a1 a2 a3 a4) := of_fields rfl (Pre.fields_pre ..)
theorem rot (a0 : Pre) (a1 : Ty) (a2 : Opd) (a3 : Opd) (a4 : Opd) : Statement (.rot a0 a1 a2 a3 a4) := of_fields rfl (Pre.fields_pre ..)
theorem bfx (a0 : Pre) (a1 : Ty) (a2 : Opd) (a3 : Opd) (a4 : Opd) : Statement (.bfx a0 a1 a2 a3 a4) := of_fields rfl (Pre.fields_pre ..)
theorem bfi (a0 : Pre) (a1 : Ty) (a2 : Opd) (a3 : Opd) (a4 : Opd) (a5 : Opd) : Statement (.bfi a0 a1 a2 a3 a4 a5) := of_fields rfl (Pre.fields_pre ..)
theorem popc (a0 : Pre) (a1 : Ty) (a2 : Opd) (a3 : Opd) : Statement (.popc a0 a1 a2 a3) := of_fields rfl (Pre.fields_pre ..)
theorem clz (a0 : Pre) (a1 : Ty) (a2 : Opd) (a3 : Opd) : Statement (.clz a0 a1 a2 a3) := of_fields rfl (Pre.fields_pre ..)
theorem brev (a0 : Pre) (a1 : Ty) (a2 : Opd) (a3 : Opd) : Statement (.brev a0 a1 a2 a3) := of_fields rfl (Pre.fields_pre ..)
theorem movi (a0 : Pre) (a1 : Ty) (a2 : Opd) (a3 : BitVec 20) : Statement (.movi a0 a1 a2 a3) := of_fields rfl (Pre.fields_pre ..)
theorem movhi (a0 : Pre) (a1 : Ty) (a2 : Bool) (a3 : Opd) (a4 : Opd) (a5 : BitVec 20) : Statement (.movhi a0 a1 a2 a3 a4 a5) := of_fields rfl (Pre.fields_pre ..)
theorem icmp (a0 : Pre) (a1 : Ty) (a2 : Cmp) (a3 : PField) (a4 : Opd) (a5 : Opd) : Statement (.icmp a0 a1 a2 a3 a4 a5) := of_fields rfl (Pre.fields_pre ..)
theorem plop (a0 : Pre) (a1 : BitVec 4) (a2 : PField) (a3 : PField) (a4 : PField) (a5 : PField) : Statement (.plop a0 a1 a2 a3 a4 a5) := of_fields rfl (Pre.fields_pre ..)
theorem sel (a0 : Pre) (a1 : Ty) (a2 : Opd) (a3 : Opd) (a4 : Opd) (a5 : PField) : Statement (.sel a0 a1 a2 a3 a4 a5) := of_fields rfl (Pre.fields_pre ..)
theorem mov (a0 : Pre) (a1 : Ty) (a2 : Opd) (a3 : Opd) : Statement (.mov a0 a1 a2 a3) := of_fields rfl (Pre.fields_pre ..)
theorem shfl (a0 : Pre) (a1 : Ty) (a2 : Shfl) (a3 : Opd) (a4 : Opd) (a5 : Opd) (a6 : Opd) : Statement (.shfl a0 a1 a2 a3 a4 a5 a6) := of_fields rfl (Pre.fields_pre ..)
theorem vote (a0 : Pre) (a1 : Ty) (a2 : Vote) (a3 : Opd) (a4 : Opd) : Statement (.vote a0 a1 a2 a3 a4) := of_fields rfl (Pre.fields_pre ..)
theorem matchl (a0 : Pre) (a1 : Ty) (a2 : Opd) (a3 : Opd) : Statement (.matchl a0 a1 a2 a3) := of_fields rfl (Pre.fields_pre ..)
theorem lred (a0 : Pre) (a1 : Ty) (a2 : Lred) (a3 : Opd) (a4 : Opd) : Statement (.lred a0 a1 a2 a3 a4) := of_fields rfl (Pre.fields_pre ..)
theorem p2v (a0 : Pre) (a1 : Ty) (a2 : Bool) (a3 : Opd) (a4 : PField) : Statement (.p2v a0 a1 a2 a3 a4) := of_fields rfl (Pre.fields_pre ..)
theorem v2p (a0 : Pre) (a1 : Ty) (a2 : PField) (a3 : Opd) : Statement (.v2p a0 a1 a2 a3) := of_fields rfl (Pre.fields_pre ..)
theorem fadd (a0 : Pre) (a1 : Ty) (a2 : Rm) (a3 : Opd) (a4 : Opd) (a5 : Opd) : Statement (.fadd a0 a1 a2 a3 a4 a5) := of_fields rfl (Pre.fields_pre ..)
theorem fsub (a0 : Pre) (a1 : Ty) (a2 : Rm) (a3 : Opd) (a4 : Opd) (a5 : Opd) : Statement (.fsub a0 a1 a2 a3 a4 a5) := of_fields rfl (Pre.fields_pre ..)
theorem fmul (a0 : Pre) (a1 : Ty) (a2 : Rm) (a3 : Opd) (a4 : Opd) (a5 : Opd) : Statement (.fmul a0 a1 a2 a3 a4 a5) := of_fields rfl (Pre.fields_pre ..)
theorem ffma (a0 : Pre) (a1 : Ty) (a2 : Rm) (a3 : Opd) (a4 : Opd) (a5 : Opd) (a6 : Opd) : Statement (.ffma a0 a1 a2 a3 a4 a5 a6) := of_fields rfl (Pre.fields_pre ..)
theorem fmin (a0 : Pre) (a1 : Ty) (a2 : Opd) (a3 : Opd) (a4 : Opd) : Statement (.fmin a0 a1 a2 a3 a4) := of_fields rfl (Pre.fields_pre ..)
theorem fmax (a0 : Pre) (a1 : Ty) (a2 : Opd) (a3 : Opd) (a4 : Opd) : Statement (.fmax a0 a1 a2 a3 a4) := of_fields rfl (Pre.fields_pre ..)
theorem fcmp (a0 : Pre) (a1 : Ty) (a2 : FCmp) (a3 : PField) (a4 : Opd) (a5 : Opd) : Statement (.fcmp a0 a1 a2 a3 a4 a5) := of_fields rfl (Pre.fields_pre ..)
theorem fclass (a0 : Pre) (a1 : Ty) (a2 : PField) (a3 : Opd) (a4 : Opd) : Statement (.fclass a0 a1 a2 a3 a4) := of_fields rfl (Pre.fields_pre ..)
theorem fdiv (a0 : Pre) (a1 : Ty) (a2 : Rm) (a3 : Opd) (a4 : Opd) (a5 : Opd) : Statement (.fdiv a0 a1 a2 a3 a4 a5) := of_fields rfl (Pre.fields_pre ..)
theorem fsqrt (a0 : Pre) (a1 : Ty) (a2 : Rm) (a3 : Opd) (a4 : Opd) : Statement (.fsqrt a0 a1 a2 a3 a4) := of_fields rfl (Pre.fields_pre ..)
theorem frint (a0 : Pre) (a1 : Ty) (a2 : Rm) (a3 : Opd) (a4 : Opd) : Statement (.frint a0 a1 a2 a3 a4) := of_fields rfl (Pre.fields_pre ..)
theorem fabs (a0 : Pre) (a1 : Ty) (a2 : Opd) (a3 : Opd) : Statement (.fabs a0 a1 a2 a3) := of_fields rfl (Pre.fields_pre ..)
theorem fneg (a0 : Pre) (a1 : Ty) (a2 : Opd) (a3 : Opd) : Statement (.fneg a0 a1 a2 a3) := of_fields rfl (Pre.fields_pre ..)
theorem fdot (a0 : Pre) (a1 : Ty) (a2 : Rm) (a3 : Opd) (a4 : Opd) (a5 : Opd) (a6 : Opd) : Statement (.fdot a0 a1 a2 a3 a4 a5 a6) := of_fields rfl (Pre.fields_pre ..)
theorem fexp2 (a0 : Pre) (a1 : Ty) (a2 : Opd) (a3 : Opd) : Statement (.fexp2 a0 a1 a2 a3) := of_fields rfl (Pre.fields_pre ..)
theorem flog2 (a0 : Pre) (a1 : Ty) (a2 : Opd) (a3 : Opd) : Statement (.flog2 a0 a1 a2 a3) := of_fields rfl (Pre.fields_pre ..)
theorem fsin (a0 : Pre) (a1 : Ty) (a2 : Opd) (a3 : Opd) : Statement (.fsin a0 a1 a2 a3) := of_fields rfl (Pre.fields_pre ..)
theorem fcos (a0 : Pre) (a1 : Ty) (a2 : Opd) (a3 : Opd) : Statement (.fcos a0 a1 a2 a3) := of_fields rfl (Pre.fields_pre ..)
theorem frsq (a0 : Pre) (a1 : Ty) (a2 : Opd) (a3 : Opd) : Statement (.frsq a0 a1 a2 a3) := of_fields rfl (Pre.fields_pre ..)
theorem frcp (a0 : Pre) (a1 : Ty) (a2 : Opd) (a3 : Opd) : Statement (.frcp a0 a1 a2 a3) := of_fields rfl (Pre.fields_pre ..)
theorem ftanh (a0 : Pre) (a1 : Ty) (a2 : Opd) (a3 : Opd) : Statement (.ftanh a0 a1 a2 a3) := of_fields rfl (Pre.fields_pre ..)
theorem cvt (a0 : Pre) (a1 : Ty) (a2 : Rm) (a3 : Opd) (a4 : Opd) (a5 : BitVec 8) (a6 : BitVec 4) : Statement (.cvt a0 a1 a2 a3 a4 a5 a6) := of_fields rfl (Pre.fields_pre ..)
theorem cvtn (a0 : Pre) (a1 : Ty) (a2 : Rm) (a3 : BitVec 2) (a4 : Opd) (a5 : Opd) (a6 : BitVec 8) (a7 : BitVec 4) : Statement (.cvtn a0 a1 a2 a3 a4 a5 a6 a7) := of_fields rfl (Pre.fields_pre ..)
theorem cvtw (a0 : Pre) (a1 : Ty) (a2 : BitVec 2) (a3 : Opd) (a4 : Opd) (a5 : BitVec 8) (a6 : BitVec 4) : Statement (.cvtw a0 a1 a2 a3 a4 a5 a6) := of_fields rfl (Pre.fields_pre ..)
theorem ld (a0 : Pre) (a1 : Ty) (a2 : MemMode) (a3 : Opd) (a4 : Opd) (a5 : BitVec 16) (a6 : BitVec 3) : Statement (.ld a0 a1 a2 a3 a4 a5 a6) := of_fields rfl (Pre.fields_pre ..)
theorem st (a0 : Pre) (a1 : Ty) (a2 : MemMode) (a3 : Bool) (a4 : Opd) (a5 : Opd) (a6 : BitVec 16) (a7 : BitVec 3) : Statement (.st a0 a1 a2 a3 a4 a5 a6 a7) := of_fields rfl (Pre.fields_pre ..)
theorem lds (a0 : Pre) (a1 : Ty) (a2 : Size) (a3 : Opd) (a4 : Opd) (a5 : BitVec 16) : Statement (.lds a0 a1 a2 a3 a4 a5) := of_fields rfl (Pre.fields_pre ..)
theorem sts (a0 : Pre) (a1 : Ty) (a2 : Size) (a3 : Opd) (a4 : Opd) (a5 : BitVec 16) : Statement (.sts a0 a1 a2 a3 a4 a5) := of_fields rfl (Pre.fields_pre ..)
theorem ldrs (a0 : Pre) (a1 : Ty) (a2 : Size) (a3 : Opd) (a4 : Opd) (a5 : BitVec 16) : Statement (.ldrs a0 a1 a2 a3 a4 a5) := of_fields rfl (Pre.fields_pre ..)
theorem strs (a0 : Pre) (a1 : Ty) (a2 : Size) (a3 : Opd) (a4 : Opd) (a5 : BitVec 16) : Statement (.strs a0 a1 a2 a3 a4 a5) := of_fields rfl (Pre.fields_pre ..)
theorem pref (a0 : Pre) (a1 : Bool) (a2 : Opd) (a3 : BitVec 16) (a4 : BitVec 3) : Statement (.pref a0 a1 a2 a3 a4) := of_fields rfl (Pre.fields_pre ..)
theorem pin (a0 : Pre) (a1 : Opd) (a2 : Opd) (a3 : BitVec 16) : Statement (.pin a0 a1 a2 a3) := of_fields rfl (Pre.fields_pre ..)
theorem unpin (a0 : Pre) (a1 : Opd) (a2 : BitVec 16) : Statement (.unpin a0 a1 a2) := of_fields rfl (Pre.fields_pre ..)
theorem cctlIinv (a0 : Pre) : Statement (.cctlIinv a0) := of_fields rfl (Pre.fields_pre ..)
theorem cctlL1 (a0 : Pre) : Statement (.cctlL1 a0) := of_fields rfl (Pre.fields_pre ..)
theorem cctlEvict (a0 : Pre) (a1 : Opd) (a2 : BitVec 16) : Statement (.cctlEvict a0 a1 a2) := of_fields rfl (Pre.fields_pre ..)
theorem cctlFlush (a0 : Pre) (a1 : Opd) (a2 : BitVec 16) : Statement (.cctlFlush a0 a1 a2) := of_fields rfl (Pre.fields_pre ..)
theorem rrot (a0 : Pre) (a1 : Bool) (a2 : Opd) (a3 : Opd) (a4 : BitVec 12) : Statement (.rrot a0 a1 a2 a3 a4) := of_fields rfl (Pre.fields_pre ..)
theorem rrotMatch (a0 : Nat) : Statement (.rrotMatch a0) := of_move rfl
theorem fence (a0 : Pre) (a1 : Scope) : Statement (.fence a0 a1) := of_fields rfl (Pre.fields_pre ..)
theorem atom (a0 : Pre) (a1 : Ty) (a2 : AtomOp) (a3 : Opd) (a4 : Opd) (a5 : Opd) : Statement (.atom a0 a1 a2 a3 a4 a5) := of_fields rfl (Pre.fields_pre ..)
theorem acas (a0 : Pre) (a1 : Ty) (a2 : Opd) (a3 : Opd) (a4 : Opd) (a5 : Opd) : Statement (.acas a0 a1 a2 a3 a4 a5) := of_fields rfl (Pre.fields_pre ..)
theorem gsadd (a0 : Pre) (a1 : Opd) (a2 : Opd) : Statement (.gsadd a0 a1 a2) := of_fields rfl (Pre.fields_pre ..)
theorem gsflush (a0 : Pre) (a1 : Opd) (a2 : Opd) : Statement (.gsflush a0 a1 a2) := of_fields rfl (Pre.fields_pre ..)
theorem gsflushAll (a0 : Pre) : Statement (.gsflushAll a0) := of_fields rfl (Pre.fields_pre ..)
theorem wait (a0 : Pre) (a1 : BitVec 4) (a2 : BitVec 4) (a3 : BitVec 4) (a4 : BitVec 4) : Statement (.wait a0 a1 a2 a3 a4) := of_fields rfl (Pre.fields_pre ..)
theorem barSync (a0 : Pre) (a1 : Opd) (a2 : BitVec 4) : Statement (.barSync a0 a1 a2) := of_fields rfl (Pre.fields_pre ..)
theorem barArv (a0 : Pre) (a1 : Opd) (a2 : BitVec 4) : Statement (.barArv a0 a1 a2) := of_fields rfl (Pre.fields_pre ..)
theorem cbarSync (a0 : Pre) (a1 : Opd) (a2 : BitVec 4) : Statement (.cbarSync a0 a1 a2) := of_fields rfl (Pre.fields_pre ..)
theorem cbarArv (a0 : Pre) (a1 : Opd) (a2 : BitVec 4) : Statement (.cbarArv a0 a1 a2) := of_fields rfl (Pre.fields_pre ..)
theorem tbinit (a0 : Pre) (a1 : Opd) (a2 : Opd) : Statement (.tbinit a0 a1 a2) := of_fields rfl (Pre.fields_pre ..)
theorem tbarriveLane (a0 : Pre) (a1 : Scope) (a2 : Opd) : Statement (.tbarriveLane a0 a1 a2) := of_fields rfl (Pre.fields_pre ..)
theorem tbarrivePath (a0 : Pre) (a1 : Scope) (a2 : Opd) : Statement (.tbarrivePath a0 a1 a2) := of_fields rfl (Pre.fields_pre ..)
theorem tbexpect (a0 : Pre) (a1 : Opd) (a2 : Opd) : Statement (.tbexpect a0 a1 a2) := of_fields rfl (Pre.fields_pre ..)
theorem tbwait (a0 : Pre) (a1 : Scope) (a2 : Opd) (a3 : Opd) : Statement (.tbwait a0 a1 a2 a3) := of_fields rfl (Pre.fields_pre ..)
theorem spawn (a0 : Pre) (a1 : Opd) (a2 : Opd) (a3 : Opd) : Statement (.spawn a0 a1 a2 a3) := of_fields rfl (Pre.fields_pre ..)
theorem join (a0 : Pre) (a1 : Opd) : Statement (.join a0 a1) := of_fields rfl (Pre.fields_pre ..)
theorem qres (a0 : Pre) (a1 : Opd) (a2 : Opd) (a3 : Opd) : Statement (.qres a0 a1 a2 a3) := of_fields rfl (Pre.fields_pre ..)
theorem qcommit (a0 : Pre) (a1 : Opd) (a2 : Opd) (a3 : Opd) : Statement (.qcommit a0 a1 a2 a3) := of_fields rfl (Pre.fields_pre ..)
theorem qpop (a0 : Pre) (a1 : Ty) (a2 : Opd) (a3 : BitVec 2) : Statement (.qpop a0 a1 a2 a3) := of_fields rfl (Pre.fields_pre ..)
theorem qpeek (a0 : Pre) (a1 : Opd) (a2 : BitVec 2) : Statement (.qpeek a0 a1 a2) := of_fields rfl (Pre.fields_pre ..)
theorem trec (a0 : Pre) (a1 : Ty) (a2 : Opd) : Statement (.trec a0 a1 a2) := of_fields rfl (Pre.fields_pre ..)
theorem tspan (a0 : Pre) : Statement (.tspan a0) := of_fields rfl (Pre.fields_pre ..)
theorem tspanRc (a0 : Pre) (a1 : Opd) (a2 : Opd) : Statement (.tspanRc a0 a1 a2) := of_fields rfl (Pre.fields_pre ..)
theorem tspanArea (a0 : Pre) (a1 : Opd) (a2 : Opd) : Statement (.tspanArea a0 a1 a2) := of_fields rfl (Pre.fields_pre ..)
theorem tpop (a0 : Pre) (a1 : Ty) (a2 : Opd) : Statement (.tpop a0 a1 a2) := of_fields rfl (Pre.fields_pre ..)
theorem tapeRefillDone (a0 : Nat) (a1 : Sid) (a2 : Nat) : Statement (.tapeRefillDone a0 a1 a2) := of_move rfl
theorem tret (a0 : Pre) : Statement (.tret a0) := of_fields rfl (Pre.fields_pre ..)
theorem raygen (a0 : Pre) (a1 : Opd) (a2 : Opd) (a3 : Opd) (a4 : Opd) : Statement (.raygen a0 a1 a2 a3 a4) := of_fields rfl (Pre.fields_pre ..)
theorem trace (a0 : Pre) (a1 : Opd) (a2 : Opd) (a3 : Opd) : Statement (.trace a0 a1 a2 a3) := of_fields rfl (Pre.fields_pre ..)
theorem traceAdjTri (a0 : Pre) (a1 : Opd) (a2 : Opd) (a3 : Opd) : Statement (.traceAdjTri a0 a1 a2 a3) := of_fields rfl (Pre.fields_pre ..)
theorem traceAdjPatch (a0 : Pre) (a1 : Opd) (a2 : Opd) (a3 : Opd) : Statement (.traceAdjPatch a0 a1 a2 a3) := of_fields rfl (Pre.fields_pre ..)
theorem tsamp (a0 : Pre) (a1 : Opd) (a2 : Opd) (a3 : Opd) (a4 : Opd) : Statement (.tsamp a0 a1 a2 a3 a4) := of_fields rfl (Pre.fields_pre ..)
theorem tsampAdj (a0 : Pre) (a1 : Opd) (a2 : Opd) (a3 : Opd) (a4 : Opd) : Statement (.tsampAdj a0 a1 a2 a3 a4) := of_fields rfl (Pre.fields_pre ..)
theorem esamp (a0 : Pre) (a1 : Opd) (a2 : Opd) (a3 : Opd) (a4 : Opd) : Statement (.esamp a0 a1 a2 a3 a4) := of_fields rfl (Pre.fields_pre ..)
theorem renderResult (a0 : Nat) (a1 : Sid) (a2 : Nat) : Statement (.renderResult a0 a1 a2) := of_move rfl
theorem tres (a0 : Pre) (a1 : BitVec 5) (a2 : Opd) (a3 : Opd) : Statement (.tres a0 a1 a2 a3) := of_fields rfl (Pre.fields_pre ..)
theorem tfetch (a0 : Pre) (a1 : Scope) (a2 : BitVec 2) (a3 : BitVec 4) (a4 : BitVec 5) (a5 : BitVec 8) : Statement (.tfetch a0 a1 a2 a3 a4 a5) := of_fields rfl (Pre.fields_pre ..)
theorem tlds (a0 : Pre) (a1 : Scope) (a2 : BitVec 2) (a3 : BitVec 4) (a4 : BitVec 5) (a5 : BitVec 8) : Statement (.tlds a0 a1 a2 a3 a4 a5) := of_fields rfl (Pre.fields_pre ..)
theorem tmma (a0 : Pre) (a1 : BitVec 2) (a2 : BitVec 4) (a3 : BitVec 5) (a4 : BitVec 5) (a5 : BitVec 8) (a6 : Bool) (a7 : Bool) (a8 : Bool) (a9 : Bool) : Statement (.tmma a0 a1 a2 a3 a4 a5 a6 a7 a8 a9) := of_fields rfl (Pre.fields_pre ..)
theorem tileStep (a0 : Nat) (a1 : Nat) (a2 : Nat) : Statement (.tileStep a0 a1 a2) := of_move rfl
theorem tzero (a0 : Pre) (a1 : Bool) (a2 : BitVec 2) (a3 : BitVec 4) : Statement (.tzero a0 a1 a2 a3) := of_fields rfl (Pre.fields_pre ..)
theorem tcvt (a0 : Pre) (a1 : Rm) (a2 : BitVec 2) (a3 : BitVec 4) (a4 : BitVec 5) (a5 : BitVec 8) : Statement (.tcvt a0 a1 a2 a3 a4 a5) := of_fields rfl (Pre.fields_pre ..)
theorem tstbEnt (a0 : Pre) (a1 : BitVec 2) (a2 : BitVec 4) (a3 : BitVec 6) : Statement (.tstbEnt a0 a1 a2 a3) := of_fields rfl (Pre.fields_pre ..)
theorem tstbFull (a0 : Pre) (a1 : BitVec 2) (a2 : BitVec 4) (a3 : BitVec 6) : Statement (.tstbFull a0 a1 a2 a3) := of_fields rfl (Pre.fields_pre ..)
theorem tldbEnt (a0 : Pre) (a1 : BitVec 2) (a2 : BitVec 4) (a3 : BitVec 6) : Statement (.tldbEnt a0 a1 a2 a3) := of_fields rfl (Pre.fields_pre ..)
theorem tldbFull (a0 : Pre) (a1 : BitVec 2) (a2 : BitVec 4) (a3 : BitVec 6) : Statement (.tldbFull a0 a1 a2 a3) := of_fields rfl (Pre.fields_pre ..)
theorem tbsetThr (a0 : Pre) (a1 : BitVec 2) (a2 : BitVec 4) (a3 : BitVec 6) : Statement (.tbsetThr a0 a1 a2 a3) := of_fields rfl (Pre.fields_pre ..)
theorem tbsetHdr (a0 : Pre) (a1 : BitVec 2) (a2 : BitVec 4) (a3 : BitVec 6) : Statement (.tbsetHdr a0 a1 a2 a3) := of_fields rfl (Pre.fields_pre ..)
theorem tbsetAll (a0 : Pre) (a1 : BitVec 2) (a2 : BitVec 4) (a3 : BitVec 6) : Statement (.tbsetAll a0 a1 a2 a3) := of_fields rfl (Pre.fields_pre ..)
theorem tsave (a0 : Pre) (a1 : BitVec 2) (a2 : BitVec 4) (a3 : BitVec 6) : Statement (.tsave a0 a1 a2 a3) := of_fields rfl (Pre.fields_pre ..)
theorem tresumeCont (a0 : Pre) (a1 : Bool) (a2 : BitVec 2) (a3 : BitVec 4) (a4 : BitVec 6) : Statement (.tresumeCont a0 a1 a2 a3 a4) := of_fields rfl (Pre.fields_pre ..)
theorem tresumeWide (a0 : Pre) (a1 : Bool) (a2 : BitVec 2) (a3 : BitVec 4) (a4 : BitVec 6) : Statement (.tresumeWide a0 a1 a2 a3 a4) := of_fields rfl (Pre.fields_pre ..)
theorem tresumeRestart (a0 : Pre) (a1 : Bool) (a2 : BitVec 2) (a3 : BitVec 4) (a4 : BitVec 6) : Statement (.tresumeRestart a0 a1 a2 a3 a4) := of_fields rfl (Pre.fields_pre ..)
theorem trap (a0 : Pre) (a1 : BitVec 20) : Statement (.trap a0 a1) := of_fields rfl (Pre.fields_pre ..)
theorem brk (a0 : Pre) (a1 : BitVec 20) : Statement (.brk a0 a1) := of_fields rfl (Pre.fields_pre ..)
theorem hret (a0 : Pre) : Statement (.hret a0) := of_fields rfl (Pre.fields_pre ..)
theorem snap (a0 : Pre) (a1 : Opd) : Statement (.snap a0 a1) := of_fields rfl (Pre.fields_pre ..)
theorem wrsr (a0 : Pre) (a1 : Ty) (a2 : BitVec 10) (a3 : Opd) : Statement (.wrsr a0 a1 a2 a3) := of_fields rfl (Pre.fields_pre ..)
theorem sld (a0 : Pre) (a1 : Ty) (a2 : SldSize) (a3 : Bool) (a4 : Opd) (a5 : Opd) (a6 : BitVec 16) : Statement (.sld a0 a1 a2 a3 a4 a5 a6) := of_fields rfl (Pre.fields_pre ..)
theorem qpush (a0 : Pre) (a1 : Opd) (a2 : BitVec 2) : Statement (.qpush a0 a1 a2) := of_fields rfl (Pre.fields_pre ..)
theorem sloop (a0 : Pre) (a1 : Opd) (a2 : BitVec 30) : Statement (.sloop a0 a1 a2) := of_fields rfl (Pre.fields_pre ..)
theorem issueSlot (a0 : Nat) (a1 : Nat) (a2 : Nat) (a3 : Nat) (a4 : Nat) : Statement (.issueSlot a0 a1 a2 a3 a4) := of_move rfl
theorem loneIssueSlot (a0 : Nat) (a1 : Nat) (a2 : Nat) (a3 : Nat) (a4 : Nat) : Statement (.loneIssueSlot a0 a1 a2 a3 a4) := of_move rfl
theorem gafferIssue (a0 : Nat) (a1 : Nat) (a2 : Nat) : Statement (.gafferIssue a0 a1 a2) := of_move rfl
theorem watchdogExpiry (a0 : Nat) (a1 : Sid) (a2 : Nat) : Statement (.watchdogExpiry a0 a1 a2) := of_move rfl
theorem send (a0 : Nat) (a1 : Sid) (a2 : Nat) (a3 : Nat) : Statement (.send a0 a1 a2 a3) := of_move rfl
theorem hit (a0 : Nat) : Statement (.hit a0) := of_move rfl
theorem read (a0 : AccRef) : Statement (.read a0) := of_move rfl
theorem change (a0 : AccRef) : Statement (.change a0) := of_move rfl
theorem accept (a0 : Nat) (a1 : Nat) : Statement (.accept a0 a1) := of_move rfl
theorem deliver (a0 : Nat) : Statement (.deliver a0) := of_move rfl
theorem fill (a0 : Nat) (a1 : Nat) (a2 : Nat) (a3 : Bool) (a4 : BitVec 4) : Statement (.fill a0 a1 a2 a3 a4) := of_move rfl
theorem drop (a0 : Nat) (a1 : Nat) : Statement (.drop a0 a1) := of_move rfl
theorem speculativeLoad (a0 : Nat) (a1 : Nat) (a2 : Nat) (a3 : Bool) (a4 : BitVec 4) : Statement (.speculativeLoad a0 a1 a2 a3 a4) := of_move rfl
theorem memsideWriteback (a0 : Nat) (a1 : Nat) (a2 : Nat) : Statement (.memsideWriteback a0 a1 a2) := of_move rfl
theorem engineScratchWrite (a0 : Nat) : Statement (.engineScratchWrite a0) := of_move rfl
theorem copyAccept (a0 : Nat) (a1 : Sid) (a2 : Nat) : Statement (.copyAccept a0 a1 a2) := of_move rfl
theorem copyComplete (a0 : Nat) : Statement (.copyComplete a0) := of_move rfl
theorem collectivePair (a0 : Nat) (a1 : List Remote) : Statement (.collectivePair a0 a1) := of_move rfl
theorem peerTimeout (a0 : Nat) : Statement (.peerTimeout a0) := of_move rfl
theorem crewPlace (a0 : Nat) (a1 : Nat) (a2 : Pick) : Statement (.crewPlace a0 a1 a2) := of_move rfl
theorem crewSave (a0 : Nat) : Statement (.crewSave a0) := of_move rfl
theorem saveTimeout (a0 : Nat) : Statement (.saveTimeout a0) := of_move rfl
theorem crewExit (a0 : Nat) : Statement (.crewExit a0) := of_move rfl
theorem urgencyMark (a0 : Nat) : Statement (.urgencyMark a0) := of_move rfl
theorem queueEnable (a0 : HostFn) (a1 : Nat) : Statement (.queueEnable a0 a1) := of_move rfl
theorem queueDisable (a0 : HostFn) (a1 : Nat) : Statement (.queueDisable a0 a1) := of_move rfl
theorem tailWrite (a0 : HostFn) (a1 : Nat) (a2 : BitVec 32) : Statement (.tailWrite a0 a1 a2) := of_move rfl
theorem resume (a0 : HostFn) (a1 : Nat) (a2 : Nat) : Statement (.resume a0 a1 a2) := of_move rfl
theorem resumeDrop (a0 : HostFn) (a1 : Nat) (a2 : Nat) : Statement (.resumeDrop a0 a1 a2) := of_move rfl
theorem asidInvalidate (a0 : BitVec 16) : Statement (.asidInvalidate a0) := of_move rfl
theorem invalidateComplete (a0 : BitVec 16) : Statement (.invalidateComplete a0) := of_move rfl
theorem containmentReset (a0 : HostFn) (a1 : Nat) (a2 : Word) : Statement (.containmentReset a0 a1 a2) := of_move rfl
theorem memoryCounterClear (a0 : Nat) (a1 : Nat) (a2 : Word) : Statement (.memoryCounterClear a0 a1 a2) := of_move rfl
theorem cellWrite (a0 : HostFn) (a1 : Nat) (a2 : Nat) (a3 : Word) : Statement (.cellWrite a0 a1 a2 a3) := of_move rfl
theorem registerWrite (a0 : HostFn) (a1 : Nat) (a2 : Word) : Statement (.registerWrite a0 a1 a2) := of_move rfl
theorem snapshotMessage (a0 : Nat) : Statement (.snapshotMessage a0) := of_move rfl
theorem faultRecordPost (a0 : Bool) : Statement (.faultRecordPost a0) := of_move rfl
theorem traceControlWrite (a0 : HostFn) (a1 : Nat) (a2 : Word) : Statement (.traceControlWrite a0 a1 a2) := of_move rfl
theorem peerLinkDown (a0 : Nat) : Statement (.peerLinkDown a0) := of_move rfl
theorem ualinkLinkUp (a0 : Nat) : Statement (.ualinkLinkUp a0) := of_move rfl
theorem messageDrop (a0 : Nat) (a1 : Nat) : Statement (.messageDrop a0 a1) := of_move rfl
theorem replayResend (a0 : Nat) : Statement (.replayResend a0) := of_move rfl
theorem pcieLinkDown (a0 : Nat) : Statement (.pcieLinkDown a0) := of_move rfl
theorem pcieLinkTrain (a0 : Nat) (a1 : Nat) (a2 : Nat) : Statement (.pcieLinkTrain a0 a1 a2) := of_move rfl
theorem pcieCompletionTimeout (a0 : AccRef) : Statement (.pcieCompletionTimeout a0) := of_move rfl
theorem boot (a0 : Firmware) : Statement (.boot a0) := of_move rfl
theorem attestationRequest (a0 : BitVec 256) : Statement (.attestationRequest a0) := of_move rfl
theorem thermalTrip : Statement .thermalTrip := of_move rfl
theorem powerLimitReached : Statement .powerLimitReached := of_move rfl
theorem powerLimitReleased : Statement .powerLimitReleased := of_move rfl

end Sys2Proof.Laws.Prefix
end

