-- ==== Sys2Proof/Tests/Slice0.lean ====
section
/-! SUPPORT. Tests of the model, and witnesses that the hypotheses of the statements can be met together.
The words of the decode tests are written out in the spec's worked programs (R62, R162 to R391 give their encodings); the expected values of the
other tests are worked out by hand from the rule that each names. A lane set has 32 bits, so a condition on lanes is checked below 32. -/

open Sys2Proof Sys2Proof.Machine

namespace Sys2Proof.Tests

set_option linter.unusedVariables false
set_option Elab.async false

/-- An unguarded word that holds nothing. -/
abbrev p0 : Pre := ⟨15, false, 0⟩

/-! ### Decoding: words written out from the encodings of the spec -/

theorem test_decode_bra : decode 0x0100F00000000003 = some (.bra p0 false 3) := by decide +kernel
theorem test_decode_call : decode 0x0300F00280000004 = some (.call p0 false (.v 10) 4) := by decide +kernel
theorem test_decode_exit_guarded : decode 0x0700380000000000 = some (.exit ⟨3, true, 0⟩) := by decide +kernel
theorem test_decode_ret : decode 0x0500F00000A00000 = some (.ret p0 false (.v 10)) := by decide +kernel
theorem test_decode_iadd : decode 0x1010F00701C46C00 = some (.iadd p0 .n32 false (.v 28) (.v 28) (.x 27)) := by decide +kernel
theorem test_decode_lea : decode 0x1B12F00180803000 = some (.lea p0 .n32 2 (.v 6) (.v 8) (.v 12)) := by decide +kernel
theorem test_decode_and : decode 0x2010F00511181C00 = some (.and p0 .n32 (.v 20) (.x 17) (.k 7)) := by decide +kernel
theorem test_decode_movhi40 : decode 0x2E31F0010040ABCD = some (.movhi p0 .n64 true (.v 4) (.v 4) 0x0ABCD) := by decide +kernel
theorem test_decode_icmp : decode 0x3002F00080381400 = some (.icmp p0 .i32 .lt 2 (.v 3) (.k 5)) := by decide +kernel
theorem test_decode_mov : decode 0x3330F00092100000 = some (.mov p0 .n64 (.v 2) (.x 33)) := by decide +kernel
theorem test_decode_ffma : decode 0x4340F00100640005 = some (.ffma p0 .f32 .rne (.v 4) (.v 6) (.x 0) (.v 5)) := by decide +kernel
theorem test_decode_fmul_hold : decode 0x4240F20040200C00 = some (.fmul ⟨15, false, 2⟩ .f32 .rne (.v 1) (.v 2) (.v 3)) := by decide +kernel
theorem test_decode_cvt : decode 0x6041F00040255000 = some (.cvt p0 .f32 .rtz (.v 1) (.v 2) 0x55 0) := by decide +kernel
theorem test_decode_cvtn : decode 0x6144F00040200000 = some (.cvtn p0 .f32 .rne 1 (.v 1) (.v 2) 0 0) := by decide +kernel
theorem test_decode_ld : decode 0x7010F00200200400 = some (.ld p0 .n32 (.sized .nat) (.v 8) (.v 2) 0x40 0) := by decide +kernel
theorem test_decode_ld_dev : decode 0x701CF00200200000 = some (.ld p0 .n32 (.ordered .dev) (.v 8) (.v 2) 0 0) := by decide +kernel
theorem test_decode_st_tag : decode 0x7110F00140200008 = some (.st p0 .n32 (.sized .nat) true (.v 5) (.v 2) 0 0) := by decide +kernel
theorem test_decode_atom : decode 0x8010F00240201C00 = some (.atom p0 .n32 .add (.v 9) (.v 2) (.v 7)) := by decide +kernel
theorem test_decode_fence : decode 0x7B04F00000000000 = some (.fence p0 .dev) := by decide +kernel
theorem test_decode_wait : decode 0x9000F00000000FFF = some (.wait p0 0 15 15 15) := by decide +kernel
theorem test_decode_barsync : decode 0x9100F00020000003 = some (.barSync p0 (.k 0) 3) := by decide +kernel
theorem test_decode_tbwait : decode 0x9602F00000401400 = some (.tbwait p0 .cr (.v 4) (.v 5)) := by decide +kernel
theorem test_decode_spawn : decode 0xA000F00100201800 = some (.spawn p0 (.v 4) (.v 2) (.v 6)) := by decide +kernel
theorem test_decode_qpop : decode 0xA430F00200000001 = some (.qpop p0 .n64 (.v 8) 1) := by decide +kernel
theorem test_decode_trec : decode 0xA830F00000600000 = some (.trec p0 .n64 (.v 6)) := by decide +kernel
theorem test_decode_trace : decode 0xB100F00801802000 = some (.trace p0 (.v 32) (.v 24) (.v 8)) := by decide +kernel
theorem test_decode_tres : decode 0xC000F00000401803 = some (.tres p0 3 (.v 4) (.v 6)) := by decide +kernel
theorem test_decode_tfetch : decode 0xC102F04800020000 = some (.tfetch p0 .cr 1 2 0 2) := by decide +kernel
theorem test_decode_tmma : decode 0xC300F0480102E000 = some (.tmma p0 1 2 0 1 2 true true true false) := by decide +kernel
theorem test_decode_tcvt : decode 0xC500F00D00040000 = some (.tcvt p0 .rne 0 3 8 4) := by decide +kernel
theorem test_decode_tstb : decode 0xC601F00400280000 = some (.tstbFull p0 0 1 40) := by decide +kernel
theorem test_decode_snap : decode 0xD300F00000400000 = some (.snap p0 (.v 4)) := by decide +kernel
theorem test_decode_wrsr : decode 0xD410F04900A00000 = some (.wrsr p0 .n32 0x124 (.v 10)) := by decide +kernel
/-- OP 0xFE is a header's (R62); a nonzero unused field and an unassigned modifier are no instruction (R64 step 2). -/
theorem test_decode_none : decode 0xFE00F00000000000 = none ∧ decode 0x0700F00000000001 = none ∧ decode 0x1012F003C0E44000 = none := by decide +kernel

/-! ### Well-formedness: an ill-formed term for each check -/

theorem test_wf_good : (Instr.iadd p0 .i32 true (.v 0) (.v 1) (.v 2)).wellFormed = true := by decide
/-- A move is no word. -/
theorem test_wf_move : (Instr.thermalTrip).wellFormed = false := by decide
/-- HL names a source that the word does not use (R59). -/
theorem test_wf_hold : (Instr.iadd ⟨15, false, 3⟩ .i32 true (.v 0) (.v 1) (.v 2)).wellFormed = false ∧ (Instr.nop ⟨15, false, 1⟩).wellFormed = false := by decide
/-- HL holds no pair, which A of RAYGEN and TSAMP is, but a register (R382). -/
theorem test_wf_hold_render : (Instr.raygen ⟨15, false, 1⟩ (.v 16) (.v 2) (.v 4) (.v 5)).wellFormed = false ∧ (Instr.tsamp ⟨15, false, 1⟩ (.v 32) (.v 2) (.v 4) (.v 6)).wellFormed = false
    ∧ (Instr.raygen ⟨15, false, 2⟩ (.v 16) (.v 2) (.v 4) (.v 5)).wellFormed = true := by decide
/-- Types that a row does not list (R129 to R160). -/
theorem test_wf_types : [Instr.iadd p0 .f32 false (.v 0) (.v 1) (.v 2), .imulhi p0 .i8x4 (.v 0) (.v 1) (.v 2), .iwmad p0 .i64 (.v 0) (.v 1) (.v 2) (.v 4),
    .iabs p0 .n32 false (.v 0) (.v 1), .isad p0 .i64 (.v 0) (.v 1) (.v 2) (.v 3), .iaddi p0 .i16x2 false (.v 0) (.v 1) 1, .lea p0 .i64 0 (.v 0) (.v 2) (.v 4),
    .idp4 p0 .i32 false false (.v 0) (.v 1) (.v 2) (.v 3), .and p0 .i16x2 (.v 0) (.v 1) (.v 2), .shl p0 .f32 (.v 0) (.v 1) (.v 2), .bfx p0 .n8x4 (.v 0) (.v 1) (.v 2),
    .popc p0 .i32 (.v 0) (.v 1), .movi p0 .f32 (.v 0) 1, .movhi p0 .i32 false (.v 0) (.v 0) 1, .mov p0 .f32 (.v 0) (.v 1), .shfl p0 .i32 .up (.v 0) (.v 1) (.v 2) (.v 3),
    .lred p0 .i32 .and (.v 0) (.v 1), .fadd p0 .i32 .rne (.v 0) (.v 1) (.v 2), .fdiv p0 .f16x2 .rne (.v 0) (.v 1) (.v 2), .fdot p0 .f32 .rne (.v 0) (.v 1) (.v 2) (.v 3),
    .fsin p0 .bf16 (.v 0) (.v 1), .acas p0 .i32 (.v 0) (.v 2) (.v 4) (.v 5), .atom p0 .f32 .xor (.v 0) (.v 2) (.v 4), .trec p0 .i32 (.v 0)].all
    (fun i => !i.wellFormed) = true := by decide
/-- `MOVHI` with shift 40 takes n64 alone (R138). -/
theorem test_wf_movhi : (Instr.movhi p0 .n32 true (.v 0) (.v 0) 1).wellFormed = false := by decide
/-- Target codes of the conversions (R158 to R160, R185). -/
theorem test_wf_targets : (Instr.cvt p0 .f32 .rne (.v 0) (.v 1) 0 8).wellFormed = false ∧ (Instr.cvtn p0 .f32 .rne 0 (.v 0) (.v 1) 0 7).wellFormed = false
    ∧ (Instr.cvtw p0 .i32 0 (.v 0) (.v 1) 0 0).wellFormed = false ∧ (Instr.tcvt p0 .rne 0 0 7 0).wellFormed = false := by decide
/-- Sizes, hints and scopes of memory words (R260, R261). -/
theorem test_wf_sizes : (Instr.ld p0 .n64 (.sized .x4) (.v 0) (.v 2) 0 0).wellFormed = false ∧ (Instr.ld p0 .f32 (.sized .b8) (.v 0) (.v 2) 0 0).wellFormed = false
    ∧ (Instr.st p0 .n32 (.sized .nat) false (.v 0) (.v 2) 0 5).wellFormed = false ∧ (Instr.pref p0 false (.v 2) 0 5).wellFormed = false
    ∧ (Instr.lds p0 .f16 .x2 (.v 0) (.v 2) 0).wellFormed = false ∧ (Instr.sld p0 .f32 .nat false (.v 0) (.v 2) 0).wellFormed = false := by decide
/-- `TRESUME` without a record names no register (R192); `SLOOP` goes back (R364). -/
theorem test_wf_rest : (Instr.tresumeCont p0 false 0 0 1).wellFormed = false ∧ (Instr.sloop p0 (.v 0) 1).wellFormed = false := by decide

/-! ### States in which a word issues -/

/-- `i` issues next: on the 32 lanes of wave 0, or in the Gaffer context or the producer, of a crew of one team (Machine/Fetch.lean, `install`). -/
def issuing (i : Instr) : State := State.reset.install 64 ((encode i).getD 0).toNat

/-- The word issues in `s`, and its surroundings meet `P`. -/
def meets (s : State) (i : Instr) (P : Ctx → Bool) : Bool :=
  match s.ctx? i.pre with
  | some c => (c.check i).isNone && (c.aliasGate i).isNone && P c
  | none => false

theorem issues_of_meets {s : State} {i : Instr} {P : Ctx → Bool} (h : meets s i P = true) : ∃ c, Issues s i c ∧ P c = true := by
  unfold meets at h
  split at h
  · rename_i c hc
    simp only [Bool.and_eq_true, Option.isNone_iff_eq_none] at h
    exact ⟨c, ⟨hc, h.1.1, h.1.2⟩, h.2⟩
  · cases h

/-- One witness for each of a list of cases. -/
theorem all_meet {α : Type} {l : List α} (S : α → State) (I : α → Instr) {P : α → Ctx → Bool} (h : l.all (fun x => meets (S x) (I x) (P x)) = true) :
    ∀ x ∈ l, ∃ c, Issues (S x) (I x) c ∧ P x c = true :=
  fun x hx => issues_of_meets (List.all_eq_true.mp h x hx)

theorem all_issue {l : List Instr} {P : Ctx → Bool} (h : l.all (fun i => meets (issuing i) i P) = true) :
    ∀ i ∈ l, ∃ c, Issues (issuing i) i c ∧ P c = true :=
  fun i hi => issues_of_meets (List.all_eq_true.mp h i hi)

/-! ### Witnesses: words on which only `Issues` is asked -/

theorem witness_IntegerWords : ∀ i ∈ [Instr.iadd p0 .i32 true (.v 63) (.v 0) (.k 127), .isub p0 .n64 false (.v 62) (.v 0) (.v 2), .imul p0 .i8x4 (.v 0) (.v 0) (.v 0),
    .iabs p0 .i16x2 true (.v 1) (.v 2), .iaddi p0 .i64 true (.v 0) (.v 2) 0x80000, .imulhi p0 .n64 (.v 0) (.v 2) (.v 4), .imad p0 .i16x2 (.v 0) (.v 1) (.v 2) (.v 3),
    .iwmad p0 .i32 (.v 0) (.v 2) (.v 3) (.v 4), .imin p0 .n8x4 (.v 0) (.v 1) (.v 2), .imax p0 .i64 (.v 0) (.v 2) (.v 4), .isad p0 .n8x4 (.v 0) (.v 1) (.v 2) (.v 3),
    .lea p0 .i32 7 (.v 0) (.v 2) (.v 4), .idp4 p0 .i8x4 true true (.v 0) (.v 1) (.v 2) (.v 3)], ∃ c, Issues (issuing i) i c ∧ (c.act == 0xFFFFFFFF) = true :=
  all_issue (by decide +kernel)

theorem witness_LogicAndShifts : ∀ i ∈ [Instr.and p0 .n64 (.v 0) (.v 2) (.v 4), .or p0 .i32 (.v 0) (.v 1) (.k 0x80), .xor p0 .n32 (.v 0) (.v 0) (.v 0),
    .andn p0 .i64 (.v 0) (.v 2) (.v 4), .shl p0 .i16x2 (.v 0) (.v 1) (.v 2), .shr p0 .n64 (.v 0) (.v 2) (.v 4), .sar p0 .i8x4 (.v 0) (.v 1) (.v 2),
    .rot p0 .n32 (.v 0) (.v 1) (.k 32)], ∃ c, Issues (issuing i) i c ∧ (c.act == 0xFFFFFFFF) = true :=
  all_issue (by decide +kernel)

theorem witness_BitFieldsAndMoves : ∀ i ∈ [Instr.bfx p0 .i32 (.v 0) (.v 1) (.v 2), .bfi p0 .n64 (.v 0) (.v 2) (.v 4) (.v 6), .popc p0 .n64 (.v 0) (.v 2),
    .clz p0 .n32 (.v 0) (.v 1), .brev p0 .n64 (.v 0) (.v 2), .movi p0 .i64 (.v 0) 0x80000, .movhi p0 .n64 true (.v 0) (.v 2) 0xFFFFF, .mov p0 .n64 (.v 62) (.x 33),
    .sel p0 .i32 (.v 0) (.v 1) (.v 2) 15], ∃ c, Issues (issuing i) i c ∧ (c.act == 0xFFFFFFFF) = true :=
  all_issue (by decide +kernel)

theorem witness_PredicateWords : ∀ i ∈ [Instr.icmp p0 .i64 .lt 14 (.v 0) (.k 0x80), .icmp p0 .n32 .eq 0 (.v 0) (.v 1), .icmp p0 .n32 .ne 15 (.v 0) (.v 1),
    .icmp p0 .i32 .le 1 (.v 0) (.v 1), .icmp p0 .i32 .gt 1 (.v 0) (.v 1), .icmp p0 .n64 .ge 1 (.v 0) (.v 2), .plop p0 15 0 1 2 15, .v2p p0 .n64 3 (.v 2),
    .p2v p0 .n32 true (.v 0) 3, .fcmp p0 .f64 .un 2 (.v 0) (.v 2), .fclass p0 .bf16 2 (.v 0) (.v 1)], ∃ c, Issues (issuing i) i c ∧ (c.act == 0xFFFFFFFF) = true :=
  all_issue (by decide +kernel)

theorem witness_LaneWords : ∀ i ∈ [Instr.shfl p0 .n64 .idx (.v 0) (.v 2) (.k 31) (.k 32), .shfl p0 .n32 .up (.v 0) (.v 1) (.k 1) (.k 1), .shfl p0 .n32 .down (.v 0) (.v 1) (.k 1) (.k 16),
    .shfl p0 .n32 .xor (.v 0) (.v 1) (.k 3) (.k 8), .vote p0 .n32 .all (.v 0) (.v 1), .vote p0 .n64 .any (.v 0) (.v 2), .vote p0 .n32 .eq (.v 0) (.v 1),
    .vote p0 .n32 .ballot (.v 0) (.v 1), .matchl p0 .n64 (.v 0) (.v 2), .lred p0 .f64 .add (.v 0) (.v 2)], ∃ c, Issues (issuing i) i c ∧
      (match i with | .shfl _ _ _ _ _ _ e => c.ls.all fun l => [1, 2, 4, 8, 16, 32].contains (c.rd .n32 e l) | _ => true) = true :=
  all_meet issuing (fun i => i) (by decide +kernel)

theorem witness_FloatingPoint : ∀ i ∈ [Instr.fadd p0 .f32 .rdn (.v 0) (.v 1) (.v 2), .fsub p0 .f16x2 .rne (.v 0) (.v 1) (.v 2), .fmul p0 .bf16 .rup (.v 0) (.v 1) (.v 2),
    .ffma p0 .f64 .rtz (.v 0) (.v 2) (.v 4) (.v 6), .fdiv p0 .f32 .rne (.v 0) (.v 1) (.v 2), .fsqrt p0 .f64 .rne (.v 0) (.v 2), .frint p0 .bf16x2 .rup (.v 0) (.v 1),
    .fmin p0 .f16 (.v 0) (.v 1) (.v 2), .fmax p0 .f64 (.v 0) (.v 2) (.v 4), .fabs p0 .f32 (.v 0) (.v 1), .fneg p0 .f16x2 (.v 0) (.v 1),
    .fdot p0 .bf16x2 .rne (.v 0) (.v 1) (.v 2) (.v 3), .fexp2 p0 .f32 (.v 0) (.v 1), .flog2 p0 .f32 (.v 0) (.v 1), .fsin p0 .f16 (.v 0) (.v 1), .fcos p0 .f32 (.v 0) (.v 1),
    .frsq p0 .f16 (.v 0) (.v 1), .frcp p0 .f32 (.v 0) (.v 1), .ftanh p0 .f32 (.v 0) (.v 1)], ∃ c, Issues (issuing i) i c ∧ (c.act == 0xFFFFFFFF) = true :=
  all_issue (by decide +kernel)

theorem witness_Conversions : ∀ i ∈ [Instr.cvt p0 .f32 .rtz (.v 0) (.v 1) 0x55 0, .cvtn p0 .f64 .rup 3 (.v 0) (.v 2) 0 0, .cvtw p0 .f32 3 (.v 0) (.v 1) 0 6],
    ∃ c, Issues (issuing i) i c ∧ (match i with
      | .cvt _ t rm _ a pol f => c.ls.all fun l => !(convert ((Ty.ofCode f).getD .n32).target rm pol (t.srcOf (c.rd t a l))).fault
      | .cvtn _ t rm _ _ a pol f => c.ls.all fun l => !(convert (.narrow ((Narrow.ofCode f.toNat).getD .e4m3)) rm pol (t.srcOf (c.rd t a l))).fault
      | .cvtw _ t pos _ a pol f => c.ls.all fun l => let n := (Narrow.ofCode f.toNat).getD .e4m3
          !(convert t.target .rne pol (.fv (n.read (fld (c.rd .n32 a l) (if n.bits = 4 then 4 * pos.toNat else 8 * pos.toNat) n.bits)).1)).fault
      | _ => false) = true :=
  all_meet issuing (fun i => i) (by decide +kernel)

/-! ### Variants of such a state -/

/-- Lanes of the granted path only. -/
def onLanes (m : Lanes) (s : State) : State := match s.slot with
  | some g => s.modPath g.crew g.sid g.path fun p => { p with lanes := m }
  | none => s

/-- The word is the first of a clause of two. -/
def firstOfTwo (s : State) : State := match s.slot with
  | some g => s.modPath g.crew g.sid g.path fun p =>
      { p with clause := p.clause.map fun k => { k with head := { k.head with count := 1 }, words := k.words ++ k.words } }
  | none => s

/-- Register n of a lane of wave 0 of the crew that `install` makes. -/
def setV (n l : Nat) (v : BitVec 32) (s : State) : State := s.setRegWord ⟨0, 0, 0⟩ (vAddr 0 64 0 n l) v

/-- The stream of the granted path is in a handler, which it entered by a trap `r`; its handler path issues the word. -/
def handling (r : Raise) (s : State) : State := match s.slot with
  | some g =>
    let k := ((s.strand? g.crew g.sid).bind fun t => t.path? g.path).bind Path.clause
    let s := s.takeTrap g.crew g.sid g.path r
    { (s.modPath g.crew g.sid 1 fun p => { p with clause := k }) with slot := some { g with path := 1 } }
  | none => s

/-- A trap of a word: cause, kind and mask. -/
def raised (cause kind : Nat) (mask : BitVec 32) : Raise :=
  { cause := cause, kind := kind, mask := mask, pc := 0x1008, at_ := some 0, aux := 0, pend := false, access := 0, absent := false }

/-! ### Witnesses: control transfer -/

theorem witness_GuardedLanes : (∃ c, (issuing (.nop p0)).ctx? p0 = some c ∧ c.path.only = none) ∧ ∃ c, (issuing (.nop ⟨3, true, 0⟩)).ctx? ⟨3, true, 0⟩ = some c ∧ c.path.only = none := by
  have h (i : Instr) (hi : (((issuing i).ctx? i.pre).any fun c => c.path.only == none) = true) : ∃ c, (issuing i).ctx? i.pre = some c ∧ c.path.only = none := by
    revert hi; cases h : (issuing i).ctx? i.pre with
    | none => simp
    | some c => intro hi; exact ⟨c, rfl, by simpa using hi⟩
  exact ⟨h (.nop p0) (by decide +kernel), h (.nop ⟨3, true, 0⟩) (by decide +kernel)⟩

theorem witness_NopAndYield : ∀ i ∈ [Instr.nop p0, .yield p0], (∃ c, Issues (issuing i) i c ∧ (c.path.lanes != 0 && c.cl.head.count ≤ c.pos) = true)
    ∧ ∃ c, Issues (firstOfTwo (issuing i)) i c ∧ (c.path.lanes != 0 && c.pos < c.cl.head.count) = true := by
  intro i hi
  have h := List.all_eq_true.mp (show List.all [Instr.nop p0, .yield p0] (fun i => meets (issuing i) i (fun c => c.path.lanes != 0 && c.cl.head.count ≤ c.pos)
    && meets (firstOfTwo (issuing i)) i fun c => c.path.lanes != 0 && c.pos < c.cl.head.count) = true by decide +kernel) i hi
  rw [Bool.and_eq_true] at h
  exact ⟨issues_of_meets h.1, issues_of_meets h.2⟩

/-- Next addresses of the lanes are aligned, and one common address. -/
def goodTargets (tgt : Ctx → Nat → Word) (c : Ctx) : Bool :=
  let next (l : Nat) : Word := if c.act.getLsbD l then tgt c l else c.fall
  c.lanes != 0 && !c.s0.tracedStream c.crew c.sid && (List.range 32).all fun l => (!c.act.getLsbD l || (tgt c l).toNat % 8 == 0)
    && (List.range 32).all fun k => !(c.lanes.getLsbD l && c.lanes.getLsbD k) || next l == next k

theorem witness_Branches : ∀ i ∈ [Instr.bra p0 true 0x3FFFFFFF, .brx p0 false (.v 0), .ret p0 true (.v 2), .bra ⟨2, false, 0⟩ false 5], ∃ c, Issues (issuing i) i c ∧ (match i with
      | .bra _ _ o => goodTargets (fun c _ => c.addr + (o.signExtend 64 <<< 3)) c
      | .brx _ _ a | .ret _ _ a => goodTargets (fun c => c.read .n64 a) c
      | _ => false) = true :=
  all_meet issuing (fun i => i) (by decide +kernel)

theorem witness_Calls : ∀ i ∈ [Instr.call p0 true (.v 10) 4, .callx p0 false (.v 0) (.v 0)], ∃ c, Issues (issuing i) i c ∧ (match i with
      | .call _ _ _ o => goodTargets (fun c _ => c.addr + (o.signExtend 64 <<< 3)) c
      | .callx _ _ _ a => goodTargets (fun c => c.read .n64 a) c
      | _ => false) = true :=
  all_meet issuing (fun i => i) (by decide +kernel)

/-- `i` issues next in the stream of a class. -/
def issuingAs (cls : Class) (i : Instr) : State :=
  { State.reset with crews := [installCrew 0 cls ((encode i).getD 0)], ids := 1, slot := some { crew := 0, sid := sidFor cls, path := 0, lone := false } }

/-- `EXIT` of a wave, guarded or not; of a Gaffer context and of a producer program; and in a handler, of all its lanes and of one. -/
theorem witness_Exit : (∃ c, Issues (issuing (.exit p0)) (.exit p0) c ∧ c.t.intr.isNone = true)
    ∧ (∃ c, Issues (issuing (.exit ⟨1, false, 0⟩)) (.exit ⟨1, false, 0⟩) c ∧ c.t.intr.isNone = true)
    ∧ (∀ k ∈ [Class.g, .s], ∃ c, Issues (issuingAs k (.exit p0)) (.exit p0) c
      ∧ (c.t.intr.isNone && (c.isG || c.isP) && c.act != 0 && c.act == c.path.lanes && c.t.paths == [c.path]) = true)
    ∧ (∃ c, Issues (handling (raised 6 0 5) (issuing (.exit p0))) (.exit p0) c
      ∧ (c.t.intr.isSome && c.act != 0 && c.act == c.path.lanes && c.t.paths == [c.path] && fld c.t.trap.cause.toNat 4 2 != 3) = true)
    ∧ ∃ c, Issues ((handling (raised 6 0 5) (issuing (.exit ⟨1, false, 0⟩))).setPred 0 (.wave 0 0) 0 1 true) (.exit ⟨1, false, 0⟩) c
      ∧ (c.t.intr.isSome && c.act != 0 && c.act != c.path.lanes && c.path.only.isNone && c.t.paths == [c.path] && fld c.t.trap.cause.toNat 4 2 != 3) = true :=
  ⟨issues_of_meets (by decide +kernel), issues_of_meets (by decide +kernel), all_meet (fun k => issuingAs k (.exit p0)) (fun _ => .exit p0) (by decide +kernel),
    issues_of_meets (by decide +kernel), issues_of_meets (by decide +kernel)⟩

/-- A handler return to an address that is not 8-aligned, and one after a trap of each kind: kind 0 with lanes to issue again and with none, and kind 2. -/
theorem witness_HandlerReturn : (∃ c, Issues (handling { raised 6 0 5 with pc := 0x1009 } (issuing (.hret p0))) (.hret p0) c
      ∧ (!c.path.joined && c.act != 0 && !c.mustHold && c.t.trap.pc.toNat % 8 != 0) = true)
    ∧ ∀ r ∈ [raised 6 0 5, raised 6 0 0, raised 15 2 0xFFFFFFFF], ∃ c, Issues (handling r (issuing (.hret p0))) (.hret p0) c
    ∧ (c.t.intr.isSome && c.act == c.lanes && c.t.paths.length == 1 && c.t.paths.head? == some c.path && !c.s0.tracedStream c.crew c.sid
      && fld c.t.trap.cause.toNat 4 2 != 3 && c.t.trap.pc.toNat % 8 == 0 && c.t.intr.any fun i => i.path.clause.isNone && i.path.wait == .none) = true :=
  ⟨issues_of_meets (by decide +kernel), all_meet (fun r => handling r (issuing (.hret p0))) (fun _ => .hret p0) (by decide +kernel)⟩

/-! ### Witnesses: traps -/

/-- The stream, crew and path of the word that issues. -/
def atSlot (s : State) (P : Crew → Strand → Path → Bool) : Bool := match s.slot with
  | some g => match s.crew? g.crew, s.strand? g.crew g.sid with
    | some c, some t => (match t.path? g.path with | some p => P c t p | none => false)
    | _, _ => false
  | none => false

/-- What `atSlot` finds. -/
theorem atSlot_spec {s : State} {P : Crew → Strand → Path → Bool} (h : atSlot s P = true) :
    ∃ g c t p, s.crew? g.crew = some c ∧ s.strand? g.crew g.sid = some t ∧ t.path? g.path = some p ∧ s.slot = some g ∧ P c t p = true := by
  unfold atSlot at h
  split at h
  · rename_i g hg
    split at h
    · rename_i c t hc ht
      split at h
      · rename_i p hp; exact ⟨g, c, t, p, hc, ht, hp, hg, h⟩
      · cases h
    · cases h
  · cases h

theorem witness_TrapEntry : ∃ g c t p, (issuing (.nop p0)).crew? g.crew = some c ∧ (issuing (.nop p0)).strand? g.crew g.sid = some t ∧ t.path? g.path = some p
    ∧ (issuing (.nop p0)).slot = some g ∧ (t.intr.isNone && c.handlerOf (.wave 0 0) != 0 && !(issuing (.nop p0)).armed c.asid c.secure
      && !(issuing (.nop p0)).tracedStream c (.wave 0 0)) = true :=
  atSlot_spec (by decide +kernel)

/-- A trap in a handler, and one in a producer, which has none. -/
theorem witness_TrapEndsCrew :
    (∃ g c t p, (handling (raised 6 0 1) (issuing (.hret p0))).crew? g.crew = some c ∧ (handling (raised 6 0 1) (issuing (.hret p0))).strand? g.crew g.sid = some t
      ∧ t.path? g.path = some p ∧ (handling (raised 6 0 1) (issuing (.hret p0))).slot = some g
      ∧ (t.intr.isSome && !(handling (raised 6 0 1) (issuing (.hret p0))).tracedStream c (.wave 0 0)) = true)
    ∧ ∃ g c t p, (issuing (.qpush p0 (.v 0) 0)).crew? g.crew = some c ∧ (issuing (.qpush p0 (.v 0) 0)).strand? g.crew g.sid = some t ∧ t.path? g.path = some p
      ∧ (issuing (.qpush p0 (.v 0) 0)).slot = some g ∧ (c.handlerOf (.producer 0) == 0 && !(issuing (.qpush p0 (.v 0) 0)).tracedStream c (.producer 0)) = true :=
  ⟨atSlot_spec (by decide +kernel), atSlot_spec (by decide +kernel)⟩

/-- The surroundings of a word, with a property. -/
def around (s : State) (p : Pre) (P : Ctx → Bool) : Bool := (s.ctx? p).any P

theorem around_spec {s : State} {p : Pre} {P : Ctx → Bool} (h : around s p P = true) : ∃ c, s.ctx? p = some c ∧ P c = true := by
  unfold around at h
  cases hc : s.ctx? p with
  | none => rw [hc] at h; cases h
  | some c => rw [hc] at h; exact ⟨c, rfl, h⟩

theorem all_around {l : List Instr} (S : Instr → State) {P : Instr → Ctx → Bool} (h : l.all (fun i => around (S i) i.pre (P i)) = true) :
    ∀ i ∈ l, ∃ c, (S i).ctx? i.pre = some c ∧ P i c = true :=
  fun i hi => around_spec (List.all_eq_true.mp h i hi)

/-- The path that issues is lone, and another path of its wave is inside a clause. -/
def besides (s : State) : State := match s.slot with
  | some g => s.modStrand g.crew g.sid fun t => { t with paths := t.paths.flatMap fun p => [{ p with lanes := 1, lone := true }, { p with id := 1, lanes := 2, clause := p.clause.map fun k =>
      { k with head := { k.head with count := 1 }, words := k.words ++ k.words, pos := 1 } }] }
  | none => s

/-- A barrier and a record out of range, a rank that the crew has not (R64, R65), a lone lane beside a clause in progress, and a word that is no instruction. -/
theorem witness_DecodeTraps :
    (∃ c, (issuing (.cbarArv p0 (.k 0) 4)).ctx? p0 = some c ∧ (c.check (.cbarArv p0 (.k 0) 4) == some 4 && c.path.lanes != 0 && !c.mustHold) = true)
    ∧ (∃ c, (besides (issuing (.cbarArv p0 (.k 0) 4))).ctx? p0 = some c ∧ (c.check (.cbarArv p0 (.k 0) 4) == some 4 && c.path.lanes != 0 && c.mustHold) = true)
    ∧ (∃ c, (issuing (.tzero p0 false 1 0)).ctx? p0 = some c ∧ (c.check (.tzero p0 false 1 0) == some 3 && c.path.lanes != 0) = true)
    ∧ ∃ c, (State.reset.install 64 0xFE00F00000000000).ctx? ⟨15, false, 0⟩ = some c ∧ ((decode c.word).isNone && c.path.lanes != 0 && !c.mustHold) = true :=
  ⟨around_spec (by decide +kernel), around_spec (by decide +kernel), around_spec (by decide +kernel), around_spec (by decide +kernel)⟩

/-- The crew is not privileged. -/
def unprivileged (s : State) : State := s.modCrew 0 fun c => { c with desc := { c.desc with priv := false } }

/-- The same surroundings in a privileged crew. -/
def privileged (c : Ctx) : Ctx := { c with crew := { c.crew with desc := { c.crew.desc with priv := true } } }

theorem witness_Privilege : ∀ i ∈ [Instr.tsave p0 0 15 0, .tresumeCont p0 true 0 0 1, .tresumeWide p0 false 0 0 0, .tresumeRestart p0 false 0 0 0],
    ∃ c, (unprivileged (issuing i)).ctx? i.pre = some c ∧ (!c.crew.desc.priv && c.check i == some 5 && (privileged c).check i == none) = true :=
  all_around (fun i => unprivileged (issuing i)) (by decide +kernel)

/-- In a handler of a crew that is not privileged a write of TRAPCAUSE raises cause 5 too. -/
theorem witness_Privilege_wrsr : ∃ c, (unprivileged (handling (raised 6 0 1) (issuing (.wrsr p0 .n32 0x128 (.k 0))))).ctx? p0 = some c
    ∧ (!c.crew.desc.priv && c.check (.wrsr p0 .n32 0x128 (.k 0)) == some 5 && (privileged c).check (.wrsr p0 .n32 0x128 (.k 0)) == none) = true := around_spec (by decide +kernel)

theorem witness_SoftTrapsAndSnapshots : ∀ i ∈ [Instr.trap p0 0xFFFFF, .brk p0 1, .snap p0 (.v 0)], (∃ c, Issues (issuing i) i c ∧ (c.act != 0 && c.t.intr.isNone && !c.mustHold
      && c.crew.handlerOf c.sid != 0 && !c.s0.armed c.crew.asid c.crew.secure && !c.s0.tracedStream c.crew c.sid) = true) :=
  all_meet issuing (fun i => i) (by decide +kernel)

theorem witness_SoftTraps_unguarded : ∀ i ∈ [Instr.trap ⟨0, false, 0⟩ 1, .brk ⟨0, false, 0⟩ 1, .snap ⟨0, false, 0⟩ (.v 0)],
    (∃ c, Issues (issuing i) i c ∧ (c.act == 0) = true) := all_issue (by decide +kernel)

/-- Lanes of a wave of a team, a producer, a Gaffer context, and a stream in a handler. -/
theorem witness_SpecialRegisters : (∃ c, (issuing (.nop p0)).ctx? p0 = some c ∧ (!c.isP && c.t.intr.isNone && c.team.isSome && c.sid == .wave 0 0) = true)
    ∧ (∃ c, (issuing (.tzero p0 true 0 0)).ctx? p0 = some c ∧ c.isG = true)
    ∧ (∃ c, (issuing (.qpush p0 (.v 0) 0)).ctx? p0 = some c ∧ c.isP = true)
    ∧ ∃ c, (handling (raised 6 0 1) (issuing (.nop p0))).ctx? p0 = some c ∧ c.t.intr.isSome = true :=
  ⟨around_spec (by decide +kernel), around_spec (by decide +kernel), around_spec (by decide +kernel), around_spec (by decide +kernel)⟩

theorem witness_WriteSpecial : ∀ k ∈ [29, 31, 38, 36], ∃ c, Issues (issuing (.wrsr p0 .n64 (BitVec.ofNat 10 (256 + k)) (.v 0))) (.wrsr p0 .n64 (BitVec.ofNat 10 (256 + k)) (.v 0)) c
    ∧ (c.act != 0 && c.ls.all (fun l => c.read .n64 (.v 0) l == c.read .n64 (.v 0) (lowLane c.act)) && c.w2Valid (c.read .n64 (.v 0) (lowLane c.act))) = true :=
  all_meet (fun k => issuing (.wrsr p0 .n64 (BitVec.ofNat 10 (256 + k)) (.v 0))) (fun k => .wrsr p0 .n64 (BitVec.ofNat 10 (256 + k)) (.v 0)) (by decide +kernel)

theorem witness_WriteSpecial_trap : ∀ k ∈ [40, 41, 42], ∃ c, Issues (handling (raised 6 1 1) (issuing (.wrsr p0 .n32 (BitVec.ofNat 10 (256 + k)) (.k 0))))
      (.wrsr p0 .n32 (BitVec.ofNat 10 (256 + k)) (.k 0)) c
    ∧ (c.act != 0 && c.ls.all (fun l => c.read .n32 (.k 0) l == c.read .n32 (.k 0) (lowLane c.act))) = true :=
  all_meet (fun k => handling (raised 6 1 1) (issuing (.wrsr p0 .n32 (BitVec.ofNat 10 (256 + k)) (.k 0)))) (fun k => .wrsr p0 .n32 (BitVec.ofNat 10 (256 + k)) (.k 0))
    (by decide +kernel)

/-! ### Witnesses: memory words -/

/-- Guarded lanes aligned and outside the aperture, room in the log and the counters, and no older line of theirs (R206, R258, R299). -/
def accessOk (n : Nat) (f : Ctx → Nat → Word) (k : Counts) (src : Ctx → Nat → List Word) (c : Ctx) : Bool :=
  c.act != 0 && c.t.logn + entryRecords c.word ≤ 8 && c.ls.all (fun l => (f c l).toNat % n == 0 && !inBlockAperture (f c l)) && c.t.canRaise k && !c.lineTaken (src c) c.ls

def dataOf (t : Ty) (z : Size) (d a : Opd) (off : BitVec 16) (c : Ctx) (l : Nat) : List Word :=
  let h := halves (c.groupNat t z d l); [c.ea a off l, h.1, h.2]

theorem witness_LoggedAccesses : ∀ i ∈ [Instr.ld p0 .n64 (.sized .x2) (.v 60) (.v 2) 0x7FF0 4, .st p0 .n32 (.ordered .sys) true (.v 0) (.v 2) 0 0, .pin p0 (.v 63) (.v 2) 3,
      .atom p0 .f64 .add (.v 0) (.v 2) (.v 4), .acas p0 .n32 (.v 0) (.v 2) (.v 4) (.v 5), .gsadd p0 (.v 2) (.v 4), .lds p0 .n32 .x4 (.v 0) (.v 2) 0x10,
      .sts p0 .i32 .b8 (.v 0) (.v 2) 0xFFFF], ∃ c, Issues (issuing i) i c ∧ (match i with
    | .ld _ t m _ a off _ => accessOk (sizeBytes t (MemSize m)) (fun c => c.ea a off) ⟨1, 0, 0, 0⟩ (fun c l => [c.ea a off l]) c
    | .st _ t m tag d a off _ => accessOk (sizeBytes t (MemSize m)) (fun c => c.ea a off) ⟨if tag then 1 else 0, 1, 0, 0⟩ (dataOf t (MemSize m) d a off) c
    | .pin _ _ a off => accessOk 1 (fun c => c.ea a off) ⟨1, 0, 0, 0⟩ (fun c l => [c.ea a off l]) c
    | .atom _ t _ _ a b => accessOk 8 (fun c => c.read .n64 a) ⟨1, 1, 0, 0⟩ (fun c l => [c.read .n64 a l, c.read t b l]) c
    | .acas _ t _ a b e => accessOk 4 (fun c => c.read .n64 a) ⟨1, 1, 0, 0⟩ (fun c l => [c.read .n64 a l, c.read t b l, c.read t e l]) c
    | .gsadd _ a b => accessOk 4 (fun c => c.read .n64 a) ⟨0, 1, 0, 0⟩ (fun c l => [c.read .n64 a l, c.read .f32 b l]) c
    | .lds _ t z _ a off => accessOk (sizeBytes t z) (fun c => c.ea a off) ⟨1, 0, 0, 0⟩ (fun c l => [c.ea a off l]) c
    | .sts _ t z d a off => accessOk (sizeBytes t z) (fun c => c.ea a off) ⟨0, 1, 0, 0⟩ (dataOf t z d a off) c
    | _ => false) = true :=
  all_meet issuing (fun i => i) (by decide +kernel)

/-- A misaligned load, a branch target, a conversion of a NaN under the fault policy, and an arrival whose lanes disagree or whose count is 1. -/
theorem witness_TrapsAtIssue :
    (∃ c, Issues (issuing (.lds p0 .n32 .nat (.v 0) (.v 2) 1)) (.lds p0 .n32 .nat (.v 0) (.v 2) 1) c ∧ (!c.path.joined && !c.mustHold && c.act != 0 && c.ls.all fun l => (c.ea (.v 2) 1 l).toNat % 4 != 0) = true)
    ∧ (∃ c, Issues (setV 0 0 4 (issuing (.brx p0 false (.v 0)))) (.brx p0 false (.v 0)) c ∧ (!c.path.joined && !c.mustHold && c.act != 0 && (c.read .n64 (.v 0) (lowLane c.act)).toNat % 8 != 0) = true)
    ∧ (∃ c, Issues (setV 1 7 0x7FC00000 (issuing (.cvt p0 .f32 .rne (.v 0) (.v 1) 0xFF 0))) (.cvt p0 .f32 .rne (.v 0) (.v 1) 0xFF 0) c
        ∧ (!c.path.joined && !c.mustHold && (c.ls.filter fun l => (convert Ty.i32.target .rne 0xFF (Ty.f32.srcOf (c.rd .f32 (.v 1) l))).fault) == [7]) = true)
    ∧ (∃ c, Issues (setV 0 0 1 (issuing (.barArv p0 (.v 0) 3))) (.barArv p0 (.v 0) 3) c ∧ (!c.path.joined && !c.mustHold && c.act.getLsbD 0 && c.act.getLsbD 1 && c.rd .n32 (.v 0) 0 != c.rd .n32 (.v 0) 1) = true)
    ∧ ∃ c, Issues (issuing (.barArv p0 (.k 1) 3)) (.barArv p0 (.k 1) 3) c ∧ (!c.path.joined && !c.mustHold && c.act != 0 && !barOk (c.barrier false 3) 1 c.ls.length c.crew.desc.team) = true :=
  ⟨issues_of_meets (by decide +kernel), issues_of_meets (by decide +kernel), issues_of_meets (by decide +kernel), issues_of_meets (by decide +kernel),
    issues_of_meets (by decide +kernel)⟩

theorem witness_UnloggedAccesses : ∀ i ∈ [Instr.cctlEvict p0 (.v 2) 0, .cctlFlush p0 (.v 2) 0x80, .gsflush p0 (.v 2) (.v 4), .gsflushAll p0, .sld p0 .n32 .b16 true (.v 0) (.v 2) 0x7FFF,
      .sld p0 .i64 .nat false (.v 0) (.v 2) 8], ∃ c, Issues (issuing i) i c ∧ (c.act != 0 && match i with
    | .cctlEvict _ a off | .cctlFlush _ a off => c.ls.all (fun l => !inBlockAperture (c.ea a off l)) && c.t.canRaise ⟨0, 1, 0, 0⟩
    | .gsflush .. | .gsflushAll .. => c.t.canRaise ⟨0, 1, 0, 0⟩
    | .sld _ _ _ inc _ a off => c.isP && c.t.canRaise ⟨1, 0, 0, 0⟩ && c.ls.all fun l =>
        let e := if inc then c.read .n64 a l else c.ea a off l
        e.toNat % accessBytes i == 0 && !inBlockAperture e
    | _ => false) = true :=
  all_meet issuing (fun i => i) (by decide +kernel)

theorem witness_UnloggedAccesses_unguarded : ∀ i ∈ [Instr.cctlEvict ⟨0, false, 0⟩ (.v 2) 0, .cctlFlush ⟨0, false, 0⟩ (.v 2) 0, .gsflush ⟨0, false, 0⟩ (.v 2) (.v 4),
    .gsflushAll ⟨0, false, 0⟩, .sld ⟨0, false, 0⟩ .n32 .b8 true (.v 0) (.v 2) 0], ∃ c, Issues (issuing i) i c ∧ (c.act == 0) = true := all_issue (by decide +kernel)

/-- Register space: a word of w0, and one of a tile's slot. -/
theorem witness_RegisterSpace : ∀ i ∈ [Instr.ldrs p0 .n32 .nat (.v 0) (.v 2) 0x40, .strs p0 .n64 .x2 (.v 0) (.v 2) 0x20], ∃ c, Issues (issuing i) i c ∧
    (match i, c.team with
      | .ldrs _ t z _ a off, some tm | .strs _ t z _ a off, some tm => !c.acquirePending && c.ls.all fun l => (c.ea a off l).toNat % sizeBytes t z == 0
          && c.crew.regRangeOk tm (c.ea a off l) (sizeBytes t z) && (match tm.tileAt (c.ea a off l).toNat with | some i => !c.tileBusy c.rank i | none => true)
      | _, _ => false) = true :=
  all_meet issuing (fun i => i) (by decide +kernel)

/-- Address 0 to 2^30 of address space 0, mapped for reading, writing and execution at the same offsets of HBM4 (R218 to R222), since the last invalidate. -/
def mappedCp (cp : Nat) (s : State) : State :=
  let s := (((s.setMem 0 (leBytes 8 0x1001)).setMem 0x1000 (leBytes 8 0x2001)).setMem 0x2000 (leBytes 8 0x3001)).setMem 0x3000 (leBytes 8 (0x100 * cp + 0xF))
  { s with past := [] }

/-- So mapped, with CP 1. -/
def mapped : State → State := mappedCp 1

/-- What a change of a table replaced is kept until the invalidate completes, and for that table alone (R224). -/
theorem test_old_tables : (let s := (mapped State.reset).setMem 0x3000 (leBytes 8 0)
    s.oldMems 0 0x3000 4096 = [(mapped State.reset).mem] ∧ s.oldMems 0 0x2000 4096 = [] ∧ (s.dropTlb 0).oldMems 0 0x3000 4096 = []) := by decide +kernel

theorem witness_CacheWords : ∀ i ∈ [Instr.pref p0 true (.v 2) 0x40 4, .unpin p0 (.v 2) 0, .cctlIinv p0, .cctlL1 p0], ∃ c, Issues (mapped (issuing i)) i c ∧ (match i with
      | .unpin _ a off => c.act != 0 && !inBlockAperture (c.ea a off (lowLane c.act))
          && [0, 31].all fun l => (match (((c.ls.filter (· < l)).foldl (fun v k => (v.translate c.crew.asid c.crew.secure .load (c.ea a off k)).2) c.s0).translate c.crew.asid
            c.crew.secure .load (c.ea a off l)).1 with | .ok _ => true | _ => false)
      | _ => c.act != 0) = true :=
  all_meet (fun i => mapped (issuing i)) (fun i => i) (by decide +kernel)

/-- Two lanes whose pairs v2, v3 name the first and the last command word of the aperture. -/
def atAperture (i : Instr) : State :=
  let f (l n : Nat) (s : State) : State := setV 2 l (BitVec.ofNat 32 ((blockAperture + n) % 2 ^ 32)) (setV 3 l (BitVec.ofNat 32 ((blockAperture + n) / 2 ^ 32)) s)
  f 0 0 (f 1 0x78 (onLanes 3 (issuing i)))

def stAp : Instr := .st p0 .n64 (.sized .nat) false (.v 0) (.v 2) 0 0

/-- The same with a release. -/
def stApRel : Instr := .st p0 .n64 (.ordered .dev) false (.v 0) (.v 2) 0 0

def apOk (i : Instr) (c : Ctx) : Bool :=
  wordOf c.word == i && !c.mustHold && !c.path.joined && c.act != 0 && c.t.canRaise ⟨0, 0, 1, 0⟩ && c.ls.all fun l => inBlockAperture (c.ea (.v 2) 0 l)
    && (c.ea (.v 2) 0 l).toNat - blockAperture < 0x80 && ((c.ea (.v 2) 0 l).toNat - blockAperture) % 8 == 0

/-- The lanes' offers as they stand when every channel has answered: none refused, lane 1's alone, or both. -/
def answered (i : Instr) (refused : List Nat) (s : State) : State :=
  { s with offers := [0, 1].map fun l => { crew := 0, sid := .wave 0 0, path := 0, lane := l, chan := 15 * l, data := 0, word := (encode i).getD 0, settled := true,
                                           refused := refused.contains l, entry := none } }

theorem witness_ApertureStore : (∀ i ∈ [stAp, stApRel], ∃ c, Issues (atAperture i) i c ∧ (apOk i c && c.offers.isEmpty) = true)
    ∧ ∀ x ∈ [(stAp, []), (stAp, [1]), (stApRel, [0, 1])], ∃ c, Issues (answered x.1 x.2 (atAperture x.1)) x.1 c ∧ (apOk x.1 c && c.offers.map Offer.lane == c.ls
      && (c.offers.filter Offer.refused).map Offer.lane == x.2 && c.offers.all fun o => o.word == c.word && o.settled && o.far.isNone) = true :=
  ⟨all_meet atAperture (fun i => i) (by decide +kernel), all_meet (fun x : Instr × List Nat => answered x.1 x.2 (atAperture x.1)) (fun x => x.1) (by decide +kernel)⟩

/-! ### Witnesses: waits and barriers -/

/-- The granted stream, changed. -/
def withStrand (f : Strand → Strand) (s : State) : State := match s.slot with
  | some g => s.modStrand g.crew g.sid f
  | none => s

/-- An older load of the granted path, that has not completed. -/
def olderLoad : Entry :=
  { id := 99, word := (encode (.ld p0 .n32 (.sized .nat) (.v 9) (.v 2) 0 0)).getD 0, pos := 0, path := 0, inH := false, logged := true, lanes := 1, done := 0, sent := 0,
    faults := [], src := [[0x5000]], cnt := ⟨1, 0, 0, 0⟩, reads := [] }

def pending1 (s : State) : State := withStrand (fun t => { t with log := [olderLoad], ld := 1 }) s

theorem witness_FenceAndWait :
    (∃ c, Issues (issuing (.fence ⟨0, false, 0⟩ .dev)) (.fence ⟨0, false, 0⟩ .dev) c ∧ (c.act == 0) = true)
    ∧ (∀ sc ∈ [Scope.th, .tm, .cr, .die, .dev, .sys], ∃ c, Issues (issuing (.fence p0 sc)) (.fence p0 sc) c ∧ (c.act != 0 && c.s0.released c.crew c.t c.inH c.path.lanes none sc) = true)
    ∧ (∃ c, Issues (pending1 (issuing (.fence p0 .dev))) (.fence p0 .dev) c ∧ (c.act != 0 && !c.s0.released c.crew c.t c.inH c.path.lanes none .dev) = true)
    ∧ (∃ c, Issues (pending1 (issuing (.wait p0 1 0 15 0))) (.wait p0 1 0 15 0) c ∧ (c.t.ld ≤ 1 && c.t.st ≤ 0 && c.t.cp ≤ 15 && c.t.tl ≤ 0) = true)
    ∧ ∃ c, Issues (pending1 (issuing (.wait p0 0 15 15 15))) (.wait p0 0 15 15 15) c ∧ (c.act != 0 && 0 < c.t.ld) = true :=
  ⟨issues_of_meets (by decide +kernel), all_meet (fun sc => issuing (.fence p0 sc)) (fun sc => .fence p0 sc) (by decide +kernel), issues_of_meets (by decide +kernel),
    issues_of_meets (by decide +kernel), issues_of_meets (by decide +kernel)⟩

/-- An arrival that may be made: 32 lanes with the count 32, which completes the phase, and with 16 lanes, which does not; and with count 0. -/
def arrivesOk (crewWide : Bool) (b : Opd) (n : BitVec 4) (cnt : Nat) (c : Ctx) : Bool :=
  c.act != 0 && c.ls.all (fun l => c.rd .n32 b l == cnt) && barArrived (c.barrier crewWide n.toNat) + c.ls.length < 8192
    && barOk (c.barrier crewWide n.toNat) cnt c.ls.length (c.barThreads crewWide) && c.s0.released c.crew c.t false c.act none (if crewWide then .cr else .tm)
    && (if crewWide then n.toNat < c.crew.cbars.length else (c.team.any fun tm => n.toNat < tm.bars.length)) && c.path.wait == .none

theorem witness_Barriers : ∀ i ∈ [Instr.barSync p0 (.k 32) 15, .barArv p0 (.k 0) 0, .cbarSync p0 (.k 0) 3, .cbarArv p0 (.k 32) 0], ∀ m ∈ [(0xFFFFFFFF : Lanes), 0xFFFF],
    ∃ c, Issues (onLanes m (issuing i)) i c ∧ (match i with
      | .barSync _ b n | .barArv _ b n => arrivesOk false b n (if b == .k 0 then 0 else 32) c
      | .cbarSync _ b n | .cbarArv _ b n => arrivesOk true b n (if b == .k 0 then 0 else 32) c
      | _ => false) = true := by
  intro i hi m hm
  have h := List.all_eq_true.mp (show List.all [Instr.barSync p0 (.k 32) 15, .barArv p0 (.k 0) 0, .cbarSync p0 (.k 0) 3, .cbarArv p0 (.k 32) 0] (fun i =>
    [(0xFFFFFFFF : Lanes), 0xFFFF].all fun m => meets (onLanes m (issuing i)) i fun c => match i with
      | .barSync _ b n | .barArv _ b n => arrivesOk false b n (if b == .k 0 then 0 else 32) c
      | .cbarSync _ b n | .cbarArv _ b n => arrivesOk true b n (if b == .k 0 then 0 else 32) c
      | _ => false) = true by decide +kernel) i hi
  exact issues_of_meets (List.all_eq_true.mp h m hm)

theorem witness_Barriers_unguarded : ∀ i ∈ [Instr.barSync ⟨0, false, 0⟩ (.k 32) 15, .barArv ⟨0, false, 0⟩ (.k 0) 0, .cbarSync ⟨0, false, 0⟩ (.k 0) 3, .cbarArv ⟨0, false, 0⟩ (.k 32) 0],
    ∃ c, Issues (issuing i) i c ∧ (c.act == 0 && !c.path.joined) = true := all_issue (by decide +kernel)

/-- A transaction barrier at offset 0 of the team's scratchpad. -/
def withTb (b : Tb) (s : State) : State := s.modTeam 0 0 fun t => t.setPadNat 0 16 b.toNat

def tbOk (a b : Opd) (c : Ctx) : Bool :=
  c.act != 0 && c.disagree [a, b] == [] && c.disagree [a] == [] && c.tbTarget a (lowLane c.act) == (some (0, 0), none)
    && ((c.s0.team? c.id 0).any fun tm => sparseWf 0 tm.scratch) && !c.s0.padLost c.id 0 0 16

theorem witness_TransactionBarriers : ∀ i ∈ [Instr.tbinit p0 (.k 0) (.k 1), .tbexpect p0 (.k 0) (.k 32), .tbarrivePath p0 .cr (.k 0), .tbarriveLane p0 .tm (.k 0), .tbwait p0 .cr (.k 0) (.k 2),
      .tbwait p0 .cr (.k 0) (.k 3)], ∃ c, Issues (withTb { phase := 2, arr := 33, sec := 5, reload := 33, clean := true } (issuing i)) i c ∧ (match i with
    | .tbinit _ a b => tbOk a b c && c.tbReady [(0, 0)]
    | .tbexpect _ a b => tbOk a b c && c.tbReady [(0, 0)] && (c.s0.tbGet 0 0 0).clean
    | .tbarrivePath _ sc a => tbOk a a c && c.tbReady [(0, 0)] && (c.s0.tbGet 0 0 0).clean && (c.s0.tbGet 0 0 0).arr != 0 && c.s0.released c.crew c.t false c.act none sc
    | .tbarriveLane _ sc a => tbOk a a c && c.tbReady (c.ls.map fun _ => (0, 0)) && (c.s0.tbGet 0 0 0).clean && c.ls.length ≤ (c.s0.tbGet 0 0 0).arr
        && c.s0.released c.crew c.t false c.act none sc
    | .tbwait _ _ a b => tbOk a b c && c.path.wait == .none && !c.acquirePending && (c.s0.tbGet 0 0 0).clean && !c.padPending 0 0 16
    | _ => false) = true :=
  all_meet (fun i => withTb { phase := 2, arr := 33, sec := 5, reload := 33, clean := true } (issuing i)) (fun i => i) (by decide +kernel)

/-! ### Witnesses: queue words and the producer -/

/-- Graph queue 0 at 0x8000 with 4 slots, of which some are taken, open to address space 0; memory mapped. -/
def withQueue (taken : Nat) (s : State) : State :=
  mapped { s with queues := [(0, { Queue.reset with en := true, kind := true, log2n := 2, base := 0x8000, tail := BitVec.ofNat 32 taken })] }

def isOk (r : VaRes × State) : Bool := match r.1 with
  | .ok _ => true
  | .fail .. => false

/-- The lane's turns all end well. -/
def ended (o : Out) : Bool := match o with
  | .done _ => true
  | _ => false

/-- One lane, and for `QRES` two; room, and none (R332 to R335). -/
theorem witness_QueueWords :
    (∀ x ∈ [((1 : Lanes), 1), (1, 4), (3, 1)], ∃ c, Issues (withQueue x.2 (onLanes x.1 (issuing (.qres p0 (.v 0) (.k 0) (.k 3))))) (.qres p0 (.v 0) (.k 0) (.k 3)) c
      ∧ (c.ls == lanesOf x.1 && c.rd .n32 (.k 0) 0 == 0 && (c.s0.queue 0).open_ c.crew.asid c.crew.secure && c.rd .n32 (.k 3) 0 == 3
        && ((c.s0.queue 0).free < 3) == (x.2 == 4) && ended (c.turns (c.qresLane (.v 0) (.k 0) (.k 3)))) = true)
    ∧ (∀ x ∈ [((1 : Lanes), 0), (1, 4)], ∃ c, Issues (withQueue x.2 (setV 2 0 0x4080 (setV 2 1 0x4080 (onLanes x.1 (issuing (.spawn p0 (.v 0) (.v 2) (.k 0)))))))
        (.spawn p0 (.v 0) (.v 2) (.k 0)) c
      ∧ (c.ls == lanesOf x.1 && (c.s0.queue 0).open_ c.crew.asid c.crew.secure && c.rd .n64 (.v 2) 0 % 32 == 0 && c.s0.released c.crew c.t false c.act none .dev
        && ((c.s0.queue 0).free == 0 || match c.s0.loadVa (c.byLane 0) (c.rd .n64 (.v 2) 0) 32 with
          | (.ok r, s) => (match s.pushRecord (c.byLane 0) 0 r with | (.ok [], _) => true | _ => false)
          | _ => false) && ended (c.turns (c.spawnLane (.v 0) (.v 2) (.k 0)))) = true)
    ∧ (∃ c, Issues (withQueue 4 (setV 2 0 0x8020 (onLanes 1 (issuing (.qcommit p0 (.v 2) (.k 0) (.k 1)))))) (.qcommit p0 (.v 2) (.k 0) (.k 1)) c
      ∧ (c.ls == [0] && (c.s0.queue 0).open_ c.crew.asid c.crew.secure && c.s0.released c.crew c.t false c.act none .dev
        && (match Ctx.commitVas (c.s0.queue 0) (c.rd .n64 (.v 2) 0) (c.rd .n32 (.k 1) 0) with
          | some vas => (match Ctx.commitAll (c.byLane 0) vas c.s0 with | (.ok [], _) => true | _ => false)
          | none => false) && ended (c.turns (c.qcommitLane (.v 2) (.k 0) (.k 1)))) = true)
    ∧ (∀ x ∈ [((0 : Byte), 0), (1, 0), (2, 0), (1, 4)], ∃ c, Issues ((withQueue x.2 (setV 2 0 0x9000 (onLanes 1 (issuing (.join p0 (.v 2)))))).setMem 0x9000 [x.1]) (.join p0 (.v 2)) c
      ∧ (c.ls == [0] && (c.s0.replay? c.id (some c.sid) 0).isNone && c.s0.inWindow (corePort c.core) < 8 && c.rd .n64 (.v 2) 0 % 64 == 0 && c.s0.released c.crew c.t false c.act none .dev && (c.s0.queue 0).open_ c.crew.asid c.crew.secure
        && match c.s0.leavesFor (c.byLane 0) .store (spans (c.rd .n64 (.v 2) 0) 64) with
          | (.inl _, s1) => (match s1.loadVa (c.byLane 0) (c.rd .n64 (.v 2) 0) 64 with
            | (.ok l, s2) => leNat (l.take 4) == x.1.toNat && fld (leNat ((l.drop 8).take 8)) 0 12 == 0 && if x.2 = 4 then (s2.queue 0).free == 0 else (match s2.pushRecord (c.byLane 0) 0 ((l.drop 32).take 32) with
              | (.ok [], _) => true
              | _ => false)
            | _ => false)
          | _ => false) = true)
    ∧ ∀ i ∈ [Instr.spawn ⟨0, false, 0⟩ (.v 0) (.v 2) (.k 0), .qcommit ⟨0, false, 0⟩ (.v 2) (.k 0) (.k 1), .join ⟨0, false, 0⟩ (.v 2)],
      ∃ c, Issues (issuing i) i c ∧ (c.act == 0) = true :=
  ⟨all_meet (fun x : Lanes × Nat => withQueue x.2 (onLanes x.1 (issuing (.qres p0 (.v 0) (.k 0) (.k 3))))) (fun _ => .qres p0 (.v 0) (.k 0) (.k 3)) (by decide +kernel),
    all_meet (fun x : Lanes × Nat => withQueue x.2 (setV 2 0 0x4080 (setV 2 1 0x4080 (onLanes x.1 (issuing (.spawn p0 (.v 0) (.v 2) (.k 0)))))))
      (fun _ => .spawn p0 (.v 0) (.v 2) (.k 0)) (by decide +kernel),
    issues_of_meets (by decide +kernel),
    all_meet (fun x : Byte × Nat => (withQueue x.2 (setV 2 0 0x9000 (onLanes 1 (issuing (.join p0 (.v 2)))))).setMem 0x9000 [x.1]) (fun _ => .join p0 (.v 2)) (by decide +kernel),
    all_issue (by decide +kernel)⟩

/-- Producer queue 1 of the team holds n entries. -/
def withEntries (n : Nat) (s : State) : State := s.modTeam 0 0 fun t => { t with queues := listSet t.queues 1 (pqWord n 31) }

theorem witness_ProducerQueues :
    (∀ n ∈ [0, 31, 32], ∃ c, Issues (withEntries n (issuing (.qpop p0 .n64 (.v 0) 1))) (.qpop p0 .n64 (.v 0) 1) c ∧ ((c.team.any fun tm => tm.producer.isSome) && c.act != 0
      && (pqCount ((c.team.map fun tm => tm.queues.getD 1 0).getD 0) < c.ls.length) == (n < 32)) = true)
    ∧ (∃ c, Issues (withEntries 31 (issuing (.qpeek p0 (.v 0) 1))) (.qpeek p0 (.v 0) 1) c ∧ ((c.team.any fun tm => tm.producer.isSome) && c.act != 0) = true)
    ∧ (∃ c, Issues (withEntries 31 (issuing (.qpush p0 (.v 0) 1))) (.qpush p0 (.v 0) 1) c ∧ (c.sid == .producer c.rank && c.act == 1 && decode c.word == some (.qpush p0 (.v 0) 1)
      && c.s0.samples.isEmpty && c.t.pushes == 0 && c.t.canRaise ⟨0, 1, 0, 0⟩ && (c.team.any fun tm => pqCount (tm.queues.getD 1 0) < 32 && 1 < tm.queues.length)) = true)
    ∧ ∀ v ∈ [(0 : Word), 0x8000000000000002, 0x8000000000000001], ∃ c, Issues (withStrand (fun t => { t with ploop := v }) (issuing (.sloop p0 (.k 5) 0x3FFFFFFE))) (.sloop p0 (.k 5) 0x3FFFFFFE) c
      ∧ (c.sid == .producer c.rank && c.act == 1 && c.team.isSome && !c.s0.tracedStream c.crew c.sid) = true :=
  ⟨all_meet (fun n => withEntries n (issuing (.qpop p0 .n64 (.v 0) 1))) (fun _ => .qpop p0 .n64 (.v 0) 1) (by decide +kernel), issues_of_meets (by decide +kernel),
    issues_of_meets (by decide +kernel), all_meet (fun v => withStrand (fun t => { t with ploop := v }) (issuing (.sloop p0 (.k 5) 0x3FFFFFFE))) (fun _ => .sloop p0 (.k 5) 0x3FFFFFFE)
      (by decide +kernel)⟩

/-! ### Witnesses: the tape and rendering -/

/-- The tape share of lane 0 holds a given tape, without an error; the rest of the team's scratchpad is 0. -/
def withTape (f : Tape → Tape) (s : State) : State := match s.crew? 0 with
  | some c => (s.setShare c (.wave 0 0) 0 (f (Tape.ofBytes (s.shareBytes c (.wave 0 0) 0))).bytes).modTeam 0 0 fun t => { t with padBad := [] }
  | none => s

/-- One guarded lane whose share has the stated contents. -/
def tapeOk (P : Tape → Bool) (c : Ctx) : Bool :=
  c.ls == [0] && !c.s0.shareLost c.crew c.sid 0 && 128 ≤ c.crew.desc.tape && c.t.refilling &&& c.act == 0 && P (Tape.ofBytes (c.s0.shareBytes c.crew c.sid 0))

theorem witness_TapeWords :
    (∃ c, Issues (withTape (fun x => { x with nres := 1, nbuf := 6 }) (onLanes 1 (issuing (.trec p0 .n32 (.v 0))))) (.trec p0 .n32 (.v 0)) c
      ∧ tapeOk (fun x => x.nres != 0 && x.nbuf < 7) c = true)
    ∧ (∃ c, Issues (withTape (fun x => { x with nres := 1, nbuf := 5 }) (onLanes 1 (issuing (.trec p0 .n64 (.v 0))))) (.trec p0 .n64 (.v 0)) c
      ∧ tapeOk (fun x => x.nres != 0 && x.nbuf < 6) c = true)
    ∧ (∀ i ∈ [Instr.tspan p0, .tspanRc p0 (.v 2) (.v 4), .tspanArea p0 (.v 2) (.v 4)], ∃ c, Issues (withTape (fun x => { x with used := 168 }) (onLanes 1 (issuing i))) i c
      ∧ tapeOk (fun x => !x.recd && x.nbuf == 0 && 16 ≤ x.size - x.used && x.cused == 0 && c.rd .n64 (.v 2) 0 == 0 && c.rd .n32 (.v 4) 0 == 0) c = true)
    ∧ (∃ c, Issues (withTape (fun x => { x with nbuf := 1 }) (onLanes 1 (issuing (.tpop p0 .n32 (.v 0))))) (.tpop p0 .n32 (.v 0)) c
      ∧ tapeOk (fun x => !x.recd && 0 < x.nbuf) c = true)
    ∧ ∃ c, Issues (withTape (fun x => { x with nbuf := 2 }) (onLanes 1 (issuing (.tpop p0 .n64 (.v 0))))) (.tpop p0 .n64 (.v 0)) c
      ∧ tapeOk (fun x => !x.recd && 1 < x.nbuf) c = true :=
  ⟨issues_of_meets (by decide +kernel), issues_of_meets (by decide +kernel),
    all_meet (fun i => withTape (fun x => { x with used := 168 }) (onLanes 1 (issuing i))) (fun i => i) (by decide +kernel), issues_of_meets (by decide +kernel),
    issues_of_meets (by decide +kernel)⟩

/-- A pop of lane 0 waits for the one entry of its Cullet, a block of one word at 0x5000. -/
def popEntry : Entry := { olderLoad with word := (encode (.tpop p0 .n32 (.v 0))).getD 0, logged := false }

def refilling (rs : List LaneRead) : State :=
  withStrand (fun t => { t with log := [{ popEntry with reads := rs }], ld := 1 }) (withTape (fun x =>
    { x with ctv := true, cbase := 0x5000, csize := 64, cused := 32, ctop := Tape.header 5 1 false false 0 0 }) (onLanes 1 (issuing (.nop p0))))

/-- The Cullet's bytes. -/
def withCullet (s : State) : State := (mapped s).setMem 0x5000 ([1] ++ leBytes 4 0x12345678 ++ List.replicate 11 0 ++ leBytes 16 (Tape.header 5 1 false false 0 0))

/-- What a turn of an engine meets: it has what it needs, it makes a read, or what it needs does not translate. -/
inductive Turn where
  | lands | reads | fails
deriving DecidableEq, Repr

/-- The refill's hypotheses, and that its turn is of the kind `k`. -/
def refillOk (k : Turn) (s : State) : Bool := atSlot s fun c t _ =>
  match t.log.find? fun e => e.undone.getLsbD 0 && !e.faultLanes.getLsbD 0 && (match wordOf e.word with | .tpop .. => true | _ => false) with
  | some e => wordOf e.word == .tpop p0 .n32 (.v 0) && t.refills.isEmpty && !s.shareLost c (.wave 0 0) 0 && (s.spilling 0 (.wave 0 0) 0).isEmpty && !s.lateHeld c t e && (match (Tape.ofBytes (s.shareBytes c (.wave 0 0) 0)).pop 1 with
    | .refill x => (match s.cullet c (.wave 0 0) 0 x.refillSpan with
      | (none, s1) => (match haveVa (e.got 0) x.refillSpan.1 x.refillSpan.2 with
        | .ok l => k == .lands && (match (x.refill l).pop 1 with | .val _ _ => true | _ => false)
        | .error ps => k == .reads && (ps[(s1.drawIndex ps.length).1]?).isSome)
      | (some _, _) => k == .fails)
    | _ => false)
  | none => false

theorem witness_TapeRefill : refillOk .reads (withCullet (refilling [])) = true
    ∧ refillOk .lands (withCullet (refilling [⟨0, 0x5000, [1] ++ leBytes 4 0x12345678 ++ List.replicate 11 0 ++ leBytes 16 (Tape.header 5 1 false false 0 0)⟩])) = true
    ∧ refillOk .fails (refilling []) = true := by decide +kernel

theorem witness_TapeReturn : ∃ c, Issues (withTape (fun x => { x with recd := true }) (onLanes 1 (issuing (.tret p0)))) (.tret p0) c
    ∧ (tapeOk Tape.recd c && c.lanes != 0 && !c.s0.tracedStream c.crew c.sid && (c.t.thread 0).rlink.toNat % 2 ^ 57 % 8 == 0) = true :=
  issues_of_meets (by decide +kernel)

/-- The hypotheses of the issue of a rendering word. -/
def drawOk (k : Counts) (f : Ctx → Nat → Word) (n : Nat) (src : Ctx → Nat → List Nat) (c : Ctx) : Bool :=
  c.act != 0 && c.t.logn + entryRecords c.word ≤ 8 && c.t.canRaise k && c.ls.all (fun l => (f c l).toNat % n == 0) && !c.lineTaken (fun l => packWords (src c l)) c.ls

def rootOf (b : Opd) (c : Ctx) (l : Nat) : Word := let g := c.groupWords b 4 l; BitVec.ofNat 64 (g.getD 2 0 + g.getD 3 0 * 2 ^ 32)

theorem witness_RenderingWords : ∀ i ∈ [Instr.raygen p0 (.v 16) (.v 2) (.v 4) (.v 5), .trace p0 (.v 32) (.v 24) (.v 8), .traceAdjTri p0 (.v 16) (.v 8) (.v 12),
      .traceAdjPatch p0 (.v 16) (.v 8) (.v 12), .tsamp p0 (.v 32) (.v 2) (.v 4) (.v 6), .tsampAdj p0 (.v 36) (.v 2) (.v 4) (.v 6), .esamp p0 (.v 40) (.v 20) (.v 24) (.v 25)],
    ∃ c, Issues (issuing i) i c ∧ (match i with
      | .raygen _ _ a b e => drawOk ⟨0, 0, 0, 1⟩ (fun c => c.read .n64 a) 64 (fun c l => c.pairWords a l ++ [c.rd .n32 b l, c.rd .n32 e l]) c
      | .trace _ _ a b => drawOk ⟨0, 0, 0, 1⟩ (rootOf b) 64 (fun c l => c.groupWords a 6 l ++ c.groupWords b 4 l) c
      | .traceAdjTri _ a b e | .traceAdjPatch _ a b e => drawOk ⟨0, 1, 0, 0⟩ (rootOf b) 4 (fun c l => c.groupWords a 6 l ++ c.groupWords b 4 l ++ c.groupWords e 4 l) c
      | .tsamp _ _ a b e => drawOk ⟨0, 0, 0, 1⟩ (fun c => c.read .n64 a) 32 (fun c l => c.pairWords a l ++ c.groupWords b 2 l ++ [c.rd .n32 e l]) c
      | .tsampAdj _ d a b e => drawOk ⟨0, 1, 0, 0⟩ (fun c => c.read .n64 a) 32 (fun c l => c.pairWords a l ++ c.groupWords b 2 l ++ [c.rd .n32 e l] ++ c.groupWords d 4 l) c
      | .esamp .. => c.act != 0 && c.t.canRaise ⟨0, 0, 0, 1⟩
      | _ => false) = true :=
  all_meet issuing (fun i => i) (by decide +kernel)

/-- An entry of a word that waits in lane 0. -/
def entryOf (i : Instr) (src : List Word) (k : Counts) : Entry := { olderLoad with word := (encode i).getD 0, src := [src], cnt := k }

def withEntry (e : Entry) : State := withStrand (fun t => { t with log := [e], ld := e.cnt.ld, st := e.cnt.st, tl := e.cnt.tl }) (onLanes 1 (issuing (.nop p0)))

/-- Lane 0 of the entry, as the rendering engines read for it. -/
def laneBy (c : Crew) (e : Entry) : By :=
  { asid := c.asid, secure := c.secure, team := some (c.id, 0), who := c.who (.wave 0 0) 0, src := { src := 0, chan := 0, tmpl := 0, retired := false },
    lane := some (c.id, .wave 0 0, e.inH, 0) }

/-- The hypotheses of RENDER_RESULT, and that its turn is of the kind `k`. -/
def resultOk (k : Turn) (s : State) : Bool := atSlot s fun c t _ => match s.entry? c.id (.wave 0 0) 99 with
  | some e => t.sid == .wave 0 0 && isDrawing (wordOf e.word) && (renderDest (wordOf e.word)).isSome && lanesOf e.undone == [0] && e.sent == 0 && e.faults.isEmpty && t.log == [e] && !(t.thread 0).exited
    && s.samples.isEmpty && !s.lateHeld c t e && match drawLane (e.got 0) (wordOf e.word) 0 (unpackWords (e.srcOf 0)) with
      | .error ps => (match ps[(s.drawIndex ps.length).1]? with
        | some p => (match (s.drawIndex ps.length).2.leafFor (laneBy c e) .load p.1 with
          | (.fail .., _) => k == .fails
          | (.ok f, s) => !s.lineInFlight c t f [0] && k == .reads)
        | none => false)
      | .ok (.regs _) => k == .lands
      | _ => false
  | none => false

/-- RAYGEN of a projection record at 0x8000. -/
def rayEntry : Entry := entryOf (.raygen p0 (.v 16) (.v 2) (.v 4) (.v 5)) [0x8000, 0] ⟨0, 0, 0, 1⟩

/-- ESAMP reads no memory. RAYGEN at an address that nothing maps fails, at a mapped one it reads, and with its record read its results land. -/
theorem witness_RenderResults : resultOk .lands (withEntry (entryOf (.esamp p0 (.v 40) (.v 20) (.v 24) (.v 25)) [0, 0, 0] ⟨0, 0, 0, 1⟩)) = true
    ∧ resultOk .fails (withEntry rayEntry) = true ∧ resultOk .reads (mapped (withEntry rayEntry)) = true
    ∧ groupFault (.v 16) 6 64 = none ∧ (groupFault (.v 62) 6 64).isSome = true
    ∧ resultOk .lands (withEntry { rayEntry with reads := [⟨0, 0x8000, List.replicate 64 0⟩] }) = true := by decide +kernel

/-! ### Witnesses: tiles -/

theorem witness_TileWords : ∀ i ∈ [Instr.tzero p0 true 0 15, .tcvt p0 .rne 0 0 16 0, .tstbEnt p0 0 1 63, .tstbFull p0 0 0 0, .tldbEnt p0 0 0 0, .tldbFull p0 0 0 0, .tbsetThr p0 0 0 0,
      .tbsetHdr p0 0 0 0, .tbsetAll p0 0 0 0, .tsave p0 0 0 0], ∃ c, Issues (issuing i) i c ∧ (c.act != 0 && c.t.canRaise ⟨1, 1, 0, 1⟩ && match c.teamOf 0 with
    | some t => !t.nowOn 0 && !t.nowOn 15 && (t.tile 0).susp.isNone && (t.tile 15).susp.isNone && t.fmtAt 0 != 2 && c.gReg 0 == 0 && c.gReg 63 == 0
    | none => false) = true :=
  all_meet issuing (fun i => i) (by decide +kernel)

/-- A record of FP32 operands (FMT 9) with LEN 32. -/
def rec32 : BitVec 128 := 0x90004000

/-- The team holds that record as its records 0 and 1, each with one step that waits to be claimed. -/
def staged (s : State) : State := s.modTeam 0 0 fun t =>
  { t with recs := listSet (listSet t.recs 0 rec32) 1 rec32, steps := Ctx.newSteps rec32 0 true [0, 0, 0, 0] 50 60 1 0 none ++ Ctx.newSteps rec32 1 true [0, 0, 0, 0] 51 61 1 0 none }

/-- The same with no step. -/
def reserved (s : State) : State := s.modTeam 0 0 fun t => { t with recs := listSet (listSet t.recs 0 rec32) 1 rec32 }

theorem witness_TileStaging :
    (∃ c, Issues ((List.range 32).foldl (fun s l => setV 4 l 0x90004000 s) (issuing (.tres p0 0 (.v 4) (.v 6)))) (.tres p0 0 (.v 4) (.v 6)) c
      ∧ (c.act != 0 && (c.team.any fun t => t.tiles.all (fun x => x.susp.isNone) && recValid (tileCount t.slots) rec32)
        && c.ls.all fun l => rec32 == c.read .n64 (.v 6) l ++ c.read .n64 (.v 4) l) = true)
    ∧ (∀ i ∈ [Instr.tfetch p0 .dev 0 15 0 1, .tlds p0 .th 0 0 1 1], ∃ c, Issues (reserved (issuing i)) i c ∧ (c.act != 0 && c.t.canRaise ⟨0, 0, 0, 1⟩
      && c.s0.released c.crew c.t false c.act none .dev && match c.teamOf 0 with
        | some t => recValid (tileCount t.slots) (t.recs.getD 0 0) && (t.queue 0).length + 1 ≤ 256 && (List.range 64).all (fun g => c.gReg g == 0) && !recBlk rec32
            && (wordLines rec32 [0, 0, 0, 0] [0]).all (fun v => !inBlockAperture (BitVec.ofNat 64 (v * 128)))
            && t.quotaU + t.quotaH + (wordLines rec32 [0, 0, 0, 0] [0]).length ≤ t.quota && (t.queue 0).isEmpty && (t.queue 1).isEmpty
            && (stepSpans rec32 [0, 0, 0, 0] 0).all fun y => y.1 + y.2 ≤ c.crew.padS
        | none => false) = true)
    ∧ ∃ c, Issues (staged (issuing (.tmma p0 0 0 0 1 1 true true true false))) (.tmma p0 0 0 0 1 1 true true true false) c ∧ (c.act != 0 && c.t.canRaise ⟨0, 0, 0, 1⟩
      && match c.teamOf 0 with
        | some t => t.recs.getD 0 0 == rec32 && t.recs.getD 1 0 == rec32 && recValid (tileCount t.slots) rec32 && recsPair rec32 rec32 && 1 ≤ (t.queue 0).length && 1 ≤ (t.queue 1).length
            && !t.nowOn 0 && (t.tile 0).susp.isNone && t.fmtAt 0 != 2
        | none => false) = true :=
  ⟨issues_of_meets (by decide +kernel), all_meet (fun i => reserved (issuing i)) (fun i => i) (by decide +kernel), issues_of_meets (by decide +kernel)⟩

/-- An operation of one step on tile 0 that has begun. -/
def mma1 : Mma := { n := 1, recA := rec32, recB := rec32, lehr := false, bnd := false, depth := 0, colg := 0, wide := false, restarted := false, bound0 := 0, started := true,
                    trapped := true }
def op1 : TileOp := { id := 70, word := (encode (.tmma p0 0 0 0 1 1 false true false false)).getD 0, tile := 0, ga := 0, mma := some mma1, inH := false }

/-- Tile 0 holds it Suspended, with C0. -/
def suspended (s : State) : State := s.modTeam 0 0 fun t => t.modTile 0 fun x => { x with susp := some op1, c0 := true }

/-- A word on a Suspended tile that applies at once; what it stores or loads translates. -/
theorem witness_TileWords_suspended : ∀ i ∈ [Instr.tbsetThr p0 0 0 0, .tbsetAll p0 0 0 0, .tstbEnt p0 0 0 0, .tstbFull p0 0 0 0, .tldbEnt p0 0 0 0, .tldbFull p0 0 0 0, .tbsetHdr p0 0 0 0,
      .tsave p0 0 0 0], ∃ c, Issues (mapped (suspended (issuing i))) i c
    ∧ (wordOf c.word == i && c.act != 0 && c.sid == .gaffer && c.crew.gaffer.isSome && c.t.canRaise ⟨1, 1, 0, 1⟩ && match c.teamOf 0 with
      | some t => !t.nowOn 0 && (t.tile 0).susp == some op1 && op1.mma == some mma1 && t.rank == 0 && t.ops.all (fun o => o.id < c.s0.ids) && decide (0 < t.tiles.length) && c.gReg 0 == 0
          && !c.s0.unitHeld c.crew t { id := c.s0.ids, word := c.word, tile := 0, ga := 0, mma := none, inH := c.inH } && (
            let k : Counts := match i with
              | .tstbEnt .. | .tstbFull .. => ⟨0, 1, 0, 1⟩
              | .tldbEnt .. | .tldbFull .. => ⟨1, 0, 0, 1⟩
              | _ => ⟨0, 0, 0, 1⟩
            let took : State := c.addOp 0 0 0 true c.s0.ids (c.modT { c.s0 with ids := c.s0.ids + 1 } fun q => q.raise k)
            match took.crew? c.id, i with
            | some _, .tstbEnt .. | some _, .tstbFull .. => (match (took.translate c.crew.asid c.crew.secure .store 0).1 with | .ok f => engineOk f | _ => false)
            | some d, .tldbEnt .. | some d, .tldbFull .. | some d, .tbsetHdr .. => isOk (took.loadVa (d.byTile 0 0) 8 16)
            | some d, .tsave .. => (took.team? c.id 0).any fun y => isOk (took.storeVa (d.byTile 0 0) 0 (seqRecord (y.c0Held 0 70) op1 mma1 (y.claimed op1).1 (y.claimed op1).2))
            | some _, _ => true
            | none, _ => false)
      | none => false) = true :=
  all_meet (fun i => mapped (suspended (issuing i))) (fun i => i) (by decide +kernel)

/-- Memory holds its sequencer record at address 0x8000, which Gaffer register 1 names. -/
def withRecord (s : State) : State :=
  withStrand (fun t => { t with g := [(1, 0x8000)] }) ((mapped s).setMem 0x8000 (seqRecord true op1 mma1 (Ctx.newSteps rec32 0 true [0, 0, 0, 0] 0 0 1 0 none)
    (Ctx.newSteps rec32 1 true [0, 0, 0, 0] 0 0 1 0 none)))

theorem witness_TileResume :
    (∀ i ∈ [Instr.tresumeCont p0 false 0 0 0, .tresumeWide p0 false 0 0 0, .tresumeRestart p0 false 0 0 0], ∃ c, Issues (suspended (issuing i)) i c
      ∧ (c.act != 0 && (c.teamOf 0).any fun t => !t.nowOn 0 && t.rank == 0 && decide (0 < t.tiles.length) && !c.s0.aliasOpen c.crew t c.s0.ids 0 && c.t.canRaise ⟨0, 0, 0, 1⟩ && (t.tile 0).susp == some op1 && op1.mma == some mma1 && t.c0Held 0 70) = true)
    ∧ ∀ x ∈ [(Instr.tresumeCont p0 true 0 0 1, Resume.cont), (.tresumeWide p0 true 0 0 1, .wide), (.tresumeRestart p0 true 0 0 1, .restart)],
      ∃ c, Issues (withRecord ((issuing x.1).modTeam 0 0 fun t => t.modTile 0 fun x => { x with c0 := true })) x.1 c
      ∧ (c.act != 0 && (c.gReg 1).toNat % 128 == 0 && c.t.canRaise ⟨0, 0, 0, 1⟩ && match c.teamOf 0, c.s0.loadVa (c.byLane 0) (c.gReg 1).toNat 128 with
        | some t, (.ok l, _) => !t.nowOn 0 && t.rank == 0 && decide (0 < t.tiles.length) && !c.s0.aliasOpen c.crew t c.s0.ids 0 && !Ctx.idleSoon t 0 && !c.t.holdsBack c.inH none (c.gReg 1) && c.crew.teams.all (fun u => u.ops.all fun o => !isTsave (wordOf o.word)) && (match seqOp l 0 c.inH with
          | some (o, m) => seqOk t 0 0 x.2 l o m && t.quotaU + t.quotaH + seqLines l m ≤ t.quota
          | none => false)
        | _, _ => false) = true :=
  ⟨all_meet (fun i => suspended (issuing i)) (fun i => i) (by decide +kernel),
    all_meet (fun x : Instr × Resume => withRecord ((issuing x.1).modTeam 0 0 fun t => t.modTile 0 fun x => { x with c0 := true })) (fun x => x.1) (by decide +kernel)⟩

/-- The team's unit holds an operation of tile 0. -/
def withOp (i : Instr) (m : Option Mma) : State := (issuing (.nop p0)).modTeam 0 0 fun t =>
  { t with ops := [{ op1 with word := (encode i).getD 0, mma := m }],
           steps := [0, 1].flatMap fun r => (Ctx.newSteps rec32 r true [0, 0, 0, 0] 0 (80 + r) 1 0 (some 70)).map fun x => { x with data := some (List.replicate 8192 0) } }

def tileOk (s : State) (P : Team → TileOp → Bool) : Bool := match s.crew? 0, s.team? 0 0 with
  | some c, some t => !c.stopPending 0 (some 0) none && !s.unitBusy c t 0 && t.rank == 0 && c.saving.isNone && (t.tile 0).susp.isNone && 0 < t.tiles.length && (match t.ops.filter fun o => o.tile == 0 with
    | [o] => !s.aliasOpen c t o.id 0 && P t o
    | _ => false)
  | _, _ => false

theorem witness_TileSteps :
    (∀ i ∈ [Instr.tzero p0 true 0 0, .tbsetThr p0 0 0 0, .tbsetAll p0 0 0 0], tileOk (withOp i none) (fun _ o => decode o.word == some i && o.mma.isNone) = true)
    ∧ (∀ k ∈ [0, 3], tileOk (withOp (.tmma p0 0 0 0 1 1 false true false false) (some { mma1 with colg := k })) (fun t o => (o.mma.any fun m => m.started && !m.reread && !m.bnd && m.depth < m.n && m.colg < 4)
      && ((t.claimed o).1[0]?.any fun a => a.data.isSome && !a.bad) && ((t.claimed o).2[0]?.any fun a => a.data.isSome && !a.bad)) = true)
    ∧ tileOk (withOp (.tmma p0 0 0 0 1 1 false true false false) (some { mma1 with depth := 1 })) (fun _ o => o.mma.any fun m => m.started && m.n ≤ m.depth) = true := by
  decide +kernel

/-! ### Witnesses: ring rotation -/

/-- A second team like the first. -/
def twoTeams (s : State) : State := s.modCrew 0 fun c => { c with teams := c.teams ++ c.teams.map fun t => { t with rank := 1, waves := t.waves.map fun w => { w with sid := .wave 1 0 } } }

/-- The path waits with its first arrival. -/
def arrived (s : State) : State := match s.slot with
  | some g => (withStrand (fun t => { t with rrotK := 1 }) s).modPath g.crew g.sid g.path fun p => { p with wait := .rrot 0 }
  | none => s

def rrot0 : Instr := .rrot p0 true (.k 0) (.k 32) 1

/-- The hypotheses of a match of n teams. -/
def matchOk (n : Nat) (s : State) : Bool := match s.crew? 0 with
  | some k =>
    let rs := k.teams.filterMap fun t => s.rotOf k t 0
    k.running && k.teams.map Team.rank == List.range n && rs.length == n && k.teams.all (fun t => 0 < t.arrivals)
      && (k.sids.filterMap k.strand?).all (fun u => u.paths.all fun q => q.wait == .none || q.clause.isSome)
      && rs.all fun r => r.c.act != 0 && (r.own false).isNone && r.n == 64 && r.bwd && r.c.t.canRaise ⟨0, 0, 1, 0⟩
  | none => false

/-- An arrival in a crew of two teams; the match as the word issues in a crew of one; and the matches of one and of two teams that have arrived. -/
theorem witness_RingRotation : (∃ c, Issues (twoTeams (issuing rrot0)) rrot0 c ∧ (c.crew.teams.length != 1) = true)
    ∧ (∃ c, Issues (issuing rrot0) rrot0 c ∧ (wordOf c.word == rrot0 && c.sid == .wave 0 0 && c.path.wait == .none && c.act != 0 && c.t.canRaise ⟨0, 0, 1, 0⟩
      && (match c.crew.teams with
        | [t] => t.rank == 0 && !t.padLost 0 64
        | _ => false)
      && (c.crew.sids.filterMap c.crew.strand?).all (fun u => u.paths.all fun q => (q.wait == .none || q.clause.isSome) && match q.wait with | .rrot _ => false | _ => true)
      && c.ls.all (fun l => c.rd .n32 (.k 0) l == 0 && c.rd .n32 (.k 32) l == 32) && 32 + 64 ≤ c.crew.padS) = true)
    ∧ matchOk 1 (arrived (issuing rrot0)) = true ∧ matchOk 2 (twoTeams (arrived (issuing rrot0))) = true :=
  ⟨issues_of_meets (by decide +kernel), issues_of_meets (by decide +kernel), by decide +kernel, by decide +kernel⟩

/-! ### Witnesses: issue slots -/

/-- The slot is free, and the part is up; a clause of one word is in progress. -/
def idle (s : State) : State := { s with slot := none, up := true }

/-- The only stream of a place, inside a clause with nothing to keep it. -/
def slotOk (s : State) (sid : Sid) (P : State → Crew → Strand → Path → Bool) : Bool := match s.crew? 0, s.strand? 0 sid with
  | some c, some t => (match t.paths with
    | [p] => p.clause.any (fun k => k.pos < k.words.length) && p.wait == .none && p.lanes != 0 && p.frozen.isNone && t.intr.isNone && t.pend.isEmpty && c.running && !s.stalled 0 sid 0 && !s.limited && P s c t p
    | _ => false)
  | _, _ => false

theorem witness_IssueSlots :
    slotOk ((idle (issuing (.nop p0))).pass 0 0) (.wave 0 0) (fun s c t p => s.quadrant 0 0 0 0 == [(c, .wave 0 0, t)] && !p.lone && s.slotFree 0 (0, 0, 0)) = true
    ∧ slotOk ((idle ((issuing (.nop p0)).modPath 0 (.wave 0 0) 0 fun p => { p with lone := true })).pass 0 1) (.wave 0 0) (fun s c t p =>
        s.quadrant 0 0 0 0 == [(c, .wave 0 0, t)] && p.lone && s.slotFree 0 (0, 0, 4) && s.clk 0 % 2 == 1 && c.desc.prog && t.intr.isNone) = true
    ∧ slotOk ((idle (issuing (.tzero p0 false 0 0))).pass 0 0) .gaffer (fun s c t p => s.contexts 0 0 == [(c, .gaffer, t)] && !p.lone && s.slotFree 0 (0, 4, 0)) = true
    ∧ slotOk ((idle (issuing (.nop p0))).modPath 0 (.wave 0 0) 0 fun p => { p with starve := 65536 * 1024 + 1, clause := none, at_ := none }) (.wave 0 0) (fun _ _ _ _ => true) = false
    ∧ (idle (issuing (.nop p0))).ticks 0 0 = 0 ∧ (idle (issuing (.tzero p0 false 0 0))).ticks 0 0 = 0
    ∧ (idle ((issuing (.nop p0)).modPath 0 (.wave 0 0) 0 fun p => { p with lone := true })).ticks 0 1 = 1
    ∧ atSlot ((issuing (.nop p0)).modPath 0 (.wave 0 0) 0 fun p => { p with starve := 65536 * 1024 + 1, clause := none }) (fun c t p => c.running && t.intr.isNone
        && t.paths.filter (t.expired c.desc.limit) == [p] && p.lanes.getLsbD 31 && t.pend.isEmpty && t.log.isEmpty && t.paths.all fun q => !q.midClause) = true := by
  decide +kernel

/-! ### Witnesses: messages -/

def ld0 : Instr := .ld p0 .n32 (.sized .nat) (.v 8) (.v 2) 0 0
def st0 : Instr := .st p0 .n32 (.sized .nat) false (.v 8) (.v 2) 0 0
def atom0 : Instr := .atom p0 .n32 .add (.v 8) (.v 2) (.v 4)
def acas0 : Instr := .acas p0 .n32 (.v 8) (.v 2) (.v 4) (.v 5)
def lds0 : Instr := .lds p0 .n32 .nat (.v 8) (.v 2) 0

/-- An entry whose one lane names address 0x5000. -/
def memEntry (i : Instr) : Entry := entryOf i [0x5000, 5, 0] ⟨1, 1, 0, 0⟩

def sendHyp (s : State) (i : Instr) (P : Walk → State → Bool) : Bool := match s.crew? 0, s.strand? 0 (.wave 0 0), s.entry? 0 (.wave 0 0) 99 with
  | some c, some t, some e => c.id == 0 && t.sid == .wave 0 0 && e.id == 99 && lanesOf e.undone == [0] && s.sendOk c t e 0 && decide (s.inWindow (corePort (c.coreOf (.wave 0 0))) < 8)
      && decode e.word == some i && (memKind i).isSome && memKind i != some .flush && memKind i != some .flushAll && !isPadWord i && !inBlockAperture (e.ea 0)
      && (match s.translate c.asid c.secure (accessOf i) (e.ea 0) with | (w, s1) => P w s1)
  | _, _, _ => false

/-- A message of one lane from the entry, on its way to a point. -/
def msg1 (i : Instr) (k : MsgKind) (p : Point) (x : Act) (ph : Phase) : Msg :=
  { id := 7, crew := 0, sid := .wave 0 0, entry := 99, kind := k, word := (encode i).getD 0, point := p, line := 0xA0, leaf := ⟨0x5000, 1, false, false, false, true, false⟩,
    acts := [x], phase := ph, tag := 0, bad := false, held := false, sys := false, core := ⟨0, 0, 0⟩, secure := false, asid := 0,
    who := ⟨0, false, false, false, 0, 0, 0, 0⟩ }

def act4 (b c : Word) : Act := { lane := 0, key := 0x5000, size := 4, b := b, c := c }

def withMsg (i : Instr) (m : Msg) : State := { withEntry (memEntry i) with msgs := [m] }

theorem unwatched_of_reset {s : State} (h : s.dies = State.reset.dies) : s.unwatched := by
  intro d wr parts
  have hw : (s.die d).watch = List.replicate 8 (0, 0) := by
    unfold State.die
    rw [h]
    obtain hd | hd : d < 4 ∨ 4 ≤ d := by omega
    · interval_cases d <;> rfl
    · simp [State.reset, List.getD, hd, Die.reset]
  have none_ : watchHit (0, 0) wr = fun _ => none := by funext q; cases wr <;> simp [watchHit, wbit]
  unfold State.watched
  rw [hw, List.filterMap_eq_nil_iff]
  intro x hx
  obtain rfl := List.eq_of_mem_replicate hx
  rw [none_]
  simp [minBy]

/-- SEND of a load, a store and a contribution that translate or do not; READ of a load at each point. -/
theorem witness_SendAndRead :
    (∀ i ∈ [ld0, st0, atom0, acas0], sendHyp (mapped (withEntry (memEntry i))) i (fun w s1 => match w with
      | .ok f => placeTakes i f 0x5000 && s1.msgs.isEmpty
      | _ => false) = true)
    ∧ sendHyp (withEntry (memEntry ld0)) ld0 (fun w _ => match w with | .fail .. => !isFlushWord ld0 | _ => false) = true
    ∧ (∀ p ∈ [Point.slice 3 47, .mslice 0 0, .lpddr 1, .aperture 2], (let m := msg1 ld0 .load p (act4 0 0) .out
      let s := withMsg ld0 m
      s.msg? 7 = some m ∧ m.id = 7 ∧ m.held = false ∧ m.phase = .out ∧ m.kind = .load ∧ s.pcieBlocked m = false ∧ s.reachable m.point = true ∧ m.leaf.roc = false
        ∧ s.samples = [] ∧ s.dies = State.reset.dies ∧ m.line ∉ s.lost ∧ m.line ∈ { s with lost := [0xA0] }.lost))
    ∧ (let m := msg1 lds0 .load (.pad 0 0) { act4 0 0 with key := 0xFFC } .out
      let s := withMsg lds0 m
      s.msg? 7 = some m ∧ m.held = false ∧ m.phase = .out ∧ m.kind = .load ∧ s.padBlocked m = false ∧ (s.team? 0 0).isSome = true ∧ s.pcieBlocked m = false
        ∧ s.reachable m.point = true ∧ m.leaf.roc = false ∧ s.samples = [] ∧ s.dies = State.reset.dies) := by
  decide +kernel

/-- The state whose one message is at its home. -/
def atHome (i : Instr) (k : MsgKind) (p : Point) (x : Act) : State := withMsg i (msg1 i k p x .out)

theorem witness_ChangeAndAccept :
    (∀ x ∈ [(st0, MsgKind.store, Point.slice 0 1), (atom0, .atom, .mslice 2 3), (acas0, .acas, .lpddr 3)], (let s := atHome x.1 x.2.1 x.2.2 (act4 5 6)
      ∃ m, s.msg? 7 = some m ∧ m.held = false ∧ m.phase = .out ∧ m.acts = [act4 5 6] ∧ m.point = x.2.2 ∧ m.kind = x.2.1 ∧ decode m.word = some x.1 ∧ s.samples = []
        ∧ s.slotWords m.line = [] ∧ Memory.wf s.mem ∧ m.line ∉ s.lost ∧ s.dies = State.reset.dies))
    ∧ ∀ l ∈ [[], [Scatter.fresh 0x5000]], (let i := Instr.gsadd p0 (.v 2) (.v 4)
      let s := { atHome i .gsadd (.slice (paDie 0x5000) (paSlice 0x5000)) (act4 0x3F800000 0) with scatter := l }
      ∃ m, s.msg? 7 = some m ∧ m.held = false ∧ m.phase = .out ∧ m.kind = .gsadd ∧ (m.acts.find? fun a => a.size ≠ 0) = some (act4 0x3F800000 0)
        ∧ ((s.scatter.any fun y => y.word == 0x5000) = true ∨ (s.slotsOf (paDie (keyPa 0x5000)) (paSlice (keyPa 0x5000))).length < Config.scatterSlots)) := by
  refine ⟨?_, ?_⟩
  · intro x hx
    simp only [List.mem_cons, List.not_mem_nil, or_false] at hx
    obtain rfl | rfl | rfl := hx <;> exact ⟨_, rfl, by decide +kernel⟩
  · intro l hl
    simp only [List.mem_cons, List.not_mem_nil, or_false] at hl
    obtain rfl | rfl := hl <;> exact ⟨_, rfl, by decide +kernel⟩

theorem witness_HitAndDeliver : ∀ ph ∈ [Phase.out, .back], (let m := msg1 ld0 .load (.mslice 0 0) { act4 0x12345678 0 with key := 0x507C } ph
    let y : L1Entry := { line := 0xA0, tag := 0, secure := false, asid := 0, sectors := 8, data := List.replicate 128 0, spec := 0 }
    let s := { withMsg ld0 m with l1 := [(⟨0, 0, 0⟩, [y])] }
    s.msg? 7 = some m ∧ m.held = false ∧ m.bad = false ∧ s.resultsHeld m = false ∧ (s.crew? 0).isSome = true ∧ (s.strand? 0 (.wave 0 0)).isSome = true
      ∧ ((s.entry? 0 (.wave 0 0) 99).any fun e => e.undone.getLsbD 0 && decode e.word == some ld0 && e.word == m.word) = true
      ∧ ((s.strand? 0 (.wave 0 0)).any fun t => !(t.thread 0).exited) = true ∧ s.samples = []
      ∧ s.l1Entry m.core m.line m.secure m.asid = some y ∧ y.sectors &&& sectorsOf 0x507C 4 = sectorsOf 0x507C 4
      ∧ ((s.entry? 0 (.wave 0 0) 99).any fun e => !e.faultLanes.getLsbD 0) = true) := by
  decide +kernel

/-- Line 0 translates and may fill; a load of the clause in progress names its first sector. -/
theorem witness_LineMoves : ∀ sec ∈ [(1 : BitVec 4), 15], (let s := mapped (issuing ld0)
    match s.translate 0 false .load 0 with
    | (.ok f, s1) => s1.fillOk (coreAt 0) f false 0 sec && (sec == 15 || sec &&& ~~~(s.speculable (coreAt 0) 0 false 0) == 0)
    | _ => false) = true := by
  decide +kernel


/-! ### Witnesses: engines -/

/-- Lane 0's offer to channel 3. -/
def offer0 (sid : Sid) (data : Word) : Offer :=
  { crew := 0, sid := sid, path := 0, lane := 0, chan := 3, data := data, word := (encode stAp).getD 0, settled := false, refused := false, entry := none }

/-- The template table of ASID 0 at 0x10000: template 0 copies 8 FP32 elements of the tensor at 0x6000 to the scratchpad; collective template 0 adds the words
at 0x6000 over group 0, whose table stands at 0x4000. -/
def withTemplates (s : State) : State :=
  let s := (mapped s).setMem 8 (leBytes 8 0x10000)
  let s := s.setMem 0x10000 (leBytes 8 0x1000 ++ leBytes 8 0x6000 ++ leBytes 8 0 ++ leBytes 8 8)
  let s := s.setMem 0x6000 (leBytes 8 0x7000 ++ leBytes 8 0x29 ++ leBytes 4 8 ++ leBytes 4 1 ++ leBytes 4 1 ++ leBytes 4 1 ++ leBytes 4 1)
  let s := (s.setMem 0x90000 (leBytes 8 0x10 ++ leBytes 8 0x6000 ++ leBytes 8 0x6000 ++ leBytes 8 2)).setMem 0x4000 [0, 0x80, 1, 0x80]
  let s := { s with past := [] }
  (s.modDie 0 fun d => { d with groups := [(0, 0x8000000000000001, 0x4000)] }).modDie 1 fun d => { d with groups := [(0, 0x8000000000000101, 0x4000)] }

def offered (o : Offer) : State := { withTemplates (issuing (.nop p0)) with offers := [o] }

def copyHyp (o : Offer) (P : Crew → Strand → State → List Byte → State → Bool) : Bool :=
  let s := offered o
  match s.crew? 0, s.strand? 0 o.sid with
  | some c, some t => (s.offers.find? fun x => x.crew == c.id && x.sid == o.sid && x.lane == o.lane && !x.settled) == some o
      && s.offers.all (fun x => decide (o.lane ≤ x.lane)) && (s.chanCmds c.die c.cluster o.chan).length < 8 && o.entry.isNone && t.canRaise ⟨0, 0, 1, 0⟩
      && s.offerFree c t o && (s.asidEntry c.asid).tt != 0 && !wordRefused o
      && (match s.loadVa (s.byCmd (baseCmd c o .copy [])) ((s.asidEntry c.asid).tt + 128 * dwTmpl o.data + if dwColl o.data then 0x80000 else 0) 128 with
        | (.ok l, s1) => P c t s l s1
        | _ => false)
  | _, _ => false

def cmd0 (kind : CmdKind) (writes : List EngWrite) : Cmd :=
  { id := 50, kind := kind, crew := 0, sid := .wave 0 0, die := 0, cluster := 0, chan := 3, lane := 0, entry := 99, data := 0, tmpl := [], secure := false, asid := 0,
    cores := [(0, 0)], reads := [], got := [], dests := [], planned := true, writes := writes, ecode := 0, flags := 0, done := false, seq := 0,
    who := ⟨0, false, false, false, 0, 0, 0, 0⟩ }

def oneByte : EngWrite := { rank := some 0, cells := [(0xFFF, 0x0F, 0xAB)] }

theorem witness_CopyCommands :
    copyHyp (offer0 (.wave 0 0) 0x8000) (fun c t _ l s1 => dwColl 0x8000 && Coll.ok l && (match s1.group c.die (Coll.ofBytes l).group with
        | some (_, ms) => (Coll.ofBytes l).root < ms.length
        | none => false) && s1.acqReady c t 0 (Coll.ofBytes l).acq (Coll.ofBytes l).scope) = true
    ∧ (∀ sid ∈ [Sid.wave 0 0, .gaffer], copyHyp (offer0 sid 0) (fun c t s l s1 =>
        let tm := Tmpl.ofBytes l
        match copyDests c sid tm with
        | some dests => !dwColl 0 && Tmpl.ok l c.padS && !dwAsrc 0 && !dwArr 0 && !tm.tben && s1.acqReady c t 0 tm.acq tm.scope && farOf ((if tm.route = 1 then [] else [tm.src]) ++ (if tm.route = 0 || tm.kind = 2 then [] else [tm.dst])) == none && (
          let k0 : Cmd := { baseCmd c (offer0 sid 0) .copy l with dests := dests }
          match s1.readHdr (s1.byCmd k0) (tm.route ≠ 1) tm.src with
          | (.inl a, s2) => (match s2.readHdr (s1.byCmd k0) (tm.route ≠ 0 && tm.kind ≠ 2) tm.dst with
            | (.inl d, s3) => (match ({ k0 with tmpl := l ++ a ++ d } : Cmd).plan c.padS with
              | .inr pl => pl.reads none != [] && farOf (pl.named tm ({ k0 with tmpl := l ++ a ++ d } : Cmd).dstHdr) == none && tm.kind == 0 && tm.route == 0 && (s3.pinRegion k0 tm).isSome
              | _ => false)
            | _ => false)
          | _ => false)
        | none => false) = true)
    ∧ (let s := { issuing (.nop p0) with cmds := [cmd0 .copy [oneByte]] }
      s.cmd? 50 = some (cmd0 .copy [oneByte]) ∧ (cmd0 .copy [oneByte]).done = false ∧ (cmd0 .copy [oneByte]).template.tben = false ∧ (s.team? 0 0).isSome = true)
    ∧ (let s := { issuing (.nop p0) with cmds := [cmd0 .coll [oneByte]] }
      s.cmd? 50 = some (cmd0 .coll [oneByte]))
    ∧ (∀ x ∈ [(0x80, []), (0, [oneByte])], (let k : Cmd := { cmd0 .copy x.2 with tmpl := leBytes 8 x.1 }
      let s := { withEntry (entryOf stAp [0, 0, 0] ⟨0, 0, 1, 0⟩) with cmds := [k] }
      s.cmd? 50 = some k ∧ k.planned = true ∧ k.reads = [] ∧ (k.rel = true → k.writes = []) ∧ k.rel = decide (x.1 = 0x80) ∧ (s.sendWrites k).cmd? 50 = some k
        ∧ k.template.tben = false ∧ ((s.entry? 0 (.wave 0 0) 99).any fun e => e.undone == 1) = true)) := by
  decide +kernel

/-- A collective command of a die: it adds the two words at 0x6000 over group 0, and has read its source. -/
def collCmd (die : Nat) : Cmd :=
  { cmd0 .coll [] with
    id := 50 + die, die := die, planned := false, members := [some 0, some 1],
    tmpl := leBytes 8 0x10 ++ leBytes 8 0x6000 ++ leBytes 8 0x6000 ++ leBytes 8 2 ++ List.replicate 96 0, got := (List.range 8).map fun i => (none, ⟨0x6000 + i, 1⟩) }

theorem witness_Collectives :
    let s := { withTemplates (issuing (.nop p0)) with cmds := [collCmd 0, collCmd 1] }
    s.cmd? 50 = some (collCmd 0) ∧ { s with cmds := [collCmd 0] }.allIssued (collCmd 0) = false ∧ (collCmd 0).members = [0, 1].map some ∧ (collCmd 0).peers = []
      ∧ (∀ d ∈ [0, 1], (s.cmds.find? fun x => x.kind == .coll && x.die == d && x.seq == 0 && (Coll.ofBytes x.tmpl).group == 0) = some (collCmd d)
        ∧ (collCmd d).agrees = (collCmd 0).agrees ∧ (collCmd d).partial_ = false ∧ (collCmd d).members = [0, 1].map some ∧ (collCmd d).reads = [] ∧ (collCmd d).planned = false
        ∧ (collCmd d).die ∈ [0, 1]) := by
  decide +kernel

/-! ### Witnesses: crews -/

/-- Task queue 0 holds one record, whose descriptor at 0x9000 asks for a crew of one team of 32 threads with 8 registers each. -/
def queued : State :=
  let s := { mapped State.reset with up := true, queues := [(0, { Queue.reset with en := true, log2n := 2, base := 0x8000, tail := 1 })] }
  (s.setMem 0x8000 (leBytes 8 0x9000)).setMem 0x9000 (leBytes 8 0x1000 ++ List.replicate 24 0 ++ leBytes 8 0x10020 ++ leBytes 8 8)

def place0 : Pick := { cores := [3], slots := [[31]], base0 := [0x5FC00], base3 := [0], accs := [0], gctx := 0 }

theorem witness_CrewPlacement : (match queued.offers_ (sortBy id (dedup (queued.queues.map Prod.fst ++ queued.saved.map Saved.queue))) with
    | ([(q, .start w r d)], s1) => queued.up && q == 0 && s1.holds.isEmpty && w.queue == q && fits (s1.residents 3 41) w && pickOk (s1.residents 3 41) w place0
        && (s1.queue q).kind == false && r.length == 32 && d.length == 256
    | _ => false) = true := by
  decide +kernel

/-- A small crew that `f` changes: 8 registers a thread, 256 bytes of scratchpad, no tiles, no producer and no context; its wave stands at a header. -/
def small (f : Crew → Crew) : State :=
  let c := installCrew 0 .m 0
  mappedCp 2 { State.reset with
    ids := 1, dies := State.reset.dies.map fun d => { d with clk := 2 ^ 30 }, queues := [(0, { Queue.reset with savebase := 0x10000, savecount := 1, stride := 0x8000 })],
    crews := [f { c with desc := { c.desc with w0lim := 8, w1cnt := 0, scratch := 256, tape := 0 }, gaffer := none, teams := c.teams.map fun t =>
      { t with slots := 0, tiles := [], recs := [], producer := none, waves := t.waves.map fun w => { w with paths := [entryPath 0xFFFFFFFF 0x1000] } } }] }

def isSave (s : State) (v : Saving) : Bool := match s.crew? 0 with
  | some c => c.saving == some v && s.saveReady c && !decide (c.desc.limit < s.clk c.die - v.since) && (match (s.saveBegun c).crew? c.id with
    | some d => d.fitsSlot ((s.saveBegun c).queue d.queue) && (storeAll d.by ((s.saveBegun c).saveParts d v) (s.saveBegun c)).isSome
    | none => false)
  | none => false

/-- A save is under way of a crew so small that it has no waves. -/
def saved (r : Nat) (c : Crew) : Crew :=
  { c with saving := some { reason := r, slot := 0, since := 2 ^ 30 }, desc := { c.desc with team := 0, hentry := 0, w3lim := 0 }, teams := c.teams.map fun t => { t with waves := [] } }

/-- Every team has exited. -/
def leftAll (join : Word) (c : Crew) : Crew :=
  { c with join := join, teams := c.teams.map fun t => { t with exited := true, waves := t.waves.map fun w => { w with paths := [] } } }

/-- The join block at 0x6000 has a count; its queue 0 takes records of ASID 0, or is full. -/
def joining (count taken : Nat) : State :=
  let s := (small fun c => { leftAll 0x6000 c with exiting := true }).setMem 0x6000 (leBytes 4 count)
  { s with queues := [(0, { Queue.reset with en := true, kind := true, log2n := 1, base := 0x8000, tail := BitVec.ofNat 32 taken })] }

set_option maxRecDepth 20000 in
theorem witness_CrewSave : isSave (small (saved 2)) { reason := 2, slot := 0, since := 2 ^ 30 } = true := by
  decide +kernel

theorem witness_CrewMoves :
    (let s := small fun c => { c with saving := some { reason := 1, slot := 0, since := 0 } }
      ∃ c ∈ s.crews, s.crew? 0 = some c ∧ c.id = 0 ∧ c.desc.limit < s.clk c.die - 0 ∧ c.exiting = false ∧ 0 ∈ c.cores)
    ∧ (let s := small (leftAll 0); ∃ c ∈ s.crews, s.crew? 0 = some c ∧ s.exitReady c = true ∧ c.exitReleased = true ∧ c.exiting = false ∧ c.join = 0)
    ∧ (∀ x ∈ [(2, 0, true), (1, 1, true), (1, 2, false)], (match (joining x.1 x.2.1).crew? 0 with
      | some c => c.exiting && c.exitReleased && c.join != 0 && ((joining x.1 x.2.1).replay? 0 none 0).isNone && (joining x.1 x.2.1).inWindow (corePort (c.coreOf .gaffer)) < 8 && c.join.toNat % 64 == 0 && (match (joining x.1 x.2.1).joinBlock c.by c.die c.join.toNat with
        | .done _ => x.2.2
        | .refused _ => !x.2.2
        | _ => false)
      | none => false) = true)
    ∧ (let s := small fun c => { c with teams := c.teams ++ c.teams.map fun t => { t with rank := 1 } }
      ∃ c ∈ s.crews, s.crew? 0 = some c ∧ 2 ≤ c.teams.length ∧ 4096 ≤ s.clk c.die - c.marked) := by
  decide +kernel

/-! ### Witnesses: the host, links, boot -/

/-- The part is up and PCIe link 0 has trained. -/
def linked (s : State) : State := { s with up := true, links := [{ up := true, gen := 7, width := 16 }, { up := false, gen := 0, width := 0 }] }

/-- ASID 0 is valid; queue 5 belongs to virtual function 3, and has a good base or none. -/
def ownedQueue (base : Word) : State :=
  linked { mapped State.reset with qowner := [(5, 3)], queues := [(5, { Queue.reset with base := base, savecount := 1, tail := 1, log2n := 20 })],
                                   saved := [{ queue := 5, slot := 0, ready := false, posted := true, crew := installCrew 0 .m 0, fetches := [] }] }

/-- The hypotheses of the writes to the block of queue 5; `good` says whether its binding is. -/
def queueOk (good : Bool) (s : State) : Bool :=
  let x := s.queue 5
  let a := s.asidEntry x.asid
  s.hostIn && s.queueOf ⟨3, false⟩ 0 == some 5 && s.queueOf ⟨0, true⟩ 4095 == some 4095 && (a.v && a.sworld == x.world && x.base != 0 && x.base.toNat % 64 == 0 && x.log2n.toNat ≤ 20) == good
    && !s.resumable 5 1 && s.saved.any fun y => y.queue == 5 && y.slot == 0 && decide (0 < x.savecount.toNat)

theorem witness_QueueControl : queueOk true (ownedQueue 0x8000) = true ∧ queueOk false (ownedQueue 0) = true := by decide +kernel

theorem witness_HostMoves :
    let r : HostRec := { secure := true, fault := true, w := [1, 2, 3, 4, 5, 6, 7, 8], queue := 0, slot := 0 }
    let x : Snap := { die := 3, seq := 9, tag := 7, who := ⟨0, false, false, false, 0, 0, 0, 0⟩ }
    let s := linked { issuing (.nop p0) with invals := [0xFFFF], snaps := [x], posts := [r], rings := State.reset.rings.map fun q => { q with rctl := 1 } }
    s.hostIn = true ∧ s.counterHidden 3 (0x1000 + 64 * 47 + 0x38) = false ∧ s.queueOf ⟨0, false⟩ 4095 = some 4095 ∧ (0xFFFF : BitVec 16) ∈ s.invals ∧ counterAssigned (0x1000 + 64 * 47 + 0x38) = true ∧ counterAssigned (0x8000 + 8 * 199) = true
      ∧ s.shielded ⟨0, false⟩ 3 167 = false ∧ minBy Snap.seq (s.snaps.filter fun y => y.die == 3) = some x
      ∧ s.posts.find? (s.postable true) = some r ∧ s.ringTakes (ringIndex true true) = true ∧ ringIndex true true < s.rings.length
      ∧ ∃ c ∈ s.crews, c.die = 0 ∧ c.cluster < 42 ∧ c.secure = false := by
  decide +kernel

/-- A copy whose source stands behind the window of peer 255, at virtual address 2^30. -/
def peerCopy : Cmd :=
  { cmd0 .copy [] with planned := false, tmpl := (leBytes 8 0x1000 ++ leBytes 8 0x6000 ++ leBytes 8 0 ++ leBytes 8 8 ++ List.replicate 96 0)
      ++ (leBytes 8 (2 ^ 30) ++ leBytes 8 0x29 ++ leBytes 4 8 ++ leBytes 4 1 ++ leBytes 4 1 ++ leBytes 4 1 ++ leBytes 4 1 ++ List.replicate 92 0) }

/-- A message with another behind it that goes to the same receiver: dropped, sent again, and waiting; links and completions. -/
theorem witness_LinkMoves :
    (∀ port ∈ [128, 192, 199], (let m := msg1 ld0 .load (.mslice 0 0) (act4 0 0) .out
      let o := { m with id := 9 }
      let s := { withMsg ld0 m with msgs := [m, o] }
      s.msg? 7 = some m ∧ (s.msgs.map Msg.id).Nodup ∧ s.arrivesAt m port = [0] ∧ m.held = false ∧ m.accepted = false ∧ m.phase ≠ .posted
        ∧ o ∈ s.window m.sender ∧ m.id < o.id ∧ o.held = false ∧ m.sameReceiver o = true))
    ∧ (∀ due ∈ [0, 1], (let m := { msg1 ld0 .load (.mslice 0 0) (act4 0 0) .out with held := true, tries := 1, due := due }
      let o := { m with id := 9 }
      let s := { withMsg ld0 m with msgs := [m, o] }
      (s.window m.sender).filter Msg.held = [m, o] ∧ m.id < o.id ∧ o.sameReceiver m = true ∧ s.replays = [] ∧ (due = 0 → m.due ≤ s.clk (portDie m)) ∧ (due = 1 → s.clk (portDie m) < m.due)))
    ∧ (let k := { collCmd 0 with members := [some 0, none], peers := [255] }
      let s := { State.reset with cmds := [k] }
      k ∈ s.cmds ∧ k.kind = .coll ∧ k.planned = false ∧ (∀ x ∈ s.cmds, x.done = false) ∧ 255 ∈ k.peers)
    ∧ (let s := { (mapped State.reset).setMem 0x3008 (leBytes 8 (0xD * 2 ^ 48 + 0xFF * 2 ^ 40 + 0x20F)) with cmds := [peerCopy] }
      peerCopy ∈ s.cmds ∧ peerCopy.kind = .copy ∧ peerCopy.planned = false ∧ (∀ x ∈ s.cmds, x.done = false) ∧ s.namesPeer peerCopy 255 = true)
    ∧ (let s := linked State.reset; s.up = true ∧ 1 < s.links.length ∧ s.links[0]? = some { up := true, gen := 7, width := 16 })
    ∧ ∀ ph ∈ [Phase.out, .back], (let m := msg1 ld0 .load .pcie { act4 0 0 with key := pcieKey + 0x5000 } ph
      let s := withMsg ld0 m
      s.msg? 7 = some m ∧ m.point = .pcie ∧ m.held = false ∧ m.kind = .load ∧ (s.strand? 0 (.wave 0 0)).isSome = true
        ∧ ((s.entry? 0 (.wave 0 0) 99).any fun e => e.undone.getLsbD 0 && e.faults.isEmpty) = true) := by
  decide +kernel

theorem witness_BootAndPower : State.reset.up = false ∧ (linked State.reset).hostIn = true := by decide +kernel

/-! ### Witnesses: the machine as a whole -/

theorem witness_StepRunsDecoded :
    (match (issuing (.iadd p0 .i32 true (.v 63) (.v 0) (.k 127))).ctx? p0 with
      | some c => decode c.word == some (.iadd p0 .i32 true (.v 63) (.v 0) (.k 127))
      | none => false) = true
    ∧ (let s := { State.reset with agenda := [.issueSlot 0 0 0 0 1, .thermalTrip] }
      s.slot = none ∧ s.agenda = .issueSlot 0 0 0 0 1 :: [.thermalTrip] ∧ (Instr.issueSlot 0 0 0 0 1).isWord = false)
    ∧ State.reset.slot = none ∧ State.reset.agenda = [] := by
  decide +kernel

/-- A word of a wave outside a handler, of a handler path, and of a state whose register space lists nothing. -/
theorem witness_VectorRegisters : (∃ c, Issues (issuing (.nop p0)) (.nop p0) c ∧ (c.team.isSome && !c.isG && !c.isP && !c.inH && !c.aliased 63 && !c.aliased 64) = true)
    ∧ (∃ c, Issues (handling (raised 3 0 1) (issuing (.nop p0))) (.nop p0) c ∧ (c.team.isSome && !c.isG && !c.isP && c.inH) = true)
    ∧ ∀ k, sparseWf 0 ((assocGet (issuing (.nop p0)).regs k).getD []) = true :=
  ⟨issues_of_meets (by decide +kernel), issues_of_meets (by decide +kernel), fun _ => rfl⟩

theorem witness_PredicatesAndGRegisters : (∃ c, Issues (issuing (.nop p0)) (.nop p0) c ∧ (!c.isP && decide (31 < c.t.threads.length) && c.s0.strand? c.id c.sid == some c.t) = true)
    ∧ ∃ c, Issues (issuing (.tzero p0 true 0 0)) (.tzero p0 true 0 0) c ∧ (c.isG && c.s0.strand? c.id c.sid == some c.t) = true :=
  ⟨issues_of_meets (by decide +kernel), issues_of_meets (by decide +kernel)⟩

theorem witness_DecodeEncode : (Instr.acas ⟨3, true, 5⟩ .n64 (.v 254) (.v 2) (.v 4) (.v 6)).wellFormed = true
    ∧ decode 0x0100F00000000003 = some (.bra p0 false 3) := by
  decide +kernel

theorem witness_MemoryFormKept : Memory.wf (mapped State.reset).mem ∧ step (mapped State.reset) = .next (mapped State.reset) := ⟨by decide +kernel, rfl⟩

/-! ### Results of one step, by hand from the rules -/

/-- Register n of lane 0 after a step. -/
def after (n : Nat) (s : State) : Option (BitVec 32) := match step s with
  | .next u => some (u.regWord ⟨0, 0, 0⟩ (vAddr 0 64 0 n 0))
  | _ => none

/-- One step of a word whose registers v1, v2 and v3 of lane 0 hold the given values. -/
def runs (i : Instr) (a b c : BitVec 32) : State := setV 1 0 a (setV 2 0 b (setV 3 0 c (issuing i)))

/-- R129: the sum wraps at the end of its range, and `.sat` clamps it there. -/
theorem test_iadd_wraps : after 9 (runs (.iadd p0 .i32 false (.v 9) (.v 1) (.v 2)) 0x7FFFFFFF 1 0) = some 0x80000000 := by decide +kernel
theorem test_iadd_sat : after 9 (runs (.iadd p0 .i32 true (.v 9) (.v 1) (.v 2)) 0x7FFFFFFF 1 0) = some 0x7FFFFFFF := by decide +kernel
/-- R130: the high half of a signed product. -/
theorem test_imulhi : after 9 (runs (.imulhi p0 .i32 (.v 9) (.v 1) (.v 2)) 0xFFFFFFFF 2 0) = some 0xFFFFFFFF := by decide +kernel
/-- R134: a shift by the width and more. -/
theorem test_shl_width : after 9 (runs (.shl p0 .n32 (.v 9) (.v 1) (.v 2)) 0xFFFFFFFF 32 0) = some 0 := by decide +kernel
theorem test_sar_width : after 9 (runs (.sar p0 .i32 (.v 9) (.v 1) (.v 2)) 0x80000000 33 0) = some 0xFFFFFFFF := by decide +kernel
/-- R135: a field of 4 bits from bit 28, signed. -/
theorem test_bfx_signed : after 9 (runs (.bfx p0 .i32 (.v 9) (.v 1) (.v 2)) 0x90000000 0x041C 0) = some 0xFFFFFFF9 := by decide +kernel
/-- R136: leading zeros of 1. -/
theorem test_clz : after 9 (runs (.clz p0 .n32 (.v 9) (.v 1)) 1 0 0) = some 31 := by decide +kernel
/-- R138: bits 39 to 20 of a word. -/
theorem test_movhi : after 9 (runs (.movhi p0 .n32 false (.v 9) (.v 1) 0xFFABC) 0xFFF12345 0 0) = some 0xABC12345 := by decide +kernel
/-- R148: 1 · 2 + 3 = 5, and 1 / 3 rounds to nearest. -/
theorem test_ffma : after 9 (runs (.ffma p0 .f32 .rne (.v 9) (.v 1) (.v 2) (.v 3)) 0x3F800000 0x40000000 0x40400000) = some 0x40A00000 := by decide +kernel
theorem test_fdiv : after 9 (runs (.fdiv p0 .f32 .rne (.v 9) (.v 1) (.v 2)) 0x3F800000 0x40400000 0) = some 0x3EAAAAAB := by decide +kernel
/-- R156 to R158: 2.75 to an integer, towards zero and upwards. -/
theorem test_cvt_rtz : after 9 (runs (.cvt p0 .f32 .rtz (.v 9) (.v 1) 0 0) 0x40300000 0 0) = some 2 := by decide +kernel
theorem test_cvt_rup : after 9 (runs (.cvt p0 .f32 .rup (.v 9) (.v 1) 0 0) 0x40300000 0 0) = some 3 := by decide +kernel
/-- R199, R200: a trap saves its cause and its number, and its wave goes to the handler. -/
theorem test_trap : (match step (issuing (.trap p0 0x2A)) with
    | .next u => (u.strand? 0 (.wave 0 0)).map fun t => (t.trap.mask, t.paths.map Path.pc)
    | _ => none) = some (0xFFFFFFFF, [0x2000]) := by decide +kernel
/-- R64: a word of OP 0xFE is no instruction of a clause: cause 1. -/
theorem test_no_instruction : (match step (State.reset.install 64 0xFE00F00000000000) with
    | .next u => (u.strand? 0 (.wave 0 0)).map fun t => t.trap.cause.toNat % 16
    | _ => none) = some 1 := by decide +kernel

/-- The message's first lane after a move. -/
def msgAfter (i : Instr) (s : State) : Option (Word × Phase) := match exec i s with
  | .next u => (u.msg? 7).bind fun m => m.acts.head?.map fun a => (a.b, m.phase)
  | _ => none

def pattern (s : State) : State := s.setMem 0x5000 [0x78, 0x56, 0x34, 0x12]

/-- R3, R286: a load reads its bytes little-endian. -/
theorem test_read : msgAfter (.read (.msg 7)) (pattern (atHome (.ld p0 .n32 (.sized .nat) (.v 8) (.v 2) 0 2) .load (.lpddr 3) (act4 0 0))) = some (0x12345678, .back) := by decide +kernel
/-- R274: an addition answers with the old value and stores the sum. -/
theorem test_atom_add : (match exec (.change (.msg 7)) (pattern (atHome atom0 .atom (.lpddr 0) (act4 0xFFFFFFFF 0))) with
    | .next u => some (((u.msg? 7).bind fun m => m.acts.head?.map Act.b), u.memNat 0x5000 4)
    | _ => none) = some (some 0x12345678, 0x12345677) := by decide +kernel
/-- R274: a comparison that fails stores nothing. -/
theorem test_acas : (match exec (.change (.msg 7)) (pattern (atHome acas0 .acas (.lpddr 3) (act4 5 6))) with
    | .next u => some (((u.msg? 7).bind fun m => m.acts.head?.map Act.b), u.memNat 0x5000 4)
    | _ => none) = some (some 0x12345678, 0x12345678) := by decide +kernel
/-- R310: clocks pass. -/
theorem test_clock : (match exec (.issueSlot 2 0 0 0 77) { State.reset with up := true } with
    | .next u => some (u.clk 2, u.clk 1)
    | _ => none) = some (77, 0) := by decide +kernel

end Sys2Proof.Tests
end

section
/-! The rules of register space and of the finite maps that it and the streams are held in: what a read gives after a write, and what a write leaves. -/

namespace Sys2Proof.Machine

/-! ### Maps from names -/

@[simp] theorem assocGet_assocSet_same {κ α : Type} [DecidableEq κ] (m : List (κ × α)) (a : κ) (v : α) : assocGet (assocSet m a v) a = some v := by
  induction m with
  | nil => simp [assocSet, assocGet]
  | cons p m ih =>
    simp only [assocSet]
    split
    · rename_i hpa
      simp [assocGet, hpa]
    · rename_i hpa
      simp [assocGet, hpa, ih]

theorem assocGet_assocSet_ne {κ α : Type} [DecidableEq κ] {m : List (κ × α)} {a b : κ} (v : α) (hab : b ≠ a) :
    assocGet (assocSet m a v) b = assocGet m b := by
  induction m with
  | nil => simp [assocSet, assocGet, hab.symm]
  | cons p m ih =>
    simp only [assocSet]
    split
    · rename_i hpa
      subst hpa
      simp [assocGet, hab.symm]
    · simp only [assocGet, ih]

/-! ### Register space (R91) -/

/-- The register space of every core is listed in canonical form. -/
def State.RegsCanonical (s : State) : Prop := ∀ k, sparseWf 0 ((assocGet s.regs k).getD []) = true

@[simp] theorem State.setRegWord_regs (s : State) (c : CoreId) (a : Nat) (v : BitVec 32) :
    (s.setRegWord c a v).regs = assocSet s.regs c (sparseSet 0 ((assocGet s.regs c).getD []) (a / 4) v) := rfl

theorem State.RegsCanonical.setRegWord {s : State} (h : s.RegsCanonical) (c : CoreId) (a : Nat) (v : BitVec 32) : (s.setRegWord c a v).RegsCanonical := by
  intro k
  by_cases hk : k = c
  · subst hk
    simpa using sparseWf_set (a / 4) v (h k)
  · simpa [assocGet_assocSet_ne _ hk] using h k

theorem State.RegsCanonical.regWord_setRegWord_same {s : State} (h : s.RegsCanonical) (c : CoreId) (a : Nat) (v : BitVec 32) :
    (s.setRegWord c a v).regWord c a = v := by
  simpa [State.regWord] using sparseGet_set_same (a / 4) v (h c)

theorem State.RegsCanonical.regWord_setRegWord_other {s : State} (h : s.RegsCanonical) {c k : CoreId} {a b : Nat} (v : BitVec 32)
    (hab : k ≠ c ∨ b / 4 ≠ a / 4) : (s.setRegWord c a v).regWord k b = s.regWord k b := by
  by_cases hk : k = c
  · subst hk
    simpa [State.regWord] using sparseGet_set_ne v (h k) (hab.resolve_left (· rfl))
  · simp [State.regWord, assocGet_assocSet_ne _ hk]

/-! ### Where vector registers stand (R93, R95), and reading and writing them (R57) -/

theorem Ctx.vPlace_eq (c : Ctx) {tm : Team} {n : Nat} (l : Nat) (ht : c.team = some tm) (hn : c.inH = true ∨ c.aliased n = false) :
    c.vPlace n l = if c.inH then tm.base3 + (c.wave * 8 + n) * 128 + l * 4 else tm.base0 + ((c.wave * c.crew.desc.w0lim + n) * 32 + l) * 4 := by
  cases hH : c.inH with
  | true => simp [Ctx.vPlace, ht, hH, hAddr]
  | false =>
    have ha : c.aliased n = false := hn.resolve_left (by simp [hH])
    simp [Ctx.vPlace, ht, hH, ha, vAddr]

/-- The two registers of a pair stand 128 bytes apart, so in different words. -/
theorem Ctx.vPlace_succ (c : Ctx) {tm : Team} {n : Nat} (l : Nat) (ht : c.team = some tm) (hn : c.inH = true ∨ c.aliased n = false)
    (hn1 : c.inH = true ∨ c.aliased (n + 1) = false) : c.vPlace (n + 1) l = c.vPlace n l + 128 := by
  rw [c.vPlace_eq l ht hn, c.vPlace_eq l ht hn1]
  split <;> ring

theorem Ctx.read_v_of_32 (c : Ctx) {t : Ty} (n : BitVec 8) (l : Nat) (hP : c.isP = false) (ht : t.is64 = false) :
    c.read t (.v n) l = (c.v32 n.toNat l).setWidth 64 := by
  simp [Ctx.read, hP, ht]

theorem Ctx.read_v_of_64 (c : Ctx) {t : Ty} (n : BitVec 8) (l : Nat) (hP : c.isP = false) (ht : t.is64 = true) :
    c.read t (.v n) l = c.v32 (n.toNat + 1) l ++ c.v32 n.toNat l := by
  simp [Ctx.read, hP, ht]

theorem Ctx.write_v_n32 (c : Ctx) (n : BitVec 8) (l : Nat) (v : Word) (s : State) (hP : c.isP = false) :
    c.write .n32 (.v n) l v s = s.setRegWord c.core (c.vPlace n.toNat l) (v.setWidth 32) := by
  rw [BitVec.setWidth_eq_extractLsb' (by decide)]
  simp [Ctx.write, hP, Ctx.setV32, Ty.is64]

theorem Ctx.write_v_n64 (c : Ctx) (n : BitVec 8) (l : Nat) (v : Word) (s : State) (hP : c.isP = false) :
    c.write .n64 (.v n) l v s = (s.setRegWord c.core (c.vPlace n.toNat l) (v.extractLsb' 0 32)).setRegWord c.core (c.vPlace (n.toNat + 1) l)
      (v.extractLsb' 32 32) := by
  simp [Ctx.write, hP, Ctx.setV32, Ty.is64]

end Sys2Proof.Machine
end

section
/-! What streams, threads, predicates and g registers read as after a change. -/

namespace Sys2Proof.Machine

/-! ### A stream that is changed -/

theorem listMod_eq_modify {α : Type} (l : List α) (i : Nat) (f : α → α) : listMod l i f = l.modify i f := by
  induction l generalizing i with
  | nil => cases i <;> rfl
  | cons x l ih => cases i <;> simp [listMod, ih]

@[simp] theorem Crew.modTeam_teams (c : Crew) (r : Nat) (f : Team → Team) : (c.modTeam r f).teams = c.teams.modify r f := listMod_eq_modify ..

@[simp] theorem Crew.modStrand_id (c : Crew) (sid : Sid) (f : Strand → Strand) : (c.modStrand sid f).id = c.id := by cases sid <;> rfl

theorem Crew.strand?_modStrand_same (c : Crew) (sid : Sid) (f : Strand → Strand) : (c.modStrand sid f).strand? sid = (c.strand? sid).map f := by
  cases sid with
  | wave t w => cases ht : c.teams[t]? <;> simp [Crew.strand?, Crew.modStrand, listMod_eq_modify, ht]
  | gaffer => rfl
  | producer t => cases ht : c.teams[t]? <;> simp [Crew.strand?, Crew.modStrand, ht]

theorem State.crew?_modCrew_same (s : State) (i : Nat) {f : Crew → Crew} (hf : ∀ c, (f c).id = c.id) : (s.modCrew i f).crew? i = (s.crew? i).map f := by
  have hid : (fun c : Crew => c.id == i) ∘ (fun c => if c.id == i then f c else c) = fun c => c.id == i := by
    funext c
    simp only [Function.comp]
    split <;> simp [hf]
  simp only [State.crew?, State.modCrew_crews, mapIf, List.find?_map, hid]
  cases hc : s.crews.find? fun c => c.id == i with
  | none => rfl
  | some c =>
    have hci : (c.id == i) = true := List.find?_some (p := fun c : Crew => c.id == i) hc
    simp only [Option.map_some, hci, if_true]

theorem State.strand?_modStrand_same (s : State) (k : Nat) (sid : Sid) (f : Strand → Strand) :
    (s.modStrand k sid f).strand? k sid = (s.strand? k sid).map f := by
  simp only [State.strand?, State.modStrand]
  rw [State.crew?_modCrew_same s k fun c => Crew.modStrand_id c sid f]
  cases s.crew? k with
  | none => rfl
  | some c => exact c.strand?_modStrand_same sid f

theorem Strand.thread_modThread (t : Strand) (l k : Nat) (f : Thread → Thread) (hl : l < t.threads.length) :
    (t.modThread l f).thread k = if k = l then f (t.thread k) else t.thread k := by
  by_cases hk : k = l
  · subst hk
    simp [Strand.thread, Strand.modThread, listMod_eq_modify, hl]
  · simp [Strand.thread, Strand.modThread, listMod_eq_modify, hk, Ne.symm hk]

/-! ### Predicates (R56, R99) -/

/-- Predicates p0 to p14 of a thread with predicate k given a value. -/
def putPred (k : Nat) (v : Bool) (p : BitVec 15) : BitVec 15 := if v then p ||| (1#15 <<< k) else p &&& ~~~(1#15 <<< k)

theorem getLsbD_putPred {k : Nat} (v : Bool) (p : BitVec 15) (q : Nat) (hk : k < 15) : (putPred k v p).getLsbD q = if q = k then v else p.getLsbD q := by
  have hbit : (1#15 <<< k).getLsbD q = decide (q = k) := by
    simp only [BitVec.getLsbD_shiftLeft, BitVec.getLsbD_one]
    by_cases h : q = k
    · simp [h, hk]
    · simpa [h] using by omega
  by_cases h : q = k
  · subst h
    cases v <;> simp [putPred, hk]
  · cases v
    · simpa [putPred, hbit, h] using fun hp => BitVec.lt_of_getLsbD hp
    · simp [putPred, hbit, h]

theorem State.setPred_p15 (s : State) (crew : Nat) (sid : Sid) (l : Nat) {k : Nat} (v : Bool) (hk : 15 ≤ k) : s.setPred crew sid l k v = s := by
  simp [State.setPred, hk]

/-- p15 reads 1 in every stream. -/
theorem predBits_p15 (c : Crew) (sid : Sid) (t : Strand) (l : Nat) : (predBits c sid t l).getLsbD 15 = true := by
  unfold predBits
  rw [BitVec.getLsbD_append, if_neg (by decide)]
  rfl

/-- Outside a producer, p0 to p14 of a lane are its thread's. -/
theorem predBits_getLsbD (c : Crew) {sid : Sid} (t : Strand) (l : Nat) {k : Nat} (hk : k < 15) (hsid : ∀ r, sid ≠ .producer r) :
    (predBits c sid t l).getLsbD k = (t.thread l).pred.getLsbD k := by
  unfold predBits
  rw [BitVec.getLsbD_append, if_pos hk]
  cases sid with
  | wave _ _ => rfl
  | gaffer => rfl
  | producer r => exact absurd rfl (hsid r)

theorem State.setPred_eq (s : State) (crew : Nat) {sid : Sid} (l : Nat) {k : Nat} (v : Bool) (hk : k < 15) (hsid : ∀ r, sid ≠ .producer r) :
    s.setPred crew sid l k v = s.modThread crew sid l fun h => { h with pred := putPred k v h.pred } := by
  rw [State.setPred, if_neg (by omega)]
  cases sid with
  | wave _ _ => rfl
  | gaffer => rfl
  | producer r => exact absurd rfl (hsid r)

theorem Ctx.sid_ne_producer {c : Ctx} (hP : c.isP = false) (r : Nat) : c.sid ≠ .producer r := by
  intro h
  rw [Ctx.sid] at h
  simp [Ctx.isP, h] at hP

/-- After a predicate of a lane is written, the stream's predicates are the old ones but for that bit of that thread. -/
theorem Ctx.pred_setPred {s : State} {c : Ctx} {f : PField} {l : Nat} (b : Bool) (hf : f.toNat % 16 < 15) (hP : c.isP = false)
    (hl : l < c.t.threads.length) (ht : s.strand? c.id c.sid = some c.t) : ∃ t, (c.setPred f l b s).strand? c.id c.sid = some t
      ∧ ∀ k q, (t.thread k).pred.getLsbD q = if k = l ∧ q = f.toNat % 16 then b else (c.t.thread k).pred.getLsbD q := by
  rw [Ctx.setPred, State.setPred_eq _ _ _ _ hf (Ctx.sid_ne_producer hP), State.modThread, State.strand?_modStrand_same, ht]
  refine ⟨_, rfl, fun k q => ?_⟩
  rw [Strand.thread_modThread _ _ _ _ hl]
  by_cases hk : k = l
  · simp [hk, getLsbD_putPred b _ q hf]
  · simp [hk]

/-! ### g registers (R99) -/

theorem Ctx.strand?_setGReg {s : State} (c : Ctx) {t : Strand} (n : Nat) (v : Word) (ht : s.strand? c.id c.sid = some t) :
    (c.setGReg n v s).strand? c.id c.sid = some { t with g := assocSet t.g n v } := by
  simp [Ctx.setGReg, Ctx.modT, State.strand?_modStrand_same, ht]

@[simp] theorem Ctx.cut_n32 (v : Word) : Ctx.cut .n32 v = BitVec.ofNat 64 (v.toNat % 2 ^ 32) := rfl
@[simp] theorem Ctx.cut_n64 (v : Word) : Ctx.cut .n64 v = v := rfl

theorem Ctx.toNat_read_g_n32 (c : Ctx) (n : BitVec 8) (l : Nat) : (c.read .n32 (.g n) l).toNat = (c.gReg n.toNat).toNat % 2 ^ 32 := by
  rw [Ctx.read, Ctx.cut_n32, BitVec.toNat_ofNat]
  omega

end Sys2Proof.Machine
end

section
/-! The statements about vector registers, predicates and g registers. -/

namespace Sys2Proof.Machine

/-- A vector register written is one word of register space written (R93, R95). -/
theorem Ctx.writes_v_n32 {s : State} (c : Ctx) (n : BitVec 8) (l : Nat) (v : Word) (hP : c.isP = false) (hs : s.RegsCanonical) :
    (c.write .n32 (.v n) l v s).regWord c.core (c.vPlace n.toNat l) = v.setWidth 32
      ∧ ∀ k a, k ≠ c.core ∨ a / 4 ≠ c.vPlace n.toNat l / 4 → (c.write .n32 (.v n) l v s).regWord k a = s.regWord k a := by
  rw [c.write_v_n32 n l v s hP]
  exact ⟨hs.regWord_setRegWord_same .., fun k a h => hs.regWord_setRegWord_other _ h⟩

/-- A pair written is two words of register space written, which are different words (R57, R93, R95). -/
theorem Ctx.writes_v_n64 {s : State} (c : Ctx) (n : BitVec 8) (l : Nat) (v : Word) (hP : c.isP = false) (hs : s.RegsCanonical)
    (hne : c.vPlace n.toNat l / 4 ≠ c.vPlace (n.toNat + 1) l / 4) :
    (c.write .n64 (.v n) l v s).regWord c.core (c.vPlace n.toNat l) = v.extractLsb' 0 32
      ∧ (c.write .n64 (.v n) l v s).regWord c.core (c.vPlace (n.toNat + 1) l) = v.extractLsb' 32 32
      ∧ ∀ k a, k ≠ c.core ∨ (a / 4 ≠ c.vPlace n.toNat l / 4 ∧ a / 4 ≠ c.vPlace (n.toNat + 1) l / 4) →
        (c.write .n64 (.v n) l v s).regWord k a = s.regWord k a := by
  rw [c.write_v_n64 n l v s hP]
  have hlow := hs.setRegWord c.core (c.vPlace n.toNat l) (v.extractLsb' 0 32)
  refine ⟨?_, hlow.regWord_setRegWord_same .., fun k a h => ?_⟩
  · rw [hlow.regWord_setRegWord_other _ (.inr hne)]
    exact hs.regWord_setRegWord_same ..
  · rw [hlow.regWord_setRegWord_other _ (h.imp_right And.right)]
    exact hs.regWord_setRegWord_other _ (h.imp_right And.left)

/-- Settles O56: the places of the statement are those of `vPlace`, and the two words of a pair are different words. -/
theorem vectorRegisters : Obligations.VectorRegisters := by
  unfold Obligations.VectorRegisters
  intro s c tm n l v ht _ hP hs _ _ hn hn1
  have hne : c.vPlace n.toNat l / 4 ≠ c.vPlace (n.toNat + 1) l / 4 := by
    rw [c.vPlace_succ l ht hn hn1]; omega
  simp only [← c.vPlace_eq l ht hn, ← c.vPlace_eq l ht hn1]
  obtain ⟨hsame, hother⟩ := c.writes_v_n32 n l v hP hs
  obtain ⟨hlow, hhigh, hrest⟩ := c.writes_v_n64 n l v hP hs hne
  refine ⟨fun ty => ⟨c.read_v_of_32 n l hP, c.read_v_of_64 n l hP⟩, ⟨hsame, ?_, hother⟩, hlow, hhigh, ?_, hrest⟩
  · rw [c.write_v_n32 n l v s hP, State.setRegWord_mem]
  · rw [c.write_v_n64 n l v s hP, State.setRegWord_mem, State.setRegWord_mem]

/-- Settles O60: a predicate written is one bit of one thread, and a g register written is one entry of the stream's map. -/
theorem predicatesAndGRegisters : Obligations.PredicatesAndGRegisters := by
  unfold Obligations.PredicatesAndGRegisters
  refine ⟨fun sid slot w2 clk n ps l => ⟨rfl, ?_⟩, fun s c f l b => ⟨fun hf => ⟨?_, ?_⟩, fun hf hP => ?_, Ctx.pred_setPred b⟩,
    fun s c n m l v ht => ?_⟩
  · simp [Strand.thread, Strand.fresh, Thread.fresh]
  · rw [Ctx.pred, hf, predBits_p15]
  · exact s.setPred_p15 c.id c.sid l b hf.ge
  · exact predBits_getLsbD c.crew c.t l hf (Ctx.sid_ne_producer hP)
  · refine ⟨rfl, ?_, _, _, c.strand?_setGReg _ _ ht, c.strand?_setGReg _ _ ht, by simp, by simp, fun hm => ?_⟩
    · rw [Ctx.toNat_read_g_n32, Ctx.gReg]
    · have hne : m.toNat ≠ n.toNat := fun h => hm (BitVec.eq_of_toNat_eq h)
      exact ⟨assocGet_assocSet_ne _ hne, assocGet_assocSet_ne _ hne⟩

end Sys2Proof.Machine
end

section
/-! Decoding and encoding agree in both directions (R52 to R65): each code and each format reads back what it lays out, and lays out what it reads. -/

namespace Sys2Proof

/-! ### Codes: a field that names something is the code of what it names -/

@[simp] theorem Ty.ofCode_eq_some {c : BitVec 4} {t : Ty} : Ty.ofCode c = some t ↔ c = t.code :=
  ⟨by revert c; cases t <;> decide, by rintro rfl; exact Ty.ofCode_code t⟩
@[simp] theorem Rm.code_ofCode (c : BitVec 2) : (Rm.ofCode c).code = c := by revert c; decide
@[simp] theorem Rm.ofM_eq_some {c : BitVec 4} {r : Rm} : Rm.ofM c = some r ↔ c = r.m :=
  ⟨by revert c; cases r <;> decide, by rintro rfl; exact Rm.ofM_m r⟩
@[simp] theorem Scope.ofCode_eq_some {c : BitVec 3} {x : Scope} : Scope.ofCode c = some x ↔ c = x.code :=
  ⟨by revert c; cases x <;> decide, by rintro rfl; exact Scope.ofCode_code x⟩
@[simp] theorem Scope.ofM_eq_some {c : BitVec 4} {x : Scope} : Scope.ofM c = some x ↔ c = x.m :=
  ⟨by revert c; cases x <;> decide, by rintro rfl; exact Scope.ofM_m x⟩
@[simp] theorem flagOfM_eq_some {c : BitVec 4} {b : Bool} : flagOfM c = some b ↔ c = flagM b :=
  ⟨by revert c; cases b <;> decide, by rintro rfl; exact flagOfM_flagM b⟩
@[simp] theorem Cmp.ofM_eq_some {c : BitVec 4} {x : Cmp} : Cmp.ofM c = some x ↔ c = x.m :=
  ⟨by revert c; cases x <;> decide, by rintro rfl; exact Cmp.ofM_m x⟩
@[simp] theorem FCmp.ofM_eq_some {c : BitVec 4} {x : FCmp} : FCmp.ofM c = some x ↔ c = x.m :=
  ⟨by revert c; cases x <;> decide, by rintro rfl; exact FCmp.ofM_m x⟩
@[simp] theorem Shfl.ofM_eq_some {c : BitVec 4} {x : Shfl} : Shfl.ofM c = some x ↔ c = x.m :=
  ⟨by revert c; cases x <;> decide, by rintro rfl; exact Shfl.ofM_m x⟩
@[simp] theorem Vote.ofM_eq_some {c : BitVec 4} {x : Vote} : Vote.ofM c = some x ↔ c = x.m :=
  ⟨by revert c; cases x <;> decide, by rintro rfl; exact Vote.ofM_m x⟩
@[simp] theorem Lred.ofM_eq_some {c : BitVec 4} {x : Lred} : Lred.ofM c = some x ↔ c = x.m :=
  ⟨by revert c; cases x <;> decide, by rintro rfl; exact Lred.ofM_m x⟩
@[simp] theorem AtomOp.ofM_eq_some {c : BitVec 4} {x : AtomOp} : AtomOp.ofM c = some x ↔ c = x.m :=
  ⟨by revert c; cases x <;> decide, by rintro rfl; exact AtomOp.ofM_m x⟩
@[simp] theorem Size.ofM_eq_some {c : BitVec 4} {x : Size} : Size.ofM c = some x ↔ c = x.m :=
  ⟨by revert c; cases x <;> decide, by rintro rfl; exact Size.ofM_m x⟩
@[simp] theorem SldSize.ofCode_eq_some {c : BitVec 3} {x : SldSize} : SldSize.ofCode c = some x ↔ c = x.code :=
  ⟨by revert c; cases x <;> decide, by rintro rfl; exact SldSize.ofCode_code x⟩
@[simp] theorem MemMode.ofM_eq_some {c : BitVec 4} {x : MemMode} : MemMode.ofM c = some x ↔ c = x.m := by
  refine ⟨?_, by rintro rfl; exact MemMode.ofM_m x⟩
  revert c
  cases x with
  | sized z => cases z <;> decide
  | ordered sc => cases sc <;> decide

@[simp] theorem bit_beq_one (c : BitVec 1) : bit (c == 1#1) = c := by revert c; decide

@[simp] theorem Opd.bits_ofBits (b : BitVec 10) : (Opd.ofBits b).bits = b := by
  revert b; decide

/-! ### Formats -/

/-- A concatenation is the value whose high and low bits are its parts. -/
theorem eq_append_iff {n m : Nat} (x : BitVec n) (y : BitVec m) (e : BitVec (n + m)) :
    e = x ++ y ↔ e.extractLsb' m n = x ∧ e.extractLsb' 0 m = y := by
  constructor
  · rintro rfl
    exact ⟨by rw [extract_append_high _ _ _ _ le_rfl, Nat.sub_self, extract_all], by rw [extract_append_low _ _ _ _ (by omega), extract_all]⟩
  · rintro ⟨rfl, rfl⟩
    ext i hi
    simp

/-- Bits of bits. -/
theorem extract_extract {n : Nat} (e : BitVec n) (s k s' k' : Nat) (h : s' + k' ≤ k) :
    (e.extractLsb' s k).extractLsb' s' k' = e.extractLsb' (s + s') k' := by
  ext i hi
  simp [show s' + i < k by omega, Nat.add_assoc]

/-- The fields of a word lay its bits out again. -/
@[simp] theorem Fields.word_ofWord (w : Word) : (Fields.ofWord w).word = w := by
  symm
  simp (disch := decide) only [Fields.word, Fields.ofWord, eq_append_iff (n := 24) (m := 40), eq_append_iff (n := 22) (m := 2),
    eq_append_iff (n := 21) (m := 1), eq_append_iff (n := 20) (m := 1), eq_append_iff (n := 16) (m := 4),
    eq_append_iff (n := 12) (m := 4), eq_append_iff (n := 8) (m := 4), extract_extract, Nat.reduceAdd, and_self]

@[simp] theorem e_eq_fmtR (f : Fields) (d a b c : BitVec 10) : f.e = fmtR d a b c ↔ f.d = d ∧ f.a = a ∧ f.b = b ∧ f.c = c := by
  simp (disch := decide) only [fmtR, eq_append_iff (n := 30) (m := 10), eq_append_iff (n := 20) (m := 10),
    eq_append_iff (n := 10) (m := 10), extract_extract, Nat.reduceAdd, and_assoc, Fields.d, Fields.a, Fields.b, Fields.c]

@[simp] theorem e_eq_fmtI (f : Fields) (d a : BitVec 10) (imm : BitVec 20) : f.e = fmtI d a imm ↔ f.d = d ∧ f.a = a ∧ f.imm = imm := by
  simp (disch := decide) only [fmtI, eq_append_iff (n := 20) (m := 20), eq_append_iff (n := 10) (m := 10), extract_extract, Nat.reduceAdd,
    and_assoc, Fields.d, Fields.a, Fields.imm]

@[simp] theorem e_eq_fmtB (f : Fields) (a : BitVec 10) (off : BitVec 30) : f.e = fmtB a off ↔ f.d = a ∧ f.off30 = off := by
  simp only [fmtB, eq_append_iff (n := 10) (m := 30), Fields.d, Fields.off30]

@[simp] theorem e_eq_fmtMem (f : Fields) (d a : BitVec 10) (off : BitVec 16) (tag : BitVec 1) (hint : BitVec 3) :
    f.e = fmtMem d a off tag hint ↔ f.d = d ∧ f.a = a ∧ f.off16 = off ∧ f.tag = tag ∧ f.hint = hint := by
  simp (disch := decide) only [fmtMem, eq_append_iff (n := 37) (m := 3), eq_append_iff (n := 36) (m := 1), eq_append_iff (n := 20) (m := 16),
    eq_append_iff (n := 10) (m := 10), extract_extract, Nat.reduceAdd, and_assoc, Fields.d, Fields.a, Fields.off16, Fields.tag, Fields.hint]

@[simp] theorem e_eq_fmtP (f : Fields) (d a : BitVec 10) (pol : BitVec 8) (c : BitVec 4) :
    f.e = fmtP d a pol c ↔ f.d = d ∧ f.a = a ∧ f.pol = pol ∧ f.fc = c ∧ f.lo8 = 0#8 := by
  simp (disch := decide) only [fmtP, eq_append_iff (n := 32) (m := 8), eq_append_iff (n := 28) (m := 4), eq_append_iff (n := 20) (m := 8),
    eq_append_iff (n := 10) (m := 10), extract_extract, Nat.reduceAdd, and_assoc, Fields.d, Fields.a, Fields.pol, Fields.fc, Fields.lo8]

@[simp] theorem e_eq_fmtG (f : Fields) (core : BitVec 2) (tile : BitVec 4) (ra rb : BitVec 5) (ks flags : BitVec 8) :
    f.e = fmtG core tile ra rb ks flags ↔ f.core = core ∧ f.tile = tile ∧ f.ra = ra ∧ f.rb = rb ∧ f.ks = ks ∧ f.flags = flags ∧ f.lo8 = 0#8 := by
  simp (disch := decide) only [fmtG, eq_append_iff (n := 32) (m := 8), eq_append_iff (n := 24) (m := 8), eq_append_iff (n := 16) (m := 8),
    eq_append_iff (n := 11) (m := 5), eq_append_iff (n := 6) (m := 5), eq_append_iff (n := 2) (m := 4), extract_extract, Nat.reduceAdd, and_assoc,
    Fields.core, Fields.tile, Fields.ra, Fields.rb, Fields.ks, Fields.flags, Fields.lo8]

/-- Fields are those laid out for their own prefix exactly where each part is. -/
theorem Fields.fields_pre_eq_iff (f : Fields) (op : BitVec 8) (t m : BitVec 4) (ub : BitVec 1) (e : BitVec 40) :
    f.pre.fields op t m ub e = f ↔ f.op = op ∧ f.t = t ∧ f.m = m ∧ f.ub = ub ∧ f.e = e := by
  obtain ⟨fop, ft, fm, pg, pn, fub, hl, fe⟩ := f
  have hpn : bit (pn == 1) = pn := bit_beq_one pn
  simp only [Pre.fields, Fields.pre, hpn, Fields.mk.injEq, true_and, eq_comm]

/-- The form in which each row of the decoder is checked: its instruction lays out the fields of its own word. -/
theorem Fields.some_fields_pre {f : Fields} {op : BitVec 8} {t m : BitVec 4} {ub : BitVec 1} {e : BitVec 40} (hop : f.op.toNat = op.toNat)
    (h : f.t = t ∧ f.m = m ∧ f.ub = ub ∧ f.e = e) : some (f.pre.fields op t m ub e) = some f :=
  congrArg some ((f.fields_pre_eq_iff ..).2 ⟨BitVec.eq_of_toNat_eq hop, h⟩)

/-! ### From the word back to the instruction -/

theorem fields_of_decodeControl {f : Fields} {i : Instr} (h : decodeControl f = some i) : i.fields = some f := by
  unfold decodeControl at h
  split at h <;> simp [ite_eq_iff] at h
  all_goals casesm* _ ∨ _, _ ∧ _, Exists _
  all_goals
    subst_vars
    refine Fields.some_fields_pre ‹_› ?_
    simp [*]

theorem fields_of_decodeInteger {f : Fields} {i : Instr} (h : decodeInteger f = some i) : i.fields = some f := by
  unfold decodeInteger at h
  split at h <;> simp [ite_eq_iff, Option.bind_eq_some_iff, -Bool.exists_bool] at h
  all_goals casesm* _ ∨ _, _ ∧ _, Exists _
  all_goals
    subst_vars
    refine Fields.some_fields_pre ‹_› ?_
    simp [eq_append_iff (n := 1) (m := 3), eq_append_iff (n := 3) (m := 1), eq_append_iff (n := 2) (m := 1), extract_extract, *]

theorem fields_of_decodeBit {f : Fields} {i : Instr} (h : decodeBit f = some i) : i.fields = some f := by
  unfold decodeBit at h
  split at h <;> simp [ite_eq_iff, Option.bind_eq_some_iff, -Bool.exists_bool] at h
  all_goals casesm* _ ∨ _, _ ∧ _, Exists _
  all_goals
    subst_vars
    refine Fields.some_fields_pre ‹_› ?_
    simp [*]

theorem fields_of_decodePredicate {f : Fields} {i : Instr} (h : decodePredicate f = some i) : i.fields = some f := by
  unfold decodePredicate at h
  split at h <;> simp [ite_eq_iff, Option.bind_eq_some_iff, -Bool.exists_bool] at h
  all_goals casesm* _ ∨ _, _ ∧ _, Exists _
  all_goals
    subst_vars
    refine Fields.some_fields_pre ‹_› ?_
    simp [*]

theorem fields_of_decodeFloat {f : Fields} {i : Instr} (h : decodeFloat f = some i) : i.fields = some f := by
  unfold decodeFloat at h
  split at h <;> simp [ite_eq_iff, Option.bind_eq_some_iff, -Bool.exists_bool] at h
  all_goals casesm* _ ∨ _, _ ∧ _, Exists _
  all_goals
    subst_vars
    refine Fields.some_fields_pre ‹_› ?_
    simp [*]

theorem fields_of_decodeTranscendental {f : Fields} {i : Instr} (h : decodeTranscendental f = some i) : i.fields = some f := by
  unfold decodeTranscendental at h
  split at h <;> simp [ite_eq_iff, Option.bind_eq_some_iff, -Bool.exists_bool] at h
  all_goals casesm* _ ∨ _, _ ∧ _, Exists _
  all_goals
    subst_vars
    refine Fields.some_fields_pre ‹_› ?_
    simp [*]

theorem fields_of_decodeConvert {f : Fields} {i : Instr} (h : decodeConvert f = some i) : i.fields = some f := by
  unfold decodeConvert at h
  split at h <;> simp [ite_eq_iff, Option.bind_eq_some_iff, -Bool.exists_bool] at h
  all_goals casesm* _ ∨ _, _ ∧ _, Exists _
  all_goals
    subst_vars
    refine Fields.some_fields_pre ‹_› ?_
    simp [eq_append_iff (n := 2) (m := 2), *]

theorem fields_of_decodeMemory {f : Fields} {i : Instr} (h : decodeMemory f = some i) : i.fields = some f := by
  unfold decodeMemory at h
  split at h <;> simp [ite_eq_iff, Option.bind_eq_some_iff, -Bool.exists_bool, Fields.d, Fields.a, Fields.lo8] at h
  all_goals casesm* _ ∨ _, _ ∧ _, Exists _
  all_goals
    subst_vars
    refine Fields.some_fields_pre ‹_› ?_
    simp [eq_append_iff (n := 32) (m := 8), eq_append_iff (n := 20) (m := 12), eq_append_iff (n := 10) (m := 10), extract_extract, Fields.d,
      Fields.a, *]

theorem fields_of_decodeAtomic {f : Fields} {i : Instr} (h : decodeAtomic f = some i) : i.fields = some f := by
  unfold decodeAtomic at h
  split at h <;> simp [ite_eq_iff, Option.bind_eq_some_iff, -Bool.exists_bool] at h
  all_goals casesm* _ ∨ _, _ ∧ _, Exists _
  all_goals
    subst_vars
    refine Fields.some_fields_pre ‹_› ?_
    simp [*]

theorem fields_of_decodeSync {f : Fields} {i : Instr} (h : decodeSync f = some i) : i.fields = some f := by
  unfold decodeSync at h
  split at h <;> simp [ite_eq_iff, Option.bind_eq_some_iff, -Bool.exists_bool, Fields.d, Fields.a] at h
  all_goals casesm* _ ∨ _, _ ∧ _, Exists _
  all_goals
    subst_vars
    refine Fields.some_fields_pre ‹_› ?_
    simp [eq_append_iff (n := 36) (m := 4), eq_append_iff (n := 32) (m := 4), eq_append_iff (n := 28) (m := 4), eq_append_iff (n := 24) (m := 4),
      eq_append_iff (n := 20) (m := 16), eq_append_iff (n := 10) (m := 10), eq_append_iff (n := 1) (m := 3), extract_extract, Fields.d, Fields.a, *]

theorem fields_of_decodeQueue {f : Fields} {i : Instr} (h : decodeQueue f = some i) : i.fields = some f := by
  unfold decodeQueue at h
  split at h <;> simp [ite_eq_iff, Option.bind_eq_some_iff, -Bool.exists_bool, Fields.d] at h
  all_goals casesm* _ ∨ _, _ ∧ _, Exists _
  all_goals
    subst_vars
    refine Fields.some_fields_pre ‹_› ?_
    simp [eq_append_iff (n := 38) (m := 2), eq_append_iff (n := 10) (m := 28), extract_extract, Fields.d, *]

theorem fields_of_decodeRender {f : Fields} {i : Instr} (h : decodeRender f = some i) : i.fields = some f := by
  unfold decodeRender at h
  split at h <;> simp [ite_eq_iff] at h
  all_goals casesm* _ ∨ _, _ ∧ _, Exists _
  all_goals
    subst_vars
    refine Fields.some_fields_pre ‹_› ?_
    simp [*]

theorem fields_of_decodeTile {f : Fields} {i : Instr} (h : decodeTile f = some i) : i.fields = some f := by
  unfold decodeTile at h
  split at h <;> simp [ite_eq_iff, Option.bind_eq_some_iff, -Bool.exists_bool, Fields.d, Fields.a, Fields.b, Fields.flags, Fields.ks] at h
  all_goals casesm* _ ∨ _, _ ∧ _, Exists _
  all_goals
    subst_vars
    refine Fields.some_fields_pre ‹_› ?_
    simp [eq_append_iff (n := 35) (m := 5), eq_append_iff (n := 30) (m := 5), eq_append_iff (n := 20) (m := 10), eq_append_iff (n := 10) (m := 10),
      eq_append_iff (n := 4) (m := 4), eq_append_iff (n := 3) (m := 1), eq_append_iff (n := 2) (m := 1), eq_append_iff (n := 1) (m := 1),
      eq_append_iff (n := 2) (m := 6), eq_append_iff (n := 2) (m := 2), extract_extract, Fields.flags, Fields.ks, *]

theorem fields_of_decodeTrap {f : Fields} {i : Instr} (h : decodeTrap f = some i) : i.fields = some f := by
  unfold decodeTrap at h
  split at h <;> simp [ite_eq_iff, Option.bind_eq_some_iff, -Bool.exists_bool] at h
  all_goals casesm* _ ∨ _, _ ∧ _, Exists _
  all_goals
    subst_vars
    refine Fields.some_fields_pre ‹_› ?_
    simp [*]

theorem fields_of_decodeProducer {f : Fields} {i : Instr} (h : decodeProducer f = some i) : i.fields = some f := by
  unfold decodeProducer at h
  split at h <;> simp [ite_eq_iff, Option.bind_eq_some_iff, -Bool.exists_bool, Fields.d, Fields.a] at h
  all_goals casesm* _ ∨ _, _ ∧ _, Exists _
  all_goals
    subst_vars
    refine Fields.some_fields_pre ‹_› ?_
    simp [eq_append_iff (n := 1) (m := 3), eq_append_iff (n := 38) (m := 2), eq_append_iff (n := 20) (m := 18), eq_append_iff (n := 10) (m := 10),
      extract_extract, Fields.d, Fields.a, *]


/-- The fields of what fields decode to are those fields: every row checks each bit that it gives no meaning. -/
theorem fields_of_rawDecode {f : Fields} {i : Instr} (h : rawDecode f = some i) : i.fields = some f := by
  unfold rawDecode at h
  split at h
  · exact fields_of_decodeControl h
  · exact fields_of_decodeInteger h
  · exact fields_of_decodeBit h
  · exact fields_of_decodePredicate h
  · exact fields_of_decodeFloat h
  · exact fields_of_decodeTranscendental h
  · exact fields_of_decodeConvert h
  · exact fields_of_decodeMemory h
  · exact fields_of_decodeAtomic h
  · exact fields_of_decodeSync h
  · exact fields_of_decodeQueue h
  · exact fields_of_decodeRender h
  · exact fields_of_decodeTile h
  · exact fields_of_decodeTrap h
  · exact fields_of_decodeProducer h
  · cases h

/-! ### From the instruction to the word and back -/

/-- Bits of ksteps8 of format G. -/
theorem fmtG_ks (c : BitVec 2) (t : BitVec 4) (a b : BitVec 5) (ks fl : BitVec 8) (s k : Nat) (hs : 16 ≤ s) (h : s - 16 + k ≤ 8) :
    (fmtG c t a b ks fl).extractLsb' s k = ks.extractLsb' (s - 16) k := by
  have hx := extract_extract (fmtG c t a b ks fl) 16 8 (s - 16) k h
  rw [fmtG_at16, Nat.add_sub_cancel' hs] at hx
  exact hx.symm

/-- Bits of the flags of format G. -/
theorem fmtG_flags (c : BitVec 2) (t : BitVec 4) (a b : BitVec 5) (ks fl : BitVec 8) (s k : Nat) (hs : 8 ≤ s) (h : s - 8 + k ≤ 8) :
    (fmtG c t a b ks fl).extractLsb' s k = fl.extractLsb' (s - 8) k := by
  have hx := extract_extract (fmtG c t a b ks fl) 8 8 (s - 8) k h
  rw [fmtG_at8, Nat.add_sub_cancel' hs] at hx
  exact hx.symm

section
variable (p : Pre) (op : BitVec 8) (t m : BitVec 4) (ub : BitVec 1) (e : BitVec 40)

@[simp] theorem Pre.fields_op : (p.fields op t m ub e).op = op := rfl
@[simp] theorem Pre.fields_t : (p.fields op t m ub e).t = t := rfl
@[simp] theorem Pre.fields_m : (p.fields op t m ub e).m = m := rfl
@[simp] theorem Pre.fields_ub : (p.fields op t m ub e).ub = ub := rfl
@[simp] theorem Pre.fields_e : (p.fields op t m ub e).e = e := rfl

end

@[simp] theorem bit_beq_one_lit (b : Bool) : (bit b == 1#1) = b := bit_eq_one b

/-- What an instruction lays out decodes to it: every row reads each field where it stands. -/
theorem rawDecode_of_fields {f : Fields} {i : Instr} (h : i.fields = some f) : rawDecode f = some i := by
  cases i <;> cases h
  all_goals
    simp (disch := decide) [rawDecode, decodeControl, decodeInteger, decodeBit, decodePredicate, decodeFloat, decodeTranscendental, decodeConvert,
      decodeMemory,
      decodeAtomic, decodeSync, decodeQueue, decodeRender, decodeTile, decodeTrap, decodeProducer, Fields.d, Fields.a, Fields.b, Fields.c, Fields.imm,
      Fields.off30, Fields.off16, Fields.tag, Fields.hint, Fields.pol, Fields.fc, Fields.lo8, Fields.core, Fields.tile, Fields.ra, Fields.rb, Fields.ks,
      Fields.flags, fmtG_ks, fmtG_flags, extract_append_low, extract_append_high, -Nat.reduceAdd]

/-- Exactly the instruction words have fields. -/
theorem Instr.isSome_fields (i : Instr) : i.fields.isSome = i.isWord := by cases i <;> rfl

/-- Settles O57: the decoder reads each field where the encoder lays it out, and leaves no bit of a word unchecked. -/
theorem decodeEncode : Obligations.DecodeEncode := by
  unfold Obligations.DecodeEncode
  refine ⟨fun i hi => ?_, fun w i h => ?_⟩
  · have hw : i.fields.isSome = true := by
      simp only [Instr.wellFormed, Bool.and_eq_true] at hi
      rw [i.isSome_fields, hi.1.1]
    obtain ⟨f, hf⟩ := Option.isSome_iff_exists.1 hw
    refine ⟨f.word, by rw [encode, hf, Option.map_some], ?_⟩
    rw [decode, Fields.ofWord_word, rawDecode_of_fields hf, Option.filter_some, if_pos hi]
  · obtain ⟨hd, -⟩ := Option.filter_eq_some_iff.1 h
    rw [encode, fields_of_rawDecode hd, Option.map_some, Fields.word_ofWord]

/-- Settles O58: the fields of each word are read off and decoded. -/
theorem decodingSanity : Obligations.DecodingSanity := by
  unfold Obligations.DecodingSanity
  decide +kernel

end Sys2Proof
end

section
/-! What leaves memory alone: the operations of the machine that write no byte of memory, in the order in which they call each other. -/

namespace Sys2Proof.Machine
open Sys2Proof
@[simp] theorem State.setL1_mem (s : State) (c : CoreId) (l : List L1Entry) : (State.setL1 s c l).mem = s.mem := by simp [State.setL1]

@[simp] theorem State.invalidateL1_mem (s : State) (c : CoreId) : (State.invalidateL1 s c).mem = s.mem := by simp [State.invalidateL1]

@[simp] theorem Ctx.acquire_mem (c : Ctx) (sc : Scope) (s : State) : (Ctx.acquire c sc s).mem = s.mem := by
  unfold Ctx.acquire
  split <;> simp

@[simp] theorem Ctx.addCvt_mem (c : Ctx) (lane : ℕ) (f : BitVec 7) (s : State) : (Ctx.addCvt c lane f s).mem = s.mem := by simp [Ctx.addCvt]

@[simp] theorem Ctx.addOp_mem (c : Ctx) (core : BitVec 2) (tile : BitVec 4) (ga : Word) (now : Bool) (id : ℕ) (s : State) : (Ctx.addOp c core tile ga now id s).mem = s.mem := by simp [Ctx.addOp]

@[simp] theorem Ctx.modT_mem (c : Ctx) (s : State) (f : Strand → Strand) : (Ctx.modT c s f).mem = s.mem := by simp [Ctx.modT]

@[simp] theorem State.choosePath_mem (s : State) (crew : ℕ) (sid : Sid) : (State.choosePath s crew sid).mem = s.mem := by
  unfold State.choosePath
  split <;> simp

@[simp] theorem Ctx.endClauseAt_mem (c : Ctx) (s : State) (next : List (ℕ × Dest)) : (Ctx.endClauseAt c s next).mem = s.mem := by
  unfold Ctx.endClauseAt
  repeat' split
  all_goals simp

@[simp] theorem Ctx.endClause_mem (c : Ctx) (s : State) (next : List (ℕ × Word)) : (Ctx.endClause c s next).mem = s.mem := by simp [Ctx.endClause]

@[simp] theorem Ctx.modP_mem (c : Ctx) (s : State) (f : Path → Path) : (Ctx.modP c s f).mem = s.mem := by simp [Ctx.modP]

@[simp] theorem Ctx.advance_mem (c : Ctx) (s : State) : (Ctx.advance c s).mem = s.mem := by
  unfold Ctx.advance
  repeat' split
  all_goals simp

@[simp] theorem Ctx.withoutOffers_mem (c : Ctx) (s : State) : (Ctx.withoutOffers c s).mem = s.mem := by simp [Ctx.withoutOffers]

@[simp] theorem Ctx.arriveAt_mem (c : Ctx) (crewWide : Bool) (n : ℕ) (cnt : ℕ) : (Ctx.arriveAt c crewWide n cnt).mem = c.s0.mem := by simp [Ctx.arriveAt]

@[simp] theorem Ctx.await_mem (c : Ctx) (s : State) (w : Wait) : (Ctx.await c s w).mem = s.mem := by simp [Ctx.await]

@[simp] theorem State.newId_mem (s : State) : (State.newId s).2.mem = s.mem := by simp [State.newId]

@[simp] theorem State.endOp_mem (s : State) (crew : ℕ) (r : ℕ) (o : TileOp) (k : Counts) : (State.endOp s crew r o k).mem = s.mem := by simp [State.endOp]

@[simp] theorem State.setRegByte_mem (s : State) (c : CoreId) (addr : ℕ) (b : Byte) : (State.setRegByte s c addr b).mem = s.mem := by simp [State.setRegByte]

@[simp] theorem State.setRegBytes_mem (s : State) (c : CoreId) (addr : ℕ) (l : List Byte) : (State.setRegBytes s c addr l).mem = s.mem := by
  induction l generalizing s addr with
  | nil => rfl
  | cons b l ih => rw [State.setRegBytes, ih, State.setRegByte_mem]

@[simp] theorem State.applyZero_mem (s : State) (core : CoreId) (crew : ℕ) (t : Team) (o : TileOp) (a64 : Bool) : (State.applyZero s core crew t o a64).mem = s.mem := by
  rw [State.applyZero, State.modTeam_mem, State.setRegBytes_mem]

@[simp] theorem State.tilePend_mem (s : State) (crew : ℕ) (inH : Bool) (cause : ℕ) (datum : ℕ) (va : ℕ) (absent : Bool) (stop : ℕ × Option ℕ × Option ℕ) : (State.tilePend s crew inH cause datum va absent stop).mem = s.mem := by simp [State.tilePend]

@[simp] theorem State.putHalf_mem (s : State) (core : CoreId) (t : Team) (i : ℕ) (l : List Byte) : (State.putHalf s core t i l).mem = s.mem := by simp [State.putHalf]

@[simp] theorem State.applyCvt_mem (s : State) (core : CoreId) (crew : ℕ) (t : Team) (o : TileOp) (rm : Rm) (tgt : ℕ) (pol : BitVec 8) : (State.applyCvt s core crew t o rm tgt pol).mem = s.mem := by
  unfold State.applyCvt
  dsimp only
  split
  · simp only [State.tilePend_mem, State.modTeam_mem]
  · rw [State.modTeam_mem]
    split
    · rw [State.setRegBytes_mem]
    · rw [State.putHalf_mem, State.setRegBytes_mem]

@[simp] theorem State.drawIndex_mem (s : State) (n : ℕ) : (State.drawIndex s n).2.mem = s.mem := by
  unfold State.drawIndex
  split <;> simp

@[simp] theorem State.anyTime_mem {α : Type} [inst : DecidableEq α] (s : State) (asid : BitVec 16) (k : ℕ) (n : ℕ) (f : List Host.Cell → α) : (State.anyTime s asid k n f).2.mem = s.mem := by simp [State.anyTime]

@[simp] theorem State.walkAnyFrom_mem (s : State) (asid : BitVec 16) (va : ℕ) (n : ℕ) (table : ℕ) : (State.walkAnyFrom s asid va n table).2.mem = s.mem := by
  induction n generalizing s table with
  | zero => rfl
  | succ n ih =>
    simp only [State.walkAnyFrom]
    split <;> simp [ih]

@[simp] theorem State.walkAny_mem (s : State) (asid : BitVec 16) (va : Word) : (State.walkAny s asid va).2.mem = s.mem := by
  unfold State.walkAny
  split
  · rfl
  · dsimp only
    split <;> simp

@[simp] theorem State.translate_mem (s : State) (asid : BitVec 16) (secure : Bool) (k : Access) (va : Word) : (State.translate s asid secure k va).2.mem = s.mem := by
  unfold State.translate
  dsimp only
  repeat' split
  all_goals simp

@[simp] theorem State.failOp_mem (s : State) (crew : ℕ) (r : ℕ) (o : TileOp) (k : Counts) (cause : ℕ) (va : ℕ) (absent : Bool) : (State.failOp s crew r o k cause va absent).mem = s.mem := by
  unfold State.failOp
  split <;> simp

@[simp] theorem State.post_mem (s : State) (m : Msg) : (State.post s m).mem = s.mem := by simp [State.post]

@[simp] theorem State.applyTstb_mem (s : State) (c : Crew) (t : Team) (o : TileOp) (full : Bool) : (State.applyTstb s c t o full).mem = s.mem := by
  have ht := s.translate_mem c.asid c.secure .store o.ga
  unfold State.applyTstb
  dsimp only
  split
  · rfl
  · next h => rw [State.failOp_mem, ← ht, h]
  · next h =>
    rw [h] at ht
    rw [← ht]
    split <;> simp

@[simp] theorem State.setLine_mem (s : State) (l : ℕ) (x : LineState) : (State.setLine s l x).mem = s.mem := by simp [State.setLine]

@[simp] theorem State.slicesOf_mem (s : State) (t : State) : (State.slicesOf s t).mem = s.mem := by simp [State.slicesOf]

@[simp] theorem State.touchM_mem (s : State) (line : ℕ) (wr : Bool) (back : Bool) (team : Option (ℕ × ℕ)) : (State.touchM s line wr back team).mem = s.mem := by
  unfold State.touchM
  dsimp only
  repeat' split
  all_goals simp

@[simp] theorem State.evicted_mem (s : State) (l : List Held) : (State.evicted s l).mem = s.mem := by
  induction l generalizing s with
  | nil => rfl
  | cons h l ih =>
    rw [State.evicted, ih]
    split <;> simp

@[simp] theorem State.moveAway_mem (s : State) (p : Point) (line : ℕ) (wr : Bool) (team : Option (ℕ × ℕ)) : (State.moveAway s p line wr team).mem = s.mem := by simp [State.moveAway]

@[simp] theorem State.touchSlice_mem (s : State) (p : Point) (line : ℕ) (wr : Bool) (copy : Bool) (team : Option (ℕ × ℕ)) : (State.touchSlice s p line wr copy team).mem = s.mem := by
  unfold State.touchSlice
  dsimp only
  repeat' split
  all_goals simp

@[simp] theorem State.touch_mem (s : State) (p : Point) (hold : Option Bool) (line : ℕ) (wr : Bool) (team : Option (ℕ × ℕ)) : (State.touch s p hold line wr team).mem = s.mem := by
  unfold State.touch
  repeat' split
  all_goals simp

@[simp] theorem State.stamp_mem (s : State) (p : Point) (line : ℕ) : (State.stamp s p line).2.mem = s.mem := by simp [State.stamp]

@[simp] theorem State.sourceWritten_mem (s : State) (line : ℕ) : (State.sourceWritten s line).mem = s.mem := by
  unfold State.sourceWritten
  split <;> simp

@[simp] theorem State.drawBit_mem (s : State) : (State.drawBit s).2.mem = s.mem := by simp [State.drawBit]

@[simp] theorem State.answered_mem (s : State) (f : Leaf) : (State.answered s f).2.mem = s.mem := by
  unfold State.answered
  split <;> simp

@[simp] theorem State.setLost_mem (s : State) (die : ℕ) (sec : Bool) (n : ℕ) : (State.setLost s die sec n).mem = s.mem := by simp [State.setLost]

@[simp] theorem State.setShadow_mem (s : State) (die : ℕ) (off : ℕ) (v : Word) : (State.setShadow s die off v).mem = s.mem := by simp [State.setShadow]

@[simp] theorem State.latch_mem (s : State) (die : ℕ) : (State.latch s die).mem = s.mem := by
  unfold State.latch
  dsimp only
  rw [foldl_mem _ _ _ fun _ _ => State.setShadow_mem .., foldl_mem, foldl_mem _ _ _ fun _ _ => State.setObs_mem ..]
  intro s x
  refine foldl_mem _ _ _ fun s o => ?_
  split <;> simp

@[simp] theorem State.applyTbset_mem (s : State) (crew : ℕ) (t : Team) (o : TileOp) (x : Word) (withBound : Bool) : (State.applyTbset s crew t o x withBound).mem = s.mem := by simp [State.applyTbset]

@[simp] theorem State.putElems_mem (s : State) (core : CoreId) (t : Team) (i : ℕ) (f : ℕ) (l : List ℕ) : (State.putElems s core t i f l).mem = s.mem := by simp [State.putElems]

@[simp] theorem State.startMma_mem (s : State) (core : CoreId) (crew : ℕ) (t : Team) (o : TileOp) (m : Mma) : (State.startMma s core crew t o m).2.mem = s.mem := by
  unfold State.startMma
  dsimp only
  rw [State.modTeam_mem]
  repeat' split
  all_goals simp only [State.putHalf_mem, State.putElems_mem]

@[simp] theorem State.releaseOp_mem (s : State) (crew : ℕ) (r : ℕ) (op : ℕ) : (State.releaseOp s crew r op).mem = s.mem := by
  unfold State.releaseOp
  split <;> simp

@[simp] theorem State.modEntry_mem (s : State) (crew : ℕ) (sid : Sid) (id : ℕ) (f : Entry → Entry) : (State.modEntry s crew sid id f).mem = s.mem := by simp [State.modEntry]

@[simp] theorem State.drawWord_mem (s : State) : (State.drawWord s).2.mem = s.mem := by simp [State.drawWord]

@[simp] theorem State.modSample_mem (s : State) (crew : ℕ) (sid : Sid) (entry : ℕ) (f : Sample → Sample) : (State.modSample s crew sid entry f).mem = s.mem := by simp [State.modSample]

@[simp] theorem State.reissued_mem (s : State) (crew : ℕ) (sid : Sid) (es : List Entry) : (State.reissued s crew sid es).mem = s.mem := by
  refine foldl_mem _ _ _ fun s e => ?_
  split <;> simp

@[simp] theorem State.adopt_mem (s : State) (crew : ℕ) : (State.adopt s crew).mem = s.mem := by simp [State.adopt]

@[simp] theorem Ctx.clearCvt_mem (c : Ctx) (lane : ℕ) (m : Word) (s : State) : (Ctx.clearCvt c lane m s).mem = s.mem := by simp [Ctx.clearCvt]

@[simp] theorem Ctx.forLanes_mem (c : Ctx) (f : ℕ → State → State) (s : State) (h : ∀ l s, (f l s).mem = s.mem) : (c.forLanes f s).mem = s.mem := foldl_mem _ _ _ fun _ _ => h ..

@[simp] theorem Ctx.setSReg_mem (c : Ctx) (n : ℕ) (v : Word) (s : State) : (Ctx.setSReg c n v s).mem = s.mem := by simp [Ctx.setSReg]

@[simp] theorem Ctx.setV32_mem (c : Ctx) (n : ℕ) (lane : ℕ) (v : BitVec 32) (s : State) : (Ctx.setV32 c n lane v s).mem = s.mem := by simp [Ctx.setV32]

@[simp] theorem Ctx.setGReg_mem (c : Ctx) (n : ℕ) (v : Word) (s : State) : (Ctx.setGReg c n v s).mem = s.mem := by simp [Ctx.setGReg]

@[simp] theorem Ctx.write_mem (c : Ctx) (t : Ty) (o : Opd) (lane : ℕ) (v : Word) (s : State) : (Ctx.write c t o lane v s).mem = s.mem := by
  unfold Ctx.write
  repeat' split
  all_goals simp

@[simp] theorem Ctx.putLatch_mem (c : Ctx) (hold : Option (ℕ → Word)) (s : State) : (Ctx.putLatch c hold s).mem = s.mem := by
  unfold Ctx.putLatch
  split <;> simp

@[simp] theorem Ctx.issued_mem (c : Ctx) (s : State) : (Ctx.issued c s).mem = s.mem := by simp [Ctx.issued]

@[simp] theorem Ctx.holdRaise_mem (c : Ctx) : (Ctx.holdRaise c).mem = c.s0.mem := by simp [Ctx.holdRaise]

@[simp] theorem State.drawWords_mem (s : State) (n : ℕ) : (State.drawWords s n).2.mem = s.mem := by
  induction n generalizing s with
  | zero => rfl
  | succ n ih => simp [State.drawWords, ih]

@[simp] theorem State.pickSlot_mem (s : State) (c : Crew) : (State.pickSlot s c).2.mem = s.mem := by
  unfold State.pickSlot
  split <;> simp

@[simp] theorem State.holdFault_mem (s : State) (die : ℕ) (w : Who) (r : RecInfo) : (State.holdFault s die w r).mem = s.mem := by simp [State.holdFault]

@[simp] theorem State.pageFault_mem (s : State) (crew : ℕ) (sid : Sid) (pid : ℕ) (w : Who) (r : RecInfo) : (State.pageFault s crew sid pid w r).mem = s.mem := by
  unfold State.pageFault
  split
  · rfl
  · split
    · simp
    · next c _ _ _ =>
      have hp := s.pickSlot_mem c
      split <;> next h =>
        rw [h] at hp
        rw [State.holdFault_mem, State.modPath_mem, State.modCrew_mem, ← hp]

@[simp] theorem State.removeCrew_mem (s : State) (id : ℕ) : (State.removeCrew s id).mem = s.mem := by simp [State.removeCrew]

@[simp] theorem State.portRoom_mem (s : State) (port : ℕ) : (State.portRoom s port).2.mem = s.mem := by
  unfold State.portRoom
  split
  · rfl
  · refine foldl_mem _ _ _ fun s m => ?_
    dsimp only
    split <;> simp

@[simp] theorem State.joinMay_mem (s : State) (port : ℕ) (die : ℕ) (crew : ℕ) (sid : Option Sid) (lane : ℕ) : (State.joinMay s port die crew sid lane).2.mem = s.mem := by
  unfold State.joinMay
  split <;> simp

@[simp] theorem State.served_mem (s : State) (crew : ℕ) (sid : Option Sid) (lane : ℕ) : (State.served s crew sid lane).mem = s.mem := by simp [State.served]

@[simp] theorem State.refused_mem (s : State) (port : ℕ) (die : ℕ) (crew : ℕ) (sid : Option Sid) (lane : ℕ) : (State.refused s port die crew sid lane).mem = s.mem := by simp [State.refused]

@[simp] theorem Ctx.link_mem (c : Ctx) (d : Opd) (a : State) : (Ctx.link c d a).mem = a.mem := by simp [Ctx.link]

@[simp] theorem State.tally_mem (s : State) (c : CoreId) : (State.tally s c).mem = s.mem := by
  unfold State.tally
  split <;> simp

@[simp] theorem Ctx.newEntry_mem (c : Ctx) (s : State) (logged : Bool) (lanes : List ℕ) (src : ℕ → List Word) (k : Counts) : (Ctx.newEntry c s logged lanes src k).2.mem = s.mem := by simp [Ctx.newEntry]

@[simp] theorem State.sample_mem (s : State) (c : Ctx) (id : ℕ) (ls : List ℕ) (ea : ℕ → Word) : (State.sample s c id ls ea).mem = s.mem := by
  unfold State.sample
  split <;> simp

@[simp] theorem State.setPred_mem (s : State) (crew : ℕ) (sid : Sid) (lane : ℕ) (k : ℕ) (v : Bool) : (State.setPred s crew sid lane k v).mem = s.mem := by
  unfold State.setPred
  repeat' split
  all_goals simp

@[simp] theorem Ctx.setPred_mem (c : Ctx) (f : PField) (lane : ℕ) (v : Bool) (s : State) : (Ctx.setPred c f lane v s).mem = s.mem := by simp [Ctx.setPred]

@[simp] theorem State.drawError_mem (s : State) : (State.drawError s).2.mem = s.mem := by simp [State.drawError]

@[simp] theorem State.padWritten_mem (s : State) (crew : ℕ) (r : ℕ) (k : ℕ) (n : ℕ) : (State.padWritten s crew r k n).mem = s.mem := by simp [State.padWritten]

@[simp] theorem State.dropMsg_mem (s : State) (id : ℕ) : (State.dropMsg s id).mem = s.mem := by simp [State.dropMsg]

@[simp] theorem State.lastLane_mem (s : State) (crew : ℕ) (sid : Sid) (e : Entry) (l : ℕ) : (State.lastLane s crew sid e l).mem = s.mem := by simp [State.lastLane]

@[simp] theorem State.sampleLast_mem (s : State) (m : Msg) (acts : List Act) : (State.sampleLast s m acts).mem = s.mem := by
  unfold State.sampleLast
  split <;> simp

@[simp] theorem State.counterWrite_mem (s : State) (die : ℕ) (off : ℕ) (v : Word) : (State.counterWrite s die off v).mem = s.mem := by
  unfold State.counterWrite
  split <;> simp

@[simp] theorem State.writeCounter_mem (s : State) (secure : Bool) (die : ℕ) (off : ℕ) (v : Word) : (State.writeCounter s secure die off v).mem = s.mem := by
  unfold State.writeCounter
  split <;> simp

@[simp] theorem State.modMsg_mem (s : State) (id : ℕ) (f : Msg → Msg) : (State.modMsg s id f).mem = s.mem := by simp [State.modMsg]

@[simp] theorem State.answer_mem (s : State) (id : ℕ) (f : Msg → Msg) : (State.answer s id f).mem = s.mem := by
  unfold State.answer
  repeat' split
  all_goals simp

@[simp] theorem State.sampleSectors_mem (s : State) (m : Msg) : (State.sampleSectors s m).mem = s.mem := by
  unfold State.sampleSectors
  split <;> simp

@[simp] theorem State.writeBack_mem (s : State) (p : Point) (line : ℕ) (gone : Bool) : (State.writeBack s p line gone).mem = s.mem := by
  unfold State.writeBack
  dsimp only
  repeat' split
  all_goals simp

@[simp] theorem Ctx.writeGroupFrom_mem (c : Ctx) (k : ℕ) (lane : ℕ) (l : List (BitVec 32)) (s : State) : (Ctx.writeGroupFrom c k lane l s).mem = s.mem := by
  induction l generalizing s k with
  | nil => rfl
  | cons v l ih => rw [Ctx.writeGroupFrom, ih, Ctx.setV32_mem]

@[simp] theorem Ctx.writeGroup_mem (c : Ctx) (o : Opd) (lane : ℕ) (l : List (BitVec 32)) (s : State) : (Ctx.writeGroup c o lane l s).mem = s.mem := by
  unfold Ctx.writeGroup
  split <;> simp

@[simp] theorem Ctx.putGroup_mem (c : Ctx) (t : Ty) (z : Size) (d : Opd) (l : ℕ) (v : ℕ) (s : State) : (Ctx.putGroup c t z d l v s).mem = s.mem := by
  unfold Ctx.putGroup
  split <;> simp

@[simp] theorem State.modQueue_mem (s : State) (q : ℕ) (f : Queue → Queue) : (State.modQueue s q f).mem = s.mem := by simp [State.modQueue]

@[simp] theorem State.resumeAs_mem (s : State) (core : CoreId) (crew : ℕ) (t : Team) (i : ℕ) (mode : Resume) (m : Mma) : (State.resumeAs s core crew t i mode m).2.mem = s.mem := by
  cases mode with
  | cont => exact rfl
  | wide =>
    unfold State.resumeAs
    dsimp only
    split
    · exact (State.modTeam_mem ..).trans (State.putElems_mem ..)
    · exact rfl
  | restart =>
    exact (State.modTeam_mem ..).trans ((State.modTeam_mem ..).trans (State.putElems_mem ..))

@[simp] theorem State.setShare_mem (s : State) (c : Crew) (sid : Sid) (lane : ℕ) (l : List Byte) : (State.setShare s c sid lane l).mem = s.mem := by simp [State.setShare]

@[simp] theorem State.postSpill_mem (s : State) (c : Crew) (sid : Sid) (lane : ℕ) (f : Leaf) (bytes : List Byte) : (State.postSpill s c sid lane f bytes).mem = s.mem := by simp [State.postSpill]

@[simp] theorem State.postSpills_mem (s : State) (c : Crew) (sid : Sid) (lane : ℕ) (l : List (Leaf × ℕ)) (bytes : List Byte) : (State.postSpills s c sid lane l bytes).mem = s.mem := by
  induction l generalizing s bytes with
  | nil => rfl
  | cons x l ih => rw [State.postSpills, ih, State.postSpill_mem]

@[simp] theorem State.tbWritten_mem (s : State) (crew : ℕ) (q : ℕ × ℕ) : (State.tbWritten s crew q).mem = s.mem := by simp [State.tbWritten]

@[simp] theorem State.tbPut_mem (s : State) (crew : ℕ) (r : ℕ) (off : ℕ) (b : Tb) : (State.tbPut s crew r off b).mem = s.mem := by simp [State.tbPut]

@[simp] theorem Ctx.wrote_mem (c : Ctx) (t : Ty) (d : Opd) (v : ℕ → ℕ) (s : State) : (Ctx.wrote c t d v s).mem = s.mem := by simp [Ctx.wrote]

@[simp] theorem Ctx.wrotePred_mem (c : Ctx) (d : PField) (v : ℕ → Bool) (s : State) : (Ctx.wrotePred c d v s).mem = s.mem := by simp [Ctx.wrotePred]

@[simp] theorem State.endChan_mem (s : State) (die : ℕ) (cluster : ℕ) (chan : ℕ) (tmpl : ℕ) (ecode : ℕ) (flags : BitVec 7) (secure : Bool) : (State.endChan s die cluster chan tmpl ecode flags secure).mem = s.mem := by simp [State.endChan]

@[simp] theorem State.offerEntry_mem (s : State) (t : Strand) (o : Offer) : (State.offerEntry s t o).2.mem = s.mem := by
  unfold State.offerEntry
  split <;> simp

@[simp] theorem State.takeCmd_mem (s : State) (t : Strand) (o : Offer) (k : Cmd) : (State.takeCmd s t o k).mem = s.mem := by simp [State.takeCmd]

@[simp] theorem State.placePin_mem (s : State) (h : PinHolder) (l : Leaf) (away : Bool) : (State.placePin s h l away).mem = s.mem := by
  unfold State.placePin
  split <;> simp

@[simp] theorem State.pinLines_mem (s : State) (h : PinHolder) (l : List Leaf) : ∀ u, (State.pinLines s h l) = some u → u.mem = s.mem := by
  induction l generalizing s with
  | nil => intro u h; cases h; rfl
  | cons f l ih =>
    intro u hu
    unfold State.pinLines at hu
    split at hu
    · exact ih _ _ hu
    · split at hu
      · cases hu
      · rw [ih _ _ hu, State.placePin_mem]

@[simp] theorem State.measure_mem (s : State) (r : List Byte) (d : List Byte) : (State.measure s r d).mem = s.mem := by simp [State.measure]

@[simp] theorem State.clearRegs_mem (s : State) (core : CoreId) (lo : ℕ) (n : ℕ) : (State.clearRegs s core lo n).mem = s.mem := by simp [State.clearRegs]

@[simp] theorem State.placeAcquire_mem (s : State) (c : Crew) : (State.placeAcquire s c).mem = s.mem := by simp [State.placeAcquire, foldl_mem]

@[simp] theorem State.tbArrive_mem (s : State) (crew : ℕ) (r : ℕ) (off : ℕ) : ∀ u, (State.tbArrive s crew r off) = some u → u.mem = s.mem := by
  unfold State.tbArrive
  dsimp only
  repeat' split
  all_goals simp

@[simp] theorem State.modCmd_mem (s : State) (id : ℕ) (f : Cmd → Cmd) : (State.modCmd s id f).mem = s.mem := by simp [State.modCmd]

@[simp] theorem State.barrierFault_mem (s : State) (k : Cmd) (r : ℕ) : (State.barrierFault s k r).mem = s.mem := by simp [State.barrierFault]

@[simp] theorem State.arriveAll_mem (s : State) (k : Cmd) : (State.arriveAll s k).mem = s.mem := by
  unfold State.arriveAll
  split
  · rfl
  · refine foldl_mem _ _ _ fun s r => ?_
    split
    · rfl
    · split
      · next h => rw [State.tbWritten_mem, s.tbArrive_mem _ _ _ _ h]
      · simp

@[simp] theorem State.copyFor_mem (s : State) (p : Point) (line : ℕ) (c : CoreId) (team : Option (ℕ × ℕ)) : (State.copyFor s p line c team).mem = s.mem := by
  unfold State.copyFor
  dsimp only
  repeat' split
  all_goals simp

@[simp] theorem State.fetched_mem (s : State) (c : CoreId) (l : Leaf) : (State.fetched s c l).mem = s.mem := by
  unfold State.fetched
  split <;> simp

@[simp] theorem State.fetch_mem (s : State) (c : CoreId) (asid : BitVec 16) (secure : Bool) (va : Word) : (State.fetch s c asid secure va).2.mem = s.mem := by
  have ht := s.translate_mem asid secure .fetch va
  unfold State.fetch
  split
  · next h => rw [h] at ht; exact ht
  · next h =>
    rw [h] at ht
    rw [← ht]
    dsimp only
    repeat' split
    all_goals simp

@[simp] theorem State.pathWord_mem (s : State) (c : Crew) (sid : Sid) (t : Strand) (p : Path) (a : Word) : (State.pathWord s c sid t p a).2.mem = s.mem := by
  unfold State.pathWord
  split <;> simp

@[simp] theorem State.pathWords_mem (s : State) (c : Crew) (sid : Sid) (t : Strand) (p : Path) (a : Word) (n : ℕ) : (State.pathWords s c sid t p a n).2.mem = s.mem := by
  induction n generalizing s a with
  | zero => rfl
  | succ n ih =>
    have hw := s.pathWord_mem c sid t p a
    unfold State.pathWords
    split
    · next h => rw [h] at hw; exact hw
    · next h => rw [h] at hw; exact (ih ..).trans hw

@[simp] theorem State.buffer_mem (s : State) (c : Crew) (sid : Sid) (t : Strand) (p : Path) (l : List (Word × Word)) : (State.buffer s c sid t p l).mem = s.mem := by
  unfold State.buffer
  split <;> simp

@[simp] theorem State.atFarSide_mem (s : State) (k : Cmd) (p : Point) (f : State → State) (h : ∀ s, (f s).mem = s.mem) : (s.atFarSide k p f).mem = s.mem := by
  unfold State.atFarSide
  repeat' split
  all_goals simp [h]

@[simp] theorem State.putOp_mem (s : State) (crew : ℕ) (r : ℕ) (o : TileOp) (m : Mma) : (State.putOp s crew r o m).mem = s.mem := by simp [State.putOp]

@[simp] theorem State.beginOps_mem (s : State) (c : Crew) : (State.beginOps s c).mem = s.mem := by
  refine foldl_mem _ _ _ fun s q => ?_
  split
  · split
    · rfl
    · rw [State.putOp_mem, State.startMma_mem]
  · rfl

@[simp] theorem State.cellClock_mem (s : State) (die : ℕ) (block : ℕ) (i : ℕ) (sig : ℕ → ℕ) (outs : List Bool) : (State.cellClock s die block i sig outs).2.mem = s.mem := by
  unfold State.cellClock
  dsimp only
  repeat' split
  all_goals simp

@[simp] theorem State.cellsClock_mem (s : State) (die : ℕ) (block : ℕ) (sig : ℕ → ℕ) (n : ℕ) (outs : List Bool) : (State.cellsClock s die block sig n outs).mem = s.mem := by
  induction n generalizing s outs with
  | zero => rfl
  | succ n ih => simp [State.cellsClock, ih]

@[simp] theorem State.cellClocks_mem (s : State) (die : ℕ) (n : ℕ) : (State.cellClocks s die n).mem = s.mem := by
  induction n generalizing s with
  | zero => rfl
  | succ n ih =>
    rw [State.cellClocks, ih]
    exact foldl_mem _ _ _ fun _ _ => State.cellsClock_mem ..

@[simp] theorem State.failChan_mem (s : State) (k : Cmd) : (State.failChan s k).mem = s.mem := by simp [State.failChan]

@[simp] theorem State.tbSector_mem (s : State) (crew : ℕ) (r : ℕ) (off : ℕ) : ∀ u, (State.tbSector s crew r off) = some u → u.mem = s.mem := by
  unfold State.tbSector
  dsimp only
  repeat' split
  all_goals simp

@[simp] theorem State.countSector_mem (s : State) (k : Cmd) (ranks : List ℕ) : (State.countSector s k ranks).mem = s.mem := by
  unfold State.countSector
  split
  · rfl
  · refine foldl_mem _ _ _ fun s r => ?_
    split
    · rfl
    · split
      · next h => rw [s.tbSector_mem _ _ _ _ h]
      · simp

@[simp] theorem State.clearBins_mem (s : State) (die : ℕ) (off : ℕ) (v : Word) : (State.clearBins s die off v).mem = s.mem := by simp [State.clearBins]

@[simp] theorem State.tick_mem (s : State) (die : ℕ) (n : ℕ) : (State.tick s die n).mem = s.mem := by
  unfold State.tick
  repeat' split
  all_goals simp

@[simp] theorem State.levels_mem (s : State) (die : ℕ) : (State.levels s die).mem = s.mem := by
  unfold State.levels
  dsimp only
  rw [foldl_mem, foldl_mem]
  · intro s c
    split
    · rfl
    · refine foldl_mem _ _ _ fun s sid => ?_
      split
      · rfl
      · refine foldl_mem _ _ _ fun s p => ?_
        repeat' split
        all_goals simp
  · intro s b
    split <;> simp

@[simp] theorem State.clocks_mem (s : State) (die : ℕ) (n : ℕ) : (State.clocks s die n).mem = s.mem := by
  induction n generalizing s with
  | zero => rfl
  | succ n ih => rw [State.clocks, ih, State.tick_mem, State.levels_mem]

@[simp] theorem State.countCore_mem (s : State) (c : CoreId) (i : ℕ) (n : ℕ) : (State.countCore s c i n).mem = s.mem := by
  unfold State.countCore
  split <;> simp

@[simp] theorem State.expand_mem (s : State) (c : CoreId) (cmp : Bool) : (State.expand s c cmp).mem = s.mem := by
  unfold State.expand
  split <;> simp

@[simp] theorem State.coalesced_mem (s : State) (m : Msg) (expand : Bool) : (State.coalesced s m expand).mem = s.mem := by
  unfold State.coalesced
  split <;> simp

@[simp] theorem State.countDrop_mem (s : State) (p : Point) : (State.countDrop s p).mem = s.mem := by
  unfold State.countDrop
  split <;> simp

@[simp] theorem State.cutFetch_mem (s : State) (f : Fetch) : (State.cutFetch s f).mem = s.mem := by
  unfold State.cutFetch
  split <;> simp

@[simp] theorem State.disableQueue_mem (s : State) (q : ℕ) : (State.disableQueue s q).mem = s.mem := by simp [State.disableQueue]

@[simp] theorem State.drawFault_mem (s : State) (c : Crew) (t : Strand) (e : Entry) (l : ℕ) (x : ℕ × ℕ × Bool) : (State.drawFault s c t e l x).mem = s.mem := by simp [State.drawFault]

@[simp] theorem State.movedFor_mem (s : State) (b : By) (entry : ℕ) (f : Leaf) (n : ℕ) : (State.movedFor s b entry f n).mem = s.mem := by
  unfold State.movedFor
  repeat' split
  all_goals simp

@[simp] theorem State.dropOlder_mem (s : State) (c : CoreId) (line : ℕ) (tag : BitVec 32) : (State.dropOlder s c line tag).mem = s.mem := by simp [State.dropOlder]

@[simp] theorem State.fillL1_mem (s : State) (c : CoreId) (line : ℕ) (secure : Bool) (asid : BitVec 16) (sec : BitVec 4) (spec : Bool) (coded : Bool) : (State.fillL1 s c line secure asid sec spec coded).mem = s.mem := by simp [State.fillL1]

@[simp] theorem State.fillIf_mem (s : State) (c : CoreId) (l : Leaf) (secure : Bool) (asid : BitVec 16) (sec : BitVec 4) : (State.fillIf s c l secure asid sec).2.mem = s.mem := by
  unfold State.fillIf
  split <;> simp

@[simp] theorem State.probe_mem (s : State) (c : CoreId) (line : ℕ) (secure : Bool) (need : BitVec 4) : (State.probe s c line secure need).2.mem = s.mem := by simp [State.probe]

@[simp] theorem State.loseL1_mem (s : State) (c : CoreId) (e : L1Entry) : (State.loseL1 s c e).mem = s.mem := by simp [State.loseL1]

@[simp] theorem State.hitL1_mem (s : State) (c : CoreId) (e : L1Entry) (need : BitVec 4) : (State.hitL1 s c e need).mem = s.mem := by simp [State.hitL1]

@[simp] theorem State.dropLine_mem (s : State) (c : CoreId) (line : ℕ) : (State.dropLine s c line).mem = s.mem := by simp [State.dropLine]

@[simp] theorem State.dropSectors_mem (s : State) (c : CoreId) (line : ℕ) (sec : BitVec 4) : (State.dropSectors s c line sec).mem = s.mem := by simp [State.dropSectors]

@[simp] theorem State.queueErr_mem (s : State) (q : ℕ) : (State.queueErr s q).mem = s.mem := by simp [State.queueErr]

@[simp] theorem State.dropSuspended_mem (s : State) (crew : ℕ) : (State.dropSuspended s crew).mem = s.mem := by
  unfold State.dropSuspended
  split
  · rfl
  · exact foldl_mem _ _ _ fun _ _ => State.releaseOp_mem ..

@[simp] theorem State.dropTlb_mem (s : State) (asid : BitVec 16) : (State.dropTlb s asid).mem = s.mem := by simp [State.dropTlb]

@[simp] theorem State.enableQueue_mem (s : State) (q : ℕ) : (State.enableQueue s q).mem = s.mem := by simp [State.enableQueue]

@[simp] theorem State.endFetch_mem (s : State) (f : Fetch) : (State.endFetch s f).mem = s.mem := by
  unfold State.endFetch
  dsimp only
  repeat' split
  all_goals simp

@[simp] theorem State.lehrStart_mem (s : State) (core : CoreId) (crew : ℕ) (t : Team) (o : TileOp) (m : Mma) : (State.lehrStart s core crew t o m).mem = s.mem := by
  rw [State.lehrStart, State.putOp_mem, State.modTeam_mem, State.putElems_mem]

@[simp] theorem State.suspend_mem (s : State) (crew : ℕ) (r : ℕ) (o : TileOp) (m : Mma) : (State.suspend s crew r o m).mem = s.mem := by simp [State.suspend]

@[simp] theorem State.endStep_mem (s : State) (core : CoreId) (crew : ℕ) (t : Team) (o : TileOp) (m : Mma) (y : StepOut) : (State.endStep s core crew t o m y).mem = s.mem := by
  unfold State.endStep
  dsimp only
  repeat' split
  all_goals simp

@[simp] theorem State.exitLanes_mem (s : State) (crew : ℕ) (sid : Sid) (ls : Lanes) : (State.exitLanes s crew sid ls).mem = s.mem := by
  unfold State.exitLanes
  split <;> simp

@[simp] theorem State.fetchWords_mem (s : State) (c : CoreId) (asid : BitVec 16) (secure : Bool) (va : Word) (n : ℕ) : (State.fetchWords s c asid secure va n).2.mem = s.mem := by
  induction n generalizing s va with
  | zero => rfl
  | succ n ih =>
    have hw := s.fetch_mem c asid secure va
    unfold State.fetchWords
    split
    · next h => rw [h] at hw; exact hw
    · next h => rw [h] at hw; exact (ih ..).trans hw

@[simp] theorem State.fillVa_mem (s : State) (core : ℕ) (line : ℕ) (asid : ℕ) (secure : Bool) (sec : BitVec 4) (spec : Bool) : ∀ u, (State.fillVa s core line asid secure sec spec) = some u → u.mem = s.mem := by
  intro u hu
  have ht := s.translate_mem (BitVec.ofNat 16 asid) secure .load (BitVec.ofNat 64 (line * 128))
  unfold State.fillVa at hu
  split at hu
  · next h =>
    rw [h] at ht
    dsimp only at hu
    split at hu
    · cases hu
      rw [State.fillL1_mem, ← ht]
      split <;> simp
    · cases hu
  · cases hu

@[simp] theorem State.logFault_mem (s : State) (crew : ℕ) (sid : Sid) (id : ℕ) (ls : List ℕ) (cause : ℕ) (kind : ℕ) (absent : Bool) : (State.logFault s crew sid id ls cause kind absent).mem = s.mem := by simp [State.logFault]

@[simp] theorem writeResult_mem (cx : Ctx) (i : Instr) (m : Msg) (x : Act) (s : State) : (writeResult cx i m x s).mem = s.mem := by
  unfold writeResult
  repeat' split
  all_goals simp

@[simp] theorem State.flushFails_mem (s : State) (m : Msg) : (State.flushFails s m).mem = s.mem := by
  unfold State.flushFails
  split <;> simp [foldl_mem]

@[simp] theorem State.giveUpSave_mem (s : State) (c : Crew) (v : Saving) : (State.giveUpSave s c v).mem = s.mem := by
  unfold State.giveUpSave
  split <;> simp

@[simp] theorem State.readyPath_mem (s : State) (c : Crew) (sid : Sid) : (State.readyPath s c sid).2.mem = s.mem := by
  unfold State.readyPath
  repeat' split
  all_goals simp

@[simp] theorem State.onQueue_mem (s : State) (who : HostFn) (n : ℕ) (f : ℕ → State) (h : ∀ q, (f q).mem = s.mem) : (s.onQueue who n f).mem = s.mem := by
  unfold State.onQueue
  repeat' split
  all_goals simp [h]

@[simp] theorem State.writeTail_mem (s : State) (q : ℕ) (v : BitVec 32) : (State.writeTail s q v).mem = s.mem := by simp [State.writeTail]

@[simp] theorem State.resumeSlot_mem (s : State) (q : ℕ) (slot : ℕ) : (State.resumeSlot s q slot).mem = s.mem := by
  unfold State.resumeSlot
  split
  · rfl
  · simp [foldl_mem]

@[simp] theorem State.startInval_mem (s : State) (asid : BitVec 16) : (State.startInval s asid).mem = s.mem := by simp [State.startInval]

@[simp] theorem State.writePackage_mem (s : State) (who : HostFn) (off : ℕ) (v : Word) : (State.writePackage s who off v).mem = s.mem := by
  unfold State.writePackage
  repeat' split
  all_goals simp

@[simp] theorem State.writeRing_mem (s : State) (who : HostFn) (i : ℕ) (off : ℕ) (v : Word) : (State.writeRing s who i off v).mem = s.mem := by
  unfold State.writeRing
  split <;> simp

@[simp] theorem State.writeGroup_mem (s : State) (die : ℕ) (g : ℕ) (second : Bool) (v : Word) : (State.writeGroup s die g second v).mem = s.mem := by simp [State.writeGroup]

@[simp] theorem State.writeCell_mem (s : State) (die : ℕ) (off : ℕ) (v : Word) : (State.writeCell s die off v).mem = s.mem := by simp [State.writeCell]

@[simp] theorem State.install_mem (s : State) (nbits : ℕ) (w : ℕ) : (State.install s nbits w).mem = s.mem := by simp [State.install]

@[simp] theorem State.keepShare_mem (s : State) (c : Crew) (sid : Sid) (e : Entry) (l : ℕ) (call : Bool) : (State.keepShare s c sid e l call).mem = s.mem := by simp [State.keepShare]

@[simp] theorem State.loadOp_mem (s : State) (crew : ℕ) (l : List Byte) : (State.loadOp s crew l).mem = s.mem := by
  unfold State.loadOp
  dsimp only
  repeat' split
  all_goals simp

@[simp] theorem State.loadRegs_mem (s : State) (d : Desc) (t : Team) (core : CoreId) (m : Image) : (State.loadRegs s d t core m).mem = s.mem := by
  unfold State.loadRegs
  repeat' split
  all_goals simp [foldl_mem]

@[simp] theorem State.markSent_mem (s : State) (c : Crew) (t : Strand) (e : Entry) (ls : List ℕ) : (State.markSent s c t e ls).mem = s.mem := by simp [State.markSent]

@[simp] theorem State.pass_mem (s : State) (die : ℕ) (n : ℕ) : (State.pass s die n).mem = s.mem := by
  unfold State.pass
  repeat' split
  all_goals simp

@[simp] theorem State.place_mem (s : State) (asid : BitVec 16) (secure : Bool) (store : Bool) (va : ℕ) : (State.place s asid secure store va).2.mem = s.mem := by
  have ht := s.translate_mem asid secure (if store then .store else .load) (BitVec.ofNat 64 va)
  unfold State.place
  split <;> next h => rw [h] at ht; exact ht

@[simp] theorem State.preempt_mem (s : State) (w : Want) (die : ℕ) (cluster : ℕ) (vs : List Crew) : (State.preempt s w die cluster vs).mem = s.mem := by
  refine foldl_mem _ _ _ fun s c => ?_
  have hp := s.pickSlot_mem c
  split
  · next h => rw [h] at hp; exact (State.modCrew_mem ..).trans hp
  · next h => rw [h] at hp; exact hp

@[simp] theorem State.putReg_mem (s : State) (c : CoreId) (t : Team) (addr : ℕ) (l : List Byte) : (State.putReg s c t addr l).mem = s.mem := by
  unfold State.putReg
  repeat' split
  all_goals simp

@[simp] theorem State.readPad_mem (s : State) (m : Msg) (crew : ℕ) (r : ℕ) : (State.readPad s m crew r).mem = s.mem := by
  unfold State.readPad
  split <;> simp

@[simp] theorem State.readPin_mem (s : State) (m : Msg) : (State.readPin s m).mem = s.mem := by
  unfold State.readPin
  dsimp only
  repeat' split
  all_goals simp

@[simp] theorem State.readVa_mem (s : State) (asid : BitVec 16) (secure : Bool) (va : ℕ) (n : ℕ) : (State.readVa s asid secure va n).2.mem = s.mem := by
  induction n generalizing s va with
  | zero => rfl
  | succ n ih =>
    have hp := s.place_mem asid secure false va
    unfold State.readVa
    split
    · next h => rw [h] at hp; exact hp
    · next u h =>
      rw [h] at hp
      split
      · exact hp
      · have hr := ih u (va + 8)
        dsimp only
        split <;> next h => rw [h] at hr; exact hr.trans hp

@[simp] theorem State.recompute_mem (cx : Ctx) (ty : Ty) (d : Opd) (lane : ℕ) (pc : Word) (pos : ℕ) (key : ℕ) (entry : ℕ) (s : State) : (State.recompute cx ty d lane pc pos key entry s).mem = s.mem := by simp [State.recompute]

@[simp] theorem State.refillFault_mem (s : State) (c : Crew) (sid : Sid) (e : Entry) (l : ℕ) (f : ℕ × ℕ × Bool) : (State.refillFault s c sid e l f).mem = s.mem := by
  unfold State.refillFault
  dsimp only
  repeat' split
  all_goals simp

@[simp] theorem State.refuseMsg_mem (s : State) (m : Msg) : (State.refuseMsg s m).mem = s.mem := by simp [State.refuseMsg, foldl_mem]

@[simp] theorem State.sendAdds_mem (s : State) (c : Crew) (t : Strand) (e : Entry) (l : ℕ) (fs : List (Leaf × ℕ)) : (State.sendAdds s c t e l fs).mem = s.mem := by
  unfold State.sendAdds
  dsimp only
  rw [foldl_mem]
  · simp
  · intro s line
    split
    · rfl
    · rw [State.post_mem]
      exact foldl_mem _ _ _ fun _ _ => State.dropSectors_mem ..

@[simp] theorem State.retireMma_mem (s : State) (crew : ℕ) (r : ℕ) (o : TileOp) (m : Mma) : (State.retireMma s crew r o m).mem = s.mem := by simp [State.retireMma]

@[simp] theorem State.saveBegun_mem (s : State) (c : Crew) : (State.saveBegun s c).mem = s.mem := by simp [State.saveBegun]

@[simp] theorem State.sendFlushAll_mem (s : State) (c : Crew) (t : Strand) (e : Entry) (ls : List ℕ) : (State.sendFlushAll s c t e ls).mem = s.mem := by simp [State.sendFlushAll, foldl_mem]

@[simp] theorem State.sendPad_mem (s : State) (c : Crew) (t : Strand) (e : Entry) (i : Instr) (k : MsgKind) (r : ℕ) (ls : List ℕ) : (State.sendPad s c t e i k r ls).mem = s.mem := by simp [State.sendPad]

@[simp] theorem State.spendSlot_mem (s : State) (die : ℕ) (k : ℕ × ℕ × ℕ) : (State.spendSlot s die k).mem = s.mem := by simp [State.spendSlot]

@[simp] theorem State.stepMma_mem (s : State) (c : Crew) (r : ℕ) (o : TileOp) (m : Mma) : (State.stepMma s c r o m).mem = s.mem := by
  unfold State.stepMma
  dsimp only
  repeat' split
  all_goals simp

@[simp] theorem State.useSlot_mem (s : State) (die : ℕ) (k : ℕ × ℕ × ℕ) : (State.useSlot s die k).mem = s.mem := by
  unfold State.useSlot
  split <;> simp

@[simp] theorem State.withFetchWord_mem (s : State) (nbits : ℕ) (w : ℕ) : (State.withFetchWord s nbits w).mem = s.mem := by simp [State.withFetchWord]

@[simp] theorem State.withheld_mem (s : State) (die : ℕ) : (State.withheld s die).2.mem = s.mem := by
  unfold State.withheld
  dsimp only
  repeat' split
  all_goals simp

@[simp] theorem arriveLane_mem (c : Ctx) (a : Opd) (q : State × List LaneFault) (l : ℕ) : (arriveLane c a q l).1.mem = q.1.mem := by
  unfold arriveLane
  split
  · rfl
  · split
    · next h => rw [q.1.tbArrive_mem _ _ _ _ h]
    · rfl

end Sys2Proof.Machine
end

section
/-! The lanes of a word, what its constants and special registers read as, what a step runs, and what reset leaves. -/

namespace Sys2Proof.Machine

/-! ### Sets of lanes -/

theorem lanesFrom_getLsbD (L : List Nat) (k : Nat) : (lanesFrom L).getLsbD k = (decide (k < 32) && decide (k ∈ L)) := by
  have h : ∀ m : Lanes, (L.foldl (fun m k => m ||| (1#32 <<< k)) m).getLsbD k = (m.getLsbD k || (decide (k < 32) && decide (k ∈ L))) := by
    induction L with
    | nil => simp
    | cons x L ih =>
      intro m
      have hbit : (1#32 <<< x).getLsbD k = (decide (k < 32) && decide (k = x)) := by
        rw [BitVec.getLsbD_shiftLeft, BitVec.getLsbD_one]
        by_cases hx : k = x
        · simp [hx]
        · simp only [hx, decide_false, Bool.and_false, Bool.and_eq_false_iff, decide_eq_false_iff_not, Bool.not_eq_false', decide_eq_true_eq]
          omega
      rw [List.foldl_cons, ih, BitVec.getLsbD_or, hbit, Bool.or_assoc, ← Bool.and_or_distrib_left]
      simp
  rw [lanesFrom, h]; simp

@[simp] theorem lanesWhere_getLsbD (p : Nat → Bool) (k : Nat) : (lanesWhere p).getLsbD k = (decide (k < 32) && p k) := by
  rw [lanesWhere, lanesFrom_getLsbD]
  by_cases hk : k < 32 <;> simp [hk]

@[simp] theorem mem_lanesOf {m : Lanes} {l : Nat} : l ∈ lanesOf m ↔ m.getLsbD l = true := by
  simp only [lanesOf, List.mem_filter, List.mem_range, and_iff_right_iff_imp]
  exact BitVec.lt_of_getLsbD

/-- Settles O8: the guarded lanes are given by the guard bit of each issuing lane. -/
theorem guardedLanes : Obligations.GuardedLanes := by
  unfold Obligations.GuardedLanes
  intro s c p hc honly l hl
  obtain ⟨-, -, -, -, -, -, -, -, -, hlanes, hact⟩ := ctx_eq hc
  rw [honly] at hlanes
  have hbit : c.act.getLsbD l = (c.path.lanes.getLsbD l && ((predBits c.crew c.sid c.t l).getLsbD p.pg.toNat != p.pn)) := by
    rw [hact, lanesWhere_getLsbD, hlanes, guardBit]
    simp only [hl, decide_true, Bool.true_and]
  refine ⟨hbit, fun hg hn => ?_⟩
  rw [hbit, hg, hn]
  simpa using fun _ => predBits_p15 ..

/-! ### A step -/

/-- The surroundings of a word for one guard are those for another, but for the lanes that it acts in. -/
theorem ctx?_act {s : State} {p : Pre} {c : Ctx} (q : Pre) (h : s.ctx? p = some c) : ∃ m, s.ctx? q = some { c with act := m } := by
  unfold State.ctx? at h ⊢
  split at h
  · cases h
  · split at h
    · split at h
      · cases h
      · split at h
        · cases h
        · split at h
          · cases h
          · cases h
            exact ⟨_, rfl⟩
    · cases h

/-- Settles O54: the guard of the decoded word changes only the lanes that it acts in. -/
theorem stepRunsDecoded : Obligations.StepRunsDecoded := by
  unfold Obligations.StepRunsDecoded
  refine ⟨fun s c i hc hd => ?_, fun s i l hs ha hw => ⟨s.popAgenda i, ?_, ?_, ?_⟩, fun s hs ha => ?_⟩
  · obtain ⟨-, -, -, -, -, -, hword, haddr, -⟩ := ctx_eq hc
    obtain ⟨m, hm⟩ := ctx?_act ⟨15, false, 0⟩ hc
    exact ⟨step_word hm hd, hword, haddr⟩
  · simp [step, hs, ha, hw]
  · simp [State.popAgenda, ha]
  · simp [State.popAgenda]
  · simp [step, hs, ha]

/-! ### Reset -/

/-- Settles O55: every die of the reset state is `Die.reset`. -/
theorem resetValues : Obligations.ResetValues := by
  unfold Obligations.ResetValues
  have hd : ∀ d, State.reset.die d = Die.reset := by
    intro d
    simp only [State.die, State.reset, List.getD_eq_getElem?_getD, List.getElem?_replicate]
    split <;> rfl
  refine ⟨fun q => ⟨rfl, rfl, rfl, rfl, rfl, rfl, rfl, rfl, rfl, rfl, rfl, rfl, rfl, rfl, rfl, rfl, rfl⟩, fun d _ => ?_, rfl, rfl, rfl, fun _ => rfl, rfl, rfl⟩
  rw [State.clk, hd]
  refine ⟨by decide, by decide, rfl, fun g => ?_⟩
  rw [State.group, hd]; rfl

/-! ### Special registers (R100) -/

/-- Under `n32` a special register reads as its low 32 bits. -/
theorem Ctx.rd_special_n32 (c : Ctx) (k : BitVec 8) (l : Nat) (hk : 3 ≤ k.toNat) : c.rd .n32 (.x k) l = (c.special k.toNat l).toNat % 2 ^ 32 := by
  rw [Ctx.rd, Ctx.read, if_neg (by omega), Ctx.cut_n32, BitVec.toNat_ofNat]
  omega

theorem Ctx.read_special_n64 (c : Ctx) (k : BitVec 8) (l : Nat) (hk : 3 ≤ k.toNat) : c.read .n64 (.x k) l = c.special k.toNat l := by
  rw [Ctx.read, if_neg (by omega), Ctx.cut_n64]

/-- A special register that holds a number reads as it under `n32`. -/
theorem Ctx.rd_special_ofNat (c : Ctx) (k : BitVec 8) (l : Nat) {n : Nat} (hk : 3 ≤ k.toNat) (h : c.special k.toNat l = BitVec.ofNat 64 n) :
    c.rd .n32 (.x k) l = n % 2 ^ 32 := by
  rw [c.rd_special_n32 k l hk, h, BitVec.toNat_ofNat]
  omega

/-- The stream of the surroundings is its crew's. -/
theorem ctx_strand {s : State} {p : Pre} {c : Ctx} (h : s.ctx? p = some c) : c.crew.strand? c.sid = some c.t := by
  obtain ⟨-, -, hcrew, hstrand, -⟩ := ctx_eq h
  rwa [State.strand?, hcrew] at hstrand

theorem toNat_signExtend_const : ∀ k : BitVec 8, constVal .i64 k = k.signExtend 64 ∧ constVal .i32 k = (k.signExtend 32).setWidth 64 := by
  decide +kernel

/-- Outside a producer, a thread's predicates read as p0 to p14 below a 1 for p15. -/
theorem toNat_predBits (c : Crew) {sid : Sid} (t : Strand) (l : Nat) (hsid : ∀ r, sid ≠ .producer r) :
    (predBits c sid t l).toNat = (t.thread l).pred.toNat + 2 ^ 15 := by
  have happ (p : BitVec 15) : (1#1 ++ p : BitVec 16).toNat = p.toNat + 2 ^ 15 := by
    rw [BitVec.toNat_append, ← Nat.shiftLeft_add_eq_or_of_lt p.isLt]
    simp; omega
  cases sid with
  | wave _ _ => exact happ _
  | gaffer => exact happ _
  | producer r => exact absurd rfl (hsid r)

/-- Settles O19: each register by its row of R100. -/
theorem specialRegisters : Obligations.SpecialRegisters := by
  unfold Obligations.SpecialRegisters
  intro s c p l hc hl
  obtain ⟨hs0, -, -, -, -, -, -, -, hhnd, -, -⟩ := ctx_eq hc
  have hH : c.inH = c.t.intr.isSome := hhnd
  have hread (k : BitVec 8) (hk : 3 ≤ k.toNat) := c.read_special_n64 k l hk
  have hnum {n : Nat} (k : BitVec 8) (hk : 3 ≤ k.toNat) (h : c.special k.toNat l = BitVec.ofNat 64 n) := c.rd_special_ofNat k l hk h
  refine ⟨toNat_signExtend_const, fun hP => ⟨?_, ?_, ?_⟩, fun hP => ⟨?_, ?_, ?_, ?_⟩, hnum 26 (by decide) rfl, hnum 27 (by decide) rfl,
    ?_, hread 31 (by decide), hread 33 (by decide), hread 32 (by decide), hnum 18 (by decide) rfl, hnum 19 (by decide) rfl, hnum 20 (by decide) rfl,
    hnum 21 (by decide) rfl, hnum 22 (by decide) rfl, ?_, fun hP => ?_, fun r w hw => ?_, fun hP => ?_, fun tm htm => ⟨?_, ?_, ?_⟩, hread 36 (by decide), ?_,
    fun hG => hnum 39 (by decide) rfl, fun k hk => ?_, fun hi k hk => ?_, fun hi => ⟨?_, ?_, ?_, ?_⟩⟩
  · rw [hnum 16 (by decide) (n := l) (by simp [Ctx.special, hP]), Nat.mod_eq_of_lt (by omega)]
  · exact hnum 17 (by decide) (by simp [Ctx.special, hP])
  · rw [hnum 28 (by decide) (n := c.path.lanes.toNat) (by simp [Ctx.special, hP]), Nat.mod_eq_of_lt c.path.lanes.isLt]
  · exact hnum (n := 0) 16 (by decide) (by simp [Ctx.special, hP])
  · exact hnum (n := 0) 17 (by decide) (by simp [Ctx.special, hP])
  · exact hnum (n := 0) 24 (by decide) (by simp [Ctx.special, hP])
  · exact hnum (n := 1) 28 (by decide) (by simp [Ctx.special, hP])
  · rw [hread 30 (by decide), ← hs0]; rfl
  · rw [hnum 23 (by decide) rfl, wfld, fld, Nat.mod_mod, show 2 ^ 5 = 32 from rfl]
  · exact hnum 24 (by decide) (by simp [Ctx.special, hP])
  · have hst := ctx_strand hc
    have hcore : c.crew.coreOf (.wave r w) = c.core := by rw [← hw]; rfl
    rw [hw] at hst
    have hglane : c.crew.glane c.sid l
        = c.crew.die % 4 * 2 ^ 18 + c.crew.cluster % 64 * 2 ^ 12 + c.core.core % 4 * 2 ^ 10 + c.t.slot % 32 * 2 ^ 5 + l := by
      rw [hw, Crew.glane, hst, hcore, glaneOf, Nat.mod_eq_of_lt hl]
      rfl
    rw [hnum 25 (by decide) rfl, hglane]
    exact Nat.mod_eq_of_lt (by omega)
  · rw [hnum 29 (by decide) rfl]
    have hp : (predBits c.crew c.sid c.t l).toNat = (c.t.thread l).pred.toNat + 2 ^ 15 := toNat_predBits c.crew c.t l (Ctx.sid_ne_producer hP)
    rw [hp, Nat.mod_eq_of_lt (by omega)]
  · rw [hread 34 (by decide)]
    simp [Ctx.special, htm, Crew.w0]
  · rw [hread 35 (by decide)]
    simp [Ctx.special, htm, Team.w1]
  · rw [hread 37 (by decide)]
    simp [Ctx.special, htm, Crew.w3, Crew.w3Limit]
  · rw [hnum 38 (by decide) rfl, Nat.mod_eq_of_lt (by omega)]
  · rw [hread k (by omega), Ctx.read, if_neg (by omega), Ctx.cut_n32]
    exact BitVec.eq_of_toNat_eq (by simp)
  · have hin : c.inH = false := by rw [hH, hi]; rfl
    simp only [List.mem_cons, List.not_mem_nil, or_false] at hk
    rcases hk with rfl | rfl | rfl | rfl <;> (rw [hread _ (by decide)]; simp [Ctx.special, hin])
  all_goals have hin : c.inH = true := by rw [hH]; exact Option.isSome_iff_ne_none.mpr hi
  · rw [hnum 40 (by decide) (n := c.t.trap.cause.toNat) (by simp [Ctx.special, hin]), Nat.mod_eq_of_lt (by omega)]
  · rw [hnum 41 (by decide) (n := c.t.trap.mask.toNat) (by simp [Ctx.special, hin]), Nat.mod_eq_of_lt (by omega)]
  · rw [hread 42 (by decide)]
    simp [Ctx.special, hin]
  · rw [hread 43 (by decide)]
    simp [Ctx.special, hin]

end Sys2Proof.Machine
end

section
/-! Integer, bit, move and predicate words (R128 to R143): each completes with its row's result in each guarded lane. -/

namespace Sys2Proof.Machine

/-! ### From a body to what the word leaves -/

theorem Issues.leaves_word {i : Instr} {s : State} {c : Ctx} (h : Issues s i c) {body : Ctx → Out} {e : State → State}
    (hb : body c = .done (e c.s0)) : Leaves (word i s body) (e s) := by
  rw [(ctx_eq h.slot).1] at hb
  exact word_done h hb

/-- A word of the common loop of R129 writes its function of the lane in each guarded lane. -/
theorem Issues.leaves_map {i : Instr} {s : State} {c : Ctx} (h : Issues s i c) {body : Ctx → Out} {t : Ty} {d : Opd} {f : Nat → Nat}
    (hb : body c = c.map t d f) : Leaves (word i s body) (c.wrote t d f s) := h.leaves_word hb

theorem Issues.leaves_mapPred {i : Instr} {s : State} {c : Ctx} (h : Issues s i c) {body : Ctx → Out} {d : PField} {f : Nat → Bool}
    (hb : body c = c.mapPred d f) : Leaves (word i s body) (c.wrotePred d f s) := h.leaves_word hb

/-! ### Elements (R129) -/

theorem ebits_pos (t : Ty) : 0 < t.ebits := by cases t <;> decide

theorem fld_lt (w lo len : Nat) : fld w lo len < 2 ^ len := Nat.mod_lt _ (by positivity)

theorem fld_testBit (w lo len k : Nat) : (fld w lo len).testBit k = (decide (k < len) && w.testBit (lo + k)) := by
  rw [fld, Nat.testBit_mod_two_pow, Nat.testBit_div_two_pow, Nat.add_comm]

/-- Elements that fit their fields, joined: the whole fits, and each reads back. -/
theorem sum_elems {e : Nat} {f : Nat → Nat} (hf : ∀ i, f i < 2 ^ e) (n : Nat) :
    ((List.range n).map fun i => f i * 2 ^ (e * i)).sum < 2 ^ (e * n)
      ∧ ∀ i, i < n → fld ((List.range n).map fun i => f i * 2 ^ (e * i)).sum (e * i) e = f i := by
  induction n with
  | zero => simp
  | succ n ih =>
    obtain ⟨hlt, hget⟩ := ih
    rw [List.range_succ, List.map_append, List.sum_append]
    simp only [List.map_cons, List.map_nil, List.sum_cons, List.sum_nil, Nat.add_zero]
    set S := ((List.range n).map fun i => f i * 2 ^ (e * i)).sum
    refine ⟨?_, fun i hi => ?_⟩
    · have := hf n
      rw [Nat.mul_succ, pow_add]
      nlinarith [Nat.two_pow_pos (e * n)]
    · rcases Nat.lt_succ_iff_lt_or_eq.mp hi with hi | rfl
      · rw [← hget i hi]
        have hsplit : 2 ^ (e * n) = 2 ^ (e * i) * 2 ^ e * 2 ^ (e * (n - i - 1)) := by
          rw [← pow_add, ← pow_add]; congr 1
          obtain ⟨k, rfl⟩ := Nat.exists_eq_add_of_lt hi
          have : i + k + 1 - i - 1 = k := by omega
          rw [this]; ring
        rw [fld, fld, hsplit, show f n * (2 ^ (e * i) * 2 ^ e * 2 ^ (e * (n - i - 1))) = 2 ^ (e * i) * (2 ^ e * (f n * 2 ^ (e * (n - i - 1)))) by ring,
          Nat.add_mul_div_left _ _ (by positivity), Nat.add_mul_mod_self_left]
      · rw [fld, Nat.add_mul_div_right _ _ (by positivity), Nat.div_eq_of_lt hlt, Nat.zero_add, Nat.mod_eq_of_lt (hf _)]

theorem joinElems_lt {t : Ty} {f : Nat → Nat} (hf : ∀ i, f i < 2 ^ t.ebits) : joinElems t f < 2 ^ (t.ebits * t.elems) := (sum_elems hf _).1

theorem fld_joinElems {t : Ty} {f : Nat → Nat} (hf : ∀ i, f i < 2 ^ t.ebits) {i : Nat} (hi : i < t.elems) :
    fld (joinElems t f) (t.ebits * i) t.ebits = f i := (sum_elems hf _).2 i hi

theorem joinElems_of_one {t : Ty} (ht : t.elems = 1) (f : Nat → Nat) : joinElems t f = f 0 := by simp [joinElems, ht]

/-- The number that the bits of one element stand for. -/
def bitsVal (t : Ty) (e : Nat) : Int := if t.isSigned then sext t.ebits e else e

theorem elemVal_eq (t : Ty) (x i : Nat) : elemVal t x i = bitsVal t (fld x (t.ebits * i) t.ebits) := rfl

theorem wrapNat_lt (n : Nat) (y : Int) : wrapNat n y < 2 ^ n := by
  have h := Int.emod_lt_of_pos y (show (0 : Int) < (2 ^ n : Nat) by positivity)
  have h0 := Int.emod_nonneg y (show ((2 ^ n : Nat) : Int) ≠ 0 by positivity)
  rw [wrapNat]; omega

theorem wrapNat_natCast (n x : Nat) : wrapNat n x = x % 2 ^ n := by rw [wrapNat]; omega

theorem wrapNat_cast (n : Nat) (y : Int) : (wrapNat n y : Int) = y % (2 ^ n : Nat) :=
  Int.toNat_of_nonneg (Int.emod_nonneg y (by positivity))

/-- The halves of an element's range. -/
theorem two_pow_ebits (t : Ty) : 2 ^ t.ebits = 2 * 2 ^ (t.ebits - 1) := by
  rw [← pow_succ', Nat.sub_add_cancel (ebits_pos t)]

/-- The bits of an element stand for a number in the element's range that they equal modulo 2^e. -/
theorem bitsVal_spec (t : Ty) {e : Nat} (he : e < 2 ^ t.ebits) :
    elemLo t ≤ bitsVal t e ∧ bitsVal t e ≤ elemHi t ∧ ∃ k : Int, bitsVal t e = e + k * (2 ^ t.ebits : Nat) := by
  have h2 := two_pow_ebits t
  rw [bitsVal, elemLo, elemHi, sext, Nat.mod_eq_of_lt he]
  split
  · split
    · exact ⟨by omega, by omega, 0, by omega⟩
    · exact ⟨by omega, by omega, -1, by omega⟩
  · exact ⟨by omega, by omega, 0, by omega⟩

theorem putElem_n32_natCast (x : Nat) : putElem .n32 false x = x % 2 ^ 32 := wrapNat_natCast 32 x

/-- Two numbers of an element's range that are equal modulo 2^e are equal. -/
theorem eq_of_elem_range {t : Ty} {x y k : Int} (hx : elemLo t ≤ x ∧ x ≤ elemHi t) (hy : elemLo t ≤ y ∧ y ≤ elemHi t)
    (h : x = y + k * (2 ^ t.ebits : Nat)) : x = y := by
  have h2 := two_pow_ebits t
  have hk : k = 0 := by
    simp only [elemLo, elemHi] at hx hy
    have hpos : 0 < 2 ^ (t.ebits - 1) := by positivity
    have hd : -((2 ^ t.ebits : Nat) : Int) < x - y ∧ x - y < (2 ^ t.ebits : Nat) := by
      cases hs : t.isSigned <;> simp only [hs, if_true, Bool.false_eq_true, if_false] at hx hy <;> omega
    have hxy : x - y = k * (2 ^ t.ebits : Nat) := by omega
    rw [hxy] at hd
    generalize ((2 ^ t.ebits : Nat) : Int) = M at hd
    nlinarith
  rw [h, hk]; simp

/-- The wrapped bits of a number: the number modulo 2^e, in range. -/
theorem bitsVal_wrapNat (t : Ty) (y : Int) : elemLo t ≤ bitsVal t (wrapNat t.ebits y) ∧ bitsVal t (wrapNat t.ebits y) ≤ elemHi t
    ∧ ∃ k : Int, bitsVal t (wrapNat t.ebits y) = y + k * (2 ^ t.ebits : Nat) := by
  obtain ⟨hlo, hhi, k, hk⟩ := bitsVal_spec t (wrapNat_lt t.ebits y)
  refine ⟨hlo, hhi, k - y / (2 ^ t.ebits : Nat), ?_⟩
  rw [hk, wrapNat_cast, sub_mul]
  have := Int.emod_add_mul_ediv y (2 ^ t.ebits : Nat)
  linarith

/-- A number of the element's range is what its wrapped bits stand for. -/
theorem bitsVal_wrapNat_of_range {t : Ty} {y : Int} (hy : elemLo t ≤ y ∧ y ≤ elemHi t) : bitsVal t (wrapNat t.ebits y) = y := by
  obtain ⟨hlo, hhi, k, hk⟩ := bitsVal_wrapNat t y
  exact eq_of_elem_range ⟨hlo, hhi⟩ hy hk

theorem elemLo_le_elemHi (t : Ty) : elemLo t ≤ elemHi t := by
  rw [elemLo, elemHi]
  split <;> (have := Nat.two_pow_pos t.ebits; have := Nat.two_pow_pos (t.ebits - 1); omega)

theorem putElem_lt (t : Ty) (sat : Bool) (y : Int) : putElem t sat y < 2 ^ t.ebits := by
  simp only [putElem]; split <;> exact wrapNat_lt ..

/-- `Put` gives the exact result clamped, or modulo 2^e (R129). -/
theorem bitsVal_putElem (t : Ty) (sat : Bool) (y : Int) :
    if sat then bitsVal t (putElem t sat y) = max (elemLo t) (min (elemHi t) y)
    else elemLo t ≤ bitsVal t (putElem t sat y) ∧ bitsVal t (putElem t sat y) ≤ elemHi t
      ∧ ∃ k : Int, bitsVal t (putElem t sat y) = y + k * (2 ^ t.ebits : Nat) := by
  cases sat with
  | false => exact bitsVal_wrapNat t y
  | true =>
    have := elemLo_le_elemHi t
    exact bitsVal_wrapNat_of_range (y := max (elemLo t) (min (elemHi t) y)) ⟨by omega, by omega⟩

/-- The loop of R129 holds its exact results, clamped or wrapped. -/
theorem holds_joinElems (t : Ty) (sat : Bool) (y : Nat → Int) : Holds t sat (joinElems t fun i => putElem t sat (y i)) y := by
  have hf : ∀ i, putElem t sat (y i) < 2 ^ t.ebits := fun i => putElem_lt ..
  refine ⟨joinElems_lt hf, fun i hi => ?_⟩
  rw [elemVal_eq, fld_joinElems hf hi]
  exact bitsVal_putElem t sat (y i)

theorem holds_putElem {t : Ty} (ht : t.elems = 1) (sat : Bool) (y : Nat → Int) : Holds t sat (putElem t sat (y 0)) y := by
  have h := holds_joinElems t sat y
  rwa [joinElems_of_one ht] at h

/-- Results that lie in the element's range are not clamped. -/
theorem Holds.sat_of_range {t : Ty} {x : Nat} {y : Nat → Int} (h : Holds t false x y) (hy : ∀ i, elemLo t ≤ y i ∧ y i ≤ elemHi t) : Holds t true x y := by
  obtain ⟨hx, hv⟩ := h
  refine ⟨hx, fun i hi => ?_⟩
  obtain ⟨hlo, hhi, k, hk⟩ := hv i hi
  rw [if_pos rfl, eq_of_elem_range ⟨hlo, hhi⟩ (hy i) hk]
  have := hy i
  omega

theorem Ctx.el_range (c : Ctx) (t : Ty) (o : Opd) (l i : Nat) : elemLo t ≤ c.el t o l i ∧ c.el t o l i ≤ elemHi t := by
  obtain ⟨hlo, hhi, -⟩ := bitsVal_spec t (fld_lt (c.rd t o l) (t.ebits * i) t.ebits)
  exact ⟨hlo, hhi⟩

/-! ### Integer arithmetic (R128 to R133) -/

/-- A word of the loop of R129 completes with the exact results. -/
theorem Issues.leaves_elemwise {i : Instr} {s : State} {c : Ctx} (h : Issues s i c) {body : Ctx → Out} {t : Ty} {sat : Bool} {d : Opd}
    {f : Nat → Nat → Int} (hb : body c = c.elemwise t sat d f) :
    ∃ v : Nat → Nat, Leaves (word i s body) (c.wrote t d v s) ∧ ∀ l, Holds t sat (v l) (f l) :=
  ⟨_, h.leaves_map hb, fun l => holds_joinElems t sat (f l)⟩

/-- Settles O1: `Put` gives each exact result wrapped or clamped; a minimum or maximum of elements is in range anyway. -/
theorem integerWords : Obligations.IntegerWords := by
  unfold Obligations.IntegerWords
  refine ⟨fun s c p t sat d a b imm => ⟨fun h => h.leaves_elemwise rfl, fun h => h.leaves_elemwise rfl, fun h => h.leaves_elemwise rfl, fun h => ?_,
    fun h => h.leaves_elemwise rfl⟩, fun s c p t sat xb sh d a b e => ⟨fun h => h.leaves_elemwise rfl, fun h => h.leaves_elemwise rfl, fun h => ?_,
    fun h => ?_, fun h => ?_, fun h => ?_, fun h => ?_, fun h => ?_⟩⟩
  · obtain ⟨v, hv, hh⟩ := h.leaves_elemwise (body := fun c => c.elemwise t sat d fun l i => ((c.el t a l i).natAbs : Int)) rfl
    simp only [Int.natCast_natAbs] at hh
    exact ⟨v, hv, hh⟩
  · have h1 : (wideTy t).elems = 1 := by rw [wideTy]; split <;> rfl
    have h64 : (wideTy t).ebits = 64 := by rw [wideTy]; split <;> rfl
    refine ⟨_, h.leaves_map rfl, fun l => ?_⟩
    have hh := holds_putElem h1 false fun i => c.el t a l i * c.el t b l i + c.el (wideTy t) e l i
    rwa [putElem, if_neg Bool.false_ne_true, h64] at hh
  · obtain ⟨v, hv, hh⟩ := h.leaves_elemwise (body := fun c => c.elemwise t false d fun l i => min (c.el t a l i) (c.el t b l i)) rfl
    refine ⟨v, hv, fun l => (hh l).sat_of_range fun i => ?_⟩
    have := c.el_range t a l i; have := c.el_range t b l i
    omega
  · obtain ⟨v, hv, hh⟩ := h.leaves_elemwise (body := fun c => c.elemwise t false d fun l i => max (c.el t a l i) (c.el t b l i)) rfl
    refine ⟨v, hv, fun l => (hh l).sat_of_range fun i => ?_⟩
    have := c.el_range t a l i; have := c.el_range t b l i
    omega
  · refine ⟨fun l => putElem .n32 false ((c.rd .n32 e l + ((List.range t.elems).map fun i => (c.el t a l i - c.el t b l i).natAbs).sum : Nat) : Int),
      h.leaves_map (by simp only [putElem_n32_natCast]), fun l => ?_⟩
    have hcast : ((c.rd .n32 e l + ((List.range t.elems).map fun i => (c.el t a l i - c.el t b l i).natAbs).sum : Nat) : Int)
        = c.rd .n32 e l + ((List.range t.elems).map fun i => |elemVal t (c.rd t a l) i - elemVal t (c.rd t b l) i|).sum := by
      rw [Nat.cast_add, Nat.cast_list_sum, List.map_map]
      simp only [Function.comp_def, Int.natCast_natAbs, Ctx.el]
    beta_reduce
    rw [hcast]
    exact holds_putElem rfl false fun _ => _
  · refine ⟨_, h.leaves_map rfl, fun l => ?_⟩
    exact holds_putElem (t := .n64) rfl false fun _ => (c.rd .n64 a l : Int) + elemVal t (c.rd t b l) 0 * (2 ^ sh.toNat : Nat)
  · refine ⟨_, h.leaves_map rfl, fun l => ?_⟩
    intro tb r
    have hr : r.elems = 1 := by simp only [r]; split <;> rfl
    have hr' : (if t == .n8x4 && tb == .n8x4 then .n32 else .i32 : Ty) = r := by simp only [r, Bool.and_eq_true, beq_iff_eq]
    change Holds r sat (putElem (if t == .n8x4 && tb == .n8x4 then .n32 else .i32) sat (elemVal (if t == .n8x4 && tb == .n8x4 then .n32 else .i32)
      (c.rd .n32 e l) 0 + _)) _
    rw [hr']
    exact holds_putElem hr sat fun _ => _

/-! ### Logic and shifts (R134) -/

theorem elemBits_toNat (t : Ty) (x i : Nat) : (elemBits t x i).toNat = fld x (t.ebits * i) t.ebits := by
  rw [elemBits, BitVec.toNat_ofNat, fld]

theorem shlBits_eq {e : Nat} (x : BitVec e) (n : Nat) : shlBits e x.toNat n = (x <<< n).toNat := by
  rw [shlBits, BitVec.toNat_shiftLeft, Nat.shiftLeft_eq]
  split
  · rename_i h
    rw [Nat.mod_eq_zero_of_dvd (dvd_mul_of_dvd_right (Nat.pow_dvd_pow 2 h) _)]
  · rfl

theorem shrBits_eq {e : Nat} (x : BitVec e) (n : Nat) : shrBits e x.toNat n = (x >>> n).toNat := by
  rw [shrBits, BitVec.toNat_ushiftRight, Nat.shiftRight_eq_div_pow]
  split
  · rename_i h
    rw [Nat.div_eq_of_lt (lt_of_lt_of_le x.isLt (Nat.pow_le_pow_right (by decide) h))]
  · rfl

theorem sext_toNat {e : Nat} (he : 0 < e) (x : BitVec e) : sext e x.toNat = x.toInt := by
  have h2 : 2 ^ e = 2 * 2 ^ (e - 1) := by rw [← pow_succ', Nat.sub_add_cancel he]
  rw [sext, BitVec.toInt_eq_toNat_cond, Nat.mod_eq_of_lt x.isLt]
  split <;> split <;> omega

/-- A number of e bits shifted right by the width or more is its sign. -/
theorem toInt_div_pow_min {e : Nat} (x : BitVec e) (n : Nat) : x.toInt / (2 ^ min n e : Nat) = x.toInt / (2 ^ n : Nat) := by
  rcases Nat.le_total n e with h | h
  · rw [Nat.min_eq_left h]
  · have hsign : ∀ k, e ≤ k → x.toInt / (2 ^ k : Nat) = if x.toInt < 0 then -1 else 0 := by
      intro k hk
      have hpow : 2 ^ (e - 1) ≤ 2 ^ k := Nat.pow_le_pow_right (by decide) (by omega)
      have hlt := x.two_mul_toInt_lt
      have hle := x.le_two_mul_toInt
      have hpos : 0 < 2 ^ k := by positivity
      have hk2 : 2 ^ e ≤ 2 ^ k := Nat.pow_le_pow_right (by decide) hk
      have hk2' : (2 ^ e : Int) ≤ (2 ^ k : Nat) := by exact_mod_cast hk2
      split
      · exact ((Int.ediv_emod_unique (r := x.toInt + (2 ^ k : Nat)) (by exact_mod_cast hpos)).mpr ⟨by omega, by omega, by omega⟩).1
      · exact Int.ediv_eq_zero_of_lt (by omega) (by omega)
    rw [Nat.min_eq_right h, hsign e le_rfl, hsign n h]

theorem sarBits_eq {e : Nat} (he : 0 < e) (x : BitVec e) (n : Nat) : sarBits e x.toNat n = (x.sshiftRight n).toNat := by
  rw [sarBits, sext_toNat he, toInt_div_pow_min, BitVec.sshiftRight, BitVec.toNat_ofInt, Int.shiftRight_eq_div_pow, wrapNat]

theorem rotBits_eq {e : Nat} (he : 0 < e) (x : BitVec e) (n : Nat) : rotBits e x.toNat n = (x.rotateLeft n).toNat := by
  have hr : n % e < e := Nat.mod_lt _ he
  have hx := x.isLt
  have hsplit : 2 ^ e = 2 ^ (e - n % e) * 2 ^ (n % e) := by rw [← pow_add, Nat.sub_add_cancel hr.le]
  have hlow : x.toNat / 2 ^ (e - n % e) < 2 ^ (n % e) := by rwa [Nat.div_lt_iff_lt_mul (by positivity), Nat.mul_comm, ← hsplit]
  have hhigh : x.toNat * 2 ^ (n % e) % 2 ^ e = (x.toNat % 2 ^ (e - n % e)) <<< (n % e) := by
    rw [hsplit, Nat.mul_mod_mul_right, Nat.shiftLeft_eq]
  have hsum : (x.rotateLeft n).toNat = x.toNat * 2 ^ (n % e) % 2 ^ e + x.toNat / 2 ^ (e - n % e) := by
    rw [BitVec.toNat_rotateLeft, Nat.shiftLeft_eq, Nat.shiftRight_eq_div_pow, hhigh, ← Nat.shiftLeft_add_eq_or_of_lt hlow]
  rw [rotBits, ← Nat.mod_add_mod, ← hsum, Nat.mod_eq_of_lt (BitVec.isLt _)]

/-- A word that shifts each element leaves each element shifted by its amount. -/
theorem Issues.leaves_shiftEach {i : Instr} {s : State} {c : Ctx} (h : Issues s i c) {body : Ctx → Out} {t : Ty} {d a b : Opd} {f : Nat → Nat → Nat}
    {g : BitVec t.ebits → Nat → BitVec t.ebits} (hb : body c = c.shiftEach t d a b f) (hf : ∀ x n, f x.toNat n = (g x n).toNat) :
    ∃ v : Nat → Nat, Leaves (word i s body) (c.wrote t d v s)
      ∧ ∀ l i, i < t.elems → elemBits t (v l) i = g (elemBits t (c.rd t a l) i) (c.amount t b l i) := by
  refine ⟨_, h.leaves_map hb, fun l i hi => ?_⟩
  have heach : ∀ i, f (fld (c.rd t a l) (t.ebits * i) t.ebits) (c.amount t b l i) = (g (elemBits t (c.rd t a l) i) (c.amount t b l i)).toNat := by
    intro i
    rw [← elemBits_toNat, hf]
  refine BitVec.eq_of_toNat_eq ?_
  simp only [heach]
  rw [elemBits_toNat, fld_joinElems (fun i => (g _ _).isLt) hi]

/-- Settles O2: each shift of bits is the shift of bit vectors, and elements are shifted apart. -/
theorem logicAndShifts : Obligations.LogicAndShifts := by
  unfold Obligations.LogicAndShifts
  intro s c p t d a b
  refine ⟨fun h => ⟨_, h.leaves_map rfl, fun l k => ?_⟩, fun h => ⟨_, h.leaves_map rfl, fun l k => ?_⟩, fun h => ⟨_, h.leaves_map rfl, fun l k => ?_⟩,
    fun h => ⟨_, h.leaves_map rfl, fun l k => ?_⟩, fun h => h.leaves_shiftEach rfl shlBits_eq, fun h => h.leaves_shiftEach rfl shrBits_eq,
    fun h => h.leaves_shiftEach rfl (sarBits_eq (ebits_pos t)), fun h => h.leaves_shiftEach rfl (rotBits_eq (ebits_pos t))⟩
  · rw [BitVec.toNat_and, Nat.testBit_and]; rfl
  · rw [BitVec.toNat_or, Nat.testBit_or]; rfl
  · rw [BitVec.toNat_xor, Nat.testBit_xor]; rfl
  · rw [BitVec.testBit_toNat, BitVec.getLsbD_and, BitVec.getLsbD_not, Ctx.rd, Ctx.rd, BitVec.testBit_toNat, BitVec.testBit_toNat]
    by_cases hk : k < 64
    · simp [hk]
    · rw [BitVec.getLsbD_of_ge (c.read t a l) k (by omega), Bool.false_and, Bool.false_and]

end Sys2Proof.Machine
end

section
/-! Bit fields, bit counts, immediates, moves and predicate words (R135 to R143). -/

namespace Sys2Proof.Machine

/-! ### Fields of numbers -/

/-- Everything but the field of n bits from q up, with the low n bits of z there. -/
theorem testBit_putField (y z q n k : Nat) : (y - fld y q n * 2 ^ q + z % 2 ^ n * 2 ^ q).testBit k
    = if q ≤ k ∧ k - q < n then z.testBit (k - q) else y.testBit k := by
  have hhigh : y / 2 ^ q / 2 ^ n * 2 ^ n + fld y q n = y / 2 ^ q := Nat.div_add_mod' ..
  have hy : y / 2 ^ q * 2 ^ q + y % 2 ^ q = y := Nat.div_add_mod' ..
  have heq : y - fld y q n * 2 ^ q + z % 2 ^ n * 2 ^ q = 2 ^ q * (2 ^ n * (y / 2 ^ q / 2 ^ n) + z % 2 ^ n) + y % 2 ^ q := by
    have h1 : y = y / 2 ^ q / 2 ^ n * 2 ^ n * 2 ^ q + fld y q n * 2 ^ q + y % 2 ^ q := by rw [← add_mul, hhigh, hy]
    have h2 : y - fld y q n * 2 ^ q = y / 2 ^ q / 2 ^ n * 2 ^ n * 2 ^ q + y % 2 ^ q := by omega
    rw [h2]; ring
  have hz : z % 2 ^ n < 2 ^ n := Nat.mod_lt _ (by positivity)
  rw [heq, Nat.testBit_two_pow_mul_add _ (Nat.mod_lt _ (by positivity)), Nat.testBit_two_pow_mul_add _ hz, Nat.testBit_mod_two_pow,
    Nat.testBit_mod_two_pow, Nat.testBit_div_two_pow, Nat.testBit_div_two_pow]
  by_cases hq : k < q
  · rw [if_pos hq, if_neg (by omega)]; simp [hq]
  · by_cases hn : k - q < n
    · rw [if_neg hq, if_pos hn, if_pos ⟨by omega, hn⟩]; simp [hn]
    · rw [if_neg hq, if_neg hn, if_neg (by omega), show k - q - n + n + q = k by omega]

theorem bfiBits_testBit (e x b y k : Nat) (hk : k < e) : (bfiBits e x b y).testBit k
    = if b % 256 ≤ k ∧ k - b % 256 < b / 256 % 256 then x.testBit (k - b % 256) else y.testBit k := by
  have hq : fld b 0 8 = b % 256 := by simp [fld]
  have hn : fld b 8 8 = b / 256 % 256 := by simp [fld]
  rw [bfiBits, hq, hn]
  split
  · rw [if_neg (by omega)]
  · rw [show fld x 0 = fun n => x % 2 ^ n by funext n; simp [fld]]
    beta_reduce
    rw [testBit_putField]
    by_cases h : b % 256 ≤ k ∧ k - b % 256 < b / 256 % 256
    · rw [if_pos h, if_pos (by omega)]
    · rw [if_neg h, if_neg (by omega)]

theorem movhiBits_testBit (e j x : Nat) (imm : BitVec 20) (k : Nat) (hk : k < e) : (movhiBits e j x imm.toNat).testBit k
    = if 20 * j ≤ k ∧ k < 20 * j + 20 then imm.toNat.testBit (k - 20 * j) else x.testBit k := by
  have h := testBit_putField x imm.toNat (20 * j) 20 k
  rw [Nat.mod_eq_of_lt imm.isLt] at h
  rw [movhiBits, Nat.testBit_mod_two_pow, h]
  simp only [hk, decide_true, Bool.true_and]
  by_cases hf : 20 * j ≤ k ∧ k < 20 * j + 20
  · rw [if_pos hf, if_pos (by omega)]
  · rw [if_neg hf, if_neg (by omega)]

/-- A signed field of n bits from q up, in terms of bit vectors: shifted down, cut to n bits, and widened again. -/
theorem bfxBits_signed {t : Ty} (ht : t.isSigned = true) (x b : Nat) (hn : min (fld b 8 8) t.ebits ≠ 0) :
    bfxBits t x b = ((((BitVec.ofNat t.ebits x).sshiftRight (fld b 0 8)).signExtend (min (fld b 8 8) t.ebits)).signExtend t.ebits).toNat := by
  have hx : sext t.ebits x = (BitVec.ofNat t.ebits x).toInt := by
    rw [← sext_toNat (ebits_pos t), BitVec.toNat_ofNat, sext, sext, Nat.mod_mod]
  have hw (n : Nat) (y : Int) : wrapNat n y = (BitVec.ofInt n y).toNat := by rw [wrapNat, BitVec.toNat_ofInt]
  simp only [bfxBits, if_neg hn, if_pos ht]
  rw [hw, hw, sext_toNat (by omega), hx, ← Int.shiftRight_eq_div_pow, ← BitVec.toInt_sshiftRight]
  rfl

/-- Bit j of the field of a value from q up: above the value's width a signed value repeats its top bit, and another has zeros (R135). -/
def fieldBit (t : Ty) (x q j : Nat) : Bool := if q + j < t.ebits then x.testBit (q + j) else t.isSigned && x.testBit (t.ebits - 1)

theorem bfxBits_testBit (t : Ty) (x b k : Nat) (hx : x < 2 ^ t.ebits) (hk : k < t.ebits) : (bfxBits t x b).testBit k
    = if min (b / 256 % 256) t.ebits = 0 then false
      else if k < min (b / 256 % 256) t.ebits then fieldBit t x (b % 256) k else t.isSigned && fieldBit t x (b % 256) (min (b / 256 % 256) t.ebits - 1) := by
  have hq : fld b 0 8 = b % 256 := by simp [fld]
  have hl : fld b 8 8 = b / 256 % 256 := by simp [fld]
  have hle : min (b / 256 % 256) t.ebits ≤ t.ebits := min_le_right ..
  have hbit (j : Nat) : (BitVec.ofNat t.ebits x).getLsbD j = x.testBit j := by
    rw [← BitVec.testBit_toNat, BitVec.toNat_ofNat, Nat.mod_eq_of_lt hx]
  by_cases hn : min (b / 256 % 256) t.ebits = 0
  · rw [if_pos hn, bfxBits, hl, hn]
    exact Nat.zero_testBit k
  · rw [if_neg hn]
    cases hs : t.isSigned with
    | true =>
      have hfield (j : Nat) (hj : j < t.ebits) : ((BitVec.ofNat t.ebits x).sshiftRight (b % 256)).getLsbD j = fieldBit t x (b % 256) j := by
        rw [BitVec.getLsbD_sshiftRight, BitVec.msb_eq_getLsbD_last, hbit, hbit, fieldBit, hs]
        simp [hj]
      rw [bfxBits_signed hs _ _ (by rwa [hl]), BitVec.testBit_toNat, hq, hl, BitVec.getLsbD_signExtend, BitVec.msb_eq_getLsbD_last,
        BitVec.getLsbD_signExtend, BitVec.getLsbD_signExtend]
      by_cases hkn : k < min (b / 256 % 256) t.ebits
      · simp only [hk, hkn, decide_true, Bool.true_and, if_true, hfield k hk]
      · have h1 : min (b / 256 % 256) t.ebits - 1 < min (b / 256 % 256) t.ebits := by omega
        have h2 : min (b / 256 % 256) t.ebits - 1 < t.ebits := by omega
        simp only [hk, hkn, h1, h2, decide_true, Bool.true_and, if_true, if_false, hfield _ h2]
    | false =>
      simp only [bfxBits, hl, hq, hn, hs, if_false, Bool.false_eq_true, fld_testBit, Bool.false_and, fieldBit]
      by_cases hkn : k < min (b / 256 % 256) t.ebits
      · simp only [hkn, decide_true, Bool.true_and, if_true]
        split
        · rfl
        · exact Nat.testBit_lt_two_pow (lt_of_lt_of_le hx (Nat.pow_le_pow_right (by decide) (by omega)))
      · simp [hkn]

theorem popBits_eq (e x : Nat) : popBits e x = ((List.range e).filter fun k => x.testBit k).length := by
  induction e generalizing x with
  | zero => rfl
  | succ e ih =>
    have hhalf : (fun k => x.testBit k) ∘ Nat.succ = fun k => (x / 2).testBit k := by
      funext k
      exact Nat.testBit_succ x k
    rw [popBits, ih, List.range_succ_eq_map, List.filter_cons, List.filter_map, hhalf, Nat.testBit_zero]
    rcases Nat.mod_two_eq_zero_or_one x with h | h <;> simp [h, Nat.add_comm]

theorem revBits_lt (e x : Nat) : revBits e x < 2 ^ e := by
  induction e generalizing x with
  | zero => simp [revBits]
  | succ e ih =>
    have := ih (x / 2)
    have h2 : x % 2 ≤ 1 := by omega
    rw [revBits, pow_succ]
    nlinarith [Nat.two_pow_pos e]

theorem revBits_testBit (e x k : Nat) (hk : k < e) : (revBits e x).testBit k = x.testBit (e - 1 - k) := by
  induction e generalizing x with
  | zero => omega
  | succ e ih =>
    rw [revBits, Nat.mul_comm, Nat.testBit_two_pow_mul_add _ (revBits_lt e _)]
    by_cases hke : k < e
    · rw [if_pos hke, ih _ hke, Nat.testBit_div_two, show e - 1 - k + 1 = e + 1 - 1 - k by omega]
    · rw [if_neg hke, show k - e = 0 by omega, show e + 1 - 1 - k = 0 by omega]
      simp

theorem clz_spec {e x : Nat} (hx : x < 2 ^ e) (v : Nat) (hv : v = if x = 0 then e else e - 1 - Nat.log2 x) :
    v ≤ e ∧ (∀ k, e - v ≤ k → x.testBit k = false) ∧ (v < e → x.testBit (e - 1 - v) = true) := by
  subst hv
  split
  · rename_i h
    exact ⟨le_rfl, fun k _ => by rw [h, Nat.zero_testBit], fun h => absurd h (lt_irrefl _)⟩
  · rename_i h
    have hlog : x.log2 < e := (Nat.log2_lt h).mpr hx
    refine ⟨by omega, fun k hk => Nat.testBit_lt_two_pow ((Nat.log2_lt h).mp (by omega)), fun _ => ?_⟩
    rw [show e - 1 - (e - 1 - x.log2) = x.log2 by omega]
    exact Nat.testBit_log2 h

/-! ### What a source holds -/

/-- The types of one integer element of 32 or 64 bits. -/
theorem scalar_type {t : Ty} (ht : t = .i32 ∨ t = .n32 ∨ t = .i64 ∨ t = .n64) : t.elems = 1 ∧ t.ebits = (if t.is64 then 64 else 32) ∧ t.fmt? = none := by
  rcases ht with rfl | rfl | rfl | rfl <;> exact ⟨rfl, rfl, rfl⟩

theorem constVal_lt {t : Ty} (ht : t = .i32 ∨ t = .n32 ∨ t = .i64 ∨ t = .n64) (k : BitVec 8) : (constVal t k).toNat < 2 ^ t.ebits := by
  obtain ⟨he, -, hf⟩ := scalar_type ht
  rw [constVal, he, constElem, hf]
  refine lt_of_le_of_lt (Nat.mod_le ..) ?_
  simpa [repElem] using wrapNat_lt t.ebits k.toInt

theorem toNat_cut_lt (t : Ty) (v : Word) : (Ctx.cut t v).toNat < if t.is64 then 2 ^ 64 else 2 ^ 32 := by
  rw [Ctx.cut]
  split
  · exact v.isLt
  · rw [BitVec.toNat_ofNat]; omega

/-- A source under such a type has the type's width. -/
theorem Ctx.rd_lt (c : Ctx) {t : Ty} (ht : t = .i32 ∨ t = .n32 ∨ t = .i64 ∨ t = .n64) (o : Opd) (l : Nat) : c.rd t o l < 2 ^ t.ebits := by
  obtain ⟨-, hb, -⟩ := scalar_type ht
  have hcut (v : Word) : (cut t v).toNat < 2 ^ t.ebits := by
    have := toNat_cut_lt t v
    rw [hb]; split <;> simp_all
  cases o with
  | v n =>
    cases hP : c.isP with
    | true => simpa [rd, read, hP] using hcut _
    | false =>
      cases h64 : t.is64 with
      | true => rw [rd, hb, h64]; exact BitVec.isLt _
      | false =>
        rw [rd, c.read_v_of_32 n l hP h64, hb, h64, BitVec.toNat_setWidth]
        have := (c.v32 n.toNat l).isLt
        simp only [Bool.false_eq_true, if_false]
        omega
  | x n => exact hcut _
  | k k => exact constVal_lt ht k
  | g n => exact hcut _

/-- Settles O3: the bits of each field, and the counts, by recursion on the width. -/
theorem bitFieldsAndMoves : Obligations.BitFieldsAndMoves := by
  unfold Obligations.BitFieldsAndMoves
  refine ⟨fun s c p t d a b e ht => ⟨fun h => ⟨_, h.leaves_map rfl, fun l k hk => ?_⟩, fun h => ⟨_, h.leaves_map rfl, fun l k hk => ?_⟩,
      fun h => ⟨_, h.leaves_map rfl, fun l => ?_⟩, fun h => ⟨_, h.leaves_map rfl, fun l => ?_⟩, fun h => ⟨_, h.leaves_map rfl, fun l k hk => ?_⟩⟩,
    fun s c p t d a b e b40 imm ht => ⟨fun h => ⟨_, h.leaves_map rfl, fun l => ?_⟩, fun h => ⟨_, h.leaves_map rfl, fun l k hk => ?_⟩,
      fun h => h.leaves_map rfl, fun h => h.leaves_map rfl⟩⟩
  · exact bfxBits_testBit t _ _ k (c.rd_lt ht a l) hk
  · exact bfiBits_testBit _ _ _ _ k hk
  · exact popBits_eq _ _
  · exact clz_spec (c.rd_lt ht a l) _ rfl
  · exact revBits_testBit _ _ k hk
  · obtain ⟨he, hb, -⟩ := scalar_type ht
    have hput : putElem t false (if t.isSigned then imm.toInt else (imm.toNat : Int)) = if t.isSigned then wrapNat t.ebits imm.toInt else imm.toNat := by
      rw [putElem, if_neg Bool.false_ne_true]
      split
      · rfl
      · rw [wrapNat_natCast, hb]
        have := imm.isLt
        split <;> omega
    rw [← hput]
    exact holds_putElem he false fun _ => _
  · have h := movhiBits_testBit t.ebits (if b40 then 2 else 1) (c.rd t a l) imm k hk
    cases b40 <;> exact h

theorem bne_eq_decide {α : Type} [DecidableEq α] (x y : α) : (x != y) = decide (x ≠ y) := by
  by_cases h : x = y <;> simp [h]

/-! ### Predicates (R141 to R143, R152, R153) -/

/-- Settles O4: each word is the loop over guarded lanes that writes a predicate or a register. -/
theorem predicateWords : Obligations.PredicateWords := by
  unfold Obligations.PredicateWords
  intro s c p t cc fc lut ones d f g h' w a b
  refine ⟨fun h => h.leaves_mapPred (congrArg _ ?_), fun h => h.leaves_mapPred (congrArg _ ?_), fun h => h.leaves_mapPred (congrArg _ ?_),
    fun h => h.leaves_map rfl, fun h => h.leaves_mapPred (congrArg _ ?_), fun h => h.leaves_mapPred (congrArg _ ?_)⟩
  · funext l
    cases cc with
    | ne => exact (bne_eq_decide ..)
    | _ => rfl
  · funext l
    cases c.pred f l <;> cases c.pred g l <;> rfl
  · funext l
    exact bne_eq_decide ..
  · funext l
    simp only [Ctx.fv, Ctx.fbits, Nat.mul_zero]
  · funext l
    rw [Ctx.rd, BitVec.testBit_toNat]
    rfl

end Sys2Proof.Machine
end

section
/-! Lane words (R144 to R147), floating point (R148 to R156) and conversions (R157 to R160). -/

namespace Sys2Proof.Machine

/-! ### Loops over the guarded lanes -/

@[simp] theorem Ctx.mem_ls {c : Ctx} {l : Nat} : l ∈ c.ls ↔ c.act.getLsbD l = true := mem_lanesOf

/-- A loop over the guarded lanes sees its body in those lanes alone. -/
theorem Ctx.forLanes_congr (c : Ctx) {f g : Nat → State → State} (h : ∀ l, c.act.getLsbD l = true → ∀ s, f l s = g l s) (s : State) :
    c.forLanes f s = c.forLanes g s := by
  have hl : ∀ l ∈ c.ls, c.act.getLsbD l = true := fun l hl => Ctx.mem_ls.mp hl
  rw [Ctx.forLanes, Ctx.forLanes]
  generalize c.ls = L at hl
  induction L generalizing s with
  | nil => rfl
  | cons x L ih =>
    rw [List.foldl_cons, List.foldl_cons, h x (hl x (List.mem_cons_self ..)), ih (hl := fun l hx => hl l (List.mem_cons_of_mem _ hx))]

theorem Ctx.wrote_congr (c : Ctx) {t : Ty} {d : Opd} {v w : Nat → Nat} (h : ∀ l, c.act.getLsbD l = true → v l = w l) (s : State) :
    c.wrote t d v s = c.wrote t d w s := c.forLanes_congr (fun l hl s => by rw [h l hl]) s

/-! ### Lane words (R144 to R147) -/

theorem lanesFrom_filter_ls (c : Ctx) (p : Nat → Bool) (k : Nat) : (lanesFrom (c.ls.filter p)).toNat.testBit k = (c.act.getLsbD k && p k) := by
  rw [BitVec.testBit_toNat, lanesFrom_getLsbD]
  by_cases hk : c.act.getLsbD k = true
  · simp [hk, BitVec.lt_of_getLsbD hk]
  · simp [hk]

/-- A vote that holds is 1. -/
theorem b2n_eq_ite {b : Bool} {p : Prop} [Decidable p] (h : b = true ↔ p) : b2n b = if p then 1 else 0 := by
  rw [b2n]
  by_cases hp : p
  · rw [if_pos hp, if_pos (h.mpr hp)]
  · rw [if_neg hp, if_neg (mt h.mp hp)]

theorem lowLane_mem {m : Lanes} {l : Nat} (h : m.getLsbD l = true) : m.getLsbD (lowLane m) = true := by
  rw [lowLane, ← mem_lanesOf]
  have hne : lanesOf m ≠ [] := List.ne_nil_of_mem (mem_lanesOf.mpr h)
  cases hl : lanesOf m with
  | nil => exact absurd hl hne
  | cons x L => exact List.mem_cons_self ..

theorem all_ls_iff (c : Ctx) (p : Nat → Bool) (q : Nat → Prop) (h : ∀ l, p l = true ↔ q l) :
    c.ls.all p = true ↔ ∀ l ∈ List.range 32, c.act.getLsbD l = true → q l := by
  simp only [List.all_eq_true, Ctx.mem_ls, h]
  exact ⟨fun hp l _ hl => hp l hl, fun hp l hl => hp l (List.mem_range.mpr (BitVec.lt_of_getLsbD hl)) hl⟩

theorem any_ls_iff (c : Ctx) (p : Nat → Bool) (q : Nat → Prop) (h : ∀ l, p l = true ↔ q l) :
    c.ls.any p = true ↔ ∃ l ∈ List.range 32, c.act.getLsbD l = true ∧ q l := by
  simp only [List.any_eq_true, Ctx.mem_ls, h]
  exact ⟨fun ⟨l, hl, hp⟩ => ⟨l, List.mem_range.mpr (BitVec.lt_of_getLsbD hl), hl, hp⟩, fun ⟨l, _, hl, hp⟩ => ⟨l, hl, hp⟩⟩

/-- The participants agree with the lowest one exactly where each two of them agree. -/
theorem all_ls_eq_iff (c : Ctx) (v : Nat → Nat) : (c.ls.all fun l => v l == v (lowLane c.act)) = true
    ↔ ∀ l ∈ List.range 32, ∀ k ∈ List.range 32, c.act.getLsbD l = true → c.act.getLsbD k = true → v l = v k := by
  rw [all_ls_iff c _ (fun l => v l = v (lowLane c.act)) fun l => beq_iff_eq]
  refine ⟨fun h l hl k hk hal hak => (h l hl hal).trans (h k hk hak).symm, fun h l hl hal => ?_⟩
  have hlow := lowLane_mem hal
  exact h l hl _ (List.mem_range.mpr (BitVec.lt_of_getLsbD hlow)) hal hlow

theorem Ctx.ofNat_rd (c : Ctx) (t : Ty) (o : Opd) (l : Nat) : BitVec.ofNat 64 (c.rd t o l) = c.read t o l := by
  rw [Ctx.rd, BitVec.ofNat_toNat, BitVec.setWidth_eq]

/-- No lane of a shuffle whose widths are all valid raises. -/
theorem shfl_bad_nil {c : Ctx} {e : Opd} (hw : ∀ l, c.act.getLsbD l = true → c.rd .n32 e l ∈ [1, 2, 4, 8, 16, 32]) :
    (c.ls.filter fun l => !shflWidth (c.rd .n32 e l)) = [] := by
  rw [List.filter_eq_nil_iff]
  intro l hl
  rw [shflWidth, List.contains_iff_mem.mpr (hw l (Ctx.mem_ls.mp hl))]
  decide

/-- Settles O5: which lanes take part, and what each vote says of them. -/
theorem laneWords : Obligations.LaneWords := by
  unfold Obligations.LaneWords
  intro s c p t mode op d a b e
  refine ⟨fun h hw => ?_, fun h => h.leaves_map ?_, fun h => h.leaves_map ?_, fun h => h.leaves_map ?_, fun h => ⟨_, h.leaves_map rfl, fun k => ?_⟩,
    fun h => ⟨_, h.leaves_map rfl, fun l k => ?_⟩, fun h => h.leaves_map rfl⟩
  · refine h.leaves_word (e := fun s => c.wrote t d _ s) ?_
    simp only [shfl_bad_nil hw, List.contains_nil, Bool.false_eq_true, if_false, List.isEmpty_nil, if_true]
    refine congrArg Out.done (c.forLanes_congr (fun l _ s => congrArg (fun v => c.write t d l v s) ?_) _)
    change _ = BitVec.ofNat 64 (if c.act.getLsbD (shflSource mode l (c.rd .n32 b l) (c.rd .n32 e l)) then
      c.rd t a (shflSource mode l (c.rd .n32 b l) (c.rd .n32 e l)) else c.rd t a l)
    rw [← apply_ite (c.rd t a), c.ofNat_rd]
  · exact congrArg (c.map .n32 d) (funext fun _ => b2n_eq_ite (all_ls_iff c _ _ fun l => bne_iff_ne))
  · exact congrArg (c.map .n32 d) (funext fun _ => b2n_eq_ite (any_ls_iff c _ _ fun l => bne_iff_ne))
  · exact congrArg (c.map .n32 d) (funext fun _ => b2n_eq_ite (all_ls_eq_iff c _))
  · exact (lanesFrom_filter_ls c _ k).trans (by rw [bne_eq_decide])
  · exact (lanesFrom_filter_ls c _ k).trans (by rw [beq_eq_decide])

/-! ### Floating point (R148 to R156) -/

/-- Settles O6: each word is the loop over guarded lanes and elements of its operation. -/
theorem floatingPoint : Obligations.FloatingPoint := by
  unfold Obligations.FloatingPoint
  exact ⟨fun s c p t rm d a b e => ⟨fun h => h.leaves_map rfl, fun h => h.leaves_map rfl, fun h => h.leaves_map rfl, fun h => h.leaves_map rfl,
      fun h => h.leaves_map rfl, fun h => h.leaves_map rfl, fun h => h.leaves_map rfl, fun h => h.leaves_map rfl, fun h => h.leaves_map rfl,
      fun h => h.leaves_map rfl, fun h => h.leaves_map rfl, fun h => h.leaves_map rfl⟩,
    fun s c p t d a => ⟨fun h => h.leaves_map rfl, fun h => h.leaves_map rfl, fun h => h.leaves_map rfl, fun h => h.leaves_map rfl,
      fun h => h.leaves_map rfl, fun h => h.leaves_map rfl, fun h => h.leaves_map rfl⟩⟩

/-! ### Conversions (R157 to R160) -/

/-- With no lane that takes the fault action every guarded lane adds its flags and writes its code. -/
theorem Ctx.convertLanes_of_no_fault (c : Ctx) {f : Nat → Conv} (put : Nat → Nat → State → State) (h : ∀ l, c.act.getLsbD l = true → (f l).fault = false) :
    c.convertLanes f put = .done (c.forLanes (fun l s => put l (f l).code (c.addCvt l (f l).flags s)) c.s0) := by
  have hnone : (c.ls.filter fun l => (f l).fault) = [] := by
    rw [List.filter_eq_nil_iff]
    intro l hl
    simp [h l (Ctx.mem_ls.mp hl)]
  rw [Ctx.convertLanes, hnone]
  refine congrArg Out.done (c.forLanes_congr (fun l hl s => ?_) _)
  simp only [h l hl, Bool.false_eq_true, if_false]

/-- Settles O7: with no fault action the three words differ in what they read and where they write alone. -/
theorem conversions : Obligations.Conversions := by
  unfold Obligations.Conversions
  intro s c p t rm pos d a pol f
  refine ⟨fun h hf => h.leaves_word (e := fun s => c.forLanes _ s) (c.convertLanes_of_no_fault _ hf),
    fun h hf => h.leaves_word (e := fun s => c.forLanes _ s) (c.convertLanes_of_no_fault _ hf),
    fun h hf => h.leaves_word (e := fun s => c.forLanes _ s) (c.convertLanes_of_no_fault _ hf)⟩

end Sys2Proof.Machine
end

section
/-! Streams and their paths: what a stream reads as after the changes that words make to it, and where its lanes stand after a clause has ended. -/

namespace Sys2Proof.Machine

/-! ### Reading a stream after a change -/

theorem State.strand?_congr {s u : State} (h : u.crews = s.crews) (k : Nat) (sid : Sid) : u.strand? k sid = s.strand? k sid := by
  rw [State.strand?, State.strand?, State.crew?, State.crew?, h]

@[simp] theorem State.signal_crews (s : State) (die block sig n : Nat) : (s.signal die block sig n).crews = s.crews := by
  rw [State.signal]; split <;> rfl

@[simp] theorem State.coreSignal_crews (s : State) (c : CoreId) (sig n : Nat) : (s.coreSignal c sig n).crews = s.crews := by
  rw [State.coreSignal]; split <;> simp

theorem Strand.path?_modPath (t : Strand) (i : Nat) {f : Path → Path} (hf : ∀ p, (f p).id = p.id) : (t.modPath i f).path? i = (t.path? i).map f := by
  have hid : (fun p : Path => p.id == i) ∘ (fun p => if p.id == i then f p else p) = fun p => p.id == i := by
    funext p
    simp only [Function.comp]
    split <;> simp [hf]
  simp only [Strand.path?, Strand.modPath, mapIf, List.find?_map, hid]
  cases hp : t.paths.find? fun p => p.id == i with
  | none => rfl
  | some p =>
    have hpi : (p.id == i) = true := List.find?_some (p := fun p : Path => p.id == i) hp
    simp only [Option.map_some, hpi, if_true]

theorem Ctx.strand?_modT {c : Ctx} {s : State} {t : Strand} (h : s.strand? c.id c.sid = some t) (f : Strand → Strand) :
    (c.modT s f).strand? c.id c.sid = some (f t) := by
  rw [Ctx.modT, State.strand?_modStrand_same, h, Option.map_some]

theorem Ctx.strand?_modP {c : Ctx} {s : State} {t : Strand} (h : s.strand? c.id c.sid = some t) (f : Path → Path) :
    (c.modP s f).strand? c.id c.sid = some (t.modPath c.grant.path f) := c.strand?_modT h _

/-- What issuing leaves of the stream: its clock of the last issue, and its path's count of starvation. -/
def Ctx.issuedStrand (c : Ctx) (s : State) (t : Strand) : Strand :=
  ({ t with lastIssue := s.clk c.die } : Strand).modPath c.grant.path fun p => { p with starve := 0, raises := false }

theorem Ctx.strand?_issued {c : Ctx} {s : State} {t : Strand} (h : s.strand? c.id c.sid = some t) :
    (c.issued s).strand? c.id c.sid = some (c.issuedStrand s t) := by
  rw [Ctx.issued, State.strand?_congr (s := c.modP (c.modT s fun t => { t with lastIssue := s.clk c.die }) fun p => { p with starve := 0, raises := false })]
  · exact c.strand?_modP (c.strand?_modT h _) _
  · simp

/-! ### Where a path stands -/

/-- A lane of the path stands at a place: at the boundary before it, or, at a header, joined to a path that waits at its word. -/
def Path.standsFor (q : Path) (l : Nat) (d : Dest) : Prop :=
  q.lanes.getLsbD l = true ∧ q.pc = d.1 ∧ q.at_ = d.2
    ∧ ((q.clause = none ∧ q.wait = .none) ∨ (d.2 = none ∧ ∃ w r m, q.wait = .more w r ∧ q.only = some m ∧ m ≠ 0))

theorem Path.standsFor.standsAt {u : State} {c : Ctx} {t : Strand} {q : Path} {l : Nat} {a : Word} (h : q.standsFor l (a, none))
    (ht : u.strand? c.id c.sid = some t) (hq : q ∈ t.paths) : StandsAt u c l a := by
  obtain ⟨hl, hpc, hat, hw⟩ := h
  refine ⟨t, q, ht, hq, hl, hpc, hat, ?_⟩
  rcases hw with ⟨hc, -⟩ | ⟨-, w, r, m, hw, -⟩
  · exact .inl hc
  · exact .inr (by rw [Path.joined, hw])

theorem lanes_ne_zero {m : Lanes} {l : Nat} (h : m.getLsbD l = true) : m ≠ 0 := by
  rintro rfl
  simp at h

theorem or_ne_zero_left {a : Lanes} (b : Lanes) (h : a ≠ 0) : a ||| b ≠ 0 := by
  intro hab
  refine h (BitVec.eq_of_getLsbD_eq fun i hi => ?_)
  have := congrArg (BitVec.getLsbD · i) hab
  simp_all

theorem or_ne_zero_right (a : Lanes) {b : Lanes} (h : b ≠ 0) : a ||| b ≠ 0 := by
  rw [BitVec.or_comm]; exact or_ne_zero_left a h

/-- The lanes of a path for which its waiting word has still to act (R301). -/
def Path.freshLanes (p : Path) : Option Lanes :=
  match p.wait with
  | .more _ _ => p.only
  | .bar _ _ | .cbar _ _ => none
  | _ => some p.lanes

/-- The barrier wait that a path is held in, or joined to. -/
def Path.heldWait (p : Path) : Option Wait :=
  match p.wait with
  | .more w _ => some w
  | .bar n ph => some (.bar n ph)
  | .cbar n ph => some (.cbar n ph)
  | _ => none

/-- The merge of two paths, by what holds each of them. -/
theorem mergeInto_eq (cur : Nat) (p q : Path) : mergeInto cur p q =
    (let m : Path := { p with lanes := p.lanes ||| q.lanes, crank := min p.crank q.crank, age := if p.id = cur || q.id = cur then 0 else max p.age q.age,
                              lone := false, id := if q.id = cur then q.id else p.id, starve := max p.starve q.starve,
                              yielded := (p.yielded && !p.lone) || (q.yielded && !q.lone) }
     match p.heldWait, q.heldWait with
     | none, none => { m with clause := none, wait := .none }
     | a, b =>
       let new := p.freshLanes.getD 0 ||| q.freshLanes.getD 0
       let w := (a.or b).getD .none
       { m with clause := if a.isSome then p.clause else q.clause, only := if new = 0 then none else some new,
                wait := if new = 0 then w else .more w none }) := rfl

/-- The path that two merge into: at the header where neither is held, and else at the waiting word, issued anew for the lanes that it has not acted for. -/
theorem mergeInto_cases (cur : Nat) (p q : Path) : (mergeInto cur p q).lanes = p.lanes ||| q.lanes ∧ (mergeInto cur p q).pc = p.pc
    ∧ (mergeInto cur p q).at_ = p.at_
    ∧ ((p.heldWait = none ∧ q.heldWait = none ∧ (mergeInto cur p q).clause = none ∧ (mergeInto cur p q).wait = .none)
      ∨ (p.freshLanes.getD 0 ||| q.freshLanes.getD 0 ≠ 0 → ∃ w, (mergeInto cur p q).wait = .more w none
          ∧ (mergeInto cur p q).only = some (p.freshLanes.getD 0 ||| q.freshLanes.getD 0))) := by
  rw [mergeInto_eq]
  cases hp : p.heldWait with
  | none =>
    cases hq : q.heldWait with
    | none => exact ⟨rfl, rfl, rfl, .inl ⟨rfl, rfl, rfl, rfl⟩⟩
    | some w => exact ⟨rfl, rfl, rfl, .inr fun hn => ⟨_, if_neg hn, if_neg hn⟩⟩
  | some w => cases hq : q.heldWait <;> exact ⟨rfl, rfl, rfl, .inr fun hn => ⟨_, if_neg hn, if_neg hn⟩⟩

/-- A path that stands for a lane has still to issue its word for some lanes. -/
theorem Path.standsFor.freshLanes {p : Path} {l : Nat} {d : Dest} (h : p.standsFor l d) : p.freshLanes.getD 0 ≠ 0 := by
  obtain ⟨hl, -, -, ⟨-, hw⟩ | ⟨-, w, r, m, hw, ho, hm⟩⟩ := h
  · rw [Path.freshLanes, hw]
    exact lanes_ne_zero hl
  · rw [Path.freshLanes, hw, ho]
    exact hm

/-- A path that merges with another stands at a header. -/
theorem Path.meets_places {p q : Path} (h : p.meets q = true) : p.at_ = none ∧ q.at_ = none ∧ p.pc = q.pc := by
  simp only [Path.meets, Path.atHeader, Bool.and_eq_true, Option.isNone_iff_eq_none, beq_iff_eq] at h
  obtain ⟨⟨⟨⟨⟨⟨⟨hat, -⟩, -⟩, -⟩, -⟩, ⟨⟨⟨hat', -⟩, -⟩, -⟩, -⟩, hpc⟩, -⟩ := h
  exact ⟨hat, hat', hpc⟩

/-- A merged path stands where its parts stood. -/
theorem mergeInto_standsFor (cur : Nat) {p q : Path} {l : Nat} {d : Dest} (hpc : p.pc = q.pc) (hp : p.at_ = none) (hq : q.at_ = none)
    (h : p.standsFor l d ∨ q.standsFor l d) : (mergeInto cur p q).standsFor l d := by
  have hfresh : p.freshLanes.getD 0 ||| q.freshLanes.getD 0 ≠ 0 := h.elim (fun h => or_ne_zero_left _ h.freshLanes) fun h => or_ne_zero_right _ h.freshLanes
  have hd : d.2 = none := h.elim (fun ⟨_, _, hat, _⟩ => hat.symm.trans hp) fun ⟨_, _, hat, _⟩ => hat.symm.trans hq
  obtain ⟨hlanes, hpc', hat', hwait⟩ := mergeInto_cases cur p q
  refine ⟨?_, ?_, (hat'.trans hp).trans hd.symm, ?_⟩
  · rw [hlanes, BitVec.getLsbD_or]
    rcases h with ⟨h, -⟩ | ⟨h, -⟩ <;> simp [h]
  · rcases h with ⟨-, h, -⟩ | ⟨-, h, -⟩
    · exact hpc'.trans h
    · exact hpc'.trans (hpc.trans h)
  · rcases hwait with ⟨-, -, hc, hw⟩ | hw
    · exact .inl ⟨hc, hw⟩
    · obtain ⟨w, hw, ho⟩ := hw hfresh
      exact .inr ⟨hd, w, none, _, hw, ho, hfresh⟩

/-- Some path of a list stands for a lane at a place. -/
def StandsIn (ps : List Path) (l : Nat) (d : Dest) : Prop := ∃ q ∈ ps, q.standsFor l d

theorem mergePath_standsIn (cur : Nat) {p : Path} {ps : List Path} {l : Nat} {d : Dest} (h : p.standsFor l d ∨ StandsIn ps l d) :
    StandsIn (mergePath cur p ps) l d := by
  induction ps with
  | nil =>
    rcases h with h | ⟨q, hq, -⟩
    · exact ⟨p, List.mem_singleton_self p, h⟩
    · exact absurd hq (List.not_mem_nil)
  | cons q ps ih =>
    rw [mergePath]
    have hor : p.standsFor l d ∨ q.standsFor l d ∨ StandsIn ps l d := by
      rcases h with h | ⟨x, hx, h⟩
      · exact .inl h
      · rcases List.mem_cons.mp hx with rfl | hx
        · exact .inr (.inl h)
        · exact .inr (.inr ⟨x, hx, h⟩)
    split
    · rename_i hm
      obtain ⟨hp, hq, hpc⟩ := Path.meets_places hm
      rcases hor with h | h | ⟨x, hx, h⟩
      · exact ⟨_, List.mem_cons_self .., mergeInto_standsFor cur hpc.symm hq hp (.inr h)⟩
      · exact ⟨_, List.mem_cons_self .., mergeInto_standsFor cur hpc.symm hq hp (.inl h)⟩
      · exact ⟨x, List.mem_cons_of_mem _ hx, h⟩
    · rcases hor with h | h | h
      · obtain ⟨x, hx, hs⟩ := ih (.inl h)
        exact ⟨x, List.mem_cons_of_mem _ hx, hs⟩
      · exact ⟨q, List.mem_cons_self .., h⟩
      · obtain ⟨x, hx, hs⟩ := ih (.inr h)
        exact ⟨x, List.mem_cons_of_mem _ hx, hs⟩

theorem mergePaths_standsIn (cur : Nat) {ps : List Path} {l : Nat} {d : Dest} (h : StandsIn ps l d) : StandsIn (mergePaths cur ps) l d := by
  have hfold : ∀ acc, StandsIn acc l d ∨ StandsIn ps l d → StandsIn (ps.foldl (fun acc p => mergePath cur p acc) acc) l d := by
    clear h
    induction ps with
    | nil => exact fun acc h => h.elim id fun ⟨q, hq, _⟩ => absurd hq List.not_mem_nil
    | cons p ps ih =>
      intro acc h
      rw [List.foldl_cons]
      refine ih _ ?_
      rcases h with h | ⟨q, hq, hs⟩
      · exact .inl (mergePath_standsIn cur (.inr h))
      · rcases List.mem_cons.mp hq with rfl | hq
        · exact .inl (mergePath_standsIn cur (.inl hs))
        · exact .inr ⟨q, hq, hs⟩
  exact hfold [] (.inr h)

/-- A choice of the current path moves no lane. -/
theorem choosePath_standsIn {s : State} {k : Nat} {sid : Sid} {t : Strand} {l : Nat} {d : Dest} (ht : s.strand? k sid = some t)
    (h : StandsIn t.paths l d) : ∃ t', (s.choosePath k sid).strand? k sid = some t' ∧ StandsIn t'.paths l d := by
  obtain ⟨c, hc⟩ : ∃ c, s.crew? k = some c := by
    cases hc : s.crew? k with
    | none => simp [State.strand?, hc] at ht
    | some c => exact ⟨c, rfl⟩
  obtain ⟨q, hq, hs⟩ := mergePaths_standsIn t.cur h
  simp only [State.choosePath, hc, ht]
  rw [State.strand?_modStrand_same, State.strand?_congr (State.coreSignal_crews ..), ht]
  refine ⟨_, rfl, ?_⟩
  split
  · exact ⟨q, hq, hs⟩
  · refine ⟨_, List.mem_map_of_mem hq, ?_⟩
    split
    · exact hs
    · split <;> exact hs

/-! ### The end of a clause (R46, R161) -/

@[simp] theorem mem_dedup {α : Type} [DecidableEq α] {l : List α} {x : α} : x ∈ dedup l ↔ x ∈ l := by
  induction l with
  | nil => rfl
  | cons y l ih =>
    rw [dedup, List.mem_cons, List.mem_cons, List.mem_filter, ih]
    by_cases hx : x = y <;> simp [hx]

@[simp] theorem mem_sortBy {α : Type} {f : α → Nat} {l : List α} {x : α} : x ∈ sortBy f l ↔ x ∈ l := by
  induction l with
  | nil => rfl
  | cons y l ih =>
    have hins : ∀ (L : List α), x ∈ insertBy f y L ↔ x = y ∨ x ∈ L := by
      intro L
      induction L with
      | nil => simp [insertBy]
      | cons z L ihL =>
        rw [insertBy]
        split
        · simp
        · rw [List.mem_cons, ihL, List.mem_cons]; tauto
    rw [sortBy, List.foldr_cons, hins, List.mem_cons]
    exact or_congr_right ih

/-- A list numbered from 0 holds each of its elements with some number. -/
theorem exists_mem_zip_range {α : Type} {L : List α} {x : α} (h : x ∈ L) : ∃ i, (i, x) ∈ (List.range L.length).zip L := by
  obtain ⟨i, hi, rfl⟩ := List.mem_iff_getElem.mp h
  refine ⟨i, List.mem_iff_getElem.mpr ⟨i, by simpa using hi, by simp⟩⟩

/-- Of a list parted in two, the second part sorted and numbered, each element is in one. -/
theorem mem_filter_or_numbered {α : Type} {L : List α} {x : α} {p : α → Bool} (f : α → Nat) (hx : x ∈ L) :
    x ∈ L.filter p ∨ ∃ i, (i, x) ∈ (List.range (sortBy f (L.filter fun a => !p a)).length).zip (sortBy f (L.filter fun a => !p a)) := by
  by_cases hp : p x = true
  · exact .inl (List.mem_filter.mpr ⟨hx, hp⟩)
  · refine .inr (exists_mem_zip_range (mem_sortBy.mpr (List.mem_filter.mpr ⟨hx, ?_⟩)))
    simpa using hp

/-- The lanes that go to a place. -/
def destLanes (next : List (Nat × Dest)) (a : Dest) : Lanes := lanesFrom ((next.filter fun x => x.2 == a).map Prod.fst)

/-- What follows the new paths of a clause's end moves no lane. -/
theorem Ctx.endClause_paths_standsIn (c : Ctx) {s : State} {t : Strand} {l : Nat} {d : Dest} (ht : s.strand? c.id c.sid = some t) (lone : Bool)
    (f : Strand → Strand) (h : StandsIn (f t).paths l d) :
    ∃ t', (if c.isG then (c.modT s f).modDie c.die fun d => { d with gaffer := assocSet d.gaffer c.crew.cluster c.t.slot }
      else if lone then c.modT (c.modT s f) fun t => { t with paths := mergePaths t.cur t.paths }
      else (c.modT s f).choosePath c.id c.sid).strand? c.id c.sid = some t' ∧ StandsIn t'.paths l d := by
  have hf := c.strand?_modT ht f
  split
  · exact ⟨_, hf, h⟩
  · split
    · exact ⟨_, c.strand?_modT hf _, mergePaths_standsIn _ h⟩
    · exact choosePath_standsIn hf h

/-- Where the clause ends, each listed lane stands at the place that it is listed for. -/
theorem endClauseAt_standsIn {c : Ctx} {s : State} {t : Strand} {p : Path} {next : List (Nat × Dest)} {l : Nat} {d : Dest}
    (ht : s.strand? c.id c.sid = some t) (hp : t.path? c.grant.path = some p) (hl : (l, d) ∈ next) (hl32 : l < 32) :
    ∃ t', (c.endClauseAt s next).strand? c.id c.sid = some t' ∧ StandsIn t'.paths l d := by
  simp only [Ctx.endClauseAt, ht, hp]
  have hgroup : (destLanes next d).getLsbD l = true := by
    rw [destLanes, lanesFrom_getLsbD]
    simp only [hl32, decide_true, Bool.true_and, decide_eq_true_eq]
    exact List.mem_map.mpr ⟨_, List.mem_filter.mpr ⟨hl, by simp⟩, rfl⟩
  have haddr : d ∈ dedup (next.map Prod.snd) := mem_dedup.mpr (List.mem_map.mpr ⟨_, hl, rfl⟩)
  refine c.endClause_paths_standsIn ht _ _ ?_
  rcases mem_filter_or_numbered (p := fun a => (destLanes next a).getLsbD ((next.map Prod.fst).foldl min 32)) (fun a => lowLane (destLanes next a)) haddr
    with hf | ⟨i, hi⟩
  · exact ⟨_, List.mem_append_right _ (List.mem_append_left _ (List.mem_map_of_mem hf)), hgroup, rfl, rfl, .inl ⟨rfl, rfl⟩⟩
  · exact ⟨_, List.mem_append_right _ (List.mem_append_right _ (List.mem_map_of_mem hi)), hgroup, rfl, rfl, .inl ⟨rfl, rfl⟩⟩

theorem endClause_standsIn {c : Ctx} {s : State} {t : Strand} {p : Path} {next : List (Nat × Word)} {l : Nat} {a : Word}
    (ht : s.strand? c.id c.sid = some t) (hp : t.path? c.grant.path = some p) (hl : (l, a) ∈ next) (hl32 : l < 32) :
    ∃ t', (c.endClause s next).strand? c.id c.sid = some t' ∧ StandsIn t'.paths l (a, none) :=
  endClauseAt_standsIn ht hp (List.mem_map_of_mem (f := fun x : Nat × Word => (x.1, ((x.2, none) : Dest))) hl) hl32

/-! ### After a word -/

/-- What a word that has had its effect leaves of its stream before its path goes on: the path with its starvation count and latch changed. -/
theorem Ctx.strand?_putLatch_issued {c : Ctx} {e : State} {t : Strand} {p : Path} (ht : e.strand? c.id c.sid = some t)
    (hp : t.path? c.grant.path = some p) (h : Option (Nat → Word)) : ∃ t' L, (c.putLatch h (c.issued e)).strand? c.id c.sid = some t'
      ∧ t'.path? c.grant.path = some { p with starve := 0, raises := false, latch := L } := by
  have hi := c.strand?_issued ht
  have hpi : (c.issuedStrand e t).path? c.grant.path = some { p with starve := 0, raises := false } := by
    rw [Ctx.issuedStrand, Strand.path?_modPath]
    · exact congrArg (Option.map _) hp
    · exact fun _ => rfl
  cases h with
  | none => exact ⟨_, _, hi, hpi⟩
  | some v =>
    refine ⟨_, latchPut p.latch (c.pos % 3) (lanesOf c.lanes) v, c.strand?_modP hi _, ?_⟩
    rw [Strand.path?_modPath]
    · rw [hpi]; rfl
    · exact fun _ => rfl

theorem Ctx.left_eq {c : Ctx} {s : State} {t : Strand} {p : Path} (ht : s.strand? c.id c.sid = some t) (hp : t.path? c.grant.path = some p) :
    c.left s = p.lanes := by
  rw [Ctx.left, ht, Option.bind_some, hp, Option.map_some, Option.getD_some]

theorem mem_map_lanesOf {m : Lanes} {l : Nat} {f : Nat → Word} (hl : m.getLsbD l = true) : (l, f l) ∈ (lanesOf m).map fun l => (l, f l) :=
  List.mem_map_of_mem (mem_lanesOf.mpr hl)

/-- Inside a clause a word's path goes on to the next word (R46). -/
theorem finish_done_inside {c : Ctx} {e : State} {t : Strand} {p : Path} (ht : e.strand? c.id c.sid = some t) (hp : t.path? c.grant.path = some p)
    (hne : p.lanes ≠ 0) (h : Option (Nat → Word)) (hpos : c.pos < c.cl.head.count) : ∃ t' L, (c.finish h (.done e)).strand? c.id c.sid = some t'
      ∧ t'.path? c.grant.path = some { p with starve := 0, raises := false, latch := L, clause := p.clause.map (fun k => { k with pos := k.pos + 1 }),
                                              only := none, wait := .none } := by
  obtain ⟨t', L, ht', hp'⟩ := c.strand?_putLatch_issued ht hp h
  rw [finish_done, Ctx.advance, c.left_eq ht' hp', if_neg hne, if_neg (by simpa [Ctx.isLast] using hpos)]
  refine ⟨_, L, c.strand?_modP ht' _, ?_⟩
  rw [Strand.path?_modPath]
  · rw [hp']; rfl
  · exact fun _ => rfl

/-- After the last word of a clause every lane stands at the fall-through (R46). -/
theorem finish_done_last {c : Ctx} {e : State} {t : Strand} {p : Path} (ht : e.strand? c.id c.sid = some t) (hp : t.path? c.grant.path = some p)
    (h : Option (Nat → Word)) (hpos : c.cl.head.count ≤ c.pos) {l : Nat} (hl : p.lanes.getLsbD l = true) : StandsAt (c.finish h (.done e)) c l c.fall := by
  obtain ⟨t', L, ht', hp'⟩ := c.strand?_putLatch_issued ht hp h
  rw [finish_done, Ctx.advance, c.left_eq ht' hp', if_neg (lanes_ne_zero hl), if_pos (by simpa [Ctx.isLast] using hpos)]
  obtain ⟨t'', ht'', q, hq, hs⟩ := endClause_standsIn ht' hp' (mem_map_lanesOf (f := fun _ => c.fall) hl) (BitVec.lt_of_getLsbD hl)
  exact hs.standsAt ht'' hq

/-- After a transfer each listed lane stands at its next place (R161, R380), and nothing else has changed. -/
theorem finish_back_stands {c : Ctx} {e : State} {t : Strand} {p : Path} {next : List (Nat × Dest)} (ht : e.strand? c.id c.sid = some t)
    (hp : t.path? c.grant.path = some p) (h : Option (Nat → Word)) {l : Nat} {d : Dest} (hl : (l, d) ∈ next) (hl32 : l < 32) :
    (c.finish h (.back e next)).still = e.still
      ∧ ∃ t' q, (c.finish h (.back e next)).strand? c.id c.sid = some t' ∧ q ∈ t'.paths ∧ q.standsFor l d := by
  obtain ⟨t', _, ht', hp'⟩ := c.strand?_putLatch_issued ht hp none
  obtain ⟨t'', ht'', q, hq, hs⟩ := endClauseAt_standsIn ht' hp' (List.mem_append_left ((c.skipped e).map fun x => (x.1, x.2, none)) hl) hl32
  have hne : t''.paths.isEmpty = false := by
    rw [List.isEmpty_eq_false_iff]; exact List.ne_nil_of_mem hq
  have hret : c.finish h (.back e next) = c.endClauseAt (c.issued e) (next ++ (c.skipped e).map fun x => (x.1, x.2, none)) := by
    rw [finish_back, Ctx.checkReturn]
    rw [Ctx.putLatch] at ht''
    simp [ht'', hne]
  rw [hret]
  exact ⟨by simp, t'', q, ht'', hq, hs⟩

theorem finish_jump_eq_back (c : Ctx) (h : Option (Nat → Word)) (e : State) (next : List (Nat × Word)) :
    c.finish h (.jump e next) = c.finish h (.back e (next.map fun x => (x.1, x.2, none))) := by
  rw [finish_jump, finish_back, Ctx.endClause, List.map_append]

theorem finish_jump_stands {c : Ctx} {e : State} {t : Strand} {p : Path} {next : List (Nat × Word)} (ht : e.strand? c.id c.sid = some t)
    (hp : t.path? c.grant.path = some p) (h : Option (Nat → Word)) {l : Nat} {a : Word} (hl : (l, a) ∈ next) (hl32 : l < 32) :
    (c.finish h (.jump e next)).still = e.still ∧ StandsAt (c.finish h (.jump e next)) c l a := by
  rw [finish_jump_eq_back]
  obtain ⟨hstill, t', q, ht', hq, hs⟩ := finish_back_stands ht hp h
    (List.mem_map_of_mem (f := fun x : Nat × Word => (x.1, ((x.2, none) : Dest))) hl) hl32
  exact ⟨hstill, hs.standsAt ht' hq⟩

/-! ### NOP, YIELD and transfers (R161 to R168) -/

/-- Settles O9: inside a clause only the path's position, and for `YIELD` its mark, changes. -/
theorem nopAndYield : Obligations.NopAndYield := by
  unfold Obligations.NopAndYield
  refine ⟨fun s c p h hne => ?_, fun s c p h hne => ?_⟩
  · obtain ⟨hs0, -, -, ht, hp, hcl, -⟩ := ctx_eq h.slot
    rw [← hs0] at ht
    refine ⟨_, word_issues h _, by rw [still_finish_done, hs0], fun hpos => ?_, fun hpos l hl => finish_done_last ht hp _ hpos hl⟩
    obtain ⟨t', L, ht', hp'⟩ := finish_done_inside ht hp hne (c.holdOf (.nop p)) hpos
    exact ⟨t', _, ht', hp', rfl, rfl, by rw [hcl]; rfl⟩
  · obtain ⟨hs0, -, -, ht, hp, hcl, -⟩ := ctx_eq h.slot
    rw [← hs0] at ht
    by_cases hy : (c.act = 0 || c.isG) = true
    · have hbody : (.done (if c.act = 0 || c.isG then c.s0 else c.modP c.s0 fun q => { q with yielded := true }) : Out) = .done c.s0 := by rw [if_pos hy]
      refine ⟨_, word_issues h _, by rw [hbody, still_finish_done, hs0], fun hpos => ?_⟩
      obtain ⟨t', L, ht', hp'⟩ := finish_done_inside ht hp hne (c.holdOf (.yield p)) hpos
      rw [← hbody] at ht'
      refine ⟨t', _, ht', hp', ?_⟩
      have hno : (decide (c.act ≠ 0) && !c.isG) = false := by
        rcases Bool.or_eq_true_iff.mp hy with h | h <;> simp_all
      rw [hno, Bool.or_false]
    · have hbody : (.done (if c.act = 0 || c.isG then c.s0 else c.modP c.s0 fun q => { q with yielded := true }) : Out)
          = .done (c.modP c.s0 fun q => { q with yielded := true }) := by rw [if_neg hy]
      refine ⟨_, word_issues h _, by rw [hbody, still_finish_done, hs0, Ctx.modP, still_modPath], fun hpos => ?_⟩
      have hpy : (c.t.modPath c.grant.path fun q => { q with yielded := true }).path? c.grant.path = some { c.path with yielded := true } := by
        rw [Strand.path?_modPath]
        · rw [hp]; rfl
        · exact fun _ => rfl
      obtain ⟨t', L, ht', hp'⟩ := finish_done_inside (c.strand?_modP ht fun q => { q with yielded := true }) hpy hne (c.holdOf (.yield p)) hpos
      rw [← hbody] at ht'
      refine ⟨t', _, ht', hp', ?_⟩
      have hyes : (decide (c.act ≠ 0) && !c.isG) = true := by
        simp_all
      rw [hyes, Bool.or_true]

/-- A transfer whose targets are aligned, and with `.uni` agree, raises in no lane. -/
theorem transferFaults_nil {c : Ctx} {uni : Bool} {tgt : Nat → Word} (hal : ∀ l, c.act.getLsbD l = true → (tgt l).toNat % 8 = 0)
    (huni : uni = true → ∀ l k, c.lanes.getLsbD l = true → c.lanes.getLsbD k = true → c.nextOf tgt l = c.nextOf tgt k) : c.transferFaults uni tgt = [] := by
  have halign : (c.ls.filter fun l => (tgt l).extractLsb' 0 3 != 0) = [] := by
    rw [List.filter_eq_nil_iff]
    intro l hl
    have h8 := hal l (Ctx.mem_ls.mp hl)
    have h0 : (tgt l).extractLsb' 0 3 = 0 := BitVec.eq_of_toNat_eq (by simpa using h8)
    simp [h0]
  have hsame : ((lanesOf c.lanes).filter fun l => c.nextOf tgt l != c.nextOf tgt (lowLane c.lanes)) = [] ∨ uni = false := by
    cases hu : uni with
    | false => exact .inr rfl
    | true =>
      left
      rw [List.filter_eq_nil_iff]
      intro l hl
      have hl := mem_lanesOf.mp hl
      simp [huni hu l _ hl (lowLane_mem hl)]
  rw [Ctx.transferFaults, halign]
  rcases hsame with h | h <;> simp [h]

theorem Ctx.nextOf_eq (c : Ctx) (tgt : Nat → Word) (l : Nat) : c.nextOf tgt l = if c.act.getLsbD l then tgt l else c.fall := rfl

/-- A word of the shape of a transfer, in a stream that is not traced: the effect stays, and every lane of the path stands at its next address. -/
theorem Issues.transfers {i : Instr} {s : State} {c : Ctx} (h : Issues s i c) {body : Ctx → Out} {uni : Bool} {tgt : Nat → Word}
    {eff : State → State} {t : Strand} (hb : body c = c.transfer uni tgt eff)
    (ht : (eff s).strand? c.id c.sid = some t) (hps : t.paths = c.t.paths) (htr : (eff s).tracedStream c.crew c.sid = false) (hne : c.lanes ≠ 0)
    (hal : ∀ l, c.act.getLsbD l = true → (tgt l).toNat % 8 = 0)
    (huni : uni = true → ∀ l k, c.lanes.getLsbD l = true → c.lanes.getLsbD k = true → c.nextOf tgt l = c.nextOf tgt k) :
    ∃ u, word i s body = .next u ∧ u.still = (eff s).still ∧ ∀ l, c.lanes.getLsbD l = true → StandsAt u c l (c.nextOf tgt l) := by
  obtain ⟨hs0, -, -, -, hp, -⟩ := ctx_eq h.slot
  have hpt : t.path? c.grant.path = some c.path := by rw [Strand.path?, hps]; exact hp
  have hbody : c.transfer uni tgt eff = .jump (eff s) ((lanesOf c.lanes).map fun l => (l, c.nextOf tgt l)) := by
    rw [Ctx.transfer, transferFaults_nil hal huni, hs0, Ctx.traceTransfer, htr, if_neg Bool.false_ne_true]
  have hend {l : Nat} (hl : c.lanes.getLsbD l = true) :=
    finish_jump_stands ht hpt (c.holdOf i) (mem_map_lanesOf (f := c.nextOf tgt) hl) (BitVec.lt_of_getLsbD hl)
  obtain ⟨l, hl⟩ : ∃ l, c.lanes.getLsbD l = true := by
    by_contra hno
    exact hne (BitVec.eq_of_getLsbD_eq fun i _ => by simpa using fun h => hno ⟨i, h⟩)
  refine ⟨_, word_issues h _, ?_, fun l hl => ?_⟩
  · rw [hb, hbody]; exact (hend hl).1
  · rw [hb, hbody]; exact (hend hl).2

/-- Settles O10: the three words are the same transfer, with no link. -/
theorem branches : Obligations.Branches := by
  unfold Obligations.Branches
  intro s c p uni a off hne htr go
  refine ⟨fun h hal huni => ?_, fun h hal huni => ?_, fun h hal huni => ?_⟩
  all_goals exact h.transfers (eff := fun s => s) rfl (ctx_eq h.slot).2.2.2.1 rfl htr hne hal huni

/-! ### Calls (R164) -/

/-- A state in which the word's stream has its paths, and the trace is written as before. -/
def Ctx.KeepsPaths (c : Ctx) (s u : State) : Prop :=
  (∀ t, s.strand? c.id c.sid = some t → ∃ t', u.strand? c.id c.sid = some t' ∧ t'.paths = t.paths) ∧ u.obs = s.obs

theorem Ctx.KeepsPaths.refl (c : Ctx) (s : State) : c.KeepsPaths s s := ⟨fun t ht => ⟨t, ht, rfl⟩, rfl⟩

theorem Ctx.KeepsPaths.trans {c : Ctx} {s u v : State} (h : c.KeepsPaths s u) (h' : c.KeepsPaths u v) : c.KeepsPaths s v := by
  refine ⟨fun t ht => ?_, h'.2.trans h.2⟩
  obtain ⟨t', ht', hp⟩ := h.1 t ht
  obtain ⟨t'', ht'', hp'⟩ := h'.1 t' ht'
  exact ⟨t'', ht'', hp'.trans hp⟩

theorem Ctx.keepsPaths_modT (c : Ctx) (s : State) {f : Strand → Strand} (hf : ∀ t, (f t).paths = t.paths) : c.KeepsPaths s (c.modT s f) :=
  ⟨fun t ht => ⟨_, c.strand?_modT ht f, hf t⟩, rfl⟩

theorem Ctx.keepsPaths_setV32 (c : Ctx) (n l : Nat) (v : BitVec 32) (s : State) : c.KeepsPaths s (c.setV32 n l v s) :=
  ⟨fun t ht => ⟨t, ht, rfl⟩, rfl⟩

/-- A change of a team's scratchpad leaves the streams. -/
theorem State.strand?_modTeam (s : State) (k r : Nat) {f : Team → Team} (hw : ∀ tm, (f tm).waves = tm.waves) (hp : ∀ tm, (f tm).producer = tm.producer)
    (sid : Sid) : (s.modTeam k r f).strand? k sid = s.strand? k sid := by
  rw [State.strand?, State.modTeam, State.crew?_modCrew_same s k (f := fun c => c.modTeam r f) (fun _ => rfl), State.strand?]
  cases s.crew? k with
  | none => rfl
  | some c =>
    have hteam (i : Nat) {α : Type} (g : Team → Option α) (hg : ∀ tm, g (f tm) = g tm) : ((c.modTeam r f).teams[i]?.bind g) = c.teams[i]?.bind g := by
      rw [Crew.modTeam_teams, List.getElem?_modify]
      cases c.teams[i]? with
      | none => rfl
      | some tm => by_cases hri : r = i <;> simp [hri, hg]
    simp only [Option.map_some, Option.bind_some]
    cases sid with
    | wave i w => exact hteam i _ fun tm => by rw [hw]
    | gaffer => rfl
    | producer i => exact hteam i _ hp

theorem Ctx.strand?_setSReg (c : Ctx) (n : Nat) (v : Word) (s : State) (sid : Sid) : (c.setSReg n v s).strand? c.id sid = s.strand? c.id sid :=
  s.strand?_modTeam c.id c.rank (f := fun tm => tm.setPadNat (c.prodPad + 0x400 + 8 * n) 8 v.toNat) (fun _ => rfl) (fun _ => rfl) sid

theorem Ctx.keepsPaths_write (c : Ctx) (t : Ty) (d : Opd) (l : Nat) (v : Word) (s : State) : c.KeepsPaths s (c.write t d l v s) := by
  cases d with
  | v n =>
    rw [Ctx.write]
    split
    · exact ⟨fun t ht => ⟨t, (c.strand?_setSReg ..).trans ht, rfl⟩, rfl⟩
    · have hlow := c.keepsPaths_setV32 n.toNat l (v.extractLsb' 0 32) s
      dsimp only
      split
      · exact hlow.trans (c.keepsPaths_setV32 ..)
      · exact hlow
  | g n => exact c.keepsPaths_modT s fun _ => rfl
  | x n => exact .refl c s
  | k k => exact .refl c s

theorem Ctx.keepsPaths_forLanes (c : Ctx) {f : Nat → State → State} (hf : ∀ l s, c.KeepsPaths s (f l s)) (s : State) : c.KeepsPaths s (c.forLanes f s) := by
  rw [Ctx.forLanes]
  generalize c.ls = L
  induction L generalizing s with
  | nil => exact .refl c s
  | cons l L ih => exact (hf l s).trans (ih _)

theorem Ctx.keepsPaths_link (c : Ctx) (d : Opd) (s : State) : c.KeepsPaths s (c.link d s) :=
  c.keepsPaths_forLanes (fun l s => (c.keepsPaths_write .n64 d l c.fall s).trans
    (c.keepsPaths_modT _ (f := fun t => t.modThread l fun h => { h with rlink := c.fall }) fun _ => rfl)) s

theorem Ctx.KeepsPaths.tracedStream {c : Ctx} {s u : State} (h : c.KeepsPaths s u) (k : Crew) (sid : Sid) : u.tracedStream k sid = s.tracedStream k sid := by
  have hobs : ∀ x, u.traced x = s.traced x := fun x => by rw [State.traced, State.traced, State.obsWord, State.obsWord, h.2]
  cases sid <;> simp [State.tracedStream, hobs]

/-- Settles O11: the links change no path, so that the transfer goes as one of `BRA` or `BRX`. -/
theorem calls : Obligations.Calls := by
  unfold Obligations.Calls
  intro s c p uni d a off hne htr go
  have hlink (o : Opd) {i : Instr} (h : Issues s i c) : ∃ t, (c.link o s).strand? c.id c.sid = some t ∧ t.paths = c.t.paths :=
    (c.keepsPaths_link o s).1 _ (ctx_eq h.slot).2.2.2.1
  have hgo {i : Instr} (o : Opd) {tgt : Nat → Word} (body : Ctx → Out) (hi : exec i s = word i s body) (hb : body c = c.transfer uni tgt (c.link o)) :
      go i o tgt := by
    intro h next hal huni
    obtain ⟨t, ht, hps⟩ := hlink o h
    obtain ⟨u, hu, hstill, hstand⟩ := h.transfers hb ht hps (((c.keepsPaths_link o s).tracedStream ..).trans htr) hne hal huni
    exact ⟨u, hi.trans hu, hstand, hstill⟩
  exact ⟨hgo a (fun c => c.transfer uni (fun _ => c.relTarget off) (c.link a)) rfl rfl, hgo d (fun c' => c'.transfer uni (c'.read .n64 a) (c'.link d)) rfl rfl⟩

end Sys2Proof.Machine
end

section
/-! Traps (R62 to R64, R195 to R204). -/

namespace Sys2Proof.Machine

/-! ### Entering a handler (R195 to R200) -/

theorem State.crew?_id {s : State} {k : Nat} {c : Crew} (h : s.crew? k = some c) : c.id = k := by
  simpa using List.find?_some (p := fun c : Crew => c.id == k) h

theorem Strand.path?_id {t : Strand} {i : Nat} {p : Path} (h : t.path? i = some p) : p.id = i := by
  simpa using List.find?_some (p := fun p : Path => p.id == i) h

/-- A trap outside a handler, in a stream that has one and that no armed debugger takes over, enters the handler. -/
theorem takeTrap_eq_enter {s : State} {crew pid : Nat} {sid : Sid} {r : Raise} {c : Crew} {t : Strand} {p : Path}
    (hc : s.crew? crew = some c) (ht : s.strand? crew sid = some t) (hp : t.path? pid = some p) (h8 : r.cause ≠ 8)
    (h14 : r.cause ≠ 14 ∨ s.armed c.asid c.secure = false) (hH : t.intr = none) (hn : c.handlerOf sid ≠ 0) (htr : s.tracedStream c sid = false) :
    s.takeTrap crew sid pid r = s.modStrand crew sid fun t => t.enter p r (c.handlerOf sid) (s.clk c.die) s.ids c.desc.limit := by
  have hin : t.inH = false := by rw [Strand.inH, hH]; rfl
  rcases h14 with h14 | h14
  · exact takeTrap_enters hc ht hp h8 h14 hin hn htr
  · have hn' : ¬ c.handlerOf sid = 0#64 := hn
    simp [State.takeTrap, hc, ht, hp, h8, h14, hin, hn', htr, State.traceTrap]

/-- The fields of TRAPCAUSE (R197, R198). -/
theorem trapCause_fields {cause kind logn pos : Nat} (pend : Bool) (hc : cause < 16) (hk : kind < 4) (hp : pos < 32) :
    let x := (trapCause cause kind logn pend pos).toNat
    fld x 0 4 = cause ∧ fld x 4 2 = kind ∧ fld x 8 4 = logn % 16 ∧ fld x 12 1 = b2n pend ∧ fld x 16 5 = pos
      ∧ fld x 6 2 = 0 ∧ fld x 13 3 = 0 ∧ fld x 21 11 = 0 := by
  have hb : b2n pend ≤ 1 := by cases pend <;> decide
  simp only [trapCause, BitVec.toNat_ofNat, fld]
  generalize b2n pend = b at hb
  have hx : (cause % 16 + kind % 4 * 2 ^ 4 + logn % 16 * 2 ^ 8 + b * 2 ^ 12 + pos % 32 * 2 ^ 16) % 2 ^ 32
      = cause + kind * 16 + logn % 16 * 256 + b * 4096 + pos * 65536 := by omega
  rw [hx]
  omega

/-- Settles O14: the trap is `Strand.enter`, whose fields are those of the statement. -/
theorem trapEntry : Obligations.TrapEntry := by
  unfold Obligations.TrapEntry
  intro s crew sid pid r c t p hc ht hp hH hn h8 h16 hkind hat h14 htr u
  have hu : u = s.modStrand crew sid fun t => t.enter p r (c.handlerOf sid) (s.clk c.die) s.ids c.desc.limit :=
    takeTrap_eq_enter hc ht hp h8 h14 hH hn htr
  have hpid := Strand.path?_id hp
  have hpos : r.at_.getD 0 < 32 := by
    cases h : r.at_ with
    | none => decide
    | some q => exact hat q h
  obtain ⟨hcause, hk, hlogn, hpend, hpos', hz6, hz13, hz21⟩ :=
    trapCause_fields (logn := t.logn) (r.pend || !(t.laterWatchdogs c.desc.limit p.id r.cause).isEmpty) h16 hkind hpos
  refine ⟨by rw [hu]; rfl, by rw [hu]; rfl, _, _, handlerPath t.nextId p (c.handlerOf sid), by rw [hu, State.strand?_modStrand_same, ht]; rfl, rfl, rfl, hcause, hk, hlogn, hpend.trans ?_, hpos',
    hz6, hz13, hz21, rfl, rfl, rfl, rfl, rfl, rfl, rfl, rfl, rfl, rfl, rfl, ?_⟩
  · refine b2n_eq_ite ?_
    rw [Bool.or_eq_true, Bool.not_eq_true', List.isEmpty_eq_false_iff, Strand.laterWatchdogs, ne_eq, List.map_eq_nil_iff, List.filter_eq_nil_iff, hpid]
    refine or_congr_right ?_
    push Not
    refine exists_congr fun q => and_congr_right fun _ => ?_
    simp only [Bool.and_eq_true, Bool.not_eq_true', Bool.and_eq_false_iff, beq_eq_false_iff_ne, decide_eq_false_iff_not, ne_eq, imp_iff_not_or]
  · rw [← hpid]

/-! ### A trap that ends the crew (R202, R203)

The record of the event is a write into the host's ring, and a write to a pinned line marks the staged steps that were read from it, also those of other
crews (R180). So the crews that stay are not always as they were. -/

/-- A crew of which one staged step was read from the host's line 0. -/
def stagedCrew : Crew :=
  (installCrew 1 .m 0).modTeam 0 fun t => { t with steps := [Staged.mk 0 0 none false 0 [] 0 0 none false [lineOf pcieKey] false [] []] }

/-- A crew whose producer is about to trap, beside one that has pinned the line into which the event ring's first record goes. -/
def ringOnPinnedLine : State :=
  { State.reset with crews := [installCrew 0 .s 0, stagedCrew], rings := List.replicate 4 { Ring.reset with rctl := 1 },
                     links := [{ up := true, gen := 1, width := 1 }], pins := [{ holder := .tile 1 0 0, line := lineOf pcieKey, away := false }] }

def softTrap : Raise := { cause := 15, kind := 2, mask := 1, pc := 0x1008, at_ := none, aux := 0, pend := false, access := 0, absent := false }

/-- Some staged step has been written under. -/
def Crew.hasWrittenStep (c : Crew) : Bool := c.teams.any fun t => t.steps.any Staged.srcw

theorem takeTrap_marks_staged_step : (ringOnPinnedLine.takeTrap 0 (.producer 0) 0 softTrap).crews.any Crew.hasWrittenStep = true := by decide +kernel

/-- Refutes O15: the event that reports the end of one crew is written over a line that another crew has pinned, whose staged step is marked. -/
theorem not_trapEndsCrew : ¬ Obligations.TrapEndsCrew := by
  unfold Obligations.TrapEndsCrew
  intro h
  have hcrews := h ringOnPinnedLine 0 (.producer 0) 0 softTrap _ _ _ rfl rfl rfl (.inr rfl) (by decide) (.inr (.inl (by decide))) (by decide +kernel)
  have hmarked := takeTrap_marks_staged_step
  rw [hcrews] at hmarked
  exact absurd hmarked (by decide +kernel)

/-! ### The checks at decode (R63, R64) -/

/-- The word's class or its place in the clause is wrong (R47, R51, R61, R301). -/
def Ctx.misplaced (c : Ctx) (i : Instr) : Bool :=
  !admits c.cls i || (isTransfer i && c.pos ≠ c.cl.head.count) || (isFirst i && c.pos ≠ 0) || (match i with | .hret .. => !c.inH | _ => false)

/-- The lesser of two causes of a word's specifiers, 3 before 4 (R64). -/
def firstCause : Option Nat → Option Nat → Option Nat
  | some 3, _ => some 3
  | _, some 3 => some 3
  | some k, _ => some k
  | none, k => k

/-- The checks of R64 before the privilege of the crew is looked at. -/
def Ctx.checkPlain (c : Ctx) (i : Instr) : Option Nat :=
  if c.misplaced i then some 2 else firstCause (c.checkUses (usesOf i)) (c.checkOwn i)

theorem Ctx.check_eq_or (c : Ctx) (i : Instr) : c.check i = (c.checkPlain i).or (c.checkPriv i) := by
  have hcheck : c.check i = if c.misplaced i then some 2 else match c.checkUses (usesOf i), c.checkOwn i with
      | some 3, _ => some 3
      | _, some 3 => some 3
      | some k, _ => some k
      | none, some k => some k
      | none, none => c.checkPriv i := rfl
  rw [hcheck, Ctx.checkPlain]
  split
  · rfl
  · generalize c.checkUses (usesOf i) = u, c.checkOwn i = o
    cases u with
    | none => cases o with
      | none => rfl
      | some k => unfold firstCause; split <;> simp_all
    | some j => unfold firstCause; split <;> simp_all

/-- The causes of specifiers: 3 and 4. -/
def IsSpecCause (o : Option Nat) : Prop := ∀ k, o = some k → k = 3 ∨ k = 4

namespace IsSpecCause
theorem none : IsSpecCause none := fun _ h => by cases h
theorem three : IsSpecCause (some 3) := fun _ h => .inl (Option.some.inj h).symm
theorem four : IsSpecCause (some 4) := fun _ h => .inr (Option.some.inj h).symm
theorem ite {p : Prop} [Decidable p] {a b : Option Nat} (ha : IsSpecCause a) (hb : IsSpecCause b) : IsSpecCause (if p then a else b) := by
  split
  · exact ha
  · exact hb
theorem firstCause {a b : Option Nat} (ha : IsSpecCause a) (hb : IsSpecCause b) : IsSpecCause (firstCause a b) := by
  intro k h
  unfold Machine.firstCause at h
  split at h
  · exact .inl (Option.some.inj h).symm
  · exact .inl (Option.some.inj h).symm
  · exact ha k h
  · exact hb k h
end IsSpecCause

theorem Ctx.checkUses_cause (c : Ctx) (l : List Use) : IsSpecCause (c.checkUses l) := .ite .three (.ite .four .none)

theorem Ctx.checkTile_cause (c : Ctx) (r : BitVec 2) (t : Option (BitVec 4)) (rs : List (BitVec 5)) : IsSpecCause (c.checkTile r t rs) :=
  .ite .three (.ite .four .none)

theorem Ctx.checkOwn_cause (c : Ctx) (i : Instr) : IsSpecCause (c.checkOwn i) := by
  unfold Ctx.checkOwn
  split
  all_goals first
    | exact c.checkTile_cause _ _ _
    | exact .none
    | exact .ite .none .four
    | exact .ite .four .none
    | exact .ite .three .none

/-- Before the privilege of the crew is looked at, a check fails with cause 2, 3 or 4. -/
theorem Ctx.checkPlain_cause {c : Ctx} {i : Instr} {k : Nat} (h : c.checkPlain i = some k) : 2 ≤ k ∧ k ≤ 4 := by
  rw [Ctx.checkPlain] at h
  split at h
  · cases h; decide
  · have := (c.checkUses_cause (usesOf i)).firstCause (c.checkOwn_cause i) k h
    omega

theorem Ctx.checkPriv_cause {c : Ctx} {i : Instr} {k : Nat} (h : c.checkPriv i = some k) : k = 5 := by
  unfold Ctx.checkPriv at h
  split at h
  all_goals first
    | (split at h <;> simp_all)
    | cases h

theorem Ctx.check_cause {c : Ctx} {i : Instr} {k : Nat} (h : c.check i = some k) : 2 ≤ k ∧ k ≤ 5 := by
  rw [c.check_eq_or, Option.or_eq_some_iff] at h
  rcases h with h | ⟨-, h⟩
  · have := Ctx.checkPlain_cause h; omega
  · have := Ctx.checkPriv_cause h; omega

/-- The words whose privilege the spec names (R63). -/
def needsPriv : Instr → Bool
  | .tsave .. | .tresumeCont .. | .tresumeWide .. | .tresumeRestart .. => true
  | .wrsr _ _ d _ => d == 0x128 || d == 0x129
  | _ => false

theorem Ctx.checkPriv_of_needsPriv {c : Ctx} {i : Instr} (h : needsPriv i = true) : c.checkPriv i = if c.crew.desc.priv then none else some 5 := by
  unfold needsPriv at h
  split at h
  case h_5 =>
    rcases Bool.or_eq_true_iff.mp h with h | h <;> (rw [beq_iff_eq.mp h]; cases hp : c.crew.desc.priv <;> simp [Ctx.checkPriv, hp])
  case h_6 => cases h
  all_goals rfl

/-- A write of a special register that is not one of R101 fails before the privilege is looked at. -/
theorem Ctx.checkPlain_wrsr_isSome {c : Ctx} {p : Pre} {t : Ty} {d : BitVec 10} {a : Opd} (hd : d.toNat / 256 ≠ 1) :
    (c.checkPlain (.wrsr p t d a)).isSome = true := by
  have hown : c.checkOwn (.wrsr p t d a) = some 3 := by simp [Ctx.checkOwn, hd]
  rw [Ctx.checkPlain, hown]
  split
  · rfl
  · unfold firstCause
    split <;> simp_all

/-- No other word's check comes to the privilege. -/
theorem Ctx.check_of_not_needsPriv {c : Ctx} {i : Instr} (h : needsPriv i = false) : c.check i = c.checkPlain i := by
  rw [c.check_eq_or]
  cases hp : c.checkPriv i with
  | none => exact Option.or_none
  | some k =>
    suffices hs : (c.checkPlain i).isSome = true by
      obtain ⟨j, hj⟩ := Option.isSome_iff_exists.mp hs
      rw [hj]; rfl
    unfold Ctx.checkPriv at hp
    split at hp
    case h_5 p t d a =>
      refine Ctx.checkPlain_wrsr_isSome fun hd => ?_
      have hne : d ≠ 0x128 ∧ d ≠ 0x129 := by simpa [needsPriv] using h
      have hmod : d.toNat % 256 = 40 ∨ d.toNat % 256 = 41 := by
        by_contra hno
        simp_all
      rcases hmod with hm | hm
      · exact hne.1 (BitVec.eq_of_toNat_eq (by change d.toNat = 296; omega))
      · exact hne.2 (BitVec.eq_of_toNat_eq (by change d.toNat = 297; omega))
    case h_6 => cases hp
    all_goals cases h

/-- Settles O17: the privilege is looked at last, and only for the words that the statement names. -/
theorem privilege : Obligations.Privilege := by
  unfold Obligations.Privilege
  intro s c i _ in_ special
  have hspecial : special = needsPriv i := rfl
  have hplain (b : Bool) : (in_ b).checkPlain i = c.checkPlain i := rfl
  have hne5 : c.checkPlain i ≠ some 5 := fun h => absurd (Ctx.checkPlain_cause h).2 (by decide)
  rw [hspecial]
  refine ⟨fun h => ?_, fun h => ?_⟩
  · have htrue : (in_ true).check i = c.checkPlain i := by rw [Ctx.check_eq_or, Ctx.checkPriv_of_needsPriv h, hplain]; exact Option.or_none
    have hfalse : (in_ false).check i = (c.checkPlain i).or (some 5) := by rw [Ctx.check_eq_or, Ctx.checkPriv_of_needsPriv h, hplain]; rfl
    rw [htrue, hfalse]
    exact ⟨fun h => by rw [h]; rfl, hne5, fun k h => by rw [h]; rfl⟩
  · rw [Ctx.check_of_not_needsPriv h, Ctx.check_of_not_needsPriv h, Ctx.check_of_not_needsPriv h, hplain, hplain]
    exact ⟨rfl, hne5⟩

/-! ### A word that traps at itself (R64) -/

theorem minBy_mem {α : Type} {f : α → Nat} {l : List α} {x : α} (h : minBy f l = some x) : x ∈ l := by
  induction l generalizing x with
  | nil => cases h
  | cons y l ih =>
    rw [minBy] at h
    split at h
    · cases h; exact List.mem_cons_self ..
    · rename_i z hz
      split at h
      · cases h; exact List.mem_cons_of_mem _ (ih hz)
      · cases h; exact List.mem_cons_self ..

theorem minBy_isSome {α : Type} {f : α → Nat} {l : List α} (h : l ≠ []) : ∃ x, minBy f l = some x := by
  cases l with
  | nil => exact absurd rfl h
  | cons y l =>
    rw [minBy]
    split
    · exact ⟨_, rfl⟩
    · split <;> exact ⟨_, rfl⟩

theorem foldl_min_const {l : List Nat} {k a : Nat} (hk : k ≤ a) (h : ∀ x ∈ l, x = k) (hne : l ≠ []) : l.foldl min a = k := by
  induction l generalizing a with
  | nil => exact absurd rfl hne
  | cons x l ih =>
    rw [List.foldl_cons, h x (List.mem_cons_self ..), Nat.min_eq_right hk]
    by_cases hl : l = []
    · rw [hl]; rfl
    · exact ih le_rfl (fun y hy => h y (List.mem_cons_of_mem _ hy)) hl

/-- Of lanes that all raise one cause the lowest is reported. -/
theorem worst_mem {fs : List LaneFault} {k : Nat} (hk : k ≤ 15) (h : ∀ f ∈ fs, f.cause = k) (hne : fs ≠ []) : worst fs ∈ fs := by
  have hmin : (fs.map LaneFault.cause).foldl min 15 = k := by
    refine foldl_min_const hk (fun x hx => ?_) (by simpa using hne)
    obtain ⟨f, hf, rfl⟩ := List.mem_map.mp hx
    exact h f hf
  have hall : fs.filter (fun f => f.cause == k) = fs := List.filter_eq_self.mpr fun f hf => by simp [h f hf]
  obtain ⟨f, hf⟩ := minBy_isSome (f := LaneFault.lane) hne
  simp only [worst, hmin, hall, hf, Option.getD_some]
  exact minBy_mem hf

theorem lanesFrom_lanesOf (m : Lanes) : lanesFrom (lanesOf m) = m := by
  refine BitVec.eq_of_getLsbD_eq fun i hi => ?_
  rw [lanesFrom_getLsbD]
  simp [hi]

theorem lanesOf_ne_nil {m : Lanes} (h : m ≠ 0) : lanesOf m ≠ [] := by
  intro hnil
  refine h (BitVec.eq_of_getLsbD_eq fun i _ => ?_)
  have : i ∉ lanesOf m := by rw [hnil]; exact List.not_mem_nil
  simpa using this

/-- A cause of decode raised for every lane of the path: the word traps at itself with kind 1, and TRAPAUX names the word. -/
theorem trapWord_allLanes {c : Ctx} {k : Nat} (s : State) (hk : k ≤ 5) (hne : c.path.lanes ≠ 0) : c.trapWord s 1 (c.allLanes k) = if c.mustHold then c.holdRaise
    else s.takeTrap c.id c.sid c.grant.path { cause := k, kind := 1, mask := c.path.lanes, pc := c.addr, at_ := some c.pos, aux := c.word, pend := false,
                                              access := 0, absent := false } := by
  have hw : worst (c.allLanes k) ∈ c.allLanes k := by
    refine worst_mem (k := k) (by omega) (fun f hf => ?_) (by simpa [Ctx.allLanes] using lanesOf_ne_nil hne)
    obtain ⟨l, -, rfl⟩ := List.mem_map.mp hf
    rfl
  obtain ⟨l, -, hl⟩ := List.mem_map.mp hw
  have hmask : lanesFrom ((c.allLanes k).map LaneFault.lane) = c.path.lanes := by
    rw [Ctx.allLanes, List.map_map]
    exact (congrArg lanesFrom (List.map_id _)).trans (lanesFrom_lanesOf _)
  have haux : auxOf c.word { lane := l, cause := k, addr := 0, kind := 0 } = c.word := by
    have : (k = 6 || k = 7 || k = 8 || k = 9) = false := by simp; omega
    rw [auxOf]
    simp only [this, Bool.false_eq_true, if_false]
  simp only [Ctx.trapWord, hmask, ← hl, haux]

/-- A word's meaning is `word` of a body, but for `RROT`, which may match as it issues. -/
theorem exec_eq_word {i : Instr} (s : State) (h : i.isWord = true) :
    (∃ body, exec i s = word i s body) ∨ ∃ p bwd a b n, i = .rrot p bwd a b n := by
  cases i
  case rrot p bwd a b n => exact .inr ⟨p, bwd, a, b, n, rfl⟩
  all_goals first | (cases h; done) | exact .inl ⟨_, rfl⟩

/-- A word that fails a check traps at itself before any effect (R64). -/
theorem exec_of_check {i : Instr} {s : State} {c : Ctx} {k : Nat} (hw : i.isWord = true) (hc : s.ctx? i.pre = some c) (hk : c.check i = some k) :
    exec i s = .next (c.trapWord (c.issued s) 1 (c.allLanes k)) := by
  have hrun (body : Ctx → Out) : c.run i body = c.trapWord (c.issued s) 1 (c.allLanes k) := by simp only [Ctx.run, hk, (ctx_eq hc).1]
  rcases exec_eq_word s hw with ⟨body, hbody⟩ | ⟨p, bwd, a, b, n, rfl⟩
  · rw [hbody, word, hc]
    exact congrArg _ (hrun body)
  · have hexec : exec (.rrot p bwd a b n) s = execRrot p bwd a b n s := rfl
    replace hc : s.ctx? p = some c := hc
    simp only [hexec, execRrot, hc, hrun, hk, Option.isNone_some, Bool.and_false, Bool.false_and, Bool.false_eq_true, if_false]

/-- Settles O16: every word is `word` of a body, which a failing check leaves out. -/
theorem decodeTraps : Obligations.DecodeTraps := by
  unfold Obligations.DecodeTraps
  refine ⟨fun s c i k hw hc hk hne => ?_, fun s c hc hd hne hm => ?_⟩
  · obtain ⟨hs0, -, -, ht, hp, -⟩ := ctx_eq hc
    rw [exec_of_check hw hc hk, trapWord_allLanes _ (Ctx.check_cause hk).2 hne]
    refine ⟨fun hm => by rw [hm]; rfl, fun hm => ?_⟩
    rw [hm, if_pos rfl]
    rw [← hs0] at ht
    refine ⟨_, _, _, rfl, rfl, congrArg State.mem (a₁ := c.s0) hs0, congrArg State.regs (a₁ := c.s0) hs0, c.strand?_modP ht _, ?_, rfl⟩
    rw [Strand.path?_modPath]
    · rw [hp]; rfl
    · exact fun _ => rfl
  · have hg := (ctx_eq hc).2.1
    have hs0 := (ctx_eq hc).1
    have hstep : step s = .next (c.trapWord (c.issued s) 1 (c.allLanes (badCause c.word))) := by
      have hf : s.fetchNext = .trapped (c.trapWord (c.issued c.s0) 1 (c.allLanes (badCause c.word))) := by
        unfold State.fetchNext; rw [hc]; simp only [hd]
      unfold step; rw [hg]; simp only [hf, hs0]
    have hcause : badCause c.word ≤ 5 := by unfold badCause; split <;> decide
    rw [hstep, trapWord_allLanes _ hcause hne, hm]
    rfl

end Sys2Proof.Machine
end

section
/-! What a write of memory leaves alone. A write changes the bytes, what the slices hold and count, the scatter slots, and the mark on staged steps that were
read from a pinned line (R180); the records of the machine's own trace and events are writes too. -/

namespace Sys2Proof.Machine

/-- A crew without the marks on its staged steps. -/
def Crew.unmarked (c : Crew) : Crew :=
  { c with teams := c.teams.map fun t => { t with steps := t.steps.map fun x => { x with srcw := false } } }

/-- A die without the pointers of its trace rings. -/
def Die.untraced (d : Die) : Die := { d with trwrite := 0, strwrite := 0, trlost := 0, strlost := 0, sinceSync := 0 }

/-- The state without what a write of memory, or of a trace record, may change. -/
def State.unapplied (s : State) : State :=
  { s with mem := [], past := [], lost := [], lines := [], changes := [], scatter := [], spill2 := [], held := [], pins := [], counters := [], signals := [],
           dies := s.dies.map Die.untraced, crews := s.crews.map Crew.unmarked }

theorem foldl_unapplied {α : Type} {f : State → α → State} (h : ∀ s x, (f s x).unapplied = s.unapplied) (l : List α) (s : State) :
    (l.foldl f s).unapplied = s.unapplied := by
  induction l generalizing s with
  | nil => rfl
  | cons x l ih => rw [List.foldl_cons, ih, h]

/-! ### The counters and the slices -/

@[simp] theorem State.signal_unapplied (s : State) (d b i n : Nat) : (s.signal d b i n).unapplied = s.unapplied := by
  rw [State.signal]; split <;> rfl

@[simp] theorem State.addCounter_unapplied (s : State) (d o n : Nat) : (s.addCounter d o n).unapplied = s.unapplied := by
  rw [State.addCounter]; split <;> rfl

@[simp] theorem State.signalAt_unapplied (s : State) (p : Point) (i n : Nat) : (s.signalAt p i n).unapplied = s.unapplied := by
  cases p <;> simp [State.signalAt]

@[simp] theorem State.countAt_unapplied (s : State) (p : Point) (i n : Nat) : (s.countAt p i n).unapplied = s.unapplied := by
  cases p <;> simp [State.countAt]

@[simp] theorem State.setHeld_unapplied (s : State) (p : Point) (l : List Held) : (s.setHeld p l).unapplied = s.unapplied := by
  simp only [State.setHeld, State.signalAt_unapplied]; rfl

@[simp] theorem State.setLine_unapplied (s : State) (l : Nat) (x : LineState) : (s.setLine l x).unapplied = s.unapplied := rfl

@[simp] theorem State.slicesOf_unapplied (s t : State) : (s.slicesOf t).unapplied = s.unapplied := rfl

@[simp] theorem State.touch_unapplied (s : State) (p : Point) (hold : Option Bool) (line : Nat) (wr : Bool) (team : Option (Nat × Nat)) :
    (s.touch p hold line wr team).unapplied = s.unapplied := by
  cases hold with
  | none => rfl
  | some cmp => cases p <;> rfl

@[simp] theorem State.dropCopies_unapplied (s : State) (p : Point) (line : Nat) : (s.dropCopies p line).unapplied = s.unapplied := by
  cases p with
  | slice d k =>
    simp only [State.dropCopies, State.countAt_unapplied]
    exact foldl_unapplied (fun _ _ => State.setHeld_unapplied ..) _ s
  | _ => rfl

@[simp] theorem State.unlose_unapplied (s : State) (line : Nat) (ws : List Host.Cell) : (s.unlose line ws).unapplied = s.unapplied := by
  rw [State.unlose]; split <;> rfl

@[simp] theorem State.stamp_unapplied (s : State) (p : Point) (line : Nat) : (s.stamp p line).2.unapplied = s.unapplied := rfl

@[simp] theorem State.setMem_unapplied (s : State) (k : Nat) (l : List Byte) : (s.setMem k l).unapplied = s.unapplied := rfl

/-! ### Writing memory -/

@[simp] theorem State.sourceWritten_unapplied (s : State) (line : Nat) : (s.sourceWritten line).unapplied = s.unapplied := by
  rw [State.sourceWritten]
  split
  · have hcrew (c : Crew) : Crew.unmarked { c with teams := c.teams.map (fun t =>
        { t with steps := mapIf (fun x => x.lines.contains line) (fun x => { x with srcw := true }) t.steps }) } = c.unmarked := by
      simp only [Crew.unmarked, List.map_map]
      congr 1
      refine List.map_congr_left fun t _ => ?_
      simp only [Function.comp, mapIf, List.map_map]
      congr 1
      refine List.map_congr_left fun x _ => ?_
      simp only [Function.comp]
      split <;> rfl
    simp only [State.unapplied, List.map_map]
    congr 1
    exact List.map_congr_left fun c _ => hcrew c
  · rfl

@[simp] theorem State.applyRaw_unapplied (s : State) (p : Point) (hold : Option Bool) (line : Nat) (ws : List Host.Cell) (team : Option (Nat × Nat)) :
    (s.applyRaw p hold line ws team).2.unapplied = s.unapplied := by
  have hmem (u : State) (m : List Host.Cell) (q : List (List Host.Cell)) : ({ u with mem := m, past := q } : State).unapplied = u.unapplied := rfl
  cases p <;> simp [State.applyRaw, hmem]

@[simp] theorem State.freeSlots_unapplied (s : State) (ws : List Nat) : (s.freeSlots ws).unapplied = s.unapplied := by
  simp only [State.freeSlots]
  rw [foldl_unapplied]
  · rfl
  · exact fun s w => foldl_unapplied (fun _ _ => State.setMem_unapplied ..) _ s

@[simp] theorem State.flushWord_unapplied (s : State) (p : Point) (hold : Option Bool) (w : Nat) (team : Option (Nat × Nat)) :
    (s.flushWord p hold w team).2.unapplied = s.unapplied := by
  rw [State.flushWord]; split <;> simp

@[simp] theorem State.flushWords_unapplied (s : State) (p : Point) (hold : Option Bool) (ws : List Nat) (team : Option (Nat × Nat)) :
    (s.flushWords p hold ws team).2.unapplied = s.unapplied := by
  rw [State.flushWords]
  generalize ([] : List (Nat × BitVec 32)) = acc
  induction ws generalizing s acc with
  | nil => rfl
  | cons w ws ih => rw [List.foldl_cons, ih, State.flushWord_unapplied]

@[simp] theorem State.apply_unapplied (s : State) (p : Point) (hold : Option Bool) (line : Nat) (ws : List Host.Cell) (team : Option (Nat × Nat)) :
    (s.apply p hold line ws team).2.2.unapplied = s.unapplied := by
  simp [State.apply]

/-! ### Records -/

@[simp] theorem State.putRecordAt_unapplied (s : State) (p : Point) (k : Nat) (ws : List Word) : (s.putRecordAt p k ws).unapplied = s.unapplied :=
  State.apply_unapplied ..

@[simp] theorem State.putRecord_unapplied (s : State) (k : Nat) (ws : List Word) : (s.putRecord k ws).unapplied = s.unapplied := State.putRecordAt_unapplied ..

/-- A change of a die's trace pointers. -/
theorem State.modDie_unapplied (s : State) (d : Nat) {f : Die → Die} (hf : ∀ x, (f x).untraced = x.untraced) : (s.modDie d f).unapplied = s.unapplied := by
  simp only [State.unapplied, State.modDie, listMod_map _ _ _ _ hf]

@[simp] theorem State.modDie_sinceSync_unapplied (s : State) (d n : Nat) : (s.modDie d fun x => { x with sinceSync := n }).unapplied = s.unapplied :=
  s.modDie_unapplied d fun _ => rfl

@[simp] theorem State.ringPut_unapplied (s : State) (die : Nat) (sec : Bool) (ws : List Word) : (s.ringPut die sec ws).unapplied = s.unapplied := by
  simp only [State.ringPut]
  rw [State.modDie_unapplied, State.putRecord_unapplied]
  cases sec <;> exact fun _ => rfl

@[simp] theorem State.setLost_unapplied (s : State) (die : Nat) (sec : Bool) (n : Nat) : (s.setLost die sec n).unapplied = s.unapplied := by
  rw [State.setLost, State.modDie_unapplied]
  cases sec <;> exact fun _ => rfl

@[simp] theorem State.emitOne_unapplied (s : State) (die kind : Nat) (w : Who) (payload : List Word) : (s.emitOne die kind w payload).unapplied = s.unapplied := by
  simp only [State.emitOne]
  split
  · simp
  · split
    · simp
    · split <;> simp

@[simp] theorem State.emitSyncTo_unapplied (s : State) (die : Nat) (secure : Bool) (rs : List (Who × Word)) :
    (s.emitSyncTo die secure rs).unapplied = s.unapplied := by
  simp only [State.emitSyncTo]
  rw [foldl_unapplied, State.emitOne_unapplied]
  exact fun _ _ => State.emitOne_unapplied ..

@[simp] theorem State.emitSync_unapplied (s : State) (die : Nat) (p : Crew → Sid → Bool) : (s.emitSync die p).unapplied = s.unapplied := by
  simp only [State.emitSync]
  split <;> split <;> simp

@[simp] theorem State.emit_unapplied (s : State) (die kind : Nat) (w : Who) (payload : List Word) : (s.emit die kind w payload).unapplied = s.unapplied := by
  simp only [State.emit]
  split
  · simp
  · split <;> simp

/-! ### Snapshots and events -/

/-- The state without what a write of memory, a snapshot or an event for the host may change. -/
def State.unwritten (s : State) : State := { s.unapplied with shadows := [], obs := [], rings := [], msix := [], posts := [] }

theorem unwritten_of_unapplied {s u : State} (h : u.unapplied = s.unapplied) : u.unwritten = s.unwritten := by
  rw [State.unwritten, h, State.unwritten]

theorem foldl_unwritten {α : Type} {f : State → α → State} (h : ∀ s x, (f s x).unwritten = s.unwritten) (l : List α) (s : State) :
    (l.foldl f s).unwritten = s.unwritten := by
  induction l generalizing s with
  | nil => rfl
  | cons x l ih => rw [List.foldl_cons, ih, h]

@[simp] theorem State.emit_unwritten (s : State) (die kind : Nat) (w : Who) (payload : List Word) : (s.emit die kind w payload).unwritten = s.unwritten :=
  unwritten_of_unapplied (State.emit_unapplied ..)

@[simp] theorem State.putRecordAt_unwritten (s : State) (p : Point) (k : Nat) (ws : List Word) : (s.putRecordAt p k ws).unwritten = s.unwritten :=
  unwritten_of_unapplied (State.putRecordAt_unapplied ..)

@[simp] theorem State.setObs_unwritten (s : State) (d o : Nat) (v : Word) : (s.setObs d o v).unwritten = s.unwritten := rfl
@[simp] theorem State.setShadow_unwritten (s : State) (d o : Nat) (v : Word) : (s.setShadow d o v).unwritten = s.unwritten := rfl

@[simp] theorem State.latch_unwritten (s : State) (die : Nat) : (s.latch die).unwritten = s.unwritten := by
  simp only [State.latch]
  rw [foldl_unwritten, foldl_unwritten, foldl_unwritten]
  · exact fun _ _ => rfl
  · refine fun s b => foldl_unwritten (fun s o => ?_) _ s
    split <;> simp
  · exact fun _ _ => rfl

@[simp] theorem State.snapshotAt_unwritten (s : State) (die seq : Nat) (tag : BitVec 32) (w : Who) : (s.snapshotAt die seq tag w).unwritten = s.unwritten := by
  simp [State.snapshotAt]

@[simp] theorem State.modRing_unwritten (s : State) (i : Nat) (f : Ring → Ring) : (s.modRing i f).unwritten = s.unwritten := rfl

@[simp] theorem State.writeRecord_unwritten (s : State) (i : Nat) (ws : List Word) : (s.writeRecord i ws).unwritten = s.unwritten := by
  have hmsix (u : State) (m : List Nat) : ({ u with msix := m } : State).unwritten = u.unwritten := rfl
  simp only [State.writeRecord, hmsix, State.modRing_unwritten, State.putRecordAt_unwritten]

@[simp] theorem State.postEvent_unwritten (s : State) (secure : Bool) (ws : List Word) : (s.postEvent secure ws).unwritten = s.unwritten := by
  simp only [State.postEvent]; split <;> simp

@[simp] theorem State.event_unwritten (s : State) (kind die : Nat) (w : Who) (r : RecInfo) : (s.event kind die w r).unwritten = s.unwritten := by
  simp [State.event]

/-! ### What states that differ in written memory agree in -/

theorem regs_of_unwritten {s u : State} (h : u.unwritten = s.unwritten) : u.regs = s.regs := by
  have hr : u.unwritten.regs = s.unwritten.regs := by rw [h]
  exact hr

theorem Crew.strand?_unmarked (c : Crew) (sid : Sid) : c.unmarked.strand? sid = c.strand? sid := by
  cases sid with
  | wave t w => simp only [Crew.strand?, Crew.unmarked, List.getElem?_map]; cases c.teams[t]? <;> rfl
  | gaffer => rfl
  | producer t => simp only [Crew.strand?, Crew.unmarked, List.getElem?_map]; cases c.teams[t]? <;> rfl

theorem crew?_of_unwritten {s u : State} (h : u.unwritten = s.unwritten) (k : Nat) : (u.crew? k).map Crew.unmarked = (s.crew? k).map Crew.unmarked := by
  have hfind (v : State) : (v.crew? k).map Crew.unmarked = v.unwritten.crews.find? fun c => c.id == k := by
    simp only [State.unwritten, State.unapplied, List.find?_map]
    rfl
  rw [hfind, hfind, h]

theorem strand?_of_unwritten {s u : State} (h : u.unwritten = s.unwritten) (k : Nat) (sid : Sid) : u.strand? k sid = s.strand? k sid := by
  have hbind (v : State) : v.strand? k sid = ((v.crew? k).map Crew.unmarked).bind fun c => c.strand? sid := by
    rw [State.strand?]
    cases v.crew? k with
    | none => rfl
    | some c => exact (c.strand?_unmarked sid).symm
  rw [hbind, hbind, crew?_of_unwritten h]

end Sys2Proof.Machine
end

section
/-! TRAP, BRK, SNAP and WRSR (R101, R195, R198, R204, R318). -/

namespace Sys2Proof.Machine

/-! ### A trap behind the word (R204) -/

/-- The state that a word leaves which raises a cause behind itself: its path stands at the next word. -/
def Ctx.behind (c : Ctx) (h : Option (Nat → Word)) (e : State) : State :=
  let s := c.putLatch h (c.issued e)
  let s := if c.isLast && !c.path.lone then c.modT s fun t =>
      { t with paths := ageOthers (s.eligible c.crew c.sid t) [c.grant.path] t.paths, clauses := t.clauses + 1 } else s
  c.modP s fun p => { p with prev := if c.isLast then c.addr else p.prev, only := none }

theorem finish_soft (c : Ctx) (h : Option (Nat → Word)) (e : State) (cause : Nat) (aux : Word) : c.finish h (.soft e cause aux) = if c.mustHold then c.holdRaise
    else (c.behind h e).takeTrap c.id c.sid c.grant.path { cause := cause, kind := 2, mask := c.act, pc := c.addr + 8,
                                                           at_ := if c.isLast then none else some (c.pos + 1), aux := aux, pend := false, access := 0, absent := false } := rfl

theorem still_behind (c : Ctx) (h : Option (Nat → Word)) (e : State) : (c.behind h e).still = e.still := by
  simp only [Ctx.behind, Ctx.modP, still_modPath]
  split
  · refine Eq.trans (still_modStrand _ _ _ _ fun t => rfl) ?_
    simp
  · simp

/-! ### What trap entry reads of a crew, which a stream's change leaves -/

theorem Crew.coreOf_eachStrand (c : Crew) (f : Strand → Strand) (sid : Sid) : (c.eachStrand f).coreOf sid = c.coreOf sid := by
  simp only [Crew.coreOf, Crew.eachStrand, List.getElem?_map]
  cases sidTeam? sid with
  | none => rfl
  | some t => cases ht : c.teams[t]? <;> simp [ht]

theorem Crew.teamCore_eachStrand (c : Crew) (f : Strand → Strand) (r : Nat) : (c.eachStrand f).teamCore r = c.teamCore r := by
  simp only [Crew.teamCore, Crew.eachStrand, List.getElem?_map]
  cases ht : c.teams[r]? <;> simp

theorem State.tracedStream_eachStrand (s : State) (c : Crew) (f : Strand → Strand) (sid : Sid) : s.tracedStream (c.eachStrand f) sid = s.tracedStream c sid := by
  cases sid with
  | gaffer =>
    simp only [State.tracedStream, Crew.teamCore_eachStrand]
    simp only [Crew.eachStrand, List.any_map]
    rfl
  | _ => simp only [State.tracedStream, Crew.coreOf_eachStrand]

/-- A crew that agrees with another but for its streams' progress has its handler, its identity and its trace. -/
structure SameCrew (s u : State) (c c' : Crew) : Prop where
  desc : c'.desc = c.desc
  asid : c'.asid = c.asid
  secure : c'.secure = c.secure
  die : c'.die = c.die
  traced : ∀ sid, u.tracedStream c' sid = s.tracedStream c sid

/-- Of states that differ in their streams' progress alone, the crews are the same but for that progress. -/
theorem crew?_of_still {s u : State} (h : u.still = s.still) {k : Nat} {c : Crew} (hc : s.crew? k = some c) :
    ∃ c', u.crew? k = some c' ∧ c'.eachStrand Strand.still = c.eachStrand Strand.still ∧ SameCrew s u c c' := by
  have hfind (v : State) : (v.crew? k).map (Crew.eachStrand Strand.still) = v.still.crews.find? fun c => c.id == k := by
    simp only [State.still, List.find?_map]
    rfl
  have hmap : (u.crew? k).map (Crew.eachStrand Strand.still) = some (c.eachStrand Strand.still) := by rw [hfind, h, ← hfind, hc]; rfl
  cases hu : u.crew? k with
  | none => rw [hu] at hmap; cases hmap
  | some c' =>
    rw [hu] at hmap
    have heq : c'.eachStrand Strand.still = c.eachStrand Strand.still := Option.some.inj hmap
    have hobs : u.obs = s.obs := by
      have : u.still.obs = s.still.obs := by rw [h]
      exact this
    have htraced : ∀ x, u.traced x = s.traced x := fun x => by rw [State.traced, State.traced, State.obsWord, State.obsWord, hobs]
    refine ⟨c', rfl, heq, ?_, ?_, ?_, ?_, fun sid => ?_⟩
    · exact (congrArg Crew.desc heq :)
    · exact (congrArg Crew.asid heq :)
    · exact (congrArg Crew.secure heq :)
    · exact (congrArg Crew.die heq :)
    · rw [← State.tracedStream_eachStrand u c' Strand.still, heq, State.tracedStream_eachStrand]
      cases sid <;> simp [State.tracedStream, htraced]

theorem strand?_of_still {s u : State} (h : u.still = s.still) {k : Nat} {sid : Sid} {t : Strand} (ht : s.strand? k sid = some t) :
    ∃ t', u.strand? k sid = some t' ∧ t'.still = t.still := by
  have hmap (c : Crew) : (c.strand? sid).map Strand.still = (c.eachStrand Strand.still).strand? sid := by
    cases sid with
    | wave i w =>
      simp only [Crew.strand?, Crew.eachStrand, List.getElem?_map]
      cases c.teams[i]? with
      | none => rfl
      | some tm => simp
    | gaffer => rfl
    | producer i =>
      simp only [Crew.strand?, Crew.eachStrand, List.getElem?_map]
      cases c.teams[i]? <;> rfl
  cases hc : s.crew? k with
  | none => simp [State.strand?, hc] at ht
  | some c =>
    obtain ⟨c', hc', heq, -⟩ := crew?_of_still h hc
    have hst : (u.strand? k sid).map Strand.still = some t.still := by
      rw [State.strand?, hc'] 
      rw [State.strand?, hc] at ht
      simp only [Option.bind_some] at ht ⊢
      rw [hmap, heq, ← hmap, ht]; rfl
    cases hu : u.strand? k sid with
    | none => rw [hu] at hst; cases hst
    | some t' => exact ⟨t', rfl, by rw [hu] at hst; exact Option.some.inj hst⟩

theorem Strand.path?_modPath_some {t : Strand} {i : Nat} {p : Path} (hp : t.path? i = some p) {f : Path → Path} (hf : ∀ p, (f p).id = p.id) :
    (t.modPath i f).path? i = some (f p) := by
  rw [Strand.path?_modPath t i hf, hp, Option.map_some]

/-- A change of paths that keeps their names loses none. -/
theorem path?_mapIf {t : Strand} {i : Nat} {p : Path} (hp : t.path? i = some p) (q : Path → Bool) {f : Path → Path} (hf : ∀ p, (f p).id = p.id) :
    ∃ p', ({ t with paths := mapIf q f t.paths } : Strand).path? i = some p' := by
  have hid : (fun p : Path => p.id == i) ∘ (fun p => if q p then f p else p) = fun p => p.id == i := by
    funext p
    simp only [Function.comp]
    split <;> simp [hf]
  refine ⟨if q p then f p else p, ?_⟩
  simp only [Strand.path?, mapIf, List.find?_map, hid]
  exact congrArg (Option.map _) hp

/-- Behind its word the stream still has the word's path. -/
theorem Ctx.path?_behind {c : Ctx} {e : State} {t : Strand} {p : Path} (ht : e.strand? c.id c.sid = some t) (hp : t.path? c.grant.path = some p)
    (h : Option (Nat → Word)) : ∃ t' p', (c.behind h e).strand? c.id c.sid = some t' ∧ t'.path? c.grant.path = some p' := by
  obtain ⟨t', L, ht', hp'⟩ := c.strand?_putLatch_issued ht hp h
  have hlast {u : State} {t : Strand} {p : Path} (ht : u.strand? c.id c.sid = some t) (hp : t.path? c.grant.path = some p) :
      ∃ t' p', (c.modP u fun p => { p with prev := if c.isLast then c.addr else p.prev, only := none }).strand? c.id c.sid = some t'
        ∧ t'.path? c.grant.path = some p' := ⟨_, _, c.strand?_modP ht _, Strand.path?_modPath_some hp fun _ => rfl⟩
  simp only [Ctx.behind]
  split
  · obtain ⟨p'', hp''⟩ := path?_mapIf hp' (fun p => !(List.contains [c.grant.path] p.id) && !p.midClause && (c.putLatch h (c.issued e)).eligible c.crew c.sid t' p)
      (f := fun p => { p with age := min 65535 (p.age + 1) }) fun _ => rfl
    exact hlast (c.strand?_modT ht' _) hp''
  · exact hlast ht' hp'

theorem trapCause_mod_pos (cause kind logn pos : Nat) (pend : Bool) : trapCause cause kind logn pend pos = trapCause cause kind logn pend (pos % 32) := by
  rw [trapCause, trapCause, Nat.mod_mod]

/-- A word that raises a cause behind itself, in a stream with a handler, enters it (R204). -/
theorem finish_soft_enters {c : Ctx} {s : State} {p : Pre} (hc : s.ctx? p = some c) (h : Option (Nat → Word)) {cause : Nat} (aux : Word) (hcause : cause = 14 ∨ cause = 15)
    (hm : c.mustHold = false) (hi : c.t.intr = none) (hn : c.crew.handlerOf c.sid ≠ 0) (ha : s.armed c.crew.asid c.crew.secure = false)
    (htr : s.tracedStream c.crew c.sid = false) :
    ∃ t, (c.finish h (.soft c.s0 cause aux)).mem = s.mem ∧ (c.finish h (.soft c.s0 cause aux)).regs = s.regs
      ∧ (c.finish h (.soft c.s0 cause aux)).strand? c.id c.sid = some t ∧ fld t.trap.cause.toNat 0 4 = cause ∧ fld t.trap.cause.toNat 4 2 = 2
      ∧ t.trap.mask = c.act ∧ t.trap.pc = (c.addr + 8) &&& 0x1FFFFFFFFFFFFFF ∧ t.trap.aux = aux ∧ t.paths.map Path.pc = [c.crew.handlerOf c.sid] := by
  obtain ⟨hs0, -, hcrew, ht, hp, -⟩ := ctx_eq hc
  rw [hs0]
  set r : Raise := { cause := cause, kind := 2, mask := c.act, pc := c.addr + 8, at_ := if c.isLast then none else some (c.pos + 1), aux := aux,
                     pend := false, access := 0, absent := false }
  have hstill := still_behind c h s
  obtain ⟨t', p', ht', hp'⟩ := Ctx.path?_behind ht hp h
  obtain ⟨t'', ht'', hst⟩ := strand?_of_still hstill ht
  obtain ⟨k, hk, -, hsame⟩ := crew?_of_still hstill hcrew
  obtain rfl : t'' = t' := Option.some.inj (ht''.symm.trans ht')
  have hi' : t''.intr = none := (congrArg Strand.intr hst :).trans hi
  have hhandler : k.handlerOf c.sid = c.crew.handlerOf c.sid := by simp only [Crew.handlerOf, hsame.desc]
  have harmed : (c.behind h s).armed k.asid k.secure = false := by
    have hd : (c.behind h s).debugarm = s.debugarm := (congrArg State.debugarm hstill :)
    have hs : (c.behind h s).armsec = s.armsec := (congrArg State.armsec hstill :)
    rw [hsame.asid, hsame.secure, State.armed, hd, hs]
    exact ha
  have hin : r.cause = 14 ∨ r.cause = 15 := hcause
  have henter := takeTrap_eq_enter hk ht' hp' (r := r) (by omega) (.inr harmed) hi' (by rwa [hhandler]) ((hsame.traced c.sid).trans htr)
  obtain ⟨hcf, hkf, -⟩ := trapCause_fields (cause := cause) (kind := 2) (logn := t''.logn) (pos := r.at_.getD 0 % 32)
    (r.pend || !(t''.laterWatchdogs k.desc.limit p'.id r.cause).isEmpty) (by omega) (by decide) (by omega)
  rw [finish_soft, hm, if_neg Bool.false_ne_true, henter]
  refine ⟨_, (congrArg State.mem hstill :), (congrArg State.regs hstill :), by rw [State.strand?_modStrand_same, ht']; rfl, ?_, ?_, rfl, rfl, rfl, ?_⟩
  · exact (congrArg (fun x : BitVec 32 => fld x.toNat 0 4) (trapCause_mod_pos ..)).trans hcf
  · exact (congrArg (fun x : BitVec 32 => fld x.toNat 4 2) (trapCause_mod_pos ..)).trans hkf
  · rw [← hhandler]; rfl

/-! ### TRAP, BRK and SNAP -/

/-- A word without a guarded lane that then has no effect. -/
theorem Issues.leaves_nothing {i : Instr} {s : State} {c : Ctx} (h : Issues s i c) {body : Ctx → Out} (hb : body c = .done c.s0) : Leaves (word i s body) s :=
  h.leaves_word (e := fun s => s) hb

/-- A trigger raises the sequence number, and one message waits for each die that does not latch at once. -/
theorem State.trigger_snaps (s : State) (die : Nat) (tag : BitVec 32) (w : Who) : (s.trigger die tag w).sseq = s.sseq + 1
    ∧ (s.trigger die tag w).snaps = s.snaps ++ ((List.range Config.dies).filter fun d => (s.snaps.any fun x => x.die == die) || d ≠ die).map
        fun d => (⟨d, s.sseq + 1, tag, w⟩ : Snap) := by
  simp only [State.trigger]
  split
  · exact ⟨rfl, rfl⟩
  · have h := State.snapshotAt_unwritten
    exact ⟨(congrArg State.sseq (h ..) :), (congrArg State.snaps (h ..) :)⟩

/-- Settles O18: what a trap behind the word saves is what `Strand.enter` saves, and latching a die touches no trigger. -/
theorem softTrapsAndSnapshots : Obligations.SoftTrapsAndSnapshots := by
  unfold Obligations.SoftTrapsAndSnapshots
  refine ⟨fun s c p imm => ?_, fun s c p a h => ⟨fun ha => h.leaves_nothing (by simp only [if_pos ha]), fun ha => ?_⟩⟩
  · intro go
    have hgo {i : Instr} {cause : Nat} (hcause : cause = 14 ∨ cause = 15) (body : Ctx → Out) (hi : exec i s = word i s body)
        (hb : body c = if c.act = 0 then .done c.s0 else .soft c.s0 cause (imm.setWidth 64)) : go i cause := by
      intro h
      refine ⟨fun ha => ?_, fun ha hm hintr hn harm htr => ?_⟩
      · rw [hi]; exact h.leaves_nothing (by rw [hb, if_pos ha])
      · obtain ⟨t, ht⟩ := finish_soft_enters h.slot (c.holdOf i) (imm.setWidth 64) hcause hm hintr hn harm htr
        refine ⟨_, t, hi.trans (word_issues h body), ?_⟩
        rw [hb, if_neg ha]
        exact ht
    exact ⟨hgo (.inr rfl) _ rfl rfl, hgo (.inl rfl) _ rfl rfl⟩
  · obtain ⟨u, hu, hstill⟩ := word_done h (body := fun c => .done (if c.act = 0 then c.s0
      else c.s0.trigger c.die ((c.read .n32 a (lowLane c.act)).setWidth 32) { c.crew.who c.sid (lowLane c.act) with pc := c.hdrAddr })) rfl
    rw [if_neg ha, (ctx_eq h.slot).1] at hstill
    obtain ⟨hseq, hsnaps⟩ := s.trigger_snaps c.die ((c.read .n32 a (lowLane c.act)).setWidth 32) { c.crew.who c.sid (lowLane c.act) with pc := c.hdrAddr }
    refine ⟨u, hu, (congrArg State.sseq hstill :).trans hseq, ?_⟩
    have hs : u.snaps = (s.trigger c.die ((c.read .n32 a (lowLane c.act)).setWidth 32) { c.crew.who c.sid (lowLane c.act) with pc := c.hdrAddr }).snaps :=
      (congrArg State.snaps hstill :)
    rw [hs, hsnaps, List.map_append, List.map_map]
    simp only [Bool.or_comm]
    rfl

end Sys2Proof.Machine
end


section
/-! Obligation O20: special registers written. -/

namespace Sys2Proof.Machine

theorem Ctx.forLanes_of_act_zero {c : Ctx} (h : c.act = 0) (f : Nat → State → State) (s : State) : c.forLanes f s = s := by
  simp [Ctx.forLanes, Ctx.ls, h, lanesOf]

/-- The code of a written TRAPCAUSE: the low six bits are the value's and the others stay. -/
theorem getLsbD_putCause (w : BitVec 32) (x : Word) (k : Nat) :
    (BitVec.ofNat 32 (w.toNat - fld w.toNat 0 6 + wfld x 0 6)).getLsbD k = if k < 6 then x.getLsbD k else w.getLsbD k := by
  have h := testBit_putField w.toNat x.toNat 0 6 k
  simp only [Nat.pow_zero, Nat.mul_one] at h
  have hx : wfld x 0 6 = x.toNat % 2 ^ 6 := by simp [wfld, fld]
  rw [hx, BitVec.getLsbD_ofNat, h]
  by_cases hk : k < 6
  · have h32 : k < 32 := by omega
    simp [hk, h32, BitVec.testBit_toNat]
  · have h32 : w.getLsbD k = (decide (k < 32) && w.getLsbD k) := by
      by_cases h32 : k < 32
      · simp [h32]
      · simp [h32, BitVec.getLsbD_of_ge w k (by omega)]
    simp [hk, BitVec.testBit_toNat, ← h32]

/-- A write of TRAPPC leaves the cause and makes KIND 2 where it is 0 or 1. -/
theorem fld_putPc (w : Nat) (hw : w < 2 ^ 32) :
    let v := if fld w 4 2 < 2 then BitVec.ofNat 32 (w + (2 - fld w 4 2) * 16) else BitVec.ofNat 32 w
    fld v.toNat 0 4 = fld w 0 4 ∧ fld v.toNat 4 2 = if fld w 4 2 = 3 then 3 else 2 := by
  intro v
  by_cases hk : fld w 4 2 < 2
  · rw [if_neg (by omega)]
    simp only [v, if_pos hk, BitVec.toNat_ofNat, fld] at *
    omega
  · have hv : v.toNat = w := by simpa [v, if_neg hk] using hw
    rw [hv]
    have := fld_lt w 4 2
    exact ⟨rfl, by by_cases h3 : fld w 4 2 = 3 <;> simp only [h3, if_true, if_false] ; omega⟩

/-- Settles O20: WRSR is the update of its one register, in each guarded lane or once for the path. -/
theorem writeSpecial : Obligations.WriteSpecial := by
  unfold Obligations.WriteSpecial
  intro s c p t a x one go lanes strand
  have hlanes {k : Nat} {f : Nat → Thread → Thread} (body : Ctx → Out) (he : exec (.wrsr p t (BitVec.ofNat 10 (256 + k)) a) s = word (.wrsr p t (BitVec.ofNat 10 (256 + k)) a) s body)
      (hb : body c = if c.act = 0 then .done c.s0 else .done (c.forLanes (fun l s => s.modThread c.id c.sid l (f l)) c.s0)) : go k True (lanes f) := by
    intro h _
    rw [he]
    refine h.leaves_word (e := c.forLanes fun l s => s.modThread c.id c.sid l (f l)) (hb.trans ?_)
    split
    · next h0 => rw [Ctx.forLanes_of_act_zero h0]
    · rfl
  have hshared {k : Nat} {f : Strand → Strand} (body : Ctx → Out) (he : exec (.wrsr p t (BitVec.ofNat 10 (256 + k)) a) s = word (.wrsr p t (BitVec.ofNat 10 (256 + k)) a) s body)
      (hb : body c = if c.act = 0 then .done c.s0 else if c.ls.any fun l => x l ≠ x (lowLane c.act) then raiseAll c 0 3 else .done (c.modT c.s0 f)) :
      go k one (strand f) := by
    intro h ⟨hact, hx⟩
    have hsame : (c.ls.any fun l => x l ≠ x (lowLane c.act)) = false := by simpa using fun l hl => hx l hl
    rw [he]
    exact h.leaves_word (e := fun s => s.modStrand c.id c.sid f) (by rw [hb, if_neg hact, hsame]; rfl)
  refine ⟨?_, hlanes _ rfl rfl, ?_, ?_, hshared _ rfl rfl, fun h ho => ⟨_, hshared (k := 40) _ rfl rfl h ho, fun t => ⟨rfl, rfl, fun k => getLsbD_putCause ..⟩⟩,
    fun h ho => ⟨_, hshared (k := 42) _ rfl rfl h ho, fun t => ⟨rfl, rfl, ?_⟩⟩⟩
  · exact hlanes _ rfl (by simp only [BitVec.setWidth_eq_extractLsb' (show 15 ≤ 64 by decide)]; rfl)
  · exact hlanes _ rfl (by simp only [BitVec.setWidth_eq_extractLsb' (show 7 ≤ 64 by decide)]; rfl)
  · rintro h ⟨⟨hact, hx⟩, hv⟩
    have hbad : (c.ls.filter fun l => !c.w2Valid (x l) || wfld (x l) 0 17 ≠ wfld (x (lowLane c.act)) 0 17) = [] := by
      simp only [List.filter_eq_nil_iff, Ctx.mem_ls]
      intro l hl
      simp [hx l hl, hv]
    refine h.leaves_word (e := fun s => s.modStrand c.id c.sid fun t => { t with w2 := x (lowLane c.act) &&& 0x18FFF }) ?_
    simp only [if_neg hact]
    exact congrArg (fun l : List Nat => Ctx.doneOr (Ctx.cause3 l) (if l.contains (lowLane c.act) then c.s0 else
      c.modT c.s0 fun t => { t with w2 := w2Keep (x (lowLane c.act)) })) hbad
  · have := fld_putPc t.trap.cause.toNat t.trap.cause.isLt
    simpa [Strand.putTrap] using this

end Sys2Proof.Machine
end


section
/-! Obligation O12: EXIT, which a waiting wait of the exiting path refutes. -/

namespace Sys2Proof.Machine
open Sys2Proof.Tests

/-! ### EXIT in a handler (R166, R305)

The exit settles the barriers. A path whose wait that ends while lanes have joined it parts from those lanes (`Path.parted`), and they stand in a path of their
own, which the word does not reach. -/

/-- A handler whose path has a team barrier's wait with joined lanes, though it issues; the exit of its threads completes that barrier. -/
def joinedHandler : State :=
  ((handling (raised 6 0 5) (issuing (.exit p0))).modPath 0 (.wave 0 0) 1 fun p => { p with wait := .more (.bar 0 0) none }).modCrew 0 fun c => c.modTeam 0
    fun t => { t with bars := listSet t.bars 0 (barWord 0 true true 32 0) }

/-- The stream of an outcome is in its handler. -/
def inHandlerAfter (o : Host.Outcome State Fault Refusal) (crew : Nat) (sid : Sid) : Bool :=
  match o with
  | .next u => (u.strand? crew sid).any Strand.inH
  | _ => false

theorem exit_joinedHandler_inHandler : inHandlerAfter (exec (.exit p0) joinedHandler) 0 (.wave 0 0) = true := by decide +kernel

/-- Refutes O12: the lanes that part from the exiting path keep the handler open, though every guarded lane has exited. -/
theorem not_exit : ¬ Obligations.Exit := by
  unfold Obligations.Exit
  intro h
  obtain ⟨c, hI, hP⟩ := issues_of_meets (s := joinedHandler) (i := .exit p0) (P := fun c => c.id == 0 && c.sid == .wave 0 0 && c.t.intr.isSome && c.act != 0
    && c.act == c.path.lanes && c.t.paths == [c.path] && fld c.t.trap.cause.toNat 4 2 != 3) (by decide +kernel)
  simp only [Bool.and_eq_true, beq_iff_eq, bne_iff_ne, Option.isSome_iff_exists] at hP
  obtain ⟨⟨⟨⟨⟨⟨hid, hsid⟩, i, hi⟩, hact⟩, hall⟩, hpaths⟩, hkind⟩ := hP
  obtain ⟨u, t, hu, ht, -, -, hleft⟩ := (h _ c p0 hI).2 i hi hact hpaths hkind
  have hin := exit_joinedHandler_inHandler
  rw [hid, hsid] at ht
  rw [hu, inHandlerAfter, ht, Option.any_some, Strand.inH, (hleft hall).1] at hin
  cases hin

end Sys2Proof.Machine
end


section
/-! Obligation O22: words that raise at issue. -/

namespace Sys2Proof.Machine

/-! ### What a word that raises leaves (R64, R195, R196, R199) -/

theorem minBy_le {α : Type} {f : α → Nat} {l : List α} {x : α} (h : minBy f l = some x) : ∀ y ∈ l, f x ≤ f y := by
  induction l generalizing x with
  | nil => cases h
  | cons z l ih =>
    rw [minBy] at h
    intro y hy
    split at h
    · next hnone =>
      cases h
      rcases List.mem_cons.mp hy with rfl | hy
      · exact le_rfl
      · obtain ⟨w, hw⟩ := minBy_isSome (f := f) (List.ne_nil_of_mem hy)
        rw [hnone] at hw; cases hw
    · next w hw =>
      split at h <;> cases h <;> rcases List.mem_cons.mp hy with rfl | hy
      · omega
      · exact ih hw y hy
      · exact le_rfl
      · exact le_trans (by omega) (ih hw y hy)

/-- Of faults of one cause, one for each lane of a list, the one reported is the lowest lane's. -/
theorem worst_map {L : List Nat} {g : Nat → LaneFault} {k l0 : Nat} (hk : k ≤ 15) (hlane : ∀ l, (g l).lane = l) (hcause : ∀ l ∈ L, (g l).cause = k)
    (h0 : l0 ∈ L) (hmin : ∀ l ∈ L, l0 ≤ l) : worst (L.map g) = g l0 := by
  have hne : L.map g ≠ [] := List.ne_nil_of_mem (List.mem_map_of_mem h0)
  have hall : ∀ f ∈ L.map g, f.cause = k := by
    intro f hf
    obtain ⟨l, hl, rfl⟩ := List.mem_map.mp hf
    exact hcause l hl
  have hfold : ((L.map g).map LaneFault.cause).foldl min 15 = k := by
    refine foldl_min_const hk (fun x hx => ?_) (by simpa using hne)
    obtain ⟨f, hf, rfl⟩ := List.mem_map.mp hx
    exact hall f hf
  have hself : (L.map g).filter (fun f => f.cause == k) = L.map g := List.filter_eq_self.mpr fun f hf => by simp [hall f hf]
  obtain ⟨f, hf⟩ := minBy_isSome (f := LaneFault.lane) hne
  obtain ⟨l, hl, rfl⟩ := List.mem_map.mp (minBy_mem hf)
  have hle := minBy_le hf _ (List.mem_map_of_mem h0)
  rw [hlane, hlane] at hle
  have heq : l = l0 := le_antisymm hle (hmin l hl)
  simp only [worst, hfold, hself, hf, Option.getD_some, heq]

theorem lowLane_le {m : Lanes} {l : Nat} (h : m.getLsbD l = true) : lowLane m ≤ l := by
  have hs : (lanesOf m).Pairwise (· < ·) := List.Pairwise.filter _ List.pairwise_lt_range
  have hl : l ∈ lanesOf m := mem_lanesOf.mpr h
  rw [lowLane]
  cases hL : lanesOf m with
  | nil => rw [hL] at hl; cases hl
  | cons x xs =>
    rw [hL] at hs hl
    rcases List.mem_cons.mp hl with rfl | hl
    · exact le_rfl
    · exact le_of_lt (List.rel_of_pairwise_cons hs hl)

theorem exists_lane {m : Lanes} (h : m ≠ 0) : ∃ l, m.getLsbD l = true := by
  by_contra hno
  exact h (BitVec.eq_of_getLsbD_eq fun i _ => by simpa using fun h => hno ⟨i, h⟩)

theorem lowLane_of_ne_zero {m : Lanes} (h : m ≠ 0) : m.getLsbD (lowLane m) = true :=
  let ⟨_, hl⟩ := exists_lane h; lowLane_mem hl

/-- The raise of a word in the lanes of a list, for one cause. -/
def Ctx.raiseOf (c : Ctx) (kind : Nat) (L : List Nat) (f : LaneFault) : Raise :=
  { cause := f.cause, kind := kind, mask := lanesFrom L, pc := c.addr, at_ := some c.pos, aux := auxOf c.word f, pend := false, access := f.kind, absent := f.absent }

theorem finish_raise {c : Ctx} (hj : c.path.joined = false) (h : Option (Nat → Word)) (s : State) (kind : Nat) (fs : List LaneFault) :
    c.finish h (.raise s kind fs) = c.trapWord (if kind = 0 then c.putLatch h (c.issued s) else c.issued s) kind fs := by
  have hw : ∀ w r, c.path.wait ≠ .more w r := by
    intro w r hw
    rw [Path.joined, hw] at hj
    cases hj
  simp only [Ctx.finish]

/-- A word that raises one cause in the lanes of a list traps at itself in those lanes, and names the datum of the lowest. -/
theorem finish_raise_map {c : Ctx} (hj : c.path.joined = false) (hm : c.mustHold = false) (h : Option (Nat → Word)) (s : State) (kind : Nat)
    {L : List Nat} {g : Nat → LaneFault} {k l0 : Nat} (hk : k ≤ 15) (hlane : ∀ l, (g l).lane = l) (hcause : ∀ l ∈ L, (g l).cause = k)
    (h0 : l0 ∈ L) (hmin : ∀ l ∈ L, l0 ≤ l) : c.finish h (.raise s kind (L.map g))
      = (if kind = 0 then c.putLatch h (c.issued s) else c.issued s).takeTrap c.id c.sid c.grant.path (c.raiseOf kind L (g l0)) := by
  have hmask : (L.map g).map LaneFault.lane = L := by
    rw [List.map_map]
    exact (List.map_congr_left fun l _ => hlane l).trans (List.map_id' L)
  simp only [finish_raise hj, Ctx.trapWord, hm, Bool.false_eq_true, if_false, worst_map hk hlane hcause h0 hmin, hmask, Ctx.raiseOf]

/-! ### Lanes that raise, in the order of their numbers -/

theorem Ctx.okLanes_of_all_bad {c : Ctx} {bad : List LaneFault} (h : ∀ l, c.act.getLsbD l = true → ∃ f ∈ bad, f.lane = l) : c.okLanes bad = [] := by
  rw [Ctx.okLanes, List.filter_eq_nil_iff]
  intro l hl
  obtain ⟨f, hf, hlane⟩ := h l (Ctx.mem_ls.mp hl)
  have : (bad.any fun f => f.lane == l) = true := List.any_eq_true.mpr ⟨f, hf, by simp [hlane]⟩
  simp [this]

/-- The faults of a transfer without `.uni` (R161). -/
theorem transferFaults_indirect (c : Ctx) (tgt : Nat → Word) : c.transferFaults false tgt
    = (c.ls.filter fun l => decide ((tgt l).toNat % 8 ≠ 0)).map fun l => { lane := l, cause := 7, addr := tgt l, kind := 0 } := by
  have h8 : ∀ l, ((tgt l).extractLsb' 0 3 != 0) = decide ((tgt l).toNat % 8 ≠ 0) := by
    intro l
    have : (tgt l).extractLsb' 0 3 = 0 ↔ (tgt l).toNat % 8 = 0 := by
      rw [← BitVec.toNat_inj]
      simp
    rw [bne_eq_decide, decide_eq_decide, not_iff_not, this]
  simp only [Ctx.transferFaults, h8, Bool.false_eq_true, if_false, List.append_nil]

/-- A transfer whose lowest guarded lane's target is misaligned traps at itself with kind 1, in the lanes whose target is. -/
theorem Issues.transfer_raises {i : Instr} {s : State} {c : Ctx} (h : Issues s i c) {body : Ctx → Out} {tgt : Nat → Word}
    (hb : c.transferFaults false tgt ≠ [] → body c = .raise c.s0 1 (c.transferFaults false tgt)) (hj : c.path.joined = false) (hm : c.mustHold = false)
    (hact : c.act ≠ 0) (hlow : (tgt (lowLane c.act)).toNat % 8 ≠ 0) : word i s body = .next ((c.issued s).takeTrap c.id c.sid c.grant.path
      (c.raiseOf 1 (c.ls.filter fun l => decide ((tgt l).toNat % 8 ≠ 0)) { lane := lowLane c.act, cause := 7, addr := tgt (lowLane c.act), kind := 0 })) := by
  have h0 : lowLane c.act ∈ c.ls.filter fun l => decide ((tgt l).toNat % 8 ≠ 0) :=
    List.mem_filter.mpr ⟨Ctx.mem_ls.mpr (lowLane_of_ne_zero hact), by simpa using hlow⟩
  have hmin : ∀ l ∈ c.ls.filter (fun l => decide ((tgt l).toNat % 8 ≠ 0)), lowLane c.act ≤ l :=
    fun l hl => lowLane_le (Ctx.mem_ls.mp (List.mem_filter.mp hl).1)
  rw [word_issues h, hb (by rw [transferFaults_indirect]; exact List.ne_nil_of_mem (List.mem_map_of_mem h0)), transferFaults_indirect,
    finish_raise_map hj hm _ _ _ (k := 7) (by decide) (fun _ => rfl) (fun _ _ => rfl) h0 hmin, (ctx_eq h.slot).1]
  rfl

theorem Ctx.raiseOf_aux_seven (c : Ctx) (kind : Nat) (L : List Nat) (l : Nat) (a : Word) :
    (c.raiseOf kind L { lane := l, cause := 7, addr := a, kind := 0 }).aux = a := rfl

/-- A word whose guarded lanes all raise cause 3. -/
theorem finish_raiseAll {c : Ctx} (hj : c.path.joined = false) (hm : c.mustHold = false) (hact : c.act ≠ 0) (h : Option (Nat → Word)) :
    c.finish h (raiseAll c 0 3) = (c.putLatch h (c.issued c.s0)).takeTrap c.id c.sid c.grant.path
      { cause := 3, kind := 0, mask := c.act, pc := c.addr, at_ := some c.pos, aux := c.word, pend := false, access := 0, absent := false } := by
  rw [raiseAll, finish_raise_map hj hm _ _ _ (k := 3) (by decide) (fun _ => rfl) (fun _ _ => rfl) (Ctx.mem_ls.mpr (lowLane_of_ne_zero hact))
    fun l hl => lowLane_le (Ctx.mem_ls.mp hl)]
  simp only [Ctx.raiseOf, Ctx.ls, lanesFrom_lanesOf]
  rfl

/-- Settles O22: in each word the faults are one for each lane of a list, in ascending order. -/
theorem trapsAtIssue : Obligations.TrapsAtIssue := by
  unfold Obligations.TrapsAtIssue
  refine ⟨fun s c p t z d a off h hj hm hact hbad => ?_, fun s c p a h hj hact hm hlow => ?_, fun s c p t rm d a pol f h hj hm => ?_,
    fun s c p b n h hj hm hact hbad => ?_⟩
  · have hs0 := (ctx_eq h.slot).1
    have hfilter : (c.ls.filter fun l => decide ((c.ea a off l).toNat % sizeBytes t z ≠ 0)) = c.ls :=
      List.filter_eq_self.mpr fun l hl => by simpa using hbad l (Ctx.mem_ls.mp hl)
    have hmis : Ctx.misaligned c.ls (c.ea a off) (sizeBytes t z) = c.ls.map fun l => { lane := l, cause := 7, addr := c.ea a off l, kind := 0 } :=
      congrArg (List.map _) hfilter
    have hok : c.okLanes (Ctx.misaligned c.ls (c.ea a off) (sizeBytes t z)) = [] :=
      Ctx.okLanes_of_all_bad fun l hl => ⟨_, by rw [hmis]; exact List.mem_map_of_mem (Ctx.mem_ls.mpr hl), rfl⟩
    have hnil : (Ctx.misaligned c.ls (c.ea a off) (sizeBytes t z)).isEmpty = false := by
      rw [hmis, List.isEmpty_eq_false_iff]
      exact List.ne_nil_of_mem (List.mem_map_of_mem (Ctx.mem_ls.mpr (lowLane_of_ne_zero hact)))
    show execLds p t z d a off s = _
    rw [execLds, word_issues h]
    simp only [Ctx.logIssue, hok, List.isEmpty_nil, if_true, hnil, Bool.false_eq_true, if_false]
    rw [hmis, finish_raise_map hj hm _ _ _ (k := 7) (by decide) (fun _ => rfl) (fun _ _ => rfl) (Ctx.mem_ls.mpr (lowLane_of_ne_zero hact))
      fun l hl => lowLane_le (Ctx.mem_ls.mp hl), hs0]
    simp only [Ctx.raiseOf, Ctx.ls, lanesFrom_lanesOf]
    rfl
  · refine ⟨_, h.transfer_raises (body := fun c => c.transfer false (c.read .n64 a) fun s => s) (tgt := c.read .n64 a) (fun hne => ?_) hj hm hact hlow,
      rfl, rfl, rfl, rfl, fun l => ?_⟩
    · rw [Ctx.transfer]
      split
      · next hnil => exact absurd hnil hne
      · rfl
    · rw [Ctx.raiseOf, lanesFrom_getLsbD]
      by_cases hl : c.act.getLsbD l = true
      · simp [hl, BitVec.lt_of_getLsbD hl]
      · simp [hl]
  · intro td r bad hne
    show execCvt p t rm d a pol f s = _
    obtain ⟨l0, rest, hcons⟩ := List.exists_cons_of_ne_nil hne
    have hsorted : (l0 :: rest).Pairwise (· < ·) := hcons ▸ List.Pairwise.filter _ (List.Pairwise.filter _ List.pairwise_lt_range)
    have hbody : c.convertLanes r (fun l q s => c.write td d l (BitVec.ofNat 64 q) s)
        = .raise (c.forLanes (fun l s => if (r l).fault then c.addCvt l (r l).flags s
            else c.write td d l (BitVec.ofNat 64 (r l).code) (c.addCvt l (r l).flags s)) c.s0) 0
          ((l0 :: rest).map fun l => { lane := l, cause := 10, addr := 0, kind := 0 }) := by
      simp only [Ctx.convertLanes]
      rw [show (c.ls.filter fun l => (r l).fault) = l0 :: rest from hcons]
    rw [execCvt, word_issues h]
    refine congrArg Host.Outcome.next ?_
    rw [show c.convertLanes (fun l => convert ((Ty.ofCode f).getD .n32).target rm pol (t.srcOf (c.rd t a l)))
        (fun l q s => c.write ((Ty.ofCode f).getD .n32) d l (BitVec.ofNat 64 q) s) = _ from hbody,
      finish_raise_map hj hm _ _ _ (k := 10) (l0 := l0) (by decide) (fun _ => rfl) (fun _ _ => rfl) (List.mem_cons_self ..), (ctx_eq h.slot).1, hcons]
    · rfl
    · intro l hl
      rcases List.mem_cons.mp hl with rfl | hl
      · exact le_rfl
      · exact le_of_lt (List.rel_of_pairwise_cons hsorted hl)
  · show execBarArv p b n s = _
    have hraise : c.barWordOut false false b n = raiseAll c 0 3 := by
      have hcond : (c.ls.any (fun l => c.rd .n32 b l ≠ c.rd .n32 b (lowLane c.act))
          || !barOk (c.barrier false n.toNat) (c.rd .n32 b (lowLane c.act)) c.ls.length (c.barThreads false)) = true := by
        rw [Bool.or_eq_true]
        rcases hbad with ⟨l, k, hl, hk, hne⟩ | hbad
        · left
          rw [List.any_eq_true]
          by_cases hlow : c.rd .n32 b l = c.rd .n32 b (lowLane c.act)
          · exact ⟨k, Ctx.mem_ls.mpr hk, by simpa using fun hk' => hne (hlow.trans hk'.symm)⟩
          · exact ⟨l, Ctx.mem_ls.mpr hl, by simpa using hlow⟩
        · exact .inr (by rw [Ctx.barThreads, if_neg Bool.false_ne_true, hbad]; rfl)
      simp only [Ctx.barWordOut, decide_eq_false hact, Bool.false_and, hcond, Bool.false_eq_true, if_false, if_true, Bool.not_false]
    rw [execBarArv, word_issues h, hraise, finish_raiseAll hj hm hact, (ctx_eq h.slot).1]

end Sys2Proof.Machine
end


section
/-! Obligation O13: the return from a handler. -/

namespace Sys2Proof.Machine

/-! ### The interrupted path among the paths that a handler held (R205, R301) -/

/-- A path at a place, outside its clause or joined at its waiting word. -/
def Path.resumesAt (q : Path) (m : Lanes) (a : Word) : Prop :=
  q.lanes &&& m = m ∧ q.pc = a ∧ (q.clause = none ∨ ∃ w r k, q.wait = .more w r ∧ q.only = some k ∧ k ≠ 0)

/-- Of a path that is held at a barrier, or joined there, another that merges with it keeps the clause. -/
theorem mergeInto_clause_of_held (cur : Nat) {p : Path} (q : Path) {w : Wait} (hp : p.heldWait = some w) : (mergeInto cur p q).clause = p.clause := by
  rw [mergeInto_eq, hp]
  rfl

theorem Path.freshLanes_of_not_held {p : Path} (h : p.heldWait = none) : p.freshLanes = some p.lanes := by
  rw [Path.heldWait] at h
  rw [Path.freshLanes]
  cases hw : p.wait <;> simp_all

theorem Path.resumesAt.mergeInto (cur : Nat) {p : Path} (q : Path) {m : Lanes} {a : Word} (hm : m ≠ 0) (h : p.resumesAt m a) :
    (mergeInto cur p q).resumesAt m a := by
  obtain ⟨hl, hpc, hc⟩ := h
  obtain ⟨hlanes, hpc', -, hwait⟩ := mergeInto_cases cur p q
  refine ⟨?_, hpc'.trans hpc, ?_⟩
  · rw [hlanes]
    refine BitVec.eq_of_getLsbD_eq fun i hi => ?_
    have := congrArg (BitVec.getLsbD · i) hl
    simp only [BitVec.getLsbD_and, BitVec.getLsbD_or] at this ⊢
    cases h1 : m.getLsbD i <;> simp_all
  · have hlne : p.lanes ≠ 0 := fun h0 => hm (by simpa [h0] using hl.symm)
    have hmore (hne : p.freshLanes.getD 0 ||| q.freshLanes.getD 0 ≠ 0) : (Machine.mergeInto cur p q).clause = none
        ∨ ∃ w r k, (Machine.mergeInto cur p q).wait = .more w r ∧ (Machine.mergeInto cur p q).only = some k ∧ k ≠ 0 := by
      rcases hwait with ⟨-, -, hc, -⟩ | hw
      · exact .inl hc
      · obtain ⟨w, hw, ho⟩ := hw hne
        exact .inr ⟨w, none, _, hw, ho, hne⟩
    rcases hc with hc | ⟨w, r, k, hw, ho, hk⟩
    · cases hheld : p.heldWait with
      | none => exact hmore (or_ne_zero_left _ (by rw [Path.freshLanes_of_not_held hheld]; exact hlne))
      | some w => exact .inl ((mergeInto_clause_of_held cur q hheld).trans hc)
    · exact hmore (or_ne_zero_left _ (by rw [Path.freshLanes, hw, ho]; exact hk))

/-- Merging a list keeps its first path first. -/
theorem mergePaths_head (P : Path → Prop) (cur : Nat) (hP : ∀ p q, P p → p.meets q = true ∨ q.meets p = true → P (mergeInto cur p q)) {p : Path} {l : List Path}
    (h : P p) : ∃ p' l', mergePaths cur (p :: l) = p' :: l' ∧ P p' := by
  have hfold : ∀ (l : List Path) (acc : List Path) (p : Path), P p → ∃ p' l', l.foldl (fun acc p => mergePath cur p acc) (p :: acc) = p' :: l' ∧ P p' := by
    intro l
    induction l with
    | nil => exact fun acc p h => ⟨p, acc, rfl, h⟩
    | cons q l ih =>
      intro acc p h
      rw [List.foldl_cons, mergePath]
      split
      · next hmeets => exact ih _ _ (hP p q h (.inr hmeets))
      · exact ih _ _ h
  exact hfold l [] p h

/-! ### The stream that leaves its handler -/

/-- What a stream keeps while its paths go. -/
structure SameHandler (t t' : Strand) : Prop where
  intr : t'.intr = t.intr
  trap : t'.trap = t.trap
  threads : t'.threads = t.threads

theorem SameHandler.alive {t t' : Strand} (h : SameHandler t t') : t'.alive = t.alive := by
  simp only [Strand.alive, Strand.thread, h.threads]

/-- The choice of the current path leaves the first path of the stream first, with what no merge changes. -/
theorem choosePath_head {s : State} {k : Nat} {sid : Sid} {t : Strand} (ht : s.strand? k sid = some t) :
    ∃ t', (s.choosePath k sid).strand? k sid = some t' ∧ SameHandler t t' ∧ (t.paths = [] → t'.paths = [])
      ∧ ∀ (P : Path → Prop) (p : Path) (l : List Path), t.paths = p :: l → (∀ p q, P p → p.meets q = true ∨ q.meets p = true → P (mergeInto t.cur p q)) →
        (∀ (p : Path) age lone yielded raises, P p → P { p with age := age, lone := lone, yielded := yielded, raises := raises }) → P p → ∃ q ∈ t'.paths, P q := by
  obtain ⟨c, hc⟩ : ∃ c, s.crew? k = some c := by
    cases hc : s.crew? k with
    | none => simp [State.strand?, hc] at ht
    | some c => exact ⟨c, rfl⟩
  simp only [State.choosePath, hc, ht]
  rw [State.strand?_modStrand_same, State.strand?_congr (State.coreSignal_crews ..), ht]
  refine ⟨_, rfl, ⟨rfl, rfl, rfl⟩, fun hps => ?_, fun P p l hps hP hage h => ?_⟩
  · split <;> simp [hps, mergePaths]
  · obtain ⟨q, l', hq, hqP⟩ := mergePaths_head P t.cur hP (l := l) h
    simp only [hps, hq]
    split
    · exact ⟨q, List.mem_cons_self .., hqP⟩
    · refine ⟨_, List.mem_map_of_mem (List.mem_cons_self ..), ?_⟩
      split
      · exact hage _ _ _ _ _ hqP
      · split
        · exact hqP
        · exact hage q q.age q.lone false q.raises hqP

/-- A clause ends with no lane left in its path, the stream's only one. -/
theorem endClause_nil {c : Ctx} {s : State} {t : Strand} {p : Path} (ht : s.strand? c.id c.sid = some t) (hps : t.paths = [p]) (hp : t.path? c.grant.path = some p) :
    ∃ t', (c.endClause s []).strand? c.id c.sid = some t' ∧ t'.paths = [] ∧ SameHandler t t' := by
  have hchoose {f : Strand → Strand} (hf : (f t).paths = []) (hsame : SameHandler t (f t)) :
      ∃ t', ((c.modT s f).choosePath c.id c.sid).strand? c.id c.sid = some t' ∧ t'.paths = [] ∧ SameHandler t t' := by
    obtain ⟨t', ht', h, hps', -⟩ := choosePath_head (c.strand?_modT ht f)
    exact ⟨t', ht', hps' hf, h.intr.trans hsame.intr, h.trap.trans hsame.trap, h.threads.trans hsame.threads⟩
  rw [Ctx.endClause]
  simp only [List.map_nil, Ctx.endClauseAt, ht, hp, hps, dedup, List.filter_nil, sortBy, List.length_nil, List.range_zero, List.zip_nil_left, List.foldl_nil,
    List.foldr_nil, List.append_nil, List.filter_cons, bne_self_eq_false, Bool.false_eq_true, if_false, ageOthers, mapIf, ite_self]
  split
  · exact ⟨_, c.strand?_modT ht _, rfl, rfl, rfl, rfl⟩
  · split
    · exact ⟨_, c.strand?_modT (c.strand?_modT ht _) _, rfl, rfl, rfl, rfl⟩
    · exact hchoose rfl ⟨rfl, rfl, rfl⟩

theorem State.crew?_modCrew_ne (s : State) {i j : Nat} (hij : j ≠ i) {f : Crew → Crew} (hf : ∀ c, (f c).id = c.id) : (s.modCrew i f).crew? j = s.crew? j := by
  have hid : (fun c : Crew => c.id == j) ∘ (fun c => if c.id == i then f c else c) = fun c => c.id == j := by
    funext c
    simp only [Function.comp]
    split <;> simp [hf]
  simp only [State.crew?, State.modCrew_crews, mapIf, List.find?_map, hid]
  cases hc : s.crews.find? fun c => c.id == j with
  | none => rfl
  | some c =>
    have hcj : c.id = j := by simpa using List.find?_some hc
    simp [hcj, hij]

/-- A change of crews that keeps their streams. -/
theorem State.strand?_modCrew (s : State) (i k : Nat) (sid : Sid) {f : Crew → Crew} (hf : ∀ c, (f c).id = c.id) (hs : ∀ c, (f c).strand? sid = c.strand? sid) :
    (s.modCrew i f).strand? k sid = s.strand? k sid := by
  rw [State.strand?, State.strand?]
  by_cases hik : k = i
  · subst hik
    rw [State.crew?_modCrew_same s k hf]
    cases s.crew? k with
    | none => rfl
    | some c => exact hs c
  · rw [State.crew?_modCrew_ne s hik hf]

/-- A change of all teams of a crew that keeps their streams. -/
theorem Crew.strand?_mapTeams (c : Crew) {f : Team → Team} (hw : ∀ t, (f t).waves = t.waves) (hp : ∀ t, (f t).producer = t.producer) (sid : Sid) :
    ({ c with teams := c.teams.map f } : Crew).strand? sid = c.strand? sid := by
  cases sid with
  | gaffer => rfl
  | wave r w => simp only [Crew.strand?, List.getElem?_map]; cases c.teams[r]? <;> simp [hw]
  | producer r => simp only [Crew.strand?, List.getElem?_map]; cases c.teams[r]? <;> simp [hp]

theorem State.strand?_adopt (s : State) (j k : Nat) (sid : Sid) : (s.adopt j).strand? k sid = s.strand? k sid := by
  rw [State.adopt]
  exact s.strand?_modCrew j k sid (fun _ => rfl) fun c => c.strand?_mapTeams (by exact fun _ => rfl) (by exact fun _ => rfl) sid

theorem strand?_leaveHandler {s : State} {k : Nat} {sid : Sid} {t : Strand} (ht : s.strand? k sid = some t) (hkind : fld t.trap.cause.toNat 4 2 ≠ 3) (hret : Word) :
    ∃ last, (s.leaveHandler k sid hret).strand? k sid = some (t.leave hret last) := by
  obtain ⟨c, hc⟩ : ∃ c, s.crew? k = some c := by
    cases hc : s.crew? k with
    | none => simp [State.strand?, hc] at ht
    | some c => exact ⟨c, rfl⟩
  simp only [State.leaveHandler, hc, ht, if_neg hkind]
  refine ⟨t.intr.bind fun i => i.path.at_.bind fun q => s.lastPos c sid (i.path.pc - BitVec.ofNat 64 (8 * (q + 1))), ?_⟩
  split
  · rw [State.strand?_adopt, State.strand?_modStrand_same, ht]; rfl
  · rw [State.strand?_modStrand_same, ht]; rfl

/-! ### HRET -/

theorem Path.resumeAt_spec (p : Path) (a hret : Word) (last : Option Nat) : (p.resumeAt a hret last).lanes = p.lanes ∧ (p.resumeAt a hret last).pc = a
    ∧ (p.resumeAt a hret last).clause = p.clause ∧ (p.wait = .none → (p.resumeAt a hret last).wait = .none) := by
  simp only [Path.resumeAt]
  split
  · split
    · next ha => exact ⟨rfl, ha.symm, rfl, fun h => h⟩
    · exact ⟨rfl, rfl, rfl, fun _ => rfl⟩
  · split <;> exact ⟨rfl, rfl, rfl, fun h => h⟩

/-- The return point of the interrupted path (R205): its place, and the lanes that are to issue the word again. -/
theorem Path.returned_spec (p : Path) (alive : Lanes) (kind : Nat) (pc : Word) (mask : Lanes) (hret : Word) (last : Option Nat) (hcl : p.clause = none) :
    let q := p.returned alive kind pc mask hret last
    q.lanes = p.lanes &&& alive ∧ q.clause = none ∧ q.pc = (if kind = 0 ∧ p.lanes &&& alive &&& mask = 0 then pc + 8 else pc)
      ∧ (kind = 0 → p.lanes &&& alive &&& mask ≠ 0 → p.wait = .none → q.wait = .none ∧ q.only = some (p.lanes &&& alive &&& mask)) := by
  intro q
  obtain ⟨hl8, hp8, hc8, -⟩ := Path.resumeAt_spec { p with lanes := p.lanes &&& alive, starve := 0 } (pc + 8) pc last
  obtain ⟨hl, hp, hc, hw⟩ := Path.resumeAt_spec { p with lanes := p.lanes &&& alive, starve := 0 } pc hret last
  by_cases hk : kind = 0
  · by_cases hm : p.lanes &&& alive &&& mask = 0
    · have hq : q = Path.resumeAt { p with lanes := p.lanes &&& alive, starve := 0 } (pc + 8) pc last := by
        simp only [q, Path.returned, if_pos hk, if_pos hm]
      rw [hq, if_pos ⟨hk, hm⟩]
      exact ⟨hl8, hc8.trans hcl, hp8, fun _ h => absurd hm h⟩
    · have hq : q = { Path.resumeAt { p with lanes := p.lanes &&& alive, starve := 0 } pc hret last with only := some (p.lanes &&& alive &&& mask) } := by
        simp only [q, Path.returned, if_pos hk, if_neg hm]
      rw [hq, if_neg fun h => hm h.2]
      exact ⟨hl, hc.trans hcl, hp, fun _ _ h => ⟨hw h, rfl⟩⟩
  · have hq : q = Path.resumeAt { p with lanes := p.lanes &&& alive, starve := 0 } pc hret last := by
      simp only [q, Path.returned, if_neg hk]
    rw [hq, if_neg fun h => hk h.1]
    exact ⟨hl, hc.trans hcl, hp, fun h => absurd h hk⟩

/-- The interrupted path as its stream resumes it: the return of its lanes whose threads have not ended. -/
def Strand.interruptedPath (t : Strand) (i : Intr) (hret : Word) (last : Option Nat) : Path :=
  i.path.returned t.alive (fld t.trap.cause.toNat 4 2) t.trap.pc t.trap.mask hret last

/-- The paths of a stream that has left its handler begin with the interrupted one. -/
theorem Strand.leave_paths {t : Strand} {i : Intr} (hi : t.intr = some i) (hret : Word) (last : Option Nat) (hcl : i.path.clause = none)
    (hne : i.path.lanes &&& t.alive ≠ 0) : ∃ l, (t.leave hret last).paths = t.interruptedPath i hret last :: l := by
  have hlanes : (t.interruptedPath i hret last).lanes = i.path.lanes &&& t.alive := (Path.returned_spec i.path t.alive _ t.trap.pc t.trap.mask hret last hcl).1
  have hself : ({ t.interruptedPath i hret last with lanes := (t.interruptedPath i hret last).lanes &&& t.alive } : Path) = t.interruptedPath i hret last := by
    have : (t.interruptedPath i hret last).lanes &&& t.alive = (t.interruptedPath i hret last).lanes := by rw [hlanes, BitVec.and_assoc, BitVec.and_self]
    rw [this]
  have hleave : (t.leave hret last).paths
      = ((t.interruptedPath i hret last :: i.held).map fun q => { q with lanes := q.lanes &&& t.alive }).filter fun q => q.lanes != 0 := by
    rw [Strand.leave, hi]; rfl
  rw [hleave, List.map_cons, hself, List.filter_cons_of_pos (by simpa [hlanes] using hne)]
  exact ⟨_, rfl⟩

theorem Strand.leave_intr {t : Strand} {i : Intr} (hi : t.intr = some i) (hret : Word) (last : Option Nat) :
    (t.leave hret last).intr = none ∧ (t.leave hret last).trap = { cause := 0, mask := 0, pc := 0, aux := 0 } := by
  rw [Strand.leave, hi]
  exact ⟨rfl, rfl⟩

/-- The interrupted path back in its stream: at its return point, and as one path of the lanes that are to issue the word again where some are. -/
def Path.ReturnedAs (i : Intr) (kind : Nat) (back mask : Lanes) (a : Word) (q : Path) : Prop :=
  q.resumesAt back a ∧ (kind = 0 → back &&& mask ≠ 0 → i.path.wait = .none → q.lanes = back ∧ q.only = some (back &&& mask) ∧ q.wait = .none)

theorem Strand.interruptedPath_returnedAs (t : Strand) (i : Intr) (hret : Word) (last : Option Nat) (hcl : i.path.clause = none) :
    Path.ReturnedAs i (fld t.trap.cause.toNat 4 2) (i.path.lanes &&& t.alive) t.trap.mask
      (if fld t.trap.cause.toNat 4 2 = 0 ∧ i.path.lanes &&& t.alive &&& t.trap.mask = 0 then t.trap.pc + 8 else t.trap.pc) (t.interruptedPath i hret last) := by
  obtain ⟨hl, hc, hp, ho⟩ := Path.returned_spec i.path t.alive (fld t.trap.cause.toNat 4 2) t.trap.pc t.trap.mask hret last hcl
  refine ⟨⟨?_, hp, .inl hc⟩, fun h1 h2 h3 => ⟨hl, (ho h1 h2 h3).2, (ho h1 h2 h3).1⟩⟩
  rw [show (t.interruptedPath i hret last).lanes = _ from hl, BitVec.and_self]

theorem Path.meets_atHeader {p q : Path} (h : p.meets q = true ∨ q.meets p = true) : p.atHeader = true := by
  simp only [Path.meets, Bool.and_eq_true] at h
  rcases h with ⟨⟨⟨h, -⟩, -⟩, -⟩ | ⟨⟨⟨-, h⟩, -⟩, -⟩ <;> exact h

/-- No path merges with one of which some lanes alone are to issue the word again. -/
theorem Path.not_atHeader_of_only {p : Path} {m : Lanes} (ho : p.only = some m) (hw : p.wait = .none) : p.atHeader = false := by
  simp [Path.atHeader, ho, hw]

theorem Path.ReturnedAs.mergeInto (cur : Nat) {i : Intr} {kind : Nat} {back mask : Lanes} {a : Word} {p q : Path} (h : p.ReturnedAs i kind back mask a)
    (hback : back ≠ 0) (hm : p.meets q = true ∨ q.meets p = true) : (Machine.mergeInto cur p q).ReturnedAs i kind back mask a := by
  refine ⟨h.1.mergeInto cur q hback, fun hk hb hw => ?_⟩
  obtain ⟨-, ho, hw⟩ := h.2 hk hb hw
  have := Path.meets_atHeader hm
  rw [Path.not_atHeader_of_only ho hw] at this
  cases this

theorem ctx_act_lanes {s : State} {p : Pre} {c : Ctx} (h : s.ctx? p = some c) {l : Nat} (hl : c.act.getLsbD l = true) : c.lanes.getLsbD l = true := by
  obtain ⟨-, -, -, -, -, -, -, -, -, -, hact⟩ := ctx_eq h
  rw [hact, lanesWhere_getLsbD] at hl
  simp_all

theorem ctx_lanes_path {s : State} {p : Pre} {c : Ctx} (h : s.ctx? p = some c) {l : Nat} (hl : c.lanes.getLsbD l = true) : c.path.lanes.getLsbD l = true := by
  obtain ⟨-, -, -, -, -, -, -, -, -, hlanes, -⟩ := ctx_eq h
  rw [hlanes] at hl
  split at hl
  · rw [BitVec.getLsbD_and] at hl
    exact (Bool.and_eq_true _ _ ▸ hl).1
  · exact hl

theorem lanesOf_sub_compl {m k : Lanes} (h : ∀ l, m.getLsbD l = true → k.getLsbD l = true) : lanesOf (m &&& ~~~k) = [] := by
  have h0 : m &&& ~~~k = 0 := by
    refine BitVec.eq_of_getLsbD_eq fun i hi => ?_
    have := h i
    rw [BitVec.getLsbD_and, BitVec.getLsbD_not]
    cases h1 : m.getLsbD i <;> simp_all
  rw [h0]; rfl

/-- Where a word sends every lane of its path away, no lane stays and none is passed over. -/
theorem Issues.no_lane_stays {i : Instr} {s : State} {c : Ctx} (h : Issues s i c) (hall : c.act = c.path.lanes) : c.stay = [] ∧ c.skipped s = [] := by
  obtain ⟨-, -, -, ht, hp, -⟩ := ctx_eq h.slot
  have hle : ∀ l, c.path.lanes.getLsbD l = true → c.act.getLsbD l = true := fun l hl => by rw [hall]; exact hl
  refine ⟨?_, ?_⟩
  · rw [Ctx.stay, lanesOf_sub_compl fun l hl => hle l (ctx_lanes_path h.slot hl)]; rfl
  · rw [Ctx.skipped, c.left_eq ht hp, lanesOf_sub_compl fun l hl => ctx_act_lanes h.slot (hle l hl)]; rfl

/-- After a word that no lane of the only path survives, the stream has no path left, before it looks whether it leaves its handler. -/
theorem Issues.paths_gone {i : Instr} {s : State} {c : Ctx} (h : Issues s i c) (hall : c.act = c.path.lanes) (hps : c.t.paths = [c.path]) (hold : Option (Nat → Word)) :
    ∃ u t', c.finish hold (.jump s c.stay) = c.checkReturn u ∧ u.strand? c.id c.sid = some t' ∧ t'.paths = [] ∧ SameHandler c.t t' := by
  obtain ⟨-, -, -, ht, hp, -⟩ := ctx_eq h.slot
  obtain ⟨hstay, hskip⟩ := h.no_lane_stays hall
  have hid : c.path.id = c.grant.path := Strand.path?_id hp
  have hissued : (c.issuedStrand s c.t).paths = [{ c.path with starve := 0, raises := false }] := by
    rw [Ctx.issuedStrand, Strand.modPath]
    simp only [hps, mapIf, List.map_cons, List.map_nil, hid, beq_self_eq_true, if_true]
  obtain ⟨t1, ht1, hps1, hsame⟩ := endClause_nil (c.strand?_issued ht) hissued (by rw [Strand.path?, hissued]; simp [hid])
  exact ⟨_, t1, by rw [hstay, finish_jump, hskip, List.append_nil], ht1, hps1, hsame.intr, hsame.trap, hsame.threads⟩

/-- A stream with no path left leaves its handler: its trap registers are clear, and some path of it has what the interrupted one has and no merge changes. -/
theorem checkReturn_leaves {c : Ctx} {u : State} {t : Strand} {i : Intr} (ht : u.strand? c.id c.sid = some t) (hps : t.paths = []) (hi : t.intr = some i)
    (hkind : fld t.trap.cause.toNat 4 2 ≠ 3) (hcl : i.path.clause = none) : ∃ t' last, (c.checkReturn u).strand? c.id c.sid = some t' ∧ t'.intr = none
      ∧ t'.trap = { cause := 0, mask := 0, pc := 0, aux := 0 }
      ∧ (i.path.lanes &&& t.alive ≠ 0 → ∀ P : Path → Prop, (∀ cur p q, P p → p.meets q = true ∨ q.meets p = true → P (mergeInto cur p q)) →
        (∀ (p : Path) age lone yielded raises, P p → P { p with age := age, lone := lone, yielded := yielded, raises := raises }) →
        P (t.interruptedPath i c.addr last) → ∃ q ∈ t'.paths, P q) := by
  obtain ⟨last, hleave⟩ := strand?_leaveHandler ht hkind c.addr
  obtain ⟨hintr, htrap⟩ := Strand.leave_intr hi c.addr last
  have hin : (t.inH && t.paths.isEmpty) = true := by rw [Strand.inH, hi, hps]; rfl
  simp only [Ctx.checkReturn, ht, hin, if_true]
  have hmod := c.strand?_modT hleave fun t => { t with paths := t.paths.map fun p =>
        { p with lone := p.lone && t.inBuffer (lowLane p.lanes) (headerOf p.pc (p.clause.elim p.at_ fun _ => none)),
                 yielded := p.yielded && (p.lone && t.inBuffer (lowLane p.lanes) (headerOf p.pc (p.clause.elim p.at_ fun _ => none)) || !p.lone), raises := false } }
  have hhead (hne : i.path.lanes &&& t.alive ≠ 0) : ∃ l, (t.leave c.addr last).paths = t.interruptedPath i c.addr last :: l :=
    Strand.leave_paths hi c.addr last hcl hne
  split
  · refine ⟨_, last, hmod, hintr, htrap, fun hne P _ hage hP => ?_⟩
    obtain ⟨l, hl⟩ := hhead hne
    exact ⟨_, List.mem_map_of_mem (by rw [hl]; exact List.mem_cons_self ..), hage _ (t.interruptedPath i c.addr last).age _ _ _ hP⟩
  · obtain ⟨t', ht', hsame, -, hP⟩ := choosePath_head hmod
    refine ⟨t', last, ht', hsame.intr.trans hintr, hsame.trap.trans htrap, fun hne P hmerge hage h => ?_⟩
    obtain ⟨l, hl⟩ := hhead hne
    exact hP P _ _ (by rw [hl]; rfl) (fun p q => hmerge _ p q) hage (hage _ (t.interruptedPath i c.addr last).age _ _ _ h)

/-- Settles O13: when its last handler path has gone, the stream leaves its handler, and the interrupted path is the first of those that it then has. -/
theorem handlerReturn : Obligations.HandlerReturn := by
  unfold Obligations.HandlerReturn
  refine ⟨fun s c p h hj hact hm hpc => ?_, fun s c p i h hi hall hps hpc hcl htr => ?_⟩
  · refine ⟨_, h.transfer_raises (body := fun c => match c.transferFaults false fun _ => c.t.trap.pc with
      | [] => .jump (c.traceTransfer (fun _ => c.t.trap.pc) c.s0) c.stay
      | fs => .raise c.s0 1 fs) (tgt := fun _ => c.t.trap.pc) (fun hne => ?_) hj hm hact hpc, rfl, rfl, rfl, ?_, rfl⟩
    · show (match c.transferFaults false fun _ => c.t.trap.pc with
        | [] => Out.jump (c.traceTransfer (fun _ => c.t.trap.pc) c.s0) c.stay
        | fs => .raise c.s0 1 fs) = _
      split
      · next hnil => exact absurd hnil hne
      · rfl
    · have : (c.ls.filter fun _ => decide (c.t.trap.pc.toNat % 8 ≠ 0)) = c.ls := List.filter_eq_self.mpr fun _ _ => by simpa using hpc
      rw [Ctx.raiseOf, this]
      exact lanesFrom_lanesOf c.act
  · intro kind back hkind
    obtain ⟨u, t1, hfin, ht1, hps1, hsame⟩ := h.paths_gone hall hps (c.holdOf (.hret p))
    have hexec : exec (.hret p) s = .next (c.checkReturn u) := by
      show execHret p s = _
      rw [execHret, word_issues h, transferFaults_nil (fun _ _ => hpc) (fun hu => absurd hu Bool.false_ne_true), (ctx_eq h.slot).1, Ctx.traceTransfer, htr,
        if_neg Bool.false_ne_true, hfin]
    obtain ⟨t', last, ht', hintr, htrap, hq⟩ := checkReturn_leaves ht1 hps1 (hsame.intr.trans hi) (by rw [hsame.trap]; exact hkind) hcl
    refine ⟨_, t', hexec, ht', hintr, htrap, fun l hl => ?_⟩
    have hsameP : t1.interruptedPath i c.addr last = c.t.interruptedPath i c.addr last := by
      simp only [Strand.interruptedPath, hsame.alive, hsame.trap]
    rw [hsame.alive, hsameP] at hq
    have hback : back ≠ 0 := lanes_ne_zero hl
    have hmerge (cur : Nat) (x y : Path) (hx : Path.ReturnedAs i kind back c.t.trap.mask (if kind = 0 ∧ back &&& c.t.trap.mask = 0 then c.t.trap.pc + 8 else c.t.trap.pc) x)
        (hm : x.meets y = true ∨ y.meets x = true) := hx.mergeInto cur hback hm
    obtain ⟨q, hqt, ⟨hql, hqp, hqc⟩, hqo⟩ := hq hback _ hmerge (fun _ _ _ _ _ hp => hp) (c.t.interruptedPath_returnedAs i c.addr last hcl)
    refine ⟨q, hqt, ?_, ?_, hqp, fun h1 h2 h3 => ?_⟩
    · have := congrArg (BitVec.getLsbD · l) hql
      simp only [BitVec.getLsbD_and, hl, Bool.and_true] at this
      exact this
    · rcases hqc with hc | ⟨w, r, k, hw, -⟩
      · exact .inl hc
      · exact .inr (by rw [Path.joined, hw])
    · exact ⟨(hqo h1 h2 h3).1, (hqo h1 h2 h3).2.1⟩

end Sys2Proof.Machine
end


section
/-! Obligations O21, O23, O24, O26 and O27: memory words as they issue. -/

namespace Sys2Proof.Machine

/-! ### A new entry of the log (R206, R298) -/

/-- The entry that a word makes for the lanes of a list. -/
def Ctx.entryOf (c : Ctx) (id : Nat) (logged : Bool) (ls : List Nat) (src : Nat → List Word) (k : Counts) : Entry :=
  { id := id, word := c.word, pos := c.pos, path := c.grant.path, inH := c.inH, logged := logged, lanes := lanesFrom ls, done := 0, sent := 0, faults := [],
    src := (List.range 32).map (fun l => if (lanesFrom ls).getLsbD l then src l else []), cnt := k, reads := [] }

theorem Ctx.newEntry_eq (c : Ctx) (s : State) (logged : Bool) (ls : List Nat) (src : Nat → List Word) (k : Counts) : c.newEntry s logged ls src k
    = (s.ids, c.modT { s with ids := s.ids + 1 } fun t => { t.raise k with log := t.log ++ [c.entryOf s.ids logged ls src k] }) := rfl

theorem Ctx.entryOf_srcOf (c : Ctx) (id : Nat) (logged : Bool) (src : Nat → List Word) (k : Counts) {l : Nat} (hl : c.act.getLsbD l = true) :
    (c.entryOf id logged c.ls src k).srcOf l = src l := by
  have h32 : l < 32 := BitVec.lt_of_getLsbD hl
  simp [Entry.srcOf, Ctx.entryOf, Ctx.ls, lanesFrom_lanesOf, h32, hl]

@[simp] theorem State.sample_regs (s : State) (c : Ctx) (id : Nat) (ls : List Nat) (ea : Nat → Word) : (s.sample c id ls ea).regs = s.regs := by
  simp only [State.sample, State.tally]; split <;> split <;> rfl

@[simp] theorem State.sample_crews (s : State) (c : Ctx) (id : Nat) (ls : List Nat) (ea : Nat → Word) : (s.sample c id ls ea).crews = s.crews := by
  simp only [State.sample, State.tally]; split <;> split <;> rfl

/-- A word whose effect leaves a new entry last in its stream's log, with its counters raised. -/
theorem Issues.enters {i : Instr} {s : State} {c : Ctx} (h : Issues s i c) {body : Ctx → Out} {e : State} {logged : Bool} {k : Counts} {src : Nat → List Word}
    (hb : body c = .done e) (hmem : e.mem = s.mem) (hregs : e.regs = s.regs)
    (hlog : ∃ t id, e.strand? c.id c.sid = some t ∧ t.log = c.t.log ++ [c.entryOf id logged c.ls src k] ∧ t.ld = c.t.ld + k.ld ∧ t.st = c.t.st + k.st
      ∧ t.cp = c.t.cp + k.cp ∧ t.tl = c.t.tl + k.tl) : c.Enters (word i s body) logged k src := by
  obtain ⟨u, hu, hstill⟩ := word_done h hb
  obtain ⟨t, id, ht, hlog, hld, hst, hcp, htl⟩ := hlog
  obtain ⟨t', ht', hsame⟩ := strand?_of_still hstill ht
  have hs0 := (ctx_eq h.slot).1
  have hl : t'.log = t.log := (congrArg Strand.log hsame :)
  have h1 : t'.ld = t.ld := (congrArg Strand.ld hsame :)
  have h2 : t'.st = t.st := (congrArg Strand.st hsame :)
  have h3 : t'.cp = t.cp := (congrArg Strand.cp hsame :)
  have h4 : t'.tl = t.tl := (congrArg Strand.tl hsame :)
  have hm : u.mem = e.mem := (congrArg State.mem hstill :)
  have hr : u.regs = e.regs := (congrArg State.regs hstill :)
  refine ⟨u, t', c.entryOf id logged c.ls src k, hu, ?_, ?_, ht', hl.trans hlog, rfl, lanesFrom_lanesOf c.act, rfl, rfl, rfl, rfl,
    fun l hl => c.entryOf_srcOf id logged src k hl, h1.trans hld, h2.trans hst, h3.trans hcp, h4.trans htl⟩
  · rw [hm, hmem, hs0]
  · rw [hr, hregs, hs0]

/-- The state after a new entry and the choice of its sample. -/
def Ctx.entered (c : Ctx) (s : State) (logged : Bool) (src : Nat → List Word) (k : Counts) (ea : Nat → Word) : State :=
  (c.newEntry s logged c.ls src k).2.sample c s.ids c.ls ea

theorem Ctx.strand?_entered {c : Ctx} {s : State} {t : Strand} (ht : s.strand? c.id c.sid = some t) (logged : Bool) (src : Nat → List Word) (k : Counts) (ea : Nat → Word) :
    (c.entered s logged src k ea).strand? c.id c.sid = some { t.raise k with log := t.log ++ [c.entryOf s.ids logged c.ls src k] } := by
  rw [Ctx.entered, State.strand?_congr (State.sample_crews ..), Ctx.newEntry_eq]
  exact c.strand?_modT (s := { s with ids := s.ids + 1 }) ht _

theorem Issues.enters_entered {i : Instr} {s : State} {c : Ctx} (h : Issues s i c) {body : Ctx → Out} {logged : Bool} {k : Counts} {src : Nat → List Word}
    {ea : Nat → Word} (hb : body c = .done (c.entered c.s0 logged src k ea)) : c.Enters (word i s body) logged k src := by
  obtain ⟨hs0, -, -, ht, -⟩ := ctx_eq h.slot
  rw [hs0] at hb
  exact h.enters hb (State.sample_mem ..) (State.sample_regs ..) ⟨_, s.ids, c.strand?_entered ht logged src k ea, rfl, rfl, rfl, rfl, rfl⟩

theorem ls_isEmpty {c : Ctx} (h : c.act ≠ 0) : c.ls.isEmpty = false := List.isEmpty_eq_false_iff.mpr (lanesOf_ne_nil h)

theorem okLanes_nil (c : Ctx) : c.okLanes [] = c.ls := List.filter_eq_self.mpr fun _ _ => rfl

/-- A logged word with room in the log and its counters, whose lanes raise nothing and name no taken line. -/
theorem Ctx.logIssue_enters {c : Ctx} {s : State} {k : Counts} {src : Nat → List Word} (hact : c.act ≠ 0) (hroom : c.t.logn + entryRecords c.word ≤ 8)
    (hk : c.t.canRaise k = true) (hline : c.lineTaken src c.ls = false) :
    c.logIssue s k [] c.ls src = .done (c.entered s true src k fun l => lineAddr (wordOf c.word) (src l)) := by
  have hroom' : decide (8 < c.t.logn + entryRecords c.word) = false := by simpa using hroom
  simp only [Ctx.logIssue, ls_isEmpty hact, hk, hline, hroom', Bool.not_true, Bool.or_self, Bool.false_eq_true, if_false, List.isEmpty_nil, if_true]
  rfl

/-! ### Lanes that raise nothing at issue -/

theorem misaligned_nil {ls : List Nat} {ea : Nat → Word} {n : Nat} (h : ∀ l ∈ ls, (ea l).toNat % n = 0) : Ctx.misaligned ls ea n = [] := by
  have : (ls.filter fun l => decide ((ea l).toNat % n ≠ 0)) = [] := List.filter_eq_nil_iff.mpr fun l hl => by simpa using h l hl
  exact congrArg (List.map _) this

theorem apertureBad_nil {ls : List Nat} {ea : Nat → Word} (kind : Nat) (h : ∀ l ∈ ls, inBlockAperture (ea l) = false) : Ctx.apertureBad ls ea kind = [] := by
  have : (ls.filter fun l => inBlockAperture (ea l)) = [] := List.filter_eq_nil_iff.mpr fun l hl => by simp [h l hl]
  rw [Ctx.apertureBad, this]; rfl

theorem apertureFaults_nil {ls : List Nat} {ea : Nat → Word} (kind : Nat) (h : ∀ l ∈ ls, inBlockAperture (ea l) = false) : Ctx.apertureFaults ls ea kind = [] := by
  rw [Ctx.apertureFaults, List.filterMap_eq_nil_iff]
  intro l hl
  simp [h l hl]

theorem memFaults_nil {c : Ctx} {ea : Nat → Word} {n : Nat} (kind : Nat) (hal : ∀ l, c.act.getLsbD l = true → (ea l).toNat % n = 0)
    (hap : ∀ l, c.act.getLsbD l = true → inBlockAperture (ea l) = false) : c.memFaults ea n kind = [] := by
  rw [Ctx.memFaults, apertureBad_nil kind fun l hl => hap l (Ctx.mem_ls.mp hl),
    misaligned_nil fun l hl => hal l (Ctx.mem_ls.mp (List.mem_filter.mp hl).1)]
  rfl

/-- A logged word of the shape of the atomics. -/
theorem Issues.logs {i : Instr} {s : State} {c : Ctx} (h : Issues s i c) {body : Ctx → Out} {k : Counts} {src : Nat → List Word} {bad : List LaneFault}
    (hb : body c = c.logIssue c.s0 k bad (c.okLanes bad) src) (hbad : bad = []) (hact : c.act ≠ 0) (hroom : c.t.logn + entryRecords c.word ≤ 8)
    (hk : c.t.canRaise k = true) (hline : c.lineTaken src c.ls = false) : c.Enters (word i s body) true k src :=
  h.enters_entered (by rw [hb, hbad, okLanes_nil, Ctx.logIssue_enters hact hroom hk hline])

/-- The faults of a load or store none of whose lanes names the aperture, whether or not the aperture takes its form. -/
theorem accessFaults_nil {c : Ctx} {ea : Nat → Word} {n : Nat} (kind : Nat) (takes : Bool) (hal : ∀ l, c.act.getLsbD l = true → (ea l).toNat % n = 0)
    (hap : ∀ l, c.act.getLsbD l = true → inBlockAperture (ea l) = false) :
    (if takes then Ctx.apertureFaults c.ls ea kind ++ Ctx.misaligned (c.ls.filter fun l => !inBlockAperture (ea l)) ea n else c.memFaults ea n kind) = [] := by
  cases takes with
  | false => exact memFaults_nil kind hal hap
  | true =>
    rw [if_pos rfl, apertureFaults_nil kind fun l hl => hap l (Ctx.mem_ls.mp hl),
      misaligned_nil fun l hl => hal l (Ctx.mem_ls.mp (List.mem_filter.mp hl).1)]
    rfl

/-- Settles O21: with nothing raised at issue every logged word is the same new entry, with its own sources and counters. -/
theorem loggedAccesses : Obligations.LoggedAccesses := by
  unfold Obligations.LoggedAccesses
  intro s c p t m z tag op d a b e off hint hact hroom addr at_ w good data go
  refine ⟨?_, ?_, ?_, ?_, ?_, ?_, ?_, ?_⟩
  · rintro ⟨h, hf, hk, hline⟩
    exact h.logs rfl (accessFaults_nil 1 _ (fun l hl => (hf l hl).1) fun l hl => (hf l hl).2) hact hroom hk hline
  · rintro ⟨h, hf, hk, hline⟩
    replace hf : ∀ l, c.act.getLsbD l = true → (c.ea a off l).toNat % sizeBytes t (MemSize m) = 0 ∧ inBlockAperture (c.ea a off l) = false := hf
    have hap : c.ls.filter (fun l => inBlockAperture (c.ea a off l)) = [] := List.filter_eq_nil_iff.mpr fun l hl => by simp [(hf l (Ctx.mem_ls.mp hl)).2]
    have hout : c.ls.filter (fun l => !inBlockAperture (c.ea a off l)) = c.ls := List.filter_eq_self.mpr fun l hl => by simp [(hf l (Ctx.mem_ls.mp hl)).2]
    have hbad := accessFaults_nil (c := c) 2 (apertureForm t m && !tag) (fun l hl => (hf l hl).1) fun l hl => (hf l hl).2
    rw [hout] at hbad
    have hb2n : b2n tag = if tag then 1 else 0 := by cases tag <;> rfl
    show c.Enters (execSt p t m tag d a off hint s) _ _ _
    refine h.enters_entered (ea := fun l => lineAddr (wordOf c.word) (data (MemSize m) l)) ?_
    simp only [hout, hbad, okLanes_nil, hap, Ctx.apertureStore, List.isEmpty_nil, if_true, List.append_nil, hb2n]
    exact Ctx.logIssue_enters hact hroom hk hline
  · rintro ⟨h, hf, hk, hline⟩
    exact h.logs rfl (apertureBad_nil 1 fun l hl => (hf l (Ctx.mem_ls.mp hl)).2) hact hroom hk hline
  · rintro ⟨h, hf, hk, hline⟩
    exact h.logs rfl (memFaults_nil 2 (fun l hl => (hf l hl).1) fun l hl => (hf l hl).2) hact hroom hk hline
  · rintro ⟨h, hf, hk, hline⟩
    exact h.logs rfl (memFaults_nil 2 (fun l hl => (hf l hl).1) fun l hl => (hf l hl).2) hact hroom hk hline
  · rintro ⟨h, hf, hk, hline⟩
    exact h.logs rfl (memFaults_nil 2 (fun l hl => (hf l hl).1) fun l hl => (hf l hl).2) hact hroom hk hline
  · exact fun h hf hk hline => h.logs rfl (misaligned_nil fun l hl => hf l (Ctx.mem_ls.mp hl)) hact hroom hk hline
  · exact fun h hf hk hline => h.logs rfl (misaligned_nil fun l hl => hf l (Ctx.mem_ls.mp hl)) hact hroom hk hline

/-! ### Words that send messages without being logged (R273, R281, R298, R359) -/

/-- Such a word with its store counter below 15: nothing without a guarded lane, and else a new entry. -/
theorem Issues.completes_unlogged {i : Instr} {s : State} {c : Ctx} (h : Issues s i c) {body : Ctx → Out} {src : Nat → List Word} {bad : List LaneFault}
    (hb : body c = c.unlogged bad (c.okLanes bad) src) (hnil : c.act = 0 → bad = []) : (c.act = 0 → Leaves (word i s body) s)
      ∧ (c.act ≠ 0 → c.t.canRaise ⟨0, 1, 0, 0⟩ = true → bad = [] → c.Enters (word i s body) false ⟨0, 1, 0, 0⟩ src) := by
  refine ⟨fun h0 => ?_, fun hact hk hbad => ?_⟩
  · have hls : c.ls = [] := by rw [Ctx.ls, h0]; rfl
    refine h.leaves_nothing ?_
    rw [hb, hnil h0, okLanes_nil, hls]
    rfl
  · refine h.enters_entered (ea := fun l => (src l).headD 0) ?_
    rw [hb, hbad, okLanes_nil]
    simp only [Ctx.unlogged, ls_isEmpty hact, hk, Bool.not_true, Bool.false_eq_true, if_false, List.isEmpty_nil, if_true]
    rfl

/-- A write of a producer's or Gaffer's register leaves the stream's log and counters, and register space. -/
structure Ctx.KeepsLog (c : Ctx) (s u : State) : Prop where
  mem : u.mem = s.mem
  regs : u.regs = s.regs
  strand : ∀ t, s.strand? c.id c.sid = some t → ∃ g, u.strand? c.id c.sid = some { t with g := g }

theorem Ctx.KeepsLog.refl (c : Ctx) (s : State) : c.KeepsLog s s := ⟨rfl, rfl, fun t ht => ⟨t.g, ht⟩⟩

theorem Ctx.KeepsLog.trans {c : Ctx} {s u v : State} (h : c.KeepsLog s u) (h' : c.KeepsLog u v) : c.KeepsLog s v := by
  refine ⟨h'.mem.trans h.mem, h'.regs.trans h.regs, fun t ht => ?_⟩
  obtain ⟨g, hg⟩ := h.strand t ht
  obtain ⟨g', hg'⟩ := h'.strand _ hg
  exact ⟨g', hg'⟩

theorem Ctx.keepsLog_write {c : Ctx} (hP : c.isP = true) (t : Ty) (d : Opd) (l : Nat) (v : Word) (s : State) : c.KeepsLog s (c.write t d l v s) := by
  cases d with
  | v n =>
    rw [Ctx.write, if_pos hP]
    exact ⟨rfl, rfl, fun t ht => ⟨t.g, (c.strand?_setSReg ..).trans ht⟩⟩
  | g n =>
    rw [Ctx.write]
    exact ⟨rfl, rfl, fun t ht => ⟨_, c.strand?_modT ht _⟩⟩
  | x n => exact .refl c s
  | k n => exact .refl c s

theorem Ctx.keepsLog_forLanes (c : Ctx) {f : Nat → State → State} (hf : ∀ l s, c.KeepsLog s (f l s)) (s : State) : c.KeepsLog s (c.forLanes f s) := by
  have h : ∀ (L : List Nat) (s : State), c.KeepsLog s (L.foldl (fun s l => f l s) s) := by
    intro L
    induction L with
    | nil => exact fun s => .refl c s
    | cons l L ih => exact fun s => (hf l s).trans (ih _)
  exact h c.ls s

/-- Settles O23: the words of the store counter are one new entry, and so is `SLD`, whose increment writes a register of its own stream. -/
theorem unloggedAccesses : Obligations.UnloggedAccesses := by
  unfold Obligations.UnloggedAccesses
  intro s c p t z d a b off outside completes
  have hempty (h0 : c.act = 0) : c.ls = [] := by rw [Ctx.ls, h0]; rfl
  have hbad0 (h0 : c.act = 0) : Ctx.apertureBad c.ls (c.ea a off) 1 = [] := by rw [hempty h0]; rfl
  have hbad (h : outside) : Ctx.apertureBad c.ls (c.ea a off) 1 = [] := apertureBad_nil 1 fun l hl => h l (Ctx.mem_ls.mp hl)
  refine ⟨fun h => ?_, fun h => ?_, fun h => ?_, fun h => ?_, fun inc h hP => ?_⟩
  · obtain ⟨h0, h1⟩ := h.completes_unlogged (body := fun c => c.unlogged (Ctx.apertureBad c.ls (c.ea a off) 1) (c.okLanes (Ctx.apertureBad c.ls (c.ea a off) 1))
      fun l => [c.ea a off l]) rfl hbad0
    exact ⟨h0, fun hact hk ho => h1 hact hk (hbad ho)⟩
  · obtain ⟨h0, h1⟩ := h.completes_unlogged (body := fun c => c.unlogged (Ctx.apertureBad c.ls (c.ea a off) 1) (c.okLanes (Ctx.apertureBad c.ls (c.ea a off) 1))
      fun l => [c.ea a off l]) rfl hbad0
    exact ⟨h0, fun hact hk ho => h1 hact hk (hbad ho)⟩
  · obtain ⟨h0, h1⟩ := h.completes_unlogged (body := fun c => c.unlogged [] c.ls fun l => [c.read .n64 a l, c.read .n32 b l]) (by rw [okLanes_nil]) fun _ => rfl
    exact ⟨h0, fun hact hk _ => h1 hact hk rfl⟩
  · obtain ⟨h0, h1⟩ := h.completes_unlogged (body := fun c => c.unlogged [] c.ls fun _ => []) (by rw [okLanes_nil]) fun _ => rfl
    exact ⟨h0, fun hact hk _ => h1 hact hk rfl⟩
  · intro ea
    obtain ⟨hs0, -, -, ht, -⟩ := ctx_eq h.slot
    have hmem0 (h0 : c.act = 0) : c.memFaults ea (accessBytes (.sld p t z inc d a off)) 1 = [] := by rw [Ctx.memFaults, hempty h0]; rfl
    refine ⟨fun h0 => h.leaves_nothing ?_, fun hact hk hf => ?_⟩
    · have := hmem0 h0
      simp only [ea] at this
      simp only [this, List.isEmpty_nil, Bool.not_true, Bool.false_eq_true, if_false, if_pos h0]
    · let e : State := c.entered s false (fun l => [ea l]) ⟨1, 0, 0, 0⟩ ea
      let f (v : State) : State := if inc then c.forLanes (fun l s => c.write .n64 a l (c.ea a off l) s) v else v
      have hkeep (v : State) : c.KeepsLog v (f v) := by
        cases inc with
        | false => exact .refl c v
        | true => exact c.keepsLog_forLanes (fun l s => Ctx.keepsLog_write hP ..) v
      have hnil := memFaults_nil (c := c) 1 (fun l hl => (hf l hl).1) fun l hl => (hf l hl).2
      obtain ⟨g, hg⟩ := (hkeep e).strand _ (c.strand?_entered ht false (fun l => [ea l]) ⟨1, 0, 0, 0⟩ ea)
      have hbody : (fun c : Ctx =>
          let ea (l : Nat) : Word := if inc then c.read .n64 a l else c.ea a off l
          let bad := c.memFaults ea (accessBytes (.sld p t z inc d a off)) 1
          let bump (s : State) : State := if inc then c.forLanes (fun l s => c.write .n64 a l (c.ea a off l) s) s else s
          if !bad.isEmpty then Out.raise c.s0 0 bad
          else if c.act = 0 then .done c.s0
          else if !c.t.canRaise ⟨1, 0, 0, 0⟩ then .stall
          else
            let (id, s) := c.newEntry c.s0 false c.ls (fun l => [ea l]) ⟨1, 0, 0, 0⟩
            .done (bump (s.sample c id c.ls ea))) c = .done (f e) := by
        simp only [ea] at hnil
        simp only [hnil, List.isEmpty_nil, Bool.not_true, Bool.false_eq_true, if_false, if_neg hact, hk, hs0]
        rfl
      exact ⟨h.enters hbody ((hkeep e).mem.trans (State.sample_mem ..)) ((hkeep e).regs.trans (State.sample_regs ..)) ⟨_, s.ids, hg, rfl, rfl, rfl, rfl, rfl⟩,
        c.entryOf s.ids false c.ls (fun l => [ea l]) ⟨1, 0, 0, 0⟩, h.leaves_word (e := fun _ => f e) hbody⟩

/-! ### Register space (R268) -/

/-- A register-space word whose guarded lanes are aligned, in range and on no busy tile acts in all of them at once. -/
theorem Ctx.regSpace_all {c : Ctx} {tm : Team} {ea : Nat → Word} {n : Nat} (htm : c.team = some tm) (hacq : c.acquirePending = false)
    (h : ∀ l, c.act.getLsbD l = true → (ea l).toNat % n = 0 ∧ c.crew.regRangeOk tm (ea l) n = true
      ∧ ∀ i, tm.tileAt (ea l).toNat = some i → c.tileBusy c.rank i = false) (src : Nat → List Word) (eff : Team → Nat → State → State) :
    c.regSpace ea n src eff = .done (c.sampled ea (c.forLanes (eff tm) c.s0)) := by
  have hin : c.ls.filter (fun l => c.crew.regRangeOk tm (ea l) n) = c.ls := List.filter_eq_self.mpr fun l hl => (h l (Ctx.mem_ls.mp hl)).2.1
  have hout : c.ls.filter (fun l => !c.crew.regRangeOk tm (ea l) n) = [] := List.filter_eq_nil_iff.mpr fun l hl => by simp [(h l (Ctx.mem_ls.mp hl)).2.1]
  have hbusy : (c.ls.any fun l => match tm.tileAt (ea l).toNat with
      | some i => c.tileBusy c.rank i
      | none => false) = false := by
    rw [List.any_eq_false]
    intro l hl
    cases hi : tm.tileAt (ea l).toNat with
    | none => simp
    | some i => simp [(h l (Ctx.mem_ls.mp hl)).2.2 i hi]
  simp only [Ctx.regSpace, htm, misaligned_nil fun l hl => (h l (Ctx.mem_ls.mp hl)).1, okLanes_nil, hin, hout, hacq, List.isEmpty_nil, Bool.not_true,
    Bool.false_and, if_true, Ctx.sampled]
  refine (if_neg ?_).trans ?_
  · rw [Bool.or_false, Bool.or_false]
    exact ne_true_of_eq_false hbusy
  by_cases h0 : c.act = 0
  · have : c.ls = [] := by rw [Ctx.ls, h0]; rfl
    rw [if_pos h0, this, if_pos List.isEmpty_nil, Ctx.forLanes, this]
  · rw [if_neg h0, ls_isEmpty h0, if_neg Bool.false_ne_true]
    rfl

/-- Settles O24: both words act in every guarded lane, on the bytes and registers as they stood. -/
theorem registerSpace : Obligations.RegisterSpace := by
  unfold Obligations.RegisterSpace
  intro s c tm p t z d a off htm hacq addr n hgood sampled
  refine ⟨fun h => ?_, fun h => ?_⟩
  · have hs0 := (ctx_eq h.slot).1
    exact h.leaves_word (e := fun s => sampled (c.forLanes (fun l s' => c.putGroup t z d l (leNat (s.regBytes c.core (addr l) n)) s') s))
      ((Ctx.regSpace_all htm hacq hgood _ _).trans rfl)
  · exact h.leaves_word (e := fun s => sampled (c.forLanes (fun l s' => s'.putReg c.core tm (addr l) (leBytes n (c.groupNat t z d l))) s))
      ((Ctx.regSpace_all htm hacq hgood _ _).trans rfl)

/-! ### Stores into the block-transfer aperture (R343 to R346) -/

theorem finish_hold (c : Ctx) (h : Option (Nat → Word)) (s : State) : c.finish h (.hold s)
    = { c.putLatch h s with slot := none, stalls := (c.id, c.sid, c.grant.path) :: (c.putLatch h s).stalls } := rfl

/-- What a latch that fills leaves of the stream: its path with another latch. -/
theorem Ctx.strand?_putLatch {c : Ctx} {e : State} {t : Strand} {p : Path} (ht : e.strand? c.id c.sid = some t) (hp : t.path? c.grant.path = some p)
    (h : Option (Nat → Word)) : ∃ t' L, (c.putLatch h e).strand? c.id c.sid = some t' ∧ t'.path? c.grant.path = some { p with latch := L } := by
  cases h with
  | none => exact ⟨t, p.latch, ht, hp⟩
  | some v => exact ⟨_, latchPut p.latch (c.pos % 3) (lanesOf c.lanes) v, c.strand?_modP ht _, Strand.path?_modPath_some hp fun _ => rfl⟩

/-- A word that holds its path at its place inside the clause, with what it has made. -/
theorem finish_hold_stands {c : Ctx} {e : State} {t : Strand} {p : Path} (ht : e.strand? c.id c.sid = some t) (hp : t.path? c.grant.path = some p)
    (h : Option (Nat → Word)) : ∃ t' L, (c.finish h (.hold e)).slot = none ∧ (c.finish h (.hold e)).mem = e.mem ∧ (c.finish h (.hold e)).regs = e.regs
      ∧ (c.finish h (.hold e)).offers = e.offers ∧ (c.finish h (.hold e)).strand? c.id c.sid = some t' ∧ t'.path? c.grant.path = some { p with latch := L } := by
  obtain ⟨t', L, ht', hp'⟩ := c.strand?_putLatch ht hp h
  have hstill := still_putLatch c h e
  refine ⟨t', L, rfl, ?_, ?_, ?_, ?_, hp'⟩
  · exact (congrArg State.mem hstill :)
  · exact (congrArg State.regs hstill :)
  · exact (congrArg State.offers hstill :)
  · exact ht'

/-- A path without offers: taking its offers away leaves all. -/
theorem Ctx.withoutOffers_offers {c : Ctx} (h : c.offers = []) : (c.withoutOffers c.s0).offers = c.s0.offers := by
  rw [Ctx.offers, List.filter_eq_nil_iff] at h
  refine List.filter_eq_self.mpr fun o ho => ?_
  rw [Bool.not_eq_true']
  exact Bool.eq_false_iff.mpr (h o ho)

/-- Every lane's command is settled: what is left is for the lanes that were refused. -/
theorem Ctx.apertureStore_settled {c : Ctx} (hact : c.act ≠ 0) (hlanes : c.offers.map Offer.lane = c.ls) (hset : ∀ o ∈ c.offers, o.word = c.word ∧ o.settled = true)
    (chan : Nat → Nat) (data : Nat → Word) (k : State → List LaneFault → Out) : c.apertureStore c.ls chan data k
      = k (c.withoutOffers c.s0) ((c.offers.filter Offer.refused).map fun o =>
        { lane := o.lane, cause := if o.far.isSome then 6 else 3, addr := BitVec.ofNat 64 (o.far.getD 0), kind := 0 }) := by
  have hne : c.offers.isEmpty = false := by
    rw [List.isEmpty_eq_false_iff]
    rintro h0
    rw [h0] at hlanes
    exact lanesOf_ne_nil hact hlanes.symm
  have hword : (c.offers.any fun o => o.word != c.word) = false := by
    rw [List.any_eq_false]
    exact fun o ho => by simp [(hset o ho).1]
  have hcover : (c.ls.all fun l => c.offers.any fun o => o.lane == l) = true := by
    rw [List.all_eq_true]
    intro l hl
    rw [← hlanes] at hl
    obtain ⟨o, ho, rfl⟩ := List.mem_map.mp hl
    exact List.any_eq_true.mpr ⟨o, ho, by simp⟩
  have hall : c.offers.all Offer.settled = true := List.all_eq_true.mpr fun o ho => (hset o ho).2
  simp only [Ctx.apertureStore, ls_isEmpty hact, hne, hword, hcover, hall, Bool.not_true, Bool.or_self, Bool.false_eq_true, if_false, if_true]

/-- An aperture store none of whose lanes raises at issue. -/
theorem apertureFaults_aligned {ls : List Nat} {ea : Nat → Word} (kind : Nat) (h : ∀ l ∈ ls, inBlockAperture (ea l) = true ∧ (ea l).toNat - blockAperture < 0x80
    ∧ ((ea l).toNat - blockAperture) % 8 = 0) : Ctx.apertureFaults ls ea kind = [] := by
  rw [Ctx.apertureFaults, List.filterMap_eq_nil_iff]
  intro l hl
  obtain ⟨h1, h2, h3⟩ := h l hl
  have h2' : ¬ 0x80 ≤ (ea l).toNat - blockAperture := by omega
  simp [h1, h2', h3]

/-- Settles O26: all guarded lanes are aperture lanes, and nothing is left for the log. -/
theorem apertureStore : Obligations.ApertureStore := by
  unfold Obligations.ApertureStore
  intro s c p t m d a off hint i h hword hj ht64 hz hact hcp at_ hap
  obtain ⟨hs0, -, -, ht, hp, hcl, -⟩ := ctx_eq h.slot
  have hform : apertureForm t m = true := by
    rcases ht64 with rfl | rfl <;> simp [apertureForm, hz]
  have hout : c.ls.filter (fun l => !inBlockAperture (c.ea a off l)) = [] := List.filter_eq_nil_iff.mpr fun l hl => by simp [(hap l (Ctx.mem_ls.mp hl)).1]
  have hin : c.ls.filter (fun l => inBlockAperture (c.ea a off l)) = c.ls := List.filter_eq_self.mpr fun l hl => (hap l (Ctx.mem_ls.mp hl)).1
  have hbad : (if (apertureForm t m && !false) = true then Ctx.apertureFaults c.ls (c.ea a off) 2 ++ Ctx.misaligned [] (c.ea a off) (sizeBytes t (MemSize m))
      else c.memFaults (c.ea a off) (sizeBytes t (MemSize m)) 2) = [] := by
    rw [if_pos (by simp [hform]), apertureFaults_aligned 2 fun l hl => hap l (Ctx.mem_ls.mp hl)]
    rfl
  refine ⟨fun hno => ?_, fun hlanes hset => ?_⟩
  · show ∃ u t1 q, execSt p t m false d a off hint s = .next u ∧ _
    rw [execSt, word_issues h]
    simp only [hout, hbad, okLanes_nil, hin, Ctx.apertureStore, ls_isEmpty hact, Bool.false_eq_true, if_false, hno, List.isEmpty_nil, Bool.true_or, if_true, hcp]
    obtain ⟨t', L, hslot, hmem, hregs, hoff, ht', hp'⟩ := finish_hold_stands (c := c) (e := { c.withoutOffers c.s0 with
      offers := (c.withoutOffers c.s0).offers ++ c.ls.map fun l => ⟨c.id, c.sid, c.grant.path, l, ((c.ea a off l).toNat - blockAperture) / 8,
        BitVec.ofNat 64 (c.groupNat t (MemSize m) d l), c.word, false, false, none, none⟩ }) (t := c.t) (by rw [hs0]; exact ht) hp (c.holdOf i)
    refine ⟨_, t', _, rfl, hslot, hmem.trans (by rw [hs0]; rfl), hregs.trans (by rw [hs0]; rfl), ht', hp', hcl, rfl, rfl, rfl, rfl, rfl, ?_⟩
    rw [hoff, Ctx.withoutOffers_offers hno, List.map_append, List.map_map, hs0, hz]
    rfl
  · intro refused done_ after
    let ref : List LaneFault := (c.offers.filter Offer.refused).map fun o =>
      { lane := o.lane, cause := if o.far.isSome then 6 else 3, addr := BitVec.ofNat 64 (o.far.getD 0), kind := 0 }
    have hok : c.okLanes ref = done_ := by
      refine List.filter_congr fun l _ => ?_
      rw [List.any_map, List.contains_eq_any_beq, List.any_map]
      simp only [Function.comp_def, BEq.comm]
    have hafter : (if (c.okLanes ref).isEmpty then c.withoutOffers c.s0 else (c.withoutOffers c.s0).sampleNow c (c.okLanes ref) fun l =>
        lineAddr (wordOf c.word) [c.ea a off l, (halves (c.groupNat t (MemSize m) d l)).1, (halves (c.groupNat t (MemSize m) d l)).2]) = after := by
      have hline : (fun l => lineAddr (wordOf c.word) [c.ea a off l, (halves (c.groupNat t (MemSize m) d l)).1, (halves (c.groupNat t (MemSize m) d l)).2])
          = c.ea a off := by
        rw [hword]; rfl
      simp only [hline, hok, hs0, List.isEmpty_iff, after]
    have hbody : execSt p t m false d a off hint s = .next (c.finish (c.holdOf i) (if ref.isEmpty then .done after else .raise after 0 ref)) := by
      rw [execSt, word_issues h]
      simp only [hout, hbad, okLanes_nil, hin]
      rw [Ctx.apertureStore_settled hact hlanes hset]
      simp only [Ctx.logIssue, List.isEmpty_nil, if_true, List.nil_append]
      rw [hafter]
    refine ⟨fun hnone => ?_, fun hsome hfar hm => ?_⟩
    · have hrefnil : ref = [] := by
        have := List.map_eq_nil_iff.mp hnone
        simp only [ref, this, List.map_nil]
      rw [hrefnil] at hbody
      exact ⟨_, hbody, still_finish_done ..⟩
    · have hrefmap : ref = refused.map fun l => { lane := l, cause := 3, addr := 0, kind := 0 } := by
        simp only [ref, refused, List.map_map]
        refine List.map_congr_left fun o ho => ?_
        simp only [Function.comp, hfar o (List.mem_filter.mp ho).1]
        rfl
      obtain ⟨l0, h0⟩ := minBy_isSome (f := id) hsome
      have hne : ref.isEmpty = false := by
        rw [hrefmap, List.isEmpty_eq_false_iff]
        exact List.ne_nil_of_mem (List.mem_map_of_mem (minBy_mem h0))
      refine hbody.trans (congrArg _ ?_)
      rw [hne, if_neg Bool.false_ne_true, hrefmap, finish_raise_map hj hm _ _ _ (k := 3) (l0 := l0) (by decide) (fun _ => rfl) (fun _ _ => rfl) (minBy_mem h0) (minBy_le h0)]
      rfl

/-! ### FENCE and WAIT (R282, R302) -/

theorem finish_wait (c : Ctx) (h : Option (Nat → Word)) (s : State) (w : Wait) : c.finish h (.wait s w) = c.await s w := rfl

/-- A path that comes to wait keeps its lanes. -/
theorem await_waits {c : Ctx} {s : State} (hs0 : c.s0 = s) (ht : s.strand? c.id c.sid = some c.t) (hp : c.t.path? c.grant.path = some c.path) (w : Wait) :
    c.Waits (.next (c.await s w)) w := by
  obtain ⟨f, hf, hid, hlanes, hwait⟩ : ∃ f : Path → Path, c.await s w = c.modT { c.modP s f with slot := none } (fun t => { t with chosen := false })
      ∧ (∀ p, (f p).id = p.id) ∧ (∀ p, (f p).lanes = p.lanes) ∧ ∀ p, (f p).wait = w := ⟨_, rfl, fun _ => rfl, fun _ => rfl, fun _ => rfl⟩
  have hs : (c.await s w).strand? c.id c.sid = some { c.t.modPath c.grant.path f with chosen := false } := by
    rw [hf]
    exact c.strand?_modT (s := { c.modP s f with slot := none }) (c.strand?_modP ht f) _
  subst hs0
  exact ⟨_, _, f c.path, rfl, rfl, rfl, rfl, hs, Strand.path?_modPath_some hp hid, hlanes _, hwait _⟩

theorem Issues.waits {i : Instr} {s : State} {c : Ctx} (h : Issues s i c) {body : Ctx → Out} {w : Wait} (hb : body c = .wait c.s0 w) :
    c.Waits (word i s body) w := by
  obtain ⟨hs0, -, -, ht, hp, -⟩ := ctx_eq h.slot
  rw [word_issues h, hb, finish_wait, hs0]
  exact await_waits hs0 ht hp w

theorem scopeInv_eq (sc : Scope) : scopeInv sc = decide (sc ≠ .th ∧ sc ≠ .tm) := by cases sc <;> rfl

/-- The limit that a field of `WAIT` places on its counter: 15 is none. -/
def waitLimit (x : BitVec 4) : Nat := if x = 15 then 99 else x.toNat

theorem le_waitLimit {x : BitVec 4} {n : Nat} (h : n ≤ x.toNat) : n ≤ waitLimit x := by
  have := x.isLt
  rw [waitLimit]
  split <;> omega

theorem waitLimit_lt {x : BitVec 4} {n : Nat} (h : x.toNat < n) (hx : x ≠ 15) : ¬ n ≤ waitLimit x := by
  rw [waitLimit, if_neg hx]
  omega

/-- Settles O27: each word's condition is the one that its row names. -/
theorem fenceAndWait : Obligations.FenceAndWait := by
  unfold Obligations.FenceAndWait
  refine ⟨fun s c p sc h => ⟨fun h0 => h.leaves_nothing (by simp only [if_pos h0]), fun hact hrel => ?_, fun hact hrel => ?_⟩,
    fun s c p ld st cp tl h => ?_⟩
  · have hs0 := (ctx_eq h.slot).1
    refine h.leaves_word (e := fun s => State.sampleNow (if sc ≠ .th ∧ sc ≠ .tm ∧ c.core.core < 4 then { s with l1 := assocSet s.l1 c.core [] } else s) c c.ls fun _ => 0) ?_
    have hcond : (scopeInv sc && decide (c.core.core < 4)) = decide (sc ≠ .th ∧ sc ≠ .tm ∧ c.core.core < 4) := by
      rw [scopeInv_eq, ← Bool.decide_and]
      exact decide_eq_decide.mpr and_assoc
    simp only [if_neg hact, hs0, hrel, if_true, Ctx.sampled, hcond, decide_eq_true_eq]
    rfl
  · have hs0 := (ctx_eq h.slot).1
    show execFence p sc s = _
    rw [execFence, word_issues h]
    simp only [if_neg hact, hs0, hrel, Bool.false_eq_true, if_false]
    rw [finish_stall, hs0]
  · intro within beyond
    refine ⟨fun hd => h.leaves_nothing ?_, fun hact hb => h.waits ?_⟩
    · have hcond : (decide (c.act = 0) || c.t.under (waitLimit ld) (waitLimit st) (waitLimit cp) (waitLimit tl)) = true := by
        rw [Bool.or_eq_true, decide_eq_true_eq]
        refine hd.imp_right fun ⟨h1, h2, h3, h4⟩ => ?_
        simp only [Strand.under, Bool.and_eq_true, decide_eq_true_eq]
        exact ⟨⟨⟨le_waitLimit h1, le_waitLimit h2⟩, le_waitLimit h3⟩, le_waitLimit h4⟩
      exact if_pos hcond
    · have hcond : (decide (c.act = 0) || c.t.under (waitLimit ld) (waitLimit st) (waitLimit cp) (waitLimit tl)) = false := by
        rw [decide_eq_false hact, Bool.false_or, Bool.eq_false_iff]
        intro hu
        simp only [Strand.under, Bool.and_eq_true, decide_eq_true_eq] at hu
        obtain ⟨⟨⟨h1, h2⟩, h3⟩, h4⟩ := hu
        rcases hb with hb | hb | hb | hb
        · exact waitLimit_lt hb.1 hb.2 h1
        · exact waitLimit_lt hb.1 hb.2 h2
        · exact waitLimit_lt hb.1 hb.2 h3
        · exact waitLimit_lt hb.1 hb.2 h4
      exact if_neg (ne_true_of_eq_false hcond)

end Sys2Proof.Machine
end


section
/-! What a translation leaves alone. -/

namespace Sys2Proof.Machine

/-! ### Translation (R220, R224)

A translation changes the choices that it draws and the leaves that are cached, and nothing else. -/

theorem State.drawIndex_eq (s : State) (n : Nat) : ∃ k, (s.drawIndex n).2 = { s with free := k } := by
  rw [State.drawIndex]
  split
  · exact ⟨s.free, rfl⟩
  · exact ⟨_, rfl⟩

theorem State.anyTime_eq {α : Type} [DecidableEq α] (s : State) (asid : BitVec 16) (k n : Nat) (f : List Host.Cell → α) :
    ∃ j, (s.anyTime asid k n f).2 = { s with free := j } := State.drawIndex_eq ..

theorem State.walkAnyFrom_eq (s : State) (asid : BitVec 16) (va n table : Nat) : ∃ j, (s.walkAnyFrom asid va n table).2 = { s with free := j } := by
  induction n generalizing s table with
  | zero => exact ⟨s.free, rfl⟩
  | succ n ih =>
    obtain ⟨j, hj⟩ := s.anyTime_eq asid table 4096 fun m => walkLevel m va n table
    rw [State.walkAnyFrom]
    simp only [hj]
    split
    · obtain ⟨i, hi⟩ := ih { s with free := j } _
      exact ⟨i, hi⟩
    · exact ⟨j, rfl⟩

theorem State.walkAny_eq (s : State) (asid : BitVec 16) (va : Word) : ∃ j, (s.walkAny asid va).2 = { s with free := j } := by
  rw [State.walkAny]
  split
  · exact ⟨s.free, rfl⟩
  · obtain ⟨j, hj⟩ := s.anyTime_eq asid (s.asidAt asid) 16 fun m => s.asidIn m asid
    simp only [hj]
    split
    · obtain ⟨i, hi⟩ := State.walkAnyFrom_eq { s with free := j } asid va.toNat 5 _
      exact ⟨i, hi⟩
    · exact ⟨j, rfl⟩

theorem State.translate_eq (s : State) (asid : BitVec 16) (secure : Bool) (k : Access) (va : Word) :
    ∃ j l, (s.translate asid secure k va).2 = { s with free := j, tlb := l } := by
  simp only [State.translate]
  split
  · exact ⟨s.free, s.tlb, rfl⟩
  · obtain ⟨j, hj⟩ := s.walkAny_eq asid va
    simp only [hj]
    generalize hn : List.length _ = n
    obtain ⟨i, hi⟩ := State.drawIndex_eq { s with free := j } n
    simp only [hi]
    split
    · exact ⟨i, s.tlb, rfl⟩
    · split
      · exact ⟨i, s.tlb, rfl⟩
      · exact ⟨i, _, rfl⟩

end Sys2Proof.Machine
end


section
/-! Obligation O28, which a path number that is in use refutes. -/

namespace Sys2Proof.Machine

/-! ### Lanes that part from a path at a barrier (R301, R305)

The lanes that part from a path whose wait ends take the stream's next path number (`Path.parted`). Nothing in the statement keeps that number from being the
issuing path's own, and then the word goes on for the lanes that parted. -/

def syncThirty : Instr := .barSync Tests.p0 (.k 30) 0

/-- A path that waits at the barrier with one more lane joined, ahead of the issuing path, whose number is the stream's next. -/
def numberInUse : State :=
  (Tests.onLanes 0xFFFFFFFC (Tests.issuing syncThirty)).modStrand 0 (.wave 0 0) fun t => { t with
    nextId := 0, paths := { Path.blank with id := 5, lanes := 3, wait := .more (.bar 0 0) none, only := some 1 } :: t.paths }

/-- No path of a stream has a lane after an outcome. -/
def laneGone (o : Host.Outcome State Fault Refusal) (crew : Nat) (sid : Sid) (l : Nat) : Bool :=
  match o with
  | .next u => (u.strand? crew sid).all fun t => t.paths.all fun q => !q.lanes.getLsbD l
  | _ => false

theorem barSync_loses_lane : laneGone (exec syncThirty numberInUse) 0 (.wave 0 0) 2 = true := by decide +kernel

/-- Refutes O28: the issuing path's lanes are not at the fall-through, nor anywhere. -/
theorem not_barriers : ¬ Obligations.Barriers := by
  unfold Obligations.Barriers
  intro h
  obtain ⟨c, hI, hP⟩ := Tests.issues_of_meets (s := numberInUse) (i := syncThirty) (P := fun c => c.id == 0 && c.sid == .wave 0 0 && c.act == 0xFFFFFFFC
    && c.path.wait == .none && c.isLast && c.path.lanes == 0xFFFFFFFC && c.ls.all (fun l => c.rd .n32 (.k 30) l == 30) && (c.team.any fun tm => tm.bars.length == 16)
    && barArrived (c.barrier false 0) == 0 && c.ls.length == 30 && barOk (c.barrier false 0) 30 c.ls.length (c.barThreads false)
    && numberInUse.released c.crew c.t false c.act none .tm) (by decide +kernel)
  simp only [Bool.and_eq_true, beq_iff_eq, List.all_eq_true, Option.any_eq_true] at hP
  obtain ⟨⟨⟨⟨⟨⟨⟨⟨⟨⟨⟨hid, hsid⟩, hact⟩, hwait⟩, hlast⟩, hlanes⟩, hn⟩, tm, htm, hbars⟩, harr⟩, hlen⟩, hok⟩, hrel⟩ := hP
  obtain ⟨u, hu, -, -, -, hfull⟩ := ((h numberInUse c Tests.p0 (.k 30) 0 30).1.2 (by rw [hact]; decide) (fun l hl => hn l (by rwa [Ctx.mem_ls])) (by decide)
    ⟨tm, htm, by rw [hbars]; decide⟩ (by simp [harr, hlen]) hok hrel).2 hI hwait
  have hs := (hfull (by simp [harr, hlen])).2
  rw [if_pos hlast] at hs
  obtain ⟨t, q, ht, hq, hql, -⟩ := hs 2 (by rw [hlanes]; decide)
  have hgone := barSync_loses_lane
  rw [hid, hsid] at ht
  rw [show exec syncThirty numberInUse = .next u from hu, laneGone, ht, Option.all_some, List.all_eq_true] at hgone
  exact absurd hql (by simpa using hgone q hq)

end Sys2Proof.Machine
end


section
/-! Obligation O53: boot, attestation, the thermal trip and the power limit. -/

namespace Sys2Proof.Machine

/-! ### Boot and power (R12, R408, R410) -/

theorem tripBits_getLsbD_zero (b : Bool) : (BitVec.ofNat 64 (2 * b2n b)).getLsbD 0 = false := by cases b <;> decide

theorem tripBits_getLsbD_one (b : Bool) : (BitVec.ofNat 64 (2 * b2n b)).getLsbD 1 = b := by cases b <;> decide

theorem failedBits_getLsbD_zero (b : Bool) : (BitVec.ofNat 64 (2 * b2n b) ||| 1).getLsbD 0 = true := by cases b <;> decide

theorem failedBits_getLsbD_one (b : Bool) : (BitVec.ofNat 64 (2 * b2n b) ||| 1).getLsbD 1 = b := by cases b <;> decide

/-- A firmware's region stands at its place in the table that a boot makes, with the bits that a region has. -/
theorem bootRegions_get (l : List (Word × Word)) {i : Nat} (hi : i < 64) {r : Word × Word} (hr : l[i]? = some r) :
    (((l ++ List.replicate 64 (0, 0)).take 64).map regionWord)[i]? = some (r.1 &&& 0xFFFFFFFE00003, r.2 &&& 0xFFFFFFFE00000) := by
  have hlt : i < l.length := (List.getElem?_eq_some_iff.1 hr).1
  rw [List.getElem?_map, List.getElem?_take_of_lt hi, List.getElem?_append_left hlt, hr]
  rfl

/-- Settles O53. -/
theorem bootAndPower : Obligations.BootAndPower := by
  unfold Obligations.BootAndPower
  intro s fw nonce
  refine ⟨fun hup => ?_, fun hin => ?_, ⟨_, rfl, rfl, rfl, rfl, rfl, rfl⟩, ⟨_, rfl, rfl, rfl, rfl⟩, ⟨_, rfl, rfl, rfl, rfl⟩⟩
  · have hboot : exec (.boot fw) s = execBoot fw s := rfl
    rw [hboot, execBoot, hup]
    by_cases hsig : Config.sm2Verify Config.vendorKey (Config.sm3 fw.image) fw.sig = true
    · simp only [hsig, if_true, Bool.false_eq_true, if_false]
      refine ⟨_, rfl, rfl, rfl, tripBits_getLsbD_one _, rfl, rfl, rfl, tripBits_getLsbD_zero _, by simp, fun i hi r hr => bootRegions_get _ hi hr⟩
    · simp only [hsig, Bool.false_eq_true, if_false]
      exact ⟨_, rfl, rfl, rfl, failedBits_getLsbD_one _, rfl, failedBits_getLsbD_zero _⟩
  · have hreq : exec (.attestationRequest nonce) s = execAttestationRequest nonce s := rfl
    rw [hreq, execAttestationRequest, hin]
    exact ⟨_, _, rfl, rfl, rfl, rfl⟩

end Sys2Proof.Machine
end


section
/-! Obligation O50: the host at a queue block. -/

namespace Sys2Proof.Machine

/-! ### The block of a queue (R329, R330, R336) -/

theorem State.onQueue_of_queueOf {s : State} {who : HostFn} {n q : Nat} (hin : s.hostIn = true) (hq : s.queueOf who n = some q) (f : Nat → State) :
    s.onQueue who n f = f q := by
  simp [State.onQueue, hin, hq]

/-- A state that differs in one queue only, and the rest of which is as before. -/
def SetsQueue (s : State) (q : Nat) (u : State) (y : Queue) : Prop :=
  u.mem = s.mem ∧ u.regs = s.regs ∧ u.queue q = y ∧ ∀ k, k ≠ q → u.queue k = s.queue k

theorem setsQueue_modQueue (s : State) (q : Nat) (f : Queue → Queue) : SetsQueue s q (s.modQueue q f) (f (s.queue q)) := by
  refine ⟨rfl, rfl, ?_, fun k hk => ?_⟩
  · simp [State.queue, State.modQueue]
  · simp only [State.queue, State.modQueue, assocGet_assocSet_ne _ hk]

theorem setsQueue_modQueue_of_eq (s : State) (q : Nat) {f : Queue → Queue} {y : Queue} (hy : f (s.queue q) = y) : SetsQueue s q (s.modQueue q f) y :=
  hy ▸ setsQueue_modQueue s q f

theorem State.bindOk_iff (s : State) (x : Queue) : s.bindOk x = true ↔ (s.asidEntry x.asid).v = true ∧ (s.asidEntry x.asid).sworld = x.world ∧ x.base ≠ 0
    ∧ x.base.toNat % 64 = 0 ∧ x.log2n.toNat ≤ 20 := by
  simp [State.bindOk, and_assoc]

/-- The host's write of BASE is a write of its queue's block. -/
theorem State.hostWrite_base {s : State} {who : HostFn} {n q : Nat} (hin : s.hostIn = true) (hq : s.queueOf who n = some q) (hn : n < 4096) (w : Word) :
    s.hostWrite who (64 * n + 8) w = s.modQueue q fun x => if x.en then x else { x with base := w } := by
  have hblock : (64 * n + 8) / 64 = n := by omega
  have hoff : (64 * n + 8) % 64 = 8 := by omega
  have hfour : (64 * n + 8) % 4 = 0 := by omega
  have height : (64 * n + 8) % 8 = 0 := by omega
  simp only [State.hostWrite, hin, hfour, height, Bool.not_true, ne_eq, not_true, decide_false, Bool.false_and, Bool.or_self, Bool.false_eq_true, if_false]
  rw [if_pos (by omega), hblock, hoff, State.onQueue_of_queueOf hin hq]
  rfl

/-! ### A saved crew that is resumed or dropped -/

/-- A fold of steps that change the samples alone changes the samples alone. -/
theorem foldl_samples {α : Type} {f : State → α → State} (h : ∀ s x, ∃ l, f s x = { s with samples := l }) (xs : List α) (s : State) :
    ∃ l, xs.foldl f s = { s with samples := l } := by
  induction xs generalizing s with
  | nil => exact ⟨s.samples, rfl⟩
  | cons x xs ih =>
    obtain ⟨l, hl⟩ := h s x
    obtain ⟨l', hl'⟩ := ih { s with samples := l }
    exact ⟨l', by rw [List.foldl_cons, hl, hl']⟩

theorem State.reissued_eq (s : State) (crew : Nat) (sid : Sid) (es : List Entry) : ∃ l, s.reissued crew sid es = { s with samples := l } := by
  refine foldl_samples (fun s e => ?_) es s
  split
  · exact ⟨s.samples, rfl⟩
  · exact ⟨_, rfl⟩

/-- A saved crew that is not in its slot's place, or whose slot the block does not have, cannot be resumed; one that is, can. -/
theorem State.resumable_of_saved {s : State} {y : Saved} (hy : y ∈ s.saved) {q slot : Nat} (hq : y.queue = q) (hslot : y.slot = slot)
    (hlt : slot < (s.queue q).savecount.toNat) : s.resumable q slot = true := by
  simp only [State.resumable, hlt, decide_true, Bool.true_and, Bool.or_eq_true]
  exact Or.inl (List.any_eq_true.2 ⟨y, hy, by simp [hq, hslot]⟩)

theorem State.mem_resumeSlot {s : State} {y : Saved} (hy : y ∈ s.saved) {q slot : Nat} (hq : y.queue = q) (hslot : y.slot = slot)
    (hr : s.resumable q slot = true) : (s.resumeSlot q slot).mem = s.mem ∧ (s.resumeSlot q slot).regs = s.regs
      ∧ { y with ready := true, crew := if y.crew.waits q slot then y.crew.resumed slot else y.crew } ∈ (s.resumeSlot q slot).saved := by
  obtain ⟨l, hl⟩ := foldl_samples (f := fun s c => c.sids.foldl (fun s sid => s.reissued c.id sid (((c.strand? sid).map (Strand.resuming slot)).getD [])) s)
    (fun s c => foldl_samples (fun s sid => State.reissued_eq ..) c.sids s) ((s.crews ++ s.saved.map Saved.crew).filter (Crew.waits q slot)) s
  simp only [State.resumeSlot, hr, Bool.not_true, Bool.false_eq_true, if_false, hl]
  refine ⟨trivial, trivial, ?_⟩
  simp only [mapIf, List.map_map, List.mem_map, Function.comp_apply]
  refine ⟨y, hy, ?_⟩
  simp only [hq, hslot, beq_self_eq_true, Bool.and_self, if_true, Bool.true_and]
  split <;> rfl

theorem State.removeCrew_saved (s : State) (id : Nat) : (s.removeCrew id).saved = s.saved := rfl

theorem State.event_saved (s : State) (kind die : Nat) (w : Who) (r : RecInfo) : (s.event kind die w r).saved = s.saved :=
  (congrArg State.saved (State.event_unwritten s kind die w r) :)

theorem foldl_saved {α : Type} {f : State → α → State} (h : ∀ s x, (f s x).saved = s.saved) (l : List α) (s : State) : (l.foldl f s).saved = s.saved := by
  induction l generalizing s with
  | nil => rfl
  | cons x l ih => rw [List.foldl_cons, ih, h]

theorem State.loseCrew_saved (s : State) (c : Crew) (slot : Nat) : (s.loseCrew c slot).saved = s.saved := by
  rw [State.loseCrew, State.removeCrew_saved, State.event_saved]

theorem State.not_mem_dropSlot {s : State} {q slot : Nat} (hr : s.resumable q slot = true) {z : Saved} (hz : z ∈ (s.dropSlot q slot).saved) :
    ¬(z.queue = q ∧ z.slot = slot) := by
  rintro ⟨hq, hslot⟩
  simp only [State.dropSlot, hr, Bool.not_true, Bool.false_eq_true, if_false] at hz
  rw [foldl_saved fun s c => s.loseCrew_saved c slot] at hz
  simp [hq, hslot] at hz

/-- Settles O50. -/
theorem queueControl : Obligations.QueueControl := by
  unfold Obligations.QueueControl
  intro s who n q slot v w hin hq x a good gives
  have onQueue (i : Instr) (f : Nat → State) (hi : exec i s = .next (s.onQueue who n f)) : exec i s = .next (f q) := by
    rw [hi, State.onQueue_of_queueOf hin hq]
  have hgood : s.bindOk x = true ↔ good := s.bindOk_iff x
  refine ⟨fun hg => ?_, fun hg => ?_, ?_, ?_, fun hn => ?_, fun hr => ⟨?_, ?_⟩, fun y hy hyq hslot hlt => ⟨?_, ?_⟩⟩
  · exact ⟨_, onQueue (.queueEnable who n) s.enableQueue rfl, setsQueue_modQueue_of_eq s q (if_pos (hgood.2 hg))⟩
  · exact ⟨_, onQueue (.queueEnable who n) s.enableQueue rfl, setsQueue_modQueue_of_eq s q (if_neg (mt hgood.1 hg))⟩
  · exact ⟨_, onQueue (.queueDisable who n) s.disableQueue rfl, setsQueue_modQueue ..⟩
  · exact ⟨_, onQueue (.tailWrite who n v) (fun q => s.writeTail q v) rfl, setsQueue_modQueue ..⟩
  · exact ⟨_, congrArg Host.Outcome.next (State.hostWrite_base hin hq hn w), setsQueue_modQueue ..⟩
  · refine ⟨_, onQueue (.resume who n slot) (fun q => s.resumeSlot q slot) rfl, ?_⟩
    simp only [State.resumeSlot, hr, Bool.not_false, if_true]
    exact setsQueue_modQueue ..
  · refine ⟨_, onQueue (.resumeDrop who n slot) (fun q => s.dropSlot q slot) rfl, ?_⟩
    simp only [State.dropSlot, hr, Bool.not_false, if_true]
    exact setsQueue_modQueue ..
  · exact ⟨_, onQueue (.resume who n slot) (fun q => s.resumeSlot q slot) rfl, State.mem_resumeSlot hy hyq hslot (State.resumable_of_saved hy hyq hslot hlt)⟩
  · exact ⟨_, onQueue (.resumeDrop who n slot) (fun q => s.dropSlot q slot) rfl,
      fun z hz => State.not_mem_dropSlot (State.resumable_of_saved hy hyq hslot hlt) hz⟩

end Sys2Proof.Machine
end


section
/-! Obligation O34: the return of a tape. -/

namespace Sys2Proof.Machine

/-! ### The return (R380) -/

theorem Ctx.keepsPaths_setShare {c : Ctx} (hid : c.crew.id = c.id) (l : Nat) (b : List Byte) (s : State) : c.KeepsPaths s (s.setShare c.crew c.sid l b) := by
  refine ⟨fun t ht => ⟨t, ?_, rfl⟩, rfl⟩
  rw [State.setShare, hid]
  generalize (sidTeam? c.sid).getD 0 = r
  generalize c.crew.sharePad (threadOf c.sid l) = k
  have hset := s.strand?_modTeam c.id r (f := fun tm => tm.setPad k b) (fun _ => rfl) (fun _ => rfl) c.sid
  have hbad (v : State) (g : Team → List Nat) := v.strand?_modTeam c.id r (f := fun tm => { tm with padBad := g tm }) (fun _ => rfl) (fun _ => rfl) c.sid
  rw [State.padWritten]
  exact (hbad _ _).trans ((State.strand?_congr (by rfl) ..).trans (hset.trans ht))

/-- The place that RLINK names (R380): the address of a header, -/
theorem rlink_address (w : Word) : wfld w 0 57 = w.toNat % 2 ^ 57 := by rw [wfld, fld, pow_zero, Nat.div_one]

/-- and a position in its clause. -/
theorem rlink_position (w : Word) : wfld w 59 5 = w.toNat / 2 ^ 59 := by
  have := w.isLt
  rw [wfld, fld]
  omega

/-- A lane's share, with REC clear. -/
def Ctx.endRecording (c : Ctx) (l : Nat) (s : State) : State :=
  s.setShare c.crew c.sid l { Tape.ofBytes (s.shareBytes c.crew c.sid l) with recd := false }.bytes

/-- Where a lane of a return goes on. -/
def Ctx.returnPlace (c : Ctx) (l : Nat) : Dest :=
  if c.act.getLsbD l then (BitVec.ofNat 64 ((c.t.thread l).rlink.toNat % 2 ^ 57), some ((c.t.thread l).rlink.toNat / 2 ^ 59)) else (c.fall, none)

/-- Settles O34: no share is lost, idle or odd, and the places that RLINK names are inside their clauses, where no path joins another. -/
theorem tapeReturn : Obligations.TapeReturn := by
  unfold Obligations.TapeReturn
  intro s c p h hne htape hrefill htr link to_ hgood
  obtain ⟨hs0, -, hcrew, ht, hp, -⟩ := ctx_eq h.slot
  have hkeep : c.KeepsPaths s (c.forLanes c.endRecording s) := c.keepsPaths_forLanes (fun l s => Ctx.keepsPaths_setShare (State.crew?_id hcrew) l _ s) s
  obtain ⟨t', ht', hpaths⟩ := hkeep.1 c.t ht
  have hp' : t'.path? c.grant.path = some c.path := by rw [Strand.path?, hpaths]; exact hp
  have hcleared : (c.forLanes c.endRecording s).tracedStream c.crew c.sid = false := (hkeep.tracedStream ..).trans htr
  have hbody : exec (.tret p) s = .next (c.finish (c.holdOf (.tret p)) (.back (c.forLanes c.endRecording s) ((lanesOf c.lanes).map fun l => (l, c.returnPlace l)))) := by
    have hact : ∀ l ∈ c.ls, c.act.getLsbD l = true := fun l hl => c.mem_ls.1 hl
    have hlost : c.ls.filter (s.shareLost c.crew c.sid) = [] := List.filter_eq_nil_iff.2 fun l hl => by simp [(hgood l (hact l hl)).2.2]
    have hrec : (c.ls.filter fun l => !(Tape.ofBytes (s.shareBytes c.crew c.sid l)).recd) = [] :=
      List.filter_eq_nil_iff.2 fun l hl => by simp [(hgood l (hact l hl)).1]
    have hodd : (c.ls.filter fun l => decide ¬(BitVec.ofNat 64 ((c.t.thread l).rlink.toNat % 2 ^ 57)).toNat % 8 = 0) = [] :=
      List.filter_eq_nil_iff.2 fun l hl => by
        simpa [to_, link] using (hgood l (hact l hl)).2.1
    refine (word_issues h _).trans (congrArg (fun o => Host.Outcome.next (c.finish (c.holdOf (.tret p)) o)) ?_)
    have htape' : ¬ c.crew.desc.tape < 128 := by omega
    simp only [htape', decide_false, Bool.and_false, Bool.false_eq_true, if_false, hrefill, ne_eq, not_true, hs0, hlost, List.contains_nil, Bool.not_false,
      Bool.true_and, hrec, rlink_address, rlink_position, hodd, List.map_nil, List.append_nil, List.isEmpty_nil]
    exact (if_neg (by decide)).trans (congrArg (Out.back · _) (if_neg (Bool.eq_false_iff.mp hcleared)))
  obtain ⟨l, hl⟩ : ∃ l, c.lanes.getLsbD l = true := by
    by_contra hno
    exact hne (BitVec.eq_of_getLsbD_eq fun i _ => by simpa using fun h => hno ⟨i, h⟩)
  have hend {l : Nat} (hl : c.lanes.getLsbD l = true) :=
    finish_back_stands (d := c.returnPlace l) ht' hp' (c.holdOf (.tret p)) (List.mem_map_of_mem (f := fun l => (l, c.returnPlace l)) (mem_lanesOf.mpr hl)) (BitVec.lt_of_getLsbD hl)
  refine ⟨_, hbody, (hend hl).1, fun l hl => ?_⟩
  obtain ⟨-, t'', q, ht'', hq, hs⟩ := hend hl
  by_cases hact : c.act.getLsbD l = true
  · rw [if_pos hact]
    simp only [Ctx.returnPlace, hact, if_true] at hs
    obtain ⟨hql, hpc, hat, hw⟩ := hs
    exact ⟨t'', q, ht'', hq, hql, hpc, (hw.resolve_right fun hno => by cases hno.1).1, hat⟩
  · rw [if_neg hact]
    simp only [Ctx.returnPlace, hact] at hs
    exact hs.standsAt ht'' hq

end Sys2Proof.Machine
end


section
/-! Obligation O32: the tape words of a lane whose share has room. -/

namespace Sys2Proof.Machine

/-! ### A share (R371 to R377) -/

theorem Tape.pushAll_one {x : Tape} (hn : x.nbuf < 7) (v : Nat) : x.pushAll [v] = .inl { x with buf := listSet x.buf x.nbuf v, nbuf := x.nbuf + 1 } := by
  simp only [Tape.pushAll, Tape.push, if_neg (show ¬x.nbuf + 1 = 8 by omega)]

theorem Tape.pushAll_two {x : Tape} (hn : x.nbuf < 6) (v w : Nat) : x.pushAll [v, w]
    = .inl { x with buf := listSet (listSet x.buf x.nbuf v) (x.nbuf + 1) w, nbuf := x.nbuf + 2 } := by
  simp only [Tape.pushAll, Tape.push, if_neg (show ¬x.nbuf + 1 = 8 by omega), if_neg (show ¬x.nbuf + 1 + 1 = 8 by omega)]

theorem Tape.flush_of_empty {x : Tape} (hn : x.nbuf = 0) : x.flush = .inl x := if_pos hn

theorem Tape.need_of_room {x : Tape} {b : Nat} (hb : b ≤ x.size - x.used) (keep : Bool) (n : Nat) : Tape.need b keep (n + 1) x = .inl x := if_pos hb

/-- A share with a span opened at its top. -/
def Tape.opened (x : Tape) (rc : Bool) (entry key : Nat) : Tape :=
  let y := x.store (leBytes 16 (Tape.header 0 0 rc false key entry))
  { y with hdr := y.top, nres := x.nres + 1 }

theorem Tape.openSpan_of_room {x : Tape} (hrec : x.recd = false) (hn : x.nbuf = 0) (hroom : 16 ≤ x.size - x.used) {rc : Bool} {entry : Nat}
    (hentry : rc = true → entry % 8 = 0 ∧ entry < 2 ^ 57) (key : Nat) : x.openSpan rc entry key = .inl (x.opened rc entry key) := by
  have hodd : ¬(rc && (decide (entry % 8 ≠ 0) || decide (2 ^ 57 ≤ entry))) = true := by
    cases rc with
    | false => simp
    | true => have := (hentry rfl).2; simp [(hentry rfl).1]; omega
  simp only [Tape.openSpan, hrec, Bool.false_eq_true, if_false, if_neg hodd, Tape.flush_of_empty hn, Tape.need_of_room hroom]
  rfl

theorem Tape.pop_one {x : Tape} (hrec : x.recd = false) (hn : 0 < x.nbuf) : x.pop 1 = .val [x.buf.getD (x.nbuf - 1) 0] { x with nbuf := x.nbuf - 1 } := by
  simp [Tape.pop, hrec, Tape.popLoop, hn]

theorem Tape.pop_two {x : Tape} (hrec : x.recd = false) (hn : 1 < x.nbuf) : x.pop 2
    = .val [x.buf.getD (x.nbuf - 1) 0, x.buf.getD (x.nbuf - 2) 0] { x with nbuf := x.nbuf - 2 } := by
  have h0 : 0 < x.nbuf := by omega
  have h1 : 0 < x.nbuf - 1 := by omega
  simp [Tape.pop, hrec, Tape.popLoop, h0, h1, Nat.sub_sub]

theorem popVal_one (v : Nat) : popVal [v] = BitVec.ofNat 64 v := rfl

theorem popVal_two (v w : Nat) : popVal [v, w] = BitVec.ofNat 64 (w + v * 2 ^ 32) := rfl

/-! ### One lane -/

theorem Ctx.tapeGate_none {c : Ctx} (hact : c.act ≠ 0) (htape : 128 ≤ c.crew.desc.tape) (hrefill : c.t.refilling &&& c.act = 0) : c.tapeGate = none := by
  rw [Ctx.tapeGate, if_neg hact, if_neg (by omega), if_neg (not_not.2 hrefill)]

theorem act_ne_zero_of_ls {c : Ctx} {l : Nat} {L : List Nat} (h : c.ls = l :: L) : c.act ≠ 0 :=
  lanes_ne_zero (c.mem_ls.1 (h ▸ List.mem_cons_self ..))

/-- A tape word of one lane, whose share stays in its ring, writes the share. -/
theorem Ctx.tapeWord_one {c : Ctx} {l : Nat} (hls : c.ls = [l]) (hgate : c.tapeGate = none) (hlost : c.s0.shareLost c.crew c.sid l = false)
    {f : Nat → Tape → Tape.Res Tape} {y : Tape} (hf : f l (Tape.ofBytes (c.s0.shareBytes c.crew c.sid l)) = .inl y) (hout : y.out = []) :
    c.tapeWord f = .done (c.s0.setShare c.crew c.sid l y.bytes) := by
  simp only [Ctx.tapeWord, hgate, hls, List.foldl_cons, List.foldl_nil, hlost, Bool.false_eq_true, if_false, hf, State.commitTape, hout, List.isEmpty_nil, if_true]

/-- A pop of one lane, whose words are in the buffer, writes them and the share. -/
theorem Ctx.popPlan_of_val {c : Ctx} {l k : Nat} {s : State} (hlost : s.shareLost c.crew c.sid l = false) {out : List Nat} {y : Tape}
    (hpop : (Tape.ofBytes (s.shareBytes c.crew c.sid l)).pop k = .val out y) : c.popPlan k s l = (.inl (.val out y), s) := by
  simp only [Ctx.popPlan, hlost, Bool.false_eq_true, if_false, hpop]

theorem Issues.pops {s : State} {c : Ctx} {p : Pre} {t : Ty} {d : Opd} (h : Issues s (.tpop p t d) c) {l : Nat} (hls : c.ls = [l]) (hgate : c.tapeGate = none)
    (hlost : s.shareLost c.crew c.sid l = false) {out : List Nat} {y : Tape}
    (hpop : (Tape.ofBytes (s.shareBytes c.crew c.sid l)).pop (if t.is64 then 2 else 1) = .val out y) :
    Leaves (exec (.tpop p t d) s) (c.write t d l (popVal out) (s.setShare c.crew c.sid l y.bytes)) := by
  obtain ⟨hs0, -⟩ := ctx_eq h.slot
  refine h.leaves_word (e := fun s => c.write t d l (popVal out) (s.setShare c.crew c.sid l y.bytes)) ?_
  simp only [hgate, hls, hs0, List.foldl_cons, List.foldl_nil, Ctx.popPlan_of_val hlost hpop, List.nil_append, List.filter_cons, Tape.Pop.loads,
    Bool.false_eq_true, if_false, List.filter_nil, List.map_nil, List.isEmpty_nil, Bool.not_true, Bool.false_and, if_true]

/-- Settles O32: a word is refused nothing, and its share stays in its ring. -/
theorem tapeWords : Obligations.TapeWords := by
  unfold Obligations.TapeWords
  intro s c p t d a b l hls htape hrefill hlost x sets v opened
  have hgate := Ctx.tapeGate_none (act_ne_zero_of_ls hls) htape hrefill
  have hsets {i : Instr} {f : Ctx → Nat → Tape → Tape.Res Tape} (hi : exec i s = word i s fun c => c.tapeWord (f c)) {y : Tape} (hf : f c l x = .inl y)
      (hout : y.out = []) :
      sets i y := by
    intro h
    obtain ⟨hs0, -⟩ := ctx_eq h.slot
    rw [hi]
    exact h.leaves_word (e := fun s => s.setShare c.crew c.sid l y.bytes) (Ctx.tapeWord_one hls hgate (by rwa [hs0]) (by rw [hs0]; exact hf) hout)
  have hrecord (hn : x.nres ≠ 0) (ws : List Nat) : x.record ws = x.pushAll ws := if_neg hn
  refine ⟨fun hn hbuf ht => ?_, fun hn hbuf ht => ?_, fun hrec hbuf hroom => ?_, fun hrec hbuf hroom hal hlt => ?_, fun hrec hused hal hal' => ?_,
    fun hrec hbuf ht h => ?_, fun hrec hbuf ht h => ?_⟩
  · exact hsets rfl (by rw [ht]; exact (hrecord hn _).trans (Tape.pushAll_one hbuf v)) rfl
  · exact hsets rfl (by rw [ht]; exact (hrecord hn _).trans (Tape.pushAll_two hbuf _ _)) rfl
  · exact hsets rfl (Tape.openSpan_of_room hrec hbuf hroom (fun h => by cases h) 0) rfl
  · exact hsets rfl (Tape.openSpan_of_room hrec hbuf hroom (fun _ => ⟨hal, hlt⟩) _) rfl
  · exact hsets rfl (if_neg (by simp [hrec, hused, hal, hal'])) rfl
  · have hpop := h.pops hls hgate hlost (by rw [ht]; exact Tape.pop_one (x := x) hrec hbuf)
    rwa [popVal_one] at hpop
  · have hpop := h.pops hls hgate hlost (by rw [ht]; exact Tape.pop_two (x := x) hrec hbuf)
    rwa [popVal_two] at hpop

end Sys2Proof.Machine
end


section
/-! Obligation O31, which an entry number that is in use refutes. -/

namespace Sys2Proof.Machine

/-! ### Pushes (R360) -/

def pushOne : Instr := .qpush Tests.p0 (.v 0) 1

/-- The producer issues a push, whose entry takes a number that an older load of another lane has. -/
def entryInUse : State :=
  Tests.withStrand (fun t => { t with log := [{ Tests.olderLoad with id := (Tests.issuing pushOne).ids, lanes := 2 }] }) (Tests.issuing pushOne)

/-- The queues of a team after an outcome. -/
def queuesAfter (o : Host.Outcome State Fault Refusal) (crew rank : Nat) : List Word :=
  match o with
  | .next u => ((u.team? crew rank).map Team.queues).getD []
  | _ => []

theorem pushOne_fills_queue : queuesAfter (exec pushOne entryInUse) 0 0 = [0, pqWord 9 0, 0, 0] := by decide +kernel

/-- Refutes O31: the push is taken nine times, since the entry that it completes is the older load's. -/
theorem not_producerQueues : ¬ Obligations.ProducerQueues := by
  unfold Obligations.ProducerQueues
  intro h
  obtain ⟨c, hI, hP⟩ := Tests.issues_of_meets (s := entryInUse) (i := pushOne) (P := fun c => c.id == 0 && c.rank == 0 && c.sid == .producer c.rank && c.act == 1
    && decode c.word == some pushOne && c.t.pushes == 0 && c.t.canRaise ⟨0, 1, 0, 0⟩ && (c.team.any fun tm => tm.queues == [0, 0, 0, 0])) (by decide +kernel)
  simp only [Bool.and_eq_true, beq_iff_eq, Option.any_eq_true] at hP
  obtain ⟨⟨⟨⟨⟨⟨⟨hid, hrank⟩, hsid⟩, hact⟩, hword⟩, hpushes⟩, hraise⟩, tm, htm, hqueues⟩ := hP
  obtain ⟨u, tm', hu, -, -, htm', hq, -⟩ := (h.2 entryInUse c tm Tests.p0 (.v 0) 1 0 htm hsid hact).1 hI hword (by decide +kernel) hpushes hraise
    (by rw [hqueues]; decide) (by rw [hqueues]; decide)
  have hfull := pushOne_fills_queue
  rw [hid, hrank] at htm'
  rw [show exec pushOne entryInUse = .next u from hu, queuesAfter, htm', Option.map_some, Option.getD_some, hq, hqueues] at hfull
  exact absurd hfull (by decide)

end Sys2Proof.Machine
end


section
/-! Obligation O29: the words of transaction barriers. -/

namespace Sys2Proof.Machine

/-! ### Numbers in bytes -/

theorem leNat_leBytes (n v : Nat) : leNat (leBytes n v) = v % 256 ^ n := by
  induction n generalizing v with
  | zero => simp [leBytes, leNat, Nat.mod_one]
  | succ n ih =>
    rw [leBytes, leNat, ih, pow_succ', Nat.mod_mul, BitVec.toNat_ofNat]

@[simp] theorem length_leBytes (n v : Nat) : (leBytes n v).length = n := by
  induction n generalizing v with
  | zero => rfl
  | succ n ih => rw [leBytes, List.length_cons, ih]

@[simp] theorem length_memBytesFrom (m : List Host.Cell) (k n : Nat) : (memBytesFrom m k n).length = n := by
  induction n generalizing k with
  | zero => rfl
  | succ n ih => rw [memBytesFrom, List.length_cons, ih]

theorem getElem_memBytesFrom (m : List Host.Cell) (k n i : Nat) (hi : i < (memBytesFrom m k n).length) : (memBytesFrom m k n)[i] = sparseGet 0 m (k + i) := by
  induction n generalizing k i with
  | zero => simp at hi
  | succ n ih =>
    cases i with
    | zero => rfl
    | succ i =>
      have hi' : i < (memBytesFrom m (k + 1) n).length := by simpa using hi
      exact (ih (k + 1) i hi').trans (by rw [Nat.add_assoc, Nat.add_comm 1])

/-- Bytes written read as written. -/
theorem memBytesFrom_memPut {m : List Host.Cell} (h : Memory.wf m) (k : Nat) (l : List Byte) : memBytesFrom (memPut m k l) k l.length = l := by
  refine List.ext_getElem (by simp) fun i hi hi' => ?_
  rw [getElem_memBytesFrom, memPut_same k l i h hi']

/-! ### The bits of a barrier (R306) -/

/-- A barrier whose fields fit its 16 bytes. -/
def Tb.Fits (b : Tb) : Prop := b.phase < 16 ∧ b.arr < 65536 ∧ (-(2 ^ 31 : Nat) ≤ b.sec ∧ b.sec < (2 ^ 31 : Nat)) ∧ b.reload < 65536 ∧ b.clean = true

theorem sext_range (v : Nat) : -(2 ^ 31 : Nat) ≤ sext 32 v ∧ sext 32 v < (2 ^ 31 : Nat) := by
  rw [sext]
  split <;> omega

theorem Tb.fits_ofNat {v : Nat} (hclean : (Tb.ofNat v).clean = true) : (Tb.ofNat v).Fits := by
  refine ⟨?_, ?_, sext_range _, ?_, hclean⟩ <;> simp only [Tb.ofNat, fld] <;> omega

theorem sext_wrapNat {i : Int} (h : -(2 ^ 31 : Nat) ≤ i ∧ i < (2 ^ 31 : Nat)) : sext 32 (wrapNat 32 i) = i := by
  rw [sext, wrapNat]
  split <;> omega

theorem Tb.toNat_lt (b : Tb) : b.toNat < 2 ^ 68 := by
  have := wrapNat_lt 32 b.sec
  rw [Tb.toNat]
  omega

theorem Tb.ofNat_toNat {b : Tb} (h : b.Fits) : Tb.ofNat b.toNat = b := by
  obtain ⟨hp, ha, hs, hr, hc⟩ := h
  obtain ⟨phase, arr, sec, reload, clean⟩ := b
  have hw := wrapNat_lt 32 sec
  simp only at hp ha hs hr hc
  have hsec : sext 32 (wrapNat 32 sec) = sec := sext_wrapNat hs
  simp only [Tb.toNat, Tb.ofNat, fld, Tb.mk.injEq]
  generalize wrapNat 32 sec = w at hw hsec
  refine ⟨by omega, by omega, ?_, by omega, ?_⟩
  · rw [← hsec]; congr 1; omega
  · rw [hc, beq_iff_eq]; omega

theorem Tb.Fits.settle {b : Tb} (h : b.Fits) : b.settle.Fits := by
  obtain ⟨hp, ha, hs, hr, hc⟩ := h
  rw [Tb.settle]
  split
  · exact ⟨Nat.mod_lt _ (by decide), hr, ⟨by simp, by simp⟩, hr, hc⟩
  · exact ⟨hp, ha, hs, hr, hc⟩

theorem Tb.settle_eq (b : Tb) : b.settle = if b.arr = 0 ∧ b.sec = 0 then { b with phase := (b.phase + 1) % 16, arr := b.reload, sec := 0 } else b := by
  simp [Tb.settle]

/-! ### A team's scratchpad -/

/-- The scratchpad of a team. -/
def State.pad (s : State) (k r : Nat) : Option (List Host.Cell) := (s.team? k r).map Team.scratch

theorem State.tbGet_eq (s : State) (k r o : Nat) : s.tbGet k r o = Tb.ofNat (((s.pad k r).map fun m => leNat (memBytesFrom m o 16)).getD 0) := by
  rw [State.tbGet, State.pad, Option.map_map]
  rfl

theorem State.team?_modCrew (s : State) (k r : Nat) {f : Crew → Crew} (hf : ∀ c, (f c).id = c.id) :
    (s.modCrew k f).team? k r = (s.crew? k).bind fun c => (f c).teams[r]? := by
  rw [State.team?, State.crew?_modCrew_same s k hf, Option.bind_map]
  rfl

/-- What a crew's change keeps of its teams, it keeps. -/
theorem State.team_modCrew {α : Type} (s : State) (k r : Nat) {f : Crew → Crew} (hf : ∀ c, (f c).id = c.id) {g : Team → α}
    (hg : ∀ c : Crew, ((f c).teams[r]?).map g = (c.teams[r]?).map g) : ((s.modCrew k f).team? k r).map g = (s.team? k r).map g := by
  rw [State.team?_modCrew s k r hf, State.team?]
  cases s.crew? k with
  | none => rfl
  | some c => exact hg c

theorem State.team_modTeam {α : Type} (s : State) (k r : Nat) (f : Team → Team) (g : Team → α) :
    ((s.modTeam k r f).team? k r).map g = (s.team? k r).map fun t => g (f t) := by
  rw [State.modTeam, State.team?_modCrew s k r (f := fun c => c.modTeam r f) fun _ => rfl, State.team?]
  cases s.crew? k with
  | none => rfl
  | some c => simp [Option.map_map, Function.comp_def]

theorem State.pad_tbWritten (s : State) (k r o : Nat) : (s.tbWritten k (r, o)).pad k r = s.pad k r := by
  rw [State.tbWritten, State.padWritten]
  exact (State.team_modTeam _ k r (fun tm => { tm with padBad := _ }) Team.scratch).trans rfl

theorem Crew.endWaits_team {α : Type} (c : Crew) (team : Option Nat) (p : Wait → Bool) (r : Nat) {g : Team → α} (hg : ∀ t w, g { t with waves := w } = g t) :
    ((c.endWaits team p).teams[r]?).map g = (c.teams[r]?).map g := by
  rw [Crew.endWaits, List.getElem?_map, Option.map_map]
  congr 1
  funext t
  simp only [Function.comp_apply]
  split
  · exact hg t _
  · rfl

/-- A barrier that is put changes, of its team, the scratchpad and the waits. -/
theorem State.team_tbPut {α : Type} (s : State) (k r o : Nat) (b : Tb) {g : Team → α} (hg : ∀ t w, g { t with waves := w } = g t) :
    ((s.tbPut k r o b).team? k r).map g = (s.team? k r).map fun t => g (t.setPadNat o 16 b.settle.toNat) := by
  rw [State.tbPut]
  refine (State.team_modCrew _ k r (f := fun c => c.endWaits none _) (fun _ => rfl) fun c => c.endWaits_team _ _ r hg).trans ?_
  rw [State.team_modTeam]

theorem State.padLost_tbPut (s : State) (k r o : Nat) (b : Tb) (a n : Nat) : (s.tbPut k r o b).padLost k r a n = s.padLost k r a n := by
  rw [State.padLost, s.team_tbPut k r o b (g := fun t => t.padLost a n) fun _ _ => rfl]
  rfl

theorem State.pad_tbPut (s : State) (k r o : Nat) (b : Tb) :
    (s.tbPut k r o b).pad k r = (s.pad k r).map fun m => memPut m o (leBytes 16 b.settle.toNat) := by
  rw [State.pad, s.team_tbPut k r o b (g := Team.scratch) fun _ _ => rfl, State.pad, Option.map_map]
  rfl

theorem State.pad_still (s : State) (k r : Nat) : s.still.pad k r = s.pad k r := by
  have hfind : s.still.crew? k = (s.crew? k).map (Crew.eachStrand Strand.still) := by
    simp only [State.crew?, State.still, List.find?_map]
    rfl
  rw [State.pad, State.pad, State.team?, State.team?, hfind]
  cases s.crew? k with
  | none => rfl
  | some c =>
    simp only [Option.map_some, Option.bind_some, Crew.eachStrand, List.getElem?_map, Option.map_map]
    rfl

/-- The team is there, with its scratchpad in canonical form. -/
def State.HasPad (s : State) (k r : Nat) : Prop := ∃ m, s.pad k r = some m ∧ Memory.wf m

theorem State.hasPad_tbPut {s : State} {k r : Nat} (h : s.HasPad k r) (o : Nat) (b : Tb) : (s.tbPut k r o b).HasPad k r := by
  obtain ⟨m, hm, hwf⟩ := h
  exact ⟨_, by rw [State.pad_tbPut, hm]; rfl, memPut_wf o _ hwf⟩

/-- A barrier that is put reads as it settles. -/
theorem State.tbGet_tbPut {s : State} {k r : Nat} (h : s.HasPad k r) (o : Nat) {b : Tb} (hb : b.Fits) : (s.tbPut k r o b).tbGet k r o = b.settle := by
  obtain ⟨m, hm, hwf⟩ := h
  have hread := memBytesFrom_memPut hwf o (leBytes 16 b.settle.toNat)
  rw [length_leBytes] at hread
  have hlt : b.settle.toNat < 256 ^ 16 := b.settle.toNat_lt.trans (by decide)
  rw [State.tbGet_eq, State.pad_tbPut, hm, Option.map_some, Option.map_some, Option.getD_some, hread, leNat_leBytes, Nat.mod_eq_of_lt hlt,
    Tb.ofNat_toNat hb.settle]

theorem State.tbGet_of_pad {s u : State} {k r : Nat} (h : u.pad k r = s.pad k r) (o : Nat) : u.tbGet k r o = s.tbGet k r o := by
  rw [State.tbGet_eq, State.tbGet_eq, h]

theorem State.pad_of_still {s u : State} (h : u.still = s.still) (k r : Nat) : u.pad k r = s.pad k r := by
  rw [← u.pad_still, h, s.pad_still]

theorem State.fits_tbGet {s : State} {k r o : Nat} (hclean : (s.tbGet k r o).clean = true) : (s.tbGet k r o).Fits := Tb.fits_ofNat hclean

/-! ### The words (R307) -/

/-- The barrier that the guarded lanes of a word name alike. -/
structure Names (c : Ctx) (a : Opd) (r o : Nat) : Prop where
  agree : c.disagree [a] = []
  target : c.tbTarget a (lowLane c.act) = (some (r, o), none)

theorem Names.tbTarget {c : Ctx} {a : Opd} {r o : Nat} (h : Names c a r o) {l : Nat} (hl : l ∈ c.ls) : c.tbTarget a l = (some (r, o), none) := by
  have hread : c.read .n32 a l = c.read .n32 a (lowLane c.act) := by
    have := List.filter_eq_nil_iff.1 h.agree l hl
    rw [List.any_cons, List.any_nil, Bool.or_false, decide_eq_true_eq, not_not] at this
    exact BitVec.eq_of_toNat_eq this
  rw [← h.target, Ctx.tbTarget, Ctx.tbTarget, hread]

theorem Names.tbFaults {c : Ctx} {a : Opd} {r o : Nat} (h : Names c a r o) : c.tbFaults a = [] :=
  List.filterMap_eq_nil_iff.2 fun l hl => by rw [h.tbTarget hl]; rfl

/-- A word that acts once for the path, and whose barrier can be read where it reads it, changes the barrier. -/
theorem Names.tbOnce {c : Ctx} {a : Opd} {r o : Nat} (h : Names c a r o) (hact : c.act ≠ 0) {agree : List Opd} (hagree : c.disagree agree = [])
    (hready : c.tbReady [(r, o)] = true) {reserved : Bool} (hread : reserved = true → c.s0.padLost c.id r o 16 = false ∧ (c.s0.tbGet c.id r o).clean = true)
    {f : Tb → Option Tb} {b : Tb} (hf : f (c.s0.tbGet c.id r o) = some b) :
    c.tbOnce a agree reserved f = .done ((c.s0.tbPut c.id r o b).tbWritten c.id (r, o)) := by
  have hlost : (reserved && c.s0.padLost c.id r o 16) = false := by
    cases reserved with
    | false => rfl
    | true => rw [(hread rfl).1]; rfl
  have hclean : (reserved && !(c.s0.tbGet c.id r o).clean) = false := by
    cases reserved with
    | false => rfl
    | true => rw [(hread rfl).2]; rfl
  simp only [Ctx.tbOnce, if_neg hact, h.tbFaults, hagree, h.target, hready, Bool.not_true, Bool.false_eq_true, if_false, hlost, hclean, hf]
  rfl

/-- A word that puts a barrier leaves it as it settles. -/
theorem Issues.puts {i : Instr} {s : State} {c : Ctx} (h : Issues s i c) {body : Ctx → Out} {r o : Nat} {b : Tb}
    (hb : body c = .done ((c.s0.tbPut c.id r o b).tbWritten c.id (r, o))) (hpad : s.HasPad c.id r) (hfits : b.Fits) :
    ∃ u, word i s body = .next u ∧ u.mem = s.mem ∧ u.regs = s.regs ∧ u.tbGet c.id r o = b.settle := by
  obtain ⟨u, hu, hstill⟩ := h.leaves_word (e := fun s => (s.tbPut c.id r o b).tbWritten c.id (r, o)) hb
  refine ⟨u, hu, (congrArg State.mem hstill :), (congrArg State.regs hstill :), ?_⟩
  rw [State.tbGet_of_pad ((State.pad_of_still hstill ..).trans (State.pad_tbWritten ..)), State.tbGet_tbPut hpad o hfits]

/-- One arrival (R307). -/
def Tb.arrive (b : Tb) : Tb := Tb.settle { b with arr := b.arr - 1 }

theorem Tb.Fits.arrival {b : Tb} (h : b.Fits) : Tb.Fits { b with arr := b.arr - 1 } := by
  obtain ⟨hp, ha, hs, hr, hc⟩ := h
  exact ⟨hp, (Nat.sub_le ..).trans_lt ha, hs, hr, hc⟩

/-- What the arrivals of some lanes leave: the barrier after them, and nothing else that they look at. -/
structure Arrived (c : Ctx) (r o : Nat) (s u : State) (x : Tb) : Prop where
  pad : u.HasPad c.id r
  lost : u.padLost c.id r o 16 = false
  get : u.tbGet c.id r o = x
  clean : x.clean = true
  mem : u.mem = s.mem
  regs : u.regs = s.regs

theorem Names.arriveLane {c : Ctx} {a : Opd} {r o : Nat} (h : Names c a r o) {s u : State} {x : Tb} (hu : Arrived c r o s u x) (harr : x.arr ≠ 0)
    (fs : List LaneFault) {l : Nat} (hl : l ∈ c.ls) : ∃ u', arriveLane c a (u, fs) l = (u', fs) ∧ Arrived c r o s u' x.arrive := by
  have hfits : x.Fits := hu.get ▸ State.fits_tbGet (hu.get ▸ hu.clean)
  have harrive : u.tbArrive c.id r o = some (u.tbPut c.id r o { x with arr := x.arr - 1 }) := by
    simp only [State.tbArrive, hu.lost, hu.get, hu.clean, Bool.not_true, Bool.or_self, harr, decide_false, Bool.false_eq_true, if_false]
  refine ⟨u.tbPut c.id r o { x with arr := x.arr - 1 }, by simp only [Machine.arriveLane, h.tbTarget hl, harrive], ?_⟩
  exact ⟨State.hasPad_tbPut hu.pad o _, (State.padLost_tbPut ..).trans hu.lost, State.tbGet_tbPut hu.pad o hfits.arrival, hfits.arrival.settle.2.2.2.2,
    hu.mem, hu.regs⟩

theorem Names.arriveLanes {c : Ctx} {a : Opd} {r o : Nat} (h : Names c a r o) {s : State} (L : List Nat) (hL : ∀ l ∈ L, l ∈ c.ls) {u : State} {x : Tb}
    (hu : Arrived c r o s u x) (harr : ∀ k, k < L.length → (Tb.arrive^[k] x).arr ≠ 0) (fs : List LaneFault) :
    ∃ u', L.foldl (Machine.arriveLane c a) (u, fs) = (u', fs) ∧ Arrived c r o s u' (Tb.arrive^[L.length] x) := by
  induction L generalizing u x with
  | nil => exact ⟨u, rfl, hu⟩
  | cons l L ih =>
    obtain ⟨u', hu', ha⟩ := h.arriveLane hu (harr 0 (by simp)) fs (hL l (List.mem_cons_self ..))
    obtain ⟨v, hv, hav⟩ := ih (fun m hm => hL m (List.mem_cons_of_mem _ hm)) ha fun k hk => harr (k + 1) (by simpa using hk)
    exact ⟨v, by rw [List.foldl_cons, hu', hv], hav⟩

theorem State.foldl_tbWritten (k r o : Nat) (ts : List (Nat × Nat)) (hts : ∀ q ∈ ts, q = (r, o)) (s : State) :
    (ts.foldl (fun s q => s.tbWritten k q) s).pad k r = s.pad k r ∧ (ts.foldl (fun s q => s.tbWritten k q) s).mem = s.mem
      ∧ (ts.foldl (fun s q => s.tbWritten k q) s).regs = s.regs := by
  induction ts generalizing s with
  | nil => exact ⟨rfl, rfl, rfl⟩
  | cons q ts ih =>
    obtain rfl : q = (r, o) := hts q (List.mem_cons_self ..)
    obtain ⟨hpad, hmem, hregs⟩ := ih (fun x hx => hts x (List.mem_cons_of_mem _ hx)) (s.tbWritten k (r, o))
    exact ⟨hpad.trans (State.pad_tbWritten ..), hmem, hregs⟩

/-- The arrivals of the guarded lanes, where the word is ready and each finds an arrival to take. -/
theorem Names.tbarriveLane {s : State} {c : Ctx} {p : Pre} {sc : Scope} {a : Opd} {r o : Nat} (h : Names c a r o) (hi : Issues s (.tbarriveLane p sc a) c)
    (hact : c.act ≠ 0) (hpad : s.HasPad c.id r) (hlost : s.padLost c.id r o 16 = false) (hready : c.tbReady (c.ls.map fun _ => (r, o)) = true)
    (hclean : (s.tbGet c.id r o).clean = true) (harr : ∀ k, k < c.ls.length → (Tb.arrive^[k] (s.tbGet c.id r o)).arr ≠ 0)
    (hrel : s.released c.crew c.t false c.act none sc = true) :
    ∃ u, exec (.tbarriveLane p sc a) s = .next u ∧ u.mem = s.mem ∧ u.regs = s.regs ∧ u.tbGet c.id r o = Tb.arrive^[c.ls.length] (s.tbGet c.id r o) := by
  obtain ⟨hs0, -⟩ := ctx_eq hi.slot
  obtain ⟨v, hv, hav⟩ := h.arriveLanes c.ls (fun _ hl => hl) ⟨hpad, hlost, rfl, hclean, rfl, rfl⟩ harr []
  have htargets : (c.ls.filterMap fun l => (c.tbTarget a l).1) = c.ls.map fun _ => (r, o) := by
    rw [← List.filterMap_eq_map]
    exact List.filterMap_congr fun l hl => by rw [h.tbTarget hl]; rfl
  have hts : ∀ q ∈ dedup (c.ls.map fun _ => (r, o)), q = (r, o) := fun q hq => by
    obtain ⟨l, -, rfl⟩ := List.mem_map.1 (mem_dedup.1 hq)
    rfl
  obtain ⟨hpadv, hmem, hregs⟩ := State.foldl_tbWritten c.id r o _ hts v
  have hleaves : Leaves (exec (.tbarriveLane p sc a) s) ((dedup (c.ls.map fun _ => (r, o))).foldl (fun s q => s.tbWritten c.id q) v) := by
    refine word_done hi ?_
    rw [← hs0] at hrel hv
    simp only [if_neg hact, htargets, hready, hrel, Bool.not_true, Bool.or_self, Bool.false_eq_true, if_false, h.tbFaults, hv, List.any_nil, Bool.not_false,
      List.filter_true]
    rfl
  obtain ⟨u, hu, hstill⟩ := hleaves
  refine ⟨u, hu, (congrArg State.mem hstill :).trans (hmem.trans hav.mem), (congrArg State.regs hstill :).trans (hregs.trans hav.regs), ?_⟩
  rw [State.tbGet_of_pad ((State.pad_of_still hstill ..).trans hpadv), hav.get]

/-- A barrier as `TBINIT` makes it. -/
def Tb.made (n : Nat) : Tb := { phase := 0, arr := n, sec := 0, reload := n, clean := true }

theorem Tb.fits_made {n : Nat} (h : n ≤ 65535) : (Tb.made n).Fits :=
  ⟨(by decide : 0 < 16), Nat.lt_succ_of_le h, (by decide : -((2 ^ 31 : Nat) : Int) ≤ 0 ∧ (0 : Int) < (2 ^ 31 : Nat)), Nat.lt_succ_of_le h, rfl⟩

theorem Tb.settle_made {n : Nat} (h' : 1 ≤ n) : (Tb.made n).settle = Tb.made n := by
  rw [Tb.settle_eq, if_neg fun h => (Nat.one_le_iff_ne_zero.1 h').elim h.1]

/-- Settles O29. -/
theorem transactionBarriers : Obligations.TransactionBarriers := by
  unfold Obligations.TransactionBarriers
  intro s c tm p sc a b r o hact hab ha htarget htm hwf x n becomes readable settled arrive
  have hnames : Names c a r o := ⟨ha, htarget⟩
  have hpad : s.HasPad c.id r := ⟨tm.scratch, by rw [State.pad, htm]; rfl, hwf⟩
  have hsettled (y : Tb) : y.settle = settled y := y.settle_eq
  have harrive : Tb.arrive = arrive := funext fun y => hsettled _
  refine ⟨fun h hready hlo hhi => ?_, fun h hread hready hclean hlo hhi => ?_, fun h hread hready hclean harr hrel => ?_,
    fun h hread hready hclean harr hrel => ?_, fun h hread hwait hacq hclean hpend => ?_⟩
  · have hmake : (if n = 0 || n > 65535 then none else some (Tb.made n)) = some (Tb.made n) := if_neg (by simp; omega)
    have hputs : becomes (.tbinit p a b) (Tb.made n).settle :=
      h.puts (hnames.tbOnce hact hab hready (reserved := false) (fun h => by cases h) hmake) hpad (Tb.fits_made hhi)
    rwa [Tb.settle_made hlo] at hputs
  · have hsec : -(2 ^ 31 : Nat) ≤ x.sec + sext 32 n ∧ x.sec + sext 32 n < (2 ^ 31 : Nat) := ⟨hlo, hhi⟩
    obtain ⟨hphase, harr, -, hreload, -⟩ := State.fits_tbGet hclean
    have hfits : Tb.Fits { x with sec := x.sec + sext 32 n } := ⟨hphase, harr, hsec, hreload, hclean⟩
    obtain ⟨hs0, -⟩ := ctx_eq h.slot
    have hf : (if secFits (x.sec + sext 32 n) then some { x with sec := x.sec + sext 32 n } else none) = some ({ x with sec := x.sec + sext 32 n } : Tb) :=
      if_pos (by simpa [secFits] using hsec)
    rw [← hsettled]
    exact h.puts (hnames.tbOnce hact hab hready (reserved := true) (fun _ => by rw [hs0]; exact ⟨hread, hclean⟩) (by rw [hs0]; exact hf)) hpad hfits
  · obtain ⟨hs0, -⟩ := ctx_eq h.slot
    rw [← harrive]
    refine h.puts ?_ hpad (State.fits_tbGet hclean).arrival
    rw [hs0]
    simp only [if_neg hact, htarget, hready, hrel, show s.padLost c.id r o 16 = false from hread, show (s.tbGet c.id r o).clean = true from hclean,
      show ¬(s.tbGet c.id r o).arr = 0 from harr, hnames.tbFaults, Bool.not_true, Bool.or_self, Bool.false_eq_true, if_false, Ctx.doneOr, List.isEmpty_nil, if_true]
    rw [hclean]
  · rw [← harrive] at harr ⊢
    exact hnames.tbarriveLane h hact hpad hread hready hclean harr hrel
  · obtain ⟨hs0, -⟩ := ctx_eq h.slot
    have hr : s.padLost c.id r o 16 = false := hread
    have hc : (s.tbGet c.id r o).clean = true := hclean
    refine ⟨fun hphase => h.leaves_word (e := fun s => c.acquire sc s) ?_, fun hphase => h.waits ?_⟩
    · have hpass : (s.tbGet c.id r o).phase ≠ c.rd .n32 b (lowLane c.act) % 16 := hphase
      simp only [if_neg hact, hwait, htarget, hs0, hacq, hpend, hr, hc, ne_eq, hpass, not_false_eq_true, hnames.tbFaults, hab, Bool.not_true,
        Bool.false_eq_true, if_false, if_true]
      rfl
    · have hstay : (s.tbGet c.id r o).phase = c.rd .n32 b (lowLane c.act) % 16 := hphase
      simp only [if_neg hact, hwait, htarget, hs0, hacq, hpend, hr, hc, ne_eq, hstay, not_true, Bool.not_true, Bool.false_eq_true, if_false]
      rw [← hstay]

end Sys2Proof.Machine
end


section
/-! Obligation O41: clocks, issue slots and the watchdog. -/

namespace Sys2Proof.Machine

/-! ### Clocks (R310, R340) -/

theorem foldl_dies {α : Type} {f : State → α → State} (h : ∀ s x, (f s x).dies = s.dies) (l : List α) (s : State) : (l.foldl f s).dies = s.dies := by
  induction l generalizing s with
  | nil => rfl
  | cons x l ih => rw [List.foldl_cons, ih, h]

@[simp] theorem State.signal_dies (s : State) (d b i n : Nat) : (s.signal d b i n).dies = s.dies := by
  rw [State.signal]; split <;> rfl

@[simp] theorem State.coreSignal_dies (s : State) (c : CoreId) (i n : Nat) : (s.coreSignal c i n).dies = s.dies := by
  rw [State.coreSignal]; split <;> simp

@[simp] theorem State.drawIndex_dies (s : State) (n : Nat) : (s.drawIndex n).2.dies = s.dies := by
  rw [State.drawIndex]; split <;> rfl

@[simp] theorem State.cellClock_dies (s : State) (die b i : Nat) (sig : Nat → Nat) (outs : List Bool) : (s.cellClock die b i sig outs).2.dies = s.dies := by
  unfold State.cellClock
  dsimp only
  repeat' split
  all_goals rfl

@[simp] theorem State.cellsClock_dies (s : State) (die b : Nat) (sig : Nat → Nat) (n : Nat) (outs : List Bool) :
    (s.cellsClock die b sig n outs).dies = s.dies := by
  induction n generalizing s outs with
  | zero => rfl
  | succ n ih => simp [State.cellsClock, ih]

@[simp] theorem State.cellClocks_dies (s : State) (die n : Nat) : (s.cellClocks die n).dies = s.dies := by
  induction n generalizing s with
  | zero => rfl
  | succ n ih =>
    rw [State.cellClocks, ih]
    exact foldl_dies (fun _ _ => State.cellsClock_dies ..) _ _

@[simp] theorem State.levels_dies (s : State) (die : Nat) : (s.levels die).dies = s.dies := by
  unfold State.levels
  dsimp only
  rw [foldl_dies, foldl_dies]
  · intro s c
    split
    · rfl
    · refine foldl_dies (fun s sid => ?_) _ _
      split
      · rfl
      · refine foldl_dies (fun s p => ?_) _ _
        repeat' split
        all_goals simp
  · intro s b
    split <;> simp

/-- A die's clock after a tick. -/
theorem State.tick_dies (s : State) (die n : Nat) : (s.tick die n).dies = s.dies.modify die fun d => { d with clk := d.clk + n } := by
  rw [State.tick]
  simp only [State.modDie, listMod_eq_modify]
  congr 1
  repeat' split
  all_goals simp

theorem State.clocks_dies (s : State) (die n : Nat) : (s.clocks die n).dies = s.dies.modify die fun d => { d with clk := d.clk + n } := by
  induction n generalizing s with
  | zero => exact (List.modify_id die s.dies).symm
  | succ n ih =>
    rw [State.clocks, ih, State.tick_dies, State.levels_dies, List.modify_modify_eq]
    congr 1
    funext d
    simp only [Function.comp_apply, Nat.add_assoc, Nat.add_comm 1]

theorem State.clk_of_dies {s u : State} {die n : Nat} (hdie : die < s.dies.length) (h : u.dies = s.dies.modify die fun d => { d with clk := d.clk + n }) :
    u.clk die = s.clk die + n := by
  simp only [State.clk, State.die, h, List.getD_eq_getElem?_getD, List.getElem?_modify, if_true, List.getElem?_eq_getElem hdie, Option.map_eq_map, Option.map_some,
    Option.getD_some]

theorem State.clk_pass {s : State} {die : Nat} (hup : s.up = true) (hdie : die < s.dies.length) (n : Nat) : (s.pass die n).clk die = s.clk die + n := by
  rw [State.pass]
  by_cases hn : n = 0
  · simp [hn]
  · simp only [hn, hup, decide_false, Bool.not_true, Bool.or_self, Bool.false_eq_true, if_false]
    split
    · exact State.clk_of_dies hdie (State.tick_dies s die n)
    · exact State.clk_of_dies hdie (State.clocks_dies s die n)

/-! ### The issue slot (R34, R36, R340) -/

/-- The one path of a stream stands inside a clause, with nothing to keep it from issuing. -/
structure CanIssue (s : State) (c : Crew) (sid : Sid) (t : Strand) (p : Path) (k : Clause) : Prop where
  crew : s.crew? c.id = some c
  strand : c.strand? sid = some t
  paths : t.paths = [p]
  clause : p.clause = some k
  wait : p.wait = .none
  pos : k.pos < k.words.length
  lanes : p.lanes ≠ 0
  frozen : p.frozen = none
  pend : t.pend = []
  running : c.running = true
  stalled : s.stalled c.id sid p.id = false
  held : ∀ i, t.intr = some i → ∀ q ∈ i.held, t.expired c.desc.limit q = false

namespace CanIssue

variable {s : State} {c : Crew} {sid : Sid} {t : Strand} {p : Path} {k : Clause}

theorem strandIn (h : CanIssue s c sid t p k) : s.strand? c.id sid = some t := by
  rw [State.strand?, h.crew, Option.bind_some, h.strand]

theorem path (h : CanIssue s c sid t p k) : t.path? p.id = some p := by
  rw [Strand.path?, h.paths]
  simp

theorem midClause (h : CanIssue s c sid t p k) : p.midClause = true := by
  simp [Path.midClause, h.clause, h.wait]

theorem ready (h : CanIssue s c sid t p k) : s.ready c t p = true := by
  simp only [State.ready, State.waitDone, h.frozen, h.wait, h.clause, Option.isNone_none, Option.isSome_some, Bool.or_true, Bool.true_or, Bool.and_true,
    Bool.true_and, bne_iff_ne]
  exact h.lanes

/-- Nothing is due at a boundary of the stream. -/
theorem due (h : CanIssue s c sid t p k) : s.due c sid t = [] := by
  simp [State.due, h.paths, h.midClause, h.stalled, h.ready]

theorem takeBoundary (h : CanIssue s c sid t p k) : s.takeBoundary c.id sid = s := by
  have hheld : ((t.intr.map Intr.held).getD []).find? (t.expired c.desc.limit) = none := by
    rw [List.find?_eq_none]
    cases hi : t.intr with
    | none => simp
    | some i => simpa using h.held i hi
  simp only [State.takeBoundary, h.crew, h.strandIn, h.running, Bool.not_true, Bool.false_eq_true, if_false, hheld, h.due]

theorem rejoin (h : CanIssue s c sid t p k) : s.rejoin c.id sid = s := by
  simp [State.rejoin, h.crew, h.strandIn, h.running, h.paths, h.clause]

theorem atBoundaries (h : CanIssue s c sid t p k) : s.atBoundaries [(c, sid, t)] = s := by
  simp [State.atBoundaries, h.takeBoundary, h.rejoin]

theorem tileStop (h : CanIssue s c sid t p k) : s.tileStop c sid p = none := by
  simp [State.tileStop, h.strandIn, h.clause, List.getElem?_eq_getElem h.pos, h.pend]

/-- The path's next word gets the slot. -/
theorem grantTo (h : CanIssue s c sid t p k) (lone : Bool) :
    s.grantTo c.id sid p.id lone = { s with slot := some { crew := c.id, sid := sid, path := p.id, lone := lone } } := by
  simp [State.grantTo, h.crew, h.strandIn, h.path, h.clause, State.haveWord, h.pos, h.tileStop]

theorem exiting (h : CanIssue s c sid t p k) : c.exiting = false := by
  have := h.running
  simp only [Crew.running, Bool.and_eq_true, Bool.not_eq_true'] at this
  exact this.1

theorem grantFirst (h : CanIssue s c sid t p k) (hlone : p.lone = false) :
    s.grantFirst [(c, sid, t)] = { s with slot := some { crew := c.id, sid := sid, path := p.id, lone := false } } := by
  have hprog : t.inProgress = some p := by simp [Strand.inProgress, h.paths, hlone, h.midClause]
  have hready : s.readyPath c sid = (some p.id, s) := by simp [State.readyPath, h.strandIn, hprog, h.exiting, h.ready, h.stalled]
  simp only [State.grantFirst, hready, h.grantTo]

theorem loneCands (h : CanIssue s c sid t p k) (hlone : p.lone = true) (hprog : c.desc.prog = true) (hintr : t.intr = none) {r w : Nat}
    (hsid : sid = .wave r w) : s.loneCands (c, sid, t) = [(t.slot * 32 + lowLane p.lanes, c.id, sid, p.id, lowLane p.lanes)] := by
  have hothers : t.othersMid p.id = false := by simp [Strand.othersMid, h.paths]
  have hstalled := h.stalled
  subst hsid
  simp [State.loneCands, hprog, Strand.inH, hintr, h.paths, hothers, hlone, h.midClause, hstalled, h.ready, h.exiting]

end CanIssue

theorem State.withheld_of_free {s : State} (h : s.limited = false) (die : Nat) : s.withheld die = (false, s) := by
  rw [State.withheld, h]
  rfl

/-- A slot that has been granted is spent, and stays granted. -/
theorem State.useSlot_of_granted (s : State) (g : Grant) (die : Nat) (key : Nat × Nat × Nat) :
    ∃ l, State.useSlot { s with slot := some g } die key = { s with slot := some g, dies := l } := ⟨_, rfl⟩

/-! ### The watchdog (R39, R196) -/

/-- The one path of a stream that has expired, and what keeps its stream from anything else. -/
structure Starves (s : State) (c : Crew) (sid : Sid) (t : Strand) (p : Path) : Prop where
  crew : s.crew? c.id = some c
  strand : s.strand? c.id sid = some t
  running : c.running = true
  intr : t.intr = none
  expired : t.paths.filter (t.expired c.desc.limit) = [p]
  pend : t.pend = []
  log : ∀ e ∈ t.log, e.faults = []
  mid : ∀ q ∈ t.paths, q.midClause = true → q = p ∧ (s.stalled c.id sid p.id = true ∨ s.ready c t p = false)

namespace Starves

variable {s : State} {c : Crew} {sid : Sid} {t : Strand} {p : Path}

theorem path_expired (h : Starves s c sid t p) : p ∈ t.paths ∧ t.expired c.desc.limit p = true :=
  List.mem_filter.1 (h.expired ▸ List.mem_singleton_self p)

/-- What the watchdog makes the path take. -/
def due (c : Crew) (p : Path) : Due := { path := p.id, r := p.watchdog c.desc.limit, pend := none }

theorem duesOf (h : Starves s c sid t p) (q : Path) :
    t.duesOf c.desc.limit q = if t.expired c.desc.limit q && !q.midClause then [{ path := q.id, r := q.watchdog c.desc.limit, pend := none }] else [] := by
  have hlog : t.logDues q = [] := by
    have hnone : t.faultyIn q.lanes = [] := List.filter_eq_nil_iff.2 fun e he => by simp [h.log e he]
    rw [Strand.logDues, hnone]
  cases hmid : q.midClause <;> simp [Strand.duesOf, hmid, hlog, h.pend]

/-- Where the expired path stands at a boundary, its dues are the stream's. -/
theorem dues (h : Starves s c sid t p) : (t.paths.map (t.duesOf c.desc.limit)).flatten = if p.midClause then [] else [due c p] := by
  have hmap : (t.paths.map (t.duesOf c.desc.limit)).flatten
      = ((t.paths.filter (t.expired c.desc.limit)).map fun q => if q.midClause then [] else [due c q]).flatten := by
    induction t.paths with
    | nil => rfl
    | cons q L ih =>
      rw [List.map_cons, List.flatten_cons, ih, h.duesOf q, List.filter_cons]
      cases t.expired c.desc.limit q
      · simp
      · cases hm : q.midClause <;> simp [hm, due]
  rw [hmap, h.expired]
  simp

/-- The stream takes the watchdog trap of its path and nothing else. -/
theorem stream_due (h : Starves s c sid t p) : s.due c sid t = [due c p] := by
  have hfilter : t.paths.filter Path.midClause = if p.midClause then [p] else [] := by
    have hsub : t.paths.filter Path.midClause = (t.paths.filter (t.expired c.desc.limit)).filter Path.midClause := by
      rw [List.filter_filter]
      refine List.filter_congr fun q hq => ?_
      cases hm : q.midClause with
      | false => rfl
      | true => rw [(h.mid q hq hm).1, h.path_expired.2]; rfl
    rw [hsub, h.expired]
    simp [List.filter_cons]
  rw [State.due, hfilter, h.dues]
  cases hm : p.midClause with
  | false => rfl
  | true =>
    have hstuck : (s.stalled c.id sid p.id || !s.ready c t p) = true := by
      rcases (h.mid p h.path_expired.1 hm).2 with hs | hr <;> simp [*]
    simp [h.path_expired.2, hstuck, due]

end Starves

theorem Crew.modTeam_self (c : Crew) (r : Nat) {f : Team → Team} (hf : ∀ tm, f tm = tm) : c.modTeam r f = c := by
  have hteams : listMod c.teams r f = c.teams := by
    rw [listMod_eq_modify, funext hf]
    exact List.modify_id ..
  rw [Crew.modTeam, hteams]

theorem Crew.modStrand_self (c : Crew) (sid : Sid) : c.modStrand sid (fun t => t) = c := by
  cases sid with
  | wave r w =>
    refine c.modTeam_self r fun tm => ?_
    rw [listMod_eq_modify, show tm.waves.modify w (fun t => t) = tm.waves from List.modify_id ..]
  | gaffer =>
    rw [Crew.modStrand, show c.gaffer.map (fun t => t) = c.gaffer by cases c.gaffer <;> rfl]
  | producer r =>
    refine c.modTeam_self r fun tm => ?_
    rw [show tm.producer.map (fun t => t) = tm.producer by cases tm.producer <;> rfl]

theorem State.modStrand_self (s : State) (k : Nat) (sid : Sid) : s.modStrand k sid (fun t => t) = s := by
  have hcrews : mapIf (fun c : Crew => c.id == k) (fun c => c.modStrand sid fun t => t) s.crews = s.crews := by
    simp only [Crew.modStrand_self, mapIf, ite_self, List.map_id']
  rw [State.modStrand, State.modCrew, hcrews]

theorem Starves.exec_watchdogExpiry {s : State} {c : Crew} {sid : Sid} {t : Strand} {p : Path} (h : Starves s c sid t p) {lane : Nat}
    (hlane : p.lanes.getLsbD lane = true) : exec (.watchdogExpiry c.id sid lane) s = .next (State.takeTrap { s with stalls := [] } c.id sid p.id
      { p.watchdog c.desc.limit with pend := false }) := by
  have hany : ((t.paths ++ (t.intr.map Intr.held).getD []).any fun q => q.lanes.getLsbD lane && t.expired c.desc.limit q) = true :=
    List.any_eq_true.2 ⟨p, List.mem_append_left _ h.path_expired.1, by rw [hlane, h.path_expired.2]; rfl⟩
  have htake : s.takeBoundary c.id sid = State.takeTrap { s with stalls := [] } c.id sid p.id { p.watchdog c.desc.limit with pend := false } := by
    simp only [State.takeBoundary, h.crew, h.strand, h.running, Bool.not_true, Bool.false_eq_true, if_false, h.intr, Option.map_none,
      Option.getD_none, List.find?_nil, h.stream_due, Starves.due, List.isEmpty_nil, State.modStrand_self]
  have hexec : exec (.watchdogExpiry c.id sid lane) s = execWatchdogExpiry c.id sid lane s := rfl
  rw [hexec, execWatchdogExpiry, h.crew, h.strand]
  exact congrArg Host.Outcome.next ((if_pos hany).trans htake)

/-- Settles O41. -/
theorem issueSlots : Obligations.IssueSlots := by
  unfold Obligations.IssueSlots
  refine ⟨fun s die n hup hdie => State.clk_pass hup hdie n, ?_, ?_⟩
  · intro s die cluster core quad n c sid t p k s1 hticks hlim hcrew hstrand hpaths hclause hwait hpos hlanes hfrozen hpend hrun hstalled hheld to_
    have h : CanIssue s1 c sid t p k := ⟨hcrew, hstrand, hpaths, hclause, hwait, hpos, hlanes, hfrozen, hpend, hrun, hstalled, hheld⟩
    refine ⟨fun hquad hlone hfree => ?_, fun hquad hlone hfree hodd hprog hintr hsid => ?_, fun hctx hlone hfree => ?_⟩
    · obtain ⟨l, hl⟩ := s1.useSlot_of_granted { crew := c.id, sid := sid, path := p.id, lone := false } die (cluster, core, quad)
      refine ⟨{ s1 with slot := some { crew := c.id, sid := sid, path := p.id, lone := false }, dies := l }, congrArg Host.Outcome.next ?_, rfl, rfl, rfl⟩
      simp only [hticks, show s.pass die n = s1 from rfl, hfree, hquad, h.atBoundaries, State.withheld_of_free hlim, sortBy, List.foldr_cons, List.foldr_nil,
        insertBy, h.grantFirst hlone, hl, Bool.not_true, Bool.false_eq_true, if_false]
    · obtain ⟨r, w, hsid⟩ := hsid
      obtain ⟨l, hl⟩ := s1.useSlot_of_granted { crew := c.id, sid := sid, path := p.id, lone := true } die (cluster, core, quad + 4)
      refine ⟨{ s1 with slot := some { crew := c.id, sid := sid, path := p.id, lone := true }, dies := l }, congrArg Host.Outcome.next ?_, rfl, rfl, rfl⟩
      simp only [hticks, show s.pass die n = s1 from rfl, hodd, hfree, hquad, h.atBoundaries, State.withheld_of_free hlim, List.map_cons, List.map_nil,
        h.loneCands hlone hprog hintr hsid, List.flatten_cons, List.flatten_nil, List.append_nil, minBy, h.strandIn, h.path, Option.map_some, Option.getD_some,
        h.midClause, h.grantTo, hl, if_true, Nat.one_ne_zero, decide_false, Bool.not_true, Bool.or_self, Bool.false_eq_true, if_false]
    · obtain ⟨l, hl⟩ := s1.useSlot_of_granted { crew := c.id, sid := sid, path := p.id, lone := false } die (cluster, 4, 0)
      have hmid : t.paths.any Path.midClause = true := by simp [hpaths, h.midClause]
      refine ⟨{ s1 with slot := some { crew := c.id, sid := sid, path := p.id, lone := false }, dies := l }, congrArg Host.Outcome.next ?_, rfl, rfl, rfl⟩
      simp only [hticks, show s.pass die n = s1 from rfl, hfree, hctx, h.atBoundaries, State.withheld_of_free hlim, List.find?_cons, hmid, h.grantFirst hlone, hl,
        Bool.not_true, Bool.false_eq_true, if_false]
  · intro s c sid t p lane hcrew _ hstrand hrun hintr hexp hlane hpend hlog hmid
    exact Starves.exec_watchdogExpiry ⟨hcrew, hstrand, hrun, hintr, hexp, hpend, hlog, hmid⟩ hlane

end Sys2Proof.Machine
end


section
/-! Obligation O51: the host's other moves. -/

namespace Sys2Proof.Machine

/-! ### Invalidates (R224) -/

theorem exec_invalidateComplete {s : State} {asid : BitVec 16} (h : asid ∈ s.invals) : exec (.invalidateComplete asid) s
    = .next { s.dropTlb asid with invals := s.invals.erase asid, invdone := s.invdone + 1 } := by
  have hexec : exec (.invalidateComplete asid) s = execInvalidateComplete asid s := rfl
  rw [hexec, execInvalidateComplete, if_pos (List.contains_iff_mem.2 h)]

/-- Where no write has been made since an ASID's entries were dropped, no older table is used. -/
theorem State.oldMems_nil {s : State} {asid : BitVec 16} (h : assocGet s.tables asid = some s.past.length) (k n : Nat) : s.oldMems asid k n = [] := by
  rw [State.oldMems, h, Option.getD_some, Nat.sub_self, List.take_zero]
  rfl

/-! ### Registers of the observation aperture (R317, R322) -/

theorem State.obsWord_setObs_same (s : State) (die off : Nat) (v : Word) : (s.setObs die off v).obsWord die off = v := by
  simp [State.obsWord, State.setObs]

theorem obsBlock_core {k o : Nat} (hk : k < 168) (ho : o < 0x1000) : obsBlock (0x100000 + 0x1000 * k + o) = some (some k) := by
  rw [obsBlock, if_pos ⟨by omega, by omega⟩]
  congr 2
  omega

theorem exec_cellWrite {s : State} {who : HostFn} {die k i : Nat} (hin : s.hostIn = true) (hfn : who.fn = 0) (hdie : die < 4) (hk : k < 168) (hi : i < 16)
    (hopen : s.shielded who die k = false) (v : Word) : exec (.cellWrite who die (0x100000 + 0x1000 * k + 8 * i) v) s
      = .next (s.writeCell die (0x100000 + 0x1000 * k + 8 * i) v) := by
  have hcell : (0x100000 + 0x1000 * k + 8 * i) % 0x1000 < 0x80 := by omega
  have halign : (0x100000 + 0x1000 * k + 8 * i) % 8 = 0 := by omega
  have hexec : exec (.cellWrite who die (0x100000 + 0x1000 * k + 8 * i) v) s = execCellWrite who die (0x100000 + 0x1000 * k + 8 * i) v s := rfl
  have hdies : die < Config.dies := hdie
  rw [hexec, execCellWrite]
  simp only [hin, hfn, hdies, halign, hcell, decide_true, Bool.and_self, if_true, State.writeObs, obsBlock_core hk (show 8 * i < 0x1000 by omega), Option.map_some,
    Option.getD_some, hopen, Bool.false_eq_true, if_false]

theorem wput_high (w : Word) : wfld (wput w 32 32 0) 32 32 = 0 ∧ wfld (wput w 32 32 0) 0 32 = wfld w 0 32 := by
  have hlt := w.isLt
  simp only [wput, wfld, fld, BitVec.toNat_ofNat]
  omega

/-- The host's write of zero to the higher BIN of two. -/
theorem State.hostWrite_highBin {s : State} {who : HostFn} {die k j : Nat} (hin : s.hostIn = true) (hfn : who.fn = 0) (hdie : die < 4) (hk : k < 168)
    (hj : j < 64) (hopen : s.shielded who die k = false) : s.hostWrite who (0x10900204 + 0x400000 * die + 0x1000 * k + 8 * j) 0
      = s.setObs die (0x100200 + 0x1000 * k + 8 * j) (wput (s.obsWord die (0x100200 + 0x1000 * k + 8 * j)) 32 32 0) := by
  have hfour : (0x10900204 + 0x400000 * die + 0x1000 * k + 8 * j) % 4 = 0 := by omega
  have hbin : binOffset (0x10900204 + 0x400000 * die + 0x1000 * k + 8 * j) = true := by
    simp only [binOffset, Bool.and_eq_true, decide_eq_true_eq]
    omega
  have hdie' : (0x10900204 + 0x400000 * die + 0x1000 * k + 8 * j - 0x10000000 - 0x800000) / 0x400000 = die := by omega
  have hoff : (0x10900204 + 0x400000 * die + 0x1000 * k + 8 * j - 0x10000000 - 0x800000) % 0x400000 = 0x100000 + 0x1000 * k + (0x204 + 8 * j) := by omega
  have hobs : s.writeObs who die (0x100000 + 0x1000 * k + (0x204 + 8 * j)) 0 = s.clearBins die (0x100000 + 0x1000 * k + (0x204 + 8 * j)) 0 := by
    have h0 : ¬(0x100000 + 0x1000 * k + (0x204 + 8 * j)) % 0x1000 < 0x80 := by omega
    have h1 : ¬(0x100000 + 0x1000 * k + (0x204 + 8 * j)) % 0x1000 < 0x100 := by omega
    have h2 : ¬(0x100000 + 0x1000 * k + (0x204 + 8 * j)) % 0x1000 < 0x180 := by omega
    have h3 : 0x200 ≤ (0x100000 + 0x1000 * k + (0x204 + 8 * j)) % 0x1000 ∧ (0x100000 + 0x1000 * k + (0x204 + 8 * j)) % 0x1000 < 0x400 := by omega
    simp only [State.writeObs, obsBlock_core hk (show 0x204 + 8 * j < 0x1000 by omega), Option.map_some, Option.getD_some, hopen, Bool.false_eq_true, if_false,
      h0, h1, h2, h3, decide_true, Bool.and_self, if_true]
  have hhigh : (0x100000 + 0x1000 * k + (0x204 + 8 * j)) % 8 = 4 := by omega
  have hword : (0x100000 + 0x1000 * k + (0x204 + 8 * j)) / 8 * 8 = 0x100200 + 0x1000 * k + 8 * j := by omega
  have hclear : s.clearBins die (0x100000 + 0x1000 * k + (0x204 + 8 * j)) 0
      = s.setObs die (0x100200 + 0x1000 * k + 8 * j) (wput (s.obsWord die (0x100200 + 0x1000 * k + 8 * j)) 32 32 0) := by
    simp only [State.clearBins, hhigh, hword, if_true]
    rfl
  simp only [State.hostWrite, hin, hfour, hbin, hfn, ne_eq, not_true, decide_false, Bool.not_true, Bool.and_false, Bool.or_self, Bool.false_eq_true, if_false]
  rw [if_neg (by omega), if_neg (by omega), if_neg (by omega), if_neg (by omega), if_pos (by omega), State.writeBar2, if_neg (by omega), if_pos (by omega), hdie', hoff,
    hobs, hclear]

/-! ### Path trace (R322) -/

theorem coreAt_eq (die : Nat) {k : Nat} (hk : k < 168) : coreAt (168 * die + k) = { die := die, cluster := k / 4, core := k % 4 } := by
  simp only [coreAt, CoreId.mk.injEq]
  omega

theorem coreBlock_eq (die k : Nat) : coreBlock { die := die, cluster := k / 4, core := k % 4 } = 0x100000 + 0x1000 * k := by
  simp only [coreBlock]
  omega

theorem exec_traceControlWrite {s : State} {who : HostFn} {die k : Nat} (hin : s.hostIn = true) (hfn : who.fn = 0) (hdie : die < 4) (hk : k < 168)
    (hopen : s.shielded who die k = false) (v : Word) : exec (.traceControlWrite who (168 * die + k) v) s
      = .next (s.writeTrace { die := die, cluster := k / 4, core := k % 4 } v) := by
  have hcore : 168 * die + k < 672 := by omega
  have hdie' : (168 * die + k) / 168 = die := by omega
  have hk' : (168 * die + k) % 168 = k := by omega
  have hexec : exec (.traceControlWrite who (168 * die + k) v) s = execTraceControlWrite who (168 * die + k) v s := rfl
  rw [hexec, execTraceControlWrite]
  simp only [hin, hfn, hcore, hdie', hk', hopen, coreAt_eq die hk, decide_true, Bool.not_false, Bool.and_self, if_true]

theorem and_not_one_bits (v : Word) : v &&& ~~~1 &&& 1 = 0 ∧ wbit (v &&& ~~~1) 0 = false := by
  constructor
  · rw [BitVec.and_assoc]; simp
  · simp [wbit]

theorem or_one_bits (v : Word) : (v ||| 1) &&& 1 = 1 ∧ wbit (v ||| 1) 0 = true := by
  constructor
  · refine BitVec.eq_of_getLsbD_eq fun i hi => ?_
    by_cases h : i = 0 <;> simp [h]
  · simp [wbit]

/-- Path trace of a core is what its TRCTL holds. -/
theorem State.traced_setObs (s : State) (die k : Nat) (v : Word) :
    (s.setObs die (0x100000 + 0x1000 * k + 0xF00) v).traced { die := die, cluster := k / 4, core := k % 4 } = wbit v 0 := by
  have hcore : k % 4 < 4 := Nat.mod_lt _ (by decide)
  simp only [State.traced, hcore, decide_true, Bool.true_and, coreBlock_eq, State.obsWord_setObs_same]

theorem State.traced_of_obs {s u : State} (h : u.obs = s.obs) (c : CoreId) : u.traced c = s.traced c := by
  rw [State.traced, State.traced, State.obsWord, State.obsWord, h]

theorem State.emitSync_obs (s : State) (die : Nat) (p : Crew → Sid → Bool) : (s.emitSync die p).obs = s.obs :=
  (congrArg State.obs (State.emitSync_unapplied s die p) :)

theorem State.emitSync_regs (s : State) (die : Nat) (p : Crew → Sid → Bool) : (s.emitSync die p).regs = s.regs :=
  (congrArg State.regs (State.emitSync_unapplied s die p) :)

/-! ### Fault records (R401) -/

theorem State.writeRecord_posts (s : State) (i : Nat) (ws : List Word) : (s.writeRecord i ws).posts = s.posts :=
  (congrArg State.posts (State.putRecordAt_unapplied s .pcie _ ws) :)

theorem State.writeRecord_rtail {s : State} {i : Nat} (hi : i < s.rings.length) (ws : List Word) :
    ((s.writeRecord i ws).ringN i).rtail = (s.ringN i).rtail + 1 := by
  have hrings (k : Nat) : (s.putRecordAt .pcie k ws).rings = s.rings := (congrArg State.rings (State.putRecordAt_unapplied s .pcie k ws) :)
  simp only [State.writeRecord, State.ringN, State.modRing, hrings, listMod_eq_modify, List.getD_eq_getElem?_getD, List.getElem?_modify, if_true,
    List.getElem?_eq_getElem hi, Option.map_eq_map, Option.map_some, Option.getD_some]

/-! ### Containment (R409) -/

/-- What containment asks of a crew. -/
def Crew.key (c : Crew) : Nat × Nat × Nat × Bool := (c.id, c.die, c.cluster, c.secure)

def State.keys (s : State) : List (Nat × Nat × Nat × Bool) := s.crews.map Crew.key

theorem State.event_keys (s : State) (kind die : Nat) (w : Who) (r : RecInfo) : (s.event kind die w r).keys = s.keys := by
  have hcrews : (s.event kind die w r).crews.map Crew.unmarked = s.crews.map Crew.unmarked := (congrArg State.crews (State.event_unwritten s kind die w r) :)
  have hkey (v : State) : v.keys = (v.crews.map Crew.unmarked).map Crew.key := by rw [List.map_map]; rfl
  rw [hkey, hcrews, ← hkey]

theorem State.removeCrew_keys (s : State) (id : Nat) : (s.removeCrew id).keys = s.keys.filter fun k => k.1 != id := by
  rw [State.keys, State.keys, List.filter_map]
  rfl

theorem State.loseCrew_keys (s : State) (c : Crew) (slot : Nat) : (s.loseCrew c slot).keys = s.keys.filter fun k => k.1 != c.id := by
  rw [State.loseCrew, State.removeCrew_keys, State.event_keys]

theorem foldl_loseCrew_keys (slot : Crew → Nat) (L : List Crew) (s : State) :
    (L.foldl (fun s c => s.loseCrew c (slot c)) s).keys = s.keys.filter fun k => L.all fun c => k.1 != c.id := by
  induction L generalizing s with
  | nil => simp
  | cons c L ih => rw [List.foldl_cons, ih, State.loseCrew_keys, List.filter_filter]; simp only [List.all_cons, Bool.and_comm]

/-- The crews that containment of a cluster reaches. -/
def State.contained (s : State) (who : HostFn) (die q : Nat) : List Crew :=
  s.crews.filter fun c => c.die == die && c.cluster == q && whoReaches who c.secure

theorem State.containCluster_keys (s : State) (who : HostFn) (die q : Nat) :
    (s.containCluster who die q).keys = s.keys.filter fun k => (s.contained who die q).all fun c => k.1 != c.id := by
  have hcaches (v : State) : ((List.range 5).foldl (fun s k => { s.invalidateL1 { die := die, cluster := q, core := k } with
      ibuf := assocDel (s.invalidateL1 { die := die, cluster := q, core := k }).ibuf { die := die, cluster := q, core := k } }) v).keys = v.keys := by
    generalize List.range 5 = L
    induction L generalizing v with
    | nil => rfl
    | cons k L ih => exact ih _
  rw [State.containCluster, State.event_keys]
  exact (hcaches _).trans (foldl_loseCrew_keys (fun c => (c.saving.map Saving.slot).getD 0) _ s)

/-- A crew is there still, or no crew of its number is. -/
def Lasts (K : Nat × Nat × Nat × Bool) (s : State) : Prop := K ∈ s.keys ∨ ∀ k ∈ s.keys, k.1 ≠ K.1

theorem Lasts.containCluster {K : Nat × Nat × Nat × Bool} {s : State} (h : Lasts K s) (who : HostFn) (die q : Nat) : Lasts K (s.containCluster who die q) := by
  rw [Lasts, State.containCluster_keys]
  rcases h with h | h
  · by_cases hall : ((s.contained who die q).all fun c => K.1 != c.id) = true
    · exact .inl (List.mem_filter.2 ⟨h, hall⟩)
    · refine .inr fun k hk hkK => hall ?_
      rw [← hkK]
      exact (List.mem_filter.1 hk).2
  · exact .inr fun k hk => h k (List.mem_filter.1 hk).1

/-- A crew of the cluster that the writer reaches is there no more, nor is another of its number. -/
theorem Lasts.gone {K : Nat × Nat × Nat × Bool} {s : State} (h : Lasts K s) {who : HostFn} {die q : Nat} (hdie : K.2.1 = die) (hq : K.2.2.1 = q)
    (hreach : whoReaches who K.2.2.2 = true) : ∀ k ∈ (s.containCluster who die q).keys, k.1 ≠ K.1 := by
  rw [State.containCluster_keys]
  intro k hk hkK
  obtain ⟨hk, hall⟩ := List.mem_filter.1 hk
  rcases h with h | h
  · obtain ⟨c, hc, rfl⟩ := List.mem_map.1 h
    have hmem : c ∈ s.contained who die q := List.mem_filter.2 ⟨hc, by
      rw [← hdie, ← hq]
      simpa [Crew.key] using hreach⟩
    have := List.all_eq_true.1 hall c hmem
    simp [hkK, Crew.key] at this
  · exact h k hk hkK

theorem State.crew?_of_keys {s : State} {id : Nat} (h : ∀ k ∈ s.keys, k.1 ≠ id) : s.crew? id = none := by
  refine List.find?_eq_none.2 fun c hc => ?_
  simpa [Crew.key] using h c.key (List.mem_map_of_mem hc)

theorem State.contain_gone {s : State} {who : HostFn} {die : Nat} {mask : Word} {c : Crew} (hc : c ∈ s.crews) (hdie : c.die = die) (hq : c.cluster < 42)
    (hbit : wbit mask c.cluster = true) (hreach : whoReaches who c.secure = true) : (s.contain who die mask).crew? c.id = none := by
  have hmem : c.cluster ∈ (List.range Config.clusters).filter fun q => wbit mask q := List.mem_filter.2 ⟨List.mem_range.2 hq, hbit⟩
  have hstay (L : List Nat) (u : State) (hu : ∀ k ∈ u.keys, k.1 ≠ c.id) : ∀ k ∈ (L.foldl (fun s q => s.containCluster who die q) u).keys, k.1 ≠ c.id := by
    induction L generalizing u with
    | nil => exact hu
    | cons q L ih =>
      refine ih _ fun k hk => hu k ?_
      rw [State.containCluster_keys] at hk
      exact (List.mem_filter.1 hk).1
  refine State.crew?_of_keys ?_
  rw [State.contain]
  generalize (List.range Config.clusters).filter (fun q => wbit mask q) = L at hmem
  have hlast : Lasts c.key s := .inl (List.mem_map_of_mem hc)
  clear hc
  induction L generalizing s with
  | nil => cases hmem
  | cons q L ih =>
    rw [List.foldl_cons]
    rcases List.mem_cons.1 hmem with hq' | hmem
    · exact hstay L _ (hlast.gone hdie hq' hreach)
    · exact ih hmem (hlast.containCluster who die q)

/-! ### What the host reads (R399, R402) -/

theorem State.hostRead_queue {s : State} {who : HostFn} {n q off : Nat} (hin : s.hostIn = true) (hn : n < 4096) (hq : s.queueOf who n = some q) (hoff : off < 64)
    (hal : off % 8 = 0) : s.hostRead who (64 * n + off) = some (s.readQueue who q off) := by
  have hal' : (64 * n + off) % 8 = 0 := by omega
  have hblock : (64 * n + off) / 64 = n := by omega
  have hin' : (64 * n + off) % 64 = off := by omega
  simp only [State.hostRead, hin, hal', Bool.not_true, ne_eq, not_true, decide_false, Bool.or_self, Bool.false_eq_true, if_false]
  rw [if_pos (by omega), hblock, hin', hq]

theorem State.hostRead_die {s : State} {who : HostFn} {die off : Nat} (hin : s.hostIn = true) (hdie : die < 4) (hoff : off < 0x10000) (hal : off % 8 = 0) :
    s.hostRead who (0x100000 + 0x10000 * die + off) = some (if who.fn ≠ 0 then 0 else s.readDie who die off) := by
  have hal' : (0x100000 + 0x10000 * die + off) % 8 = 0 := by omega
  have hdie' : (0x100000 + 0x10000 * die + off - 0x100000) / 0x10000 = die := by omega
  have hin' : (0x100000 + 0x10000 * die + off) % 0x10000 = off := by omega
  simp only [State.hostRead, hin, hal', Bool.not_true, ne_eq, not_true, decide_false, Bool.or_self, Bool.false_eq_true, if_false]
  rw [if_neg (by omega : ¬0x100000 + 0x10000 * die + off < 0x40000), if_neg (by omega : ¬0x100000 + 0x10000 * die + off < 0x80000),
    if_neg (by omega : ¬0x100000 + 0x10000 * die + off < 0x80400), if_pos (⟨by omega, by omega⟩ : 0x100000 ≤ 0x100000 + 0x10000 * die + off ∧ _), hdie', hin']

theorem State.hostRead_ring {s : State} {who : HostFn} {i off : Nat} (hin : s.hostIn = true) (hi : i < 4) (hoff : off < 0x100) (hal : off % 8 = 0) :
    s.hostRead who (0x80000 + 0x100 * i + off) = some (if who.fn ≠ 0 then 0 else s.readRing who i off) := by
  have hal' : (0x80000 + 0x100 * i + off) % 8 = 0 := by omega
  have hi' : (0x80000 + 0x100 * i + off - 0x80000) / 0x100 = i := by omega
  have hin' : (0x80000 + 0x100 * i + off) % 0x100 = off := by omega
  simp only [State.hostRead, hin, hal', Bool.not_true, ne_eq, not_true, decide_false, Bool.or_self, Bool.false_eq_true, if_false]
  rw [if_neg (by omega : ¬0x80000 + 0x100 * i + off < 0x40000), if_neg (by omega : ¬0x80000 + 0x100 * i + off < 0x80000), if_pos (by omega : 0x80000 + 0x100 * i + off < 0x80400), hi', hin']

/-- The fields of a secure ring block, and of the secure record ring, read zero to the other world. -/
theorem State.hostRead_secure {s : State} {who : HostFn} {die : Nat} (hin : s.hostIn = true) (hdie : die < 4) (hworld : who.secure = false) {i x : Nat}
    (hi : 2 ≤ i) (hi4 : i < 4) (hx : x ∈ [0, 8, 0x10, 0x20, 0x48, 0x50, 0x58, 0x60]) :
    s.hostRead who (if x < 0x40 then 0x80000 + 0x100 * i + x else 0x100000 + 0x10000 * die + x) = some 0 := by
  have hsec : (decide (2 ≤ i) && !who.secure) = true := by simp [hi, hworld]
  simp only [List.mem_cons, List.not_mem_nil, or_false] at hx
  rcases hx with rfl | rfl | rfl | rfl | rfl | rfl | rfl | rfl
  iterate 4
    rw [if_pos (by decide), State.hostRead_ring hin hi4 (by decide) (by decide)]
    simp only [State.readRing, hsec, if_true, ite_self]
  iterate 4
    rw [if_neg (by decide), State.hostRead_die hin hdie (by decide) (by decide)]
    simp only [State.readDie, hworld, Bool.false_eq_true, if_false, ite_self]

/-- Settles O51. -/
theorem hostMoves : Obligations.HostMoves := by
  unfold Obligations.HostMoves
  intro s who asid die off v hin hdie
  refine ⟨?_, fun hmem => ?_, fun hoff hal hassigned hopen => ?_, fun hfn k hk i hi hopen => ⟨?_, fun j hj => ?_, ?_⟩, fun hfn k hk hopen => ?_, fun x hx => ?_,
    fun secure r hr htakes => ?_, fun n q hq hn => ?_, fun hfn => ⟨?_, ?_⟩, fun hworld i hi hi4 x hx => State.hostRead_secure hin hdie hworld hi hi4 hx,
    fun hfn => ?_⟩
  · exact ⟨_, congrArg Host.Outcome.next (if_pos hin), rfl, rfl, rfl⟩
  · refine ⟨_, exec_invalidateComplete hmem, rfl, rfl, rfl, fun e he => ?_, fun k n => State.oldMems_nil (assocGet_assocSet_same ..) k n, rfl⟩
    simpa using (List.mem_filter.1 he).2
  · have hclear : s.writeCounter false die off 0 = { s with counters := assocSet s.counters (die, off) 0 } := by
      simp only [State.writeCounter, hopen, State.counterWrite, hal, hassigned, Bool.not_false, Bool.true_and, Bool.false_eq_true, if_false, decide_true,
        Bool.and_self, if_true]
    have hexec : exec (.memoryCounterClear die off 0) s = .next (s.writeCounter false die off 0) := congrArg Host.Outcome.next (if_pos (by
      simp only [hin, hoff, decide_true, Bool.and_true, Bool.true_and, decide_eq_true_eq]
      exact hdie))
    exact ⟨_, hexec.trans (congrArg _ hclear), rfl, assocGet_assocSet_same ..⟩
  · exact ⟨_, exec_cellWrite hin hfn hdie hk hi hopen v, rfl, rfl, State.obsWord_setObs_same ..⟩
  · refine ⟨_, congrArg Host.Outcome.next (State.hostWrite_highBin hin hfn hdie hk hj hopen), rfl, rfl, ?_⟩
    rw [State.obsWord_setObs_same]
    exact wput_high _
  · obtain ⟨hzero, hoff⟩ := and_not_one_bits v
    refine ⟨_, exec_traceControlWrite hin hfn hdie hk hopen _, ?_⟩
    simp only [State.writeTrace, hzero, hoff, Bool.false_and, Bool.false_eq_true, if_false, coreBlock_eq, State.traced_setObs]
    exact ⟨rfl, rfl, rfl⟩
  · obtain ⟨hone, hon⟩ := or_one_bits v
    have hset : (s.setObs die (0x100000 + 0x1000 * k + 0xF00) 1).traced { die := die, cluster := k / 4, core := k % 4 } = true := State.traced_setObs ..
    refine ⟨_, exec_traceControlWrite hin hfn hdie hk hopen _, ?_⟩
    simp only [State.writeTrace, hone, hon, Bool.true_and, coreBlock_eq]
    cases htr : s.traced { die := die, cluster := k / 4, core := k % 4 } with
    | true => exact ⟨rfl, hset, fun _ => rfl, fun h => by cases h⟩
    | false => exact ⟨State.emitSync_regs .., (State.traced_of_obs (State.emitSync_obs ..) _).trans hset, (fun h => by cases h), fun _ => rfl⟩
  · have hexec : exec (.snapshotMessage die) s = execSnapshotMessage die s := rfl
    rw [hexec, execSnapshotMessage, hx]
    exact ⟨_, rfl, (congrArg State.snaps (State.snapshotAt_unwritten { s with snaps := s.snaps.erase x } die x.seq x.tag x.who) :),
      (congrArg State.regs (State.snapshotAt_unwritten { s with snaps := s.snaps.erase x } die x.seq x.tag x.who) :)⟩
  · have hexec : exec (.faultRecordPost secure) s = execFaultRecordPost secure s := rfl
    rw [hexec, execFaultRecordPost, hr]
    simp only [htakes, Bool.not_true, Bool.false_eq_true, if_false, State.writeRecord_posts]
    refine ⟨_, rfl, ?_, fun hlen => ?_⟩
    · split <;> rfl
    · rw [← State.writeRecord_rtail hlen r.w]
      split <;> rfl
  · exact ⟨State.hostRead_queue hin hn hq (by decide) (by decide), (State.hostRead_queue hin hn hq (by decide) (by decide)).trans (by simp [State.readQueue])⟩
  · simp [State.hostRead, hin, hfn, State.readPackage]
  · rw [show 0x100200 + 0x10000 * die = 0x100000 + 0x10000 * die + 0x200 by omega, State.hostRead_die hin hdie (by decide) (by decide), if_neg (not_not.2 hfn)]
    rfl
  · refine ⟨s.contain who die v, congrArg Host.Outcome.next (if_pos ?_), fun c hc hdie' hq hbit hreach => State.contain_gone hc hdie' hq hbit ?_⟩
    · simp only [hin, hfn, decide_true, Bool.and_true, Bool.true_and, decide_eq_true_eq]
      exact hdie
    · rcases hreach with h | h <;> simp [whoReaches, h]

end Sys2Proof.Machine
end


section
/-! Obligation O52: drops and replays, and links that go down and come up. -/

namespace Sys2Proof.Machine

/-! ### Messages of a port (R341, R342) -/

theorem State.msg?_modMsg_same (s : State) (id : Nat) {f : Msg → Msg} (hf : ∀ m, (f m).id = m.id) : (s.modMsg id f).msg? id = (s.msg? id).map f := by
  rw [State.msg?, State.msg?, State.modMsg, mapIf]
  induction s.msgs with
  | nil => rfl
  | cons m L ih =>
    by_cases hm : m.id = id
    · simp [hm, hf]
    · simpa [hm] using ih

theorem State.msg?_modMsg_ne (s : State) {id k : Nat} (hk : k ≠ id) {f : Msg → Msg} (hf : ∀ m, (f m).id = m.id) : (s.modMsg id f).msg? k = s.msg? k := by
  rw [State.msg?, State.msg?, State.modMsg, mapIf]
  induction s.msgs with
  | nil => rfl
  | cons m L ih =>
    by_cases hm : m.id = k
    · have hne : m.id ≠ id := fun h => hk (hm.symm.trans h)
      simp [hm, hk]
    · by_cases hid : m.id = id
      · simpa [hid, hf, Ne.symm hk] using ih
      · simpa [hm, hid] using ih

/-- Of things with numbers of their own, each is the one that its number finds. -/
theorem find?_of_nodup {α : Type} {f : α → Nat} {L : List α} (hnd : (L.map f).Nodup) {x : α} (hx : x ∈ L) : L.find? (fun y => f y == f x) = some x := by
  induction L with
  | nil => cases hx
  | cons y L ih =>
    rw [List.map_cons, List.nodup_cons] at hnd
    rcases List.mem_cons.1 hx with rfl | hx
    · simp
    · have hne : f y ≠ f x := fun h => hnd.1 (h ▸ List.mem_map_of_mem hx)
      rw [List.find?_cons_of_neg (by simpa using hne)]
      exact ih hnd.2 hx

theorem State.msg?_of_mem {s : State} (hnd : (s.msgs.map Msg.id).Nodup) {m : Msg} (hm : m ∈ s.msgs) : s.msg? m.id = some m := find?_of_nodup hnd hm

theorem State.addCounter_eq (s : State) (die off : Nat) : s.addCounter die off 1
    = { s with counters := assocSet s.counters (die, off) ((assocGet s.counters (die, off)).getD 0 + 1) } := rfl

/-- The choice for one of the messages behind a refused one (R341). -/
def State.keepBehind (due : Nat) (s : State) (o : Msg) : State :=
  let (b, s) := s.drawBit
  s.modMsg o.id fun o => if b then { o with accepted := true } else { o with held := true, due := max o.due due }

/-- A message behind a refused one has been accepted already, or is held. -/
def Behind (due : Nat) (o x : Msg) : Prop := x = { o with accepted := true } ∨ x = { o with held := true, due := max o.due due }

theorem State.keepBehind_eq (due : Nat) (s : State) (o : Msg) : ∃ f : Msg → Msg, (∀ m, (f m).id = m.id) ∧ (∀ m, Behind due m (f m))
    ∧ s.keepBehind due o = { s.modMsg o.id f with free := s.free + 1 } := by
  cases hb : Config.freeBit s.free with
  | true => exact ⟨fun o => { o with accepted := true }, fun _ => rfl, fun _ => .inl rfl, by simp [State.keepBehind, State.drawBit, hb, State.modMsg]⟩
  | false => exact ⟨fun o => { o with held := true, due := max o.due due }, fun _ => rfl, fun _ => .inr rfl, by simp [State.keepBehind, State.drawBit, hb, State.modMsg]⟩

/-- What the choices for the messages behind leave. -/
theorem State.foldl_keepBehind (due : Nat) (L : List Msg) (hnd : (L.map Msg.id).Nodup) (s : State) (hL : ∀ o ∈ L, s.msg? o.id = some o) :
    let u := L.foldl (State.keepBehind due) s
    u.mem = s.mem ∧ u.regs = s.regs ∧ u.counters = s.counters ∧ (∀ k, (∀ o ∈ L, o.id ≠ k) → u.msg? k = s.msg? k)
      ∧ ∀ o ∈ L, ∃ x, u.msg? o.id = some x ∧ Behind due o x := by
  induction L generalizing s with
  | nil => exact ⟨rfl, rfl, rfl, fun _ _ => rfl, fun _ h => by cases h⟩
  | cons o L ih =>
    obtain ⟨f, hid, hbehind, heq⟩ := s.keepBehind_eq due o
    rw [List.map_cons, List.nodup_cons] at hnd
    have hne {x : Msg} (hx : x ∈ L) : x.id ≠ o.id := fun h => hnd.1 (h ▸ List.mem_map_of_mem hx)
    have hmsg (k : Nat) : (s.keepBehind due o).msg? k = (s.modMsg o.id f).msg? k := by rw [heq]; rfl
    obtain ⟨hmem, hregs, hcnt, hother, hbe⟩ := ih hnd.2 (s.keepBehind due o) fun x hx => by
      rw [hmsg, s.msg?_modMsg_ne (hne hx) hid]
      exact hL x (List.mem_cons_of_mem _ hx)
    refine ⟨hmem.trans (by rw [heq]; rfl), hregs.trans (by rw [heq]; rfl), hcnt.trans (by rw [heq]; rfl), fun k hk => ?_, fun x hx => ?_⟩
    · have hko : k ≠ o.id := fun h => hk o (List.mem_cons_self ..) h.symm
      rw [List.foldl_cons, hother k fun x hx => hk x (List.mem_cons_of_mem _ hx), hmsg, s.msg?_modMsg_ne hko hid]
    · rcases List.mem_cons.1 hx with rfl | hx
      · refine ⟨f x, ?_, hbehind x⟩
        rw [List.foldl_cons, hother x.id fun y hy => hne hy, hmsg, s.msg?_modMsg_same _ hid, hL x (List.mem_cons_self ..)]
        rfl
      · exact hbe x hx

/-- The messages that a refusal may hold: the later ones of the port to the same receiver. -/
def State.behindOf (s : State) (m : Msg) : List Msg := (s.window m.sender).filter fun o => m.id < o.id && !o.held && m.sameReceiver o

theorem State.mem_behindOf {s : State} {m o : Msg} : o ∈ s.behindOf m ↔ o ∈ s.window m.sender ∧ m.id < o.id ∧ o.held = false ∧ m.sameReceiver o = true := by
  simp [State.behindOf, and_assoc]

theorem State.behindOf_sublist (s : State) (m : Msg) : (s.behindOf m).Sublist s.msgs := List.filter_sublist.trans List.filter_sublist

/-- The state in which a message has been refused. -/
theorem State.refuseMsg_eq (s : State) (m : Msg) : s.refuseMsg m = (s.behindOf m).foldl (State.keepBehind (s.resendAt (portDie m) (m.tries + 1)))
    (s.modMsg m.id fun x => { x with held := true, tries := x.tries + 1, due := s.resendAt (portDie m) (m.tries + 1) }) := rfl

theorem State.drawIndex_lt (s : State) {n : Nat} (hn : 0 < n) : (s.drawIndex n).1 < n := by
  rw [State.drawIndex]
  split
  · exact hn
  · exact Nat.mod_lt _ hn

/-- A message that is dropped is refused on a die of its way, and counted there. -/
theorem exec_messageDrop {s : State} {port : Nat} {m : Msg} (hm : s.msg? m.id = some m) (harr : s.arrivesAt m port ≠ []) (hheld : m.held = false)
    (hacc : m.accepted = false) (hphase : m.phase ≠ .posted) : ∃ die ∈ s.arrivesAt m port, ∃ j, exec (.messageDrop port m.id) s
      = .next (({ s with free := j }.addCounter die (0x8000 + 8 * port) 1).refuseMsg m) := by
  obtain ⟨j, hj⟩ := s.drawIndex_eq (s.arrivesAt m port).length
  have hlt := s.drawIndex_lt (List.length_pos_iff.2 harr)
  refine ⟨(s.arrivesAt m port).getD (s.drawIndex (s.arrivesAt m port).length).1 0, ?_, j, ?_⟩
  · rw [List.getD_eq_getElem?_getD, List.getElem?_eq_getElem hlt, Option.getD_some]
    exact List.getElem_mem hlt
  · have hexec : exec (.messageDrop port m.id) s = execMessageDrop port m.id s := rfl
    have hgo : ((s.arrivesAt m port).isEmpty || m.held || m.accepted || m.phase == .posted) = false := by
      simp [harr, hheld, hacc, hphase]
    rw [hexec, execMessageDrop, hm]
    simp only [hgo, Bool.false_eq_true, if_false, hj]

/-- What a drop leaves of the machine. -/
theorem State.refuseMsg_spec {s : State} {m : Msg} (hnd : (s.msgs.map Msg.id).Nodup) (hm : s.msg? m.id = some m) :
    let due := s.resendAt (portDie m) (m.tries + 1)
    let u := s.refuseMsg m
    u.mem = s.mem ∧ u.regs = s.regs ∧ u.counters = s.counters ∧ u.msg? m.id = some { m with held := true, tries := m.tries + 1, due := due }
      ∧ ∀ o ∈ s.msgs, o.id ≠ m.id → (o ∉ s.behindOf m → u.msg? o.id = some o) ∧ (o ∈ s.behindOf m → ∃ x, u.msg? o.id = some x ∧ Behind due o x) := by
  intro due u
  set f : Msg → Msg := fun x => { x with held := true, tries := x.tries + 1, due := due } with hfdef
  have hf (x : Msg) : (f x).id = x.id := rfl
  have hsub := s.behindOf_sublist m
  have hne {o : Msg} (ho : o ∈ s.behindOf m) : o.id ≠ m.id := (Nat.ne_of_lt (State.mem_behindOf.1 ho).2.1).symm
  obtain ⟨hmem, hregs, hcnt, hother, hbehind⟩ := State.foldl_keepBehind due (s.behindOf m) (hnd.sublist (hsub.map _))
    (s.modMsg m.id f) fun o ho => by
      rw [s.msg?_modMsg_ne (hne ho) hf]
      exact State.msg?_of_mem hnd (hsub.mem ho)
  refine ⟨hmem, hregs, hcnt, ?_, fun o ho hom => ⟨fun hno => ?_, fun hbe => hbehind o hbe⟩⟩
  · exact (hother m.id fun o ho => hne ho).trans (by rw [s.msg?_modMsg_same _ hf, hm]; rfl)
  · refine (hother o.id fun x hx hxo => hno ?_).trans (by rw [s.msg?_modMsg_ne hom hf]; exact State.msg?_of_mem hnd ho)
    have hxs := State.msg?_of_mem hnd (hsub.mem hx)
    rw [hxo, State.msg?_of_mem hnd ho] at hxs
    exact Option.some.inj hxs ▸ hx

/-- The message that a port sends again next. -/
theorem State.nextResend_head {s : State} {port : Nat} {m : Msg} {rest : List Msg} (h : (s.window port).filter Msg.held = m :: rest)
    (hdue : m.due ≤ s.clk (portDie m)) (hrest : ∀ o ∈ rest, m.id < o.id) : s.nextResend port = some m := by
  have hnone : ((m :: rest).any fun o => o.id < m.id && m.sameReceiver o) = false := by
    rw [List.any_eq_false]
    intro o ho
    rcases List.mem_cons.1 ho with rfl | ho
    · simp
    · simp [Nat.le_of_lt (hrest o ho)]
  simp only [State.nextResend, h, List.find?_cons, hdue, hnone, decide_true, Bool.not_false, Bool.and_self]

theorem State.nextResend_none {s : State} {port : Nat} {m o : Msg} (h : (s.window port).filter Msg.held = [m, o]) (hdue : s.clk (portDie m) < m.due)
    (hlt : m.id < o.id) (hsame : o.sameReceiver m = true) : s.nextResend port = none := by
  simp only [State.nextResend, h, List.find?_cons, List.find?_nil, List.any_cons, hlt, hsame, Nat.not_le.2 hdue, decide_false, Bool.false_and, decide_true,
    Bool.and_self, Bool.true_or, Bool.not_true, Bool.and_false]

theorem State.resendPushes_nil {s : State} (h : s.replays = []) (port : Nat) : s.resendPushes port = s := by
  rw [State.resendPushes, h]
  rfl

/-! ### Peers (R406) -/

/-- What the loss of a peer keeps: the registers, the marks of the peers, and the commands of one number. -/
def State.besides (n : Nat) (s : State) : List (CoreId × List (Nat × BitVec 32)) × List Nat × List Cmd := (s.regs, s.peersDown, s.cmds.filter fun k => k.id == n)

theorem besides_of_unwritten {n : Nat} {s u : State} (h : u.unwritten = s.unwritten) : u.besides n = s.besides n := (congrArg (State.besides n) h :)

theorem State.event_besides (n : Nat) (s : State) (kind die : Nat) (w : Who) (r : RecInfo) : (s.event kind die w r).besides n = s.besides n :=
  besides_of_unwritten (State.event_unwritten ..)

theorem State.emit_besides (n : Nat) (s : State) (die kind : Nat) (w : Who) (payload : List Word) : (s.emit die kind w payload).besides n = s.besides n :=
  besides_of_unwritten (State.emit_unwritten ..)

theorem foldl_besides {α : Type} {n : Nat} {f : State → α → State} (h : ∀ s x, (f s x).besides n = s.besides n) (l : List α) (s : State) :
    (l.foldl f s).besides n = s.besides n := by
  induction l generalizing s with
  | nil => rfl
  | cons x l ih => rw [List.foldl_cons, ih, h]

theorem State.emitSample_besides (n : Nat) (s : State) (crew : Nat) (sid : Sid) (id : Nat) : (s.emitSample crew sid id).besides n = s.besides n := by
  rw [State.emitSample]
  split
  next x c hx hc =>
    have hput : (s.putSample c x).besides n = s.besides n := by
      rw [State.putSample]
      exact State.emit_besides ..
    exact hput
  next => rfl

theorem State.retire_besides (n : Nat) (s : State) (crew : Nat) (sid : Sid) (id : Nat) : (s.retire crew sid id).besides n = s.besides n := by
  rw [State.retire]
  split
  · split
    · exact s.emitSample_besides n crew sid id
    · rfl
  · rfl

theorem State.storeFails_besides (n : Nat) (s : State) (m : Msg) : (s.storeFails m).besides n = s.besides n := by
  rw [State.storeFails]
  split
  · exact (State.retire_besides ..).trans (State.event_besides n s 10 _ m.who { aux := 7, access := 3, pc := m.who.pc })
  · exact State.event_besides n s 10 _ m.who { aux := 7, access := 3, pc := m.who.pc }

theorem State.modCmd_besides {n i : Nat} (hi : i ≠ n) (s : State) {f : Cmd → Cmd} (hf : ∀ k, (f k).id = k.id) : (s.modCmd i f).besides n = s.besides n := by
  rw [State.besides, State.besides, State.modCmd, mapIf]
  have hkeep : ((s.cmds.map fun x => if x.id == i then f x else x).filter fun k => k.id == n) = s.cmds.filter fun k => k.id == n := by
    induction s.cmds with
    | nil => rfl
    | cons k L ih =>
      by_cases hk : k.id = i
      · have hne : k.id ≠ n := hk ▸ hi
        simpa [hk, hf, hi] using ih
      · by_cases hn : k.id = n
        · have hni : n ≠ i := Ne.symm hi
          simpa [hn, hni] using ih
        · simpa [hk, hn] using ih
  exact congrArg (fun l => (s.regs, s.peersDown, l)) hkeep

theorem State.arriveAll_besides {n : Nat} (s : State) {k : Cmd} (hk : k.id ≠ n) : (s.arriveAll k).besides n = s.besides n := by
  rw [State.arriveAll]
  split
  · rfl
  · refine foldl_besides (fun s r => ?_) _ s
    split
    · rfl
    · split
      next u hu =>
        have harrive : u.besides n = s.besides n := by
          simp only [State.tbArrive] at hu
          split at hu
          · cases hu
          · cases hu; rfl
        exact harrive
      next => exact State.modCmd_besides hk s fun _ => rfl

theorem State.dropCmd_besides {n id : Nat} (s : State) (hne : id ≠ n) : State.besides n { s with cmds := s.cmds.filter fun x => x.id != id } = s.besides n := by
  simp only [State.besides, List.filter_filter]
  refine congrArg (Prod.mk _) (congrArg (Prod.mk _) (List.filter_congr fun x _ => ?_))
  by_cases hx : x.id = n
  · simp [hx, Ne.symm hne]
  · simp [hx]

/-- A command that has not completed is not taken away. -/
theorem State.reap_besides {n : Nat} {s : State} (hdone : ∀ x ∈ s.cmds, x.id = n → x.done = false) (id : Nat) : (s.reap id).besides n = s.besides n := by
  rw [State.reap]
  split
  next => rfl
  next k hk =>
    have hid : k.id = id := by simpa using List.find?_some hk
    split
    next => rfl
    next hgo =>
      have hne : id ≠ n := fun h => by
        have := hdone k (List.mem_of_find?_eq_some hk) (hid.trans h)
        simp [this] at hgo
      have harr : (if k.template.route == 0 then s.arriveAll k else s).besides n = s.besides n := by
        split
        · exact s.arriveAll_besides (hid ▸ hne)
        · rfl
      generalize (if k.template.route == 0 then s.arriveAll k else s) = u at harr
      have herr (k : Cmd) : (if k.ecode ≠ 0 && !k.told then (u.failChan k).engineError k.die k.ecode k.who else u).besides n = u.besides n := by
        split
        · exact (State.event_besides n (u.failChan k) ..)
        · rfl
      exact (State.dropCmd_besides _ hne).trans ((herr ((u.cmd? id).getD k)).trans harr)

theorem State.foldl_reap_besides {n : Nat} (L : List Nat) {s : State} (hdone : ∀ x ∈ s.cmds, x.id = n → x.done = false) :
    (L.foldl State.reap s).besides n = s.besides n := by
  induction L generalizing s with
  | nil => rfl
  | cons i L ih =>
    have hone := State.reap_besides hdone i
    rw [List.foldl_cons, ih, hone]
    intro x hx hxn
    have hcmds : ((s.reap i).cmds.filter fun k => k.id == n) = s.cmds.filter fun k => k.id == n := congrArg (fun p => p.2.2) hone
    have hmem : x ∈ (s.reap i).cmds.filter fun k => k.id == n := List.mem_filter.2 ⟨hx, by simpa using hxn⟩
    rw [hcmds] at hmem
    exact hdone x (List.mem_filter.1 hmem).1 hxn

/-- A peer whose links go down is marked, and what waits for it or names it fails. -/
theorem exec_peerLinkDown (s : State) {peer : Nat} (hp : peer < 256) : ∃ u, exec (.peerLinkDown peer) s = .next u ∧ u.regs = s.regs ∧ peer ∈ u.peersDown
    ∧ ∀ k ∈ s.cmds, s.toPeer k peer = true → (∀ x ∈ s.cmds, x.id = k.id → x.done = false) → k.failed 7 ∈ u.cmds := by
  have hexec : exec (.peerLinkDown peer) s = execPeerLinkDown peer s := rfl
  rw [hexec, execPeerLinkDown, if_neg (Nat.not_le.2 hp)]
  set marked : State := { s with peersDown := if s.peersDown.contains peer then s.peersDown else s.peersDown ++ [peer] } with hmarked
  set failed : State := { marked with cmds := mapIf (fun k => marked.toPeer k peer) (fun k => k.failed 7) marked.cmds } with hfailed
  have hkeep {n : Nat} (hdone : ∀ x ∈ failed.cmds, x.id = n → x.done = false) (L : List Msg) :
      (L.foldl State.storeFails ((failed.cmds.map Cmd.id).foldl State.reap failed)).besides n = failed.besides n :=
    (foldl_besides (fun s m => s.storeFails_besides n m) L _).trans (State.foldl_reap_besides _ hdone)
  obtain ⟨n, hn⟩ := Infinite.exists_notMem_finset (failed.cmds.map Cmd.id).toFinset
  have hnone : ∀ x ∈ failed.cmds, x.id = n → x.done = false := fun x hx hxn => absurd (List.mem_toFinset.2 (List.mem_map.2 ⟨x, hx, hxn⟩)) hn
  refine ⟨_, rfl, (congrArg Prod.fst (hkeep hnone _) :), ?_, fun k hk hto hdone => ?_⟩
  · have hpeers : peer ∈ failed.peersDown := by
      simp only [hfailed, hmarked]
      split
      next h => exact List.contains_iff_mem.1 h
      next => exact List.mem_append_right _ (List.mem_singleton_self _)
    exact Eq.mpr (congrArg (fun q => peer ∈ q.2.1) (hkeep hnone _)) hpeers
  · have hmem : k.failed 7 ∈ failed.cmds := List.mem_map.2 ⟨k, hk, by rw [if_pos]; exact hto⟩
    have hundone : ∀ x ∈ failed.cmds, x.id = k.id → x.done = false := by
      intro x hx hxk
      obtain ⟨y, hy, rfl⟩ := List.mem_map.1 hx
      split at hxk <;> split <;> exact hdone y hy hxk
    have hin : k.failed 7 ∈ failed.cmds.filter fun x => x.id == k.id := List.mem_filter.2 ⟨hmem, by simp [Cmd.failed]⟩
    exact (List.mem_filter.1 (Eq.mpr (congrArg (fun q => k.failed 7 ∈ q.2.2) (hkeep hundone _)) hin)).1

/-! ### PCIe (R398) -/

theorem listSet_getElem? {α : Type} (L : List α) (i : Nat) (v : α) (hi : i < L.length) : (listSet L i v)[i]? = some v := by
  induction L generalizing i with
  | nil => cases hi
  | cons x L ih =>
    cases i with
    | zero => rfl
    | succ i => exact ih i (by simpa using hi)

theorem listMod_getElem? {α : Type} (L : List α) (i : Nat) (f : α → α) : (listMod L i f)[i]? = (L[i]?).map f := by
  induction L generalizing i with
  | nil => rfl
  | cons x L ih =>
    cases i with
    | zero => rfl
    | succ i => exact ih i

theorem State.msg?_dropMsg (s : State) (id : Nat) : (s.dropMsg id).msg? id = none := by
  simp [State.msg?, State.dropMsg]

theorem Strand.find?_modEntry (t : Strand) (id : Nat) {f : Entry → Entry} (hf : ∀ e, (f e).id = e.id) :
    (t.modEntry id f).log.find? (fun e => e.id == id) = (t.log.find? fun e => e.id == id).map f := by
  rw [Strand.modEntry, mapIf]
  induction t.log with
  | nil => rfl
  | cons e L ih =>
    by_cases he : e.id = id
    · simp [he, hf]
    · simpa [he] using ih

/-- What the log holds under a number after its entry has changed. -/
theorem State.entry?_modEntry (s : State) (crew : Nat) (sid : Sid) (id : Nat) {f : Entry → Entry} (hf : ∀ e, (f e).id = e.id) :
    (s.modEntry crew sid id f).entry? crew sid id = (s.entry? crew sid id).map f := by
  rw [State.entry?, State.entry?, State.modEntry, State.strand?_modStrand_same]
  cases s.strand? crew sid with
  | none => rfl
  | some t => exact t.find?_modEntry id hf

/-- A PCIe completion that does not come: the lane has cause 6, and is no longer on its way. -/
theorem exec_pcieCompletionTimeout {s : State} {m : Msg} {x : Act} {e : Entry} (hm : s.msg? m.id = some m) (hpt : m.point = .pcie)
    (hheld : m.held = false) (hph : m.phase = .out ∨ m.phase = .back) (hkind : m.kind = .load) (hacts : m.acts = [x])
    (he : s.entry? m.crew m.sid m.entry = some e) (hun : e.undone.getLsbD x.lane = true) : exec (.pcieCompletionTimeout (.msg m.id)) s
      = .next (((s.dropMsg m.id).modEntry m.crew m.sid m.entry fun e => { e with sent := e.sent &&& ~~~(lanesFrom [x.lane]) }).logFault
        m.crew m.sid m.entry [x.lane] 6 (kindOf (wordOf m.word)) false) := by
  have hexec : exec (.pcieCompletionTimeout (.msg m.id)) s = execPcieCompletionTimeout (.msg m.id) s := rfl
  rcases hph with hph | hph <;> simp [hexec, execPcieCompletionTimeout, hm, hpt, hheld, hph, hkind, hacts, he, hun]

/-- Settles O52. -/
theorem linkMoves : Obligations.LinkMoves := by
  unfold Obligations.LinkMoves
  intro s
  refine ⟨fun port m hm hnd harr hheld hacc hph => ?_, fun port m rest hw hdue hrest hre => ?_, fun port m o hw hdue hlt hsame hre => ?_, fun peer hp => ?_,
    fun peer => ⟨_, rfl, rfl, rfl, rfl⟩, fun link gen width hup hl hl2 hg5 hg7 hw => ?_, fun link l hl => ?_,
    fun m x e t hm hpt hheld hph hkind hacts ht he hun hfaults hlane => ?_⟩
  · obtain ⟨die, hdie, j, hexec⟩ := exec_messageDrop hm harr hheld hacc hph
    obtain ⟨hmem, hregs, hcnt, hself, hother⟩ := State.refuseMsg_spec (s := { s with free := j }.addCounter die (0x8000 + 8 * port) 1) hnd hm
    refine ⟨_, die, hdie, hexec, hmem, hregs, hself, (congrArg (assocGet · _) hcnt).trans (assocGet_assocSet_same ..), fun o ho hom => ?_⟩
    obtain ⟨hno, hbe⟩ := hother o ho hom
    refine ⟨fun h => hno fun hin => h (State.mem_behindOf.1 hin), fun h => ?_⟩
    obtain ⟨x, hx, rfl | rfl⟩ := hbe (State.mem_behindOf.2 h)
    · exact .inl hx
    · exact .inr hx
  · refine ⟨_, congrArg Host.Outcome.next (State.resendPushes_nil ?_ port), ?_, ?_, ?_⟩ <;> rw [State.nextResend_head hw hdue hrest]
    · exact hre
    · rfl
    · rfl
    · simp [State.modMsg, mapIf]
  · exact congrArg Host.Outcome.next (by rw [State.nextResend_none hw hdue hlt hsame]; exact State.resendPushes_nil hre port)
  · obtain ⟨u, hexec, hregs, hpeer, hfailed⟩ := exec_peerLinkDown s hp
    refine ⟨u, hexec, hregs, hpeer, fun k hk hplan hcase hdone => hfailed k hk ?_ hdone⟩
    rcases hcase with ⟨hkind, hin⟩ | ⟨hkind, hnames⟩
    · simp [State.toPeer, hkind, hplan, hin]
    · simp [State.toPeer, hkind, hplan, hnames]
  · have hexec : exec (.pcieLinkTrain link gen width) s = execPcieLinkTrain link gen width s := rfl
    have hgo : (s.up && link < 2 && 5 ≤ gen && gen ≤ 7 && [16, 8, 4].contains width) = true := by
      rcases hw with rfl | rfl | rfl <;> simp [hup, hl2, hg5, hg7]
    rw [hexec, execPcieLinkTrain, if_pos hgo]
    exact ⟨_, rfl, rfl, rfl, listSet_getElem? _ _ _ hl⟩
  · exact ⟨_, rfl, rfl, rfl, (listMod_getElem? ..).trans (congrArg _ hl)⟩
  · have hentry : (s.dropMsg m.id).entry? m.crew m.sid m.entry = some e := he
    refine ⟨_, _, exec_pcieCompletionTimeout hm hpt hheld hph hkind hacts he hun, rfl, rfl, s.msg?_dropMsg m.id,
      by rw [State.logFault, State.entry?_modEntry, State.entry?_modEntry, hentry]; rfl; all_goals exact fun _ => rfl, ?_, ?_⟩
    · simp [hfaults, Entry.faultLanes, lanesFrom]
    · simp [lanesFrom_getLsbD, hlane]

end Sys2Proof.Machine
end


section
/-! Obligation O44: what the answer of a load, and a hit in L1, give. -/

namespace Sys2Proof.Machine

/-! ### The books of the caches -/

/-- The state but for the L1 views, the counters and the free choices. -/
def State.uncached (s : State) : State := { s with l1 := [], counters := [], signals := [], free := 0 }

@[simp] theorem State.setL1_uncached (s : State) (c : CoreId) (l : List L1Entry) : (s.setL1 c l).uncached = s.uncached := rfl

@[simp] theorem State.drawError_uncached (s : State) : s.drawError.2.uncached = s.uncached := rfl

@[simp] theorem State.countCore_uncached (s : State) (c : CoreId) (i n : Nat) : (s.countCore c i n).uncached = s.uncached := by
  rw [State.countCore, State.addCounter]
  split_ifs <;> rfl

@[simp] theorem State.coreSignal_uncached (s : State) (c : CoreId) (i n : Nat) : (s.coreSignal c i n).uncached = s.uncached := by
  obtain ⟨l, hl⟩ := s.coreSignal_eq c i n
  rw [hl]
  rfl

@[simp] theorem State.expand_uncached (s : State) (c : CoreId) (b : Bool) : (s.expand c b).uncached = s.uncached := by
  rw [State.expand]
  split_ifs
  · exact s.countCore_uncached ..
  · rfl

@[simp] theorem State.coalesced_uncached (s : State) (m : Msg) (b : Bool) : (s.coalesced m b).uncached = s.uncached := by
  rw [State.coalesced]
  split_ifs
  · rfl
  · rw [State.expand_uncached, State.countCore_uncached]

@[simp] theorem State.hitL1_uncached (s : State) (c : CoreId) (e : L1Entry) (need : BitVec 4) : (s.hitL1 c e need).uncached = s.uncached := by
  rw [State.hitL1, State.expand_uncached, State.coreSignal_uncached, State.setL1_uncached]

/-! ### The end of a load's lane -/

/-- What a load writes is in the registers and the stream. -/
theorem Ctx.writeGroupFrom_eq (c : Ctx) (k l : Nat) (vs : List (BitVec 32)) (s : State) : ∃ r, c.writeGroupFrom k l vs s = { s with regs := r } := by
  induction vs generalizing k s with
  | nil => exact ⟨s.regs, rfl⟩
  | cons v vs ih =>
    obtain ⟨r, hr⟩ := ih (k + 1) (c.setV32 k l v s)
    exact ⟨r, hr⟩

theorem Ctx.putGroup_eq (c : Ctx) (ty : Ty) (z : Size) (d : Opd) (l v : Nat) (s : State) : ∃ r k, c.putGroup ty z d l v s = { s with regs := r, crews := k } := by
  cases d
  case g => exact ⟨s.regs, _, rfl⟩
  case v k =>
    obtain ⟨r, hr⟩ := c.writeGroupFrom_eq k.toNat l ((List.range (sizeRegs ty z)).map fun i => BitVec.ofNat 32 (loadShape ty z v / 2 ^ (32 * i))) s
    exact ⟨r, s.crews, hr⟩
  all_goals exact ⟨s.regs, s.crews, rfl⟩

theorem Ctx.writeGroupFrom_regs_congr (c : Crew) (t : Strand) (e : Entry) {w z : State} (k l : Nat) (vs : List (BitVec 32)) {s u : State} (h : s.regs = u.regs) :
    ((entryCtx w c t e).writeGroupFrom k l vs s).regs = ((entryCtx z c t e).writeGroupFrom k l vs u).regs := by
  induction vs generalizing k s u with
  | nil => exact h
  | cons v vs ih =>
    refine ih (k + 1) ?_
    rw [Ctx.setV32, Ctx.setV32, State.setRegWord, State.setRegWord, h]
    rfl

/-- The registers that a load writes depend on no other part of the state. -/
theorem Ctx.putGroup_regs_congr (c : Crew) (t : Strand) (e : Entry) (ty : Ty) (z : Size) (d : Opd) (l v : Nat) {s u : State} (h : s.regs = u.regs) :
    ((entryCtx s c t e).putGroup ty z d l v s).regs = ((entryCtx u c t e).putGroup ty z d l v u).regs := by
  cases d
  case g => exact h
  case v k => exact Ctx.writeGroupFrom_regs_congr c t e _ l _ h
  all_goals exact h

/-- Where nothing is sampled, a lane that completes changes nothing but its stream. -/
theorem State.complete_eq {s : State} (hs : s.samples = []) (crew : Nat) (sid : Sid) (id : Nat) (ls : Lanes) :
    ∃ k, s.complete crew sid id ls = { s with crews := k } := by
  have hemit (u : State) (hu : u.samples = []) : u.emitSample crew sid id = u := by
    rw [State.emitSample, hu]
    rfl
  rw [State.complete, State.retire]
  split
  · split
    · have hsame := hemit (s.modEntry crew sid id fun e => { e with done := e.done ||| ls }) hs
      simp only [hsame]
      exact ⟨_, rfl⟩
    · exact ⟨_, rfl⟩
  · exact ⟨_, rfl⟩

theorem State.modSample_nil {s : State} (hs : s.samples = []) (crew : Nat) (sid : Sid) (n : Nat) (f : Sample → Sample) : s.modSample crew sid n f = s := by
  rw [State.modSample, hs]
  exact (congrArg (fun l => { s with samples := l }) hs.symm :)

theorem State.sampleLast_eq {s : State} (hs : s.samples = []) (m : Msg) (acts : List Act) : s.sampleLast m acts = s := by
  rw [State.sampleLast]
  split
  · exact State.modSample_nil hs ..
  · rfl

/-- The answer of one lane of a load writes the destination of the lane. -/
theorem State.finishMsg_ld {s : State} {m : Msg} {x : Act} {c : Crew} {t : Strand} {e : Entry} {p : Pre} {ty : Ty} {md : MemMode} {d a : Opd}
    {off : BitVec 16} {h : BitVec 3} (hc : s.crew? m.crew = some c) (ht : s.strand? m.crew m.sid = some t) (he : s.entry? m.crew m.sid m.entry = some e)
    (hi : wordOf e.word = .ld p ty md d a off h) (hbad : m.bad = false) (hacts : m.acts = [x]) (hun : e.undone.getLsbD x.lane = true)
    (hex : (t.thread x.lane).exited = false) (hs : s.samples = []) :
    (s.finishMsg m).mem = s.mem ∧ (s.finishMsg m).msgs = s.msgs
      ∧ (s.finishMsg m).regs = ((entryCtx s c t e).putGroup ty (MemSize md) d x.lane (x.b.toNat + x.c.toNat * 2 ^ 64) s).regs := by
  obtain ⟨r, k, hput⟩ := (entryCtx s c t e).putGroup_eq ty (MemSize md) d x.lane (x.b.toNat + x.c.toNat * 2 ^ 64) s
  have hres : writeResult (entryCtx s c t e) (wordOf e.word) m x s = { s with regs := r, crews := k } := by
    rw [hi]
    exact hput
  suffices hfin : ∃ l k', s.finishMsg m = { s with regs := r, l1 := l, crews := k' } by
    obtain ⟨l, k', hfin⟩ := hfin
    rw [hfin, hput]
    exact ⟨rfl, rfl, rfl⟩
  have hlast : State.sampleLast { s with regs := r, crews := k } m [x] = { s with regs := r, crews := k } :=
    State.sampleLast_eq (s := { s with regs := r, crews := k }) hs m _
  simp only [State.finishMsg, hc, ht, he, hbad, hacts, hun, List.filter_cons_of_pos, List.filter_nil, List.foldl_cons, List.foldl_nil, hex,
    Bool.false_eq_true, if_false, hres, hlast]
  have hcomplete (l : List (CoreId × List L1Entry)) (ls : Lanes) : ∃ l' k', State.complete { s with regs := r, l1 := l, crews := k } m.crew m.sid m.entry ls
      = { s with regs := r, l1 := l', crews := k' } := by
    obtain ⟨k', hk⟩ := State.complete_eq (s := { s with regs := r, l1 := l, crews := k }) hs m.crew m.sid m.entry ls
    exact ⟨l, k', hk⟩
  rw [hi]
  cases acqScope (.ld p ty md d a off h) with
  | none => dsimp only; split_ifs <;> exact hcomplete ..
  | some sc => dsimp only; split_ifs <;> exact hcomplete ..

theorem State.crew?_congr {s u : State} (h : u.crews = s.crews) (k : Nat) : u.crew? k = s.crew? k := by rw [State.crew?, State.crew?, h]

theorem State.entry?_congr {s u : State} (h : u.crews = s.crews) (k : Nat) (sid : Sid) (n : Nat) : u.entry? k sid n = s.entry? k sid n := by
  rw [State.entry?, State.entry?, State.strand?_congr h]

theorem leNat_lt (l : List Byte) : leNat l < 256 ^ l.length := by
  induction l with
  | nil => exact Nat.one_pos
  | cons b l ih =>
    have hb := b.isLt
    rw [leNat, List.length_cons, Nat.pow_succ]
    omega

/-- Bytes of a response, as the two halves that hold them (R286). -/
theorem Act.fill_value (x : Act) {l : List Byte} (hl : l.length ≤ 16) : (x.fill l).b.toNat + (x.fill l).c.toNat * 2 ^ 64 = leNat l := by
  have hlt : leNat l < 2 ^ 128 := lt_of_lt_of_le (leNat_lt l) (by rw [show (2 : Nat) ^ 128 = 256 ^ 16 by norm_num]; exact Nat.pow_le_pow_right (by norm_num) hl)
  simp only [Act.fill, halves, BitVec.toNat_ofNat]
  omega

/-- A response of one lane that is bad: the lane is to be sent again, with cause 9 in its entry. -/
theorem State.finishMsg_bad {s : State} {m : Msg} {x : Act} {c : Crew} {t : Strand} {e : Entry} (hc : s.crew? m.crew = some c)
    (ht : s.strand? m.crew m.sid = some t) (he : s.entry? m.crew m.sid m.entry = some e) (hbad : m.bad = true) (hacts : m.acts = [x])
    (hun : e.undone.getLsbD x.lane = true) : s.finishMsg m
      = (s.modEntry m.crew m.sid m.entry fun e => { e with sent := e.sent &&& ~~~(lanesFrom [x.lane]) }).logFault m.crew m.sid m.entry [x.lane] 9 (kindOf (wordOf e.word)) false := by
  simp only [State.finishMsg, hc, ht, he, hbad, hacts, hun, List.filter_cons_of_pos, List.filter_nil, if_true, List.map_cons, List.map_nil]

/-- A load as an entry of L1 answers it. -/
def Msg.hitBy (m : Msg) (y : L1Entry) (bad : Bool) : Msg := { m with tag := y.tag, bad := bad, acts := m.acts.map fun x => x.fill (y.bytes x.key x.size) }

/-- The message is moving that waits at a home, or goes there. -/
theorem Msg.moving_of_out {m : Msg} (hph : m.phase = .out) (hheld : m.held = false) : m.moving = true := by
  simp [Msg.moving, hph, hheld]

/-- Settles O44. -/
theorem hitAndDeliver : Obligations.HitAndDeliver := by
  unfold Obligations.HitAndDeliver
  intro s id m x c t e p ty md d a off h hm hid hheld hbad hacts hc ht he hun hex hs hdec hword hres gets
  have hi : wordOf e.word = .ld p ty md d a off h := by rw [wordOf, hdec]; rfl
  -- whatever the books of the caches became, the message ends as its lane's answer does
  have hend (u : State) (hu : u.uncached = s.uncached) (m' : Msg) (x' : Act) (hm1 : m'.crew = m.crew) (hm2 : m'.sid = m.sid) (hm3 : m'.entry = m.entry)
      (hm4 : m'.bad = false) (hm5 : m'.acts = [x']) (hx : x'.lane = x.lane) :
      ((u.dropMsg id).finishMsg m').mem = s.mem ∧ ((u.dropMsg id).finishMsg m').msg? id = none
        ∧ ((u.dropMsg id).finishMsg m').regs = ((entryCtx s c t e).putGroup ty (MemSize md) d x.lane (x'.b.toNat + x'.c.toNat * 2 ^ 64) s).regs := by
    have hcrews : u.crews = s.crews := (congrArg State.crews hu :)
    have hregs : u.regs = s.regs := (congrArg State.regs hu :)
    have hcrews' : (u.dropMsg id).crews = s.crews := hcrews
    obtain ⟨hmem, hmsgs, hr⟩ := State.finishMsg_ld (s := u.dropMsg id) (m := m') (x := x') (by rw [hm1, State.crew?_congr hcrews']; exact hc)
      (by rw [hm1, hm2, State.strand?_congr hcrews']; exact ht) (by rw [hm1, hm2, hm3, State.entry?_congr hcrews']; exact he) hi hm4 hm5 (hx ▸ hun) (hx ▸ hex)
      ((congrArg State.samples hu :).trans hs)
    refine ⟨hmem.trans (congrArg State.mem hu :), ?_, hr.trans ?_⟩
    · rw [State.msg?, hmsgs]
      exact u.msg?_dropMsg id
    · rw [hx]
      exact Ctx.putGroup_regs_congr c t e ty (MemSize md) d x.lane _ hregs
  refine ⟨fun hph => ?_, fun y hph hkind hmd hcore hpt hsize hy hsec hfl => ?_⟩
  · obtain ⟨u, hu, hexec⟩ : ∃ u : State, u.uncached = s.uncached ∧ exec (.deliver id) s = .next ((u.dropMsg id).finishMsg m) := by
      have hexec : exec (.deliver id) s = execDeliver id s := rfl
      rw [hexec, execDeliver, hm]
      simp only [hph, hheld, hres, beq_self_eq_true, Bool.not_false, Bool.and_self, if_true, Bool.false_eq_true, if_false]
      refine ⟨_, ?_, rfl⟩
      rw [State.coalesced_uncached]
      split_ifs <;> rfl
    exact ⟨_, hexec, hend u hu m x rfl rfl rfl hbad hacts rfl⟩
  · have hacq : acqScope (wordOf m.word) = none ∨ ∃ sc, acqScope (wordOf m.word) = some sc ∧ scopeInv sc = false := by
      rw [← hword, hi]
      cases md with
      | sized z => exact .inl rfl
      | ordered sc => exact .inr ⟨sc, rfl, hmd sc rfl⟩
    have hneed : m.acts.foldl (fun n x => n ||| sectorsOf x.key x.size) (0 : BitVec 4) = sectorsOf x.key x.size := by simp [hacts]
    have hexec : exec (.hit id) s = execHit id s := rfl
    have hsec' : (y.sectors &&& sectorsOf x.key x.size != sectorsOf x.key x.size) = false := by simp [hsec]
    have hcore' : ¬4 ≤ m.core.core := Nat.not_le.2 hcore
    have hgo : exec (.hit id) s = .next (
        let m' := m.hitBy y (Config.eccError s.free)
        let v := if Config.eccError s.free then s.drawError.2.loseL1 m.core y else (s.drawError.2.hitL1 m.core y (sectorsOf x.key x.size)).coalesced m' false
        (v.dropMsg id).finishMsg m') := by
      rw [hexec, execHit, hm]
      simp only [Msg.moving_of_out hph hheld, hkind, hres, hneed, hy, hsec', State.modSample_nil hs, hcore', ite_self, decide_false,
        bne_self_eq_false, Bool.not_true, Bool.or_self, Bool.false_eq_true, if_false]
      refine congrArg Host.Outcome.next ((if_neg ?_).trans (by simp only [Msg.hitBy, hkind]; rfl))
      rcases hacq with hacq | ⟨sc, hacq, hinv⟩
      · simp [hacq]
      · simp [hacq, hinv]
    split
    next herr =>
      simp only [herr, if_true] at hgo
      have hcrews : ((s.drawError.2.loseL1 m.core y).dropMsg id).crews = s.crews := rfl
      have hentry := (State.entry?_congr hcrews m.crew m.sid m.entry).trans he
      have hfin : ((s.drawError.2.loseL1 m.core y).dropMsg id).finishMsg (m.hitBy y true) = (((s.drawError.2.loseL1 m.core y).dropMsg id).modEntry m.crew m.sid m.entry
          fun e => { e with sent := e.sent &&& ~~~(lanesFrom [x.lane]) }).logFault m.crew m.sid m.entry [x.lane] 9 (kindOf (wordOf e.word)) false := State.finishMsg_bad (s := (s.drawError.2.loseL1 m.core y).dropMsg id) (m := m.hitBy y true)
        (x := x.fill (y.bytes x.key x.size)) ((State.crew?_congr hcrews _).trans hc) ((State.strand?_congr hcrews ..).trans ht) hentry rfl (by rw [Msg.hitBy, hacts]; rfl) hun
      rw [hfin] at hgo
      have hy' := List.find?_some hy
      simp only [Bool.and_eq_true, beq_iff_eq] at hy'
      obtain ⟨⟨hline, hsecure⟩, hasid⟩ := hy'
      refine ⟨_, _, hgo, rfl, rfl, s.msg?_dropMsg id, fun z hz => ?_, (by
        rw [State.logFault, State.entry?_modEntry, State.entry?_modEntry, hentry]; rfl; all_goals exact fun _ => rfl), ?_⟩
      · have hz' : z ∈ (s.drawError.2.loseL1 m.core y).l1Of m.core := hz
        rw [State.loseL1, State.l1Of, State.setL1, assocGet_assocSet_same, Option.getD_some, List.mem_filter] at hz'
        rintro ⟨h1, h2, h3⟩
        simp [h1, h2, h3, hline, hsecure, hasid] at hz'
      · refine ⟨_, List.mem_append_right _ (List.mem_map_of_mem (List.mem_filter.2 ⟨List.mem_singleton_self _, ?_⟩)), rfl, rfl⟩
        exact (Bool.not_eq_true' _).mpr hfl
    next herr =>
      simp only [herr, Bool.false_eq_true, if_false] at hgo
      have hlen : (y.bytes x.key x.size).length ≤ 16 := (List.length_take_le ..).trans hsize
      obtain ⟨hmem, hmsg, hregs⟩ := hend ((s.drawError.2.hitL1 m.core y (sectorsOf x.key x.size)).coalesced (m.hitBy y false) false) (by simp)
        (m.hitBy y false) (x.fill (y.bytes x.key x.size)) rfl rfl rfl rfl (by rw [Msg.hitBy, hacts]; rfl) rfl
      refine ⟨_, hgo, hmem, hmsg, hregs.trans ?_⟩
      rw [Act.fill_value x hlen]
      rfl

end Sys2Proof.Machine
end


section
/-! Obligation O45: fills, drops and write-backs of lines. -/

namespace Sys2Proof.Machine

/-! ### What the tiers keep of a line -/

@[simp] theorem State.signal_lines (s : State) (d b i n : Nat) : (s.signal d b i n).lines = s.lines := by
  obtain ⟨l, hl⟩ := s.signal_eq d b i n
  rw [hl]

@[simp] theorem State.addCounter_lines (s : State) (d o n : Nat) : (s.addCounter d o n).lines = s.lines := by
  rw [State.addCounter]
  split <;> rfl

@[simp] theorem State.signalAt_lines (s : State) (p : Point) (i n : Nat) : (s.signalAt p i n).lines = s.lines := by
  cases p <;> simp [State.signalAt]

@[simp] theorem State.countAt_lines (s : State) (p : Point) (i n : Nat) : (s.countAt p i n).lines = s.lines := by
  cases p <;> simp [State.countAt]

@[simp] theorem State.setHeld_lines (s : State) (p : Point) (l : List Held) : (s.setHeld p l).lines = s.lines := by simp [State.setHeld]

@[simp] theorem State.touchM_lines (s : State) (line : Nat) (wr back : Bool) (team : Option (Nat × Nat)) : (s.touchM line wr back team).lines = s.lines := by
  simp only [State.touchM]
  split_ifs <;> simp

@[simp] theorem State.evicted_lines (s : State) (l : List Held) : (s.evicted l).lines = s.lines := by
  induction l generalizing s with
  | nil => rfl
  | cons h l ih =>
    rw [State.evicted, ih]
    split
    · exact s.touchM_lines ..
    · rfl

@[simp] theorem State.moveAway_lines (s : State) (p : Point) (line : Nat) (wr : Bool) (team : Option (Nat × Nat)) : (s.moveAway p line wr team).lines = s.lines := by
  simp [State.moveAway]

@[simp] theorem State.touchSlice_lines (s : State) (p : Point) (line : Nat) (wr copy : Bool) (team : Option (Nat × Nat)) :
    (s.touchSlice p line wr copy team).lines = s.lines := by
  simp only [State.touchSlice]
  split_ifs <;> simp

theorem State.lineState_setLine (s : State) (l k : Nat) (x : LineState) : (s.setLine l x).lineState k = if k = l then x else s.lineState k := by
  by_cases h : k = l
  · simp [State.lineState, State.setLine, h]
  · simp [State.lineState, State.setLine, h, assocGet_assocSet_ne _ h]

/-- Touching a line in its slice changes no tag. -/
theorem State.touch_tag (s : State) (p : Point) (hold : Option Bool) (line : Nat) (wr : Bool) (team : Option (Nat × Nat)) (k : Nat) :
    ((s.touch p hold line wr team).lineState k).tag = (s.lineState k).tag := by
  have hset (c : Bool) : ((s.setLine line { s.lineState line with cmp := c }).lineState k).tag = (s.lineState k).tag := by
    rw [State.lineState_setLine]
    split_ifs with h
    · rw [h]
    · rfl
  have hlines {u v : State} (h : u.lines = v.lines) : (u.lineState k).tag = (v.lineState k).tag := by rw [State.lineState, State.lineState, h]
  cases hold with
  | none => rfl
  | some c =>
    cases p
    case slice d n => exact (hlines (State.touchSlice_lines ..)).trans (hset c)
    case mslice d n => exact (hlines (State.touchM_lines ..)).trans (hset c)
    all_goals rfl

/-- The state but for what the tiers of the cache hold, the counters and the free choices. -/
def State.offTier (s : State) : State := { s with held := [], lines := [], pins := [], counters := [], signals := [], free := 0 }

theorem State.touch_offTier (s : State) (p : Point) (hold : Option Bool) (line : Nat) (wr : Bool) (team : Option (Nat × Nat)) :
    (s.touch p hold line wr team).offTier = s.offTier := by
  cases hold with
  | none => rfl
  | some c => cases p <;> rfl

theorem State.copyFor_offTier (s : State) (p : Point) (line : Nat) (c : CoreId) (team : Option (Nat × Nat)) : (s.copyFor p line c team).offTier = s.offTier := by
  cases p
  case slice d k =>
    simp only [State.copyFor]
    split <;> rfl
  all_goals rfl

theorem State.copyFor_tag (s : State) (p : Point) (line : Nat) (c : CoreId) (team : Option (Nat × Nat)) (k : Nat) :
    ((s.copyFor p line c team).lineState k).tag = (s.lineState k).tag := by
  cases p
  case slice d n =>
    simp only [State.copyFor]
    split
    · set t := s.drawBit.2.touchSlice (.slice d (16 * sectorOf c + n % 16)) line false true team with ht
      have hlines : t.lines = s.lines := State.touchSlice_lines ..
      have ht' (j : Nat) : t.lineState j = s.lineState j := by rw [State.lineState, State.lineState, hlines]
      have hslices (v w : State) : (v.slicesOf w).lineState k = w.lineState k := rfl
      rw [hslices]
      split
      · rw [State.lineState_setLine]
        split_ifs with h
        · rw [h, ht']
        · rw [ht']
      · rfl
    · rfl
  all_goals rfl

/-! ### The L1 view (R243, R248) -/

theorem State.l1Lines_pos (s : State) (c : CoreId) : 0 < s.l1Lines c := by
  rw [State.l1Lines]
  omega

theorem State.readVis_length (s : State) (k n : Nat) : (s.readVis k n).length = n := by
  rw [State.readVis]
  split <;> simp [State.memBytes]

/-- What a fill puts into the view. -/
theorem State.fillL1_entry (s : State) (c : CoreId) (line : Nat) (secure : Bool) (asid : BitVec 16) (sec : BitVec 4) (spec coded : Bool) :
    ∃ y, (s.fillL1 c line secure asid sec spec coded).l1Entry c line secure asid = some y ∧ (∃ keep, y.sectors = keep ||| sec) ∧ y.tag = (s.lineState line).tag
      ∧ ∀ j < 128, sec.getLsbD (j / 32) = true → y.data[j]? = (s.readVis (lineBase line) 128)[j]? := by
  obtain ⟨n, hn⟩ := Nat.exists_eq_succ_of_ne_zero (s.l1Lines_pos c).ne'
  refine ⟨?y, ?find, ?sectors, ?tag, ?data⟩
  case find =>
    simp only [State.fillL1, State.l1Entry, State.l1Of, State.setL1, assocGet_assocSet_same, Option.getD_some, hn, List.take_succ_cons, List.find?_cons,
      beq_self_eq_true, Bool.and_self]
    rfl
  case sectors => exact ⟨_, rfl⟩
  case tag => rfl
  case data =>
    intro j hj hs
    have hlen : j < (s.readVis (lineBase line) 128).length := by rwa [State.readVis_length]
    simp [hj, hs, List.getElem?_eq_getElem hlen]

/-- A fill that is enabled gives the core's view the sectors of the line as they stand. -/
theorem State.fillVa_spec {s : State} {core line asid : Nat} {secure : Bool} {sec : BitVec 4} {f : Leaf} (spec : Bool)
    (hf : (s.translate (BitVec.ofNat 16 asid) secure .load (BitVec.ofNat 64 (line * 128))).1 = .ok f)
    (hok : (s.translate (BitVec.ofNat 16 asid) secure .load (BitVec.ofNat 64 (line * 128))).2.fillOk (coreAt core) f secure (BitVec.ofNat 16 asid) sec = true) :
    ∃ u y, s.fillVa core line asid secure sec spec = some u ∧ u.mem = s.mem ∧ u.regs = s.regs
      ∧ u.l1Entry (coreAt core) (lineOf f.at_) secure (BitVec.ofNat 16 asid) = some y
      ∧ sec &&& y.sectors = sec ∧ y.tag = (s.lineState (lineOf f.at_)).tag
      ∧ ∀ j < 128, sec.getLsbD (j / 32) = true → y.data[j]? = (s.readVis (lineBase (lineOf f.at_)) 128)[j]? := by
  obtain ⟨j, l, htr⟩ := s.translate_eq (BitVec.ofNat 16 asid) secure .load (BitVec.ofNat 64 (line * 128))
  rw [htr] at hok
  set s1 : State := { s with free := j, tlb := l } with hs1
  have hpair : s.translate (BitVec.ofNat 16 asid) secure .load (BitVec.ofNat 64 (line * 128)) = (.ok f, s1) := Prod.ext hf htr
  set s2 := s1.touch (homeOf f.cp f.at_) f.hold (lineOf f.at_) false none with hs2
  set s3 := (if f.cp = 0 then s2.copyFor (homeOf f.cp f.at_) (lineOf f.at_) (coreAt core) none else s2) with hs3
  have hoff : s3.offTier = s1.offTier := by
    rw [hs3]
    split
    · rw [State.copyFor_offTier, hs2, State.touch_offTier]
    · rw [hs2, State.touch_offTier]
  have htag : (s3.lineState (lineOf f.at_)).tag = (s.lineState (lineOf f.at_)).tag := by
    rw [hs3]
    split
    · rw [State.copyFor_tag, hs2, State.touch_tag]; rfl
    · rw [hs2, State.touch_tag]; rfl
  have hvis : s3.readVis (lineBase (lineOf f.at_)) 128 = s.readVis (lineBase (lineOf f.at_)) 128 :=
    (congrArg (fun v : State => v.readVis (lineBase (lineOf f.at_)) 128) hoff :)
  obtain ⟨y, hy, ⟨keep, hkeep⟩, hytag, hdata⟩ := s3.fillL1_entry (coreAt core) (lineOf f.at_) secure (BitVec.ofNat 16 asid) (if f.cmp then 0xF else sec) spec f.cmp
  refine ⟨s3.fillL1 (coreAt core) (lineOf f.at_) secure (BitVec.ofNat 16 asid) (if f.cmp then 0xF else sec) spec f.cmp, y, ?_, (congrArg State.mem hoff :),
    (congrArg State.regs hoff :), hy, ?_, hytag.trans htag, fun i hi hsec => ?_⟩
  · simp only [State.fillVa, hpair, hok, if_true]
    rfl
  · rw [hkeep]
    have hall : ∀ k x : BitVec 4, x &&& (k ||| 0xF) = x ∧ x &&& (k ||| x) = x := by decide
    split
    · exact (hall keep sec).1
    · exact (hall keep sec).2
  · rw [hdata i hi ?_, hvis]
    have hfour : ∀ k < 4, (0xF : BitVec 4).getLsbD k = true := by decide
    split
    · exact hfour _ (by omega)
    · exact hsec

/-! ### Records for the host, and lost lines (R257, R401) -/

/-- What a write beyond the package keeps of the tiers: what they hold, and the lines that are lost. -/
def State.tiers (s : State) : List (Point × List Held) × List Nat := (s.held, s.lost)

/-- Fewer than 128 bytes do not make a lost line good. -/
theorem State.unlose_eq (s : State) (line : Nat) {ws : List Host.Cell} (h : ws.length < 128) : s.unlose line ws = s := by
  rw [State.unlose, if_neg]
  intro hall
  have hcover : (List.range 128).all (fun i => ws.any fun c => c.1 == lineBase line + i) = true := ((Bool.and_eq_true _ _).mp hall).2
  have hsub : (Finset.range 128).image (lineBase line + ·) ⊆ (ws.map Prod.fst).toFinset := by
    intro a ha
    obtain ⟨i, hi, rfl⟩ := Finset.mem_image.1 ha
    obtain ⟨c, hc, hci⟩ := List.any_eq_true.1 (List.all_eq_true.1 hcover i (List.mem_range.2 (Finset.mem_range.1 hi)))
    exact List.mem_toFinset.2 (List.mem_map.2 ⟨c, hc, beq_iff_eq.1 hci⟩)
  have hcard := Finset.card_le_card hsub
  rw [Finset.card_image_of_injective _ (add_right_injective _), Finset.card_range] at hcard
  have := List.toFinset_card_le (ws.map Prod.fst)
  rw [List.length_map] at this
  omega

theorem State.sourceWritten_tiers (s : State) (line : Nat) : (s.sourceWritten line).tiers = s.tiers := by
  rw [State.sourceWritten]
  split <;> rfl

theorem State.applyRaw_pcie_tiers (s : State) (hold : Option Bool) (line : Nat) {ws : List Host.Cell} (h : ws.length < 128) (team : Option (Nat × Nat)) :
    (s.applyRaw .pcie hold line ws team).2.tiers = s.tiers := by
  have htouch (u : State) (wr : Bool) : (u.touch .pcie hold line wr team).tiers = u.tiers := by
    cases hold <;> rfl
  simp only [State.applyRaw, State.unlose_eq _ line h]
  rw [State.sourceWritten_tiers, htouch]
  exact htouch (s.dropCopies .pcie line) false

theorem foldl_tiers {α : Type} {f : State → α → State} (h : ∀ s x, (f s x).tiers = s.tiers) (l : List α) (s : State) : (l.foldl f s).tiers = s.tiers := by
  induction l generalizing s with
  | nil => rfl
  | cons x l ih => rw [List.foldl_cons, ih, h]

theorem State.freeSlots_tiers (s : State) (ws : List Nat) : (s.freeSlots ws).tiers = s.tiers := by
  simp only [State.freeSlots]
  rw [foldl_tiers]
  · rfl
  · exact fun s w => foldl_tiers (fun _ _ => by rfl) _ s

theorem State.flushWords_pcie_tiers (s : State) (hold : Option Bool) (ws : List Nat) (team : Option (Nat × Nat)) :
    (s.flushWords .pcie hold ws team).2.tiers = s.tiers := by
  rw [State.flushWords]
  generalize ([] : List (Nat × BitVec 32)) = acc
  induction ws generalizing s acc with
  | nil => rfl
  | cons w ws ih =>
    rw [List.foldl_cons, ih, State.flushWord]
    split
    · rfl
    · rw [State.freeSlots_tiers]
      exact State.applyRaw_pcie_tiers _ _ _ (by simp [leBytes]) _

theorem State.putRecordAt_pcie_tiers (s : State) (k : Nat) {ws : List Word} (h : ws.length < 16) : (s.putRecordAt .pcie k ws).tiers = s.tiers := by
  rw [State.putRecordAt, State.apply]
  refine (State.applyRaw_pcie_tiers _ _ _ ?_ _).trans (State.flushWords_pcie_tiers ..)
  have hlen : (((List.range ws.length).zip ws).map fun q => ((List.range 8).zip (leBytes 8 q.2.toNat)).map fun r => ((k + 8 * q.1 + r.1, r.2) : Host.Cell)).map
      List.length = List.replicate ws.length 8 := by
    rw [List.map_map, List.eq_replicate_iff]
    refine ⟨by simp, fun b hb => ?_⟩
    obtain ⟨q, -, rfl⟩ := List.mem_map.1 hb
    simp [leBytes]
  rw [List.length_flatten, hlen, List.sum_replicate, smul_eq_mul]
  omega

theorem State.writeRecord_tiers (s : State) (i : Nat) {ws : List Word} (h : ws.length < 16) : (s.writeRecord i ws).tiers = s.tiers := by
  rw [State.writeRecord]
  have hput (k : Nat) := s.putRecordAt_pcie_tiers k h
  have hrest (u : State) (g : Ring → Ring) (l : List Nat) : State.tiers { u.modRing i g with msix := l } = u.tiers := rfl
  exact (hrest ..).trans (hput _)

theorem State.event_tiers (s : State) (kind die : Nat) (w : Who) (r : RecInfo) : (s.event kind die w r).tiers = s.tiers := by
  rw [State.event, State.postEvent]
  split
  · exact s.writeRecord_tiers _ (by simp only [hostWords, List.length_cons, List.length_nil]; decide)
  · rfl

/-- A line that is lost anew stands among the lost ones; nothing else tells it in the tiers or the registers. -/
theorem State.loseLine_spec (s : State) (line : Nat) : (s.loseLine line).held = s.held ∧ (s.loseLine line).regs = s.regs
    ∧ ((s.loseLine line).lost = s.lost → s.loseLine line = s) := by
  have hno : s.lost ++ [line] ≠ s.lost := fun h => by simpa using congrArg List.length h
  by_cases hin : s.lost.contains line
  · rw [State.loseLine, if_pos hin]
    exact ⟨rfl, rfl, fun _ => rfl⟩
  · suffices h : ∃ (b : Bool) (k d : Nat) (w : Who) (r : RecInfo), s.loseLine line
        = if b then State.event { s with lost := s.lost ++ [line] } k d w r else { s with lost := s.lost ++ [line] } by
      obtain ⟨b, k, d, w, r, h⟩ := h
      rw [h]
      cases b with
      | false => exact ⟨rfl, rfl, fun h => absurd h hno⟩
      | true =>
        have htiers := State.event_tiers { s with lost := s.lost ++ [line] } k d w r
        exact ⟨congrArg Prod.fst htiers, (congrArg State.regs (State.event_unwritten { s with lost := s.lost ++ [line] } k d w r) :),
          fun h => absurd ((congrArg Prod.snd htiers).symm.trans h) hno⟩
    rw [State.loseLine, if_neg hin]
    exact ⟨_, _, _, _, _, rfl⟩

theorem State.setHeld_eq (s : State) (p : Point) (l : List Held) : ∃ r, s.setHeld p l = { s with held := assocSet s.held p l, signals := r } := by
  have hsig (u : State) (i n : Nat) : ∃ r, u.signalAt p i n = { u with signals := r } := by
    cases p
    case slice d k => exact u.signal_eq ..
    case mslice d k => exact u.signal_eq ..
    all_goals exact ⟨u.signals, rfl⟩
  obtain ⟨r, hr⟩ := hsig { s with held := assocSet s.held p l } 0 (l.length - (s.heldAt p).length)
  obtain ⟨q, hq⟩ := hsig { s with held := assocSet s.held p l, signals := r } 1 ((l.map Held.sectors).sum - ((s.heldAt p).map Held.sectors).sum)
  exact ⟨q, by rw [State.setHeld]; simp only [hr, hq]⟩

/-- Settles O45. -/
theorem lineMoves : Obligations.LineMoves := by
  unfold Obligations.LineMoves
  refine ⟨fun s core line asid secure sec f => ?_, fun s core line => ⟨_, rfl, rfl, rfl, ?_⟩, fun s die slice line => ?_⟩
  · intro at_ hf hok i hi
    rcases hi with rfl | ⟨rfl, hspec⟩
    · obtain ⟨u, y, hu, hrest⟩ := State.fillVa_spec false hf hok
      have hexec : exec (.fill core line asid secure sec) s = execFill core line asid secure sec s := rfl
      exact ⟨u, y, by rw [hexec, execFill, hu]; rfl, hrest⟩
    · obtain ⟨u, y, hu, hmem, hregs, hy, hrest⟩ := State.fillVa_spec true hf hok
      have hexec : exec (.speculativeLoad core line asid secure sec) s = execSpeculativeLoad core line asid secure sec s := rfl
      obtain ⟨a, b, hcount⟩ : ∃ a b, (u.countCore (coreAt core) 4 1).coreSignal (coreAt core) 10 1 = { u with counters := a, signals := b } := by
        have hadd : ∃ a, u.countCore (coreAt core) 4 1 = { u with counters := a } := by
          rw [State.countCore, State.addCounter]
          split_ifs <;> exact ⟨_, rfl⟩
        obtain ⟨a, ha⟩ := hadd
        obtain ⟨b, hb⟩ := State.coreSignal_eq { u with counters := a } (coreAt core) 10 1
        exact ⟨a, b, by rw [ha, hb]⟩
      refine ⟨_, y, by rw [hexec, execSpeculativeLoad, if_pos hspec, hu], ?_, ?_, ?_, hrest⟩ <;> simp only [hcount]
      · exact hmem
      · exact hregs
      · exact hy
  · rw [State.dropLine, State.l1Of, State.setL1, assocGet_assocSet_same, Option.getD_some]
    exact List.filter_congr fun e _ => by simp [bne]; rfl
  · obtain ⟨j, hj⟩ := s.drawIndex_eq 3
    have hexec : exec (.memsideWriteback die slice line) s = execMemsideWriteback die slice line s := rfl
    have hend {v : State} (hheld : v.held = s.held) (hregs : v.regs = s.regs) (hlost : v.lost = s.lost → v.mem = s.mem) : ∃ u,
        Host.Outcome.next (v.setHeld (.mslice die slice) (mapIf (fun h => h.line == line) (fun h => { h with written := false }) (v.heldAt (.mslice die slice))))
          = (.next u : Host.Outcome State Fault Refusal) ∧ u.regs = s.regs ∧ (u.lost = s.lost → u.mem = s.mem)
          ∧ u.heldAt (.mslice die slice) = (s.heldAt (.mslice die slice)).map fun h => if h.line = line then { h with written := false } else h := by
      obtain ⟨r, hr⟩ := v.setHeld_eq (.mslice die slice) (mapIf (fun h => h.line == line) (fun h => { h with written := false }) (v.heldAt (.mslice die slice)))
      refine ⟨_, rfl, ?_, ?_, ?_⟩ <;> rw [hr]
      · exact hregs
      · exact hlost
      · rw [State.heldAt, assocGet_assocSet_same, Option.getD_some, State.heldAt, hheld, mapIf]
        simp [State.heldAt]
    rw [hexec, execMemsideWriteback]
    simp only [hj]
    split_ifs
    · exact hend rfl rfl fun _ => rfl
    · obtain ⟨hheld, hregs, hlost⟩ := State.loseLine_spec { s with free := j } line
      exact hend hheld hregs fun h => (congrArg State.mem (hlost h)).trans rfl
    · exact hend rfl rfl fun _ => rfl

end Sys2Proof.Machine
end


section
/-! Obligation O43: changes of a line at its home, and contributions. -/

namespace Sys2Proof.Machine

/-! ### The bytes that an access writes -/

theorem leBytes_getElem? (n v j : Nat) : (leBytes n v)[j]? = if j < n then some (BitVec.ofNat 8 (v / 256 ^ j)) else none := by
  induction n generalizing v j with
  | zero => simp [leBytes]
  | succ n ih =>
    cases j with
    | zero => simp [leBytes]
    | succ j => simp [leBytes, ih, Nat.pow_succ', Nat.div_div_eq_div_mul]

/-- Of scattered bytes at addresses of their own, each stands where it was put. -/
theorem memPutCells_mem {m : List Host.Cell} {l : List Host.Cell} (h : Memory.wf m) (hnd : (l.map Prod.fst).Nodup) {p : Host.Cell} (hp : p ∈ l) :
    sparseGet 0 (memPutCells m l) p.1 = p.2 := by
  induction l generalizing m with
  | nil => cases hp
  | cons q l ih =>
    obtain ⟨k, b⟩ := q
    rw [List.map_cons, List.nodup_cons] at hnd
    have hw : Memory.wf (sparseSet 0 m k b) := sparseWf_set k b h
    rcases List.mem_cons.1 hp with rfl | hp
    · rw [memPutCells, memPutCells_other l k hw fun q hq hqk => hnd.1 (List.mem_map.2 ⟨q, hq, hqk⟩)]
      exact sparseGet_set_same k b h
    · exact ih hw hnd.2 hp

theorem Act.cells_eq (x : Act) : x.cells = (List.range x.size).map fun j => (x.key + j, BitVec.ofNat 8 ((x.b.toNat + x.c.toNat * 2 ^ 64) / 256 ^ j)) := by
  refine List.ext_getElem? fun j => ?_
  rw [Act.cells, List.getElem?_map, List.getElem?_map, List.zip, List.getElem?_zipWith, leBytes_getElem?]
  by_cases hj : j < x.size <;> simp [hj]

/-- An access writes its own bytes. -/
theorem Act.putCells_same (x : Act) {m : List Host.Cell} (h : Memory.wf m) {j : Nat} (hj : j < x.size) :
    sparseGet 0 (memPutCells m x.cells) (x.key + j) = BitVec.ofNat 8 ((x.b.toNat + x.c.toNat * 2 ^ 64) / 256 ^ j) := by
  refine memPutCells_mem (p := (x.key + j, BitVec.ofNat 8 ((x.b.toNat + x.c.toNat * 2 ^ 64) / 256 ^ j))) h ?_ ?_
  · rw [Act.cells_eq, List.map_map]
    exact List.nodup_range.map fun a b hab => Nat.add_left_cancel hab
  · rw [Act.cells_eq]
    exact List.mem_map.2 ⟨j, List.mem_range.2 hj, rfl⟩

/-- An access writes no other byte. -/
theorem Act.putCells_other (x : Act) {m : List Host.Cell} (h : Memory.wf m) {a : Nat} (ha : a < x.key ∨ x.key + x.size ≤ a) :
    sparseGet 0 (memPutCells m x.cells) a = sparseGet 0 m a := by
  refine memPutCells_other _ a h fun p hp => ?_
  rw [Act.cells_eq] at hp
  obtain ⟨j, hj, rfl⟩ := List.mem_map.1 hp
  have := List.mem_range.1 hj
  dsimp only
  omega

/-! ### A change of a line (R285, R286) -/

theorem State.die_watch_of_unapplied {s u : State} (h : u.unapplied = s.unapplied) (d : Nat) : (u.die d).watch = (s.die d).watch := by
  have hdies : u.dies.map Die.untraced = s.dies.map Die.untraced := (congrArg State.dies h :)
  have hwatch (v : State) : (v.die d).watch = ((v.dies.map Die.untraced).getD d Die.reset.untraced).watch := by
    rw [List.getD_map]
    rfl
  rw [hwatch, hdies, ← hwatch]

theorem State.unwatched_of_unapplied {s u : State} (h : u.unapplied = s.unapplied) (hs : s.unwatched) : u.unwatched := fun d wr parts => by
  rw [State.watched, State.die_watch_of_unapplied h]
  exact hs d wr parts

theorem State.watchActs_unwatched {s : State} (hs : s.unwatched) (m : Msg) (acts : List Act) (wr : Bool) (tag : BitVec 32) : s.watchActs m acts wr tag = s := by
  have hwatch (p : Point) (parts : List (Nat × Nat)) (w : Who) (src : WatchSrc) : s.watch p parts wr w src tag = (none, s) := by
    rw [State.watch]
    split
    · rfl
    · rw [hs]
      rfl
  simp only [State.watchActs, hwatch]

theorem State.signal_offTier (s : State) (d b i n : Nat) : (s.signal d b i n).offTier = s.offTier := by
  obtain ⟨l, hl⟩ := s.signal_eq d b i n
  rw [hl]
  rfl

theorem State.countAt_offTier (s : State) (p : Point) (i n : Nat) : (s.countAt p i n).offTier = s.offTier := by
  have hadd (d o : Nat) : (s.addCounter d o n).offTier = s.offTier := by
    rw [State.addCounter]
    split <;> rfl
  cases p
  case slice d k => exact (State.signal_offTier ..).trans (hadd ..)
  case mslice d k => exact (State.signal_offTier ..).trans (hadd ..)
  all_goals rfl

theorem State.setHeld_offTier (s : State) (p : Point) (l : List Held) : (s.setHeld p l).offTier = s.offTier := by
  obtain ⟨r, hr⟩ := s.setHeld_eq p l
  rw [hr]
  rfl

theorem foldl_offTier {α : Type} {f : State → α → State} (h : ∀ s x, (f s x).offTier = s.offTier) (l : List α) (s : State) : (l.foldl f s).offTier = s.offTier := by
  induction l generalizing s with
  | nil => rfl
  | cons x l ih => rw [List.foldl_cons, ih, h]

theorem State.dropCopies_offTier (s : State) (p : Point) (line : Nat) : (s.dropCopies p line).offTier = s.offTier := by
  cases p
  case slice d k =>
    simp only [State.dropCopies]
    rw [State.countAt_offTier]
    exact foldl_offTier (fun _ _ => State.setHeld_offTier ..) _ s
  all_goals rfl

theorem State.sourceWritten_eq (s : State) (line : Nat) : ∃ k, s.sourceWritten line = { s with crews := k } := by
  rw [State.sourceWritten]
  split
  · exact ⟨_, rfl⟩
  · exact ⟨s.crews, rfl⟩

/-- The part of a change that writes the bytes. -/
def State.putBytes (s : State) (line : Nat) (ws : List Host.Cell) : State :=
  State.unlose { s with mem := memPutCells s.mem ws, past := (ws.map fun c : Host.Cell => (c.1, s.memByte c.1)) :: s.past } line ws

/-- The part of a change that counts it at its slice. -/
def State.countChange (s : State) (p : Point) (before after : Nat) : State :=
  match p with
  | .slice _ _ => (s.countAt p 5 1).countAt p (if after > before then 2 else 3) (if after = before then 0 else 1)
  | _ => s

theorem State.applyRaw_eq (s : State) (p : Point) (hold : Option Bool) (line : Nat) (ws : List Host.Cell) (team : Option (Nat × Nat)) :
    let s1 := (s.dropCopies p line).touch p hold line false team
    let s2 := s1.putBytes line ws
    let s3 := (s2.stamp p line).2
    s.applyRaw p hold line ws team = (s2.change p, ((s3.countChange p (s1.lineSectors line) (s3.lineSectors line)).touch p hold line true team).sourceWritten line) := by
  cases p <;> rfl

theorem State.putBytes_mem (s : State) (line : Nat) (ws : List Host.Cell) : (s.putBytes line ws).mem = memPutCells s.mem ws := by
  rw [State.putBytes, State.unlose]
  split <;> rfl

theorem State.putBytes_changes (s : State) (line : Nat) (ws : List Host.Cell) : (s.putBytes line ws).changes = s.changes := by
  rw [State.putBytes, State.unlose]
  split <;> rfl

theorem State.countChange_offTier (s : State) (p : Point) (a b : Nat) : (s.countChange p a b).offTier = s.offTier := by
  cases p
  case slice d k => exact (State.countAt_offTier ..).trans (State.countAt_offTier ..)
  all_goals rfl

theorem State.countChange_lines (s : State) (p : Point) (a b : Nat) : (s.countChange p a b).lines = s.lines := by
  cases p
  case slice d k => exact (State.countAt_lines ..).trans (State.countAt_lines ..)
  all_goals rfl

theorem State.change_congr {s u : State} (h : u.changes = s.changes) (p : Point) : u.change p = s.change p := by rw [State.change, State.change, h]

theorem State.lineState_congr {s u : State} (h : u.lines = s.lines) (l : Nat) : u.lineState l = s.lineState l := by rw [State.lineState, State.lineState, h]

/-- What a change of a line leaves: the bytes, the order of the changes at the point, and the tag of the line. -/
theorem State.applyRaw_spec (s : State) (p : Point) (hold : Option Bool) (line : Nat) (ws : List Host.Cell) (team : Option (Nat × Nat)) :
    let r := s.applyRaw p hold line ws team
    r.1 = s.change p ∧ r.2.mem = memPutCells s.mem ws ∧ r.2.change p = s.change p + 1 ∧ (r.2.lineState line).tag = s.change p := by
  intro r
  obtain heq : r = _ := s.applyRaw_eq p hold line ws team
  set s1 := (s.dropCopies p line).touch p hold line false team with hs1
  set s2 := s1.putBytes line ws with hs2
  set s3 := (s2.stamp p line).2 with hs3
  set s4 := s3.countChange p (s1.lineSectors line) (s3.lineSectors line) with hs4
  have hoff1 : s1.offTier = s.offTier := (State.touch_offTier ..).trans (State.dropCopies_offTier ..)
  have hoff4 : (s4.touch p hold line true team).offTier = s3.offTier := (State.touch_offTier ..).trans (State.countChange_offTier ..)
  have hchange : s2.change p = s.change p :=
    (State.change_congr (s1.putBytes_changes line ws) p).trans (State.change_congr (congrArg State.changes hoff1 :) p)
  have hmem : s2.mem = memPutCells s.mem ws := (s1.putBytes_mem line ws).trans (congrArg (fun v : State => memPutCells v.mem ws) hoff1 :)
  obtain ⟨k, hk⟩ := (s4.touch p hold line true team).sourceWritten_eq line
  rw [heq, hk]
  refine ⟨hchange, (congrArg State.mem hoff4 :).trans hmem, ?_, ?_⟩
  · have hfin : (s4.touch p hold line true team).change p = s3.change p := State.change_congr (congrArg State.changes hoff4 :) p
    have hnext : s3.change p = s2.change p + 1 := by
      rw [hs3, State.stamp, State.change]
      simp
    exact hfin.trans (hnext.trans (congrArg (· + 1) hchange))
  · have htag : (s3.lineState line).tag = s2.change p := congrArg LineState.tag ((s2.lineState_setLine line line _).trans (if_pos rfl))
    exact (s4.touch_tag p hold line true team line).trans ((congrArg LineState.tag (State.lineState_congr (s3.countChange_lines ..) line)).trans (htag.trans hchange))

theorem State.apply_of_no_slots {s : State} {line : Nat} (h : s.slotWords line = []) (p : Point) (hold : Option Bool) (ws : List Host.Cell) (team : Option (Nat × Nat)) :
    s.apply p hold line ws team = ([], s.applyRaw p hold line ws team) := by
  rw [State.apply, h]
  rfl

theorem State.answer_eq {s : State} {id : Nat} {m : Msg} (hm : s.msg? id = some m) (hph : m.phase = .out) (f : Msg → Msg) :
    s.answer id f = s.modMsg id fun m => { f m with phase := .back, accepted := false, tries := 0 } := by
  simp only [State.answer, hm, hph]
  rfl

/-- A change that one access makes, and its answer. -/
theorem State.answered_change {s : State} {id : Nat} {m : Msg} {x : Act} (hm : s.msg? id = some m) (hph : m.phase = .out) (hwf : Memory.wf s.mem)
    {g : Msg → Msg} (hg : ∀ m, (g m).id = m.id) :
    let v := (s.applyRaw m.point m.leaf.hold m.line x.cells m.team).2
    let u := v.answer id g
    u.regs = s.regs ∧ (∀ j < x.size, u.memByte (x.key + j) = BitVec.ofNat 8 ((x.b.toNat + x.c.toNat * 2 ^ 64) / 256 ^ j))
      ∧ (∀ a, a < x.key ∨ x.key + x.size ≤ a → u.memByte a = s.memByte a) ∧ u.change m.point = s.change m.point + 1
      ∧ (u.lineState m.line).tag = s.change m.point ∧ u.msg? id = some { g m with phase := .back, accepted := false, tries := 0 } := by
  intro v u
  obtain ⟨-, hmem, hch, htag⟩ := s.applyRaw_spec m.point m.leaf.hold m.line x.cells m.team
  have hkept : v.unapplied = s.unapplied := State.applyRaw_unapplied ..
  have hv : v.msg? id = some m := (congrArg (fun v : State => v.msg? id) hkept :).trans hm
  have hu : u = v.modMsg id fun m => { g m with phase := .back, accepted := false, tries := 0 } := State.answer_eq hv hph g
  have hbyte (a : Nat) : u.memByte a = sparseGet 0 (memPutCells s.mem x.cells) a := by
    rw [hu]
    exact congrArg (fun l => sparseGet 0 l a) hmem
  rw [hu] at *
  refine ⟨(congrArg State.regs hkept :), fun j hj => (hbyte _).trans (x.putCells_same hwf hj), fun a ha => (hbyte a).trans (x.putCells_other hwf ha), hch, htag, ?_⟩
  rw [State.msg?_modMsg_same _ _ (by exact hg), hv]
  rfl

theorem word_value {v : Nat} (h : v < 2 ^ 64) : (BitVec.ofNat 64 v).toNat + (0 : Word).toNat * 2 ^ 64 = v := by
  rw [BitVec.toNat_ofNat, Nat.mod_eq_of_lt h, show (0 : Word).toNat = 0 from rfl, Nat.zero_mul, Nat.add_zero]

theorem State.answer_keeps (s : State) (id : Nat) (f : Msg → Msg) : ∃ l, s.answer id f = { s with msgs := l } := by
  rw [State.answer]
  split
  · split <;> exact ⟨_, rfl⟩
  · exact ⟨s.msgs, rfl⟩

theorem State.sampleSectors_keeps (s : State) (m : Msg) : ∃ l, s.sampleSectors m = { s with samples := l } := by
  rw [State.sampleSectors]
  split <;> exact ⟨_, rfl⟩

/-- The value that an atomic stores (R274). -/
def atomStores (i : Instr) (x : Act) (old : Nat) : Nat :=
  match i with
  | .atom _ t op .. => atomNew t op old x.b.toNat
  | _ => if old = x.b.toNat then x.c.toNat else old

/-- An atomic of one lane at a line without slots, where nothing is watched. -/
theorem State.atomActs_one {s : State} (huw : s.unwatched) (m : Msg) (i : Instr) (x : Act) (hslots : s.slotWords m.line = []) :
    s.atomActs m i [x] = ([{ x with b := BitVec.ofNat 64 (s.memNat x.key x.size), c := 0 }],
      (s.applyRaw m.point m.leaf.hold m.line ({ x with b := BitVec.ofNat 64 (atomStores i x (s.memNat x.key x.size)), c := 0 } : Act).cells m.team).2) := by
  have hact : s.atomAct m i x = (s.memNat x.key x.size,
      (s.applyRaw m.point m.leaf.hold m.line ({ x with b := BitVec.ofNat 64 (atomStores i x (s.memNat x.key x.size)), c := 0 } : Act).cells m.team).2) := by
    have hnone (ws : List Nat) : s.flushWords m.point m.leaf.hold ((s.slotWords m.line).filter ws.contains) m.team = ([], s) := by
      rw [hslots]
      rfl
    have hflush (v : State) : v.watchFlushed m [x] [] = v := rfl
    unfold State.atomAct
    dsimp only
    rw [hnone]
    dsimp only
    rw [hflush]
    exact Prod.ext rfl ((State.watchActs_unwatched (State.unwatched_of_unapplied (State.applyRaw_unapplied ..) huw) ..).trans rfl)
  simp only [State.atomActs, hact]

/-- An atomic at a home that it reaches, of a line that is not lost. -/
theorem State.changeMsg_atom {s : State} {id : Nat} {m : Msg} {x : Act} (hm : s.msg? id = some m) (hheld : m.held = false) (hph : m.phase = .out)
    (hkind : m.kind = .atom ∨ m.kind = .acas) (hacts : m.acts = [x]) (hreach : s.reachable m.point = true) (hpcie : s.pcieBlocked m = false)
    (hlost : m.line ∉ s.lost) (hs : s.samples = []) (huw : s.unwatched) (hslots : s.slotWords m.line = []) :
    s.changeMsg id = (s.applyRaw m.point m.leaf.hold m.line
      ({ x with b := BitVec.ofNat 64 (atomStores (wordOf m.word) x (s.memNat x.key x.size)), c := 0 } : Act).cells m.team).2.answer id
        fun m' => { m' with
          acts := [{ x with b := BitVec.ofNat 64 (s.memNat x.key x.size), c := 0 }]
          tag := ((s.applyRaw m.point m.leaf.hold m.line
            ({ x with b := BitVec.ofNat 64 (atomStores (wordOf m.word) x (s.memNat x.key x.size)), c := 0 } : Act).cells m.team).2.lineState m'.line).tag } := by
  have hsample : s.sampleSectors m = s := by rw [State.sampleSectors, hs]; rfl
  have hlost' : s.lost.contains m.line = false := by simpa using hlost
  rcases hkind with hkind | hkind <;>
    simp only [State.changeMsg, hm, Msg.moving_of_out hph hheld, hkind, hreach, hpcie, hlost', hsample, hacts, State.atomActs_one huw m (wordOf m.word) x hslots,
      Bool.not_true, Bool.or_self, Bool.false_eq_true, if_false]

/-- Settles O43. -/
theorem changeAndAccept : Obligations.ChangeAndAccept := by
  unfold Obligations.ChangeAndAccept
  refine ⟨fun s id m x d n hm hid hheld hph hacts hpt huw hs hslots hwf => ?_, fun s id spill m x hm hheld hph hkind hx => ?_⟩
  · have hexec : exec (.change (.msg id)) s = .next (s.changeMsg id) := rfl
    have hreach : s.reachable m.point = true := by rcases hpt with h | h | h <;> rw [h] <;> rfl
    have hpcie : s.pcieBlocked m = false := by rcases hpt with h | h | h <;> rw [State.pcieBlocked, h] <;> rfl
    have hsample {v : State} (hv : v.samples = []) : v.sampleSectors m = v := by rw [State.sampleSectors, hv]; rfl
    have hwatch (cells : List Host.Cell) (acts : List Act) (tag : BitVec 32) :
        (s.applyRaw m.point m.leaf.hold m.line cells m.team).2.watchActs m acts true tag = (s.applyRaw m.point m.leaf.hold m.line cells m.team).2 :=
      State.watchActs_unwatched (State.unwatched_of_unapplied (State.applyRaw_unapplied ..) huw) ..
    intro writes
    have hwrites {v : Nat} {y z : Act} {tag : Option (BitVec 32)} {g : Msg → Msg}
        (hgo : s.changeMsg id = (s.applyRaw m.point m.leaf.hold m.line z.cells m.team).2.answer id g) (hz : z.key = x.key ∧ z.size = x.size)
        (hv : z.b.toNat + z.c.toNat * 2 ^ 64 = v) (hg : ∀ m, (g m).id = m.id) (hy : (g m).acts = [y]) (htag : ∀ t, tag = some t → (g m).tag = t) : writes v y tag := by
      obtain ⟨hregs, hsame, hother, hch, hlt, hmsg⟩ := State.answered_change (x := z) hm hph hwf hg
      obtain ⟨hkey, hsize⟩ := hz
      rw [hkey, hsize] at hsame hother
      exact ⟨_, _, hexec.trans (congrArg _ hgo), hregs, fun j hj => hv ▸ hsame j hj, hother, hch, hlt, hmsg, rfl, hy, htag⟩
    refine ⟨fun hkind => ?_, fun p t op dd a b hkind hdec hlost hsz => ?_, fun p t dd a b e hkind hdec hlost hsz => ?_⟩
    · refine hwrites (z := x) (g := fun m' => { m' with tag := (s.applyRaw m.point m.leaf.hold m.line x.cells m.team).1 }) ?_ ⟨rfl, rfl⟩ rfl (fun _ => rfl) hacts ?_
      · have hs' : (s.applyRaw m.point m.leaf.hold m.line x.cells m.team).2.samples = [] :=
          (congrArg State.samples (State.applyRaw_unapplied s m.point m.leaf.hold m.line x.cells m.team) :).trans hs
        have hcells : (m.acts.map Act.cells).flatten = x.cells := by simp [hacts]
        have hflush (v : State) : v.watchFlushed m m.acts [] = v := rfl
        rcases hpt with h | h | h <;> rw [h] at hs' hwatch hreach ⊢ <;>
          simp only [State.changeMsg, hm, Msg.moving_of_out hph hheld, hkind, h, hreach, State.apply_of_no_slots hslots, hcells, hflush, hsample hs', hwatch,
            Bool.not_true, Bool.false_eq_true, if_false]
      · rintro t ⟨⟩
        exact (s.applyRaw_spec m.point m.leaf.hold m.line x.cells m.team).1
    · have hword : wordOf m.word = .atom p t op dd a b := by rw [wordOf, hdec]; rfl
      have hgo := State.changeMsg_atom hm hheld hph (.inl hkind) hacts hreach hpcie hlost hs huw hslots
      rw [hword] at hgo
      exact hwrites hgo ⟨rfl, rfl⟩ (by simp [atomStores]) (fun _ => rfl) rfl (by rintro t ⟨⟩)
    · have hword : wordOf m.word = .acas p t dd a b e := by rw [wordOf, hdec]; rfl
      have hgo := State.changeMsg_atom hm hheld hph (.inr hkind) hacts hreach hpcie hlost hs huw hslots
      rw [hword] at hgo
      have hlt : s.memNat x.key x.size < 2 ^ 64 := lt_of_lt_of_le (leNat_lt _) (by
        rw [State.memBytes, length_memBytesFrom, show (2 : Nat) ^ 64 = 256 ^ 8 by norm_num]
        exact Nat.pow_le_pow_right (by norm_num) hsz)
      refine hwrites hgo ⟨rfl, rfl⟩ ?_ (fun _ => rfl) rfl (by rintro t ⟨⟩)
      have hc := x.c.isLt
      refine (word_value ?_).trans rfl
      have hval : (if s.memNat x.key x.size = x.b.toNat then x.c.toNat else s.memNat x.key x.size) < 2 ^ 64 := by split <;> assumption
      exact hval
  · have hexec : exec (.accept id spill) s = execAccept id spill s := rfl
    intro gives
    have hgives {v : State} (hc : s.contribute x.key x.b.toNat spill = some v) (hmem : v.mem = s.mem) (hregs : v.regs = s.regs) : gives v.scatter := by
      obtain ⟨rest, hopen⟩ : ∃ rest, m.acts.filter (fun a => a.size ≠ 0) = x :: rest := by
        rw [← List.head?_filter] at hx
        exact List.head?_eq_some_iff.1 hx
      have hfirst : (m.acts.filter fun a => a.size ≠ 0).findSome? (fun y => (s.contribute y.key y.b.toNat spill).map fun t => (y, t)) = some (x, v) := by
        rw [hopen, List.findSome?_cons, hc]
        rfl
      have hgo : (!m.moving || m.kind != .gsadd) = false := by rw [Msg.moving_of_out hph hheld, hkind]; rfl
      suffices h : ∃ l n j, execAccept id spill s = .next { v with msgs := l, samples := n, lines := j } by
        obtain ⟨l, n, j, hu⟩ := h
        exact ⟨_, hexec.trans hu, hmem, hregs, rfl⟩
      simp only [execAccept, hm, hgo, hfirst, Bool.false_eq_true, if_false]
      obtain ⟨n, hn⟩ : ∃ n, (if (m.acts.all fun y => decide (y.size ≠ 0)) = true then v.sampleSectors m else v) = { v with samples := n } := by
        split
        · exact v.sampleSectors_keeps m
        · exact ⟨v.samples, rfl⟩
      rw [hn]
      split
      · obtain ⟨l, hl⟩ := State.answer_keeps _ id fun m => m
        exact ⟨l, n, _, congrArg Host.Outcome.next hl⟩
      · exact ⟨_, n, _, rfl⟩
    refine ⟨fun hin => ?_, fun hout hroom => ?_⟩
    · obtain ⟨y, hy⟩ : ∃ y, s.scatter.find? (fun y => y.word == x.key) = some y := Option.isSome_iff_exists.1 (by rwa [List.find?_isSome, ← List.any_eq_true])
      exact hgives (v := { s with scatter := mapIf (fun y => y.word == x.key) (fun y => y.addBits x.b.toNat) s.scatter })
        (by rw [State.contribute, hy]) rfl rfl
    · have hnone : s.scatter.find? (fun y => y.word == x.key) = none := List.find?_eq_none.2 fun y hy => List.any_eq_false.1 hout y hy
      exact hgives (v := { s with scatter := s.scatter ++ [(Scatter.fresh x.key).addBits x.b.toNat] })
        (by rw [State.contribute, hnone]; exact if_pos hroom) rfl rfl

end Sys2Proof.Machine
end


section
/-! Obligation O42: sending an access to its home, and reading there. -/

namespace Sys2Proof.Machine

/-! ### Reads at a home (R286) -/

/-- The registers and the messages. -/
def State.inFlight (s : State) : List (CoreId × List (Nat × BitVec 32)) × List Msg := (s.regs, s.msgs)

theorem inFlight_of_unwritten {s u : State} (h : u.unwritten = s.unwritten) : u.inFlight = s.inFlight := (congrArg State.inFlight h :)

theorem foldl_inFlight {α : Type} {f : State → α → State} (h : ∀ s x, (f s x).inFlight = s.inFlight) (l : List α) (s : State) : (l.foldl f s).inFlight = s.inFlight := by
  induction l generalizing s with
  | nil => rfl
  | cons x l ih => rw [List.foldl_cons, ih, h]

theorem State.trigger_inFlight (s : State) (die : Nat) (tag : BitVec 32) (w : Who) : (s.trigger die tag w).inFlight = s.inFlight := by
  simp only [State.trigger]
  split
  · rfl
  · exact (inFlight_of_unwritten (State.snapshotAt_unwritten ..)).trans rfl

theorem State.watch_inFlight (s : State) (p : Point) (parts : List (Nat × Nat)) (wr : Bool) (w : Who) (src : WatchSrc) (tag : BitVec 32) :
    (s.watch p parts wr w src tag).2.inFlight = s.inFlight := by
  rw [State.watch]
  split
  · rfl
  next die hdie =>
    refine foldl_inFlight (fun v h => ?_) _ s
    have hemit (k : Nat) (ws : List Word) : (v.emit die k w ws).inFlight = v.inFlight := inFlight_of_unwritten (State.emit_unwritten ..)
    by_cases hh : h.2 = true
    · simp only [hh, if_true]
      exact (State.trigger_inFlight ..).trans (hemit ..)
    · simp only [hh, Bool.false_eq_true, if_false]
      exact hemit ..

theorem State.watchActs_inFlight (s : State) (m : Msg) (acts : List Act) (wr : Bool) (tag : BitVec 32) : (s.watchActs m acts wr tag).inFlight = s.inFlight := by
  simp only [State.watchActs]
  split
  next h => exact (congrArg (fun q : Option Word × State => q.2.inFlight) h).symm.trans (State.watch_inFlight ..)
  next h => exact (congrArg (fun q : Option Word × State => q.2.inFlight) h).symm.trans (State.watch_inFlight ..)

theorem State.touch_inFlight (s : State) (p : Point) (hold : Option Bool) (line : Nat) (wr : Bool) (team : Option (Nat × Nat)) :
    (s.touch p hold line wr team).inFlight = s.inFlight := (congrArg State.inFlight (s.touch_offTier p hold line wr team) :)

theorem State.copyFor_inFlight (s : State) (p : Point) (line : Nat) (c : CoreId) (team : Option (Nat × Nat)) : (s.copyFor p line c team).inFlight = s.inFlight :=
  (congrArg State.inFlight (s.copyFor_offTier p line c team) :)

theorem State.fillIf_uncached (s : State) (c : CoreId) (l : Leaf) (secure : Bool) (asid : BitVec 16) (sec : BitVec 4) :
    (s.fillIf c l secure asid sec).2.uncached = s.uncached := by
  rw [State.fillIf]
  split
  · exact (State.expand_uncached ..).trans rfl
  · rfl

theorem State.probe_uncached (s : State) (c : CoreId) (line : Nat) (secure : Bool) (need : BitVec 4) : (s.probe c line secure need).2.uncached = s.uncached := by
  obtain ⟨j, hj⟩ := s.drawIndex_eq (4 * ((List.range 14).filterMap fun i => if c.cluster / 14 * 14 + i = c.cluster then none else some (c.cluster / 14 * 14 + i)).length)
  simp only [State.probe, hj]
  exact (State.countCore_uncached ..).trans ((State.coreSignal_uncached ..).trans rfl)

/-- What follows a read of a line at its home: the tiers, the watches and the core's view. -/
def State.afterRead (s : State) (m : Msg) (needs : BitVec 4) : State :=
  let s := s.touch m.point m.leaf.hold m.line false m.team
  let s := if m.leaf.cp = 0 then s.copyFor m.point m.line m.core m.team else s
  let s := s.watchActs m m.acts false 0
  let nl1 := match wordOf m.word with
    | .ld _ _ _ _ _ _ h => h == 2
    | _ => false
  if nl1 || m.core.core ≥ 4 || m.leaf.cp = 2 then s
  else
    let (b, s) := s.drawBit
    if b then
      let (took, s) := s.fillIf m.core m.leaf m.secure m.asid needs
      s.modMsg m.id fun m => { m with taken := took }
    else s

/-- The sectors that a message names. -/
def Msg.needs (m : Msg) : BitVec 4 := m.acts.foldl (fun n x => n ||| sectorsOf x.key x.size) 0

/-- What a read hears from the other cores of its cluster, where it asks one (R246). -/
def State.asked (s : State) (m : Msg) : Option L1Entry × State :=
  let mayHit := match acqScope (wordOf m.word) with
    | some sc => !scopeInv sc
    | none => true
  if m.leaf.roc && mayHit && m.core.core < 4 then s.probe m.core m.line m.secure m.needs else (none, s)

theorem State.asked_uncached (s : State) (m : Msg) : (s.asked m).2.uncached = s.uncached := by
  have hif (b : Bool) : (if b then s.probe m.core m.line m.secure m.needs else (none, s)).2.uncached = s.uncached := by
    cases b
    · rfl
    · exact State.probe_uncached ..
  exact hif _

theorem State.asked_of_not_roc {s : State} {m : Msg} (h : m.leaf.roc = false) : s.asked m = (none, s) := by
  rw [State.asked, h]
  rfl

/-- A load as its home answers it. -/
def Msg.readAt (s : State) (m : Msg) : Msg := { m with phase := .back, tag := (s.lineState m.line).tag, acts := m.acts.map fun x => x.fill (s.readVis x.key x.size) }

theorem State.readMemory_eq (s : State) (m : Msg) : s.readMemory m =
    let v := (s.asked m).2.sampleSectors m
    match (s.asked m).1 with
    | some e => v.modMsg m.id fun m => { m with phase := .back, acts := m.acts.map fun x => x.fill (e.bytes x.key x.size), tag := e.tag, peer := true }
    | none =>
      if v.lost.contains m.line then v.modMsg m.id fun m => { m with phase := .back, bad := true }
      else (v.modMsg m.id (Msg.readAt v)).afterRead m m.needs := by
  rfl

theorem State.afterRead_spec (s : State) (m : Msg) (needs : BitVec 4) {y : Msg} (hy : s.msg? m.id = some y) :
    (s.afterRead m needs).regs = s.regs ∧ (∃ b, (s.afterRead m needs).msg? m.id = some { y with taken := b }) ∧ (s.unwatched → (s.afterRead m needs).mem = s.mem) := by
  set s1 := s.touch m.point m.leaf.hold m.line false m.team with hs1
  set s2 := (if m.leaf.cp = 0 then s1.copyFor m.point m.line m.core m.team else s1) with hs2
  set s3 := s2.watchActs m m.acts false 0 with hs3
  have hoff : s2.offTier = s.offTier := by
    rw [hs2]
    split
    · exact (State.copyFor_offTier ..).trans (State.touch_offTier ..)
    · exact State.touch_offTier ..
  have hfly : s3.inFlight = s.inFlight := (State.watchActs_inFlight ..).trans (congrArg State.inFlight hoff :)
  have hmem (hw : s.unwatched) : s3.mem = s.mem := by
    have hw2 : s2.unwatched := Eq.mpr (congrArg State.unwatched hoff :) hw
    rw [hs3, State.watchActs_unwatched hw2]
    exact (congrArg State.mem hoff :)
  have hmsg : s3.msg? m.id = some y := (congrArg (fun q => q.2.find? fun x : Msg => x.id == m.id) hfly).trans hy
  have hsame : s3.regs = s.regs ∧ (∃ b, s3.msg? m.id = some { y with taken := b }) ∧ (s.unwatched → s3.mem = s.mem) :=
    ⟨congrArg Prod.fst hfly, ⟨y.taken, hmsg⟩, hmem⟩
  have hfill := State.fillIf_uncached s3.drawBit.2 m.core m.leaf m.secure m.asid needs
  have hmsgs : (s3.drawBit.2.fillIf m.core m.leaf m.secure m.asid needs).2.msg? m.id = s3.msg? m.id := (congrArg (fun v : State => v.msg? m.id) hfill :)
  have hfilled (b : Bool) : let u := (s3.drawBit.2.fillIf m.core m.leaf m.secure m.asid needs).2.modMsg m.id fun m => { m with taken := b }
      u.regs = s.regs ∧ (∃ b, u.msg? m.id = some { y with taken := b }) ∧ (s.unwatched → u.mem = s.mem) := by
    refine ⟨(congrArg State.regs hfill :).trans hsame.1, ⟨b, ?_⟩, fun hw => (congrArg State.mem hfill :).trans (hmem hw)⟩
    rw [State.msg?_modMsg_same _ _ (by exact fun _ => rfl), hmsgs, hmsg]
    rfl
  have hcases (q1 q2 b : Bool) {t : Bool × State} (ht : t = s3.drawBit.2.fillIf m.core m.leaf m.secure m.asid needs) :
      let u := if q1 then s3 else if q2 then t.2.modMsg m.id fun m => { m with taken := t.1 } else s3.drawBit.2
      u.regs = s.regs ∧ (∃ b, u.msg? m.id = some { y with taken := b }) ∧ (s.unwatched → u.mem = s.mem) := by
    subst ht
    cases q1 <;> cases q2
    · exact hsame
    · exact hfilled _
    · exact hsame
    · exact hsame
  exact hcases _ _ false rfl

/-- A load at a home that holds nothing back is answered. -/
theorem State.readMemory_spec {s : State} {m : Msg} (hm : s.msg? m.id = some m) :
    (s.readMemory m).regs = s.regs ∧ (∃ x, (s.readMemory m).msg? m.id = some x ∧ x.phase = .back)
      ∧ (s.unwatched → s.samples = [] → m.leaf.roc = false → (s.readMemory m).mem = s.mem
          ∧ ∃ b, (s.readMemory m).msg? m.id = some (if m.line ∈ s.lost then { m with phase := .back, bad := true, taken := b }
            else { m.readAt s with taken := b })) := by
  obtain ⟨l, hl⟩ := (s.asked m).2.sampleSectors_keeps m
  have hv : ((s.asked m).2.sampleSectors m).regs = s.regs ∧ ((s.asked m).2.sampleSectors m).msg? m.id = some m := by
    rw [hl]
    exact ⟨(congrArg State.regs (s.asked_uncached m) :), ((congrArg (fun v : State => v.msg? m.id) (s.asked_uncached m) :)).trans hm⟩
  obtain ⟨hregs, hmsg⟩ := hv
  have hmod {v : State} (hv : v.msg? m.id = some m) {f : Msg → Msg} (hf : ∀ m, (f m).id = m.id) : (v.modMsg m.id f).msg? m.id = some (f m) := by
    rw [v.msg?_modMsg_same _ hf, hv]
    rfl
  rw [State.readMemory_eq]
  dsimp only
  have hafter {v : State} (hv : v.msg? m.id = some m) := State.afterRead_spec (v.modMsg m.id (Msg.readAt v)) m m.needs (hmod hv (f := Msg.readAt v) (fun _ => rfl))
  refine ⟨?_, ?_, fun hw hs hroc => ?_⟩
  · split
    · exact hregs
    · split
      · exact hregs
      · exact (hafter hmsg).1.trans hregs
  · split
    · exact ⟨_, hmod hmsg (by exact fun _ => rfl), rfl⟩
    · split
      · exact ⟨_, hmod hmsg (by exact fun _ => rfl), rfl⟩
      · obtain ⟨-, ⟨b, hb⟩, -⟩ := hafter hmsg
        exact ⟨_, hb, rfl⟩
  · have hsame : s.sampleSectors m = s := by rw [State.sampleSectors, hs]; rfl
    rw [State.asked_of_not_roc hroc]
    simp only [hsame]
    by_cases hlost : m.line ∈ s.lost
    · rw [if_pos (List.contains_iff_mem.2 hlost)]
      simp only [hlost, if_true]
      exact ⟨rfl, m.taken, hmod hm (by exact fun _ => rfl)⟩
    · rw [if_neg (fun h => hlost (List.contains_iff_mem.1 h))]
      simp only [hlost, if_false]
      obtain ⟨-, ⟨b, hb⟩, hmem⟩ := hafter hm
      exact ⟨hmem hw, b, hb⟩

/-- A load in scratchpad is answered with its team's bytes. -/
theorem State.readPad_spec {s : State} {m : Msg} (hm : s.msg? m.id = some m) {k r : Nat} {tm : Team} (ht : s.team? k r = some tm) :
    (s.readPad m k r).mem = s.mem ∧ (s.readPad m k r).regs = s.regs ∧ (s.readPad m k r).msg? m.id = some { m with
      phase := .back, bad := Config.eccError s.free || m.acts.any (fun x => tm.padLost x.key x.size), acts := m.acts.map fun x => x.fill (tm.padBytes x.key x.size) } := by
  simp only [State.readPad, ht]
  refine ⟨rfl, rfl, ?_⟩
  rw [State.msg?_modMsg_same _ _ (by exact fun _ => rfl)]
  exact (congrArg (Option.map _) hm)

/-- READ, by the place that the message names. -/
theorem State.readMsg_load {s : State} {id : Nat} {m : Msg} (hm : s.msg? id = some m) (hheld : m.held = false) (hph : m.phase = .out) (hkind : m.kind = .load)
    (hpad : ∀ k r, m.point = .pad k r → s.padBlocked m = false) (hpcie : s.pcieBlocked m = false) (hreach : s.reachable m.point = true) :
    s.readMsg id = match m.point with
      | .pad k r => s.readPad m k r
      | .aperture _ => s.modMsg id fun m => { m with phase := .back, acts := m.acts.map fun x => ({ x with b := s.apertureRead x.key m.secure } : Act) }
      | _ => s.readMemory m := by
  simp only [State.readMsg, hm, Msg.moving_of_out hph hheld, hph, hkind]
  cases hp : m.point
  case pad k r => simp [hpad k r hp]
  all_goals simp [hpcie, ← hp, hreach]

/-! ### Sending (R284) -/

/-- SEND of the one lane of a word that goes to memory. -/
theorem exec_send_memory {s : State} {c : Crew} {sid : Sid} {t : Strand} {e : Entry} {l : Nat} {i : Instr} {k : MsgKind} (hc : s.crew? c.id = some c)
    (ht : s.strand? c.id sid = some t) (he : s.entry? c.id sid e.id = some e) (hlanes : lanesOf e.undone = [l]) (hok : s.sendOk c t e l = true)
    (hroom : s.inWindow (corePort (c.coreOf sid)) < 8) (hdec : decode e.word = some i) (hk : memKind i = some k) (hk1 : k ≠ .flush) (hk2 : k ≠ .flushAll)
    (hpad : isPadWord i = false) (hblock : inBlockAperture (e.ea l) = false) : exec (.send c.id sid e.id l) s = .next (s.sendMemory c t e i k [l]) := by
  have hexec : exec (.send c.id sid e.id l) s = execSend c.id sid e.id l s := rfl
  have hi : wordOf e.word = i := by rw [wordOf, hdec]; rfl
  have hport : s.portRoom (corePort (c.coreOf sid)) = (true, s) := by rw [State.portRoom, if_pos hroom]
  have hfree : e.sent.getLsbD l = false ∧ e.faultLanes.getLsbD l = false := by
    simp only [State.sendOk, Bool.and_eq_true, Bool.not_eq_true'] at hok
    exact ⟨hok.1.1.1.2, hok.1.1.2⟩
  obtain ⟨hsent, hfault⟩ := hfree
  have hopen : (lanesOf e.undone).filter (fun l => !e.sent.getLsbD l && !e.faultLanes.getLsbD l) = [l] := by
    rw [hlanes, List.filter_cons_of_pos (by rw [hsent, hfault]; rfl), List.filter_nil]
  have hsame : [l].filter (fun j => (e.ea j).toNat / 128 == (e.ea l).toNat / 128 && !inBlockAperture (e.ea j)) = [l] := by
    rw [List.filter_cons_of_pos (by simp [hblock]), List.filter_nil]
  have hall : [l].all (s.sendOk c t e) = true := by simp [hok]
  rw [hexec, execSend, hc, ht, he]
  simp only [hi, hok, hport, Bool.not_true, Bool.false_eq_true, if_false, hopen, hpad, hblock, hsame, hall, if_true]
  split
  · cases hk
  · cases hk
  next h => rw [hk] at h; cases h
  next h => rw [hk] at h; exact absurd (Option.some.inj h) hk1
  next h => rw [hk] at h; exact absurd (Option.some.inj h) hk2
  next h => rw [hk] at h; rw [Option.some.inj h]

/-- A lane whose address translates makes one message to its home. -/
theorem State.sendMemory_ok {s s1 : State} {c : Crew} {t : Strand} {e : Entry} {i : Instr} {k : MsgKind} {l : Nat} {f : Leaf}
    (htr : s.translate c.asid c.secure (accessOf i) (e.ea l) = (.ok f, s1)) (hplace : placeTakes i f (e.ea l) = true) (hfree : ∀ m ∈ s1.msgs, m.line ≠ lineOf f.at_) :
    let u := s.sendMemory c t e i k [l]
    u.mem = s1.mem ∧ u.regs = s1.regs ∧ ∃ x, u.msgs = s1.msgs ++ [x] ∧ x.kind = k ∧ x.word = e.word ∧ x.entry = e.id ∧ x.phase = .out ∧ x.line = lineOf f.at_
      ∧ x.leaf = f ∧ x.point = homeOf (if k = .gsadd then 0 else f.cp) f.at_ ∧ x.acts = [e.act l f.at_ (accessBytes i)] := by
  have hline : s1.lineInFlight c t f [l] = false := by
    rw [State.lineInFlight, List.any_eq_false]
    intro m hm
    have : (m.line == lineOf f.at_) = false := beq_eq_false_iff_ne.2 (hfree m hm)
    simp [this]
  have hkey : f.at_ + (e.ea l).toNat - (e.ea l).toNat = f.at_ := Nat.add_sub_cancel ..
  obtain ⟨g, hg⟩ := (s1.markSent c t e [l]).coreSignal_eq (c.coreOf t.sid) 7 1
  have hposted (v : State) (hv : ∃ q, v = { s1.markSent c t e [l] with signals := g, l1 := q }) (x : Msg) :
      (v.post x).mem = s1.mem ∧ (v.post x).regs = s1.regs ∧ (v.post x).msgs = s1.msgs ++ [{ x with id := v.ids }] := by
    obtain ⟨q, rfl⟩ := hv
    exact ⟨rfl, rfl, rfl⟩
  simp only [State.sendMemory, htr, hplace, List.any_cons, List.any_nil, Bool.not_true, Bool.or_self, Bool.false_eq_true, if_false, List.isEmpty_nil, hline, hkey,
    List.map_cons, List.map_nil, hg]
  refine (fun h => ⟨h.1, h.2.1, _, h.2.2, rfl, rfl, rfl, rfl, rfl, rfl, ?_, rfl⟩) (hposted _ ?_ _)
  · split <;> exact ⟨_, rfl⟩
  · by_cases hk : k = .gsadd <;> simp [hk]

theorem State.sendMemory_fail {s s1 : State} {c : Crew} {t : Strand} {e : Entry} {i : Instr} {k : MsgKind} {l : Nat} {cause : Nat} {absent : Bool}
    (htr : s.translate c.asid c.secure (accessOf i) (e.ea l) = (.fail cause absent, s1)) (hflush : isFlushWord i = false) :
    s.sendMemory c t e i k [l] = s1.logFault c.id t.sid e.id [l] cause (kindOf i) absent := by
  simp only [State.sendMemory, htr, hflush, Bool.false_eq_true, if_false]

/-- Settles O42. -/
theorem sendAndRead : Obligations.SendAndRead := by
  unfold Obligations.SendAndRead
  refine ⟨fun s c sid t e l i k hc ht hsid he hlanes hok hroom hdec hk hk1 hk2 hpad hblock => ?_, fun s id m hm hid hheld hph hkind hpt hpcie hreach => ?_⟩
  · have hexec := exec_send_memory hc ht he hlanes hok hroom hdec hk hk1 hk2 hpad hblock
    obtain ⟨j, q, htr⟩ := s.translate_eq c.asid c.secure (accessOf i) (e.ea l)
    intro w s1
    have hs1 : s1 = { s with free := j, tlb := q } := htr
    refine ⟨fun f hw hplace hfree => ?_, fun cause absent hw hflush => ?_⟩
    · obtain ⟨hmem, hregs, x, hx⟩ := State.sendMemory_ok (k := k) (t := t) (Prod.ext hw rfl : s.translate c.asid c.secure (accessOf i) (e.ea l) = (.ok f, s1)) hplace hfree
      exact ⟨_, x, hexec, hmem.trans (by rw [hs1]), hregs.trans (by rw [hs1]), hx⟩
    · rw [hexec, State.sendMemory_fail (Prod.ext hw rfl : s.translate c.asid c.secure (accessOf i) (e.ea l) = (.fail cause absent, s1)) hflush, hsid]
  · subst hid
    have hexec : exec (.read (.msg m.id)) s = .next (s.readMsg m.id) := rfl
    have hread := State.readMsg_load hm hheld hph hkind (fun k r h => (hpt k r h).1) hpcie hreach
    obtain ⟨hregs, ⟨y, hy, hyph⟩, hsure⟩ := State.readMemory_spec hm
    have hmod {f : Msg → Msg} (hf : ∀ m, (f m).id = m.id) : (s.modMsg m.id f).msg? m.id = some (f m) := by
      rw [s.msg?_modMsg_same _ hf, hm]
      rfl
    refine ⟨?_, fun hw hs hroc => ?_⟩
    · cases hp : m.point
      case pad k r =>
        obtain ⟨-, tm, htm⟩ := hpt k r hp
        rw [hp] at hread
        obtain ⟨-, hr, hx⟩ := State.readPad_spec hm htm
        exact ⟨_, _, hexec.trans (congrArg _ hread), hr, hx, rfl⟩
      case aperture d =>
        rw [hp] at hread
        exact ⟨_, _, hexec.trans (congrArg _ hread), rfl, hmod (by exact fun _ => rfl), rfl⟩
      all_goals
        rw [hp] at hread
        exact ⟨_, y, hexec.trans (congrArg _ hread), hregs, hy, hyph⟩
    · intro back
      obtain ⟨hmem, b, hx⟩ := hsure hw hs hroc
      refine ⟨fun hnopad hnoap => ?_, fun k r tm hp htm => ?_, fun d hp => ?_⟩
      · have hgo : s.readMsg m.id = s.readMemory m := by
          rw [hread]
          split
          next k r hp => exact absurd hp (hnopad k r)
          next d hp => exact absurd hp (hnoap d)
          next => rfl
        refine ⟨fun hlost => ?_, fun hlost => ?_⟩
        · rw [if_neg hlost] at hx
          exact ⟨_, _, hexec.trans (congrArg _ hgo), hmem, hregs, hx, rfl, rfl, rfl, rfl⟩
        · rw [if_pos hlost] at hx
          exact ⟨_, _, hexec.trans (congrArg _ hgo), hmem, hregs, hx, rfl, rfl, rfl, (List.map_id' _).symm⟩
      · rw [hp] at hread
        obtain ⟨hpm, hr, hx⟩ := State.readPad_spec hm htm
        exact ⟨_, _, hexec.trans (congrArg _ hread), hpm, hr, hx, rfl, rfl, rfl, rfl⟩
      · rw [hp] at hread
        exact ⟨_, _, hexec.trans (congrArg _ hread), rfl, rfl, hmod (by exact fun _ => rfl), rfl, rfl, rfl, rfl⟩

end Sys2Proof.Machine
end


section
/-! Obligation O47: collectives. -/

namespace Sys2Proof.Machine

theorem State.cmd?_modCmd_same (s : State) (id : Nat) {f : Cmd → Cmd} (hf : ∀ k, (f k).id = k.id) : (s.modCmd id f).cmd? id = (s.cmd? id).map f := by
  rw [State.cmd?, State.cmd?, State.modCmd, mapIf]
  induction s.cmds with
  | nil => rfl
  | cons k L ih =>
    by_cases hk : k.id = id
    · simp [hk, hf]
    · simpa [hk] using ih

/-- The commands of a collective on the package that `mine` finds, one for each die. -/
theorem filterMap_members {α : Type} {ds : List Nat} {mine : Nat → Option α} {member : Nat → α} (h : ∀ d ∈ ds, mine d = some (member d)) :
    (ds.map some).filterMap (fun m => m.bind mine) = ds.map member := by
  induction ds with
  | nil => rfl
  | cons d ds ih =>
    have hd : (some d).bind mine = some (member d) := h d (List.mem_cons_self ..)
    rw [List.map_cons, List.filterMap_cons, List.map_cons, ← ih fun x hx => h x (List.mem_cons_of_mem _ hx), hd]

theorem getD_map_some (ds : List Nat) {r : Nat} (hr : r < ds.length) : (ds.map some).getD r none = some ds[r] := by
  simp [hr]

/-- The columns of a collective are the contributions of its members, in rank order. -/
theorem columns_eq {ds : List Nat} {mine : Nat → Option Cmd} {member : Nat → Cmd} (h : ∀ d ∈ ds, mine d = some (member d)) (far : Nat → List Nat) :
    ((List.range (ds.map some).length).map fun r => match (ds.map some).getD r none with
      | some d => ((mine d).map Cmd.contribution).getD []
      | none => far r) = ds.map fun d => (member d).contribution := by
  refine List.ext_getElem (by simp) fun r h1 h2 => ?_
  have hr : r < ds.length := by simpa using h2
  rw [List.getElem_map, List.getElem_range, getD_map_some ds hr, List.getElem_map]
  exact congrArg (fun o => (Option.map Cmd.contribution o).getD []) (h _ (List.getElem_mem hr))

theorem zip_map_range {α β : Type} (l : List α) (f : α → β) : l.zip (l.map f) = l.map fun e => (e, f e) := by
  induction l with
  | nil => rfl
  | cons a l ih => rw [List.map_cons, List.zip_cons_cons, ih, List.map_cons]

/-- The writes of the result of a collective at one member, from the columns of the contributions (R367). -/
def collWrites (t : Coll) (dst : Nat) (cols : List (List Nat)) : List EngWrite :=
  writesOf none (((List.range t.count).zip ((List.range t.count).map fun e =>
    let xs := cols.map fun l => l.getD e 0
    if t.op = 6 then xs.getD t.root 0 else xs.tail.foldl (collFold t) (xs.headD 0))).map fun q => bitCells (8 * (dst + q.1 * t.size)) (8 * t.size) q.2).flatten

/-- Settles O47. -/
theorem collectives : Obligations.Collectives := by
  unfold Obligations.Collectives
  refine ⟨fun s k ds member hk hkind hplan => ?_, fun s k hk hkind hplan hall => ?_⟩
  · intro g hmem hpeers hmine hmember t parts result
    have hexec : exec (.collectivePair k.id []) s = execCollectivePair k.id [] s := rfl
    dsimp only [g] at hmine
    have hlocal := filterMap_members hmine
    have hnone : (List.range (ds.map some).length).any (fun r => ((ds.map some).getD r none).isNone && !([] : List Remote).any fun x => x.rank == r) = false := by
      rw [List.any_eq_false]
      intro r hr
      have hr' : r < ds.length := by simpa using hr
      rw [getD_map_some ds hr']
      exact Bool.false_ne_true
    have hhere : ((ds.map some).filter fun m => m.isSome).length = ds.length := by
      rw [List.filter_eq_self.2 fun m hm => ?_, List.length_map]
      obtain ⟨d, -, rfl⟩ := List.mem_map.1 hm
      rfl
    have hlen : (ds.map member).length = ds.length := List.length_map ..
    have hlate : (ds.map member).any (fun x => !x.reads.isEmpty || x.planned) = false := by
      rw [List.any_eq_false]
      intro x hx
      obtain ⟨d, hd, rfl⟩ := List.mem_map.1 hx
      obtain ⟨hreads, hpl, -⟩ := hmember d hd
      simp [hreads, hpl]
    have hdown : k.peers.any s.peersDown.contains = false := by
      rw [List.any_eq_false]
      exact fun p hp h => hpeers p hp (List.contains_iff_mem.1 h)
    have htables : ((ds.map member).all fun x => x.members == ds.map some && (ds.map some).contains (some x.die)) = true := by
      rw [List.all_eq_true]
      intro x hx
      obtain ⟨d, hd, rfl⟩ := List.mem_map.1 hx
      obtain ⟨-, -, -, -, hms, hdie⟩ := hmember d hd
      simp [hms, hdie]
    have hsame : ((ds.map member).all fun x => x.agrees == k.agrees) = true := by
      rw [List.all_eq_true]
      intro x hx
      obtain ⟨d, hd, rfl⟩ := List.mem_map.1 hx
      simp [(hmember d hd).2.2.1]
    have hpartial : (ds.map member).any Cmd.partial_ = false := by
      rw [List.any_eq_false]
      intro x hx
      obtain ⟨d, hd, rfl⟩ := List.mem_map.1 hx
      simp [(hmember d hd).2.2.2.1]
    have hfar : (List.range (ds.map some).length).filterMap (fun r => if ((ds.map some).getD r none).isNone then ([] : List Remote).find? fun x => x.rank == r else none) = [] := by
      rw [List.filterMap_eq_nil_iff]
      intro r _
      split <;> rfl
    rw [hexec, execCollectivePair, hk]
    simp only [hkind, hplan, hmem, hdown, hlocal, hnone, hhere, hlate, htables, hsame, hfar, hpartial, hlen, Bool.and_false, Bool.false_eq_true, if_false,
      ne_eq, not_true_eq_false, decide_false, Bool.or_self, List.all_nil, Bool.and_self, Bool.not_true]
    refine ⟨_, rfl, rfl, rfl, fun d hd => ⟨_, List.mem_map.2 ⟨member d, List.mem_of_find?_eq_some (hmine d hd), if_pos ?_⟩, rfl, rfl, ?_⟩⟩
    · exact List.contains_iff_mem.2 (List.mem_map_of_mem (List.mem_map_of_mem hd))
    · refine (congrArg (collWrites (Coll.ofBytes k.tmpl) (Coll.ofBytes (member d).tmpl).dst) (columns_eq hmine fun r => _)).trans ?_
      rw [collWrites, zip_map_range, List.map_map]
      simp only [List.map_map]
      rfl
  · have hexec : exec (.peerTimeout k.id) s = execPeerTimeout k.id s := rfl
    refine ⟨_, k.failed 7, hexec, rfl, rfl, ?_, rfl, rfl, rfl, rfl⟩
    rw [State.cmd?_modCmd_same _ _ (by intro x; split <;> rfl), hk]
    simp [hkind, hplan, hall]

end Sys2Proof.Machine
end


section
/-! Obligation O46: copy commands. -/

namespace Sys2Proof.Machine

/-! ### What the writes of a command leave of its stream -/

/-- The counter of copies of a stream, and its log. -/
def Strand.copies (t : Strand) : Nat × List Entry := (t.cp, t.log)

/-- The channels, and the copies of one stream. -/
def State.copies (crew : Nat) (sid : Sid) (s : State) : List Chan × Option (Nat × List Entry) := (s.chans, (s.strand? crew sid).map Strand.copies)

theorem Strand.endWaits_copies (p : Wait → Bool) (t : Strand) : (t.endWaits p).copies = t.copies := by
  rw [Strand.endWaits]
  split
  next ps n h => split <;> rfl

/-- The end of waits in a crew leaves what its streams hold besides their paths. -/
theorem Crew.strand?_endWaits {α : Type} (c : Crew) (team : Option Nat) (p : Wait → Bool) (sid : Sid) {g : Strand → α} (hg : ∀ t, g (t.endWaits p) = g t) :
    ((c.endWaits team p).strand? sid).map g = (c.strand? sid).map g := by
  cases sid with
  | gaffer =>
    simp only [Crew.strand?, Crew.endWaits, Option.map_map]
    exact congrArg (Option.map · c.gaffer) (funext hg)
  | wave r w =>
    simp only [Crew.strand?, Crew.endWaits, List.getElem?_map]
    cases c.teams[r]? with
    | none => rfl
    | some tm =>
      simp only [Option.map_some, Option.bind_some]
      split
      · rw [List.getElem?_map, Option.map_map]
        exact congrArg (Option.map · tm.waves[w]?) (funext hg)
      · rfl
  | producer r =>
    simp only [Crew.strand?, Crew.endWaits, List.getElem?_map]
    cases c.teams[r]? with
    | none => rfl
    | some tm =>
      simp only [Option.map_some, Option.bind_some]
      split <;> rfl

theorem State.copies_endWaits (s : State) (crew : Nat) (sid : Sid) (team : Option Nat) (p : Wait → Bool) :
    (s.modCrew crew fun c => c.endWaits team p).copies crew sid = s.copies crew sid := by
  refine Prod.ext rfl ?_
  simp only [State.copies, State.strand?]
  rw [State.crew?_modCrew_same s crew (f := fun c => c.endWaits team p) (fun _ => rfl)]
  cases s.crew? crew with
  | none => rfl
  | some c => exact c.strand?_endWaits team p sid (Strand.endWaits_copies p)

theorem State.copies_modTeam (s : State) (crew r : Nat) (sid : Sid) {f : Team → Team} (hw : ∀ tm, (f tm).waves = tm.waves) (hp : ∀ tm, (f tm).producer = tm.producer) :
    (s.modTeam crew r f).copies crew sid = s.copies crew sid := by
  refine Prod.ext rfl ?_
  simp only [State.copies, s.strand?_modTeam crew r hw hp sid]

theorem State.copies_tbPut (s : State) (crew r off : Nat) (b : Tb) (sid : Sid) : (s.tbPut crew r off b).copies crew sid = s.copies crew sid := by
  have hpad (n : Nat) : (s.modTeam crew r fun t => t.setPadNat off 16 n).copies crew sid = s.copies crew sid :=
    s.copies_modTeam crew r sid (f := fun t => t.setPadNat off 16 n) (fun t => by simp only [Team.setPadNat, Team.setPad])
      (fun t => by simp only [Team.setPadNat, Team.setPad])
  rw [State.tbPut]
  exact (State.copies_endWaits _ crew sid none _).trans (hpad _)

theorem State.copies_padWritten (s : State) (crew r k n : Nat) (sid : Sid) : (s.padWritten crew r k n).copies crew sid = s.copies crew sid :=
  (s.drawError.2.copies_modTeam crew r sid (by exact fun _ => rfl) (by exact fun _ => rfl)).trans rfl

theorem foldl_copies {α : Type} {crew : Nat} {sid : Sid} {f : State → α → State} (h : ∀ s x, (f s x).copies crew sid = s.copies crew sid) (l : List α) (s : State) :
    (l.foldl f s).copies crew sid = s.copies crew sid := by
  induction l generalizing s with
  | nil => rfl
  | cons x l ih => rw [List.foldl_cons, ih, h]

theorem State.copies_countSector (s : State) (k : Cmd) (ranks : List Nat) (sid : Sid) : (s.countSector k ranks).copies k.crew sid = s.copies k.crew sid := by
  rw [State.countSector]
  split
  · rfl
  · refine foldl_copies (fun s r => ?_) _ s
    split
    · rfl
    · split
      next u hu =>
        simp only [State.tbSector] at hu
        split at hu
        · cases hu
        · rw [← Option.some.inj hu]
          exact (State.copies_padWritten ..).trans (State.copies_tbPut ..)
      next => rfl

theorem copies_of_unwritten {s u : State} (h : u.unwritten = s.unwritten) (crew : Nat) (sid : Sid) : u.copies crew sid = s.copies crew sid :=
  Prod.ext (congrArg State.chans h :) (congrArg (Option.map Strand.copies) (strand?_of_unwritten h crew sid))

theorem State.copies_leafFor (s : State) (b : By) (a : Access) (va : Nat) (crew : Nat) (sid : Sid) : (s.leafFor b a va).2.copies crew sid = s.copies crew sid := by
  obtain ⟨j, l, htr⟩ := s.translate_eq b.asid b.secure a (BitVec.ofNat 64 va)
  have hsame : (s.translate b.asid b.secure a (BitVec.ofNat 64 va)).2.copies crew sid = s.copies crew sid := by rw [htr]; rfl
  have hnamed (v : State) : (v.apertureNamed b).copies crew sid = v.copies crew sid := by
    rw [State.apertureNamed]
    split
    · exact copies_of_unwritten (State.event_unwritten v 10 (b.who.gln / 2 ^ 18) b.who _) crew sid
    · rfl
  rw [State.leafFor]
  split
  · rfl
  · split
    next f v hv =>
      rw [hv] at hsame
      split
      · exact hsame
      · exact (hnamed v).trans hsame
    next => exact hsame

theorem State.copies_sendWrites (s : State) (k : Cmd) (sid : Sid) : (s.sendWrites k).copies k.crew sid = s.copies k.crew sid := by
  rw [State.sendWrites]
  refine foldl_copies (fun s q => ?_) _ s
  split
  · rfl
  · split
    · rfl
    next c cs hcells =>
      have hleaf := s.copies_leafFor (s.byCmd k) .store (c.1 / 32 * 32) k.crew sid
      split
      · rfl
      next f v hv =>
        rw [hv] at hleaf
        have hcount := (v.copies_countSector k k.dests sid).trans hleaf
        have hif (b : Bool) (g : Cmd → Cmd) : State.copies k.crew sid (if b then (v.countSector k k.dests).modCmd k.id g else v.countSector k k.dests) = s.copies k.crew sid := by
          cases b <;> exact hcount
        exact hif _ _

/-! ### The end of a command (R347) -/

theorem State.emitSample_copied (s : State) (crew : Nat) (sid : Sid) (id : Nat) : (s.emitSample crew sid id).chans = s.chans
    ∧ (s.emitSample crew sid id).cmds = s.cmds ∧ ∀ k d, (s.emitSample crew sid id).strand? k d = s.strand? k d := by
  rw [State.emitSample]
  split
  next x c hx hc =>
    have hput : (s.putSample c x).unwritten = { s.unwritten with free := s.free + 3 } := by
      rw [State.putSample]
      exact (State.emit_unwritten ..).trans rfl
    have hstrand (k : Nat) (d : Sid) : (s.putSample c x).strand? k d = s.strand? k d :=
      strand?_of_unwritten (s := { s with free := s.free + 3 }) hput k d
    exact ⟨(congrArg State.chans hput :), (congrArg State.cmds hput :), hstrand⟩
  next => exact ⟨rfl, rfl, fun _ _ => rfl⟩

theorem State.complete_copied (s : State) (crew : Nat) (sid : Sid) (id : Nat) (ls : Lanes) : (s.complete crew sid id ls).chans = s.chans
    ∧ (s.complete crew sid id ls).cmds = s.cmds := by
  obtain ⟨hch, hcm, -⟩ := (s.modEntry crew sid id fun e => { e with done := e.done ||| ls }).emitSample_copied crew sid id
  rw [State.complete, State.retire]
  split
  · split
    · exact ⟨hch, hcm⟩
    · exact ⟨rfl, rfl⟩
  · exact ⟨rfl, rfl⟩

/-- The last lane of an entry: the counters fall, and the entry goes. -/
theorem State.complete_last {s : State} {crew : Nat} {sid : Sid} {id : Nat} {ls : Lanes} {t : Strand} {e : Entry} (ht : s.strand? crew sid = some t)
    (he : s.entry? crew sid id = some e) (hun : e.undone = ls) : (s.complete crew sid id ls).strand? crew sid
      = some { (t.modEntry id fun e => { e with done := e.done ||| ls }).lower e.cnt with log := (t.modEntry id fun e => { e with done := e.done ||| ls }).log.filter fun x => x.id != id } := by
  set v := s.modEntry crew sid id fun e => { e with done := e.done ||| ls } with hv
  have hentry : v.entry? crew sid id = some { e with done := e.done ||| ls } := by
    rw [hv, State.entry?_modEntry _ _ _ _ (by exact fun _ => rfl), he]
    rfl
  have hzero : Entry.undone { e with done := e.done ||| ls } = 0 := by
    rw [← hun]
    simp only [Entry.undone]
    ext i hi
    simpa using fun hl hd => ⟨hl, hd⟩
  have hstrand : v.strand? crew sid = some (t.modEntry id fun e => { e with done := e.done ||| ls }) := by
    rw [hv, State.modEntry, State.strand?_modStrand_same, ht]
    rfl
  rw [State.complete, ← hv, State.retire, hentry]
  simp only [hzero, if_true]
  rw [State.strand?_modStrand_same, (v.emitSample_copied crew sid id).2.2, hstrand]
  rfl

theorem State.arriveAll_of_no_arrival {s : State} {k : Cmd} (h : k.kind = .copy → k.template.tben = true → dwArr k.data = false) : s.arriveAll k = s := by
  rw [State.arriveAll, if_pos]
  by_cases hk : k.kind = .copy
  · cases hb : k.template.tben with
    | false => simp
    | true => simp [h hk hb]
  · simp [hk]

/-- COPY_COMPLETE of a command that has done what it needs. -/
theorem exec_copyComplete {s : State} {k : Cmd} (hk : s.cmd? k.id = some k) (hdone : k.done = false) (hplan : k.planned = true) (hreads : k.reads = [])
    (hrel : k.rel = true → k.writes = []) (hecode : k.ecode = 0) (hkind : k.kind ≠ .rrot) (hsent : (s.sendWrites k).cmd? k.id = some k)
    (harr : k.kind = .copy → k.template.tben = true → dwArr k.data = false) :
    let v := (s.sendWrites k).endChan k.die k.cluster k.chan (dwTmpl k.data) 0 k.flags k.secure
    let w := if k.writes.isEmpty then { v with cmds := v.cmds.filter fun x => x.id != k.id } else v.modCmd k.id fun k => { k with done := true, told := k.ecode ≠ 0 }
    exec (.copyComplete k.id) s = .next (w.complete k.crew k.sid k.entry (1#32 <<< k.lane)) := by
  intro v w
  have hexec : exec (.copyComplete k.id) s = execCopyComplete k.id s := rfl
  have hgo : (k.done || !k.planned || !k.reads.isEmpty || (k.rel && !k.writes.isEmpty)) = false := by
    rw [hdone, hplan, hreads]
    cases hr : k.rel with
    | false => rfl
    | true => simp [hrel hr]
  have hkind' : (k.kind == .rrot) = false := beq_eq_false_iff_ne.2 hkind
  rw [hexec, execCopyComplete, hk]
  simp only [hgo, hsent, Option.getD_some, State.arriveAll_of_no_arrival harr, ite_self, hkind', hecode, Bool.false_eq_true, if_false, ne_eq, not_true_eq_false]
  rfl

/-! ### Writes into scratchpad (R292) -/

theorem State.countSector_of_no_barrier {s : State} {k : Cmd} (h : k.kind ≠ .copy ∨ k.template.tben = false) (ranks : List Nat) : s.countSector k ranks = s := by
  rw [State.countSector, if_pos]
  rcases h with h | h <;> simp [h]

theorem State.reap_of_not_done {s : State} {id : Nat} {k : Cmd} (hk : s.cmd? id = some k) (hdone : k.done = false) : s.reap id = s := by
  simp [State.reap, hk, hdone]

/-- ENGINE_SCRATCH_WRITE of the one sector that waits. -/
theorem exec_engineScratchWrite {s : State} {k : Cmd} {w : EngWrite} {r a : Nat} {m v : Byte} (hk : s.cmd? k.id = some k)
    (hws : (k.writes.filter fun w => w.rank.isSome) = [w]) (hdone : k.done = false) (hr : w.rank = some r) (hcells : w.cells = [(a, m, v)])
    (hkind : k.kind ≠ .copy ∨ k.template.tben = false) : exec (.engineScratchWrite k.id) s = .next ((s.modTeam k.crew r fun t =>
      { t.setPad a [maskByte ((t.padBytes a 1).headD 0) m v] with padBad := t.padBad.filter (· ≠ a) }).modCmd k.id fun k => { k with writes := k.writes.erase w }) := by
  have hexec : exec (.engineScratchWrite k.id) s = execEngineScratchWrite k.id s := rfl
  have hdraw : s.drawIndex [w].length = (0, s) := rfl
  rw [hexec, execEngineScratchWrite, hk]
  simp only [hws, hdraw, List.getElem?_cons_zero, hr, hcells, Option.getD_some, List.foldr_cons, List.foldr_nil, State.countSector_of_no_barrier hkind]
  refine congrArg Host.Outcome.next (State.reap_of_not_done (k := { k with writes := k.writes.erase w }) ?_ hdone)
  rw [State.cmd?_modCmd_same _ _ (by exact fun _ => rfl)]
  exact congrArg (Option.map _) hk

/-! ### Acceptance (R345) -/

/-- A command that a channel takes is the last one of the machine, and its lane's offer is settled. -/
theorem State.takeCmd_spec (s : State) (t : Strand) (o : Offer) (k : Cmd) : (s.takeCmd t o k).mem = s.mem ∧ (s.takeCmd t o k).regs = s.regs
    ∧ (∃ id n, (s.takeCmd t o k).cmds = s.cmds ++ [{ k with id := id, entry := n }])
    ∧ ∀ x ∈ (s.takeCmd t o k).offers, x.with_ o.crew o.sid o.path = true → x.lane = o.lane → x.settled = true := by
  obtain ⟨i, u, hentry, hmem, hregs, hcmds⟩ : ∃ i u, s.offerEntry t o = (i, u) ∧ u.mem = s.mem ∧ u.regs = s.regs ∧ u.cmds = s.cmds := by
    rw [State.offerEntry]
    split
    · exact ⟨_, _, rfl, rfl, rfl, rfl⟩
    · exact ⟨_, _, rfl, rfl, rfl, rfl⟩
  simp only [State.takeCmd, hentry]
  refine ⟨hmem, hregs, ⟨u.ids, i, congrArg (· ++ _) hcmds⟩, fun x hx hw hl => ?_⟩
  obtain ⟨y, -, rfl⟩ := List.mem_map.1 hx
  split at hw <;> split at hl <;> split <;> simp_all

/-- COPY_ACCEPT of the lowest open lane of a store whose channel has room and that nothing older holds back. -/
theorem exec_copyAccept {s s1 : State} {c : Crew} {sid : Sid} {t : Strand} {o : Offer} {l : List Byte} (hc : s.crew? c.id = some c) (ht : s.strand? c.id sid = some t)
    (ho : (s.offers.find? fun x => x.crew == c.id && x.sid == sid && x.lane == o.lane && !x.settled) = some o)
    (hlow : ∀ x ∈ s.offers, x.with_ c.id sid o.path = true → o.lane ≤ x.lane ∨ x.settled = true) (hroom : (s.chanCmds c.die c.cluster o.chan).length < 8)
    (hcount : t.canRaise ⟨0, 0, 1, 0⟩ = true) (hfree : s.offerFree c t o = true) (htt : (s.asidEntry c.asid).tt ≠ 0) (hword : wordRefused o = false)
    (hl : s.loadVa (s.byCmd (baseCmd c o .copy [])) ((s.asidEntry c.asid).tt + 128 * dwTmpl o.data + if dwColl o.data then 0x80000 else 0) 128 = (.ok l, s1)) :
    exec (.copyAccept c.id sid o.lane) s = .next (if dwColl o.data then s1.acceptColl c t o l else s1.acceptCopy c t o l) := by
  have hexec : exec (.copyAccept c.id sid o.lane) s = execCopyAccept c.id sid o.lane s := rfl
  have hopen : (s.offers.any fun x => x.with_ c.id sid o.path && x.lane < o.lane && !x.settled) = false := by
    rw [List.any_eq_false]
    intro x hx h
    simp only [Bool.and_eq_true, decide_eq_true_eq, Bool.not_eq_true'] at h
    rcases hlow x hx h.1.1 with hle | hset
    · omega
    · rw [hset] at h; exact Bool.noConfusion h.2
  have hroom' : ¬8 ≤ (s.chanCmds c.die c.cluster o.chan).length := by omega
  rw [hexec, execCopyAccept, hc, ht, ho]
  simp only [hopen, hroom', hcount, hfree, htt, hl, hword, Bool.not_true, Bool.and_false, Bool.false_eq_true, if_false]

/-- The state with the next number of a group given out (R366). -/
def State.numbered (s : State) (c : Crew) (g : Nat) : State :=
  s.modDie c.die fun d => { d with groupSeq := assocSet d.groupSeq g ((assocGet (s.die c.die).groupSeq g).getD 0 + 1) }

/-- The command of a collective, as its channel takes it. -/
def State.collCmd (s : State) (c : Crew) (o : Offer) (l : List Byte) (ms : List (Option Nat)) : Cmd :=
  let k := Coll.ofBytes l
  { baseCmd c o .coll l with
    seq := (assocGet (s.die c.die).groupSeq k.group).getD 0
    reads := (sectorsOfBits [(8 * k.src, 8 * k.size * k.count)]).map fun x => (none, x)
    members := ms
    peers := (s.numbered c k.group).groupPeers c.die k.group }

theorem State.acceptColl_ok {s : State} {c : Crew} {t : Strand} {o : Offer} {l : List Byte} {r : Nat} {ms : List (Option Nat)} (hgroup : s.group c.die (Coll.ofBytes l).group = some (r, ms))
    (hok : Coll.ok l = true) (hroot : (Coll.ofBytes l).root < ms.length) (hacq : s.acqReady c t o.lane (Coll.ofBytes l).acq (Coll.ofBytes l).scope = true) :
    s.acceptColl c t o l = (s.numbered c (Coll.ofBytes l).group).takeCmd t o (s.collCmd c o l ms) := by
  simp only [State.acceptColl, hgroup, hok, hacq, Nat.not_le.2 hroot, Bool.not_true, decide_false, Bool.or_self, Bool.false_eq_true, if_false]
  rfl

/-- What the making of writes keeps of a command. -/
theorem Cmd.makeWrites_keeps (k : Cmd) : k.makeWrites.data = k.data ∧ k.makeWrites.lane = k.lane ∧ k.makeWrites.chan = k.chan ∧ k.makeWrites.kind = k.kind
    ∧ k.makeWrites.dests = k.dests ∧ k.makeWrites.tmpl = k.tmpl := by
  rw [Cmd.makeWrites]
  split <;> exact ⟨rfl, rfl, rfl, rfl, rfl, rfl⟩

/-- A copy that has its reads: what is read now, or written where there is nothing to read. -/
def Cmd.withReads (k : Cmd) (p : Plan) : Cmd :=
  let k := { k with reads := p.reads k.srcRank }
  if k.reads.isEmpty then k.makeWrites else k

theorem Cmd.withReads_keeps (k : Cmd) (p : Plan) : (k.withReads p).data = k.data ∧ (k.withReads p).lane = k.lane ∧ (k.withReads p).chan = k.chan
    ∧ (k.withReads p).kind = k.kind ∧ (k.withReads p).dests = k.dests ∧ (k.withReads p).tmpl = k.tmpl := by
  rw [Cmd.withReads]
  split
  · exact Cmd.makeWrites_keeps { k with reads := p.reads k.srcRank }
  · exact ⟨rfl, rfl, rfl, rfl, rfl, rfl⟩

theorem Cmd.withReads_of_ne {k : Cmd} {p : Plan} (h : p.reads k.srcRank ≠ []) : k.withReads p = { k with reads := p.reads k.srcRank } := by
  rw [Cmd.withReads, if_neg (by simpa using h)]

theorem State.acceptCopy_ok {s : State} {c : Crew} {t : Strand} {o : Offer} {l : List Byte} {dests : List Nat} {a d : List Byte} {s2 s3 s4 : State} {pl : Plan}
    (hdests : copyDests c o.sid (Tmpl.ofBytes l) = some dests) (hok : Tmpl.ok l c.padS = true) (hsrc : dwAsrc o.data = true → (Tmpl.ofBytes l).route = 2)
    (harr : dwArr o.data = true → (Tmpl.ofBytes l).tben = true) (hgaf : o.sid = .gaffer → (Tmpl.ofBytes l).route = 2 → (Tmpl.ofBytes l).tben = false)
    (hacq : s.acqReady c t o.lane (Tmpl.ofBytes l).acq (Tmpl.ofBytes l).scope = true)
    (hfar : farOf ((if (Tmpl.ofBytes l).route = 1 then [] else [(Tmpl.ofBytes l).src]) ++ (if (Tmpl.ofBytes l).route = 0 || (Tmpl.ofBytes l).kind = 2 then [] else [(Tmpl.ofBytes l).dst])) = none)
    (ha : s.readHdr (s.byCmd { baseCmd c o .copy l with dests := dests }) ((Tmpl.ofBytes l).route ≠ 1) (Tmpl.ofBytes l).src = (.inl a, s2))
    (hd : s2.readHdr (s.byCmd { baseCmd c o .copy l with dests := dests }) ((Tmpl.ofBytes l).route ≠ 0 && (Tmpl.ofBytes l).kind ≠ 2) (Tmpl.ofBytes l).dst = (.inl d, s3))
    (hplan : Cmd.plan { baseCmd c o .copy l with dests := dests, tmpl := l ++ a ++ d } c.padS = .inr pl)
    (hnamed : farOf (pl.named (Tmpl.ofBytes l) (Cmd.dstHdr { baseCmd c o .copy l with dests := dests, tmpl := l ++ a ++ d })) = none)
    (hpin : s3.pinRegion { baseCmd c o .copy l with dests := dests, tmpl := l ++ a ++ d } (Tmpl.ofBytes l) = some (0, s4)) :
    s.acceptCopy c t o l = s4.takeCmd t o (Cmd.withReads { baseCmd c o .copy l with dests := dests, tmpl := l ++ a ++ d } pl) := by
  have hbad : (!Tmpl.ok l c.padS || (dwAsrc o.data && decide ((Tmpl.ofBytes l).route ≠ 2)) || (dwArr o.data && !(Tmpl.ofBytes l).tben)
      || (o.sid == .gaffer && decide ((Tmpl.ofBytes l).route = 2) && (Tmpl.ofBytes l).tben)) = false := by
    simp only [hok, Bool.not_true, Bool.false_or, Bool.or_eq_false_iff, Bool.and_eq_false_imp, Bool.and_eq_true, beq_iff_eq, decide_eq_true_eq, decide_eq_false_iff_not, Bool.not_eq_false',
      not_not, and_imp]
    exact ⟨⟨hsrc, harr⟩, hgaf⟩
  rw [State.acceptCopy]
  simp only [hdests, hbad, hacq, hfar, ha, hd, hplan, hnamed, hpin, Bool.not_true, Bool.false_eq_true, if_false, ne_eq, not_true_eq_false]
  rfl

theorem State.endChan_head (s : State) (die cluster chan tmpl ecode : Nat) (flags : BitVec 7) (secure : Bool) :
    (s.endChan die cluster chan tmpl ecode flags secure).chans.head? = some
      { die := die, cluster := cluster, chan := chan, fin := ((s.chans.find? fun h => h.die == die && h.cluster == cluster && h.chan == chan).map Chan.fin).getD 0 + 1,
        tmpl := tmpl, ecode := ecode, err := decide (ecode ≠ 0), flags := flags, secure := secure } := rfl

/-- Settles O46. -/
theorem copyCommands : Obligations.CopyCommands := by
  unfold Obligations.CopyCommands
  refine ⟨fun s c sid t o l s1 hc ht hcrew hsid ho hlow hroom hentry hcount hfree htt hword hl => ?_, fun s k w r a m v t hk hws hdone hr hcells hkind ht => ?_,
    fun s k hk hdone hplan hreads hrel hecode hkind hsent harr => ?_⟩
  · have hexec := exec_copyAccept hc ht ho hlow hroom hcount hfree htt hword hl
    intro takes
    have htakes {s2 : State} {k : Cmd} {h : Cmd → Prop} (hgo : (if dwColl o.data then s1.acceptColl c t o l else s1.acceptCopy c t o l) = s2.takeCmd t o k)
        (hk : k.data = o.data ∧ k.lane = o.lane ∧ k.chan = o.chan) (hh : ∀ i n, h { k with id := i, entry := n }) : takes s2 h := by
      obtain ⟨hmem, hregs, ⟨i, n, hcmds⟩, hoffers⟩ := s2.takeCmd_spec t o k
      obtain ⟨hdata, hlane, hchan⟩ := hk
      rw [hcrew, hsid] at hoffers
      exact ⟨_, _, hexec.trans (congrArg _ hgo), hmem, hregs, hcmds, hdata, hlane, hchan, hh i n, hoffers⟩
    refine ⟨fun r ms hcoll hgroup hok hroot hacq => ?_, ?_⟩
    · exact htakes (s2 := s1.numbered c (Coll.ofBytes l).group) ((if_pos hcoll).trans (State.acceptColl_ok hgroup hok hroot hacq)) ⟨rfl, rfl, rfl⟩ fun i n => ⟨rfl, rfl, rfl, rfl, rfl⟩
    · intro tm dests a d s2 s3 pl s4 hcoll hdests hok hasrc harr hgaf hacq k0 hfar hsrc hdst k1 hplan hnamed hpin
      obtain ⟨hdata, hlane, hchan, hkind, hkdests, htmpl⟩ := k1.withReads_keeps pl
      subst hsid
      refine htakes ((if_neg (by simp [hcoll])).trans (State.acceptCopy_ok hdests hok hasrc harr hgaf hacq hfar hsrc hdst hplan hnamed hpin)) ⟨hdata, hlane, hchan⟩
        fun i n => ⟨hkind, hkdests, htmpl, fun hreads => ?_⟩
      rw [Cmd.withReads_of_ne hreads]
      exact ⟨rfl, rfl⟩
  · have hpad : ((s.modTeam k.crew r fun t => { t.setPad a [maskByte ((t.padBytes a 1).headD 0) m v] with padBad := t.padBad.filter (· ≠ a) }).team? k.crew r)
        = some { t.setPad a [maskByte ((t.padBytes a 1).headD 0) m v] with padBad := t.padBad.filter (· ≠ a) } := by
      simpa only [Option.map_id_fun', id, ht, Option.map_some] using s.team_modTeam k.crew r
        (fun t => { t.setPad a [maskByte ((t.padBytes a 1).headD 0) m v] with padBad := t.padBad.filter (· ≠ a) }) (fun t => t)
    refine ⟨_, _, { k with writes := k.writes.erase w }, exec_engineScratchWrite hk hws hdone hr hcells hkind, rfl, rfl, hpad, ?_, rfl, ?_, rfl⟩
    · simp only [Team.setPad, maskByte]
    · rw [State.cmd?_modCmd_same _ _ (by exact fun _ => rfl)]
      exact congrArg (Option.map _) hk
  · intro old
    have hcopies := s.copies_sendWrites k k.sid
    have hchans : (s.sendWrites k).chans = s.chans := congrArg Prod.fst hcopies
    set v := (s.sendWrites k).endChan k.die k.cluster k.chan (dwTmpl k.data) 0 k.flags k.secure with hv
    set w := if k.writes.isEmpty then { v with cmds := v.cmds.filter fun x => x.id != k.id } else v.modCmd k.id fun k => { k with done := true, told := k.ecode ≠ 0 } with hw
    have hcmd : v.cmd? k.id = some k := hsent
    have hwchans : w.chans = v.chans := by rw [hw]; split <;> rfl
    have hwcrews : w.crews = (s.sendWrites k).crews := by rw [hw]; split <;> rfl
    obtain ⟨hcchans, hccmds⟩ := w.complete_copied k.crew k.sid k.entry (1#32 <<< k.lane)
    refine ⟨_, exec_copyComplete hk hdone hplan hreads hrel hecode hkind hsent harr, ?_, ?_, fun t e ht he hun => ?_⟩
    · have hthis : (w.complete k.crew k.sid k.entry (1#32 <<< k.lane)).cmd? k.id = w.cmd? k.id := by rw [State.cmd?, hccmds, State.cmd?]
      rw [hthis, hw]
      by_cases hempty : k.writes = []
      · simp only [hempty, List.isEmpty_nil, if_true]
        exact List.find?_eq_none.2 fun x hx => by simpa using (List.mem_filter.1 hx).2
      · rw [if_neg (by simpa using hempty), if_neg hempty, State.cmd?_modCmd_same _ _ (by exact fun _ => rfl), hcmd]
        simp [hecode]
    · rw [hcchans, hwchans, hv, State.endChan_head, hchans]
      rfl
    · have hstrand := congrArg Prod.snd hcopies
      simp only [State.copies, ht, Option.map_some, Option.map_eq_some_iff] at hstrand
      obtain ⟨t'', ht'', hsame⟩ := hstrand
      simp only [Strand.copies, Prod.mk.injEq] at hsame
      obtain ⟨hcp, hlog⟩ := hsame
      have hwt : w.strand? k.crew k.sid = some t'' := (State.strand?_congr hwcrews _ _).trans ht''
      have hwe : w.entry? k.crew k.sid k.entry = some e := by
        rw [State.entry?, hwt, Option.bind_some, hlog, ← he, State.entry?, ht, Option.bind_some]
      refine ⟨_, State.complete_last hwt hwe hun, ?_, fun x hx => ?_⟩
      · exact congrArg (· - e.cnt.cp) hcp
      · simpa using (List.mem_filter.1 hx).2

end Sys2Proof.Machine
end


section
/-! Obligation O40, which an entry number that is in use refutes. -/

namespace Sys2Proof.Machine

/-- Where the teams of a crew stand in the order of their ranks, each stream of the crew is listed. -/
theorem Crew.mem_sids {c : Crew} (hranks : ∀ (r : Nat) (tm : Team), c.teams[r]? = some tm → tm.rank = r) {sid : Sid} {t : Strand} (h : c.strand? sid = some t) : sid ∈ c.sids := by
  cases sid with
  | gaffer => simp only [Crew.strand?] at h; simp [Crew.sids, h]
  | wave r w =>
    obtain ⟨tm, htm, hw⟩ := Option.bind_eq_some_iff.1 h
    have hlt : w < tm.waves.length := (List.getElem?_eq_some_iff.1 hw).1
    simp only [Crew.sids, List.mem_append]
    refine .inl (.inl (List.mem_flatten.2 ⟨_, List.mem_map.2 ⟨tm, List.mem_of_getElem? htm, rfl⟩, ?_⟩))
    exact List.mem_map.2 ⟨w, List.mem_range.2 hlt, by rw [hranks r tm htm]⟩
  | producer r =>
    obtain ⟨tm, htm, hp⟩ := Option.bind_eq_some_iff.1 h
    simp only [Crew.sids, List.mem_append]
    refine .inr (List.mem_map.2 ⟨tm, List.mem_filter.2 ⟨List.mem_of_getElem? htm, by rw [hp]; rfl⟩, by rw [hranks r tm htm]⟩)

/-! ### A match (R269, R270) -/

/-- The one team of a crew issues a rotation, whose entry takes a number that an older copy of its second lane has. -/
def rotationInUse : State :=
  Tests.withStrand (fun t => { t with log := [{ Tests.olderLoad with id := (Tests.issuing Tests.rrot0).ids, lanes := 2, cnt := ⟨0, 0, 1, 0⟩ }] }) (Tests.issuing Tests.rrot0)

/-- The counter of copies of a stream after an outcome. -/
def copiesAfter (o : Host.Outcome State Fault Refusal) (crew : Nat) (sid : Sid) : Option Nat :=
  match o with
  | .next u => (u.strand? crew sid).map Strand.cp
  | _ => none

theorem rotation_counts_nothing : copiesAfter (exec Tests.rrot0 rotationInUse) 0 (.wave 0 0) = some 0 := by decide +kernel

/-- No path of a stream waits at a boundary or for a match. -/
def Strand.noRotation (t : Strand) : Bool :=
  t.paths.all fun q => (q.wait == .none || q.clause.isSome) && match q.wait with | .rrot _ => false | _ => true

/-- Refutes O40: the counter of copies falls again with the match, since the entry whose lanes end is the older copy's. -/
theorem not_ringRotation : ¬ Obligations.RingRotation := by
  unfold Obligations.RingRotation
  intro h
  obtain ⟨c, hI, hP⟩ := Tests.issues_of_meets (s := rotationInUse) (i := Tests.rrot0) (P := fun c => c.id == 0 && wordOf c.word == Tests.rrot0 && c.sid == .wave 0 0
    && c.path.wait == .none && c.act != 0 && c.t.cp == 0 && c.t.canRaise ⟨0, 0, 1, 0⟩ && (match c.crew.teams with | [t] => t.rank == 0 && !t.padLost 0 64 | _ => false)
    && c.crew.sids.all (fun d => (c.crew.strand? d).all Strand.noRotation) && c.ls.all (fun l => c.rd .n32 (.k 0) l == 0 && c.rd .n32 (.k 32) l == 32) && decide (32 + 64 ≤ c.crew.padS)) (by decide +kernel)
  simp only [Bool.and_eq_true, beq_iff_eq, bne_iff_ne, ne_eq, decide_eq_true_eq] at hP
  obtain ⟨⟨⟨⟨⟨⟨⟨⟨⟨⟨hid, hword⟩, hsid⟩, hwait⟩, hact⟩, hcp⟩, hraise⟩, hteams⟩, hquiet⟩, hlanes⟩, hpad⟩ := hP
  split at hteams
  next t ht =>
    simp only [Bool.and_eq_true, beq_iff_eq, Bool.not_eq_true'] at hteams
    obtain ⟨hrank, hlost⟩ := hteams
    have hranks (r : Nat) (tm : Team) (htm : c.crew.teams[r]? = some tm) : tm.rank = r := by
      rw [ht] at htm
      obtain ⟨rfl, rfl⟩ : r = 0 ∧ tm = t := by simpa [List.getElem?_singleton, eq_comm] using htm
      exact hrank
    have hpaths (d : Sid) (u : Strand) (hu : c.crew.strand? d = some u) (q : Path) (hq : q ∈ u.paths) : (q.wait = .none ∨ q.clause ≠ none) ∧ ∀ j, q.wait ≠ .rrot j := by
      have hd := List.all_eq_true.1 hquiet d (Crew.mem_sids hranks hu)
      rw [hu, Option.all_some, Strand.noRotation, List.all_eq_true] at hd
      have hq := hd q hq
      simp only [Bool.and_eq_true, Bool.or_eq_true, beq_iff_eq, Option.isSome_iff_ne_none] at hq
      refine ⟨hq.1, fun j hj => ?_⟩
      rw [hj] at hq
      exact Bool.noConfusion hq.2
    obtain ⟨u, k, v, hu, -, -, -, -, -, -, -, -, hv, hvcp⟩ := h.2.1 rotationInUse c Tests.p0 true (.k 0) (.k 32) 1 t 0 0 32 hI hword ht hrank hsid hwait hact hpaths
      (fun l hl => by simpa using List.all_eq_true.1 hlanes l (Ctx.mem_ls.2 hl)) (by decide) (by decide) ((by decide : 0 + 32 * ((1#12).toNat + 1) ≤ 32 + 64).trans hpad) hpad hlost hraise
    have hnone := rotation_counts_nothing
    rw [hid, hsid] at hv
    rw [show exec Tests.rrot0 rotationInUse = .next u from hu, copiesAfter, hv, Option.map_some, hvcp, hcp] at hnone
    exact absurd hnone (by decide)
  next => exact absurd hteams (by decide)

end Sys2Proof.Machine
end


section
/-! Obligation O37: reservation records, and the staging and claiming of steps. -/

namespace Sys2Proof.Machine

/-! ### What a team holds besides its streams -/

/-- A team without its streams. -/
def Team.atRest (t : Team) : Team := { t with waves := [], producer := none }

/-- A team without its streams, in a state. -/
def State.restTeam (s : State) (k r : Nat) : Option Team := (s.team? k r).map Team.atRest

theorem State.restTeam_still (s : State) (k r : Nat) : s.still.restTeam k r = s.restTeam k r := by
  have hcrew : s.still.crew? k = (s.crew? k).map (Crew.eachStrand Strand.still) := by
    simp only [State.crew?, State.still, List.find?_map]
    rfl
  rw [State.restTeam, State.team?, hcrew, State.restTeam, State.team?]
  cases s.crew? k with
  | none => rfl
  | some c =>
    simp only [Option.map_some, Option.bind_some, Crew.eachStrand, List.getElem?_map, Option.map_map]
    rfl

/-- The progress of streams changes nothing of a team besides them. -/
theorem State.restTeam_of_still {s u : State} (h : u.still = s.still) (k r : Nat) : u.restTeam k r = s.restTeam k r := by
  rw [← u.restTeam_still, h, s.restTeam_still]

theorem State.restTeam_modStrand (s : State) (k r : Nat) (crew : Nat) (sid : Sid) (f : Strand → Strand) :
    (s.modStrand crew sid f).restTeam k r = s.restTeam k r := by
  by_cases hk : k = crew
  · subst hk
    rw [State.modStrand]
    refine State.team_modCrew s k r (f := fun c => c.modStrand sid f) (fun c => by cases sid <;> rfl) fun c => ?_
    have hmod (i : Nat) (h : Team → Team) (hh : ∀ tm, (h tm).atRest = tm.atRest) : ((c.modTeam i h).teams[r]?).map Team.atRest = (c.teams[r]?).map Team.atRest := by
      rw [Crew.modTeam_teams, List.getElem?_modify]
      cases c.teams[r]? with
      | none => rfl
      | some tm =>
        by_cases hi : i = r
        · simp [hi, hh]
        · simp [hi]
    cases sid with
    | gaffer => rfl
    | wave i w => exact hmod i _ fun _ => rfl
    | producer i => exact hmod i _ fun _ => rfl
  · rw [State.restTeam, State.team?, State.modStrand, State.crew?_modCrew_ne s hk (f := fun c => c.modStrand sid f) (fun c => by cases sid <;> rfl), State.restTeam, State.team?]

theorem State.restTeam_modT (s : State) (c : Ctx) (k r : Nat) (f : Strand → Strand) : (c.modT s f).restTeam k r = s.restTeam k r :=
  s.restTeam_modStrand k r c.id c.sid f

/-- A change of a team besides its streams. -/
theorem State.restTeam_modTeam (s : State) (k r : Nat) {f : Team → Team} (hf : ∀ t, (f t).atRest = f t.atRest) :
    (s.modTeam k r f).restTeam k r = (s.restTeam k r).map f := by
  rw [State.restTeam, State.team_modTeam, State.restTeam, Option.map_map]
  exact congrArg (Option.map · (s.team? k r)) (funext hf)

theorem State.team?_of_restTeam {s : State} {k r : Nat} {x : Team} (h : s.restTeam k r = some x) : ∃ y, s.team? k r = some y ∧ y.atRest = x :=
  Option.map_eq_some_iff.1 h

/-- The team of a core, in the state in which a word issues. -/
theorem Issues.restTeam {i : Instr} {s : State} {c : Ctx} (h : Issues s i c) {core : BitVec 2} {t : Team} (ht : c.teamOf core = some t) :
    s.restTeam c.id core.toNat = some t.atRest := by
  obtain ⟨-, -, hcrew, -⟩ := ctx_eq h.slot
  rw [State.restTeam, State.team?, hcrew, Option.bind_some, show c.crew.teams[core.toNat]? = some t from ht]
  rfl

/-! ### Claims (R180) -/

/-- A step of a record that no operation has claimed. -/
def Staged.unclaimed (r : Nat) (x : Staged) : Bool := x.res == r && x.op.isNone

theorem Team.queue_eq (t : Team) (r : Nat) : t.queue r = t.steps.filter (Staged.unclaimed r) := rfl

theorem claim_cons (op res n : Nat) (x : Staged) (l : List Staged) :
    claim op res (n + 1) (x :: l) = if x.unclaimed res = true then { x with op := some op } :: claim op res n l else x :: claim op res (n + 1) l := rfl

/-- The unclaimed steps of a record that a claim leaves: all but the first. -/
theorem filter_claim_same (op res n : Nat) (l : List Staged) : (claim op res n l).filter (Staged.unclaimed res) = (l.filter (Staged.unclaimed res)).drop n := by
  induction l generalizing n with
  | nil => cases n <;> rfl
  | cons x l ih =>
    cases n with
    | zero => rfl
    | succ n =>
      rw [claim_cons]
      by_cases hx : x.unclaimed res = true
      · rw [if_pos hx, List.filter_cons_of_pos hx, List.drop_succ_cons, List.filter_cons_of_neg (by simp [Staged.unclaimed]), ih]
      · rw [if_neg hx, List.filter_cons_of_neg hx, List.filter_cons_of_neg hx, ih]

/-- A claim of one record leaves the steps of the others. -/
theorem filter_claim_ne {res r : Nat} (hr : r ≠ res) (op n : Nat) (l : List Staged) : (claim op res n l).filter (Staged.unclaimed r) = l.filter (Staged.unclaimed r) := by
  induction l generalizing n with
  | nil => cases n <;> rfl
  | cons x l ih =>
    cases n with
    | zero => rfl
    | succ n =>
      rw [claim_cons]
      by_cases hx : x.unclaimed res = true
      · have hres : x.res = res := by simpa using (Bool.and_eq_true_iff.1 hx).1
        rw [if_pos hx, List.filter_cons_of_neg (by simp [Staged.unclaimed]), List.filter_cons_of_neg (by simp [Staged.unclaimed, hres, hr.symm]), ih]
      · rw [if_neg hx, List.filter_cons, List.filter_cons, ih]

/-- What a team's queues are after it has been claimed from for an operation. -/
theorem queue_claims {ra rb : Nat} (h : ra ≠ rb) (op n : Nat) (l : List Staged) :
    (claim op rb n (claim op ra n l)).filter (Staged.unclaimed ra) = (l.filter (Staged.unclaimed ra)).drop n
      ∧ (claim op rb n (claim op ra n l)).filter (Staged.unclaimed rb) = (l.filter (Staged.unclaimed rb)).drop n :=
  ⟨by rw [filter_claim_ne h, filter_claim_same], by rw [filter_claim_same, filter_claim_ne h.symm]⟩

/-! ### Words of a tile that are accepted (R175) -/

/-- An accepted word of a tile: its effect on a team besides the streams, its stream's counters raised. -/
theorem Issues.accepted {i : Instr} {s : State} {c : Ctx} (h : Issues s i c) {body : Ctx → Out} {k : Counts} {f : Nat → State → State} {core : BitVec 2} {t : Team}
    {g : Team → Team} {F : List Fetch → List Fetch} (ht : c.teamOf core = some t) (hk : c.t.canRaise { k with tl := 1 } = true) (hb : body c = c.tileAccept k f)
    (hmem : ∀ v, (f s.ids v).mem = v.mem) (hregs : ∀ v, (f s.ids v).regs = v.regs) (hfetch : ∀ v, (f s.ids v).fetches = F v.fetches)
    (hstrand : ∀ v, (f s.ids v).strand? c.id c.sid = v.strand? c.id c.sid)
    (hteam : ∀ v, v.ids = s.ids + 1 → (f s.ids v).restTeam c.id core.toNat = (v.restTeam c.id core.toNat).map g) :
    ∃ u x q, word i s body = .next u ∧ u.mem = s.mem ∧ u.regs = s.regs ∧ u.team? c.id core.toNat = some x ∧ u.fetches = F s.fetches
      ∧ u.strand? c.id c.sid = some q ∧ q.tl = c.t.tl + 1 ∧ x.atRest = g t.atRest := by
  obtain ⟨hs0, -, -, hst, -⟩ := ctx_eq h.slot
  set v := c.modT { s with ids := s.ids + 1 } fun t => t.raise { k with tl := 1 } with hv
  have hdone : body c = .done (f s.ids v) := by
    rw [hb, Ctx.tileAccept]
    simp only [hk, Bool.not_true, Bool.false_eq_true, if_false, hs0]
    rfl
  obtain ⟨u, hu, hstill⟩ := word_done h hdone
  have hvt : v.strand? c.id c.sid = some (c.t.raise { k with tl := 1 }) := c.strand?_modT (s := { s with ids := s.ids + 1 }) hst _
  have hvr : v.restTeam c.id core.toNat = some t.atRest := by
    rw [hv, State.restTeam_modT]
    exact h.restTeam ht
  obtain ⟨q, hq, hsame⟩ := strand?_of_still hstill ((hstrand v).trans hvt)
  have hur : u.restTeam c.id core.toNat = some (g t.atRest) := by rw [State.restTeam_of_still hstill, hteam v rfl, hvr]; rfl
  obtain ⟨x, hx, hxr⟩ := State.team?_of_restTeam hur
  exact ⟨u, x, q, hu, (congrArg State.mem hstill :).trans (hmem v), (congrArg State.regs hstill :).trans (hregs v), hx,
    (congrArg State.fetches hstill :).trans (hfetch v), hq, (congrArg Strand.tl hsame :), hxr⟩

/-- The operation that an accepted `TMMA` adds to its tile's order (R175). -/
def Ctx.mmaOp (c : Ctx) (id : Nat) (tile : BitVec 4) (n : Nat) (a b : BitVec 128) (lehr bnd : Bool) : TileOp :=
  { id := id, word := c.word, tile := tile.toNat, ga := 0, inH := c.inH,
    mma := some { n := n, recA := a, recB := b, lehr := lehr, bnd := bnd, depth := 0, colg := 0, wide := false, restarted := false, bound0 := 0,
                  started := false, trapped := false } }

/-- What a `TMMA` does that passes its checks. -/
def mmaBody (core : BitVec 2) (tile : BitVec 4) (ra rb : BitVec 5) (n : BitVec 8) (lehr zi bnd : Bool) (c : Ctx) : Out :=
  match c.teamOf core with
  | none => .done c.s0
  | some t =>
    let k := Ctx.stepsOf n
    let a := t.recs.getD ra.toNat 0
    let b := t.recs.getD rb.toNat 0
    let bad := ra == rb || !recValid (tileCount t.slots) a || !recValid (tileCount t.slots) b || !recsPair a b || recSeed a ≠ recSeed b
      || (t.queue ra.toNat).length < k || (t.queue rb.toNat).length < k || (t.tile tile.toNat).susp.isSome || (t.fmtAt tile.toNat = 2 && !zi)
    if c.act = 0 then .done c.s0
    else if t.nowOn tile.toNat then .stall
    else if bad then c.tileFault [(3, 0)]
    else c.tileAccept .none fun id s => s.modTeam c.id core.toNat fun t =>
      { t with steps := claim id rb.toNat k (claim id ra.toNat k t.steps), ops := t.ops ++ [c.mmaOp id tile k a b lehr bnd] }

theorem execTmma_eq (p : Pre) (core : BitVec 2) (tile : BitVec 4) (ra rb : BitVec 5) (n : BitVec 8) (lehr zi bnd w64 : Bool) (s : State) :
    exec (.tmma p core tile ra rb n lehr zi bnd w64) s = word (.tmma p core tile ra rb n lehr zi bnd w64) s (mmaBody core tile ra rb n lehr zi bnd) := rfl

theorem mmaBody_ok {c : Ctx} {core : BitVec 2} {t : Team} {tile : BitVec 4} {ra rb : BitVec 5} {nf : BitVec 8} (lehr : Bool) {zi : Bool} (bnd : Bool) (htm : c.teamOf core = some t)
    (hact : c.act ≠ 0) (hnow : t.nowOn tile.toNat = false) (hne : ra ≠ rb) (hva : recValid (tileCount t.slots) (t.recs.getD ra.toNat 0) = true)
    (hvb : recValid (tileCount t.slots) (t.recs.getD rb.toNat 0) = true) (hpair : recsPair (t.recs.getD ra.toNat 0) (t.recs.getD rb.toNat 0) = true)
    (hseed : recSeed (t.recs.getD ra.toNat 0) = recSeed (t.recs.getD rb.toNat 0)) (hla : Ctx.stepsOf nf ≤ (t.queue ra.toNat).length)
    (hlb : Ctx.stepsOf nf ≤ (t.queue rb.toNat).length) (hsusp : (t.tile tile.toNat).susp = none) (hfmt : t.fmtAt tile.toNat = 2 → zi = true) :
    mmaBody core tile ra rb nf lehr zi bnd c = c.tileAccept .none fun id s => s.modTeam c.id core.toNat fun x =>
      { x with steps := claim id rb.toNat (Ctx.stepsOf nf) (claim id ra.toNat (Ctx.stepsOf nf) x.steps),
               ops := x.ops ++ [c.mmaOp id tile (Ctx.stepsOf nf) (t.recs.getD ra.toNat 0) (t.recs.getD rb.toNat 0) lehr bnd] } := by
  have hf : (decide (t.fmtAt tile.toNat = 2) && !zi) = false := by
    cases zi <;> simp_all
  simp only [mmaBody, htm, if_neg hact, hnow, hva, hvb, hpair, hseed, hsusp, hf, beq_eq_false_iff_ne.2 hne, Nat.not_lt.2 hla, Nat.not_lt.2 hlb, Option.isSome_none, Bool.not_true, Bool.or_self,
    ne_eq, not_true_eq_false, decide_false, Bool.false_eq_true, if_false]

/-- What the staging of steps leaves (R178, R179). -/
def Ctx.staged (c : Ctx) (tlds : Bool) (core : BitVec 2) (rec_ : BitVec 128) (g : List Word) (res n id : Nat) (s : State) : State :=
  let s := { s with ids := s.ids + n, fetches := s.fetches ++ [(⟨id, c.id, core.toNat, res, c.inH, true⟩ : Fetch)] }
  s.modTeam c.id core.toNat fun t => { t with steps := t.steps ++ Ctx.newSteps rec_ res tlds g id (s.ids - n) n 0 none }

theorem Ctx.strand?_staged (c : Ctx) (tlds : Bool) (core : BitVec 2) (rec_ : BitVec 128) (g : List Word) (res n id : Nat) (s : State) (sid : Sid) :
    (c.staged tlds core rec_ g res n id s).strand? c.id sid = s.strand? c.id sid :=
  (State.strand?_modTeam _ _ _ (by exact fun _ => rfl) (by exact fun _ => rfl) _).trans rfl

theorem Ctx.restTeam_staged (c : Ctx) (tlds : Bool) (core : BitVec 2) (rec_ : BitVec 128) (g : List Word) (res n id : Nat) (s : State) :
    (c.staged tlds core rec_ g res n id s).restTeam c.id core.toNat
      = (s.restTeam c.id core.toNat).map fun t => { t with steps := t.steps ++ Ctx.newSteps rec_ res tlds g id s.ids n 0 none } := by
  refine (State.restTeam_modTeam _ _ _ (by exact fun _ => rfl)).trans ?_
  simp only [Nat.add_sub_cancel]
  rfl

/-- The registers of a group of four. -/
def Ctx.groupOf (c : Ctx) (grp : BitVec 4) : List Word := (List.range 4).map fun i => c.gReg (4 * grp.toNat + i)

/-- Cause 7 where a value is not a multiple. -/
def misaligns (v m : Nat) : List (Nat × Nat) := if v % m ≠ 0 then [(7, v)] else []

theorem misaligns_nil {v m : Nat} (h : v % m = 0) : misaligns v m = [] := by simp [misaligns, h]

/-- The groups of a record of steps are aligned (R178). -/
structure StepsAligned (rec_ : BitVec 128) (w : Nat → Word) : Prop where
  base : (w 0).toNat % 128 = 0
  outer : wfld (w 1) 0 32 % 128 = 0
  inner : wfld (w 1) 32 32 % 128 = 0
  block : recBlk rec_ = true → (w 2).toNat % (recK rec_ / 32) = 0 ∧ wfld (w 3) 0 32 % (recK rec_ / 32) = 0 ∧ wfld (w 3) 32 32 % (recK rec_ / 32) = 0

def alignFaults (rec_ : BitVec 128) (w : Nat → Word) : List (Nat × Nat) :=
  misaligns (w 0).toNat 128 ++ misaligns (wfld (w 1) 0 32) 128 ++ misaligns (wfld (w 1) 32 32) 128
    ++ if recBlk rec_ then misaligns (w 2).toNat (recK rec_ / 32) ++ misaligns (wfld (w 3) 0 32) (recK rec_ / 32) ++ misaligns (wfld (w 3) 32 32) (recK rec_ / 32) else []

theorem StepsAligned.faults_nil {rec_ : BitVec 128} {w : Nat → Word} (h : StepsAligned rec_ w) : alignFaults rec_ w = [] := by
  rw [alignFaults, misaligns_nil h.base, misaligns_nil h.outer, misaligns_nil h.inner]
  by_cases hb : recBlk rec_ = true
  · obtain ⟨h2, h3, h4⟩ := h.block hb
    rw [if_pos hb, misaligns_nil h2, misaligns_nil h3, misaligns_nil h4]
    rfl
  · rw [if_neg hb]
    rfl

/-- The bytes that staged steps name are in range (R178). -/
def rangeFaults (c : Ctx) (tlds : Bool) (rec_ : BitVec 128) (g : List Word) (n : Nat) : List (Nat × Nat) :=
  if tlds then (((List.range n).map (stepSpans rec_ g)).flatten.filter fun x => c.crew.padS < x.1 + x.2).map (fun x => (6, x.1))
  else ((if tlds then [] else wordLines rec_ g (List.range n)).filter fun v => inBlockAperture (BitVec.ofNat 64 (v * 128))).map fun v => (6, v * 128)

theorem stage_eq {c : Ctx} {tlds : Bool} {sc : Scope} {core : BitVec 2} {grp : BitVec 4} {r : BitVec 5} {nf : BitVec 8} {t : Team} (htm : c.teamOf core = some t) :
    c.stage tlds sc core grp r nf =
      let l := (if tlds then [] else wordLines (t.recs.getD r.toNat 0) (c.groupOf grp) (List.range (Ctx.stepsOf nf))).length
      let three := !recValid (tileCount t.slots) (t.recs.getD r.toNat 0) || (t.queue r.toNat).any (fun x => x.tlds != tlds) || (t.queue r.toNat).length + Ctx.stepsOf nf > 256
        || (!tlds && t.quotaU + l > t.quota)
      let fs := (if three then [(3, 0)] else []) ++ rangeFaults c tlds (t.recs.getD r.toNat 0) (c.groupOf grp) (Ctx.stepsOf nf)
        ++ alignFaults (t.recs.getD r.toNat 0) fun i => c.gReg (4 * grp.toNat + i)
      if c.act = 0 then .done c.s0
      else if !fs.isEmpty then c.tileFault fs
      else if (!tlds && t.quotaU + t.quotaH + l > t.quota) || !c.s0.released c.crew c.t false c.act none sc then .stall
      else c.tileAccept .none (c.staged tlds core (t.recs.getD r.toNat 0) (c.groupOf grp) r.toNat (Ctx.stepsOf nf)) := by
  rw [Ctx.stage, htm]
  cases tlds <;> rfl

theorem stage_ok {c : Ctx} {tlds : Bool} {sc : Scope} {core : BitVec 2} {grp : BitVec 4} {r : BitVec 5} {nf : BitVec 8} {t : Team} (htm : c.teamOf core = some t) (hact : c.act ≠ 0)
    (hvalid : recValid (tileCount t.slots) (t.recs.getD r.toNat 0) = true) (hlen : (t.queue r.toNat).length + Ctx.stepsOf nf ≤ 256)
    (hrel : c.s0.released c.crew c.t false c.act none sc = true) (halign : StepsAligned (t.recs.getD r.toNat 0) fun i => c.gReg (4 * grp.toNat + i))
    (hsame : ∀ x ∈ t.queue r.toNat, x.tlds = tlds) (hrange : rangeFaults c tlds (t.recs.getD r.toNat 0) (c.groupOf grp) (Ctx.stepsOf nf) = [])
    (hquota : tlds = false → t.quotaU + t.quotaH + (wordLines (t.recs.getD r.toNat 0) (c.groupOf grp) (List.range (Ctx.stepsOf nf))).length ≤ t.quota) :
    c.stage tlds sc core grp r nf = c.tileAccept .none (c.staged tlds core (t.recs.getD r.toNat 0) (c.groupOf grp) r.toNat (Ctx.stepsOf nf)) := by
  have hany : ((t.queue r.toNat).any fun x => x.tlds != tlds) = false := List.any_eq_false.2 fun x hx => by simp [hsame x hx]
  have hlen' : ¬256 < (t.queue r.toNat).length + Ctx.stepsOf nf := by omega
  have hq (a : Nat) (ha : a = t.quotaU ∨ a = t.quotaU + t.quotaH) : (!tlds && decide (t.quota < a + (if tlds then [] else wordLines (t.recs.getD r.toNat 0) (c.groupOf grp)
      (List.range (Ctx.stepsOf nf))).length)) = false := by
    cases tlds with
    | true => rfl
    | false =>
      have := hquota rfl
      simp only [Bool.not_false, Bool.true_and, Bool.false_eq_true, if_false, decide_eq_false_iff_not]
      omega
  rw [stage_eq htm]
  simp only [hvalid, hany, hlen', hrange, halign.faults_nil, hrel, gt_iff_lt, hq _ (.inl rfl), hq _ (.inr rfl), if_neg hact, Bool.not_true, decide_false, Bool.or_self,
    Bool.false_eq_true, if_false, List.append_nil, List.isEmpty_nil]

/-- Staged steps join the team's, and the staging command stands until they have their data. -/
theorem Issues.stages {i : Instr} {s : State} {c : Ctx} (h : Issues s i c) {tlds : Bool} {sc : Scope} {core : BitVec 2} {grp : BitVec 4} {r : BitVec 5} {nf : BitVec 8} {t : Team}
    (htm : c.teamOf core = some t) (hone : c.t.canRaise ⟨0, 0, 0, 1⟩ = true)
    (hok : c.stage tlds sc core grp r nf = c.tileAccept .none (c.staged tlds core (t.recs.getD r.toNat 0) (c.groupOf grp) r.toNat (Ctx.stepsOf nf))) :
    ∃ u x q id id0, word i s (fun c => c.stage tlds sc core grp r nf) = .next u ∧ (u.mem = s.mem ∧ u.regs = s.regs ∧ u.team? c.id core.toNat = some x)
      ∧ u.strand? c.id c.sid = some q ∧ q.tl = c.t.tl + 1
      ∧ x.steps = t.steps ++ Ctx.newSteps (t.recs.getD r.toNat 0) r.toNat tlds (c.groupOf grp) id id0 (Ctx.stepsOf nf) 0 none
      ∧ u.fetches = s.fetches ++ [⟨id, c.id, core.toNat, r.toNat, c.inH, true⟩] := by
  obtain ⟨u, x, q, hu, hmem, hregs, hx, hfetch, hq, htl, hrest⟩ := h.accepted (body := fun c => c.stage tlds sc core grp r nf) (core := core) (k := .none) (F := fun l => l ++ [⟨s.ids, c.id, core.toNat, r.toNat, c.inH, true⟩])
    (g := fun x => { x with steps := x.steps ++ Ctx.newSteps (t.recs.getD r.toNat 0) r.toNat tlds (c.groupOf grp) s.ids (s.ids + 1) (Ctx.stepsOf nf) 0 none }) htm hone hok
    (fun _ => rfl) (fun _ => rfl) (fun _ => rfl) (fun v => c.strand?_staged ..) fun v hv => (c.restTeam_staged ..).trans (by rw [hv])
  exact ⟨u, x, q, s.ids, s.ids + 1, hu, ⟨hmem, hregs, hx⟩, hq, htl, (congrArg Team.steps hrest :), hfetch⟩

/-- What a `TRES` leaves (R172): the record, and none of its unclaimed steps. -/
def Team.reserve (t : Team) (r : Nat) (gone : List Nat) (w : BitVec 128) : Team :=
  { t with recs := listSet t.recs r w, steps := t.steps.filter fun x => !gone.contains x.id }

/-- The state that an accepted `TRES` leaves. -/
def Ctx.reserved (c : Ctx) (t : Team) (r : Nat) (w : BitVec 128) (s : State) : State :=
  let gone := (t.queue r).map Staged.id
  let s := s.modTeam c.id c.rank fun t => t.reserve r gone w
  let s := { s with pins := s.pins.filter fun q => match q.holder with
    | .tile k r' st => !(k == c.id && r' == c.rank && gone.contains st)
    | _ => true }
  let left (f : Fetch) : Bool := t.steps.any fun x => x.fetch == f.id && !gone.contains x.id && x.data.isNone
  let over_ := s.fetches.filter fun f => f.crew == c.id && f.rank == c.rank && f.res == r && !left f
  let s := { s with fetches := s.fetches.filter fun f => !over_.contains f }
  s.modStrand c.id .gaffer fun t => t.lower ⟨0, 0, 0, (over_.filter Fetch.counted).length⟩

theorem Ctx.restTeam_reserved (c : Ctx) (t : Team) (r : Nat) (w : BitVec 128) (s : State) :
    (c.reserved t r w s).restTeam c.id c.rank = (s.restTeam c.id c.rank).map fun x => x.reserve r ((t.queue r).map Staged.id) w :=
  (State.restTeam_modStrand ..).trans (State.restTeam_modTeam s c.id c.rank (f := fun x => x.reserve r ((t.queue r).map Staged.id) w) fun _ => rfl)

theorem Team.queue_reserve (t : Team) (r : Nat) (w : BitVec 128) : (t.reserve r ((t.queue r).map Staged.id) w).queue r = [] := by
  rw [Team.queue_eq, Team.reserve, List.filter_filter, List.filter_eq_nil_iff]
  intro x hx h
  simp only [Bool.and_eq_true, Bool.not_eq_true', List.contains_eq_mem, decide_eq_false_iff_not] at h
  exact h.2 (List.mem_map_of_mem (List.mem_filter.2 ⟨hx, h.1⟩))

/-- A `TRES` whose guarded lanes give one valid record, where no operation of the team is Suspended. -/
theorem tres_ok {s : State} {c : Ctx} {t : Team} {p : Pre} {r : BitVec 5} {a b : Opd} (h : Issues s (.tres p r a b) c) (htm : c.team = some t) (hact : c.act ≠ 0)
    (hsusp : ∀ x ∈ t.tiles, x.susp = none) {w : BitVec 128} (hw : ∀ l, c.act.getLsbD l = true → BitVec.ofNat 128 (c.rd .n64 a l + c.rd .n64 b l * 2 ^ 64) = w)
    (hvalid : recValid (tileCount t.slots) w = true) : ∃ u, exec (.tres p r a b) s = .next u ∧ u.still = (c.reserved t r.toNat w s).still := by
  have hlow := hw _ (lowLane_of_ne_zero hact)
  have hbad : (c.ls.filter fun l => BitVec.ofNat 128 (c.rd .n64 a l + c.rd .n64 b l * 2 ^ 64) != w || !recValid (tileCount t.slots) (BitVec.ofNat 128 (c.rd .n64 a l + c.rd .n64 b l * 2 ^ 64)))
      = [] := List.filter_eq_nil_iff.2 fun l hl => by simp only [hw l (Ctx.mem_ls.1 hl), hvalid]; simp
  have hnone : (t.tiles.any fun x => x.susp.isSome) = false := List.any_eq_false.2 fun x hx => by simp [hsusp x hx]
  refine word_done h ?_
  simp only [htm, hlow, hbad, hnone, if_neg hact, List.contains_nil, Bool.false_eq_true, if_false, (ctx_eq h.slot).1]
  rfl

/-- Settles O37. -/
theorem tileStaging : Obligations.TileStaging := by
  unfold Obligations.TileStaging
  intro s c t p sc core grp tile r ra rb nf a b lehr zi bnd w64 hact n tiles mine one
  refine ⟨fun h htm hsusp w hw hvalid => ?_, ?_, ?_⟩
  · have hvalue (l : Nat) (hl : c.act.getLsbD l = true) : BitVec.ofNat 128 (c.rd .n64 a l + c.rd .n64 b l * 2 ^ 64) = w := by
      rw [hw l hl]
      apply BitVec.eq_of_toNat_eq
      have ha : c.rd .n64 a l < 2 ^ 64 := (c.read .n64 a l).isLt
      have hb : c.rd .n64 b l < 2 ^ 64 := (c.read .n64 b l).isLt
      rw [BitVec.toNat_ofNat, BitVec.toNat_append, ← Nat.shiftLeft_add_eq_or_of_lt (c.read .n64 a l).isLt, Nat.shiftLeft_eq, Nat.mod_eq_of_lt (by omega)]
      exact Nat.add_comm ..
    obtain ⟨u, hu, hstill⟩ := tres_ok h htm hact hsusp hvalue hvalid
    obtain ⟨-, -, hcrew, -⟩ := ctx_eq h.slot
    have hrest : u.restTeam c.id c.rank = some (t.atRest.reserve r.toNat ((t.queue r.toNat).map Staged.id) w) := by
      rw [State.restTeam_of_still hstill, Ctx.restTeam_reserved, State.restTeam, State.team?, hcrew, Option.bind_some, show c.crew.teams[c.rank]? = some t from htm]
      rfl
    obtain ⟨x, hx, hxr⟩ := State.team?_of_restTeam hrest
    refine ⟨u, x, hu, (congrArg State.mem hstill :), (congrArg State.regs hstill :), hx, (congrArg Team.recs hxr :), ?_, (congrArg Team.tiles hxr :)⟩
    exact (congrArg (fun t => Team.queue t r.toNat) hxr).trans (t.atRest.queue_reserve r.toNat w)
  · intro htm hone w g rec_ k lines hvalid hlen hrel h0 h1 h2 hblk stages
    have halign : StepsAligned rec_ w := ⟨h0, h1, h2, hblk⟩
    refine ⟨fun hap hquota h hsame => h.stages htm hone (stage_ok htm hact hvalid hlen ((ctx_eq h.slot).1 ▸ hrel) halign hsame ?_ fun _ => hquota),
      fun hspan h hsame => h.stages htm hone (stage_ok htm hact hvalid hlen ((ctx_eq h.slot).1 ▸ hrel) halign hsame ?_ (fun h => by cases h))⟩
    · exact congrArg (List.map _) (List.filter_eq_nil_iff.2 fun v hv => by simp [hap v hv])
    · refine congrArg (List.map _) (List.filter_eq_nil_iff.2 fun y hy => ?_)
      obtain ⟨l, hl, hyl⟩ := List.mem_flatten.1 hy
      obtain ⟨j, hj, rfl⟩ := List.mem_map.1 hl
      simpa using hspan j (List.mem_range.1 hj) y hyl
  · intro h htm hnow hone hne xa xb hva hvb hpair hseed hla hlb hsusp hfmt
    obtain ⟨u, x, q, hu, hmem, hregs, hx, -, hq, htl, hrest⟩ := h.accepted (core := core) (k := .none) (F := fun l => l)
      (g := fun t => { t with steps := claim s.ids rb.toNat n (claim s.ids ra.toNat n t.steps),
                              ops := t.ops ++ [c.mmaOp s.ids tile n xa xb lehr bnd] })
      (f := fun id s => s.modTeam c.id core.toNat fun t => { t with steps := claim id rb.toNat n (claim id ra.toNat n t.steps),
                                                                    ops := t.ops ++ [c.mmaOp id tile n xa xb lehr bnd] }) htm hone
      (body := fun c => mmaBody core tile ra rb nf lehr zi bnd c)
      (mmaBody_ok lehr bnd htm hact hnow hne hva hvb hpair hseed hla hlb hsusp hfmt) (fun _ => rfl) (fun _ => rfl) (fun _ => rfl)
      (fun v => v.strand?_modTeam _ _ (by exact fun _ => rfl) (by exact fun _ => rfl) _) (fun v _ => v.restTeam_modTeam _ _ (by exact fun _ => rfl))
    obtain ⟨hqa, hqb⟩ := queue_claims (fun he => hne (BitVec.eq_of_toNat_eq he)) s.ids n t.steps
    have hsteps : x.steps = claim s.ids rb.toNat n (claim s.ids ra.toNat n t.steps) := (congrArg Team.steps hrest :)
    exact ⟨u, x, q, c.mmaOp s.ids tile n xa xb lehr bnd, hu, ⟨hmem, hregs, hx⟩, hq, htl, (congrArg Team.ops hrest :), rfl, rfl,
      by rw [Team.queue_eq, hsteps, hqa, Team.queue_eq], by rw [Team.queue_eq, hsteps, hqb, Team.queue_eq]⟩

end Sys2Proof.Machine
end


section
/-! Obligation O39: the moves of the matrix unit. -/

namespace Sys2Proof.Machine

/-! ### Register space and teams -/

theorem State.setRegBytes_crews (s : State) (c : CoreId) (a : Nat) (l : List Byte) : (s.setRegBytes c a l).crews = s.crews := by
  induction l generalizing s a with
  | nil => rfl
  | cons b l ih => rw [State.setRegBytes, ih]; rfl

/-- What register space holds after a write depends on what it held. -/
theorem State.setRegBytes_congr {s u : State} (h : u.regs = s.regs) (c : CoreId) (a : Nat) (l : List Byte) :
    (u.setRegBytes c a l).regs = (s.setRegBytes c a l).regs := by
  induction l generalizing s u a with
  | nil => exact h
  | cons b l ih =>
    rw [State.setRegBytes, State.setRegBytes]
    refine ih ?_ (a + 1)
    simp only [State.setRegByte, State.setRegWord, State.regWord, h]

theorem State.team?_congr {s u : State} (h : u.crews = s.crews) (k r : Nat) : u.team? k r = s.team? k r := by
  rw [State.team?, State.team?, State.crew?, State.crew?, h]

theorem State.restTeam_congr {s u : State} (h : u.crews = s.crews) (k r : Nat) : u.restTeam k r = s.restTeam k r := by
  rw [State.restTeam, State.restTeam, State.team?_congr h]

theorem Team.tile_modTile {t : Team} {i : Nat} (hi : i < t.tiles.length) (f : Tile → Tile) : (t.modTile i f).tile i = f (t.tile i) := by
  simp only [Team.tile, Team.modTile, List.getD_eq_getElem?_getD, listMod_getElem?]
  simp [hi]

theorem listMod_id {α : Type} (l : List α) (i : Nat) : listMod l i id = l := by
  induction l generalizing i with
  | nil => cases i <;> rfl
  | cons x l ih => cases i with
    | zero => rfl
    | succ i => exact congrArg (x :: ·) (ih i)

theorem Team.modTile_id (t : Team) (i : Nat) : t.modTile i id = t := by
  rw [Team.modTile, listMod_id]

/-- An operation leaves its team's order, and its stream's counter falls. -/
theorem State.restTeam_endOp (s : State) (k r : Nat) (o : TileOp) (n : Counts) :
    (s.endOp k r o n).restTeam k r = (s.restTeam k r).map fun t => { t with ops := t.ops.filter fun y => y.id != o.id } :=
  (State.restTeam_modStrand ..).trans (s.restTeam_modTeam k r (by exact fun _ => rfl))

theorem State.restTeam_releaseOp (s : State) (k r op : Nat) :
    (s.releaseOp k r op).restTeam k r = (s.restTeam k r).map fun t => { t with steps := t.steps.filter fun x => x.op != some op } := by
  rw [State.releaseOp]
  split
  next h => rw [State.restTeam, h]; rfl
  next tm h => exact (State.restTeam_modStrand ..).trans (State.restTeam_modTeam _ k r (by exact fun _ => rfl))

/-! ### The move (R176) -/

/-- A move of the unit on a tile that is not Suspended, which nothing stops: its first operation goes on. -/
theorem exec_tileStep {s : State} {crew rank i : Nat} {c : Crew} {t : Team} {o : TileOp} {rest : List TileOp} (hc : s.crew? crew = some c) (ht : s.team? crew rank = some t)
    (hrank : t.rank = rank) (hstop : c.stopPending rank (some i) none = false) (hbusy : s.unitBusy c t i = false) (hsusp : (t.tile i).susp = none)
    (hops : (t.ops.filter fun o => o.tile == i) = o :: rest) : exec (.tileStep crew rank i) s = .next (s.stepHead c t o rest) := by
  have hexec : exec (.tileStep crew rank i) s = execTileStep crew rank i s := rfl
  have hsame : { t with rank := rank } = t := by rw [← hrank]
  rw [hexec, execTileStep, hc, ht]
  simp only [hsame, hstop, hbusy, Bool.and_false, Bool.or_self, Bool.false_eq_true, if_false, hsusp, hops]

/-- The first operation, where it is none of a `TMMA` and nothing holds it. -/
theorem stepHead_applies {s : State} {c : Crew} {t : Team} {o : TileOp} (hmma : o.mma = none) (hheld : s.unitHeld c t o = false) (rest : List TileOp) :
    s.stepHead c t o rest = s.applyOp c t o none := by
  simp only [State.stepHead, hmma, hheld, Bool.false_eq_true, if_false]

theorem unitHeld_of_no_access {s : State} {c : Crew} {t : Team} {o : TileOp} (hmma : o.mma = none) (hopen : s.aliasOpen c t o.id o.tile = false)
    (hheld : s.opHeld c.id o = false) : s.unitHeld c t o = false := by
  rw [State.unitHeld, hopen, hheld, hmma]
  rfl

/-- What an operation of a tile leaves as it retires: the tile changed, the operation gone. -/
def Team.applied (t : Team) (i : Nat) (f : Tile → Tile) (o : TileOp) : Team := { (t.modTile i f) with ops := t.ops.filter fun z => z.id != o.id }

theorem State.restTeam_applied {s v : State} {k : Nat} {t : Team} {i : Nat} {f : Tile → Tile} {o : TileOp} {n : Counts} (ht : s.team? k t.rank = some t)
    (hv : v.crews = s.crews) : (((v.modTeam k t.rank fun x => x.modTile i f).endOp k t.rank o n).restTeam k t.rank) = some (t.atRest.applied i f o) := by
  rw [State.restTeam_endOp, State.restTeam_modTeam _ _ _ (by exact fun _ => rfl), State.restTeam_congr hv, State.restTeam, ht]
  rfl

/-- A team that holds, besides its streams, what an operation has left. -/
theorem exists_applied {u : State} {k : Nat} {t : Team} {i : Nat} {f : Tile → Tile} {o : TileOp} (hi : i < t.tiles.length)
    (hu : u.restTeam k t.rank = some (t.atRest.applied i f o)) :
    ∃ y, u.team? k t.rank = some y ∧ y.ops = t.ops.filter (fun z => z.id != o.id) ∧ y.tile i = f (t.tile i) := by
  obtain ⟨y, hy, hrest⟩ := State.team?_of_restTeam hu
  refine ⟨y, hy, (congrArg Team.ops hrest :), ?_⟩
  have htile : y.tile i = (t.atRest.modTile i f).tile i := (congrArg (fun x => Team.tile x i) hrest :)
  exact htile.trans (Team.tile_modTile hi f)

/-! ### A group of columns (R181, R182) -/

/-- The elements that a group of columns of a step leaves (R119 to R122). -/
theorem mmaStep_els (m : Mma) (els : List Nat) (da db : List Byte) : (mmaStep m els da db).els = ((List.range 1024).zip els).map fun q =>
    if q.1 % 32 / 8 = m.colg then stepElem (if m.wide then fp64 else fp32) (recFmt m.recA = 8) (if recSeed m.recA ≠ 0 then -5 else 0) q.2
      ((rowElems m.recA da (q.1 / 32)).map Elem.v) ((rowElems m.recB db (q.1 % 32)).map Elem.v) else q.2 := by
  simp only [mmaStep]
  apply List.map_congr_left
  intro q hq
  have hlt : q.1 < 1024 := List.mem_range.1 (List.of_mem_zip hq).1
  have hrow (r : BitVec 128) (d : List Byte) {k : Nat} (hk : k < 32) :
      (((List.range 32).map (rowElems r d)).map fun l => l.map Elem.v).getD k [] = (rowElems r d k).map Elem.v := by
    simp [List.getD_eq_getElem?_getD, hk]
  have h1 : q.1 / 32 < 32 := by omega
  have h2 : q.1 % 32 < 32 := by omega
  by_cases h : q.1 % 32 / 8 = m.colg
  · rw [if_neg (by simpa using h), if_pos h, hrow m.recA da h1, hrow m.recB db h2]
  · rw [if_pos h, if_neg h]

theorem stepHead_mma {s : State} {c : Crew} {t : Team} {o : TileOp} {rest : List TileOp} {m : Mma} (hmma : o.mma = some m) (hstarted : m.started = true)
    (hsave : ∀ y, rest.head? = some y → isTsave (wordOf y.word) = false) (hrun : c.saving = none ∨ rest ≠ [])
    (hfree : s.limited = false ∨ m.n ≤ m.depth) : s.stepHead c t o rest = s.stepMma c t.rank o m := by
  have hhead : (rest.head?.filter fun y => isTsave (wordOf y.word)) = none := by
    cases h : rest.head? with
    | none => rfl
    | some y => simp [hsave y h]
  have hstop : (c.saving.isSome && rest.isEmpty) = false := by
    rcases hrun with h | h
    · simp [h]
    · simp [h]
  have hwith : (s.limited && decide (m.colg = 0) && decide (m.depth < m.n)) = false := by
    rcases hfree with h | h
    · simp [h]
    · simp [Nat.not_lt.2 h]
  simp only [State.stepHead, hmma, hhead, hstop, hstarted, hwith, Bool.not_true, Bool.false_and, Bool.or_self, Bool.false_eq_true, if_false]

/-- A group of columns of a step whose data are at hand. -/
theorem stepMma_group {s : State} {c : Crew} {t : Team} {o : TileOp} {m : Mma} {a b : Staged} {da db : List Byte} (ht : s.team? c.id t.rank = some t)
    (hstarted : m.started = true) (hreread : m.reread = false) (hdepth : m.depth < m.n) (ha : (t.claimed o).1[m.depth]? = some a) (hb : (t.claimed o).2[m.depth]? = some b)
    (hda : a.data = some da) (hdb : b.data = some db) (hea : a.bad = false) (heb : b.bad = false) :
    s.stepMma c t.rank o m =
      let y := mmaStep m (s.elems (c.teamCore t.rank) t o.tile (b2n m.wide)) da db
      if m.colg < 3 then (s.putElems (c.teamCore t.rank) t o.tile (b2n m.wide) y.els).putOp c.id t.rank o { m with colg := m.colg + 1 }
      else s.endStep (c.teamCore t.rank) c.id t o m y := by
  have hbytes (x : Staged) (d : List Byte) (hd : x.data = some d) (he : x.bad = false) : s.stepBytes c.id t.rank m x = some (d, false) := by
    simp [State.stepBytes, hd, hreread, he]
  simp only [State.stepMma, hstarted, ht, Nat.not_le.2 hdepth, if_false, ha, hb, hbytes a da hda hea, hbytes b db hdb heb, Bool.or_self, Bool.false_eq_true]

theorem stepMma_over {s : State} {c : Crew} {t : Team} {o : TileOp} {m : Mma} (ht : s.team? c.id t.rank = some t) (hstarted : m.started = true) (hdepth : m.n ≤ m.depth) :
    s.stepMma c t.rank o m = (s.putOp c.id t.rank o m).retireMma c.id t.rank o m := by
  simp only [State.stepMma, hstarted, ht, hdepth, if_true]

@[simp] theorem State.retireMma_regs (s : State) (k r : Nat) (o : TileOp) (m : Mma) : (s.retireMma k r o m).regs = s.regs := by
  rw [State.retireMma, State.releaseOp]
  split <;> rfl

/-- An operation that has retired is in its team's order no more, and no step is claimed for it. -/
theorem exists_retired {s : State} {k : Nat} {t : Team} (ht : s.team? k t.rank = some t) (o : TileOp) (m : Mma) :
    ∃ y, ((s.putOp k t.rank o m).retireMma k t.rank o m).team? k t.rank = some y ∧ (∀ z ∈ y.ops, z.id ≠ o.id) ∧ ∀ x ∈ y.steps, x.op ≠ some o.id := by
  have hrest : ∃ x, ((s.putOp k t.rank o m).retireMma k t.rank o m).restTeam k t.rank = some x ∧ (∀ z ∈ x.ops, z.id ≠ o.id) ∧ ∀ z ∈ x.steps, z.op ≠ some o.id := by
    rw [State.retireMma, State.restTeam_releaseOp, State.restTeam_modTeam _ _ _ (by exact fun _ => rfl), State.putOp, State.restTeam_modTeam _ _ _ (by exact fun _ => rfl),
      State.restTeam, ht]
    exact ⟨_, rfl, fun z hz => by simpa using (List.mem_filter.1 hz).2, fun z hz => by simpa using (List.mem_filter.1 hz).2⟩
  obtain ⟨x, hx, hops, hsteps⟩ := hrest
  obtain ⟨y, hy, hyx⟩ := State.team?_of_restTeam hx
  exact ⟨y, hy, fun z hz => hops z (hyx ▸ hz), fun z hz => hsteps z (hyx ▸ hz)⟩

/-- An operation that goes on stands in its team's order as it is then. -/
theorem exists_putOp {v : State} {k r i : Nat} {t : Team} {o : TileOp} {f : Tile → Tile} (ho : o ∈ t.ops) (m : Mma) (hv : v.restTeam k r = some (t.atRest.modTile i f))
    (hi : i < t.tiles.length) : ∃ y z, (v.putOp k r o m).team? k r = some y ∧ z ∈ y.ops ∧ z.id = o.id ∧ z.mma = some m ∧ y.tile i = f (t.tile i) := by
  have hrest : (v.putOp k r o m).restTeam k r = some { t.atRest.modTile i f with ops := mapIf (fun y => y.id == o.id) (fun y => { y with mma := some m }) t.ops } := by
    rw [State.putOp, State.restTeam_modTeam _ _ _ (by exact fun _ => rfl), hv]
    rfl
  obtain ⟨y, hy, hyx⟩ := State.team?_of_restTeam hrest
  have hops : y.ops = mapIf (fun y => y.id == o.id) (fun y => { y with mma := some m }) t.ops := (congrArg Team.ops hyx :)
  have htile : y.tile i = (t.atRest.modTile i f).tile i := (congrArg (fun x => Team.tile x i) hyx :)
  exact ⟨y, { o with mma := some m }, hy, by rw [hops]; exact List.mem_map.2 ⟨o, ho, by simp⟩, rfl, rfl, htile.trans (Team.tile_modTile hi f)⟩

/-- The status bit of elements some of which are NaN. -/
def Mma.nanBits (m : Mma) (els : List Nat) : Nat := if els.any fun b => ((if m.wide then fp64 else fp32).read b).isNaN then stNANS else 0

/-- The end of a step that keeps no bound (R182): an infinite bound, and the next step. -/
theorem endStep_of_no_bound (s : State) (core : CoreId) (k : Nat) (t : Team) (o : TileOp) {m : Mma} (h : m.bnd = false) (y : StepOut) :
    ∃ f : Tile → Tile, (∀ x, (f x).bound = bWith x.bound 0x7F800000) ∧ s.endStep core k t o m y
      = ((s.modTeam k t.rank fun t => t.modTile o.tile f).putElems core t o.tile (b2n m.wide) y.els).putOp k t.rank o { m with depth := m.depth + 1, colg := 0 } := by
  refine ⟨fun x => { x with bound := bWith x.bound (fp32.infBits false), status := statusOr x.status (y.bits + 0 + m.nanBits y.els) }, fun x => ?_, ?_⟩
  · exact congrArg (bWith x.bound) (by decide)
  · simp only [State.endStep, h, Bool.false_and, Bool.false_eq_true, if_false, Bool.not_false, Bool.true_and]
    rfl

/-- Settles O39. -/
theorem tileSteps : Obligations.TileSteps := by
  unfold Obligations.TileSteps
  intro s crew rank i c t o rest hc ht hrank hstop hbusy hsusp hi hops core is_ gives
  obtain rfl : c.id = crew := State.crew?_id hc
  subst hrank
  have hstep := exec_tileStep hc ht rfl hstop hbusy hsusp hops
  have htile : o.tile = i := by
    have ho : o ∈ t.ops.filter fun o => o.tile == i := by rw [hops]; exact List.mem_cons_self ..
    simpa using (List.mem_filter.1 ho).2
  have homem : o ∈ t.ops := (List.mem_filter.1 (by rw [hops]; exact List.mem_cons_self .. : o ∈ t.ops.filter fun o => o.tile == i)).1
  subst htile
  have hword {w : Instr} (h : decode o.word = some w) : wordOf o.word = w := by rw [wordOf, h]; rfl
  have happlies {w : Instr} {f g : Tile → Tile} {v : State} (h : is_ w) (hheld : decode o.word = some w → s.opHeld c.id o = false)
      (happly : decode o.word = some w → s.applyOp c t o none = (v.modTeam c.id t.rank fun x => x.modTile o.tile f).endOp c.id t.rank o .none)
      (hmem : v.mem = s.mem) (hcrews : v.crews = s.crews) (hfg : ∀ x, f x = g x) : gives g v := by
    obtain ⟨hw, hmma, hopen⟩ := h
    obtain ⟨y, hy, hyo, hyt⟩ := exists_applied hi (State.restTeam_applied (n := .none) (f := f) ht hcrews)
    exact ⟨_, y, hstep.trans (congrArg _ ((stepHead_applies hmma (unitHeld_of_no_access hmma hopen (hheld hw)) rest).trans (happly hw))), hmem, rfl, hy, hyo,
      hyt.trans (hfg _)⟩
  refine ⟨fun p a64 k n h => ?_, fun p k n x h => ?_, fun p k n x h => ?_, fun m hmma hstarted hsave hrun => ⟨?_, fun hdepth => ?_⟩⟩
  · have happly (hw : decode o.word = some (.tzero p a64 k n)) : s.applyOp c t o none = (s.applyZero core c.id t o a64).endOp c.id t.rank o .none := by
      rw [State.applyOp, hword hw]
    have hstatus (x : Tile) : { x with bound := bWith x.bound 0, status := BitVec.ofNat 64 (b2n a64 * 64), c0 := false }
        = { x with bound := bWith x.bound 0, status := if a64 then 64 else 0, c0 := false } := by
      cases a64 <;> rfl
    exact happlies (f := fun x => { x with bound := bWith x.bound 0, status := BitVec.ofNat 64 (b2n a64 * 64), c0 := false })
      (g := fun x => { x with bound := bWith x.bound 0, status := if a64 then 64 else 0, c0 := false }) (v := s.setRegBytes core (t.slotAddr o.tile) (List.replicate 8192 0)) h
      (fun hw => by rw [State.opHeld, hword hw]) (fun hw => (happly hw).trans (by rw [State.applyZero])) (s.setRegBytes_mem ..) (s.setRegBytes_crews ..) hstatus
  · exact happlies h (fun hw => by rw [State.opHeld, hword hw]) (fun hw => by rw [State.applyOp, hword hw]; rfl) rfl rfl fun _ => rfl
  · exact happlies h (fun hw => by rw [State.opHeld, hword hw]) (fun hw => by rw [State.applyOp, hword hw]; rfl) rfl rfl fun _ => rfl
  · intro a b da db hreread hbnd hdepth hcolg hlim ha hb hda hdb hea heb f row new
    have hgo := hstep.trans (congrArg _ ((stepHead_mma (s := s) hmma hstarted hsave hrun (.inl hlim)).trans
      (stepMma_group ht hstarted hreread hdepth ha hb hda hdb hea heb)))
    have hels : (mmaStep m (s.elems core t o.tile (b2n m.wide)) da db).els = ((List.range 1024).zip (s.elems core t o.tile (b2n m.wide))).map fun q => new q.1 q.2 :=
      mmaStep_els ..
    have hwide : (if m.wide then 1 else 0) = b2n m.wide := by cases m.wide <;> rfl
    rw [hwide]
    generalize ((List.range 1024).zip (s.elems core t o.tile (b2n m.wide))).map (fun q => new q.1 q.2) = L at hels ⊢
    generalize mmaStep m (s.elems core t o.tile (b2n m.wide)) da db = Y at hels hgo
    subst hels
    by_cases hlt : m.colg < 3
    · simp only [if_pos hlt] at hgo ⊢
      obtain ⟨y, z, hy, hz, hzid, hzm, htile⟩ := exists_putOp homem { m with colg := m.colg + 1 } (f := id)
        ((State.restTeam_congr (State.setRegBytes_crews ..) ..).trans (by rw [State.restTeam, ht]; exact congrArg some (Team.modTile_id ..).symm)) hi
      exact ⟨_, y, z, hgo, State.putElems_mem .., hy, rfl, hz, hzid, hzm, by rw [htile]; rfl⟩
    · simp only [if_neg hlt] at hgo ⊢
      obtain ⟨f, hf, hend⟩ := endStep_of_no_bound s core c.id t o hbnd Y
      have hrest : ((s.modTeam c.id t.rank fun t => t.modTile o.tile f).putElems core t o.tile (b2n m.wide) Y.els).restTeam c.id t.rank = some (t.atRest.modTile o.tile f) := by
        rw [State.putElems, State.restTeam_congr (State.setRegBytes_crews ..), State.restTeam_modTeam _ _ _ (by exact fun _ => rfl), State.restTeam, ht]
        rfl
      obtain ⟨y, z, hy, hz, hzid, hzm, htile⟩ := exists_putOp homem { m with depth := m.depth + 1, colg := 0 } hrest hi
      exact ⟨_, y, z, hgo.trans (congrArg _ hend), (State.putElems_mem ..).trans rfl, hy, State.setRegBytes_congr (s := s) (u := s.modTeam c.id t.rank fun t => t.modTile o.tile f) rfl .., hz, hzid, hzm, by rw [htile, hf]⟩
  · have hgo := hstep.trans (congrArg _ ((stepHead_mma (s := s) hmma hstarted hsave hrun (.inr hdepth)).trans (stepMma_over ht hstarted hdepth)))
    obtain ⟨y, hy, hgone, hsteps⟩ := exists_retired ht o m
    exact ⟨_, y, hgo, by rw [State.retireMma_mem]; rfl, by rw [State.retireMma_regs]; rfl, hy, hgone, hsteps⟩

end Sys2Proof.Machine
end


section
/-! Obligation O38, which the record of a watch that matches refutes. -/

namespace Sys2Proof.Machine

/-! ### A record whose reading is watched (R192, R320) -/

def resumeRecord : Instr := .tresumeCont Tests.p0 true 0 0 1

/-- A step that was staged from the host's line 0 and that no operation has claimed. -/
def stagedStep : Staged := Staged.mk 0 5 none false 0 [] 0 0 none false [lineOf pcieKey] false [] []

/-- The sequencer record that Gaffer register 1 names, in a page that no tier holds (CP 2). -/
def uncachedRecord : State :=
  Tests.withStrand (fun t => { t with g := [(1, 0x8000)] }) ((Tests.mappedCp 2 (Tests.issuing resumeRecord)).setMem 0x8000
    (seqRecord true Tests.op1 Tests.mma1 (Ctx.newSteps Tests.rec32 0 true [0, 0, 0, 0] 0 0 1 0 none) (Ctx.newSteps Tests.rec32 1 true [0, 0, 0, 0] 0 0 1 0 none)))

/-- A sequencer record in memory, every load watched, and the trace ring on the line that the staged step has pinned. -/
def watchedRecord : State :=
  let s := uncachedRecord.modTeam 0 0 fun t => { t with steps := [stagedStep] }
  { s.modDie 0 fun d => { d with watch := [(BitVec.ofNat 64 (2 ^ 60), BitVec.ofNat 64 (2 ^ 52 - 1))], trbase := BitVec.ofNat 64 pcieKey, trsize := 0x100 } with
    pins := [{ holder := .tile 0 0 0, line := lineOf pcieKey, away := false }] }

/-- Whether the first staged step of a team was written under, after an outcome. -/
def firstWritten (o : Host.Outcome State Fault Refusal) (crew rank : Nat) : Option Bool :=
  match o with
  | .next u => (u.team? crew rank).bind fun t => t.steps.head?.map Staged.srcw
  | _ => none

theorem watchedRecord_writes : firstWritten (exec resumeRecord watchedRecord) 0 0 = some true := by decide +kernel

/-- What the record of a `TRESUME.rec` meets as it is read. -/
def recordResumes (c : Ctx) : Bool :=
  c.id == 0 && c.act != 0 && (c.gReg 1).toNat % 128 == 0 && c.t.canRaise ⟨0, 0, 0, 1⟩ && !c.t.holdsBack c.inH none (c.gReg 1)
    && c.crew.teams.all (fun u => u.ops.all fun o => !isTsave (wordOf o.word))
    && match c.teamOf 0, (c.s0.loadVa (c.byLane 0) (c.gReg 1).toNat 128).1 with
      | some t, .ok l => !t.nowOn 0 && t.rank == 0 && decide (0 < t.tiles.length) && !c.s0.aliasOpen c.crew t c.s0.ids 0 && !Ctx.idleSoon t 0 && t.steps == [stagedStep]
          && (match seqOp l 0 c.inH with
            | some (o, m) => seqOk t 0 0 .cont l o m && decide (t.quotaU + t.quotaH + seqLines l m ≤ t.quota)
            | none => false)
      | _, _ => false

/-- Refutes O38: the record of a watch that the read of the sequencer record matches goes into a line that a step has pinned, so that the steps which were
there are not as they were (R180). -/
theorem not_tileResume : ¬ Obligations.TileResume := by
  unfold Obligations.TileResume
  intro h
  obtain ⟨c, hI, hP⟩ := Tests.issues_of_meets (s := watchedRecord) (i := resumeRecord) (P := recordResumes) (by decide +kernel)
  simp only [recordResumes, Bool.and_eq_true, beq_iff_eq, bne_iff_ne, ne_eq, Bool.not_eq_true'] at hP
  obtain ⟨⟨⟨⟨⟨⟨hid, hact⟩, halign⟩, hone⟩, hback⟩, hsaves⟩, hload⟩ := hP
  split at hload
  next t l ht hl =>
    simp only [Bool.and_eq_true, beq_iff_eq, Bool.not_eq_true', decide_eq_true_eq] at hload
    obtain ⟨⟨⟨⟨⟨⟨hnow, hrank⟩, hlen⟩, hopen⟩, hidle⟩, hsteps⟩, hseq⟩ := hload
    split at hseq
    next o m hom =>
      simp only [Bool.and_eq_true, decide_eq_true_eq] at hseq
      rw [(ctx_eq hI.slot).1] at hopen hl
      obtain ⟨u, y, z, n, hu, -, -, hy, -, -, -, -, hys⟩ := (h watchedRecord c t Tests.p0 0 0 1 hact ht hnow hone hrank hlen hopen).1.2 l o m hI halign hidle hback
        (fun x hx o ho hs => by
          have := List.all_eq_true.1 (List.all_eq_true.1 hsaves x hx) o ho
          rw [hs] at this
          exact Bool.noConfusion this) hl hom hseq.1 hseq.2
      have hmarked := watchedRecord_writes
      rw [hid] at hy
      rw [show exec resumeRecord watchedRecord = .next u from hu, firstWritten, show u.team? 0 0 = some y from hy, Option.bind_some, hys, hsteps] at hmarked
      exact absurd (show some stagedStep.srcw = some true from hmarked) (by decide)
    next => exact absurd hseq (by decide)
  next => exact absurd hload (by decide)

end Sys2Proof.Machine
end


section
/-! What an access of an engine leaves alone. A read of memory changes the choices that are drawn, the tiers and views that it passes, and, where a watch
matches, the trace and the causes that wait (R320); a write changes what `State.unwritten` leaves out too. -/

namespace Sys2Proof.Machine

/-- A stream without the causes that wait for a boundary. -/
def Strand.unpended (t : Strand) : Strand := { t with pend := [] }

/-- The state without what an access of an engine may change. -/
def State.seen (s : State) : State :=
  { s.unwritten with free := 0, tlb := [], l1 := [], snaps := [], sseq := 0, crews := s.unwritten.crews.map (Crew.eachStrand Strand.unpended) }

theorem seen_of_unwritten {s u : State} (h : u.unwritten = s.unwritten) : u.seen = s.seen := by rw [State.seen, h, State.seen]

theorem seen_of_uncached {s u : State} (h : u.uncached = s.uncached) : u.seen = s.seen := (congrArg State.seen h :)

theorem seen_of_offTier {s u : State} (h : u.offTier = s.offTier) : u.seen = s.seen := (congrArg State.seen h :)

theorem foldl_seen {α : Type} {f : State → α → State} (h : ∀ s x, (f s x).seen = s.seen) (l : List α) (s : State) : (l.foldl f s).seen = s.seen := by
  induction l generalizing s with
  | nil => rfl
  | cons x l ih => rw [List.foldl_cons, ih, h]

/-! ### What is left as it was -/

theorem regs_of_seen {s u : State} (h : u.seen = s.seen) : u.regs = s.regs := (congrArg State.regs h :)

theorem samples_of_seen {s u : State} (h : u.seen = s.seen) : u.samples = s.samples := (congrArg State.samples h :)

theorem msgs_of_seen {s u : State} (h : u.seen = s.seen) : u.msgs = s.msgs := (congrArg State.msgs h :)

/-- A crew without the marks on its steps and the causes that wait in its streams. -/
def Crew.unseen (c : Crew) : Crew := c.unmarked.eachStrand Strand.unpended

theorem crew?_of_seen {s u : State} (h : u.seen = s.seen) (k : Nat) : (u.crew? k).map Crew.unseen = (s.crew? k).map Crew.unseen := by
  have hfind (v : State) : (v.crew? k).map Crew.unseen = v.seen.crews.find? fun c => c.id == k := by
    simp only [State.seen, State.unwritten, State.unapplied, List.map_map, List.find?_map]
    rfl
  rw [hfind, hfind, h]

theorem Crew.strand?_eachStrand (c : Crew) (f : Strand → Strand) (sid : Sid) : (c.eachStrand f).strand? sid = (c.strand? sid).map f := by
  cases sid with
  | wave i w =>
    simp only [Crew.strand?, Crew.eachStrand, List.getElem?_map]
    cases c.teams[i]? with
    | none => rfl
    | some tm => simp
  | gaffer => rfl
  | producer i =>
    simp only [Crew.strand?, Crew.eachStrand, List.getElem?_map]
    cases c.teams[i]? <;> rfl

/-- The streams are as they were, but for the causes that wait. -/
theorem strand?_of_seen {s u : State} (h : u.seen = s.seen) (k : Nat) (sid : Sid) : (u.strand? k sid).map Strand.unpended = (s.strand? k sid).map Strand.unpended := by
  have hbind (v : State) : (v.strand? k sid).map Strand.unpended = ((v.crew? k).map Crew.unseen).bind fun c => c.strand? sid := by
    rw [State.strand?]
    cases v.crew? k with
    | none => rfl
    | some c => rw [Option.bind_some, Option.map_some, Option.bind_some, Crew.unseen, Crew.strand?_eachStrand, Crew.strand?_unmarked]
  rw [hbind, hbind, crew?_of_seen h]

theorem exists_strand_of_seen {s u : State} (h : u.seen = s.seen) {k : Nat} {sid : Sid} {t : Strand} (ht : s.strand? k sid = some t) :
    ∃ t', u.strand? k sid = some t' ∧ t'.unpended = t.unpended := by
  have hs := strand?_of_seen h k sid
  rw [ht, Option.map_some] at hs
  exact Option.map_eq_some_iff.1 hs

theorem entry?_of_seen {s u : State} (h : u.seen = s.seen) (k : Nat) (sid : Sid) (id : Nat) : u.entry? k sid id = s.entry? k sid id := by
  have hbind (v : State) : v.entry? k sid id = ((v.strand? k sid).map Strand.unpended).bind fun t => t.log.find? fun e => e.id == id := by
    rw [State.entry?, Option.bind_map]
    rfl
  rw [hbind, hbind, strand?_of_seen h]

/-- A team's steps without their marks, and without its streams. -/
def Team.unmarked (t : Team) : Team := { t.atRest with steps := t.steps.map fun x => { x with srcw := false } }

/-- A team is as it was, but for its streams and the marks on its steps. -/
theorem restTeam_of_seen {s u : State} (h : u.seen = s.seen) (k r : Nat) : (u.restTeam k r).map Team.unmarked = (s.restTeam k r).map Team.unmarked := by
  have hbind (v : State) : (v.restTeam k r).map Team.unmarked = ((v.crew? k).map Crew.unseen).bind fun c => (c.teams[r]?).map Team.unmarked := by
    rw [State.restTeam, State.team?]
    cases v.crew? k with
    | none => rfl
    | some c =>
      simp only [Option.bind_some, Option.map_some, Option.map_map, Crew.unseen, Crew.eachStrand, Crew.unmarked, List.getElem?_map]
      cases c.teams[r]? with
      | none => rfl
      | some tm => simp [Team.unmarked, Team.atRest]
  rw [hbind, hbind, crew?_of_seen h]

/-! ### Watches (R320) -/

theorem State.trigger_seen (s : State) (die : Nat) (tag : BitVec 32) (w : Who) : (s.trigger die tag w).seen = s.seen := by
  simp only [State.trigger]
  split
  · rfl
  · exact (seen_of_unwritten (State.snapshotAt_unwritten ..)).trans rfl

theorem State.watch_seen (s : State) (p : Point) (parts : List (Nat × Nat)) (wr : Bool) (w : Who) (src : WatchSrc) (tag : BitVec 32) :
    (s.watch p parts wr w src tag).2.seen = s.seen := by
  rw [State.watch]
  split
  · rfl
  next die hdie =>
    refine foldl_seen (fun v h => ?_) _ s
    have hemit (k : Nat) (ws : List Word) : (v.emit die k w ws).seen = v.seen := seen_of_unwritten (State.emit_unwritten ..)
    by_cases hh : h.2 = true
    · simp only [hh, if_true]
      exact (State.trigger_seen ..).trans (hemit ..)
    · simp only [hh, Bool.false_eq_true, if_false]
      exact hemit ..

theorem Crew.unseen_modStrand (c : Crew) (sid : Sid) {f : Strand → Strand} (hf : ∀ t, (f t).unpended = t.unpended) : (c.modStrand sid f).unseen = c.unseen := by
  have hteam (r : Nat) {g : Team → Team} (hg : ∀ t : Team, (g t).waves.map Strand.unpended = t.waves.map Strand.unpended)
      (hp : ∀ t : Team, (g t).producer.map Strand.unpended = t.producer.map Strand.unpended) (hrest : ∀ t : Team, (g t).atRest = t.atRest) :
      (c.modTeam r g).unseen = c.unseen := by
    simp only [Crew.unseen, Crew.unmarked, Crew.eachStrand, Crew.modTeam, List.map_map]
    rw [listMod_map]
    intro t
    have hr := hrest t
    simp only [Team.atRest, Team.mk.injEq] at hr
    simp only [Function.comp_apply, hg, hp, hr]
  cases sid with
  | wave r w => exact hteam r (fun t => listMod_map _ _ _ _ hf) (fun _ => rfl) fun _ => rfl
  | gaffer =>
    simp only [Crew.modStrand, Crew.unseen, Crew.unmarked, Crew.eachStrand, Option.map_map]
    cases c.gaffer <;> simp [hf]
  | producer r => exact hteam r (fun _ => rfl) (fun t => by cases t.producer <;> simp [hf]) fun _ => rfl

theorem State.seen_crews (s : State) : s.seen.crews = s.crews.map Crew.unseen := by
  simp only [State.seen, State.unwritten, State.unapplied, List.map_map]
  rfl

/-- A state whose crews are the same but for what an access changes. -/
theorem seen_of_crews {s : State} {l : List Crew} (h : l.map Crew.unseen = s.crews.map Crew.unseen) : ({ s with crews := l } : State).seen = s.seen := by
  have hl : (l.map Crew.unmarked).map (Crew.eachStrand Strand.unpended) = (s.crews.map Crew.unmarked).map (Crew.eachStrand Strand.unpended) := by
    rw [List.map_map, List.map_map]
    exact h
  simp only [State.seen, State.unwritten, State.unapplied, hl]

theorem State.modStrand_seen (s : State) (k : Nat) (sid : Sid) {f : Strand → Strand} (hf : ∀ t, (f t).unpended = t.unpended) : (s.modStrand k sid f).seen = s.seen := by
  rw [State.modStrand, State.modCrew]
  exact seen_of_crews (mapIf_map _ _ _ _ fun c => c.unseen_modStrand sid hf)

theorem State.watchParts_seen (s : State) (b : By) (p : Point) (parts : List (Nat × Nat)) (wr : Bool) (tag : BitVec 32) :
    (s.watchParts b p parts wr tag).seen = s.seen := by
  have hwatch := s.watch_seen p parts wr b.who b.src tag
  rw [State.watchParts]
  split
  next h => rw [h] at hwatch; exact hwatch
  next h _ => rw [h] at hwatch; exact hwatch
  next h _ => rw [h] at hwatch; exact (State.modStrand_seen _ _ _ (by exact fun _ => rfl)).trans hwatch

/-! ### Reads (R286, R292) -/

theorem State.translate_seen (s : State) (asid : BitVec 16) (secure : Bool) (k : Access) (va : Word) : (s.translate asid secure k va).2.seen = s.seen := by
  obtain ⟨j, l, h⟩ := s.translate_eq asid secure k va
  rw [h]
  rfl

theorem State.apertureNamed_seen (s : State) (b : By) : (s.apertureNamed b).seen = s.seen := by
  rw [State.apertureNamed]
  split
  · exact seen_of_unwritten (State.event_unwritten ..)
  · rfl

theorem State.leafFor_seen (s : State) (b : By) (k : Access) (va : Nat) : (s.leafFor b k va).2.seen = s.seen := by
  have htr := s.translate_seen b.asid b.secure k (BitVec.ofNat 64 va)
  rw [State.leafFor]
  split
  · rfl
  · split
    next h =>
      rw [h] at htr
      split
      · exact htr
      · exact (State.apertureNamed_seen ..).trans htr
    next => exact htr

theorem State.answered_seen (s : State) (f : Leaf) : (s.answered f).2.seen = s.seen := by
  rw [State.answered]
  split <;> rfl

theorem State.touch_seen (s : State) (p : Point) (hold : Option Bool) (line : Nat) (wr : Bool) (team : Option (Nat × Nat)) : (s.touch p hold line wr team).seen = s.seen :=
  seen_of_offTier (State.touch_offTier ..)

theorem State.readPiece_seen (s : State) (b : By) (l : Leaf) (n : Nat) : (s.readPiece b l n).2.seen = s.seen := by
  rw [State.readPiece]
  split
  · rfl
  · exact (State.watchParts_seen ..).trans (State.touch_seen ..)

theorem State.leavesFor_seen (b : By) (k : Access) (l : List (Nat × Nat)) (s : State) : (s.leavesFor b k l).2.seen = s.seen := by
  induction l generalizing s with
  | nil => rfl
  | cons q l ih =>
    have hleaf := s.leafFor_seen b k q.1
    rw [State.leavesFor]
    split
    next h => rw [h] at hleaf; exact hleaf
    next v h =>
      rw [h] at hleaf
      have hrest := (ih v).trans hleaf
      split
      next h' => rw [h'] at hrest; exact hrest
      next => exact hrest

theorem State.loadSpans_seen (b : By) (l : List (Nat × Nat)) (s : State) : (s.loadSpans b l).2.seen = s.seen := by
  induction l generalizing s with
  | nil => rfl
  | cons q l ih =>
    have hleaf := s.leafFor_seen b .load q.1
    rw [State.loadSpans]
    split
    next h => rw [h] at hleaf; exact hleaf
    next f v h =>
      rw [h] at hleaf
      have hans := (v.answered_seen f).trans hleaf
      split
      next h1 => rw [h1] at hans; exact hans
      next v1 h1 =>
        rw [h1] at hans
        have hread := (v1.readPiece_seen b f q.2).trans hans
        split
        next h2 => rw [h2] at hread; exact hread
        next v2 h2 =>
          rw [h2] at hread
          have hrest := (ih v2).trans hread
          split
          next h3 => rw [h3] at hrest; exact hrest
          next => exact hrest

theorem State.loadVa_seen (s : State) (b : By) (va n : Nat) : (s.loadVa b va n).2.seen = s.seen := State.loadSpans_seen ..

/-! ### Writes (R292) -/

theorem State.watchFlushes_seen (s : State) (b : By) (p : Point) (ws : List (Nat × BitVec 32)) : (s.watchFlushes b p ws).seen = s.seen :=
  foldl_seen (fun _ _ => State.watchParts_seen ..) _ s

theorem State.writePiece_seen (s : State) (b : By) (l : Leaf) (bytes : List Byte) : (s.writePiece b l bytes).seen = s.seen := by
  refine (State.watchParts_seen ..).trans ((State.watchFlushes_seen ..).trans (seen_of_unwritten (unwritten_of_unapplied ?_)))
  exact State.apply_unapplied ..

theorem State.writePieces_seen (b : By) (fs : List (Leaf × Nat)) (bytes : List Byte) (s : State) : (s.writePieces b fs bytes).seen = s.seen := by
  induction fs generalizing s bytes with
  | nil => rfl
  | cons q fs ih => exact (ih _ _).trans (State.writePiece_seen ..)

theorem State.storeVa_seen (s : State) (b : By) (va : Nat) (bytes : List Byte) : (s.storeVa b va bytes).2.seen = s.seen := by
  have hleaves := State.leavesFor_seen b .store (spans va bytes.length) s
  rw [State.storeVa]
  split
  next h => rw [h] at hleaves; exact hleaves
  next h => rw [h] at hleaves; exact (State.writePieces_seen ..).trans hleaves

end Sys2Proof.Machine
end


section
/-! Obligation O33: the refill of a lane whose pop waits for it. -/

namespace Sys2Proof.Machine

/-- A stream as the refill of a lane's entry ends in a cause. -/
def Strand.refillFailed (e : Entry) (lane k va : Nat) (ab : Bool) (t : Strand) : Strand :=
  { t with refills := t.refills.filter (fun r => !(r.lane == lane && r.entry == e.id)),
           log := mapIf (fun x => x.id == e.id) (fun x => { x with logged := true, faults := x.faults ++ [laneFault lane k va 1 ab] }) t.log }

/-- A refill that ends in a cause, of a stream that keeps no share: the cause is recorded in the entry, and nothing else changes but the streams (R378). -/
theorem State.refillFault_ends {s v : State} {c : Crew} {sid : Sid} {t : Strand} {e : Entry} (lane : Nat) (hv : v.seen = s.seen) (ht : s.strand? c.id sid = some t) (he : e ∈ t.log)
    (hrefills : t.refills = []) (k va : Nat) (ab : Bool) : ∃ u t' e', v.refillFault c sid e lane (k, va, ab) = u ∧ u.mem = v.mem ∧ u.regs = v.regs
      ∧ u.strand? c.id sid = some t' ∧ e' ∈ t'.log ∧ e'.id = e.id ∧ e'.logged = true ∧ laneFault lane k va 1 ab ∈ e'.faults := by
  obtain ⟨w, hw, hsame⟩ := exists_strand_of_seen hv ht
  have hlog : w.log = t.log := (congrArg Strand.log hsame :)
  have hrf : w.refills = [] := ((congrArg Strand.refills hsame :) : w.refills = t.refills).trans hrefills
  have hold : ((v.strand? c.id sid).bind fun t => t.refills.find? fun r => r.lane == lane && r.entry == e.id) = none := by
    rw [hw, Option.bind_some, hrf]
    rfl
  have heq : v.refillFault c sid e lane (k, va, ab) = v.modStrand c.id sid (Strand.refillFailed e lane k va ab) := by
    rw [State.refillFault, hold]
    rfl
  refine ⟨_, w.refillFailed e lane k va ab, { e with logged := true, faults := e.faults ++ [laneFault lane k va 1 ab] }, heq, rfl, rfl, ?_, ?_, rfl, rfl,
    List.mem_append_right _ (List.mem_singleton_self _)⟩
  · rw [State.strand?_modStrand_same, hw]
    rfl
  · exact List.mem_map.2 ⟨e, hlog ▸ he, by simp⟩

/-- What a turn of the refill of a lane whose pop names a Cullet comes to. -/
def State.refillTurn (s : State) (c : Crew) (sid : Sid) (t : Strand) (e : Entry) (lane : Nat) (ty : Ty) (d : Opd) (x : Tape) : State :=
  match s.refillRead c sid e lane x.refillSpan with
  | (none, s) => s
  | (some l, s) => s.refillPopped c sid t e lane ty d ((x.refill l).pop (if ty.is64 then 2 else 1))

/-- A turn of the refill of a lane whose pop names a Cullet. -/
theorem exec_tapeRefillDone {s : State} {crew : Nat} {sid : Sid} {lane : Nat} {c : Crew} {t : Strand} {e : Entry} {pre : Pre} {ty : Ty} {d : Opd} {x : Tape}
    (hc : s.crew? crew = some c) (ht : s.strand? crew sid = some t)
    (he : (t.log.find? fun e => e.undone.getLsbD lane && !e.faultLanes.getLsbD lane && (match wordOf e.word with | .tpop .. => true | _ => false)) = some e)
    (hword : wordOf e.word = .tpop pre ty d) (hrefills : t.refills = []) (hlost : s.shareLost c sid lane = false) (hspill : s.spilling crew sid lane = [])
    (hheld : s.lateHeld c t e = false) (hpop : (Tape.ofBytes (s.shareBytes c sid lane)).pop (if ty.is64 then 2 else 1) = .refill x) :
    exec (.tapeRefillDone crew sid lane) s = .next (s.refillTurn c sid t e lane ty d x) := by
  have hexec : exec (.tapeRefillDone crew sid lane) s = execTapeRefillDone crew sid lane s := rfl
  rw [hexec, execTapeRefillDone, hc, ht]
  dsimp only
  split
  next h => exact absurd (h.symm.trans he) (by simp)
  next e' h =>
    obtain rfl : e' = e := Option.some.inj (h.symm.trans he)
    simp only [hheld, hspill, hlost, hword, hrefills, hpop, List.isEmpty_nil, Bool.not_true, Bool.or_self, Bool.false_eq_true, if_false, List.any_nil]
    rfl

/-- Settles O33. -/
theorem tapeRefill : Obligations.TapeRefill := by
  unfold Obligations.TapeRefill
  intro s crew sid lane c t e pre ty d x hc ht he hword hrefills hlost hspill hheld hpop sp move ends
  obtain rfl : c.id = crew := State.crew?_id hc
  have hgo : move = .next (s.refillTurn c sid t e lane ty d x) := exec_tapeRefillDone hc ht he hword hrefills hlost hspill hheld hpop
  have hmem : e ∈ t.log := List.mem_of_find?_eq_some he
  have hnone {v : State} (hm : s.refillRead c sid e lane sp = (none, v)) : move = .next v := by rw [hgo, State.refillTurn, hm]
  have hends {v : State} (hv : v.seen = s.seen) {k va : Nat} {ab : Bool} (hm : s.refillRead c sid e lane sp = (none, v.refillFault c sid e lane (k, va, ab))) : ends v k va ab := by
    obtain ⟨u, t', e', hu, h⟩ := State.refillFault_ends lane hv ht hmem hrefills k va ab
    exact ⟨u, t', e', by rw [hnone hm, hu], h⟩
  have hcullet : (s.cullet c sid lane sp).2.seen = s.seen := by
    have hleaves := State.leavesFor_seen (s.byTape c sid lane) .store (spans sp.1 sp.2) s
    rw [State.cullet]
    split
    next h => rw [h] at hleaves; exact hleaves
    next h => rw [h] at hleaves; exact hleaves
  refine ⟨fun s1 k va ab h1 => ?_, fun s1 h1 => ⟨?_, ?_⟩⟩
  · rw [h1] at hcullet
    exact hends hcullet (by rw [State.refillRead, h1])
  · intro l out y hl hval s2
    have hread : s.refillRead c sid e lane sp = (some l, s2) := by
      rw [State.refillRead, h1]
      simp only [hl]
      rfl
    rw [hgo, State.refillTurn, hread]
    simp only [hval, State.refillPopped]
  · intro ps p hps hp s2
    rw [h1] at hcullet
    have hok (b : List Byte) (v : State) (h3 : (s1.drawIndex ps.length).2.loadVa ((s1.drawIndex ps.length).2.byTape c sid lane) p.1 p.2 = (.ok b, v)) :
        s.refillRead c sid e lane sp = (none, v.modEntry c.id sid e.id fun e => { e with reads := e.reads ++ [⟨lane, p.1, b⟩] }) := by
      rw [State.refillRead, h1]
      simp only [hps, hp, h3]
    have hfail (k va : Nat) (ab : Bool) (v : State) (h3 : (s1.drawIndex ps.length).2.loadVa ((s1.drawIndex ps.length).2.byTape c sid lane) p.1 p.2 = (.fail k va ab, v)) :
        s.refillRead c sid e lane sp = (none, v.refillFault c sid e lane (k, va, ab)) := by
      rw [State.refillRead, h1]
      simp only [hps, hp, h3]
    have hdraw : s2.seen = s.seen := by
      obtain ⟨j, hj⟩ := s1.drawIndex_eq ps.length
      exact (congrArg State.seen hj).trans hcullet
    refine ⟨fun b s3 h3 => hnone (hok b s3 h3), fun k va ab s3 h3 => ?_⟩
    have hload := s2.loadVa_seen (s2.byTape c sid lane) p.1 p.2
    rw [h3] at hload
    exact hends (hload.trans hdraw) (hfail k va ab s3 h3)

end Sys2Proof.Machine
end


section
/-! Obligation O35: rendering words as they issue, and a turn of one lane of them. -/

namespace Sys2Proof.Machine

/-! ### Plain loads of a rendering word (R286, R382) -/

theorem State.movedFor_of_no_samples {s : State} (h : s.samples = []) (b : By) (entry : Nat) (f : Leaf) (n : Nat) : s.movedFor b entry f n = s := by
  rw [State.movedFor]
  split
  · simp only [h, List.isEmpty_nil, if_true]
  · rfl

theorem State.dropOlder_seen (s : State) (c : CoreId) (line : Nat) (tag : BitVec 32) : (s.dropOlder c line tag).seen = s.seen := rfl

theorem State.countCore_seen (s : State) (c : CoreId) (i n : Nat) : (s.countCore c i n).seen = s.seen := seen_of_uncached (State.countCore_uncached ..)

/-- A load of a piece at its home, with what its core makes of it. -/
def State.readHome (s : State) (b : By) (entry : Nat) (core : CoreId) (f : Leaf) (n : Nat) : Option (List Byte) × State :=
  match (s.movedFor b entry f n).readPiece b f n with
  | (none, s) => (none, s)
  | (some v, s) =>
    let s := if f.cp = 0 then s.copyFor (homeOf f.cp f.at_) (lineOf f.at_) core b.team else s
    let s := (s.countCore core 1 1).dropOlder core (lineOf f.at_) (s.lineState (lineOf f.at_)).tag
    let (fill, s) := if f.cp = 2 then (false, s) else s.drawBit
    let (took, s) := if fill then s.fillIf core f b.secure b.asid (sectorsOf f.at_ n) else (false, s)
    (some v, s.expand core (f.cmp && !took))

/-- A load of a piece that the L1 view of its core does not answer. -/
def State.readMiss (s : State) (b : By) (entry : Nat) (core : CoreId) (f : Leaf) (n : Nat) : Option (List Byte) × State :=
  let s := s.coreSignal core 7 1
  if f.roc then
    match s.probe core (lineOf f.at_) b.secure (sectorsOf f.at_ n) with
    | (some e, s) => (some (e.bytes f.at_ n), ((s.movedFor b entry f n).countCore core 1 1).dropOlder core (lineOf f.at_) e.tag)
    | (none, s) => s.readHome b entry core f n
  else s.readHome b entry core f n

theorem State.readPlain_eq (s : State) (b : By) (entry : Nat) (core : CoreId) (f : Leaf) (n : Nat) : s.readPlain b entry core f n =
    match s.l1Entry core (lineOf f.at_) b.secure b.asid with
    | none => s.readMiss b entry core f n
    | some e =>
      if e.sectors &&& sectorsOf f.at_ n ≠ sectorsOf f.at_ n then s.readMiss b entry core f n
      else
        let (hit, s) := s.drawBit
        if hit then
          let (err, s) := s.drawError
          if err then (none, s.loseL1 core e) else (some (e.bytes f.at_ n), (s.hitL1 core e (sectorsOf f.at_ n)).countCore core 1 1)
        else s.readMiss b entry core f n := rfl

theorem State.readHome_seen {s : State} (hs : s.samples = []) (b : By) (entry : Nat) (core : CoreId) (f : Leaf) (n : Nat) :
    (s.readHome b entry core f n).2.seen = s.seen := by
  have hread := s.readPiece_seen b f n
  rw [State.readHome, State.movedFor_of_no_samples hs]
  split
  next h => rw [h] at hread; exact hread
  next v u h =>
    rw [h] at hread
    set u1 := if f.cp = 0 then u.copyFor (homeOf f.cp f.at_) (lineOf f.at_) core b.team else u with hu1
    set u2 := (u1.countCore core 1 1).dropOlder core (lineOf f.at_) (u1.lineState (lineOf f.at_)).tag with hu2
    have h1 : u1.seen = s.seen := by
      rw [hu1]
      split
      · exact (seen_of_offTier (State.copyFor_offTier ..)).trans hread
      · exact hread
    have h2 : u2.seen = s.seen := (State.dropOlder_seen ..).trans ((State.countCore_seen ..).trans h1)
    have h3 : (if f.cp = 2 then (false, u2) else u2.drawBit).2.seen = s.seen := by
      split
      · exact h2
      · exact h2
    have hfill (q : Bool × State) (hq : q.2.seen = s.seen) : (if q.1 then q.2.fillIf core f b.secure b.asid (sectorsOf f.at_ n) else (false, q.2)).2.seen = s.seen := by
      split
      · exact (seen_of_uncached (State.fillIf_uncached ..)).trans hq
      · exact hq
    exact (seen_of_uncached (State.expand_uncached ..)).trans (hfill _ h3)

theorem State.readMiss_seen {s : State} (hs : s.samples = []) (b : By) (entry : Nat) (core : CoreId) (f : Leaf) (n : Nat) :
    (s.readMiss b entry core f n).2.seen = s.seen := by
  have hsignal : (s.coreSignal core 7 1).seen = s.seen := seen_of_uncached (State.coreSignal_uncached ..)
  have hhome (v : State) (hv : v.seen = s.seen) : (v.readHome b entry core f n).2.seen = s.seen := (State.readHome_seen ((samples_of_seen hv).trans hs) ..).trans hv
  simp only [State.readMiss]
  split
  · have hprobe : ((s.coreSignal core 7 1).probe core (lineOf f.at_) b.secure (sectorsOf f.at_ n)).2.seen = s.seen :=
      (seen_of_uncached (State.probe_uncached ..)).trans hsignal
    split
    next e v h =>
      rw [h] at hprobe
      rw [State.movedFor_of_no_samples ((samples_of_seen hprobe).trans hs)]
      exact (State.dropOlder_seen ..).trans ((State.countCore_seen ..).trans hprobe)
    next v h => rw [h] at hprobe; exact hhome v hprobe
  · exact hhome _ hsignal

theorem State.readPlain_seen {s : State} (hs : s.samples = []) (b : By) (entry : Nat) (core : CoreId) (f : Leaf) (n : Nat) :
    (s.readPlain b entry core f n).2.seen = s.seen := by
  have hmiss (v : State) (hv : v.seen = s.seen) : (v.readMiss b entry core f n).2.seen = s.seen := (State.readMiss_seen ((samples_of_seen hv).trans hs) ..).trans hv
  rw [State.readPlain_eq]
  split
  · exact hmiss s rfl
  next e _ =>
    split
    · exact hmiss s rfl
    · have hhit (hit : Bool) (v : State) (hv : v.seen = s.seen) : (if hit then
          let (err, v) := v.drawError
          if err then (none, v.loseL1 core e) else (some (e.bytes f.at_ n), (v.hitL1 core e (sectorsOf f.at_ n)).countCore core 1 1)
          else v.readMiss b entry core f n).2.seen = s.seen := by
        cases hit with
        | false => exact hmiss v hv
        | true =>
          simp only [if_true]
          split
          · exact hv
          · exact (State.countCore_seen ..).trans ((seen_of_uncached (State.hitL1_uncached ..)).trans hv)
      exact hhit _ _ rfl

/-! ### A turn of one lane (R382) -/

/-- RENDER_RESULT of a word of one lane that still waits, which nothing older holds back: a turn of that lane. -/
theorem exec_renderResult {s : State} {c : Crew} {sid : Sid} {t : Strand} {e : Entry} {l : Nat} (hc : s.crew? c.id = some c) (ht : s.strand? c.id sid = some t)
    (he : s.entry? c.id sid e.id = some e) (hdraw : isDrawing (wordOf e.word) = true) (hlanes : lanesOf e.undone = [l]) (hsent : e.sent = 0) (hfaults : e.faults = [])
    (hlog : t.log = [e]) (hheld : s.lateHeld c t e = false) : exec (.renderResult c.id sid e.id) s = .next (s.renderLane c t e true l) := by
  have hexec : exec (.renderResult c.id sid e.id) s = execRenderResult c.id sid e.id s := rfl
  have hfl : e.faultLanes = 0 := by rw [Entry.faultLanes, hfaults]; rfl
  have hnext : t.nextOf e l = true := by simp [Strand.nextOf, hlog]
  rw [hexec, execRenderResult, hc, ht, he]
  simp only [hdraw, hlanes, hfl, hsent, Bool.not_true, Bool.false_eq_true, if_false]
  rw [List.filter_cons_of_pos (by simp [hnext]), List.filter_nil, List.foldl_cons, List.foldl_nil, hheld]
  rfl

/-- The engine access of a lane of a rendering word. -/
def drawBy (c : Crew) (n : Nat) (e : Entry) (l : Nat) : By :=
  { asid := c.asid, secure := c.secure, team := some (c.id, n), who := c.who (.wave n 0) l, src := { src := 0, chan := 0, tmpl := 0, retired := false },
    lane := some (c.id, .wave n 0, e.inH, l) }

/-- What a lane of a rendering word sees of what it has read. -/
def drawSees (e : Entry) (l : Nat) : Rd Drawn := drawLane (e.got l) (wordOf e.word) l (unpackWords (e.srcOf l))

theorem State.renderLane_eq {n : Nat} {t : Strand} (hsid : t.sid = .wave n 0) (s : State) (c : Crew) (e : Entry) (l : Nat) : s.renderLane c t e true l =
    match drawSees e l with
    | .error ps =>
      let (k, s) := s.drawIndex ps.length
      (match ps[k]? with
        | some p => s.drawRead (drawBy c n e l) c t e l p
        | none => s)
    | .ok (.regs r) => match renderDest (wordOf e.word) with
      | some d => (match groupFault d r.length (if e.inH then 8 else c.desc.w0lim) with
        | some k => s.drawFault c t e l (k, (e.ea l).toNat, false)
        | none => (if (t.thread l).exited then s else ((entryCtx s c t e).writeGroup d l (r.map (BitVec.ofNat 32)) s).lastLane c.id t.sid e l).complete c.id t.sid e.id (1#32 <<< l))
      | none => s.complete c.id t.sid e.id (1#32 <<< l)
    | .ok (.adds r) =>
      if r.any fun x => t.lineOpen (some e.id) l (BitVec.ofNat 64 x.1) then s
      else match s.gradPlaces (drawBy c n e l) r with
      | (.error x, s) => s.drawFault c t e l x
      | (.ok fs, s) =>
        if fs.isEmpty then s.complete c.id t.sid e.id (1#32 <<< l)
        else if fs.any fun q => s.lineInFlight c t q.1 [l] then s
        else s.sendAdds c t e l fs := by
  rw [State.renderLane]
  simp only [hsid, Nat.mul_zero, Nat.zero_add]
  rfl

/-- An entry that changes in a state in which only an access has been made: registers are as they were. -/
theorem exists_modEntry {s v : State} (hv : v.seen = s.seen) {k : Nat} {sid : Sid} {e : Entry} (he : s.entry? k sid e.id = some e) {f : Entry → Entry}
    (hf : ∀ x, (f x).id = x.id) : (v.modEntry k sid e.id f).regs = s.regs
      ∧ ∃ t', (v.modEntry k sid e.id f).strand? k sid = some t' ∧ t'.log.find? (fun x => x.id == e.id) = some (f e) := by
  have hentry : (v.modEntry k sid e.id f).entry? k sid e.id = some (f e) := by
    rw [State.entry?_modEntry _ _ _ _ hf, entry?_of_seen hv, he]
    rfl
  exact ⟨(show (v.modEntry k sid e.id f).regs = v.regs from rfl).trans (regs_of_seen hv), Option.bind_eq_some_iff.1 hentry⟩

theorem State.drawIndex_seen (s : State) (n : Nat) : (s.drawIndex n).2.seen = s.seen := by
  obtain ⟨j, hj⟩ := s.drawIndex_eq n
  rw [hj]
  rfl

theorem lineOpen_self {t : Strand} {e : Entry} {l : Nat} (hlog : t.log = [e]) (hword : isDrawing (wordOf e.word) = true) (a : Word) : t.lineOpen (some e.id) l a = false := by
  have hnot : isTstb (wordOf e.word) = false := by
    revert hword
    cases wordOf e.word <;> simp [isTstb, isDrawing, isRender]
  simp [Strand.lineOpen, hlog, hnot]

/-- What a read that a lane makes comes to, from its translation on. -/
def drawnAt (b : By) (c : Crew) (t : Strand) (e : Entry) (l : Nat) (p : Nat × Nat) (q : Walk × State) : State :=
  match q.1 with
  | .fail k ab => q.2.drawFault c t e l (k, p.1, ab)
  | .ok f =>
    let v := q.2.answered f
    if v.1 = false then v.2.drawFault c t e l (6, p.1, false)
    else match (v.2.readPlain b e.id (c.coreOf t.sid) f p.2).1 with
    | none => (v.2.readPlain b e.id (c.coreOf t.sid) f p.2).2.drawFault c t e l (9, p.1, false)
    | some d => (v.2.readPlain b e.id (c.coreOf t.sid) f p.2).2.modEntry c.id t.sid e.id fun e => { e with reads := e.reads ++ [⟨l, p.1, d⟩] }

theorem State.drawRead_eq {t : Strand} {e : Entry} {l : Nat} {s : State} {b : By} {c : Crew} {p : Nat × Nat} (hopen : t.lineOpen (some e.id) l (BitVec.ofNat 64 p.1) = false)
    (hfly : ∀ f, (s.leafFor b .load p.1).1 = .ok f → (s.leafFor b .load p.1).2.lineInFlight c t f [l] = false) :
    s.drawRead b c t e l p = drawnAt b c t e l p (s.leafFor b .load p.1) := by
  rw [State.drawRead, hopen]
  generalize s.leafFor b .load p.1 = q at hfly ⊢
  obtain ⟨r, v⟩ := q
  cases r with
  | fail k ab => rfl
  | ok f =>
    simp only [Bool.false_eq_true, if_false, hfly f rfl, drawnAt]
    generalize v.answered f = q
    obtain ⟨a, v⟩ := q
    cases a with
    | false => rfl
    | true =>
      simp only [Bool.true_eq_false, if_false]
      generalize v.readPlain b e.id (c.coreOf t.sid) f p.2 = q
      obtain ⟨d, v⟩ := q
      cases d <;> rfl

theorem Ctx.writeGroup_eq (c : Ctx) (o : Opd) (l : Nat) (vs : List (BitVec 32)) (s : State) : ∃ r, c.writeGroup o l vs s = { s with regs := r } := by
  cases o with
  | v k => exact c.writeGroupFrom_eq k.toNat l vs s
  | _ => exact ⟨s.regs, rfl⟩

/-- Settles O35. -/
theorem renderingWords : Obligations.RenderingWords := by
  unfold Obligations.RenderingWords
  refine ⟨fun s c p d a b e hact hroom => ?_, ?_⟩
  · intro go root tri tex
    have hgo {i : Instr} {k : Counts} {at_ : Nat → Word} {n : Nat} {src : Nat → List Nat} {body : Ctx → Out} (hi : exec i s = word i s body)
        (hb : body c = c.renderIssue k at_ n src) : go i k at_ n src := by
      intro h hk hal hline
      rw [hi]
      exact h.logs hb (misaligned_nil fun l hl => hal l (Ctx.mem_ls.1 hl)) hact hroom hk hline
    refine ⟨hgo rfl rfl, hgo rfl rfl, hgo rfl rfl, hgo rfl rfl, hgo rfl rfl, hgo rfl rfl, fun h hk => ?_⟩
    obtain ⟨hs0, -, -, ht, -⟩ := ctx_eq h.slot
    let src (l : Nat) : List Word := packWords (c.groupWords a 4 l ++ [c.rd .n32 b l, c.rd .n32 e l])
    have hstrand : (c.newEntry s false c.ls src ⟨0, 0, 0, 1⟩).2.strand? c.id c.sid = some { c.t.raise ⟨0, 0, 0, 1⟩ with log := c.t.log ++ [c.entryOf s.ids false c.ls src ⟨0, 0, 0, 1⟩] } := by
      rw [Ctx.newEntry_eq]
      exact c.strand?_modT (s := { s with ids := s.ids + 1 }) ht _
    refine h.enters (e := (c.newEntry s false c.ls src ⟨0, 0, 0, 1⟩).2) ?_ rfl rfl ⟨_, s.ids, hstrand, rfl, rfl, rfl, rfl, rfl⟩
    simp only [if_neg hact, hk, Bool.not_true, Bool.false_eq_true, if_false, hs0]
    rfl
  · intro s crew sid c t e l n d hc ht hsid he hdraw hdest hlanes hsent hfaults hlog hex hsam hheld hwave b sees found
    obtain rfl : c.id = crew := State.crew?_id hc
    have hgo := exec_renderResult hc ht he hdraw hlanes hsent hfaults hlog hheld
    subst hwave
    have hfound {v : State} (hv : v.seen = s.seen) {f : Entry → Entry} (hf : ∀ x, (f x).id = x.id) {P : Entry → Prop} (hP : P (f e)) :
        found (v.modEntry c.id t.sid e.id f) P := by
      rw [hsid]
      obtain ⟨hregs, t', ht', hlog'⟩ := exists_modEntry hv he hf
      exact ⟨hregs, t', f e, ht', hlog', hP⟩
    have hfault {v : State} (hv : v.seen = s.seen) (k va : Nat) (ab : Bool) : found (v.drawFault c t e l (k, va, ab)) fun e' => laneFault l k va 1 ab ∈ e'.faults := by
      refine hfound hv (by exact fun _ => rfl) (P := fun e' => laneFault l k va 1 ab ∈ e'.faults) ?_
      rw [hdest]
      exact List.mem_append_right _ (List.mem_singleton_self _)
    refine ⟨?_, ?_⟩
    · intro ps p hsees hp at_ hfly
      have hread : s.renderLane c t e true l = (s.drawIndex ps.length).2.drawRead b c t e l p := by
        rw [State.renderLane_eq hsid, show drawSees e l = .error ps from hsees]
        simp only [hp]
        rfl
      have hturn : exec (.renderResult c.id (.wave n 0) e.id) s = .next (drawnAt b c t e l p at_) :=
        hgo.trans (congrArg _ (hread.trans (State.drawRead_eq (lineOpen_self hlog hdraw _) hfly)))
      have hleaf : at_.2.seen = s.seen := (State.leafFor_seen ..).trans (s.drawIndex_seen _)
      clear_value at_
      obtain ⟨r, v⟩ := at_
      refine ⟨_, hturn, ?_⟩
      cases r with
      | fail k ab => exact hfault hleaf ..
      | ok f =>
        have hans : (v.answered f).2.seen = s.seen := (State.answered_seen ..).trans hleaf
        have hplain := (State.readPlain_seen ((samples_of_seen hans).trans hsam) b e.id (c.coreOf t.sid) f p.2).trans hans
        rw [← hsid]
        simp only [drawnAt]
        by_cases hlost : (v.answered f).1 = false
        · simp only [if_pos hlost]
          exact hfault hans ..
        · simp only [if_neg hlost]
          generalize (v.answered f).2.readPlain b e.id (c.coreOf t.sid) f p.2 = q at hplain ⊢
          obtain ⟨d, w⟩ := q
          cases d with
          | none => exact hfault hplain ..
          | some x => exact hfound hplain (by exact fun _ => rfl) (P := fun e' => _ ∈ e'.reads) (List.mem_append_right _ (List.mem_singleton_self _))
    · intro r hsees
      rw [State.renderLane_eq hsid, show drawSees e l = .ok (.regs r) from hsees] at hgo
      simp only [hdest, hex] at hgo
      cases hg : groupFault d r.length (if e.inH then 8 else c.desc.w0lim) with
      | some k =>
        rw [hg] at hgo
        exact ⟨_, hgo, rfl, hfault rfl ..⟩
      | none =>
        rw [hg] at hgo
        obtain ⟨r', hw⟩ := (entryCtx s c t e).writeGroup_eq d l (r.map (BitVec.ofNat 32)) s
        have hsam' : (((entryCtx s c t e).writeGroup d l (r.map (BitVec.ofNat 32)) s).lastLane c.id t.sid e l).samples = [] := by
          rw [hw]
          exact congrArg (mapIf _ _) hsam
        obtain ⟨k, hk⟩ := State.complete_eq hsam' c.id t.sid e.id (1#32 <<< l)
        refine ⟨_, hgo, ?_, ?_⟩
        · exact (congrArg State.mem hk :).trans (congrArg State.mem hw :)
        · exact (congrArg State.regs hk :)

end Sys2Proof.Machine
end


section
/-! Obligation O36: the words that act on a tile. -/

namespace Sys2Proof.Machine

/-! ### The unit of a team, and the counters of the context -/

/-- The order of a team's unit, and its tiles. -/
def State.unit (s : State) (k r : Nat) : Option (List TileOp × List Tile) := (s.restTeam k r).map fun t => (t.ops, t.tiles)

/-- The counters of a crew's Gaffer context. -/
def Strand.counts (t : Strand) : Counts := ⟨t.ld, t.st, t.cp, t.tl⟩

def State.gafferCounts (s : State) (k : Nat) : Option Counts := (s.strand? k .gaffer).map Strand.counts

theorem unit_of_seen {s u : State} (h : u.seen = s.seen) (k r : Nat) : u.unit k r = s.unit k r := by
  have hmap (v : State) : v.unit k r = ((v.restTeam k r).map Team.unmarked).map fun t => (t.ops, t.tiles) := by
    rw [State.unit, Option.map_map]
    rfl
  rw [hmap, hmap, restTeam_of_seen h]

theorem gafferCounts_of_seen {s u : State} (h : u.seen = s.seen) (k : Nat) : u.gafferCounts k = s.gafferCounts k := by
  have hmap (v : State) : v.gafferCounts k = ((v.strand? k .gaffer).map Strand.unpended).map Strand.counts := by
    rw [State.gafferCounts, Option.map_map]
    rfl
  rw [hmap, hmap, strand?_of_seen h]

theorem State.unit_modTeam (s : State) (k r : Nat) {f : Team → Team} (hf : ∀ t, (f t).atRest = f t.atRest) {o : List TileOp → List TileOp} {g : List Tile → List Tile}
    (ho : ∀ t, (f t).ops = o t.ops) (hg : ∀ t, (f t).tiles = g t.tiles) : (s.modTeam k r f).unit k r = (s.unit k r).map fun q => (o q.1, g q.2) := by
  rw [State.unit, State.restTeam_modTeam s k r hf, State.unit, Option.map_map, Option.map_map]
  congr 1
  funext t
  exact Prod.ext (ho t) (hg t)

theorem State.unit_modStrand (s : State) (k r crew : Nat) (sid : Sid) (f : Strand → Strand) : (s.modStrand crew sid f).unit k r = s.unit k r := by
  rw [State.unit, State.restTeam_modStrand, State.unit]

theorem State.gafferCounts_modTeam (s : State) (k r : Nat) {f : Team → Team} (hw : ∀ t, (f t).waves = t.waves) (hp : ∀ t, (f t).producer = t.producer) :
    (s.modTeam k r f).gafferCounts k = s.gafferCounts k := by
  rw [State.gafferCounts, s.strand?_modTeam k r hw hp, State.gafferCounts]

theorem State.gafferCounts_modStrand (s : State) (k : Nat) {f : Strand → Strand} {g : Counts → Counts} (hf : ∀ t, (f t).counts = g t.counts) :
    (s.modStrand k .gaffer f).gafferCounts k = (s.gafferCounts k).map g := by
  rw [State.gafferCounts, State.strand?_modStrand_same, State.gafferCounts, Option.map_map, Option.map_map]
  exact congrArg (Option.map · _) (funext hf)

/-- What is left of a counter's words. -/
def Counts.less (k n : Counts) : Counts := ⟨k.ld - n.ld, k.st - n.st, k.cp - n.cp, k.tl - n.tl⟩

theorem State.unit_endOp (s : State) (k r : Nat) (o : TileOp) (n : Counts) : (s.endOp k r o n).unit k r = (s.unit k r).map fun q => (q.1.filter fun y => y.id != o.id, q.2) :=
  (State.unit_modStrand ..).trans (s.unit_modTeam k r (f := fun t => { t with ops := t.ops.filter fun y => y.id != o.id }) (o := fun l => l.filter fun y => y.id != o.id)
    (g := fun l => l) (fun _ => rfl) (fun _ => rfl) fun _ => rfl)

theorem State.gafferCounts_endOp (s : State) (k r : Nat) (o : TileOp) (n : Counts) : (s.endOp k r o n).gafferCounts k = (s.gafferCounts k).map fun q => q.less { n with tl := 1 } := by
  rw [State.endOp, State.gafferCounts_modStrand _ _ (f := fun t => t.lower { n with tl := 1 }) (g := fun q => q.less { n with tl := 1 }) fun _ => rfl,
    State.gafferCounts_modTeam _ _ _ (by exact fun _ => rfl) (by exact fun _ => rfl)]

/-- A tile changed. -/
theorem State.unit_modTile (s : State) (k r i : Nat) (f : Tile → Tile) : (s.modTeam k r fun t => t.modTile i f).unit k r = (s.unit k r).map fun q => (q.1, listMod q.2 i f) :=
  s.unit_modTeam k r (f := fun t => t.modTile i f) (o := fun l => l) (g := fun l => listMod l i f) (fun _ => rfl) (fun _ => rfl) fun _ => rfl

theorem exists_team_of_unit {u : State} {k r : Nat} {o : List TileOp} {l : List Tile} (h : u.unit k r = some (o, l)) : ∃ y, u.team? k r = some y ∧ y.ops = o ∧ y.tiles = l := by
  obtain ⟨t, ht, hq⟩ := Option.map_eq_some_iff.1 h
  obtain ⟨y, hy, rfl⟩ := State.team?_of_restTeam ht
  exact ⟨y, hy, congrArg Prod.fst hq, congrArg Prod.snd hq⟩

theorem unit_of_still {s u : State} (h : u.still = s.still) (k r : Nat) : u.unit k r = s.unit k r := by
  rw [State.unit, State.restTeam_of_still h, State.unit]

theorem gafferCounts_of_still {s u : State} (h : u.still = s.still) (k : Nat) {n : Counts} (hs : s.gafferCounts k = some n) : u.gafferCounts k = some n := by
  obtain ⟨t, ht, hn⟩ := Option.map_eq_some_iff.1 hs
  obtain ⟨q, hq, hsame⟩ := strand?_of_still h ht
  rw [State.gafferCounts, hq, Option.map_some, ← hn]
  exact congrArg some (congrArg Strand.counts hsame :)

/-! ### A word that is accepted (R175, R183) -/

section
variable {s : State} {c : Ctx} {core : BitVec 2} {tile : BitVec 4} {x : BitVec 6} {t : Team}

/-- The state in which a word of a tile has been accepted. -/
def Ctx.tookWord (c : Ctx) (s : State) (core : BitVec 2) (tile : BitVec 4) (ga : Word) (now : Bool) (k : Counts) : State :=
  c.addOp core tile ga now s.ids (c.modT { s with ids := s.ids + 1 } fun q => q.raise { k with tl := 1 })

/-- The operation that it has added. -/
def Ctx.tileOp (c : Ctx) (id : Nat) (tile : BitVec 4) (ga : Word) (now : Bool) : TileOp :=
  { id := id, word := c.word, tile := tile.toNat, ga := ga, mma := none, inH := c.inH, now := now }

theorem Ctx.restTeam_tookWord (hs : s.restTeam c.id core.toNat = some t.atRest) (ga : Word) (now : Bool) (k : Counts) :
    (c.tookWord s core tile ga now k).restTeam c.id core.toNat = some { t.atRest with ops := t.ops ++ [c.tileOp s.ids tile ga now] } := by
  have hraise : (c.modT { s with ids := s.ids + 1 } fun q => q.raise { k with tl := 1 }).restTeam c.id core.toNat = s.restTeam c.id core.toNat :=
    State.restTeam_modT { s with ids := s.ids + 1 } ..
  rw [Ctx.tookWord, Ctx.addOp, State.restTeam_modTeam _ _ _ (by exact fun _ => rfl), hraise, hs]
  rfl

/-- What an engine access of a tile takes from its crew. -/
def Crew.reach (d : Crew) (r : Nat) : BitVec 16 × Bool × CoreId := (d.asid, d.secure, d.teamCore r)

theorem Crew.reach_modTeam (d : Crew) (r i : Nat) {f : Team → Team} (hf : ∀ t, (f t).core = t.core) : (d.modTeam i f).reach r = d.reach r := by
  have hcore : ((d.modTeam i f).teams[r]?).map Team.core = (d.teams[r]?).map Team.core := by
    rw [Crew.modTeam_teams, List.getElem?_modify]
    cases d.teams[r]? with
    | none => rfl
    | some tm =>
      by_cases hi : i = r
      · simp [hi, hf]
      · simp [hi]
  simp only [Crew.reach, Crew.teamCore, hcore]
  rfl

theorem Crew.reach_modStrand (d : Crew) (r : Nat) (sid : Sid) (f : Strand → Strand) : (d.modStrand sid f).reach r = d.reach r := by
  cases sid with
  | gaffer => rfl
  | wave i w => exact d.reach_modTeam r i (by exact fun _ => rfl)
  | producer i => exact d.reach_modTeam r i (by exact fun _ => rfl)

theorem State.reach_modCrew (s : State) (k r : Nat) {f : Crew → Crew} (hid : ∀ d, (f d).id = d.id) (hf : ∀ d, (f d).reach r = d.reach r) :
    ((s.modCrew k f).crew? k).map (Crew.reach · r) = (s.crew? k).map (Crew.reach · r) := by
  rw [State.crew?_modCrew_same s k hid, Option.map_map]
  exact congrArg (Option.map · _) (funext hf)

/-- The crew of a word that has been accepted reaches what it reached. -/
theorem Ctx.reach_tookWord (hc : s.crew? c.id = some c.crew) (ga : Word) (now : Bool) (k : Counts) :
    ((c.tookWord s core tile ga now k).crew? c.id).map (Crew.reach · core.toNat) = some (c.crew.reach core.toNat) := by
  rw [Ctx.tookWord, Ctx.addOp, State.modTeam, State.reach_modCrew _ _ _ (f := fun d => d.modTeam core.toNat _) (fun _ => rfl)
      (fun d => d.reach_modTeam _ _ (by exact fun _ => rfl)), Ctx.modT, State.modStrand,
    State.reach_modCrew _ _ _ (f := fun d => d.modStrand c.sid _) (fun d => by cases c.sid <;> rfl) (fun d => d.reach_modStrand ..)]
  exact congrArg (Option.map _) hc

theorem Issues.unit {i : Instr} (h : Issues s i c) (ht : c.teamOf core = some t) : s.unit c.id core.toNat = some (t.ops, t.tiles) := by
  rw [State.unit, h.restTeam ht]
  rfl

/-- A word of a tile that joins the order of its unit. -/
theorem Issues.accepts {i : Instr} (h : Issues s i c) {body : Ctx → Out} (ht : c.teamOf core = some t) (ga : Word) {k : Counts} (hcp : k.cp = 0)
    (hk : c.t.canRaise { k with tl := 1 } = true) (hb : body c = c.tileAccept k (c.addOp core tile ga false)) : c.Accepts (word i s body) core tile ga k := by
  obtain ⟨hs0, -, -, hst, -⟩ := ctx_eq h.slot
  have hdone : body c = .done (c.tookWord s core tile ga false k) := by
    rw [hb, Ctx.tileAccept]
    simp only [hk, Bool.not_true, Bool.false_eq_true, if_false, hs0]
    rfl
  obtain ⟨u, hu, hstill⟩ := word_done h hdone
  have hunit : u.unit c.id core.toNat = some (t.ops ++ [c.tileOp s.ids tile ga false], t.tiles) :=
    (unit_of_still hstill ..).trans (by rw [State.unit, Ctx.restTeam_tookWord (h.restTeam ht)]; rfl)
  have hstrand : (c.tookWord s core tile ga false k).strand? c.id c.sid = some (c.t.raise { k with tl := 1 }) :=
    (State.strand?_modTeam _ _ _ (by exact fun _ => rfl) (by exact fun _ => rfl) _).trans (c.strand?_modT (s := { s with ids := s.ids + 1 }) hst _)
  obtain ⟨q, hq, hsame⟩ := strand?_of_still hstill hstrand
  obtain ⟨y, hy, hops, -⟩ := exists_team_of_unit hunit
  have hcounts : q.counts = (c.t.raise { k with tl := 1 }).counts := (congrArg Strand.counts hsame :)
  simp only [Strand.counts, Counts.mk.injEq] at hcounts
  obtain ⟨hld, hst', hcp', htl⟩ := hcounts
  refine ⟨u, q, y, c.tileOp s.ids tile ga false, hu, ?_, ?_, hq, hy, ?_, rfl, rfl, rfl, rfl, hld, hst', ?_, htl⟩
  · rw [hs0]; exact (congrArg State.mem hstill :)
  · rw [hs0]; exact (congrArg State.regs hstill :)
  · rw [hops, ht]; rfl
  · rw [hcp']
    show c.t.cp + k.cp = c.t.cp
    rw [hcp, Nat.add_zero]

/-- A word of a Suspended tile applies at once, in the state in which it has been accepted (R183). -/
theorem Issues.appliesNow {i : Instr} (h : Issues s i c) {k : Counts} {bad : Word → List (Nat × Nat)} (hact : c.act ≠ 0) (ht : c.teamOf core = some t)
    (hnow : t.nowOn tile.toNat = false) (hrank : t.rank = core.toNat) {o : TileOp} (hsusp : (t.tile tile.toNat).susp = some o) (hk : c.t.canRaise { k with tl := 1 } = true)
    (hheld : s.unitHeld c.crew t { id := s.ids, word := c.word, tile := tile.toNat, ga := c.gReg x.toNat, mma := none, inH := c.inH } = false)
    (hbad : bad (c.gReg x.toNat) = []) : ∃ d v u, (c.tookWord s core tile (c.gReg x.toNat) true k).crew? c.id = some d ∧ d.id = c.id ∧ d.reach core.toNat = c.crew.reach core.toNat
      ∧ (c.tookWord s core tile (c.gReg x.toNat) true k).team? c.id core.toNat = some v ∧ v.atRest = { t.atRest with ops := t.ops ++ [c.tileOp s.ids tile (c.gReg x.toNat) true] }
      ∧ word i s (fun c => c.boundWord core tile x k bad) = .next u
      ∧ u.still = ((c.tookWord s core tile (c.gReg x.toNat) true k).applyOp d { v with rank := core.toNat } (c.tileOp s.ids tile (c.gReg x.toNat) true)
        (o.mma.map fun m => (o, m))).still := by
  obtain ⟨hs0, -, hc, -⟩ := ctx_eq h.slot
  obtain ⟨d, hd, hreach⟩ := Option.map_eq_some_iff.1 (Ctx.reach_tookWord (core := core) (tile := tile) hc (c.gReg x.toNat) true k)
  obtain ⟨v, hv, hvr⟩ := State.team?_of_restTeam (Ctx.restTeam_tookWord (tile := tile) (h.restTeam ht) (c.gReg x.toNat) true k)
  have hsame : { t with rank := core.toNat } = t := by rw [← hrank]
  have hdone : c.boundWord core tile x k bad = .done ((c.tookWord s core tile (c.gReg x.toNat) true k).applyOp d { v with rank := core.toNat }
      (c.tileOp s.ids tile (c.gReg x.toNat) true) (o.mma.map fun m => (o, m))) := by
    rw [Ctx.boundWord, ht]
    simp only [if_neg hact, hbad, hsusp, hnow, hsame, hs0, hheld, Bool.or_self, Bool.false_eq_true, if_false, Ctx.tileAccept, hk, Bool.not_true]
    have hmatch {a b : State} (f : Crew → Team → State) (ha : a.crew? c.id = some d) (hb : a.team? c.id core.toNat = some v) : Out.done (match a.crew? c.id, a.team? c.id core.toNat with
        | some d, some u => f d u
        | _, _ => b) = .done (f d v) := by rw [ha, hb]
    exact hmatch (fun d u => State.applyOp _ d { u with rank := core.toNat } _ _) hd hv
  obtain ⟨u, hu, hstill⟩ := word_done h (body := fun c => c.boundWord core tile x k bad) hdone
  exact ⟨d, v, u, hd, State.crew?_id hd, hreach, hv, hvr, hu, hstill⟩

theorem Issues.gafferCounts_tookWord {i : Instr} (h : Issues s i c) (hsid : c.sid = .gaffer) (ga : Word) (now : Bool) (k : Counts) :
    (c.tookWord s core tile ga now k).gafferCounts c.id = some (c.t.raise { k with tl := 1 }).counts := by
  obtain ⟨-, -, -, hst, -⟩ := ctx_eq h.slot
  have hstrand : (c.tookWord s core tile ga now k).strand? c.id c.sid = some (c.t.raise { k with tl := 1 }) :=
    (State.strand?_modTeam _ _ _ (by exact fun _ => rfl) (by exact fun _ => rfl) _).trans (c.strand?_modT (s := { s with ids := s.ids + 1 }) hst _)
  rw [State.gafferCounts, ← hsid, hstrand]
  rfl

theorem Issues.unit_tookWord {i : Instr} (h : Issues s i c) (ht : c.teamOf core = some t) (ga : Word) (now : Bool) (k : Counts) :
    (c.tookWord s core tile ga now k).unit c.id core.toNat = some (t.ops ++ [c.tileOp s.ids tile ga now], t.tiles) := by
  rw [State.unit, Ctx.restTeam_tookWord (h.restTeam ht)]
  rfl

/-- An operation that was added last, with a number of its own, leaves the order as it was before. -/
theorem filter_added {l : List TileOp} {o : TileOp} (hfresh : ∀ y ∈ l, y.id < o.id) : (l ++ [o]).filter (fun y => y.id != o.id) = l := by
  rw [List.filter_append, List.filter_eq_self.2 fun y hy => by simpa using (hfresh y hy).ne, List.filter_cons_of_neg (by simp), List.filter_nil, List.append_nil]

end

theorem tile_of_tiles {y t : Team} {i : Nat} {f : Tile → Tile} (hi : i < t.tiles.length) (h : y.tiles = listMod t.tiles i f) : y.tile i = f (t.tile i) := by
  have : y.tile i = (t.modTile i f).tile i := by rw [Team.tile, h]; rfl
  exact this.trans (Team.tile_modTile hi f)

/-- The context and the team of a word that has applied. -/
theorem exists_applied_now {u w : State} {k r : Nat} {n : Counts} {l : List TileOp} {ts : List Tile} (hstill : u.still = w.still) (hn : w.gafferCounts k = some n)
    (hu : w.unit k r = some (l, ts)) : ∃ q y, u.strand? k .gaffer = some q ∧ u.team? k r = some y ∧ q.counts = n ∧ y.ops = l ∧ y.tiles = ts := by
  obtain ⟨q, hq, hqn⟩ := Option.map_eq_some_iff.1 (gafferCounts_of_still hstill k hn)
  obtain ⟨y, hy, hops, htiles⟩ := exists_team_of_unit ((unit_of_still hstill k r).trans hu)
  exact ⟨q, y, hq, hy, hqn, hops, htiles⟩

/-- A state that an access was made in and that then changes a tile and lets go of an operation. -/
theorem unit_applied {v w : State} (hv : v.seen = w.seen) {k r i : Nat} {l : List TileOp} {ts : List Tile} (hw : w.unit k r = some (l, ts)) (f : Tile → Tile) (o : TileOp) (n : Counts) :
    ((v.modTeam k r fun t => t.modTile i f).endOp k r o n).unit k r = some (l.filter fun y => y.id != o.id, listMod ts i f) := by
  rw [State.unit_endOp, State.unit_modTile, unit_of_seen hv, hw]
  rfl

theorem gafferCounts_applied {v w : State} (hv : v.seen = w.seen) {k r i : Nat} {n : Counts} (hw : w.gafferCounts k = some n) (f : Tile → Tile) (o : TileOp) (m : Counts) :
    ((v.modTeam k r fun t => t.modTile i f).endOp k r o m).gafferCounts k = some (n.less { m with tl := 1 }) := by
  rw [State.gafferCounts_endOp, State.gafferCounts_modTeam _ _ _ (by exact fun _ => rfl) (by exact fun _ => rfl), gafferCounts_of_seen hv, hw]
  rfl

/-! ### The bound that an entry brings (R189) -/

theorem read_not_nan {v : Nat} (h : v ≤ 0x7F800000) (n : Bool) (m : Nat) : fp32.read v ≠ .nan n m := by
  intro hread
  rw [Fmt.read] at hread
  split at hread
  next hex =>
    have hfr : fld v 0 fp32.m = 0 := by
      simp only [fld, fp32, Bool.true_and, beq_iff_eq] at hex ⊢
      omega
    rw [if_pos hfr] at hread
    cases hread
  next => split at hread <;> cases hread

theorem read_neg {v : Nat} (h : v ≤ 0x7F800000) : (fp32.read v).neg = false := by
  have hs : (fld v (fp32.m + fp32.ebits) 1 == 1) = false := by
    simp only [fld, fp32, beq_eq_false_iff_ne]
    omega
  rw [Fmt.read, hs]
  split
  · split <;> rfl
  · split <;> rfl

/-- A bound that is no NaN and not negative is taken as it stands. -/
theorem loadedBound_self {v : Nat} (h : v ≤ 0x7F800000) : loadedBound v = v := by
  rw [loadedBound]
  split
  next hread => exact absurd hread (read_not_nan h _ _)
  next => rw [read_neg h]; rfl

theorem wfld_31 {g : Word} (h : wbit g 31 = false) : wfld g 0 32 = wfld g 0 31 := by
  have : g.toNat / 2 ^ 31 % 2 = 0 := by
    rw [wbit, BitVec.getLsbD, Nat.testBit_eq_decide_div_mod_eq] at h
    simpa using h
  simp only [wfld, fld]
  omega

/-! ### The largest magnitude of a tile -/

theorem State.maxMag_congr {s u : State} (h : u.regs = s.regs) (core : CoreId) (t : Team) (i : Nat) : u.maxMag core t i = s.maxMag core t i := by
  have hbytes : u.regBytes = s.regBytes := by funext core addr n; simp only [State.regBytes, State.regWord, h]
  simp only [State.maxMag, State.elems, State.elem, State.regNat, hbytes]

theorem State.maxMag_atRest (s : State) (core : CoreId) (t : Team) (l : List TileOp) (i : Nat) : s.maxMag core { t.atRest with ops := l } i = s.maxMag core t i := by
  simp only [State.maxMag, State.elems, State.elem]
  rfl
/-! ### `TSTB` at a Suspended tile (R188) -/

/-- What an accepted store of a tile sends: its entry, or its full state. -/
def Tile.stored (x : Tile) (at_ mm : Nat) (status : Word) (full : Bool) : Act :=
  if full then ⟨0, at_, 16, x.bound &&& 0x1FFFFFFFFFF, status⟩ else ⟨0, at_, 8, BitVec.ofNat 64 (bBound x.bound + mm * 2 ^ 32), 0⟩

/-- The state in which the store of a tile is on its way: MAXMAG is set, the store stands in the context's log, and its message waits. -/
def State.tileStored (s : State) (c : Crew) (t : Team) (o : TileOp) (g : Strand) (f : Leaf) (status : Word) (a : Act) : State :=
  let s := s.modTeam c.id t.rank fun t => t.modTile o.tile fun x => { x with status := status }
  let e : Entry := { id := s.ids, word := o.word, pos := 0, path := 0, inH := o.inH, logged := false, lanes := 1, done := 0, sent := 1, faults := [],
                     src := [[o.ga, a.b, a.c]], cnt := ⟨0, 1, 0, 0⟩, reads := [] }
  let s := ({ s with ids := s.ids + 1 }).modStrand c.id .gaffer fun t => { t with log := t.log ++ [e] }
  (s.post { baseMsg c g e .store [0] with
    point := homeOf f.cp f.at_, line := lineOf f.at_, leaf := f, acts := [a], sys := (keyPcie f.at_ || keyPeer f.at_) && !keyLpddr f.at_ }).endOp c.id t.rank o .none

theorem State.applyTstb_ok {s s1 : State} {c : Crew} {t : Team} {o : TileOp} {full : Bool} {g : Strand} {f : Leaf} (hg : c.gaffer = some g)
    (hat : s.translate c.asid c.secure .store o.ga = (.ok f, s1)) (hok : engineOk f = true) (hblock : inBlockAperture o.ga = false) {mm : Nat}
    (hmm : s1.maxMag (c.teamCore t.rank) t o.tile = mm) {status : Word} (hstatus : wput (t.tile o.tile).status 32 32 mm = status) {a : Act}
    (ha : (t.tile o.tile).stored f.at_ mm status full = a) : s.applyTstb c t o full = s1.tileStored c t o g f status a := by
  subst hmm hstatus ha
  rw [State.applyTstb]
  simp only [hg, hat, hok, hblock, Bool.not_true, Bool.or_self, Bool.false_eq_true, if_false]
  cases full <;> rfl

section
variable (s : State) (c : Crew) (t : Team) (o : TileOp) (g : Strand) (f : Leaf) (status : Word) (a : Act)

theorem State.tileStored_unit {l : List TileOp} {ts : List Tile} (h : s.unit c.id t.rank = some (l, ts)) :
    (s.tileStored c t o g f status a).unit c.id t.rank = some (l.filter fun y => y.id != o.id, listMod ts o.tile fun x => { x with status := status }) := by
  rw [State.tileStored, State.unit_endOp]
  refine (congrArg (Option.map _) ((State.unit_modStrand { (s.modTeam c.id t.rank _) with ids := s.ids + 1 } ..).trans
    (s.unit_modTile c.id t.rank o.tile fun x => { x with status := status }))).trans ?_
  rw [h]
  rfl

theorem State.tileStored_gafferCounts {n : Counts} (h : s.gafferCounts c.id = some n) :
    (s.tileStored c t o g f status a).gafferCounts c.id = some (n.less ⟨0, 0, 0, 1⟩) := by
  rw [State.tileStored, State.gafferCounts_endOp]
  refine (congrArg (Option.map _) ((State.gafferCounts_modStrand { (s.modTeam c.id t.rank _) with ids := s.ids + 1 } _ (g := id) (by exact fun _ => rfl)).trans
    (congrArg (Option.map _) ((s.gafferCounts_modTeam c.id t.rank (by exact fun _ => rfl) (by exact fun _ => rfl)).trans h)))).trans ?_
  rfl

theorem State.tileStored_msg : ∃ m ∈ (s.tileStored c t o g f status a).msgs, m.kind = .store ∧ m.point = homeOf f.cp f.at_ ∧ m.acts = [a] :=
  ⟨_, List.mem_append_right _ List.mem_cons_self, rfl, rfl, rfl⟩

end

/-! ### `TLDB` at a Suspended tile (R189) -/

theorem State.applyTldb_ok {s s1 : State} {c : Crew} {t : Team} {o : TileOp} {full : Bool} {l : List Byte} (hblock : inBlockAperture o.ga = false)
    (hload : s.loadVa (c.byTile t.rank 0) o.ga.toNat (if full then 16 else 8) = (.ok l, s1)) :
    s.applyTldb c t o full = (s1.modTeam c.id t.rank fun t => t.modTile o.tile fun x =>
      if full then { x with bound := bWith (BitVec.ofNat 64 (leNat (l.take 8)) &&& 0x1FFFFFFFFFF) (loadedBound (bBound (BitVec.ofNat 64 (leNat (l.take 8))))),
                            status := wput x.status 0 6 (leNat ((l.drop 8).take 8)) }
      else { x with bound := bWith x.bound (loadedBound (bBound (BitVec.ofNat 64 (leNat (l.take 8))))) }).endOp c.id t.rank o ⟨1, 0, 0, 0⟩ := by
  rw [State.applyTldb]
  simp only [hblock, Bool.false_eq_true, if_false, hload]

/-! ### `TSAVE` at a Suspended tile (R191) -/

/-- The Suspended operation leaves its tile. -/
def Team.unsuspended (t : Team) (i id : Nat) : Team :=
  { (t.modTile i fun x => { x with susp := none, owed := x.owed || t.srcWritten id }) with ops := t.ops.filter fun z => z.id != id }

/-- The state in which the operation `id` of tile `i` has been saved by the word of `o`. -/
def State.tileSaved (s : State) (k r i : Nat) (o : TileOp) (id : Nat) : State :=
  ((s.endOp k r o .none).modTeam k r fun t => t.unsuspended i id).releaseOp k r id

/-- The record of an operation of tile `i` that has begun. -/
def Team.savedRecord (t : Team) (i : Nat) (o : TileOp) (m : Mma) : List Byte := seqRecord (t.c0Held i o.id) o m (t.claimed o).1 (t.claimed o).2

theorem State.applyTsave_started {s : State} {c : Crew} {t t1 : Team} {o y : TileOp} {m : Mma} (hm : m.started = true) (ht : s.team? c.id t.rank = some t1) :
    s.applyTsave c t o (some (y, m)) = match s.storeVa (c.byTile t.rank 0) o.ga.toNat (t1.savedRecord o.tile y m) with
      | (.fail k va ab, s) => s.failOp c.id t.rank o .none k va ab
      | (.ok _, s) => s.tileSaved c.id t.rank o.tile o y.id := by
  unfold State.applyTsave
  simp only [hm, if_true, ht, Option.getD_some]
  rfl

theorem State.applyTsave_ok {s s1 : State} {c : Crew} {t t1 : Team} {o y : TileOp} {m : Mma} {l : List Byte} (hm : m.started = true) (ht : s.team? c.id t.rank = some t1)
    (hstore : s.storeVa (c.byTile t.rank 0) o.ga.toNat (t1.savedRecord o.tile y m) = (.ok l, s1)) : s.applyTsave c t o (some (y, m)) = s1.tileSaved c.id t.rank o.tile o y.id := by
  rw [State.applyTsave_started hm ht, hstore]

theorem State.tileSaved_restTeam {s : State} {k r : Nat} {t : Team} (h : s.restTeam k r = some t) (i : Nat) (o : TileOp) (id : Nat) :
    (s.tileSaved k r i o id).restTeam k r = some { Team.unsuspended { t with ops := t.ops.filter fun y => y.id != o.id } i id with
      steps := t.steps.filter fun x => x.op != some id } := by
  rw [State.tileSaved, restTeam_releaseOp, State.restTeam_modTeam _ _ _ (by exact fun _ => rfl), restTeam_endOp, h]
  rfl

theorem State.gafferCounts_releaseOp {s : State} {k r : Nat} {t : Team} (h : s.restTeam k r = some t) (id : Nat) :
    (s.releaseOp k r id).gafferCounts k = (s.gafferCounts k).map (Counts.less · ⟨0, 0, 0, 1⟩) := by
  obtain ⟨y, hy, -⟩ := State.team?_of_restTeam h
  rw [State.releaseOp, hy]
  refine (State.gafferCounts_modStrand _ _ (g := (Counts.less · ⟨0, 0, 0, 1⟩)) (by exact fun _ => rfl)).trans (congrArg (Option.map _) ?_)
  exact State.gafferCounts_modTeam _ _ _ (by exact fun _ => rfl) (by exact fun _ => rfl)

theorem State.tileSaved_gafferCounts {s : State} {k r : Nat} {t : Team} (h : s.restTeam k r = some t) {n : Counts} (hn : s.gafferCounts k = some n) (i : Nat) (o : TileOp) (id : Nat) :
    (s.tileSaved k r i o id).gafferCounts k = some ((n.less ⟨0, 0, 0, 1⟩).less ⟨0, 0, 0, 1⟩) := by
  obtain ⟨x, hteam⟩ : ∃ x, ((s.endOp k r o .none).modTeam k r fun t => t.unsuspended i id).restTeam k r = some x := by
    rw [State.restTeam_modTeam _ _ _ (by exact fun _ => rfl), restTeam_endOp, h]
    exact ⟨_, rfl⟩
  rw [State.tileSaved, State.gafferCounts_releaseOp hteam, State.gafferCounts_modTeam _ _ _ (by exact fun _ => rfl) (by exact fun _ => rfl), State.gafferCounts_endOp, hn]
  rfl

theorem State.tileSaved_mem (s : State) (k r i : Nat) (o : TileOp) (id : Nat) : (s.tileSaved k r i o id).mem = s.mem := State.releaseOp_mem ..

theorem State.releaseOp_regs (s : State) (k r id : Nat) : (s.releaseOp k r id).regs = s.regs := by
  rw [State.releaseOp]
  split <;> rfl

theorem State.tileSaved_regs (s : State) (k r i : Nat) (o : TileOp) (id : Nat) : (s.tileSaved k r i o id).regs = s.regs := State.releaseOp_regs ..

/-- Settles O36: a word of a tile is accepted (`Issues.accepts`), or on a Suspended tile applies at once (`Issues.appliesNow`); what each word then does is said above. -/
theorem tileWords : Obligations.TileWords := by
  unfold Obligations.TileWords
  intro s c t p a64 rm core tile x tgt pol hact ht hnow g go at_ took now sets stores loads low taken bound
  have hgo {i : Instr} {body : Ctx → Out} {ga : Word} {k : Counts} {P : Prop} (hi : exec i s = word i s body) (hcp : k.cp = 0)
      (hb : (t.tile tile.toNat).susp = none → P → body c = c.tileAccept k (c.addOp core tile ga false)) : go i ga k P := by
    intro h hsusp hk hP
    rw [hi]
    exact h.accepts ht ga hcp hk (hb hsusp hP)
  have hbound {k : Counts} {bad : Word → List (Nat × Nat)} (hsusp : (t.tile tile.toNat).susp = none) (hbad : bad g = []) :
      c.boundWord core tile x k bad = c.tileAccept k (c.addOp core tile g false) := by
    simp only [Ctx.boundWord, ht, if_neg hact, hsusp, hnow, Bool.false_eq_true, if_false]
    rw [show bad (c.gReg x.toNat) = [] from hbad]
  have hmis {n : Nat} (h : g.toNat % n = 0) : misBad g n = [] := by simp [misBad, h]
  have hplain {bad : Team → List (Nat × Nat)} (hbad : bad t = []) : c.tileWord core tile bad = c.tileAccept .none (c.addOp core tile 0 false) := by
    simp only [Ctx.tileWord, ht, if_neg hact, hnow, Bool.false_eq_true, if_false, hbad]
  have hsuspBad (h : (t.tile tile.toNat).susp = none) : suspBad t tile = [] := by simp [suspBad, h]
  have hall (h : bound) : (if loadedBound (bBound g) ≠ bBound g then [((3 : Nat), (0 : Nat))] else []) = [] := by
    obtain ⟨hsign, hle⟩ := h
    rw [if_neg (not_not.2 (loadedBound_self (by rw [bBound, wfld_31 hsign]; exact hle)))]
  refine ⟨hgo rfl rfl fun hs _ => hplain (hsuspBad hs), hgo rfl rfl fun hs hf => hplain ?_, hgo rfl rfl fun hs h => hbound hs (hmis h), hgo rfl rfl fun hs h => hbound hs (hmis h),
    hgo rfl rfl fun hs h => hbound hs (hmis h), hgo rfl rfl fun hs h => hbound hs (hmis h), hgo rfl rfl fun hs _ => hbound hs rfl, hgo rfl rfl fun hs h => hbound hs (hmis h),
    hgo rfl rfl fun hs h => hbound hs (hall h), hgo rfl rfl fun hs h => hbound hs (hmis h), ?_⟩
  · rw [hsuspBad hs, if_neg hf]; rfl
  have hsets {i : Instr} {bad : Word → List (Nat × Nat)} {P : Prop} (b : Bool) (hi : exec i s = word i s fun c => c.boundWord core tile x .none bad) (hbad : P → bad g = [])
      (happly : wordOf c.word = i → ∀ (S : State) d v q, S.applyOp d v (c.tileOp s.ids tile g true) q = S.applyTbset d.id v (c.tileOp s.ids tile g true) g b) :
      sets i P fun y => if b then g &&& 0x1FFFFFFFFFF else wput y 32 9 (wfld g 32 9) := by
    intro h hw hsid hrank hsusp hk hfresh hlen hheld hP
    obtain ⟨o, ho⟩ := Option.isSome_iff_exists.1 hsusp
    obtain ⟨d, v, u, hd, hid, hreach, hv, hvr, hu, hstill⟩ := h.appliesNow hact ht hnow hrank ho hk hheld (hbad hP)
    rw [happly hw, State.applyTbset, hid] at hstill
    obtain ⟨q, y, hq, hy, hcounts, hops, htiles⟩ := exists_applied_now hstill (gafferCounts_applied rfl (h.gafferCounts_tookWord hsid ..) ..) (unit_applied rfl (h.unit_tookWord ht ..) ..)
    have htile := tile_of_tiles hlen htiles
    refine ⟨u, q, y, hi.trans hu, (congrArg State.regs hstill :), hsid ▸ hq, hy, (congrArg State.mem hstill :), ?_, hops.trans (filter_added hfresh), ?_, ?_, ?_⟩
    · exact (congrArg Counts.tl hcounts).trans (Nat.add_sub_cancel ..)
    · rw [htile]
    · rw [htile]
    · rw [htile]
  have hstores {i : Instr} {bad : Word → List (Nat × Nat)} (full : Bool) (hi : exec i s = word i s fun c => c.boundWord core tile x ⟨0, 1, 0, 0⟩ bad)
      (hbad : g.toNat % (if full then 16 else 8) = 0 → bad g = [])
      (happly : wordOf c.word = i → ∀ (S : State) d v q, S.applyOp d v (c.tileOp s.ids tile g true) q = S.applyTstb d v (c.tileOp s.ids tile g true) full) : stores i full := by
    intro f s1 htrans hok hblock hal h hw hsid hrank hsusp hk hfresh hlen hheld _
    obtain ⟨o, ho⟩ := Option.isSome_iff_exists.1 hsusp
    obtain ⟨d, v, u, hd, hid, hreach, hv, hvr, hu, hstill⟩ := h.appliesNow hact ht hnow hrank ho hk hheld (hbad hal)
    simp only [Crew.reach, Prod.mk.injEq] at hreach
    obtain ⟨hasid, hsecure, hcore⟩ := hreach
    have hcounts := h.gafferCounts_tookWord (core := core) (tile := tile) hsid g true ⟨0, 1, 0, 0⟩
    obtain ⟨gf, hgf, -⟩ := Option.map_eq_some_iff.1 hcounts
    have hgaffer : d.gaffer = some gf := by
      rw [State.strand?, hd] at hgf
      exact hgf
    have hseen := State.translate_seen (took ⟨0, 1, 0, 0⟩) c.crew.asid c.crew.secure .store g
    rw [htrans] at hseen
    have htile : ({ v with rank := core.toNat } : Team).tile tile.toNat = at_ := (congrArg (fun y : Team => y.tile tile.toNat) hvr :)
    have hmm : s1.maxMag (d.teamCore core.toNat) { v with rank := core.toNat } tile.toNat = s.maxMag (c.crew.teamCore core.toNat) t tile.toNat := by
      have hsame : ({ v with rank := core.toNat } : Team).atRest = { t.atRest with ops := t.ops ++ [c.tileOp s.ids tile g true] } := by
        rw [← hvr, ← hrank]
        exact congrArg (fun r => { v.atRest with rank := r }) (congrArg Team.rank hvr :).symm
      rw [hcore, State.maxMag_congr (regs_of_seen hseen), ← State.maxMag_atRest _ _ t, ← hsame]
      exact (State.maxMag_atRest _ _ _ v.ops _).symm
    have hunit : s1.unit d.id core.toNat = _ := hid ▸ (unit_of_seen hseen ..).trans (h.unit_tookWord ht g true _)
    have hgf : s1.gafferCounts d.id = _ := hid ▸ (gafferCounts_of_seen hseen _).trans hcounts
    rw [happly hw, State.applyTstb_ok (t := { v with rank := core.toNat }) (o := c.tileOp s.ids tile g true) hgaffer (by rw [hasid, hsecure]; exact htrans) hok hblock hmm
      (status := wput at_.status 32 32 (s.maxMag (c.crew.teamCore core.toNat) t tile.toNat)) (congrArg (fun x : Tile => wput x.status 32 32 _) htile)
      (congrArg (Tile.stored · f.at_ _ _ full) htile)] at hstill
    obtain ⟨q, y, hq, hy, hqn, hops, htiles⟩ := exists_applied_now hstill (State.tileStored_gafferCounts (h := hgf) ..) (State.tileStored_unit (h := hunit) ..)
    have hafter := tile_of_tiles hlen htiles
    obtain ⟨m, hm, hkind, hpoint, hacts⟩ := s1.tileStored_msg d { v with rank := core.toNat } (c.tileOp s.ids tile g true) gf f
      (wput at_.status 32 32 (s.maxMag (c.crew.teamCore core.toNat) t tile.toNat)) (at_.stored f.at_ (s.maxMag (c.crew.teamCore core.toNat) t tile.toNat) _ full)
    have hregs : s1.regs = s.regs := (regs_of_seen hseen).trans rfl
    have hmsgs : u.msgs = _ := (congrArg State.msgs hstill :)
    rw [hid] at hq hy
    refine ⟨u, q, y, hi.trans hu, (congrArg State.regs hstill :).trans hregs, hsid ▸ hq, hy, (congrArg State.mem hstill :), ?_, ?_,
      hops.trans (filter_added hfresh), ?_, ?_, ?_, m, hmsgs ▸ hm, hkind, hpoint, hacts.trans ?_⟩
    · exact (congrArg Counts.tl hqn).trans (Nat.add_sub_cancel ..)
    · exact congrArg Counts.st hqn
    · rw [hafter]
    · rw [hafter]
    · rw [hafter]
    · cases full <;> rfl
  have hloads {i : Instr} {bad : Word → List (Nat × Nat)} {k : Counts} {off n m : Nat} {bnd status : List Byte → Word} (f : List Byte → Tile → Tile)
      (hi : exec i s = word i s fun c => c.boundWord core tile x k bad) (hbad : g.toNat % m = 0 → bad g = [])
      (happly : wordOf c.word = i → inBlockAperture g = false → ∀ (S : State) (d : Crew) (v : Team) q l s1, S.loadVa (d.byTile v.rank 0) (g.toNat + off) n = (.ok l, s1) →
        S.applyOp d v (c.tileOp s.ids tile g true) q = (s1.modTeam d.id v.rank fun t => t.modTile tile.toNat (f l)).endOp d.id v.rank (c.tileOp s.ids tile g true) k)
      (hf : ∀ l, (f l at_).bound = bnd l ∧ (f l at_).status = status l ∧ (f l at_).susp = at_.susp) : loads i k off n m bnd status := by
    intro d l s1 hd hload hblock hal h hw hsid hrank hsusp hk hfresh hlen hheld _
    obtain ⟨o, ho⟩ := Option.isSome_iff_exists.1 hsusp
    obtain ⟨d', v, u, hd', hid, -, -, -, hu, hstill⟩ := h.appliesNow hact ht hnow hrank ho hk hheld (hbad hal)
    obtain rfl := Option.some.inj (hd.symm.trans hd')
    have hseen := State.loadVa_seen (took k) (d.byTile core.toNat 0) (g.toNat + off) n
    rw [hload] at hseen
    rw [happly hw hblock (c.tookWord s core tile g true k) d { v with rank := core.toNat } _ l s1 hload, hid] at hstill
    obtain ⟨q, y, hq, hy, hcounts, hops, htiles⟩ := exists_applied_now hstill (gafferCounts_applied hseen (h.gafferCounts_tookWord hsid ..) ..)
      (unit_applied hseen (h.unit_tookWord ht ..) ..)
    have hafter := tile_of_tiles hlen htiles
    obtain ⟨hbnd, hstatus, hkept⟩ := hf l
    have hregs : s1.regs = s.regs := (regs_of_seen hseen).trans rfl
    refine ⟨u, q, y, hi.trans hu, (congrArg State.regs hstill :).trans hregs, hsid ▸ hq, hy, (congrArg State.mem hstill :), ?_, ?_, hops.trans (filter_added hfresh), ?_, ?_, ?_⟩
    · exact (congrArg Counts.tl hcounts).trans (Nat.add_sub_cancel ..)
    · exact (congrArg Counts.ld hcounts).trans (Nat.add_sub_cancel ..)
    · rw [hafter]; exact hbnd
    · rw [hafter]; exact hstatus
    · rw [hafter]; exact hkept
  refine ⟨hsets false rfl (fun _ => rfl) ?_, hsets true rfl hall ?_, hstores false rfl hmis ?_, hstores true rfl hmis ?_,
    hloads (fun l y => { y with bound := bWith y.bound (taken (low l 8)) }) rfl hmis ?_ fun _ => ⟨rfl, rfl, rfl⟩,
    hloads (fun l y => { y with bound := bWith (low l 8 &&& 0x1FFFFFFFFFF) (taken (low l 8)), status := wput y.status 0 6 (leNat ((l.drop 8).take 8)) }) rfl hmis ?_ fun _ => ⟨rfl, rfl, rfl⟩,
    hloads (fun l y => { y with bound := wput y.bound 32 9 (wfld (BitVec.ofNat 64 (leNat l)) 32 9) }) rfl hmis ?_ fun _ => ⟨rfl, rfl, rfl⟩, ?_⟩
  · intro hw S d v q
    simp only [State.applyOp, Ctx.tileOp, hw]
  · intro hw S d v q
    simp only [State.applyOp, Ctx.tileOp, hw]
  · intro hw S d v q
    simp only [State.applyOp, Ctx.tileOp, hw]
  · intro hw S d v q
    simp only [State.applyOp, Ctx.tileOp, hw]
  · intro hw hblock S d v q l s1 hload
    simp only [State.applyOp, Ctx.tileOp, hw]
    exact State.applyTldb_ok (o := c.tileOp s.ids tile g true) (full := false) hblock hload
  · intro hw hblock S d v q l s1 hload
    simp only [State.applyOp, Ctx.tileOp, hw]
    exact State.applyTldb_ok (o := c.tileOp s.ids tile g true) (full := true) hblock hload
  · intro hw hblock S d v q l s1 hload
    simp only [State.applyOp, Ctx.tileOp, hw, hload]
    rfl
  intro o m d t1 s1 hsusp hm hstarted hd ht1 hrec ⟨l, hstore⟩ h hw hsid hrank hsome hk hfresh hlen hheld hal
  obtain ⟨d', v, u, hd', hid, -, hv, hvr, hu, hstill⟩ := h.appliesNow (bad := (misBad · 128)) hact ht hnow hrank hsusp hk hheld (hmis hal)
  obtain rfl := Option.some.inj (hd.symm.trans hd')
  obtain rfl := Option.some.inj (ht1.symm.trans hv)
  have hseen := State.storeVa_seen (took .none) (d.byTile core.toNat 0) g.toNat hrec
  rw [hstore] at hseen
  have happly : (c.tookWord s core tile g true .none).applyOp d { t1 with rank := core.toNat } (c.tileOp s.ids tile g true) (some (o, m))
      = s1.tileSaved d.id core.toNat tile.toNat (c.tileOp s.ids tile g true) o.id := by
    simp only [State.applyOp, Ctx.tileOp, hw]
    exact State.applyTsave_ok (o := c.tileOp s.ids tile g true) hstarted (hid ▸ hv) hstore
  rw [hm, Option.map_some, happly, hid] at hstill
  have hunmarked := restTeam_of_seen hseen c.id core.toNat
  rw [show (took .none).restTeam c.id core.toNat = some t1.atRest from congrArg (Option.map _) ht1, Option.map_some] at hunmarked
  obtain ⟨z, hz, hzt⟩ := Option.map_eq_some_iff.1 hunmarked
  have hops : z.ops = t.ops ++ [c.tileOp s.ids tile g true] := (congrArg Team.ops hzt :).trans (congrArg Team.ops hvr :)
  have htiles : z.tiles = t.tiles := (congrArg Team.tiles hzt :).trans (congrArg Team.tiles hvr :)
  have hcounts := State.tileSaved_gafferCounts hz ((gafferCounts_of_seen hseen _).trans (h.gafferCounts_tookWord hsid ..)) tile.toNat (c.tileOp s.ids tile g true) o.id
  obtain ⟨q, hq, hqn⟩ := Option.map_eq_some_iff.1 (gafferCounts_of_still hstill _ hcounts)
  obtain ⟨y, hy, hyt⟩ := State.team?_of_restTeam ((State.restTeam_of_still hstill ..).trans (State.tileSaved_restTeam hz tile.toNat (c.tileOp s.ids tile g true) o.id))
  have hafter : y.tile tile.toNat = { at_ with susp := none, owed := at_.owed || z.srcWritten o.id } :=
    tile_of_tiles hlen (f := fun x => { x with susp := none, owed := x.owed || z.srcWritten o.id }) ((congrArg Team.tiles hyt :).trans (htiles ▸ rfl))
  have hregs : s1.regs = s.regs := (regs_of_seen hseen).trans rfl
  have hstays : y.ops = _ := (congrArg Team.ops hyt :)
  refine ⟨u, q, y, hu, (congrArg State.regs hstill :).trans ((s1.tileSaved_regs ..).trans hregs), hsid ▸ hq, hy,
    (congrArg State.mem hstill :).trans (s1.tileSaved_mem ..), ?_, ?_, ?_, ?_, ?_⟩
  · exact (congrArg Counts.tl hqn).trans (by simp only [Counts.less, Strand.counts, Strand.raise]; omega)
  · rw [hstays]
    show ((z.ops.filter _).filter _) = _
    rw [hops]
    exact congrArg (List.filter _) (filter_added hfresh)
  · rw [hafter]
  · rw [hafter]
  · intro w hwin
    rw [show y.steps = z.steps.filter fun x => x.op != some o.id from (congrArg Team.steps hyt :)] at hwin
    simpa using (List.mem_filter.1 hwin).2

end Sys2Proof.Machine
end


section
/-! Obligation O49: saving, losing, exiting and marking crews. -/

namespace Sys2Proof.Machine

/-! ### Saves (R210, R212) -/

theorem exec_crewSave {s s2 : State} {c d : Crew} {v : Saving} (hc : s.crew? c.id = some c) (hv : c.saving = some v) (hready : s.saveReady c = true)
    (hlimit : ¬ c.desc.limit < s.clk c.die - v.since) (hd : (s.saveBegun c).crew? c.id = some d) (hfits : d.fitsSlot ((s.saveBegun c).queue d.queue) = true)
    (hstore : storeAll d.by ((s.saveBegun c).saveParts d v) (s.saveBegun c) = some s2) :
    ∃ x, exec (.crewSave c.id) s = .next { s2.removeCrew c.id with saved := s2.saved ++ [x], samples := s2.samples }
      ∧ x.queue = d.queue ∧ x.slot = v.slot ∧ x.crew = d ∧ x.ready = decide (v.reason = 2) := by
  have hexec : exec (.crewSave c.id) s = execCrewSave c.id s := rfl
  rw [hexec, execCrewSave]
  simp only [hc, hv, hready, hlimit, decide_false, Bool.not_true, Bool.or_self, Bool.false_eq_true, if_false, hd, hfits, hstore]
  exact ⟨_, rfl, rfl, rfl, rfl, rfl⟩

/-- A crew that has been removed is not there. -/
theorem State.crew?_removeCrew (s : State) (id : Nat) : (s.removeCrew id).crew? id = none := by
  refine State.crew?_of_keys fun k hk => ?_
  rw [State.removeCrew_keys] at hk
  simpa using (List.mem_filter.1 hk).2

/-- A crew that an expired save loses (R212). -/
def Crew.onCoresOf (d c : Crew) : Bool := d.die == c.die && d.cluster == c.cluster && !d.exiting && d.cores.any c.cores.contains

/-- The crews that an expired save loses go, and no other. -/
theorem exec_saveTimeout {s : State} {c : Crew} {v : Saving} (hc : s.crew? c.id = some c) (hv : c.saving = some v) (hlimit : c.desc.limit < s.clk c.die - v.since) :
    ∃ u, exec (.saveTimeout c.id) s = .next u ∧ u.keys = s.keys.filter fun k => (s.crews.filter (·.onCoresOf c)).all fun d => k.1 != d.id := by
  have hcaches (L : List Nat) (w : State) : (L.foldl (fun s k => { s.invalidateL1 { die := c.die, cluster := c.cluster, core := k } with
      ibuf := assocDel (s.invalidateL1 { die := c.die, cluster := c.cluster, core := k }).ibuf { die := c.die, cluster := c.cluster, core := k } }) w).keys = w.keys := by
    induction L generalizing w with
    | nil => rfl
    | cons k L ih => exact ih _
  have hexec : exec (.saveTimeout c.id) s = execSaveTimeout c.id s := rfl
  rw [hexec, execSaveTimeout]
  simp only [hc, hv, Nat.not_le.2 hlimit, if_false]
  exact ⟨_, rfl, (hcaches ..).trans (foldl_loseCrew_keys (fun d => (d.saving.map Saving.slot).getD 0) _ s)⟩

theorem saveTimeout_gone {s u : State} {c d : Crew} (hu : u.keys = s.keys.filter fun k => (s.crews.filter (·.onCoresOf c)).all fun d => k.1 != d.id) (hd : d ∈ s.crews)
    (hon : d.onCoresOf c = true) : u.crew? d.id = none := by
  refine State.crew?_of_keys fun k hk => ?_
  rw [hu] at hk
  simpa using List.all_eq_true.1 (List.mem_filter.1 hk).2 d (List.mem_filter.2 ⟨hd, hon⟩)

/-! ### Exits (R29, R334) -/

theorem State.finishExit_eq {s : State} {c : Crew} (hreleased : c.exitReleased = true) (hjoin : c.join = 0) : s.finishExit c = s.removeCrew c.id := by
  rw [State.finishExit]
  simp only [hreleased, hjoin, Bool.not_true, Bool.false_eq_true, if_false, if_true]

/-- A crew that has begun to exit lets its pins go. -/
def State.exitBegun (s : State) (crew : Nat) : State :=
  let s := s.modCrew crew fun c => { c with exiting := true }
  { s with pins := s.pins.filter fun p => match p.holder with
    | .tile k _ _ => k != crew
    | .soft k _ => k != crew
    | .im2col k _ => k != crew }

theorem State.crew?_exitBegun {s : State} {c : Crew} (hc : s.crew? c.id = some c) : (s.exitBegun c.id).crew? c.id = some { c with exiting := true } := by
  have hmod := State.crew?_modCrew_same s c.id (f := fun c => { c with exiting := true }) fun _ => rfl
  rw [hc] at hmod
  exact hmod

/-- A crew that holds nothing and names no join goes at once. -/
theorem exec_crewExit {s : State} {c : Crew} (hc : s.crew? c.id = some c) (hready : s.exitReady c = true) (hreleased : c.exitReleased = true) (hexiting : c.exiting = false)
    (hjoin : c.join = 0) : exec (.crewExit c.id) s = .next ((s.exitBegun c.id).removeCrew c.id) := by
  have hexec : exec (.crewExit c.id) s = execCrewExit c.id s := rfl
  have hfinish : (s.exitBegun c.id).finishExit { c with exiting := true } = (s.exitBegun c.id).removeCrew c.id := State.finishExit_eq hreleased hjoin
  have hbegun : execCrewExit c.id s = .next (match (s.exitBegun c.id).crew? c.id with
      | some d => (s.exitBegun c.id).finishExit d
      | none => s.exitBegun c.id) := by
    rw [execCrewExit]
    simp only [hc, hexiting, hready, Bool.not_true, Bool.false_eq_true, if_false]
    rfl
  rw [hexec, hbegun, State.crew?_exitBegun hc]
  exact congrArg Host.Outcome.next hfinish

/-- The final join of a crew that exits. -/
theorem exec_finalJoin {s : State} {c : Crew} (hc : s.crew? c.id = some c) (hexiting : c.exiting = true) (hreleased : c.exitReleased = true) (hjoin : c.join ≠ 0)
    (hal : c.join.toNat % 64 = 0) (hreplay : s.replay? c.id none 0 = none) (hroom : s.inWindow (corePort (c.coreOf .gaffer)) < 8) :
    (∀ s2, s.joinBlock c.by c.die c.join.toNat = .done s2 → exec (.crewExit c.id) s = .next ((s2.served c.id none 0).removeCrew c.id))
    ∧ ∀ s2, s.joinBlock c.by c.die c.join.toNat = .refused s2 → exec (.crewExit c.id) s = .next (s2.refused (corePort (c.coreOf .gaffer)) c.die c.id none 0) := by
  have hexec : exec (.crewExit c.id) s = execCrewExit c.id s := rfl
  have hmay : s.joinMay (corePort (c.coreOf .gaffer)) c.die c.id none 0 = (true, s) := by
    rw [State.joinMay]
    simp only [hreplay, State.portRoom, hroom, if_true]
  rw [hexec, execCrewExit]
  simp only [hc, hexiting, if_true, State.finishExit, hreleased, hjoin, hal, hmay, Bool.not_true, Bool.false_eq_true, if_false, ne_eq, not_true_eq_false]
  exact ⟨fun s2 h => by rw [h], fun s2 h => by rw [h]⟩

/-! ### Marks (R339) -/

/-- A crew whose slowest team, of rank `slow`, is marked, and no other. -/
def Crew.markUrgent (c : Crew) (clk : Nat → Nat) (slow : Option Nat) : Crew :=
  { c with marked := clk c.die, teams := c.teams.map fun t => { t with urgent := slow == some t.rank, waves := t.waves.map fun w => { w with clauses := 0 } } }

theorem Crew.markUrgent_urgent (c : Crew) (clk : Nat → Nat) (r : Nat) : (c.markUrgent clk (some r)).teams.map Team.urgent = c.teams.map fun x => decide (x.rank = r) := by
  rw [Crew.markUrgent, List.map_map]
  refine List.map_congr_left fun x _ => ?_
  simp only [Function.comp, beq_eq_decide, Option.some.injEq]
  exact decide_eq_decide.2 eq_comm

theorem exec_urgencyMark {s : State} {c : Crew} (hc : s.crew? c.id = some c) (hlen : 2 ≤ c.teams.length) (hdue : 4096 ≤ s.clk c.die - c.marked) :
    exec (.urgencyMark c.id) s = .next (s.modCrew c.id (·.markUrgent s.clk ((minBy Team.clauseCount c.teams).map Team.rank))) := by
  have hexec : exec (.urgencyMark c.id) s = execUrgencyMark c.id s := rfl
  rw [hexec, execUrgencyMark]
  simp only [hc, Nat.not_lt.2 hlen, Nat.not_lt.2 hdue, decide_false, Bool.or_self, Bool.false_eq_true, if_false]
  rfl

/-- Settles O49: each move of a crew, by the case of its definition that the hypotheses name. -/
theorem crewMoves : Obligations.CrewMoves := by
  unfold Obligations.CrewMoves
  intro s c hc
  refine ⟨fun v d s2 hv hready hlimit hd hfits hstore => ?_, fun v hv hlimit _ => ?_, fun hready hreleased hexiting hjoin => ?_, ?_, ?_⟩
  · obtain ⟨x, hx, hq, hslot, hcrew, hr⟩ := exec_crewSave hc hv hready hlimit hd hfits hstore
    exact ⟨_, x, hx, rfl, s2.crew?_removeCrew c.id, rfl, hq, hslot, hcrew, hr⟩
  · obtain ⟨u, hu, hkeys⟩ := exec_saveTimeout hc hv hlimit
    refine ⟨u, hu, fun d hd hdie hcluster hexiting ⟨k, hkd, hkc⟩ => saveTimeout_gone hkeys hd ?_⟩
    simp only [Crew.onCoresOf, hdie, hcluster, hexiting, beq_self_eq_true, Bool.not_false, Bool.and_self, Bool.true_and, List.any_eq_true]
    exact ⟨k, hkd, by simpa using hkc⟩
  · exact ⟨_, exec_crewExit hc hready hreleased hexiting hjoin, rfl, State.crew?_removeCrew ..⟩
  · intro hexiting hreleased hjoin hal hreplay port hroom
    exact exec_finalJoin hc hexiting hreleased hjoin hal hreplay hroom
  · intro hlen hdue
    obtain ⟨t, hmin⟩ := minBy_isSome (f := Team.clauseCount) (List.ne_nil_of_length_pos (by omega : 0 < c.teams.length))
    have hmarked := State.crew?_modCrew_same s c.id (f := (·.markUrgent s.clk (some t.rank))) fun _ => rfl
    rw [hc] at hmarked
    refine ⟨_, _, t, exec_urgencyMark hc hlen hdue, rfl, rfl, ?_, rfl, minBy_mem hmin, minBy_le hmin, c.markUrgent_urgent s.clk t.rank⟩
    rw [hmin]
    exact hmarked

end Sys2Proof.Machine
end


section
/-! Obligation O48: a crew is placed from a record. -/

namespace Sys2Proof.Machine

/-! ### Allocation (R27): the registers of the crew and the L1 views and buffers of its cores change, and nothing else -/

/-- A state without registers, L1 views and instruction buffers. -/
def State.offCore (s : State) : State := { s with regs := [], l1 := [], ibuf := [] }

theorem foldl_offCore {α : Type} {f : State → α → State} (h : ∀ s x, (f s x).offCore = s.offCore) (l : List α) (s : State) : (l.foldl f s).offCore = s.offCore := by
  induction l generalizing s with
  | nil => rfl
  | cons x l ih => rw [List.foldl_cons, ih, h]

theorem State.placeAcquire_offCore (s : State) (c : Crew) : (s.placeAcquire c).offCore = s.offCore := foldl_offCore (fun _ _ => by exact rfl) ..

theorem State.pop_of_graph {s : State} {q : Nat} (h : (s.queue q).kind = false) : s.pop q = s.modQueue q fun x => { x with head := x.head + 1 } := by
  rw [State.pop]
  simp only [h, Bool.not_false, if_true]

/-- The state in which a new crew stands and its record is past. -/
def State.crewAdded (s : State) (w : Want) (r d : List Byte) (die cluster : Nat) (p : Pick) : State :=
  let t := (s.pop w.queue).measure r d
  { t with ids := t.ids + 1, crews := t.crews ++ [s.newCrew w r die cluster (lowestNumber (s.residents die cluster)) p] }

theorem State.allocate_offCore (s : State) (w : Want) (r d : List Byte) (die cluster : Nat) (p : Pick) :
    (s.allocate w r d die cluster p).offCore = (s.crewAdded w r d die cluster p).offCore := by
  rw [State.allocate, State.placeAcquire_offCore]
  refine foldl_offCore (fun s t => ?_) _ _
  exact foldl_offCore (fun _ _ => by exact rfl) ..

/-- A new team: its waves stand at LENTRY, and its scratchpad is clear. -/
theorem newTeam_spec (d : Desc) (rank : Nat) (p : Place) (clk : Nat) :
    (newTeam d rank p clk).waves.length = d.team / 32 ∧ (newTeam d rank p clk).scratch = []
      ∧ ∀ x ∈ (newTeam d rank p clk).waves, x.paths.map (fun p => (p.lanes, p.pc)) = [(0xFFFFFFFF, d.lentry)] := by
  refine ⟨(List.length_map _).trans List.length_range, rfl, fun x hx => ?_⟩
  obtain ⟨i, -, rfl⟩ := List.mem_map.1 hx
  rfl

/-! ### The choice of a cluster (R337) -/

theorem mem_clusterList {die cluster : Nat} (hdie : die < 4) (hcluster : cluster < 42) : (die, cluster) ∈ clusterList :=
  List.mem_flatten.2 ⟨_, List.mem_map.2 ⟨cluster, List.mem_range.2 hcluster, rfl⟩, List.mem_map.2 ⟨die, List.mem_range.2 hdie, rfl⟩⟩

theorem State.takenFor_of_holds {s : State} (h : s.holds = []) (die cluster : Nat) (w : Want) : s.takenFor die cluster w = s.residents die cluster := by
  simp [State.takenFor, h]

theorem State.placeFirst_start {s : State} {die cluster : Nat} {p : Pick} {w : Want} {r d : List Byte} (l : List (Offered × Want)) (hholds : s.holds = []) (hkind : (s.queue w.queue).kind = false)
    (hfits : fits (s.residents die cluster) w = true) (hpick : pickOk (s.residents die cluster) w p = true) :
    s.placeFirst die cluster p ((.start w r d, w) :: l) = (s.allocate w r d die cluster p).modDie die fun d => { d with lastQ := w.queue } := by
  have hfree : { s with holds := s.holds.filter fun h => !h.isFor w } = s := by
    have : (s.holds.filter fun h => !h.isFor w) = s.holds := by rw [hholds]; rfl
    rw [this]
  have hcrews : (s.allocate w r d die cluster p).crews = s.crews ++ [s.newCrew w r die cluster (lowestNumber (s.residents die cluster)) p] := by
    rw [show (s.allocate w r d die cluster p).crews = (s.crewAdded w r d die cluster p).crews from (congrArg State.crews (s.allocate_offCore w r d die cluster p) :)]
    rw [State.crewAdded, State.pop_of_graph hkind]
    rfl
  rw [State.placeFirst]
  simp only [State.takenFor_of_holds hholds, hfits, hpick, Bool.not_true, Bool.false_eq_true, if_false, hfree]
  rw [if_pos (by rw [hcrews]; simp)]

/-- A record that is the only candidate is placed where it fits. -/
theorem exec_crewPlace {s s1 : State} {die cluster : Nat} {p : Pick} {w : Want} {r d : List Byte} {q : Nat} (hup : s.up = true) (hdie : die < 4) (hcluster : cluster < 42)
    (hoffers : s.offers_ (sortBy id (dedup (s.queues.map Prod.fst ++ s.saved.map Saved.queue))) = ([(q, .start w r d)], s1)) (hholds : s1.holds = [])
    (hfits : fits (s1.residents die cluster) w = true) : exec (.crewPlace die cluster p) s = .next (s1.placeFirst die cluster p [(.start w r d, w)]) := by
  have hexec : exec (.crewPlace die cluster p) s = execCrewPlace die cluster p s := rfl
  have hheld : { s1 with holds := s1.holds.filter s1.holdLive } = s1 := by
    have : s1.holds.filter s1.holdLive = s1.holds := by rw [hholds]; rfl
    rw [this]
  have hstuck : clusterList.any (fun k => fits (s1.takenFor k.1 k.2 w) w) = true :=
    List.any_eq_true.2 ⟨_, mem_clusterList hdie hcluster, by rw [State.takenFor_of_holds hholds]; exact hfits⟩
  rw [hexec, execCrewPlace]
  simp only [hup, show ¬ Config.dies ≤ die from Nat.not_le.2 hdie, show ¬ Config.clusters ≤ cluster from Nat.not_le.2 hcluster, hoffers, hheld, Bool.not_true, decide_false, Bool.or_self, Bool.false_eq_true, if_false]
  simp [List.find?, Offered.want, placeOrder, sortBy, insertBy, hstuck]

/-- Settles O48: the move allocates the crew of the record; what allocation clears is no part of what is stated. -/
theorem crewPlacement : Obligations.CrewPlacement := by
  unfold Obligations.CrewPlacement
  intro s s1 die cluster q p w r d hup hdie hcluster hoffers hholds hq hfits hpick hkind
  subst hq
  have hview := s1.allocate_offCore w r d die cluster p
  rw [State.crewAdded, State.pop_of_graph hkind] at hview
  refine ⟨_, s1.newCrew w r die cluster (lowestNumber (s1.residents die cluster)) p, (exec_crewPlace hup hdie hcluster hoffers hholds hfits).trans
    (congrArg _ (State.placeFirst_start [] hholds hkind hfits hpick)), (congrArg State.mem hview :), (congrArg State.crews hview :), ?_, rfl, rfl, rfl, rfl, rfl, rfl, rfl, rfl, rfl,
    ?_, ?_, (congrArg State.m1 hview :)⟩
  · have hqueues : (s1.allocate w r d die cluster p).queues = assocSet s1.queues w.queue { s1.queue w.queue with head := (s1.queue w.queue).head + 1 } :=
      (congrArg State.queues hview :)
    show ((assocGet (s1.allocate w r d die cluster p).queues w.queue).getD Queue.reset).head = _
    rw [hqueues, assocGet_assocSet_same]
    rfl
  · exact (List.length_map _).trans List.length_range
  · intro t ht
    obtain ⟨i, -, rfl⟩ := List.mem_map.1 ht
    exact newTeam_spec ..

end Sys2Proof.Machine
end


section
/-! Obligation O30: the words of graph queues. -/

namespace Sys2Proof.Machine

/-! ### A queue that is full (R335) -/

theorem queue_of_seen {s u : State} (h : u.seen = s.seen) (q : Nat) : u.queue q = s.queue q := congrArg (fun l => (assocGet l q).getD Queue.reset) (congrArg State.queues h :)

theorem State.queue_modQueue (s : State) (q : Nat) (f : Queue → Queue) : (s.modQueue q f).queue q = f (s.queue q) := by
  rw [State.modQueue, State.queue, assocGet_assocSet_same]
  rfl

/-- A refused reservation is marked, and takes nothing. -/
theorem State.queueFail_queue (s : State) (q die : Nat) (w : Who) : ∃ n, (s.queueFail q die w).queue q = { s.queue q with exh := true, fails := n } := by
  rw [State.queueFail]
  dsimp only
  split
  · exact ⟨0, by rw [State.queue_modQueue, queue_of_seen (seen_of_unwritten (State.event_unwritten ..)), State.queue_modQueue]⟩
  · exact ⟨_, State.queue_modQueue ..⟩

/-! ### Turns -/

section
variable {s : State} {c : Ctx} {i : Instr}

theorem Ctx.turns_one {f : Ctx.Turn} {l : Nat} {e : State} (hls : c.ls = [l]) (hf : f c.s0 l = (e, none)) : c.turns f = .done e := by
  rw [Ctx.turns]
  simp only [hls, List.foldl_cons, List.foldl_nil, hf, List.isEmpty_nil, if_true]

theorem Ctx.queueOf_open {q : Nat} (hq : q < 4096) (h : (s.queue q).open_ c.crew.asid c.crew.secure = true) : c.queueOf s q = some (q, s.queue q) := by
  rw [Ctx.queueOf]
  simp only [hq, h, decide_true, Bool.and_self, if_true]

/-- The shape that the words with a release share (R334, R335). -/
def Ctx.releasing (c : Ctx) (f : Ctx → Out) : Out := if c.act = 0 then .done c.s0 else if !c.relDev then .stall else f c

theorem Issues.releasing_nothing (h : Issues s i c) (h0 : c.act = 0) (f : Ctx → Out) : Leaves (word i s (·.releasing f)) s := by
  refine word_done h ?_
  rw [Ctx.releasing, if_pos h0, (ctx_eq h.slot).1]

theorem Ctx.act_ne_zero {l : Nat} {ls : List Nat} (hls : c.ls = l :: ls) : c.act ≠ 0 := by
  intro h0
  rw [Ctx.ls, h0] at hls
  cases hls

theorem Issues.releasing_eq (h : Issues s i c) (hact : c.act ≠ 0) (hrel : s.released c.crew c.t false c.act none .dev = true) (f : Ctx → Out) : c.releasing f = f c := by
  have hdev : c.relDev = true := by rw [Ctx.relDev, (ctx_eq h.slot).1]; exact hrel
  rw [Ctx.releasing, if_neg hact, hdev]
  rfl

/-- Lanes none of whose turns raises, the release made. -/
theorem Issues.releasing_turns (h : Issues s i c) (hrel : s.released c.crew c.t false c.act none .dev = true) {f : Ctx → Ctx.Turn} {e : State} (he : c.turns (f c) = .done e) :
    Leaves (word i s (·.releasing fun c => c.turns (f c))) e := by
  by_cases hact : c.act = 0
  · have hself : e = s := by
      have hls : c.ls = [] := by rw [Ctx.ls, hact]; rfl
      rw [Ctx.turns, hls] at he
      exact (Out.done.inj he).symm.trans (ctx_eq h.slot).1
    rw [hself]
    exact h.releasing_nothing hact _
  · exact word_done h ((h.releasing_eq hact hrel _).trans he)

end

/-! ### One turn -/

section
variable {s : State} {c : Ctx} {l : Nat}

theorem Ctx.qresLane_room {d a b : Opd} (hq : c.rd .n32 a l < 4096) (hopen : (s.queue (c.rd .n32 a l)).open_ c.crew.asid c.crew.secure = true) (hpos : 1 ≤ c.rd .n32 b l)
    (hle : c.rd .n32 b l ≤ 256) (hroom : c.rd .n32 b l ≤ (s.queue (c.rd .n32 a l)).free) :
    c.qresLane d a b s l = (c.write .n64 d l (BitVec.ofNat 64 ((s.queue (c.rd .n32 a l)).slotVa (s.queue (c.rd .n32 a l)).tail.toNat))
      (s.modQueue (c.rd .n32 a l) fun x => { x with tail := x.tail + BitVec.ofNat 32 (c.rd .n32 b l) }), none) := by
  rw [Ctx.qresLane]
  simp only [Ctx.queueOf_open hq hopen, show c.rd .n32 b l ≠ 0 by omega, Nat.not_lt.2 hle, Nat.not_lt.2 hroom, decide_false, Bool.or_self, Bool.false_eq_true, if_false]

theorem Ctx.qresLane_full {d a b : Opd} (hq : c.rd .n32 a l < 4096) (hopen : (s.queue (c.rd .n32 a l)).open_ c.crew.asid c.crew.secure = true) (hpos : 1 ≤ c.rd .n32 b l)
    (hle : c.rd .n32 b l ≤ 256) (hroom : (s.queue (c.rd .n32 a l)).free < c.rd .n32 b l) :
    c.qresLane d a b s l = (c.write .n64 d l 0 (s.queueFail (c.rd .n32 a l) c.die (c.crew.who c.sid l)), none) := by
  rw [Ctx.qresLane]
  simp only [Ctx.queueOf_open hq hopen, show c.rd .n32 b l ≠ 0 by omega, Nat.not_lt.2 hle, hroom, decide_false, Bool.or_self, Bool.false_eq_true, if_false, if_true]

theorem Ctx.spawnLane_full {d a b : Opd} (hq : c.rd .n32 b l < 4096) (hopen : (s.queue (c.rd .n32 b l)).open_ c.crew.asid c.crew.secure = true) (hal : c.rd .n64 a l % 32 = 0)
    (hfull : (s.queue (c.rd .n32 b l)).free = 0) : c.spawnLane d a b s l = (c.write .n32 d l 0 (s.queueFail (c.rd .n32 b l) c.die (c.crew.who c.sid l)), none) := by
  rw [Ctx.spawnLane]
  simp only [Ctx.queueOf_open hq hopen, hal, hfull, ne_eq, not_true_eq_false, if_false, if_true]

theorem Ctx.spawnLane_room {d a b : Opd} (hq : c.rd .n32 b l < 4096) (hopen : (s.queue (c.rd .n32 b l)).open_ c.crew.asid c.crew.secure = true) (hal : c.rd .n64 a l % 32 = 0)
    (hroom : (s.queue (c.rd .n32 b l)).free ≠ 0) {r : List Byte} (hload : (s.loadVa (c.byLane l) (c.rd .n64 a l) 32).1 = .ok r)
    (hpush : ((s.loadVa (c.byLane l) (c.rd .n64 a l) 32).2.pushRecord (c.byLane l) (c.rd .n32 b l) r).1 = .ok []) :
    c.spawnLane d a b s l = (c.write .n32 d l 1 ((s.loadVa (c.byLane l) (c.rd .n64 a l) 32).2.pushRecord (c.byLane l) (c.rd .n32 b l) r).2, none) := by
  rw [Ctx.spawnLane]
  simp only [Ctx.queueOf_open hq hopen, hal, hroom, ne_eq, not_true_eq_false, if_false]
  have hl : s.loadVa (c.byLane l) (c.rd .n64 a l) 32 = (.ok r, (s.loadVa (c.byLane l) (c.rd .n64 a l) 32).2) := Prod.ext hload rfl
  generalize (s.loadVa (c.byLane l) (c.rd .n64 a l) 32).2 = s1 at hl hpush ⊢
  have hp : s1.pushRecord (c.byLane l) (c.rd .n32 b l) r = (.ok [], (s1.pushRecord (c.byLane l) (c.rd .n32 b l) r).2) := Prod.ext hpush rfl
  generalize (s1.pushRecord (c.byLane l) (c.rd .n32 b l) r).2 = s2 at hp ⊢
  rw [hl]
  simp only [hp]

theorem Ctx.qcommitLane_ok {a b n : Opd} (hq : c.rd .n32 b l < 4096) (hopen : (s.queue (c.rd .n32 b l)).open_ c.crew.asid c.crew.secure = true) (hpos : 1 ≤ c.rd .n32 n l)
    (hle : c.rd .n32 n l ≤ 256) {vas : List Nat} (hvas : Ctx.commitVas (s.queue (c.rd .n32 b l)) (c.rd .n64 a l) (c.rd .n32 n l) = some vas)
    (hall : (Ctx.commitAll (c.byLane l) vas s).1 = .ok []) : c.qcommitLane a b n s l = ((Ctx.commitAll (c.byLane l) vas s).2, none) := by
  rw [Ctx.qcommitLane]
  simp only [Ctx.queueOf_open hq hopen, show c.rd .n32 n l ≠ 0 by omega, Nat.not_lt.2 hle, decide_false, Bool.or_self, Bool.false_eq_true, if_false, hvas]
  generalize Ctx.commitAll (c.byLane l) vas s = x at hall ⊢
  obtain ⟨v, s1⟩ := x
  subst hall
  rfl

/-- A record that has been pushed is behind the tail. -/
theorem State.pushRecord_tail {b : By} {q : Nat} {r : List Byte} {v : List Byte} (h : (s.pushRecord b q r).1 = .ok v) :
    ((s.pushRecord b q r).2.queue q).tail = (s.queue q).tail + 1 := by
  have hseen := State.storeVa_seen s b ((s.queue q).slotVa (s.queue q).tail.toNat) (committed r)
  rw [State.pushRecord] at h ⊢
  split at h
  next hs =>
    simp only [hs] at hseen ⊢
    rw [State.queue_modQueue, queue_of_seen hseen]
  next hs => exact absurd (Prod.ext (y := (VaRes.ok v, _)) h rfl) (hs _ _)

end

/-! ### JOIN (R334, R341) -/

/-- The state without queues and without what an access of an engine may change. -/
def State.queueless (s : State) : State := ({ s with queues := [] } : State).seen

theorem queueless_of_seen {s u : State} (h : u.seen = s.seen) : u.queueless = s.queueless := congrArg (fun v : State => { v with queues := [] }) h

theorem State.modQueue_queueless (s : State) (q : Nat) (f : Queue → Queue) : (s.modQueue q f).queueless = s.queueless := rfl

theorem State.queueFail_queueless (s : State) (q die : Nat) (w : Who) : (s.queueFail q die w).queueless = s.queueless := by
  rw [State.queueFail]
  split
  · exact (State.modQueue_queueless ..).trans ((queueless_of_seen (seen_of_unwritten (State.event_unwritten ..))).trans (State.modQueue_queueless ..))
  · rfl

theorem State.countDrop_seen (s : State) (p : Point) : (s.countDrop p).seen = s.seen := by
  have hcount (d o : Nat) : (s.addCounter d o 1).seen = s.seen := seen_of_unwritten (unwritten_of_unapplied (State.addCounter_unapplied ..))
  unfold State.countDrop
  split
  · exact hcount ..
  · exact hcount ..
  · rfl

/-- The state in which a join is refused: its drop is counted at the home of its line. -/
def State.joinRefused (s : State) (fs : List (Leaf × Nat)) (q die : Nat) (w : Who) : State :=
  (fs.head?.map fun f => homeOf f.1.cp f.1.at_).elim id (fun p s => s.countDrop p) (s.queueFail q die w)

theorem State.joinRefused_seen (s : State) (fs : List (Leaf × Nat)) (q die : Nat) (w : Who) : (s.joinRefused fs q die w).seen = (s.queueFail q die w).seen := by
  rw [State.joinRefused]
  cases fs.head?.map fun f => homeOf f.1.cp f.1.at_ with
  | none => rfl
  | some p => exact State.countDrop_seen ..

theorem State.joinRefused_exh (s : State) (fs : List (Leaf × Nat)) (q die : Nat) (w : Who) : ((s.joinRefused fs q die w).queue q).exh = true := by
  rw [queue_of_seen (State.joinRefused_seen ..)]
  obtain ⟨k, hk⟩ := s.queueFail_queue q die w
  exact (congrArg Queue.exh hk :)

section
variable {s s1 s2 : State} {b : By} {die va : Nat} {fs : List (Leaf × Nat)} {blk : List Byte}
  (hleaves : s.leavesFor b .store (spans va 64) = (.inl fs, s1)) (hload : s1.loadVa b va 64 = (.ok blk, s2))
include hleaves hload

/-- A join whose block can be read and written. -/
theorem State.joinBlock_read {count q : Nat} (hcount : leNat (blk.take 4) = count) (hq : fld (leNat ((blk.drop 8).take 8)) 0 12 = q) :
    (count = 0 → s.joinBlock b die va = .done (s2.event 7 die b.who { addr := BitVec.ofNat 64 va, pc := b.who.pc }))
    ∧ (2 ≤ count → s.joinBlock b die va = .done (s2.storeVa b va (leBytes 4 (count - 1))).2)
    ∧ (count = 1 → (s2.queue q).open_ b.asid b.secure = true → (s2.queue q).free ≠ 0 → (s2.pushRecord b q ((blk.drop 32).take 32)).1 = .ok [] →
        s.joinBlock b die va = .done ((s2.pushRecord b q ((blk.drop 32).take 32)).2.storeVa b va (leBytes 4 (count - 1))).2)
    ∧ (count = 1 → (s2.queue q).open_ b.asid b.secure = true → (s2.queue q).free = 0 → s.joinBlock b die va = .refused (s2.joinRefused fs q die b.who)) := by
  subst hcount hq
  rw [State.joinBlock]
  simp only [hleaves, hload]
  refine ⟨fun h => by rw [if_pos h], fun h => by rw [if_neg (by omega), if_neg (by omega)], fun h hopen hroom hpush => ?_, fun h hopen hfull => ?_⟩
  · rw [if_neg (by omega), if_pos h, hopen]
    simp only [Bool.not_true, Bool.false_eq_true, if_false, hroom]
    have hp : s2.pushRecord b _ _ = (VaRes.ok [], _) := Prod.ext hpush rfl
    rw [hp]
  · rw [if_neg (by omega), if_pos h, hopen, hfull]
    rfl

end

section
variable {s : State} {c : Ctx} {p : Pre} {a : Opd} {l : Nat}

theorem State.joinMay_first {port die crew : Nat} {sid : Option Sid} (hreplay : s.replay? crew sid l = none) (hroom : s.inWindow port < 8) :
    s.joinMay port die crew sid l = (true, s) := by
  rw [State.joinMay]
  simp only [hreplay, State.portRoom, hroom, if_true]

/-- The first refusal of a join. -/
theorem State.refused_first {crew : Nat} {sid : Option Sid} (hnone : s.replay? crew sid l = none) (port die : Nat) :
    (s.refused port die crew sid l).replays = ⟨port, crew, sid, l, 1, s.resendAt die 1⟩ :: s.replays.filter fun r => !r.isFor crew sid l := by
  rw [State.refused, hnone]
  rfl

/-- The path of a refused join acts again in its lane alone. -/
def Ctx.joinAgain (c : Ctx) (l : Nat) (s : State) : State := c.modP s fun p => { p with only := some (lanesFrom [l] ||| lanesFrom []) }

theorem Ctx.joinLanes_one (hal : c.rd .n64 a l % 64 = 0) (hreplay : s.replay? c.id (some c.sid) l = none) (hroom : s.inWindow (corePort c.core) < 8) :
    (∀ u, s.joinBlock (c.byLane l) c.die (c.rd .n64 a l) = .done u → c.joinLanes a [l] s [] = .done (u.served c.id (some c.sid) l))
    ∧ ∀ u, s.joinBlock (c.byLane l) c.die (c.rd .n64 a l) = .refused u →
        c.joinLanes a [l] s [] = .hold (c.joinAgain l (u.refused (corePort c.core) c.die c.id (some c.sid) l)) := by
  rw [Ctx.joinLanes]
  simp only [hal, ne_eq, not_true_eq_false, if_false, State.joinMay_first hreplay hroom]
  exact ⟨fun u h => by rw [h]; rfl, fun u h => by rw [h]; rfl⟩

/-- A join that passes. -/
theorem Issues.join_passes (h : Issues s (.join p a) c) (hls : c.ls = [l]) (hrel : s.released c.crew c.t false c.act none .dev = true) (hal : c.rd .n64 a l % 64 = 0)
    (hreplay : s.replay? c.id (some c.sid) l = none) (hroom : s.inWindow (corePort c.core) < 8) {u : State} (hu : s.joinBlock (c.byLane l) c.die (c.rd .n64 a l) = .done u) :
    Leaves (exec (.join p a) s) (u.served c.id (some c.sid) l) := by
  have hbody : c.releasing (fun c => c.joinLanes a c.ls c.s0 []) = .done (u.served c.id (some c.sid) l) := by
    rw [h.releasing_eq (Ctx.act_ne_zero hls) hrel, hls, (ctx_eq h.slot).1]
    exact (Ctx.joinLanes_one hal hreplay hroom).1 u hu
  exact word_done h hbody

theorem Ctx.putLatch_dies (c : Ctx) (h : Option (Nat → Word)) (s : State) : (c.putLatch h s).dies = s.dies := by cases h <;> rfl

/-- A join that is refused: its path stays at its word, and its first back-off begins. -/
theorem Issues.join_waits (h : Issues s (.join p a) c) (hls : c.ls = [l]) (hrel : s.released c.crew c.t false c.act none .dev = true) (hal : c.rd .n64 a l % 64 = 0)
    (hreplay : s.replay? c.id (some c.sid) l = none) (hroom : s.inWindow (corePort c.core) < 8) {e : State}
    (he : s.joinBlock (c.byLane l) c.die (c.rd .n64 a l) = .refused e) (hview : e.queueless = s.queueless) :
    ∃ u t q, exec (.join p a) s = .next u ∧ u.slot = none ∧ u.regs = s.regs ∧ u.queues = e.queues ∧ u.strand? c.id c.sid = some t ∧ t.path? c.grant.path = some q
      ∧ q.clause = some c.cl ∧ q.pc = c.path.pc ∧ q.lanes = c.path.lanes
      ∧ ∃ r ∈ u.replays, r.isFor c.id (some c.sid) l = true ∧ r.port = corePort c.core ∧ r.tries = 1 ∧ r.due = u.clk c.die + backoffClocks (u.die c.die).backoff 1 := by
  obtain ⟨hs0, -, -, ht, hp, hclause, -⟩ := ctx_eq h.slot
  have hbody : c.releasing (fun c => c.joinLanes a c.ls c.s0 []) = .hold (c.joinAgain l (e.refused (corePort c.core) c.die c.id (some c.sid) l)) := by
    rw [h.releasing_eq (Ctx.act_ne_zero hls) hrel, hls, hs0]
    exact (Ctx.joinLanes_one hal hreplay hroom).2 e he
  obtain ⟨t, het, hsame⟩ := exists_strand_of_seen (s := { s with queues := [] }) (u := { e with queues := [] }) hview ht
  have hpath : t.path? c.grant.path = some c.path := (congrArg (fun x : Strand => x.path? c.grant.path) hsame :).trans hp
  have hagain : (c.joinAgain l (e.refused (corePort c.core) c.die c.id (some c.sid) l)).strand? c.id c.sid = _ := c.strand?_modP (s := e.refused ..) het _
  obtain ⟨t', L, hslot, -, hregs, -, ht', hp'⟩ := finish_hold_stands hagain (Strand.path?_modPath_some hpath fun _ => rfl) (c.holdOf (.join p a))
  have hstill := still_putLatch c (c.holdOf (.join p a)) (c.joinAgain l (e.refused (corePort c.core) c.die c.id (some c.sid) l))
  have hnone : e.replay? c.id (some c.sid) l = none := by
    rw [State.replay?, show e.replays = s.replays from (congrArg State.replays hview :)]
    exact hreplay
  refine ⟨_, t', _, (word_issues h _).trans (congrArg _ (congrArg _ hbody)), hslot, hregs.trans (congrArg State.regs hview :), (congrArg State.queues hstill :), ht', hp', hclause, rfl, rfl,
    ⟨corePort c.core, c.id, some c.sid, l, 1, e.resendAt c.die 1⟩, ?_, ?_, rfl, rfl, ?_⟩
  · rw [finish_hold]
    exact ((congrArg State.replays hstill :).trans (State.refused_first hnone ..)) ▸ List.mem_cons_self
  · simp only [Replay.isFor, beq_self_eq_true, Bool.and_self]
  · have hdies : (c.putLatch (c.holdOf (.join p a)) (c.joinAgain l (e.refused (corePort c.core) c.die c.id (some c.sid) l))).dies = e.dies := Ctx.putLatch_dies ..
    exact congrArg (fun ds : List Die => (ds.getD c.die Die.reset).clk + backoffClocks (ds.getD c.die Die.reset).backoff 1) hdies.symm

end

/-- Settles O30: one lane by the equation of its turn (`Ctx.qresLane_room` and the others, `State.joinBlock_read`), several lanes by the turns as they are. -/
theorem queueWords : Obligations.QueueWords := by
  unfold Obligations.QueueWords
  refine ⟨⟨?_, ?_⟩, ?_, ?_⟩
  · intro s c p d a b l hls va n full q
    have hturn (w : Instr) (f : Ctx → Ctx.Turn) {e : State} (h : Issues s w c) (hf : f c s l = (e, none)) : c.turns (f c) = .done e :=
      c.turns_one hls ((ctx_eq h.slot).1.symm ▸ hf)
    refine ⟨fun h hq hopen hpos hle => ⟨fun hroom => ?_, fun hroom => ⟨?_, ?_⟩⟩, fun h hn hopen hal hrel => ⟨fun r hroom hload hpush => ⟨?_, ?_⟩, fun hfull => ⟨?_, ?_⟩⟩⟩
    · exact word_done h (hturn _ (·.qresLane d a b) h (Ctx.qresLane_room hq hopen hpos hle hroom))
    · exact word_done h (hturn _ (·.qresLane d a b) h (Ctx.qresLane_full hq hopen hpos hle hroom))
    · obtain ⟨k, hk⟩ := s.queueFail_queue q c.die (c.crew.who c.sid l)
      exact ⟨(congrArg Queue.exh hk :), (congrArg Queue.tail hk :)⟩
    · exact h.releasing_turns hrel (hturn _ (·.spawnLane d a b) h (Ctx.spawnLane_room hn hopen hal hroom hload hpush))
    · exact State.pushRecord_tail hpush
    · exact h.releasing_turns hrel (hturn _ (·.spawnLane d a b) h (Ctx.spawnLane_full hn hopen hal hfull))
    · obtain ⟨k, hk⟩ := s.queueFail_queue n c.die (c.crew.who c.sid l)
      exact ⟨(congrArg Queue.exh hk :), (congrArg Queue.tail hk :)⟩
  · intro s e c p d a b
    exact ⟨fun h he => word_done h he, fun h h0 => h.releasing_nothing h0 _, fun h hrel he => h.releasing_turns hrel he⟩
  · intro s c p a b n l hls hrel by_ q va
    refine ⟨fun vas h hq hopen hpos hle hvas hall => ?_, fun fs blk h hal hreplay hroom hfs hblk => ?_⟩
    · exact h.releasing_turns hrel (f := (·.qcommitLane a b n)) (c.turns_one hls ((ctx_eq h.slot).1.symm ▸ Ctx.qcommitLane_ok hq hopen hpos hle hvas hall))
    · obtain ⟨hzero, hmany, hlast, hfull⟩ := State.joinBlock_read (die := c.die) (show s.leavesFor by_ .store (spans va 64) = (.inl fs, _) from Prod.ext hfs rfl)
        (show State.loadVa _ by_ va 64 = (.ok blk, _) from Prod.ext hblk rfl) rfl rfl
      have hpasses {u : State} := h.join_passes hls hrel hal hreplay hroom (u := u)
      refine ⟨fun h0 => hpasses (hzero h0), fun h2 => hpasses (hmany h2), fun h1 hopen hfree hpush => hpasses (hlast h1 hopen hfree hpush), fun h1 hopen hfree => ?_⟩
      have hseen := (State.loadVa_seen (s.leavesFor by_ .store (spans va 64)).2 by_ va 64).trans (State.leavesFor_seen by_ .store (spans va 64) s)
      obtain ⟨u, t, q, hu, hslot, hregs, hqueues, hrest⟩ := h.join_waits hls hrel hal hreplay hroom (hfull h1 hopen hfree)
        ((queueless_of_seen (State.joinRefused_seen ..)).trans ((State.queueFail_queueless ..).trans (queueless_of_seen hseen)))
      exact ⟨u, t, q, hu, hslot, hregs, (congrArg (fun l => ((assocGet l _).getD Queue.reset).exh) hqueues).trans (State.joinRefused_exh ..), hrest⟩
  · intro s e c p a b n
    exact ⟨fun h0 => ⟨fun h => h.releasing_nothing h0 _, fun h => h.releasing_nothing h0 _⟩, fun h hrel he => h.releasing_turns hrel he⟩

end Sys2Proof.Machine
end


section
/-! Obligation O25, which the record of a sample refutes. -/

namespace Sys2Proof.Machine

/-! ### The record of a sample moves a pinned line (R252, R314)

The sample of `UNPIN` is a record in the trace ring. It is written to memory, and a write that makes a compressed line grow in a set with no room moves the line,
pinned as it is, to its memory-side slice. So the pins are not all among those that stood before. -/

/-! ### What the counters of a slice leave alone -/

/-- A state without the counters and signals of its slices. -/
def State.uncounted (s : State) : State := { s with counters := [], signals := [] }

@[simp] theorem State.signal_uncounted (s : State) (d b i n : Nat) : (s.signal d b i n).uncounted = s.uncounted := by
  rw [State.signal]; split <;> rfl

@[simp] theorem State.addCounter_uncounted (s : State) (d o n : Nat) : (s.addCounter d o n).uncounted = s.uncounted := by
  rw [State.addCounter]; split <;> rfl

@[simp] theorem State.signalAt_uncounted (s : State) (p : Point) (i n : Nat) : (s.signalAt p i n).uncounted = s.uncounted := by
  cases p <;> simp [State.signalAt]

@[simp] theorem State.countAt_uncounted (s : State) (p : Point) (i n : Nat) : (s.countAt p i n).uncounted = s.uncounted := by
  cases p <;> simp [State.countAt]

theorem State.setHeld_uncounted (s : State) (p : Point) (l : List Held) : (s.setHeld p l).uncounted = { s.uncounted with held := assocSet s.held p l } := by
  simp only [State.setHeld, State.signalAt_uncounted]
  rfl

/-! ### A set that a pinned line fills -/

/-- A line that takes a whole set. -/
def Held.whole (b : Nat) : Held := { line := b, sectors := Config.setSectors, written := false, copy := false, team := none }

theorem evictPass_enough (can : Held → Bool) (l : List Held) : evictPass can 0 0 l = (l, [], 0, 0) := by
  induction l with
  | nil => rfl
  | cons x l ih => rw [evictPass, if_pos (.inl ⟨rfl, rfl⟩), ih]

theorem evictPass_none {can : Held → Bool} {l : List Held} (h : ∀ x ∈ l, can x = false) (xs xt : Nat) : evictPass can xs xt l = (l, [], xs, xt) := by
  induction l with
  | nil => rfl
  | cons x l ih => rw [evictPass, if_pos (.inr (h x List.mem_cons_self)), ih fun y hy => h y (List.mem_cons_of_mem _ hy)]

section
variable {s : State} {b : Nat} {d : Held} (hset : setOf false b = setOf false d.line)
include hset

theorem filter_set_pair : [d, Held.whole b].filter (fun h => setOf false h.line == setOf false d.line) = [d, Held.whole b] :=
  List.filter_eq_self.mpr fun h hh => by rcases List.mem_pair.mp hh with rfl | rfl <;> simp [Held.whole, hset]

/-- A line of no sectors fits beside it. -/
theorem evictSet_empty (hd : d.sectors = 0) : evictSet s false d.line [d, Held.whole b] = ([d, Held.whole b], [], true) := by
  have hxs : ([d, Held.whole b].map Held.sectors).sum - Config.setSectors = 0 := by simp [Held.whole, hd]
  have hxt : [d, Held.whole b].length - tierTags false = 0 := rfl
  rw [evictSet]
  simp only [filter_set_pair hset, hxs, hxt, evictPass_enough]
  rfl

/-- Any other line does not, and nothing goes for it. -/
theorem evictSet_full (hd : 0 < d.sectors) (hpin : s.pinnedIn false b = true) : evictSet s false d.line [d, Held.whole b] = ([d, Held.whole b], [], false) := by
  have hcan (urgent : Bool) : ∀ h ∈ [d, Held.whole b].reverse, (setOf false h.line == setOf false d.line && h.line != d.line && (h.copy || !s.pinnedIn false h.line)
      && s.urgentTeam h.team == urgent) = false := by
    intro h hh
    rcases List.mem_pair.mp (List.mem_reverse.1 hh) with rfl | rfl
    · simp
    · simp [Held.whole, hpin]
  have hxs : ([d, Held.whole b].map Held.sectors).sum - Config.setSectors = d.sectors := by simp [Held.whole]
  rw [evictSet]
  simp only [filter_set_pair hset, hxs, evictPass_none (hcan false), evictPass_none (hcan true), decide_eq_false hd.ne', Bool.false_and]
  rfl

end

/-- A line that is compressed to nothing stands in its slice beside a pinned line that fills the set. -/
structure Brimful (s : State) (p : Point) (a b : Nat) : Prop where
  held : ∃ w t, s.heldAt p = [⟨a, 0, w, false, t⟩, Held.whole b]
  pinned : s.pinnedIn false b = true
  line : ∃ tag, s.lineState a = ⟨tag, 0, true⟩

theorem Brimful.congr {s u : State} {p : Point} {a b : Nat} (h : Brimful s p a b) (hheld : u.heldAt p = s.heldAt p) (hpins : u.pins = s.pins) (hlines : u.lineState a = s.lineState a) :
    Brimful u p a b := by
  obtain ⟨hh, hp, hl⟩ := h
  exact ⟨hheld ▸ hh, by rw [State.pinnedIn, hpins]; exact hp, hlines ▸ hl⟩

section
variable {s : State} {p : Point} {a b : Nat} (h : Brimful s p a b) (hab : b ≠ a) (hset : setOf false b = setOf false a)
include h hab hset

theorem Brimful.touchSlice_read (hzero : s.lineSectors a = 0) : ∃ w, s.touchSlice p a false false none = s.setHeld p [⟨a, 0, w, false, none⟩, Held.whole b] := by
  obtain ⟨w, t, hh⟩ := h.held
  have hold : [⟨a, 0, w, false, t⟩, Held.whole b].find? (fun h => h.line == a) = some ⟨a, 0, w, false, t⟩ := by simp
  have hrest : [⟨a, 0, w, false, t⟩, Held.whole b].filter (fun h => h.line != a) = [Held.whole b] := by simp [Held.whole, hab]
  have hev : evictSet s false a [⟨a, 0, w, false, none⟩, Held.whole b] = _ := evictSet_empty (d := ⟨a, 0, w, false, none⟩) hset rfl
  refine ⟨w, ?_⟩
  rw [State.touchSlice]
  simp only [hh, hold, hrest, hzero, hev, Option.isNone_some, Bool.false_and, Bool.false_eq_true, if_false, Option.map_some, Option.getD_some, Bool.false_or, if_true]
  rfl

theorem Brimful.touchSlice_write (hl : keyLpddr (lineBase a) = false) (hgrown : 0 < s.lineSectors a) :
    (s.touchSlice p a true false none) = ((s.setHeld p [⟨a, s.lineSectors a, true, false, none⟩, Held.whole b]).countAt p 4 0).moveAway p a true none := by
  obtain ⟨w, t, hh⟩ := h.held
  have hold : [⟨a, 0, w, false, t⟩, Held.whole b].find? (fun h => h.line == a) = some ⟨a, 0, w, false, t⟩ := by simp
  have hrest : [⟨a, 0, w, false, t⟩, Held.whole b].filter (fun h => h.line != a) = [Held.whole b] := by simp [Held.whole, hab]
  have hev : evictSet s false a [⟨a, s.lineSectors a, true, false, none⟩, Held.whole b] = _ := evictSet_full (d := ⟨a, s.lineSectors a, true, false, none⟩) hset hgrown h.pinned
  rw [State.touchSlice]
  simp only [hh, hold, hrest, hl, hev, Option.isNone_some, Bool.false_and, Bool.false_eq_true, if_false, Option.map_some, Option.getD_some, Bool.true_or, if_true, gt_iff_lt, hgrown,
    decide_true, Bool.and_self]
  rfl

end

theorem State.lineState_setLine_same (s : State) (l : Nat) (x : LineState) : (s.setLine l x).lineState l = x := by
  rw [State.setLine, State.lineState, assocGet_assocSet_same]
  rfl

theorem heldAt_setHeld (s : State) (p : Point) (l : List Held) : (s.setHeld p l).heldAt p = l := by
  have : (s.setHeld p l).held = assocSet s.held p l := (congrArg State.held (State.setHeld_uncounted s p l) :)
  rw [State.heldAt, this, assocGet_assocSet_same]
  rfl

theorem pins_setHeld (s : State) (p : Point) (l : List Held) : (s.setHeld p l).pins = s.pins := (congrArg State.pins (State.setHeld_uncounted s p l) :)

theorem pins_countAt (s : State) (p : Point) (i n : Nat) : (s.countAt p i n).pins = s.pins := (congrArg State.pins (State.countAt_uncounted s p i n) :)

theorem pins_touchM (s : State) (line : Nat) (wr back : Bool) (team : Option (Nat × Nat)) : (s.touchM line wr back team).pins = s.pins := by
  simp only [State.touchM, apply_ite State.pins, pins_countAt, pins_setHeld, ite_self]

theorem pins_moveAway (s : State) (p : Point) (line : Nat) (wr : Bool) (team : Option (Nat × Nat)) :
    (s.moveAway p line wr team).pins = mapIf (fun q => q.line == line) (fun q => { q with away := true }) s.pins := by
  have hsignal (v : State) (q : Point) (i n : Nat) : (v.signalAt q i n).pins = v.pins := (congrArg State.pins (v.signalAt_uncounted q i n) :)
  exact (pins_countAt ..).trans ((hsignal ..).trans ((pins_touchM ..).trans (congrArg _ (pins_setHeld ..))))

theorem lineSectors_congr {s u : State} {l : Nat} (hline : u.lineState l = s.lineState l) (hmem : u.mem = s.mem) : u.lineSectors l = s.lineSectors l := by
  rw [State.lineSectors, State.lineSectors, hline, State.memBytes, State.memBytes, hmem]

section
variable {s : State} {d k a b : Nat} (h : Brimful s (.slice d k) a b)
include h

theorem Brimful.recompressed : (s.setLine a { s.lineState a with cmp := true }).lineState a = s.lineState a := by
  obtain ⟨tag, hline⟩ := h.line
  rw [State.lineState_setLine_same, hline]

theorem Brimful.setLine : Brimful (s.setLine a { s.lineState a with cmp := true }) (.slice d k) a b := h.congr rfl rfl h.recompressed

variable (hab : b ≠ a) (hset : setOf false b = setOf false a)
include hab hset

/-- A read of it leaves the slice as it was. -/
theorem Brimful.touch_read (hzero : s.lineSectors a = 0) : Brimful (s.touch (.slice d k) (some true) a false none) (.slice d k) a b
    ∧ (s.touch (.slice d k) (some true) a false none).pins = s.pins := by
  obtain ⟨w, hw⟩ := h.setLine.touchSlice_read hab hset ((lineSectors_congr h.recompressed rfl).trans hzero)
  have htouch : s.touch (.slice d k) (some true) a false none = s.slicesOf ((s.setLine a { s.lineState a with cmp := true }).touchSlice (.slice d k) a false false none) := rfl
  have hpins : (s.touch (.slice d k) (some true) a false none).pins = s.pins := by
    rw [htouch, hw]
    exact pins_setHeld ..
  refine ⟨⟨⟨w, none, ?_⟩, ?_, ?_⟩, hpins⟩
  · rw [htouch, hw]
    exact heldAt_setHeld ..
  · rw [State.pinnedIn, hpins]
    exact h.pinned
  · obtain ⟨tag, hline⟩ := h.line
    have hlines : (s.touch (.slice d k) (some true) a false none).lines = (s.setLine a { s.lineState a with cmp := true }).lines := by
      rw [htouch, hw]
      exact (congrArg State.lines (State.setHeld_uncounted (s.setLine a { s.lineState a with cmp := true }) (.slice d k) [⟨a, 0, w, false, none⟩, Held.whole b]) :)
    exact ⟨tag, (State.lineState_congr hlines a).trans (h.recompressed.trans hline)⟩

/-- A write that makes it grow pins it away. -/
theorem Brimful.touch_write (hl : keyLpddr (lineBase a) = false) (hgrown : 0 < s.lineSectors a) :
    (s.touch (.slice d k) (some true) a true none).pins = mapIf (fun q => q.line == a) (fun q => { q with away := true }) s.pins := by
  have htouch : s.touch (.slice d k) (some true) a true none = s.slicesOf ((s.setLine a { s.lineState a with cmp := true }).touchSlice (.slice d k) a true false none) := rfl
  rw [htouch, h.setLine.touchSlice_write hab hset hl ((lineSectors_congr h.recompressed rfl).symm ▸ hgrown)]
  refine (pins_moveAway ..).trans (congrArg _ ?_)
  rw [pins_countAt, pins_setHeld]
  rfl

end

theorem Brimful.of_uncounted {s u : State} {p : Point} {a b : Nat} (h : Brimful s p a b) (hu : u.uncounted = s.uncounted) : Brimful u p a b :=
  h.congr (congrArg (fun v : State => v.heldAt p) hu :) (congrArg State.pins hu :) (congrArg (fun v : State => v.lineState a) hu :)

theorem Brimful.dropCopies {s : State} {d k a b : Nat} (h : Brimful s (.slice d k) a b) :
    Brimful (s.dropCopies (.slice d k) a) (.slice d k) a b ∧ (s.dropCopies (.slice d k) a).pins = s.pins ∧ (s.dropCopies (.slice d k) a).lineState a = s.lineState a := by
  obtain ⟨tag, hline⟩ := h.line
  have hsecs : ((List.range 3).filter fun i => (s.lineState a).copies.getLsbD i) = [] := by rw [hline]; simp
  have hdrop : (s.dropCopies (.slice d k) a).uncounted = (s.setLine a (s.lineState a)).uncounted := by
    rw [State.dropCopies, hsecs, State.countAt_uncounted, hline]
    rfl
  have hstate : (s.dropCopies (.slice d k) a).lineState a = s.lineState a := (congrArg (fun v : State => v.lineState a) hdrop :).trans (State.lineState_setLine_same ..)
  have hpins : (s.dropCopies (.slice d k) a).pins = s.pins := (congrArg State.pins hdrop :)
  exact ⟨h.congr (congrArg (fun v : State => v.heldAt (.slice d k)) hdrop :) hpins hstate, hpins, hstate⟩

theorem Brimful.putBytes {s : State} {p : Point} {a b : Nat} (h : Brimful s p a b) (ws : List Host.Cell) : Brimful (s.putBytes a ws) p a b ∧ (s.putBytes a ws).pins = s.pins := by
  rw [State.putBytes, State.unlose]
  split
  · exact ⟨h.congr rfl rfl rfl, rfl⟩
  · exact ⟨h.congr rfl rfl rfl, rfl⟩

theorem Brimful.stamp {s : State} {p : Point} {a b : Nat} (h : Brimful s p a b) : Brimful (s.stamp p a).2 p a b := by
  obtain ⟨tag, hline⟩ := h.line
  refine ⟨h.held, h.pinned, s.change p, ?_⟩
  exact (State.lineState_setLine_same s a { s.lineState a with tag := s.change p }).trans (by rw [hline])

/-- A write of bytes into it, after which it is compressed to more than nothing, pins it away. -/
theorem Brimful.apply_write {s : State} {d k a b : Nat} (h : Brimful s (.slice d k) a b) (hab : b ≠ a) (hset : setOf false b = setOf false a) (hl : keyLpddr (lineBase a) = false)
    (hzero : s.lineSectors a = 0) (hslots : s.slotWords a = []) {ws : List Host.Cell} (hgrown : 0 < bdzSectors true (memBytesFrom (memPutCells s.mem ws) (lineBase a) 128)) :
    (s.apply (.slice d k) (some true) a ws none).2.2.pins = mapIf (fun q => q.line == a) (fun q => { q with away := true }) s.pins := by
  have hraw : (s.apply (.slice d k) (some true) a ws none).2.2 = (s.applyRaw (.slice d k) (some true) a ws none).2 := by
    rw [State.apply]
    simp only [hslots, List.filter_nil]
    rfl
  obtain ⟨hdrop, hdropPins, hdropLine⟩ := h.dropCopies
  have hdropMem : (s.dropCopies (.slice d k) a).mem = s.mem := (congrArg State.mem (s.dropCopies_offTier (.slice d k) a) :)
  obtain ⟨hread, hreadPins⟩ := hdrop.touch_read hab hset ((lineSectors_congr hdropLine hdropMem).trans hzero)
  have hreadMem : ((s.dropCopies (.slice d k) a).touch (.slice d k) (some true) a false none).mem = s.mem :=
    (congrArg State.mem (State.touch_offTier (s.dropCopies (.slice d k) a) (.slice d k) (some true) a false none) :).trans hdropMem
  obtain ⟨hput, hputPins⟩ := hread.putBytes ws
  have hstamp := hput.stamp
  have hcount (v : State) (m n : Nat) : (v.countChange (.slice d k) m n).uncounted = v.uncounted := (State.countAt_uncounted ..).trans (State.countAt_uncounted ..)
  rw [hraw, State.applyRaw_eq]
  dsimp only
  generalize (s.dropCopies (.slice d k) a).touch (.slice d k) (some true) a false none = s1 at hread hreadPins hreadMem hput hputPins hstamp ⊢
  have hstampMem : ((s1.putBytes a ws).stamp (.slice d k) a).2.mem = memPutCells s.mem ws := by
    rw [← hreadMem]
    exact s1.putBytes_mem a ws
  have hstampPins : ((s1.putBytes a ws).stamp (.slice d k) a).2.pins = s.pins := hputPins.trans (hreadPins.trans hdropPins)
  generalize ((s1.putBytes a ws).stamp (.slice d k) a).2 = s3 at hstamp hstampMem hstampPins ⊢
  have huncounted := hcount s3 (s1.lineSectors a) (s3.lineSectors a)
  generalize s3.countChange (.slice d k) (s1.lineSectors a) (s3.lineSectors a) = s4 at huncounted ⊢
  have hbrim : Brimful s4 (.slice d k) a b := hstamp.of_uncounted huncounted
  have hmem : s4.mem = memPutCells s.mem ws := (congrArg State.mem huncounted :).trans hstampMem
  have hpins : s4.pins = s.pins := (congrArg State.pins huncounted :).trans hstampPins
  have hsectors : 0 < s4.lineSectors a := by
    obtain ⟨tag, hline⟩ := hbrim.line
    rw [State.lineSectors, hline, State.memBytes, hmem]
    exact hgrown
  obtain ⟨c, hc⟩ := (s4.touch (.slice d k) (some true) a true none).sourceWritten_eq a
  rw [hc, ← hpins]
  exact hbrim.touch_write hab hset hl hsectors

theorem State.applyRaw_dies (s : State) (p : Point) (hold : Option Bool) (line : Nat) (ws : List Host.Cell) (team : Option (Nat × Nat)) :
    (s.applyRaw p hold line ws team).2.dies = s.dies := by
  rw [State.applyRaw_eq]
  dsimp only
  generalize hs1 : (s.dropCopies p line).touch p hold line false team = s1
  have h1 : s1.dies = s.dies := by
    rw [← hs1]
    exact (congrArg State.dies ((State.touch_offTier ..).trans (s.dropCopies_offTier p line)) :)
  have h2 : (s1.putBytes line ws).dies = s1.dies := by
    rw [State.putBytes, State.unlose]
    split <;> rfl
  generalize hs4 : ((s1.putBytes line ws).stamp p line).2.countChange p _ _ = s4
  have h4 : s4.dies = (s1.putBytes line ws).dies := by
    rw [← hs4]
    exact (congrArg State.dies (State.countChange_offTier ..) :)
  obtain ⟨c, hc⟩ := (s4.touch p hold line true team).sourceWritten_eq line
  rw [hc]
  exact (congrArg State.dies (s4.touch_offTier p hold line true team) :).trans (h4.trans (h2.trans h1))

/-! ### What a record leaves in a line of zeros -/

theorem bdzSectors_pos {l : List Byte} (hl : ∃ x ∈ l, x ≠ 0) : 0 < bdzSectors true l := by
  obtain ⟨x, hx, hx0⟩ := hl
  have hzero : bdzFits l 0 = false := by
    rw [bdzFits, List.all_eq_false]
    exact ⟨x, hx, by simpa using hx0⟩
  have hcode : bdzCode true l ∈ [1, 2, 3, 4, 5, 6, 7, 15] := by
    rw [bdzCode, if_pos rfl]
    cases hmin : minBy (bdzCodeSectors l) ([0, 1, 2, 3, 4, 5, 6, 7, 15].filter (bdzFits l)) with
    | none => decide
    | some k =>
      have hk := minBy_mem hmin
      rw [List.filter_cons_of_neg (by rw [hzero]; decide)] at hk
      exact List.mem_of_mem_filter hk
  rw [bdzSectors]
  generalize bdzCode true l = k at hcode
  have hk : k = 1 ∨ k = 2 ∨ k = 3 ∨ k = 4 ∨ k = 5 ∨ k = 6 ∨ k = 7 ∨ k = 15 := by simpa using hcode
  rcases hk with rfl | rfl | rfl | rfl | rfl | rfl | rfl | rfl <;> simp only [bdzCodeSectors] <;> omega

theorem memBytesFrom_nil (k n : Nat) : memBytesFrom [] k n = List.replicate n 0 := by
  induction n generalizing k with
  | zero => rfl
  | succ n ih => rw [memBytesFrom, ih, List.replicate_succ]; rfl

theorem bdzSectors_zeros : bdzSectors true (List.replicate 128 0) = 0 := by decide +kernel

/-- The bytes of a record. -/
def recordCells (k : Nat) (ws : List Word) : List Host.Cell :=
  (((List.range ws.length).zip ws).map fun q => ((List.range 8).zip (leBytes 8 q.2.toNat)).map fun r => ((k + 8 * q.1 + r.1, r.2) : Host.Cell)).flatten

/-- The first byte of a record is that of its first word. -/
theorem recordCells_head (k : Nat) (w : Word) (ws : List Word) : ∃ l, recordCells k (w :: ws) = (k, BitVec.ofNat 8 w.toNat) :: l ∧ ∀ p ∈ l, p.1 ≠ k := by
  have hbytes : leBytes 8 w.toNat = BitVec.ofNat 8 w.toNat :: leBytes 7 (w.toNat / 256) := rfl
  refine ⟨(((List.range 7).map Nat.succ).zip (leBytes 7 (w.toNat / 256))).map (fun r => (k + r.1, r.2)) ++ ((((List.range ws.length).map Nat.succ).zip ws).map fun q =>
    ((List.range 8).zip (leBytes 8 q.2.toNat)).map fun r => ((k + 8 * q.1 + r.1, r.2) : Host.Cell)).flatten, ?_, fun p hp => ?_⟩
  · have hfirst (l : List Byte) : (List.range 8).zip (BitVec.ofNat 8 w.toNat :: l) = (0, BitVec.ofNat 8 w.toNat) :: ((List.range 7).map Nat.succ).zip l := rfl
    rw [recordCells, List.length_cons, List.range_succ_eq_map (n := ws.length), List.zip_cons_cons, List.map_cons, List.flatten_cons, hbytes, hfirst, List.map_cons]
    simp only [Nat.mul_zero, Nat.add_zero, List.cons_append]
  · rcases List.mem_append.1 hp with hp | hp
    · obtain ⟨r, hr, rfl⟩ := List.mem_map.1 hp
      obtain ⟨j, -, hj⟩ := List.mem_map.1 (List.of_mem_zip hr).1
      show k + r.1 ≠ k
      omega
    · obtain ⟨c, hc, hpc⟩ := List.mem_flatten.1 hp
      obtain ⟨q, hq, rfl⟩ := List.mem_map.1 hc
      obtain ⟨j, -, hj⟩ := List.mem_map.1 (List.of_mem_zip hq).1
      obtain ⟨r, -, rfl⟩ := List.mem_map.1 hpc
      show k + 8 * q.1 + r.1 ≠ k
      omega

/-- A line of zeros into which a record is written is compressed to more than nothing. -/
theorem recordCells_sectors {k : Nat} {w : Word} (ws : List Word) (hw : BitVec.ofNat 8 w.toNat ≠ 0) :
    0 < bdzSectors true (memBytesFrom (memPutCells [] (recordCells k (w :: ws))) k 128) := by
  obtain ⟨l, hl, hne⟩ := recordCells_head k w ws
  refine bdzSectors_pos ⟨_, List.mem_cons_self, ?_⟩
  rw [hl, memPutCells, memPutCells_other l k (sparseWf_set k _ rfl) hne, sparseGet_set_same (lo := none) k _ rfl]
  exact hw

/-! ### A record in the ring of die 0 -/

/-- A die whose next record goes to line `a`. -/
def Die.ringing (a : Nat) : Die := { Die.reset with trsize := 2 ^ 26, trwrite := BitVec.ofNat 64 (2 * a) }

theorem Die.ring_ringing {a : Nat} (ha : a < 1000) : (Die.ringing a).ring false = (0, 2 ^ 20, 0, 2 * a) := by
  have hw : (BitVec.ofNat 64 (2 * a)).toNat = 2 * a := by rw [BitVec.toNat_ofNat]; omega
  rw [Die.ring]
  simp only [Bool.false_eq_true, if_false, Die.ringing, hw]
  rfl

theorem homeOf_lineBase {a : Nat} (ha : a < 1000) : homeOf 0 (lineBase a) = .slice (paDie (lineBase a)) (paSlice (lineBase a)) ∧ keyLpddr (lineBase a) = false := by
  have hl : keyLpddr (lineBase a) = false := decide_eq_false (by rw [lpddrKey, lineBase]; omega)
  have hpa : keyPa (lineBase a) = lineBase a := if_neg (by simpa [keyLpddr] using hl)
  have hhigh : lineBase a / 2 ^ 48 = 0 := by rw [lineBase]; omega
  refine ⟨?_, hl⟩
  rw [homeOf]
  simp only [hl, keyAperture, keyPeer, keyPcie, hhigh, hpa]
  rfl

section
variable {s : State} {a b : Nat} (h : Brimful s (homeOf 0 (lineBase a)) a b) (hab : b ≠ a) (hset : setOf false b = setOf false a) (ha : a < 1000) (hmem : s.mem = [])
  (hslots : s.slotWords a = [])
include h hab hset ha hmem hslots

theorem Brimful.putRecord {w : Word} (hw : BitVec.ofNat 8 w.toNat ≠ 0) (ws : List Word) :
    (s.putRecord (lineBase a) (w :: ws)).pins = mapIf (fun q => q.line == a) (fun q => { q with away := true }) s.pins ∧ (s.putRecord (lineBase a) (w :: ws)).dies = s.dies := by
  have hline : lineOf (lineBase a) = a := Nat.mul_div_cancel _ (by decide)
  obtain ⟨tag, htag⟩ := h.line
  obtain ⟨hhome, hl⟩ := homeOf_lineBase ha
  have hput : s.putRecord (lineBase a) (w :: ws) = (s.apply (homeOf 0 (lineBase a)) (some true) a (recordCells (lineBase a) (w :: ws)) none).2.2 := by
    rw [State.putRecord, State.putRecordAt, hline, htag]
    rfl
  have hzero : s.lineSectors a = 0 := by
    rw [State.lineSectors, htag, State.memBytes, hmem, memBytesFrom_nil]
    exact bdzSectors_zeros
  rw [hput]
  constructor
  · rw [hhome] at h ⊢
    exact h.apply_write hab hset hl hzero hslots (by rw [hmem]; exact recordCells_sectors ws hw)
  · rw [State.apply]
    simp only [hslots, List.filter_nil]
    exact State.applyRaw_dies s _ _ _ _ _

variable (hdies : s.dies = [Die.ringing a])
include hdies

/-- The record moves the line. -/
theorem Brimful.emit {kind : Nat} {w : Who} (payload : List Word) (hsec : w.secure = false)
    (hkind : BitVec.ofNat 8 ((recordWords kind w 0 payload).headD 0).toNat ≠ 0) :
    (s.emit 0 kind w payload).pins = mapIf (fun q => q.line == a) (fun q => { q with away := true }) s.pins := by
  have hdie : s.die 0 = Die.ringing a := by rw [State.die, hdies]; rfl
  have hroom : (Die.ringing a).ringFull false = false := by
    rw [Die.ringFull, Die.ring_ringing ha]
    exact decide_eq_false (by omega)
  have hone : s.emitOne 0 kind w payload = s.ringPut 0 false (recordWords kind w 0 payload) := by
    rw [State.emitOne]
    simp only [hdie, hsec, hroom]
    rfl
  obtain ⟨hpins, hsame⟩ := h.putRecord hab hset ha hmem hslots hkind (recordWords kind w 0 payload).tail
  have hput : s.ringPut 0 false (recordWords kind w 0 payload) = (s.putRecord (lineBase a) (recordWords kind w 0 payload)).modDie 0 fun d =>
      { d with trwrite := d.trwrite + 1, sinceSync := d.sinceSync + 1 } := by
    have hkey : 0 + 64 * (2 * a % 2 ^ 20) = lineBase a := by rw [lineBase]; omega
    rw [State.ringPut]
    simp only [hdie, Die.ring_ringing ha, hkey]
    rfl
  have hsync : ((s.ringPut 0 false (recordWords kind w 0 payload)).die 0).sinceSync = 1 := by
    have hdies' : (s.putRecord (lineBase a) (recordWords kind w 0 payload)).dies = [Die.ringing a] := hsame.trans hdies
    rw [hput, State.die, State.modDie, hdies']
    rfl
  rw [State.emit, hone]
  simp only [hsync]
  rw [if_pos (by decide), hput]
  exact hpins

end

/-- The first word of the record of a sample is not zero in its low byte. -/
theorem sample_kind (w : Who) (payload : List Word) : BitVec.ofNat 8 ((recordWords 4 w 0 payload).headD 0).toNat ≠ 0 := by
  have hbit (x : Bool) : b2n x ≤ 1 := by cases x <;> decide
  have hp := hbit w.prod
  have hg := hbit w.gaff
  have hs := hbit w.secure
  have hhead : (recordWords 4 w 0 payload).headD 0 = BitVec.ofNat 64 (4 + b2n w.prod * 2 ^ 4 + b2n w.gaff * 2 ^ 5 + b2n w.secure * 2 ^ 6 + w.gln * 2 ^ 8) := rfl
  intro h0
  have := congrArg BitVec.toNat h0
  rw [hhead, BitVec.toNat_ofNat, BitVec.toNat_ofNat] at this
  change _ = 0 at this
  omega

/-! ### The refutation -/

/-- The lanes of an `UNPIN` whose stream holds no pin of its own leave the pins as they are. -/
theorem unpin_lanes {c : Ctx} {ea : Nat → Word} (L : List Nat) (s : State) (hpins : ∀ q ∈ s.pins, q.holder ≠ c.softHolder) :
    ∃ j l, L.foldl (fun s l => if inBlockAperture (ea l) then s
      else match s.translate c.crew.asid c.crew.secure .load (ea l) with
        | (.ok f, s) => { s with pins := s.pins.filter fun q => !(q.holder == c.softHolder && q.line == lineOf f.at_) }
        | (.fail _ _, s) => s) s = { s with free := j, tlb := l } := by
  induction L generalizing s with
  | nil => exact ⟨s.free, s.tlb, rfl⟩
  | cons x L ih =>
    rw [List.foldl_cons]
    split
    · exact ih s hpins
    · obtain ⟨j, l, h⟩ := s.translate_eq c.crew.asid c.crew.secure .load (ea x)
      split
      next f u hu =>
        rw [hu] at h
        obtain rfl : u = _ := h
        have hall : s.pins.filter (fun q => !(q.holder == c.softHolder && q.line == lineOf f.at_)) = s.pins :=
          List.filter_eq_self.2 fun q hq => by simp [hpins q hq]
        obtain ⟨j', l', h'⟩ := ih { s with free := j, tlb := l } hpins
        refine ⟨j', l', ?_⟩
        rw [← h']
        exact congrArg (fun ps => L.foldl _ ({ s with free := j, tlb := l, pins := ps } : State)) hall
      next u hu =>
        rw [hu] at h
        obtain rfl : u = _ := h
        exact ih { s with free := j, tlb := l } hpins

def unpinWord : Instr := .unpin Tests.p0 (.v 2) 0

/-- Line `a` is pinned and compressed to nothing, line `b` is pinned and fills its set, and the next record goes to line `a`. -/
def brimfulState (a b : Nat) : State :=
  { Tests.issuing unpinWord with
    mem := [], scatter := [], dies := [Die.ringing a], lines := [(a, ⟨0, 0, true⟩)],
    held := [(homeOf 0 (lineBase a), [⟨a, 0, false, false, none⟩, Held.whole b])],
    pins := [⟨.tile 7 0 0, a, false⟩, ⟨.tile 7 0 0, b, false⟩] }

/-- The surroundings of a word do not know of lines and records. -/
theorem ctx?_congr {s u : State} (hslot : u.slot = s.slot) (hcrews : u.crews = s.crews) (p : Pre) : u.ctx? p = (s.ctx? p).map fun c => { c with s0 := u } := by
  have hcrew : u.crew? = s.crew? := by funext k; rw [State.crew?, hcrews, State.crew?]
  have hstrand : u.strand? = s.strand? := by funext k d; rw [State.strand?, hcrew, State.strand?]
  rw [State.ctx?, State.ctx?, hslot]
  simp only [hcrew, hstrand]
  cases s.slot with
  | none => rfl
  | some g =>
    dsimp only
    cases s.crew? g.crew with
    | none => rfl
    | some c =>
      cases s.strand? g.crew g.sid with
      | none => rfl
      | some t =>
        dsimp only
        cases t.path? g.path with
        | none => rfl
        | some q =>
          dsimp only
          cases q.clause with
          | none => rfl
          | some cl =>
            dsimp only
            cases cl.words[cl.pos]? <;> rfl

/-- What the surroundings of the word are to meet. -/
def unpinMeets (c : Ctx) : Bool := c.act != 0 && !c.crew.secure && c.die == 0 && c.s0.sampleDue c.core && !c.usesAlias unpinWord

/-- The word issues in the state, whatever its lines. -/
theorem brimfulState_issues (a b : Nat) : ∃ c, Issues (brimfulState a b) unpinWord c ∧ unpinMeets c = true := by
  obtain ⟨c, hI, hP⟩ := Tests.issues_of_meets (s := brimfulState 0 0) (i := unpinWord) (P := unpinMeets) (by decide +kernel)
  have hs0 := (ctx_eq hI.slot).1
  have hmeets : unpinMeets { c with s0 := brimfulState a b } = true := by
    rw [unpinMeets, hs0] at hP
    exact hP
  have halias : (!Ctx.usesAlias { c with s0 := brimfulState a b } unpinWord) = true := by
    simp only [unpinMeets, Bool.and_eq_true] at hmeets
    exact hmeets.2
  exact ⟨_, ⟨(ctx?_congr (s := brimfulState 0 0) (u := brimfulState a b) rfl rfl _).trans (congrArg _ hI.slot), hI.check, if_pos halias⟩, hmeets⟩

theorem brimfulState_brimful (a b : Nat) : Brimful (brimfulState a b) (homeOf 0 (lineBase a)) a b := by
  refine ⟨⟨false, none, ?_⟩, ?_, 0, ?_⟩
  · rw [State.heldAt, show (brimfulState a b).held = [(homeOf 0 (lineBase a), [⟨a, 0, false, false, none⟩, Held.whole b])] from rfl, assocGet, if_pos rfl]
    rfl
  · simp [State.pinnedIn, brimfulState]
  · rw [State.lineState, show (brimfulState a b).lines = [(a, ⟨0, 0, true⟩)] from rfl, assocGet, if_pos rfl]
    rfl

theorem brimfulState_slots (a b : Nat) : (brimfulState a b).slotWords a = [] := by
  have hsize (d : Nat) : ((brimfulState a b).die d).scatsize = 0 := by
    rw [State.die, show (brimfulState a b).dies = [Die.ringing a] from rfl]
    cases d <;> rfl
  rw [State.slotWords]
  simp only [hsize]
  rfl

/-- Two lines of one set: there are more lines than sets. -/
theorem exists_same_set : ∃ a b, a < 1000 ∧ b ≠ a ∧ setOf false b = setOf false a := by
  obtain ⟨a, ha, b, -, hab, hset⟩ := Finset.exists_ne_map_eq_of_card_lt_of_maps_to (s := Finset.range 769) (t := Finset.range 768) (f := setOf false)
    (by simp) fun x _ => Finset.mem_range.2 (Nat.mod_lt _ (by decide))
  exact ⟨a, b, by have := Finset.mem_range.1 ha; omega, hab.symm, hset.symm⟩

/-- A state that differs from it in what a translation and a draw change. -/
def brimfulAfter (a b : Nat) (j : Nat) (l : List ((BitVec 16 × Bool × Nat) × Leaf)) (x : List (CoreId × Nat)) : State := { brimfulState a b with free := j, tlb := l, sampling := x }

theorem brimfulAfter_emit {a b : Nat} (ha : a < 1000) (hab : b ≠ a) (hset : setOf false b = setOf false a) (j : Nat) (l : List ((BitVec 16 × Bool × Nat) × Leaf)) (x : List (CoreId × Nat)) {die : Nat} (hdie : die = 0) {w : Who}
    (hsec : w.secure = false) (payload : List Word) : ⟨.tile 7 0 0, a, true⟩ ∈ ((brimfulAfter a b j l x).emit die 4 w payload).pins := by
  subst hdie
  have hbrim : Brimful (brimfulAfter a b j l x) (homeOf 0 (lineBase a)) a b := (brimfulState_brimful a b).congr rfl rfl rfl
  rw [hbrim.emit hab hset ha rfl (brimfulState_slots a b) rfl payload hsec (sample_kind _ _)]
  refine List.mem_map.2 ⟨⟨.tile 7 0 0, a, false⟩, List.mem_cons_self, ?_⟩
  simp

theorem State.tally_eq (s : State) (k : CoreId) : ∃ x, s.tally k = { s with sampling := x } := by
  rw [State.tally]
  split
  · exact ⟨s.sampling, rfl⟩
  · exact ⟨_, rfl⟩

/-- The sample of the word moves line `a`. -/
theorem brimfulState_moves {a b : Nat} (ha : a < 1000) (hab : b ≠ a) (hset : setOf false b = setOf false a) {c : Ctx} (hI : Issues (brimfulState a b) unpinWord c)
    (hP : unpinMeets c = true) : ∃ u, exec unpinWord (brimfulState a b) = .next u ∧ ⟨.tile 7 0 0, a, true⟩ ∈ u.pins := by
  simp only [unpinMeets, Bool.and_eq_true, Bool.not_eq_true', bne_iff_ne, ne_eq, beq_iff_eq] at hP
  obtain ⟨⟨⟨⟨hact, hsecure⟩, hdie⟩, hdue⟩, -⟩ := hP
  have hs0 := (ctx_eq hI.slot).1
  rw [hs0] at hdue
  obtain ⟨u, hu, hstill⟩ := word_done hI (body := fun c => .done (c.sampled (c.ea (.v 2) 0) (c.forLanes (fun l s => if inBlockAperture (c.ea (.v 2) 0 l) then s
      else match s.translate c.crew.asid c.crew.secure .load (c.ea (.v 2) 0 l) with
        | (.ok f, s) => { s with pins := s.pins.filter fun q => !(q.holder == c.softHolder && q.line == lineOf f.at_) }
        | (.fail _ _, s) => s) c.s0))) rfl
  obtain ⟨j, l, hlanes⟩ := unpin_lanes (c := c) (ea := c.ea (.v 2) 0) c.ls (brimfulState a b) fun q hq => by
    rcases List.mem_pair.1 hq with rfl | rfl <;> exact PinHolder.noConfusion
  obtain ⟨x, hx⟩ := State.tally_eq { brimfulState a b with free := j, tlb := l } c.core
  have hdue' : State.sampleDue { brimfulState a b with free := j, tlb := l } c.core = true := hdue
  refine ⟨u, hu, ?_⟩
  rw [show u.pins = _ from (congrArg State.pins hstill :), Ctx.sampled, if_neg hact, Ctx.forLanes, hs0, hlanes, State.sampleNow, if_pos hdue', hx]
  have hmoved := brimfulAfter_emit ha hab hset (j + 3) l x hdie (w := { c.crew.who c.sid (lowLane c.act) with pc := c.hdrAddr }) hsecure
  exact hmoved _

/-- Refutes O25: the record of the sample of `UNPIN` makes a pinned line grow in a set that another pinned line fills, so that the pin moves to the memory-side slice. -/
theorem not_cacheWords : ¬ Obligations.CacheWords := by
  unfold Obligations.CacheWords
  intro h
  obtain ⟨a, b, ha, hab, hset⟩ := exists_same_set
  obtain ⟨c, hI, hP⟩ := brimfulState_issues a b
  obtain ⟨u, hu, hin⟩ := brimfulState_moves ha hab hset hI hP
  obtain ⟨-, hunpin, -⟩ := h (brimfulState a b) c Tests.p0 false (.v 2) 0 0
  obtain ⟨v, hv, -, -, hkept, -⟩ := hunpin hI
  obtain rfl : u = v := Host.Outcome.next.inj (hu.symm.trans hv)
  rcases List.mem_pair.1 (hkept _ hin) with heq | heq
  · exact Bool.noConfusion (congrArg Pin.away heq)
  · exact Bool.noConfusion (congrArg Pin.away heq)

end Sys2Proof.Machine
end


section
/-! No step loses the canonical form of memory (log 2).

Memory changes by two writes alone, `State.setMem` and `State.applyRaw`, and both keep the form. Each operation that may reach one of them keeps it
by a lemma here, in the order in which they call each other; the operations that write no byte have their lemmas `…_mem` above. -/

namespace Sys2Proof.Machine
open Sys2Proof

/-- The bytes of memory are listed in the canonical form. The form is a property of a list of its own here, so that rewriting with what an operation
leaves of memory does not take it apart. -/
def CanonMem (m : List Host.Cell) : Prop := Memory.wf m

/-- Every state that an outcome holds lists memory in the canonical form. -/
def Out.MemWf : Out → Prop
  | .done s | .hold s | .wait s _ | .raise s _ _ | .soft s _ _ | .jump s _ | .back s _ => CanonMem s.mem
  | .stall => True

@[simp] theorem Out.memWf_done (s : State) : (Out.done s).MemWf ↔ CanonMem s.mem := Iff.rfl
@[simp] theorem Out.memWf_stall : Out.stall.MemWf := trivial
@[simp] theorem Out.memWf_hold (s : State) : (Out.hold s).MemWf ↔ CanonMem s.mem := Iff.rfl
@[simp] theorem Out.memWf_wait (s : State) (w : Wait) : (Out.wait s w).MemWf ↔ CanonMem s.mem := Iff.rfl
@[simp] theorem Out.memWf_raise (s : State) (k : Nat) (fs : List LaneFault) : (Out.raise s k fs).MemWf ↔ CanonMem s.mem := Iff.rfl
@[simp] theorem Out.memWf_soft (s : State) (k : Nat) (w : Word) : (Out.soft s k w).MemWf ↔ CanonMem s.mem := Iff.rfl
@[simp] theorem Out.memWf_jump (s : State) (n : List (Nat × Word)) : (Out.jump s n).MemWf ↔ CanonMem s.mem := Iff.rfl
@[simp] theorem Out.memWf_back (s : State) (n : List (Nat × Word × Option Nat)) : (Out.back s n).MemWf ↔ CanonMem s.mem := Iff.rfl

@[simp] theorem State.setMem_memWf (s : State) (k : Nat) (l : List Byte) (h : CanonMem s.mem) : CanonMem (s.setMem k l).mem := s.setMem_wf k l h

/-- A sequence of updates that each keep the form keeps it. -/
theorem foldl_memWf {α : Type} (f : State → α → State) (l : List α) (s : State) (h : CanonMem s.mem) (hf : ∀ s x, CanonMem s.mem → CanonMem (f s x).mem) :
    CanonMem (l.foldl f s).mem := by
  induction l generalizing s with
  | nil => exact h
  | cons x l ih => exact ih _ (hf s x h)

/-- The state that a result is taken apart into is the state of that result. -/
theorem CanonMem.snd_of_eq {α : Type} {p : α × State} {a : α} {u : State} (h : CanonMem p.2.mem) (e : p = (a, u)) : CanonMem u.mem := by
  rw [e] at h; exact h

theorem CanonMem.fst_of_eq {α : Type} {p : State × α} {a : α} {u : State} (h : CanonMem p.1.mem) (e : p = (u, a)) : CanonMem u.mem := by
  rw [e] at h; exact h

/-- A walk that carries a state and something beside it. -/
theorem foldl_fst_memWf {α β : Type} (f : State × β → α → State × β) (l : List α) (q : State × β) (h : CanonMem q.1.mem) (hf : ∀ q x, CanonMem q.1.mem → CanonMem (f q x).1.mem) :
    CanonMem (l.foldl f q).1.mem := by
  induction l generalizing q with
  | nil => exact h
  | cons x l ih => exact ih _ (hf q x h)

theorem State.atFarSide_memWf (s : State) (k : Cmd) (p : Point) (f : State → State) (h : CanonMem s.mem) (hf : ∀ s, CanonMem s.mem → CanonMem (f s).mem) :
    CanonMem (s.atFarSide k p f).mem := by
  unfold State.atFarSide
  split
  · exact hf s h
  · split
    · exact h
    · exact h

theorem State.onQueue_memWf (s : State) (who : HostFn) (n : Nat) (f : Nat → State) (h : CanonMem s.mem) (hf : ∀ q, CanonMem (f q).mem) : CanonMem (s.onQueue who n f).mem := by
  unfold State.onQueue
  split
  · exact h
  · split
    · exact hf _
    · exact h

theorem Out.memWf_ite {p : Prop} [Decidable p] {a b : Out} (ha : a.MemWf) (hb : b.MemWf) : (if p then a else b).MemWf := by
  split
  · exact ha
  · exact hb

theorem CanonMem.ite {p : Prop} [Decidable p] {a b : State} (ha : CanonMem a.mem) (hb : CanonMem b.mem) : CanonMem (if p then a else b).mem := by
  split
  · exact ha
  · exact hb

/-- The surroundings of a word are those of the state that they are read from. -/
theorem State.s0_of_ctx? {s : State} {p : Pre} {c : Ctx} (h : s.ctx? p = some c) : c.s0 = s := by
  unfold State.ctx? at h
  split at h
  · cases h
  · split at h
    · split at h
      · cases h
      · split at h
        · cases h
        · split at h
          · cases h
          · obtain rfl := Option.some.inj h
            rfl
    · cases h

theorem CanonMem.of_ctx? {s : State} {p : Pre} {c : Ctx} (e : s.ctx? p = some c) (h : CanonMem s.mem) : CanonMem c.s0.mem :=
  State.s0_of_ctx? e ▸ h

@[simp] theorem Ctx.aliasGate_memWf (c : Ctx) (i : Instr) (h : CanonMem c.s0.mem) : ∀ o, (Ctx.aliasGate c i) = some o → o.MemWf := by
  unfold Ctx.aliasGate
  dsimp only
  repeat' split
  all_goals simp [h]

@[simp] theorem Ctx.apertureStore_memWf (c : Ctx) (ap : List ℕ) (chan : ℕ → ℕ) (data : ℕ → Word) (k : State → List LaneFault → Out) (hk : ∀ s fs, CanonMem s.mem → (k s fs).MemWf) (h : CanonMem c.s0.mem) :
    (c.apertureStore ap chan data k).MemWf := by
  unfold Ctx.apertureStore
  dsimp only
  repeat' split
  all_goals simp [h, hk]

@[simp] theorem raiseAll_memWf (c : Ctx) (kind : ℕ) (cause : ℕ) (h : CanonMem c.s0.mem) : (raiseAll c kind cause).MemWf := by simp [raiseAll, h]

@[simp] theorem Ctx.barWordOut_memWf (c : Ctx) (crewWide : Bool) (sync : Bool) (b : Opd) (nf : BitVec 4) (h : CanonMem c.s0.mem) :
    (Ctx.barWordOut c crewWide sync b nf).MemWf := by
  unfold Ctx.barWordOut
  refine Out.memWf_ite h ((fun ha => Out.memWf_ite ha (Out.memWf_ite ?_ ?_)) ?_)
  · split <;> exact h
  · split
    · simp [h]
    · exact h
    · exact h
    · exact ha
  · refine Out.memWf_ite (by simp [h]) (Out.memWf_ite (Out.memWf_ite Out.memWf_stall h) ?_)
    dsimp only
    repeat' split
    all_goals simp [h]

@[simp] theorem Ctx.tileAccept_memWf (c : Ctx) (k : Counts) (f : ℕ → State → State) (hf : ∀ n s, CanonMem s.mem → CanonMem (f n s).mem) (h : CanonMem c.s0.mem) :
    (c.tileAccept k f).MemWf := by
  unfold Ctx.tileAccept
  dsimp only
  split
  · trivial
  · exact hf _ _ (by simp [h])

@[simp] theorem State.applyRaw_memWf (s : State) (p : Point) (hold : Option Bool) (line : ℕ) (ws : List Host.Cell) (team : Option (ℕ × ℕ)) (h : CanonMem s.mem) :
    CanonMem (State.applyRaw s p hold line ws team).2.mem := by
  have hw : CanonMem (memPutCells s.mem ws) := memPutCells_wf ws h
  unfold State.applyRaw
  dsimp only
  split <;> simp [hw]

@[simp] theorem State.freeSlots_memWf (s : State) (ws : List ℕ) (h : CanonMem s.mem) : CanonMem (State.freeSlots s ws).mem := by
  refine foldl_memWf _ _ _ h fun s w hs => foldl_memWf _ _ _ hs fun s i hs => ?_
  exact State.setMem_memWf _ _ _ hs

@[simp] theorem State.flushWord_memWf (s : State) (p : Point) (hold : Option Bool) (w : ℕ) (team : Option (ℕ × ℕ)) (h : CanonMem s.mem) :
    CanonMem (State.flushWord s p hold w team).2.mem := by
  unfold State.flushWord
  split <;> simp [h]

@[simp] theorem State.flushWords_memWf (s : State) (p : Point) (hold : Option Bool) (ws : List ℕ) (team : Option (ℕ × ℕ)) (h : CanonMem s.mem) :
    CanonMem (State.flushWords s p hold ws team).2.mem := by
  suffices H : ∀ r : List (ℕ × BitVec 32) × State, CanonMem r.2.mem →
      CanonMem (ws.foldl (fun r w => let f := r.2.flushWord p hold w team; (r.1 ++ (f.1.map fun tag => (w, tag)).toList, f.2)) r).2.mem from H ([], s) h
  induction ws with
  | nil => exact fun _ hr => hr
  | cons w ws ih => exact fun r hr => ih _ (State.flushWord_memWf _ _ _ _ _ hr)

@[simp] theorem State.apply_memWf (s : State) (p : Point) (hold : Option Bool) (line : ℕ) (ws : List Host.Cell) (team : Option (ℕ × ℕ)) (h : CanonMem s.mem) :
    CanonMem (State.apply s p hold line ws team).2.2.mem := State.applyRaw_memWf _ _ _ _ _ _ (State.flushWords_memWf _ _ _ _ _ h)

@[simp] theorem State.putRecordAt_memWf (s : State) (p : Point) (k : ℕ) (ws : List Word) (h : CanonMem s.mem) :
    CanonMem (State.putRecordAt s p k ws).mem := State.apply_memWf _ _ _ _ _ _ h

@[simp] theorem State.writeRecord_memWf (s : State) (i : ℕ) (ws : List Word) (h : CanonMem s.mem) :
    CanonMem (State.writeRecord s i ws).mem := by simp [State.writeRecord, h]

@[simp] theorem State.postEvent_memWf (s : State) (secure : Bool) (ws : List Word) (h : CanonMem s.mem) : CanonMem (State.postEvent s secure ws).mem := by
  unfold State.postEvent
  dsimp only
  repeat' split
  all_goals simp [h]

@[simp] theorem State.event_memWf (s : State) (kind : ℕ) (die : ℕ) (w : Who) (r : RecInfo) (h : CanonMem s.mem) :
    CanonMem (State.event s kind die w r).mem := by simp [State.event, h]

@[simp] theorem State.engineError_memWf (s : State) (die : ℕ) (ecode : ℕ) (w : Who) (h : CanonMem s.mem) :
    CanonMem (State.engineError s die ecode w).mem := by simp [State.engineError, h]

@[simp] theorem State.apertureNamed_memWf (s : State) (b : By) (h : CanonMem s.mem) : CanonMem (State.apertureNamed s b).mem := by
  unfold State.apertureNamed
  split <;> simp [h]

@[simp] theorem State.leafFor_memWf (s : State) (b : By) (k : Access) (va : ℕ) (h : CanonMem s.mem) : CanonMem (State.leafFor s b k va).2.mem := by
  have ht : CanonMem (s.translate b.asid b.secure k (BitVec.ofNat 64 va)).2.mem := by simp [h]
  unfold State.leafFor
  split
  · exact h
  · split
    · next e =>
      have hu := ht.snd_of_eq e
      split <;> simp [hu]
    · exact ht

@[simp] theorem State.putRecord_memWf (s : State) (k : ℕ) (ws : List Word) (h : CanonMem s.mem) :
    CanonMem (State.putRecord s k ws).mem := by simp [State.putRecord, h]

@[simp] theorem State.ringPut_memWf (s : State) (die : ℕ) (sec : Bool) (ws : List Word) (h : CanonMem s.mem) :
    CanonMem (State.ringPut s die sec ws).mem := by simp [State.ringPut, h]

@[simp] theorem State.emitOne_memWf (s : State) (die : ℕ) (kind : ℕ) (w : Who) (payload : List Word) (h : CanonMem s.mem) :
    CanonMem (State.emitOne s die kind w payload).mem := by
  unfold State.emitOne
  dsimp only
  repeat' split
  all_goals simp [h]

@[simp] theorem State.emitSyncTo_memWf (s : State) (die : ℕ) (secure : Bool) (rs : List (Who × Word)) (h : CanonMem s.mem) :
    CanonMem (State.emitSyncTo s die secure rs).mem := foldl_memWf _ _ _ (State.emitOne_memWf _ _ _ _ _ h) fun _ _ => State.emitOne_memWf _ _ _ _ _

@[simp] theorem State.emitSync_memWf (s : State) (die : ℕ) (p : Crew → Sid → Bool) (h : CanonMem s.mem) : CanonMem (State.emitSync s die p).mem := by
  unfold State.emitSync
  dsimp only
  repeat' split
  all_goals simp -implicitDefEqProofs [h]

@[simp] theorem State.emit_memWf (s : State) (die : ℕ) (kind : ℕ) (w : Who) (payload : List Word) (h : CanonMem s.mem) :
    CanonMem (State.emit s die kind w payload).mem := by
  unfold State.emit
  dsimp only
  repeat' split
  all_goals simp [h]

@[simp] theorem State.snapshotAt_memWf (s : State) (die : ℕ) (seq : ℕ) (tag : BitVec 32) (w : Who) (h : CanonMem s.mem) :
    CanonMem (State.snapshotAt s die seq tag w).mem := by simp [State.snapshotAt, h]

@[simp] theorem State.trigger_memWf (s : State) (die : ℕ) (tag : BitVec 32) (w : Who) (h : CanonMem s.mem) : CanonMem (State.trigger s die tag w).mem := by
  unfold State.trigger
  dsimp only
  repeat' split
  all_goals simp [h]

@[simp] theorem State.watch_memWf (s : State) (p : Point) (parts : List (ℕ × ℕ)) (wr : Bool) (w : Who) (src : WatchSrc) (tag : BitVec 32) (h : CanonMem s.mem) :
    CanonMem (State.watch s p parts wr w src tag).2.mem := by
  unfold State.watch
  split
  · exact h
  · refine foldl_memWf _ _ _ h fun s x hs => ?_
    dsimp only
    split <;> simp [hs]

@[simp] theorem State.watchParts_memWf (s : State) (b : By) (p : Point) (parts : List (ℕ × ℕ)) (wr : Bool) (tag : BitVec 32) (h : CanonMem s.mem) :
    CanonMem (State.watchParts s b p parts wr tag).mem := by
  have hw := s.watch_memWf p parts wr b.who b.src tag h
  unfold State.watchParts
  generalize s.watch p parts wr b.who b.src tag = r at hw ⊢
  obtain ⟨_ | a, u⟩ := r
  · exact hw
  · cases b.lane with
    | none => exact hw
    | some x => exact hw

@[simp] theorem State.watchBy_memWf (s : State) (b : By) (p : Point) (k : ℕ) (n : ℕ) (wr : Bool) (tag : BitVec 32) (h : CanonMem s.mem) :
    CanonMem (State.watchBy s b p k n wr tag).mem := by simp [State.watchBy, h]

@[simp] theorem State.readPiece_memWf (s : State) (b : By) (l : Leaf) (n : ℕ) (h : CanonMem s.mem) : CanonMem (State.readPiece s b l n).2.mem := by
  unfold State.readPiece
  split <;> simp [h]

@[simp] theorem State.loadSpans_memWf (s : State) (b : By) (l : List (ℕ × ℕ)) (h : CanonMem s.mem) : CanonMem (State.loadSpans s b l).2.mem := by
  induction l generalizing s with
  | nil => exact h
  | cons x l ih =>
    obtain ⟨va, n⟩ := x
    have hf := s.leafFor_memWf b .load va h
    unfold State.loadSpans
    split
    · next e => exact hf.snd_of_eq e
    · next f u e =>
      have ha : CanonMem (u.answered f).2.mem := by simp [hf.snd_of_eq e]
      split
      · next e => exact ha.snd_of_eq e
      · next u e =>
        have hr := u.readPiece_memWf b f n (ha.snd_of_eq e)
        split
        · next e => exact hr.snd_of_eq e
        · next u e =>
          have hl := ih u (hr.snd_of_eq e)
          split
          · next e => exact hl.snd_of_eq e
          · exact hl

@[simp] theorem State.loadVa_memWf (s : State) (b : By) (va : ℕ) (n : ℕ) (h : CanonMem s.mem) :
    CanonMem (State.loadVa s b va n).2.mem := by simp [State.loadVa, h]

@[simp] theorem State.applyTldb_memWf (s : State) (c : Crew) (t : Team) (o : TileOp) (full : Bool) (h : CanonMem s.mem) :
    CanonMem (State.applyTldb s c t o full).mem := by
  unfold State.applyTldb
  have hl : CanonMem (if inBlockAperture o.ga then (VaRes.fail 6 o.ga.toNat false, s)
      else s.loadVa (c.byTile t.rank 0) o.ga.toNat (if full then 16 else 8)).2.mem := by
    split <;> simp [h]
  split
  · next e => simp [hl.snd_of_eq e]
  · next e => simp [hl.snd_of_eq e]

@[simp] theorem State.leavesFor_memWf (s : State) (b : By) (k : Access) (l : List (ℕ × ℕ)) (h : CanonMem s.mem) : CanonMem (State.leavesFor s b k l).2.mem := by
  induction l generalizing s with
  | nil => exact h
  | cons x l ih =>
    obtain ⟨va, n⟩ := x
    have hf := s.leafFor_memWf b k va h
    unfold State.leavesFor
    split
    · next e => exact hf.snd_of_eq e
    · next u e =>
      have hl := ih u (hf.snd_of_eq e)
      split
      · next e => exact hl.snd_of_eq e
      · exact hl

@[simp] theorem State.watchFlushes_memWf (s : State) (b : By) (p : Point) (ws : List (ℕ × BitVec 32)) (h : CanonMem s.mem) :
    CanonMem (State.watchFlushes s b p ws).mem := foldl_memWf _ _ _ h fun _ _ => State.watchBy_memWf _ _ _ _ _ _ _

@[simp] theorem State.writePiece_memWf (s : State) (b : By) (l : Leaf) (bytes : List Byte) (h : CanonMem s.mem) :
    CanonMem (State.writePiece s b l bytes).mem := State.watchBy_memWf _ _ _ _ _ _ _ (State.watchFlushes_memWf _ _ _ _ (State.apply_memWf _ _ _ _ _ _ h))

@[simp] theorem State.writePieces_memWf (s : State) (b : By) (l : List (Leaf × ℕ)) (bytes : List Byte) (h : CanonMem s.mem) :
    CanonMem (State.writePieces s b l bytes).mem := by
  induction l generalizing s bytes with
  | nil => exact h
  | cons x l ih => exact ih _ _ (State.writePiece_memWf _ _ _ _ h)

@[simp] theorem State.storeVa_memWf (s : State) (b : By) (va : ℕ) (bytes : List Byte) (h : CanonMem s.mem) : CanonMem (State.storeVa s b va bytes).2.mem := by
  have hl := s.leavesFor_memWf b .store (spans va bytes.length) h
  unfold State.storeVa
  split
  · next e => exact hl.snd_of_eq e
  · next e => exact State.writePieces_memWf _ _ _ _ (hl.snd_of_eq e)

@[simp] theorem State.applyTsave_memWf (s : State) (c : Crew) (t : Team) (o : TileOp) (v : Option (TileOp × Mma)) (h : CanonMem s.mem) :
    CanonMem (State.applyTsave s c t o v).mem := by
  unfold State.applyTsave
  cases v with
  | none =>
    have hv := State.storeVa_memWf s (c.byTile t.rank 0) o.ga.toNat idleRecord h
    dsimp only
    split
    · next e => simp [hv.snd_of_eq e]
    · next e => simp [hv.snd_of_eq e]
  | some x =>
    obtain ⟨y, m⟩ := x
    have hm : CanonMem (if m.started then (some (y, m), s) else (some (y, (s.startMma (c.teamCore t.rank) c.id t y m).1), (s.startMma (c.teamCore t.rank) c.id t y m).2) :
        Option (TileOp × Mma) × State).2.mem := by
      split <;> simp [h]
    dsimp only
    generalize (if m.started then (some (y, m), s) else (some (y, (s.startMma (c.teamCore t.rank) c.id t y m).1), (s.startMma (c.teamCore t.rank) c.id t y m).2) :
        Option (TileOp × Mma) × State) = q at hm ⊢
    split
    · next e => simp [(State.storeVa_memWf _ _ _ _ hm).snd_of_eq e]
    · next e =>
      have hv := (State.storeVa_memWf _ _ _ _ hm).snd_of_eq e
      split <;> simp [hv]

@[simp] theorem State.applyOp_memWf (s : State) (c : Crew) (t : Team) (o : TileOp) (v : Option (TileOp × Mma)) (h : CanonMem s.mem) :
    CanonMem (State.applyOp s c t o v).mem := by
  have hv := s.loadVa_memWf (c.byTile t.rank 0) (o.ga.toNat + 8) 8 h
  unfold State.applyOp
  split
  case h_9 =>
    split
    · next e => simp [hv.snd_of_eq e]
    · next e => simp [hv.snd_of_eq e]
  all_goals simp [h]

@[simp] theorem Ctx.tileFault_memWf (c : Ctx) (fs : List (ℕ × ℕ)) (h : CanonMem c.s0.mem) : (Ctx.tileFault c fs).MemWf := by simp [Ctx.tileFault, h]

@[simp] theorem Ctx.boundWord_memWf (c : Ctx) (core : BitVec 2) (tile : BitVec 4) (x : BitVec 6) (k : Counts) (bad : Word → List (ℕ × ℕ)) (h : CanonMem c.s0.mem) :
    (Ctx.boundWord c core tile x k bad).MemWf := by
  unfold Ctx.boundWord
  split
  · exact h
  refine Out.memWf_ite h ?_
  split
  · split
    · refine Out.memWf_ite trivial (Ctx.tileAccept_memWf _ _ _ (fun _ s hs => ?_) h)
      simp [hs]
    · refine Out.memWf_ite trivial (Ctx.tileAccept_memWf _ _ _ (fun _ s hs => ?_) h)
      dsimp only
      split
      · exact State.applyOp_memWf _ _ _ _ _ (by simp [hs])
      · simp [hs]
  · exact Ctx.tileFault_memWf _ _ h

@[simp] theorem State.putSample_memWf (s : State) (c : Crew) (x : Sample) (h : CanonMem s.mem) :
    CanonMem (State.putSample s c x).mem := by simp [State.putSample, h]

@[simp] theorem State.emitSample_memWf (s : State) (crew : ℕ) (sid : Sid) (id : ℕ) (h : CanonMem s.mem) : CanonMem (State.emitSample s crew sid id).mem := by
  unfold State.emitSample
  split <;> simp [h]

@[simp] theorem State.retire_memWf (s : State) (crew : ℕ) (sid : Sid) (id : ℕ) (h : CanonMem s.mem) : CanonMem (State.retire s crew sid id).mem := by
  unfold State.retire
  repeat' split
  all_goals simp [h]

@[simp] theorem State.relog_memWf (s : State) (crew : ℕ) (sid : Sid) (mask : Lanes) (h : CanonMem s.mem) : CanonMem (State.relog s crew sid mask).mem := by
  unfold State.relog
  split
  · exact h
  · refine foldl_memWf _ _ _ ?_ fun _ _ => State.retire_memWf _ _ _ _
    split <;> simp [h]

@[simp] theorem State.leaveHandler_memWf (s : State) (crew : ℕ) (sid : Sid) (hret : Word) (h : CanonMem s.mem) :
    CanonMem (State.leaveHandler s crew sid hret).mem := by
  unfold State.leaveHandler
  repeat' split
  all_goals simp [h]

@[simp] theorem Ctx.checkReturn_memWf (c : Ctx) (s : State) (h : CanonMem s.mem) : CanonMem (Ctx.checkReturn c s).mem := by
  unfold Ctx.checkReturn
  dsimp only
  repeat' split
  all_goals simp [h]

@[simp] theorem Ctx.commitAll_memWf (b : By) (l : List ℕ) (s : State) (h : CanonMem s.mem) : CanonMem (Ctx.commitAll b l s).2.mem := by
  induction l generalizing s with
  | nil => exact h
  | cons va l ih =>
    have hl := s.loadVa_memWf b (va + 24) 8 h
    unfold Ctx.commitAll
    split
    · next r u e =>
      have hu := hl.snd_of_eq e
      dsimp only
      split
      · exact ih u hu
      · have hs := u.storeVa_memWf b (va + 24) (leBytes 8 (leNat r + 2 ^ 63)) hu
        split
        · next e => exact ih _ (hs.snd_of_eq e)
        · exact hs
    · exact hl

@[simp] theorem Ctx.convertLanes_memWf (c : Ctx) (f : ℕ → Conv) (put : ℕ → ℕ → State → State) (hp : ∀ l n s, (put l n s).mem = s.mem) (h : CanonMem c.s0.mem) :
    (c.convertLanes f put).MemWf := by
  have hs : CanonMem (c.forLanes (fun l s =>
      let r := f l
      let s := c.addCvt l r.flags s
      if r.fault then s else put l r.code s) c.s0).mem := by
    rw [Ctx.forLanes_mem]
    · exact h
    · intro l s
      dsimp only
      split <;> simp [hp]
  unfold Ctx.convertLanes
  dsimp only
  split <;> exact hs

@[simp] theorem Ctx.doneOr_memWf (fs : List LaneFault) (s : State) (h : CanonMem s.mem) : (Ctx.doneOr fs s).MemWf := by
  unfold Ctx.doneOr
  split <;> simp [h]

@[simp] theorem Ctx.map_memWf (c : Ctx) (t : Ty) (d : Opd) (f : ℕ → ℕ) (h : CanonMem c.s0.mem) : (Ctx.map c t d f).MemWf := by simp [Ctx.map, h]

@[simp] theorem Ctx.elemwise_memWf (c : Ctx) (t : Ty) (sat : Bool) (d : Opd) (f : ℕ → ℕ → ℤ) (h : CanonMem c.s0.mem) :
    (Ctx.elemwise c t sat d f).MemWf := by simp [Ctx.elemwise, h]

@[simp] theorem Ctx.feach_memWf (c : Ctx) (t : Ty) (d : Opd) (f : ℕ → ℕ → ℕ) (h : CanonMem c.s0.mem) : (Ctx.feach c t d f).MemWf := by simp [Ctx.feach, h]

@[simp] theorem State.traceTrap_memWf (s : State) (c : Crew) (sid : Sid) (w : Who) (h : CanonMem s.mem) : CanonMem (State.traceTrap s c sid w).mem := by
  unfold State.traceTrap
  split <;> simp [h]

@[simp] theorem State.endCrew_memWf (s : State) (crew : ℕ) (kind : ℕ) (w : Who) (r : RecInfo) (h : CanonMem s.mem) :
    CanonMem (State.endCrew s crew kind w r).mem := by
  unfold State.endCrew
  split <;> simp [h]

@[simp] theorem State.takeTrap_memWf (s : State) (crew : ℕ) (sid : Sid) (pid : ℕ) (r : Raise) (h : CanonMem s.mem) :
    CanonMem (State.takeTrap s crew sid pid r).mem := by
  unfold State.takeTrap
  split
  · split
    · exact h
    · dsimp only
      have ht := s.traceTrap_memWf
      repeat' split
      all_goals simp -implicitDefEqProofs [h]
  · exact h

@[simp] theorem Ctx.trapWord_memWf (c : Ctx) (s : State) (kind : ℕ) (fs : List LaneFault) (h0 : CanonMem c.s0.mem) (h : CanonMem s.mem) :
    CanonMem (Ctx.trapWord c s kind fs).mem := by
  unfold Ctx.trapWord
  dsimp only
  split
  · simp [h0]
  · simp [h]

@[simp] theorem Ctx.finish_memWf (c : Ctx) (hold : Option (ℕ → Word)) (o : Out) (ho : o.MemWf) (h : CanonMem c.s0.mem) :
    CanonMem (Ctx.finish c hold o).mem := by
  cases o with
  | done s => simpa [Ctx.finish] using ho
  | stall => exact h
  | hold s => simpa [Ctx.finish] using ho
  | wait s w => simpa [Ctx.finish] using ho
  | raise s k fs =>
    have hs : CanonMem s.mem := ho
    unfold Ctx.finish
    dsimp only
    repeat' split
    all_goals exact Ctx.trapWord_memWf _ _ _ _ h (by simpa using hs)
  | soft s k x =>
    have hs : CanonMem s.mem := ho
    unfold Ctx.finish
    dsimp only
    repeat' split
    all_goals simp [h, hs]
  | jump s n => simpa [Ctx.finish] using Ctx.checkReturn_memWf _ _ (by simpa using ho)
  | back s n => simpa [Ctx.finish] using Ctx.checkReturn_memWf _ _ (by simpa using ho)

@[simp] theorem State.queueFail_memWf (s : State) (q : ℕ) (die : ℕ) (w : Who) (h : CanonMem s.mem) : CanonMem (State.queueFail s q die w).mem := by
  unfold State.queueFail
  dsimp only
  repeat' split
  all_goals simp [h]

@[simp] theorem State.pushRecord_memWf (s : State) (b : By) (q : ℕ) (r : List Byte) (h : CanonMem s.mem) : CanonMem (State.pushRecord s b q r).2.mem := by
  have hv := s.storeVa_memWf b ((s.queue q).slotVa (s.queue q).tail.toNat) (committed r) h
  unfold State.pushRecord
  dsimp only
  split
  · next e => simp [hv.snd_of_eq e]
  · exact hv

/-- Every state that a join comes to lists memory in the canonical form. -/
def Joined.MemWf : Joined → Prop
  | .done s | .refused s | .fail _ _ _ s => CanonMem s.mem

theorem State.joinBlock_memWf (s : State) (b : By) (die va : ℕ) (h : CanonMem s.mem) : (s.joinBlock b die va).MemWf := by
  have h1 := s.leavesFor_memWf b .store (spans va 64) h
  unfold State.joinBlock
  split
  · next e => exact h1.snd_of_eq e
  next u e =>
  have h2 := h1.snd_of_eq e
  split
  · next e => exact (State.loadVa_memWf _ _ _ _ h2).snd_of_eq e
  next v e =>
  have h3 := (State.loadVa_memWf _ _ _ _ h2).snd_of_eq e
  dsimp only
  split
  · exact State.event_memWf _ _ _ _ _ h3
  split
  · split
    · exact State.event_memWf _ _ _ _ _ (State.storeVa_memWf _ _ _ _ h3)
    split
    · unfold Joined.MemWf
      dsimp only
      cases (List.head? _).map _ with
      | none => exact State.queueFail_memWf _ _ _ _ h3
      | some p => simpa using State.queueFail_memWf _ _ _ _ h3
    split
    · next e => exact (State.pushRecord_memWf _ _ _ _ h3).snd_of_eq e
    · next e => exact State.storeVa_memWf _ _ _ _ ((State.pushRecord_memWf _ _ _ _ h3).snd_of_eq e)
  · exact State.storeVa_memWf _ _ _ _ h3

@[simp] theorem Ctx.joinLanes_memWf (c : Ctx) (a : Opd) (l : List ℕ) (s : State) (fs : List LaneFault) (h : CanonMem s.mem) :
    (Ctx.joinLanes c a l s fs).MemWf := by
  induction l generalizing s fs with
  | nil => 
    unfold Ctx.joinLanes
    split <;> exact h
  | cons l ls ih =>
    unfold Ctx.joinLanes
    refine Out.memWf_ite (ih _ _ h) ?_
    have hm : CanonMem (s.joinMay (corePort c.core) c.die c.id (some c.sid) l).2.mem := by simp [h]
    split
    · next e => simp [hm.snd_of_eq e]
    · next u e =>
      have hj := u.joinBlock_memWf (c.byLane l) c.die (c.rd .n64 a l) (hm.snd_of_eq e)
      split
      · next e => exact ih _ _ (by rw [e] at hj; simpa [Joined.MemWf] using hj)
      · next e => exact ih _ _ (by rw [e] at hj; simpa [Joined.MemWf] using hj)
      · next e =>
        rw [e] at hj
        simpa [Joined.MemWf] using hj

@[simp] theorem State.sampleNow_memWf (s : State) (c : Ctx) (ls : List ℕ) (ea : ℕ → Word) (h : CanonMem s.mem) : CanonMem (State.sampleNow s c ls ea).mem := by
  unfold State.sampleNow
  split <;> simp [h]

@[simp] theorem Ctx.logIssue_memWf (c : Ctx) (s : State) (k : Counts) (bad : List LaneFault) (ok : List ℕ) (src : ℕ → List Word) (h : CanonMem s.mem) :
    (Ctx.logIssue c s k bad ok src).MemWf := by
  unfold Ctx.logIssue
  dsimp only
  repeat' split
  all_goals simp [h]

@[simp] theorem Ctx.mapPred_memWf (c : Ctx) (d : PField) (f : ℕ → Bool) (h : CanonMem c.s0.mem) : (Ctx.mapPred c d f).MemWf := by simp [Ctx.mapPred, h]

@[simp] theorem State.tapeError_memWf (s : State) (c : Crew) (sid : Sid) (lane : ℕ) (h : CanonMem s.mem) :
    CanonMem (State.tapeError s c sid lane).mem := by simp [State.tapeError, h]

@[simp] theorem State.cullet_memWf (s : State) (c : Crew) (sid : Sid) (lane : ℕ) (sp : ℕ × ℕ) (h : CanonMem s.mem) :
    CanonMem (State.cullet s c sid lane sp).2.mem := by
  have hl := s.leavesFor_memWf (s.byTape c sid lane) .store (spans sp.1 sp.2) h
  unfold State.cullet
  split
  · next e => exact hl.snd_of_eq e
  · next e => exact hl.snd_of_eq e

@[simp] theorem State.complete_memWf (s : State) (crew : ℕ) (sid : Sid) (id : ℕ) (ls : Lanes) (h : CanonMem s.mem) :
    CanonMem (State.complete s crew sid id ls).mem := by simp [State.complete, h]

@[simp] theorem State.watchActs_memWf (s : State) (m : Msg) (acts : List Act) (wr : Bool) (tag : BitVec 32) (h : CanonMem s.mem) :
    CanonMem (State.watchActs s m acts wr tag).mem := by
  unfold State.watchActs
  dsimp only
  split
  · next e => exact (State.watch_memWf _ _ _ _ _ _ _ h).snd_of_eq e
  · next e => simp [(State.watch_memWf _ _ _ _ _ _ _ h).snd_of_eq e]

@[simp] theorem State.watchFlushed_memWf (s : State) (m : Msg) (acts : List Act) (ws : List (ℕ × BitVec 32)) (h : CanonMem s.mem) :
    CanonMem (State.watchFlushed s m acts ws).mem := foldl_memWf _ _ _ h fun _ _ => State.watchActs_memWf _ _ _ _ _

@[simp] theorem State.atomAct_memWf (s : State) (m : Msg) (i : Instr) (x : Act) (h : CanonMem s.mem) :
    CanonMem (State.atomAct s m i x).2.mem := State.watchActs_memWf _ _ _ _ _ (State.applyRaw_memWf _ _ _ _ _ _ (State.watchFlushed_memWf _ _ _ _ (State.flushWords_memWf _ _ _ _ _ h)))

@[simp] theorem State.atomActs_memWf (s : State) (m : Msg) (i : Instr) (l : List Act) (h : CanonMem s.mem) : CanonMem (State.atomActs s m i l).2.mem := by
  induction l generalizing s with
  | nil => exact h
  | cons x l ih => exact ih _ (State.atomAct_memWf _ _ _ _ h)

@[simp] theorem State.flushFor_memWf (s : State) (m : Msg) (hold : Option Bool) (lane : ℕ) (w : ℕ) (h : CanonMem s.mem) :
    CanonMem (State.flushFor s m hold lane w).mem := by
  have hf := s.flushWord_memWf (homeOf 0 w) hold w m.team h
  unfold State.flushFor
  split
  · next e => exact hf.snd_of_eq e
  · next e => exact State.watchActs_memWf _ _ _ _ _ (hf.snd_of_eq e)

@[simp] theorem State.changeFlush_memWf (s : State) (m : Msg) (h : CanonMem s.mem) : CanonMem (State.changeFlush s m).mem := by
  have he (x : Act) (w : Option ℕ) : CanonMem (w.elim (s.drawIndex m.acts.length).2 ((s.drawIndex m.acts.length).2.flushFor m m.leaf.hold x.lane)).mem := by
    cases w with
    | none => simpa using h
    | some w => exact State.flushFor_memWf _ _ _ _ _ (by simpa using h)
  unfold State.changeFlush
  dsimp only
  split
  · simp [h]
  · refine CanonMem.ite ?_ (he _ _)
    rw [State.answer_mem]
    exact he _ _

@[simp] theorem State.changeFlushAll_memWf (s : State) (m : Msg) (h : CanonMem s.mem) : CanonMem (State.changeFlushAll s m).mem := by
  unfold State.changeFlushAll
  dsimp only
  repeat' split
  all_goals simp [h]

@[simp] theorem State.changeSpill_memWf (s : State) (m : Msg) (h : CanonMem s.mem) : CanonMem (State.changeSpill s m).mem := by
  unfold State.changeSpill
  dsimp only
  split
  · rw [State.dropMsg_mem]
    exact State.watch_memWf _ _ _ _ _ _ _ (foldl_memWf _ _ _ (State.apply_memWf _ _ _ _ _ _ h) fun _ _ => State.watch_memWf _ _ _ _ _ _ _)
  · split <;> simp [h]

@[simp] theorem State.changeMsg_memWf (s : State) (id : ℕ) (h : CanonMem s.mem) : CanonMem (State.changeMsg s id).mem := by
  unfold State.changeMsg
  split
  · exact h
  next m _ =>
  refine CanonMem.ite h ?_
  split
  · split
    · refine CanonMem.ite h (State.complete_memWf _ _ _ _ _ ?_)
      rw [State.dropMsg_mem, State.sampleLast_mem]
      exact foldl_memWf _ _ _ h fun s x hs => by simp [hs]
    · dsimp only
      have hf : ∀ l : List Act, CanonMem (l.foldl (fun s x =>
          if x.key % 2 ^ 48 < 0x400000 then s.writeCounter m.secure (x.key % 2 ^ 48 / 0x100000) (x.key % 2 ^ 48 % 0x100000) x.b else s) s).mem :=
        fun l => foldl_memWf _ _ _ h fun s x hs => CanonMem.ite (by simp [hs]) hs
      simpa using hf m.acts
    · refine CanonMem.ite h ?_
      rw [State.answer_mem]
      refine State.watchActs_memWf _ _ _ _ _ ?_
      rw [State.sampleSectors_mem]
      exact State.watchFlushed_memWf _ _ _ _ (State.apply_memWf _ _ _ _ _ _ h)
  iterate 2
    · refine CanonMem.ite h (CanonMem.ite (by simp [h]) ?_)
      have ha : CanonMem ((s.sampleSectors m).atomActs m (wordOf m.word) m.acts).2.mem := State.atomActs_memWf _ _ _ _ (by simp [h])
      simpa using ha
  · exact State.changeFlush_memWf _ _ h
  · exact State.changeFlushAll_memWf _ _ h
  · exact State.changeSpill_memWf _ _ h
  · simp [h]
  · simp [h]
  · exact h

@[simp] theorem Ctx.popPlan_memWf (c : Ctx) (k : ℕ) (s : State) (l : ℕ) (h : CanonMem s.mem) : CanonMem (Ctx.popPlan c k s l).2.mem := by
  have hl (sp) := s.cullet_memWf c.crew c.sid l sp h
  unfold Ctx.popPlan
  split
  · simp [h]
  split
  · exact h
  · exact h
  · split
    · next e => exact (hl _).snd_of_eq e
    · next e => exact (hl _).snd_of_eq e
  · split
    · exact h
    · split
      · next e => exact (hl _).snd_of_eq e
      · next e => exact (hl _).snd_of_eq e

@[simp] theorem Ctx.qcommitLane_memWf (c : Ctx) (a : Opd) (b : Opd) (n : Opd) (s : State) (l : ℕ) (h : CanonMem s.mem) :
    CanonMem (Ctx.qcommitLane c a b n s l).1.mem := by
  have hv (vas) := Ctx.commitAll_memWf (c.byLane l) vas s h
  unfold Ctx.qcommitLane
  dsimp only
  split
  · exact h
  split
  · exact h
  split
  · exact h
  split
  · next e => exact (hv _).snd_of_eq e
  · next e => exact (hv _).snd_of_eq e

@[simp] theorem Ctx.qresLane_memWf (c : Ctx) (d : Opd) (a : Opd) (b : Opd) (s : State) (l : ℕ) (h : CanonMem s.mem) :
    CanonMem (Ctx.qresLane c d a b s l).1.mem := by
  unfold Ctx.qresLane
  dsimp only
  repeat' split
  all_goals simp [h]

@[simp] theorem Ctx.regSpace_memWf (c : Ctx) (ea : ℕ → Word) (size : ℕ) (src : ℕ → List Word) (eff : Team → ℕ → State → State) (heff : ∀ t l s, CanonMem s.mem → CanonMem (eff t l s).mem) (h : CanonMem c.s0.mem) :
    (Ctx.regSpace c ea size src eff).MemWf := by
  unfold Ctx.regSpace
  split
  · exact h
  next tm _ =>
    dsimp only
    split
    · trivial
    · have hs (l : List ℕ) : CanonMem (l.foldl (fun s l => eff tm l s) c.s0).mem := foldl_memWf _ _ _ h fun s l => heff tm l s
      repeat' split
      all_goals simp [hs]

@[simp] theorem Ctx.renderIssue_memWf (c : Ctx) (k : Counts) (addr : ℕ → Word) (align : ℕ) (src : ℕ → List ℕ) (h : CanonMem c.s0.mem) :
    (Ctx.renderIssue c k addr align src).MemWf := by simp [Ctx.renderIssue, h]

@[simp] theorem Ctx.resumeHeld_memWf (c : Ctx) (core : BitVec 2) (tile : BitVec 4) (mode : Resume) (h : CanonMem c.s0.mem) :
    (Ctx.resumeHeld c core tile mode).MemWf := by
  unfold Ctx.resumeHeld
  dsimp only
  repeat' split
  all_goals simp [h]

@[simp] theorem Ctx.resumeRec_memWf (c : Ctx) (core : BitVec 2) (tile : BitVec 4) (x : BitVec 6) (mode : Resume) (h : CanonMem c.s0.mem) :
    (Ctx.resumeRec c core tile x mode).MemWf := by
  unfold Ctx.resumeRec
  split
  · exact h
  refine Out.memWf_ite h (Out.memWf_ite (Ctx.tileFault_memWf _ _ h) (Out.memWf_ite trivial ?_))
  have hl := c.s0.loadVa_memWf (c.byLane 0) (c.gReg x.toNat).toNat 128 h
  split
  · exact h
  next l s e =>
  have hs := hl.snd_of_eq e
  split
  · exact Ctx.tileFault_memWf _ _ h
  · refine Out.memWf_ite (Ctx.tileFault_memWf _ _ h) (Out.memWf_ite trivial (Ctx.tileAccept_memWf _ _ _ (fun _ _ _ => ?_) h))
    simp [hs]

@[simp] theorem Ctx.run_memWf (c : Ctx) (i : Instr) (body : Ctx → Out) (hb : CanonMem c.s0.mem → (body c).MemWf) (h : CanonMem c.s0.mem) :
    CanonMem (c.run i body).mem := by
  unfold Ctx.run
  split
  · exact Ctx.trapWord_memWf _ _ _ _ h (by simp [h])
  · split
    · next o e => exact Ctx.finish_memWf _ _ _ (Ctx.aliasGate_memWf c i h o e) h
    · exact Ctx.finish_memWf _ _ _ (hb h) h

@[simp] theorem Ctx.sampled_memWf (c : Ctx) (ea : ℕ → Word) (s : State) (h : CanonMem s.mem) : CanonMem (Ctx.sampled c ea s).mem := by
  unfold Ctx.sampled
  split <;> simp [h]

@[simp] theorem Ctx.shiftEach_memWf (c : Ctx) (t : Ty) (d : Opd) (a : Opd) (b : Opd) (f : ℕ → ℕ → ℕ) (h : CanonMem c.s0.mem) :
    (Ctx.shiftEach c t d a b f).MemWf := by simp [Ctx.shiftEach, h]

@[simp] theorem Ctx.spawnLane_memWf (c : Ctx) (d : Opd) (a : Opd) (b : Opd) (s : State) (l : ℕ) (h : CanonMem s.mem) :
    CanonMem (Ctx.spawnLane c d a b s l).1.mem := by
  have hl := s.loadVa_memWf (c.byLane l) (c.rd .n64 a l) 32 h
  unfold Ctx.spawnLane
  dsimp only
  split
  · exact h
  split
  · exact h
  split
  · simp [h]
  split
  · next e => exact hl.snd_of_eq e
  · next e =>
    have hp (q r) := State.pushRecord_memWf _ (c.byLane l) q r (hl.snd_of_eq e)
    split
    · next e => exact (hp _ _).snd_of_eq e
    · next e => simp [(hp _ _).snd_of_eq e]

@[simp] theorem Ctx.stage_memWf (c : Ctx) (tlds : Bool) (sc : Scope) (core : BitVec 2) (grp : BitVec 4) (res : BitVec 5) (nf : BitVec 8) (h : CanonMem c.s0.mem) :
    (Ctx.stage c tlds sc core grp res nf).MemWf := by
  unfold Ctx.stage
  split
  · exact h
  exact Out.memWf_ite h (Out.memWf_ite (Ctx.tileFault_memWf _ _ h) (Out.memWf_ite trivial (Ctx.tileAccept_memWf _ _ _ (fun _ _ hs => hs) h)))

@[simp] theorem Ctx.tapeGate_memWf (c : Ctx) (h : CanonMem c.s0.mem) : ∀ o, (Ctx.tapeGate c) = some o → o.MemWf := by
  unfold Ctx.tapeGate
  repeat' split
  all_goals simp [h]

@[simp] theorem State.commitTape_memWf (s : State) (c : Crew) (sid : Sid) (lane : ℕ) (t : Tape) (h : CanonMem s.mem) :
    CanonMem (State.commitTape s c sid lane t).1.mem := by
  have hl := s.leavesFor_memWf (s.byTape c sid lane) .store (spans (t.cbase + t.at0) t.out.length) h
  unfold State.commitTape
  split
  · simp [h]
  split
  · exact h
  split
  · next e => exact hl.snd_of_eq e
  · next e => simp [hl.snd_of_eq e]

@[simp] theorem Ctx.tapeWord_memWf (c : Ctx) (f : ℕ → Tape → Tape.Res Tape) (h : CanonMem c.s0.mem) : (Ctx.tapeWord c f).MemWf := by
  unfold Ctx.tapeWord
  split
  · next e => exact Ctx.tapeGate_memWf c h _ e
  · dsimp only
    split
    all_goals
      refine foldl_fst_memWf _ _ (c.s0, ([] : List LaneFault)) h fun q l hq => ?_
      repeat' split
      · simp [hq]
      · exact hq
      · next e => exact (State.commitTape_memWf _ _ _ _ _ hq).fst_of_eq e
      · next e => exact (State.commitTape_memWf _ _ _ _ _ hq).fst_of_eq e

@[simp] theorem Ctx.tbOnce_memWf (c : Ctx) (a : Opd) (agree : List Opd) (reserved : Bool) (f : Tb → Option Tb) (h : CanonMem c.s0.mem) :
    (Ctx.tbOnce c a agree reserved f).MemWf := by
  unfold Ctx.tbOnce
  dsimp only
  repeat' split
  all_goals simp [h]

@[simp] theorem Ctx.tileWord_memWf (c : Ctx) (core : BitVec 2) (tile : BitVec 4) (bad : Team → List (ℕ × ℕ)) (h : CanonMem c.s0.mem) :
    (Ctx.tileWord c core tile bad).MemWf := by
  unfold Ctx.tileWord
  repeat' split
  all_goals simp [h]

@[simp] theorem Ctx.traceTransfer_memWf (c : Ctx) (tgt : ℕ → Word) (s : State) (h : CanonMem s.mem) : CanonMem (Ctx.traceTransfer c tgt s).mem := by
  unfold Ctx.traceTransfer
  split
  · exact foldl_memWf _ _ _ h fun _ _ hs => State.emit_memWf _ _ _ _ _ hs
  · exact h

@[simp] theorem Ctx.transfer_memWf (c : Ctx) (uni : Bool) (tgt : ℕ → Word) (eff : State → State) (heff : ∀ s, CanonMem s.mem → CanonMem (eff s).mem) (h : CanonMem c.s0.mem) :
    (Ctx.transfer c uni tgt eff).MemWf := by
  unfold Ctx.transfer
  split
  · exact Ctx.traceTransfer_memWf _ _ _ (heff _ h)
  · exact h

@[simp] theorem Ctx.turns_memWf (c : Ctx) (f : Ctx.Turn) (hf : ∀ s l, CanonMem s.mem → CanonMem (f s l).1.mem) (h : CanonMem c.s0.mem) :
    (Ctx.turns c f).MemWf := by
  unfold Ctx.turns
  dsimp only
  split
  all_goals
    refine foldl_fst_memWf _ _ (c.s0, ([] : List LaneFault)) h fun q l hq => ?_
    have hl := hf q.1 l hq
    split
    · next e => exact hl.fst_of_eq e
    · next e => exact hl.fst_of_eq e

@[simp] theorem Ctx.unlogged_memWf (c : Ctx) (bad : List LaneFault) (ok : List ℕ) (src : ℕ → List Word) (h : CanonMem c.s0.mem) :
    (Ctx.unlogged c bad ok src).MemWf := by
  unfold Ctx.unlogged
  dsimp only
  repeat' split
  all_goals simp [h]

@[simp] theorem State.settle_memWf (s : State) (o : Offer) (refused : Bool) (h : CanonMem s.mem) : CanonMem (State.settle s o refused).mem := by
  unfold State.settle
  split <;> simp [h]

@[simp] theorem State.refuseOffer_memWf (s : State) (c : Crew) (o : Offer) (h : CanonMem s.mem) :
    CanonMem (State.refuseOffer s c o).mem := by simp [State.refuseOffer, h]

@[simp] theorem State.acceptColl_memWf (s : State) (c : Crew) (t : Strand) (o : Offer) (l : List Byte) (h : CanonMem s.mem) :
    CanonMem (State.acceptColl s c t o l).mem := by
  unfold State.acceptColl
  dsimp only
  repeat' split
  all_goals simp [h]

@[simp] theorem State.refuseFar_memWf (s : State) (c : Crew) (o : Offer) (a : ℕ) (h : CanonMem s.mem) :
    CanonMem (State.refuseFar s c o a).mem := by simp [State.refuseFar, h]

@[simp] theorem State.readHdr_memWf (s : State) (b : By) (needed : Bool) (va : ℕ) (h : CanonMem s.mem) : CanonMem (State.readHdr s b needed va).2.mem := by
  have hl := s.loadVa_memWf b va 128 h
  unfold State.readHdr
  split
  · exact h
  split
  · exact h
  split
  · next e => exact hl.snd_of_eq e
  · next e => exact hl.snd_of_eq e

@[simp] theorem State.regionLeaves_memWf (s : State) (b : By) (a : List ℕ) (h : CanonMem s.mem) : CanonMem (State.regionLeaves s b a).2.mem := by
  induction a generalizing s with
  | nil => exact h
  | cons v l ih =>
    have hf := s.leafFor_memWf b .store (v * 128) h
    unfold State.regionLeaves
    split
    · next e => exact hf.snd_of_eq e
    · next u e =>
      have hl := ih u (hf.snd_of_eq e)
      split
      · next e => exact hl.snd_of_eq e
      · exact hl

@[simp] theorem State.pinRegion_memWf (s : State) (k : Cmd) (t : Tmpl) (h : CanonMem s.mem) : ∀ r, (State.pinRegion s k t) = some r → CanonMem r.2.mem := by
  intro r e
  have hl := State.regionLeaves_memWf s (s.byCmd k) ((List.range (t.l2size / 128)).map fun i => t.l2base / 128 + i) h
  unfold State.pinRegion at e
  split at e
  · obtain rfl := Option.some.inj e
    exact h
  · split at e
    · next e' =>
      obtain rfl := Option.some.inj e
      exact hl.snd_of_eq e'
    · next e' =>
      have hv := hl.snd_of_eq e'
      obtain ⟨u, hu, rfl⟩ := Option.map_eq_some_iff.1 e
      show CanonMem u.mem
      rw [State.pinLines_mem _ _ _ _ hu]
      exact hv

@[simp] theorem State.acceptCopy_memWf (s : State) (c : Crew) (t : Strand) (o : Offer) (l : List Byte) (h : CanonMem s.mem) :
    CanonMem (State.acceptCopy s c t o l).mem := by
  unfold State.acceptCopy
  dsimp only
  split
  · simp [h]
  refine CanonMem.ite (by simp [h]) (CanonMem.ite h ?_)
  split
  · simp [h]
  have hr {b₁ b₂ n₁ n₂ v₁ v₂} : CanonMem ((s.readHdr b₁ n₁ v₁).2.readHdr b₂ n₂ v₂).2.mem := State.readHdr_memWf _ _ _ _ (State.readHdr_memWf _ _ _ _ h)
  split
  · simp [hr]
  · simp [hr]
  split
  · simp [hr]
  split
  · exact State.refuseFar_memWf _ _ _ _ hr
  · exact hr
  next e =>
  have hs := State.pinRegion_memWf _ _ _ hr _ e
  split <;> simp [hs]

@[simp] theorem State.pop_memWf (s : State) (q : ℕ) (h : CanonMem s.mem) : CanonMem (State.pop s q).mem := by
  have hl := s.loadVa_memWf (s.byQueue q ((s.queue q).slotVa (s.queue q).head.toNat)) ((s.queue q).slotVa (s.queue q).head.toNat + 24) 8 h
  unfold State.pop
  dsimp only
  rw [State.modQueue_mem]
  split
  · exact h
  split
  · next e => exact hl.snd_of_eq e
  · next e => exact State.storeVa_memWf _ _ _ _ (hl.snd_of_eq e)

@[simp] theorem State.allocate_memWf (s : State) (w : Want) (r : List Byte) (d : List Byte) (die : ℕ) (cluster : ℕ) (p : Pick) (h : CanonMem s.mem) :
    CanonMem (State.allocate s w r d die cluster p).mem := by simp [State.allocate, foldl_mem, h]

@[simp] theorem State.stopAt_memWf (s : State) (crew : ℕ) (sid : Sid) (p : Path) (cause : ℕ) (pc : Word) (at_ : Option ℕ) (aux : Word) (absent : Bool) (h : CanonMem s.mem) :
    CanonMem (State.stopAt s crew sid p cause pc at_ aux absent).mem := by
  unfold State.stopAt
  split <;> simp [h]

@[simp] theorem State.startClause_memWf (s : State) (c : Crew) (sid : Sid) (t : Strand) (p : Path) (h : CanonMem s.mem) :
    CanonMem (State.startClause s c sid t p).1.mem := by
  unfold State.startClause
  extract_lets begin_ fresh elsewhere
  have hbegin (u hd w a n f) (hu : CanonMem u.mem) : CanonMem (begin_ u hd w a n f).1.mem := by
    dsimp only [begin_]
    simp [hu]
  have helse (u q) (hu : CanonMem u.mem) : CanonMem (elsewhere u q).1.mem := by
    dsimp only [elsewhere]
    split <;> simp [hu]
  have hword (a) : CanonMem (s.pathWord c sid t p a).2.mem := by simp [h]
  have hfresh : CanonMem (fresh s).1.mem := by
    dsimp only [fresh]
    split
    · next e => simp [(hword _).snd_of_eq e]
    · next u w e =>
      have hu := (hword _).snd_of_eq e
      split
      · split
        · exact hbegin _ _ _ _ _ _ (by simp [hu])
        · simp [hu]
      · simp [hu]
  split
  · exact hfresh
  · dsimp only
    split
    · next e => simp [(hword _).snd_of_eq e]
    · next u w e =>
      have hu := (hword _).snd_of_eq e
      split
      · split
        · exact hbegin _ _ _ _ _ _ (by simp [hu])
        · exact helse _ _ (by simp [hu])
      · exact helse _ _ (by simp [hu])

@[simp] theorem State.rejoin_memWf (s : State) (crew : ℕ) (sid : Sid) (h : CanonMem s.mem) : CanonMem (State.rejoin s crew sid).mem := by
  unfold State.rejoin
  split
  · dsimp only
    split
    · exact h
    · refine foldl_memWf _ _ _ h fun s p hs => ?_
      split
      · exact State.startClause_memWf _ _ _ _ _ hs
      · exact hs
  · exact h

@[simp] theorem State.takeBoundary_memWf (s : State) (crew : ℕ) (sid : Sid) (h : CanonMem s.mem) : CanonMem (State.takeBoundary s crew sid).mem := by
  unfold State.takeBoundary
  dsimp only
  repeat' split
  all_goals simp [h]

@[simp] theorem State.atBoundaries_memWf (s : State) (xs : List (Crew × Sid × Strand)) (h : CanonMem s.mem) :
    CanonMem (State.atBoundaries s xs).mem := foldl_memWf _ _ _ h fun _ _ hs => State.rejoin_memWf _ _ _ (State.takeBoundary_memWf _ _ _ hs)

@[simp] theorem State.reap_memWf (s : State) (id : ℕ) (h : CanonMem s.mem) : CanonMem (State.reap s id).mem := by
  unfold State.reap
  dsimp only
  repeat' split
  all_goals simp [h]

@[simp] theorem State.writeMem_memWf (s : State) (k : Cmd) (w : EngWrite) (h : CanonMem s.mem) : CanonMem (State.writeMem s k w).mem := by
  unfold State.writeMem
  dsimp only
  split
  · simp [h]
  next c _ _ =>
  have hf := s.leafFor_memWf (s.byCmd k) .store (c.1 / 32 * 32) h
  split
  · next e => simp [hf.snd_of_eq e]
  · next e =>
    refine State.atFarSide_memWf _ _ _ _ (hf.snd_of_eq e) fun s hs => ?_
    have hw (p hold line cells) : CanonMem (s.apply p hold line cells none).2.2.mem := State.apply_memWf _ _ _ _ _ _ hs
    split <;> simp [hw]

@[simp] theorem State.changeCmd_memWf (s : State) (id : ℕ) (h : CanonMem s.mem) : CanonMem (State.changeCmd s id).mem := by
  unfold State.changeCmd
  dsimp only
  repeat' split
  all_goals simp [h]

@[simp] theorem State.loseCrew_memWf (s : State) (c : Crew) (slot : ℕ) (h : CanonMem s.mem) :
    CanonMem (State.loseCrew s c slot).mem := by simp [State.loseCrew, h]

@[simp] theorem State.containCluster_memWf (s : State) (who : HostFn) (die : ℕ) (q : ℕ) (h : CanonMem s.mem) :
    CanonMem (State.containCluster s who die q).mem := by
  have hc (on : Crew → Bool) : CanonMem ((s.crews.filter on).foldl (fun s c => s.loseCrew c ((c.saving.map Saving.slot).getD 0)) s).mem :=
    foldl_memWf _ _ _ h fun _ _ => State.loseCrew_memWf _ _ _
  refine State.event_memWf _ _ _ _ _ (foldl_memWf _ _ _ ?_ fun _ _ hs => ?_)
  · exact hc _
  · simp [hs]

@[simp] theorem State.contain_memWf (s : State) (who : HostFn) (die : ℕ) (mask : Word) (h : CanonMem s.mem) :
    CanonMem (State.contain s who die mask).mem := foldl_memWf _ _ _ h fun _ _ => State.containCluster_memWf _ _ _ _

@[simp] theorem State.spillSlot_memWf (s : State) (d : ℕ) (k : ℕ) (i : ℕ) (x : Scatter) (h : CanonMem s.mem) : CanonMem (State.spillSlot s d k i x).mem := by
  unfold State.spillSlot
  dsimp only
  exact State.setMem_memWf _ _ _ (State.setMem_memWf _ _ _ h)

@[simp] theorem State.contribute_memWf (s : State) (w : ℕ) (b : ℕ) (spill : ℕ) (h : CanonMem s.mem) :
    ∀ u, (State.contribute s w b spill) = some u → CanonMem u.mem := by
  unfold State.contribute
  dsimp only
  repeat' split
  all_goals simp [h]

@[simp] theorem State.readPlain_memWf (s : State) (b : By) (entry : ℕ) (core : CoreId) (f : Leaf) (n : ℕ) (h : CanonMem s.mem) :
    CanonMem (State.readPlain s b entry core f n).2.mem := by
  unfold State.readPlain
  extract_lets need line home miss
  have hhome (u : State) (hu : CanonMem u.mem) : CanonMem (home u).2.mem := by
    have hr := State.readPiece_memWf (u.movedFor b entry f n) b f n (by simp [hu])
    dsimp only [home]
    split
    · next e => exact hr.snd_of_eq e
    · next e =>
      have hv := hr.snd_of_eq e
      repeat' split
      all_goals simp [hv]
  have hmiss (u : State) (hu : CanonMem u.mem) : CanonMem (miss u).2.mem := by
    have hp : CanonMem ((u.coreSignal core 7 1).probe core line b.secure need).2.mem := by simp [hu]
    dsimp only [miss]
    split
    · split
      · next e => simp [hp.snd_of_eq e]
      · next e => exact hhome _ (hp.snd_of_eq e)
    · exact hhome _ (by simp [hu])
  split
  · exact hmiss _ h
  split
  · exact hmiss _ h
  have hd : CanonMem s.drawBit.2.mem := by simp [h]
  split
  next e =>
  have hu := hd.snd_of_eq e
  split
  · split
    next e =>
    have hv : CanonMem _ := CanonMem.snd_of_eq (by simp [hu]) e
    split <;> simp [hv]
  · exact hmiss _ hu

@[simp] theorem State.drawRead_memWf (s : State) (b : By) (c : Crew) (t : Strand) (e : Entry) (l : ℕ) (p : ℕ × ℕ) (h : CanonMem s.mem) :
    CanonMem (State.drawRead s b c t e l p).mem := by
  have hl := s.leafFor_memWf b .load p.1 h
  unfold State.drawRead
  split
  · exact h
  split
  · next e => simp [hl.snd_of_eq e]
  next f u e =>
  have hu := hl.snd_of_eq e
  have ha : CanonMem (u.answered f).2.mem := by simp [hu]
  split
  · exact hu
  split
  · next e => simp [ha.snd_of_eq e]
  · next v e =>
    have hr (n) := v.readPlain_memWf b n (c.coreOf t.sid) f p.2 (ha.snd_of_eq e)
    split
    · next e => simp [(hr _).snd_of_eq e]
    · next e => simp [(hr _).snd_of_eq e]

@[simp] theorem State.dropSlot_memWf (s : State) (q : ℕ) (slot : ℕ) (h : CanonMem s.mem) : CanonMem (State.dropSlot s q slot).mem := by
  unfold State.dropSlot
  refine CanonMem.ite (by simp [h]) (foldl_memWf _ _ _ ?_ fun _ _ => State.loseCrew_memWf _ _ _)
  exact foldl_memWf _ _ _ h fun _ _ hs => by simp [hs]

@[simp] theorem State.errorOffer_memWf (s : State) (c : Crew) (o : Offer) (e : ℕ) (h : CanonMem s.mem) :
    CanonMem (State.errorOffer s c o e).mem := by simp [State.errorOffer, h]

@[simp] theorem State.finishExit_memWf (s : State) (c : Crew) (h : CanonMem s.mem) : CanonMem (State.finishExit s c).mem := by
  have hm : CanonMem (s.joinMay (corePort (c.coreOf .gaffer)) c.die c.id none 0).2.mem := by simp [h]
  unfold State.finishExit
  refine CanonMem.ite h (CanonMem.ite (by simp [h]) (CanonMem.ite (by simp [h]) ?_))
  split
  · next e => exact hm.snd_of_eq e
  · next u e =>
    have hj := u.joinBlock_memWf c.by c.die c.join.toNat (hm.snd_of_eq e)
    split
    all_goals
      next e =>
      rw [e] at hj
      have hj : CanonMem _ := hj
      simp [hj]

@[simp] theorem State.finishMsg_memWf (s : State) (m : Msg) (h : CanonMem s.mem) : CanonMem (State.finishMsg s m).mem := by
  unfold State.finishMsg
  split
  · dsimp only
    refine CanonMem.ite (by simp [h]) (State.complete_memWf _ _ _ _ _ ?_)
    have hf (cx : Ctx) (i : Instr) (t : Strand) (l : List Act) : CanonMem (l.foldl (fun s x => if (t.thread x.lane).exited then s else writeResult cx i m x s) s).mem :=
      foldl_memWf _ _ _ h fun s x hs => CanonMem.ite hs (by simp [hs])
    repeat' split
    all_goals simp [hf]
  · exact h

@[simp] theorem State.gradPlaces_memWf (s : State) (b : By) (a : List (ℕ × ℕ)) (h : CanonMem s.mem) : CanonMem (State.gradPlaces s b a).2.mem := by
  induction a generalizing s with
  | nil => exact h
  | cons x l ih =>
    have hf := s.leafFor_memWf b .store x.1 h
    unfold State.gradPlaces
    split
    · next e => exact hf.snd_of_eq e
    · next e =>
      split
      · exact hf.snd_of_eq e
      · exact ih _ (hf.snd_of_eq e)

@[simp] theorem State.haveWord_memWf (s : State) (c : Crew) (sid : Sid) (t : Strand) (p : Path) (cl : Clause) (h : CanonMem s.mem) :
    CanonMem (State.haveWord s c sid t p cl).1.mem := by
  have hw : CanonMem (s.pathWord c sid t p (p.pc + BitVec.ofNat 64 (8 * (cl.pos + 1)))).2.mem := by simp [h]
  unfold State.haveWord
  split
  · exact h
  dsimp only
  split
  · next e => simp [hw.snd_of_eq e]
  · next e => simp [hw.snd_of_eq e]

@[simp] theorem State.tileStop_memWf (s : State) (c : Crew) (sid : Sid) (p : Path) (h : CanonMem s.mem) :
    ∀ u, (State.tileStop s c sid p) = some u → CanonMem u.mem := by
  unfold State.tileStop
  split
  · repeat' split
    all_goals rintro u ⟨⟩
    simp -implicitDefEqProofs [h]
  · exact nofun

@[simp] theorem State.grantTo_memWf (s : State) (crew : ℕ) (sid : Sid) (pid : ℕ) (lone : Bool) (h : CanonMem s.mem) :
    CanonMem (State.grantTo s crew sid pid lone).mem := by
  unfold State.grantTo
  split
  · split
    · exact h
    next c t _ _ _ p _ =>
    have hs : CanonMem (s.startClause c sid t p).1.mem := State.startClause_memWf _ _ _ _ _ h
    have hr : CanonMem (match p.clause with | some _ => (s, true) | none => s.startClause c sid t p : State × Bool).1.mem := by
      split
      · exact h
      · exact hs
    split
    next e =>
    have hu := hr.fst_of_eq e
    refine CanonMem.ite hu ?_
    split
    · exact hu
    split
    · exact hu
    next q _ _ cl _ =>
    split
    next e =>
    have hv := (State.haveWord_memWf _ _ _ _ _ _ hu).fst_of_eq e
    refine CanonMem.ite hv ?_
    split
    · exact hv
    split
    · next e => exact State.tileStop_memWf _ _ _ _ hv _ e
    · exact hv
  · exact h

@[simp] theorem State.grantFirst_memWf (s : State) (a : List (Crew × Sid × Strand)) (h : CanonMem s.mem) : CanonMem (State.grantFirst s a).mem := by
  induction a generalizing s with
  | nil => exact h
  | cons x l ih =>
    obtain ⟨c, sid, t⟩ := x
    have hr : CanonMem (s.readyPath c sid).2.mem := by simp [h]
    unfold State.grantFirst
    split
    · next e => exact State.grantTo_memWf _ _ _ _ _ (hr.snd_of_eq e)
    · next e => exact ih _ (hr.snd_of_eq e)

@[simp] theorem State.writeQueue_memWf (s : State) (who : HostFn) (q : ℕ) (off : ℕ) (v : Word) (h : CanonMem s.mem) :
    CanonMem (State.writeQueue s who q off v).mem := by
  unfold State.writeQueue
  repeat' split
  all_goals simp [h]

@[simp] theorem State.writeDie_memWf (s : State) (who : HostFn) (die : ℕ) (off : ℕ) (v : Word) (h : CanonMem s.mem) :
    CanonMem (State.writeDie s who die off v).mem := by
  unfold State.writeDie
  repeat' split
  all_goals simp [h]

@[simp] theorem State.writeTrace_memWf (s : State) (core : CoreId) (v : Word) (h : CanonMem s.mem) : CanonMem (State.writeTrace s core v).mem := by
  unfold State.writeTrace
  refine CanonMem.ite (State.emitSync_memWf _ _ _ ?_) ?_
  all_goals simp [h]

@[simp] theorem State.writeObs_memWf (s : State) (who : HostFn) (die : ℕ) (off : ℕ) (v : Word) (h : CanonMem s.mem) :
    CanonMem (State.writeObs s who die off v).mem := by
  unfold State.writeObs
  dsimp only
  repeat' split
  all_goals simp [h]

@[simp] theorem State.writeBar2_memWf (s : State) (who : HostFn) (off : ℕ) (v : Word) (h : CanonMem s.mem) : CanonMem (State.writeBar2 s who off v).mem := by
  unfold State.writeBar2
  repeat' split
  all_goals simp [h]

@[simp] theorem State.hostWrite_memWf (s : State) (who : HostFn) (off : ℕ) (v : Word) (h : CanonMem s.mem) : CanonMem (State.hostWrite s who off v).mem := by
  unfold State.hostWrite
  split
  · exact h
  split
  · exact State.onQueue_memWf _ _ _ _ h fun q => by simp [h]
  repeat' split
  all_goals simp [h]

@[simp] theorem loadAll_memWf (b : By) (l : List (ℕ × ℕ)) (s : State) (h : CanonMem s.mem) : CanonMem (loadAll b l s).2.mem := by
  induction l generalizing s with
  | nil => exact h
  | cons x l ih =>
    obtain ⟨va, n⟩ := x
    have hf := s.loadVa_memWf b va n h
    unfold loadAll
    split
    · next e => exact hf.snd_of_eq e
    · next u e =>
      have hl := ih u (hf.snd_of_eq e)
      split
      · next e => exact hl.snd_of_eq e
      · next e => exact hl.snd_of_eq e

@[simp] theorem State.loadHeaders_memWf (s : State) (b : By) (q : Queue) (slot : ℕ) (h : CanonMem s.mem) : CanonMem (State.loadHeaders s b q slot).2.mem := by
  have h1 := s.loadVa_memWf b (q.saveVa slot 0) 4096 h
  unfold State.loadHeaders
  split
  · next e => exact h1.snd_of_eq e
  · next u e =>
    have h2 := h1.snd_of_eq e
    split
    · next e => exact (loadAll_memWf _ _ _ h2).snd_of_eq e
    · next e => exact (loadAll_memWf _ _ _ h2).snd_of_eq e

@[simp] theorem State.loadImage_memWf (s : State) (b : By) (d : Desc) (gaffer : Bool) (rank : ℕ) (va : ℕ) (h : CanonMem s.mem) :
    CanonMem (State.loadImage s b d gaffer rank va).2.mem := by
  have h1 := s.loadVa_memWf b va 4096 h
  unfold State.loadImage
  split
  · next e => exact h1.snd_of_eq e
  · next u e =>
    have h2 := h1.snd_of_eq e
    dsimp only
    split
    · next e => exact (loadAll_memWf _ _ _ h2).snd_of_eq e
    · next e =>
      have h3 := (loadAll_memWf _ _ _ h2).snd_of_eq e
      split
      · next e => exact (State.loadVa_memWf _ _ _ _ h3).snd_of_eq e
      · next e => exact (State.loadVa_memWf _ _ _ _ h3).snd_of_eq e

@[simp] theorem State.loadImages_memWf (s : State) (b : By) (q : Queue) (slot : ℕ) (d : Desc) (gaffer : Bool) (a : List ℕ) (h : CanonMem s.mem) :
    CanonMem (State.loadImages s b q slot d gaffer a).2.mem := by
  induction a generalizing s with
  | nil => exact h
  | cons x l ih =>
    have hf := s.loadImage_memWf b d gaffer x (q.saveVa slot x) h
    unfold State.loadImages
    split
    · next e => exact hf.snd_of_eq e
    · next u e =>
      have hl := ih u (hf.snd_of_eq e)
      split
      · next e => exact hl.snd_of_eq e
      · next e => exact hl.snd_of_eq e

@[simp] theorem State.loseLine_memWf (s : State) (line : ℕ) (h : CanonMem s.mem) : CanonMem (State.loseLine s line).mem := by
  unfold State.loseLine
  dsimp only
  repeat' split
  all_goals simp [h]

@[simp] theorem State.matchRot_memWf (s : State) (c : Crew) (rs : List Rot) (h : CanonMem s.mem) : CanonMem (State.matchRot s c rs).mem := by
  unfold State.matchRot
  extract_lets differ own issue
  have hi (r s f) (hs : CanonMem s.mem) (hf : ∀ cx : Ctx, CanonMem cx.s0.mem → (f cx).MemWf) : CanonMem (issue r s f).mem := by
    show CanonMem (State.mem (match State.ctx? _ _ with | some cx => _ | none => _))
    split
    · next cx e =>
      have hm := CanonMem.of_ctx? e hs
      exact Ctx.finish_memWf _ _ _ (hf _ hm) hm
    · exact hs
  split
  · refine foldl_memWf _ _ _ h fun s q hs => hi _ _ _ hs fun cx hc => ?_
    exact Out.memWf_ite hc hc
  split
  · exact h
  · refine foldl_memWf _ _ _ h fun s r hs => hi _ _ _ hs fun cx hc => ?_
    refine Out.memWf_ite hc ?_
    dsimp only
    split
    · simp [hc]
    · simp [hc]

@[simp] theorem State.savedWant_memWf (s : State) (x : Saved) (h : CanonMem s.mem) : CanonMem (State.savedWant s x).2.mem := by
  have h1 := s.loadHeaders_memWf x.crew.by (s.queue x.queue) x.slot h
  unfold State.savedWant
  dsimp only
  split
  · next e => exact h1.snd_of_eq e
  · next u e =>
    have h2 := h1.snd_of_eq e
    split
    · next e => exact (loadAll_memWf _ _ _ h2).snd_of_eq e
    · next e => exact (loadAll_memWf _ _ _ h2).snd_of_eq e

@[simp] theorem State.offered_memWf (s : State) (q : ℕ) (h : CanonMem s.mem) : CanonMem (State.offered s q).2.mem := by
  have hl (b va n) := s.loadVa_memWf b va n h
  unfold State.offered
  dsimp only
  split
  · exact State.savedWant_memWf _ _ h
  split
  · exact h
  split
  · next e => exact (hl _ _ _).snd_of_eq e
  · next u e =>
    have hu := (hl _ _ _).snd_of_eq e
    have hl' (b va n) := u.loadVa_memWf b va n hu
    split
    · exact hu
    split
    · exact hu
    split
    · next e => exact (hl' _ _ _).snd_of_eq e
    · next e =>
      split
      · exact (hl' _ _ _).snd_of_eq e
      · exact (hl' _ _ _).snd_of_eq e

@[simp] theorem State.offers__memWf (s : State) (a : List ℕ) (h : CanonMem s.mem) : CanonMem (State.offers_ s a).2.mem := by
  induction a generalizing s with
  | nil => exact h
  | cons q l ih => exact ih _ (State.offered_memWf _ _ h)

@[simp] theorem storeAll_memWf (b : By) (l : List (ℕ × List Byte)) (s : State) (h : CanonMem s.mem) : ∀ u, storeAll b l s = some u → CanonMem u.mem := by
  induction l generalizing s with
  | nil => exact fun u e => Option.some.inj e ▸ h
  | cons x l ih =>
    obtain ⟨va, bs⟩ := x
    have hf := s.storeVa_memWf b va bs h
    intro u e
    unfold storeAll at e
    split at e
    · next e' => exact ih _ (hf.snd_of_eq e') u e
    · exact absurd e nofun

@[simp] theorem State.takePushes_memWf (s : State) (crew : ℕ) (r : ℕ) (a : ℕ) (h : CanonMem s.mem) : CanonMem (State.takePushes s crew r a).mem := by
  induction a generalizing s with
  | zero => exact h
  | succ f ih =>
    unfold State.takePushes
    split
    · split
      · split
        · refine CanonMem.ite h (ih _ (State.complete_memWf _ _ _ _ _ ?_))
          simp [h]
        · exact h
      · exact h
    · exact h

@[simp] theorem State.restoreCrew_memWf (s : State) (x : Saved) (kernel : Option (List Byte)) (die : ℕ) (cluster : ℕ) (number : ℕ) (gctx : ℕ) (ps : List Place) (ms : List Image) (h : CanonMem s.mem) :
    CanonMem (State.restoreCrew s x kernel die cluster number gctx ps ms).mem := by
  unfold State.restoreCrew
  dsimp only
  refine foldl_memWf _ _ _ (foldl_memWf _ _ _ ?_ fun _ _ hs => State.takePushes_memWf _ _ _ _ hs) fun s sid hs =>
    foldl_memWf _ _ _ hs fun _ _ => State.retire_memWf _ _ _ _
  rw [State.placeAcquire_mem]
  refine foldl_memWf _ _ _ (foldl_memWf _ _ _ (foldl_memWf _ _ _ h fun _ _ hs => ?_) fun _ _ hs => ?_) fun _ _ hs => ?_
  all_goals simp [hs]

@[simp] theorem State.restore_memWf (s : State) (x : Saved) (die : ℕ) (cluster : ℕ) (w : Want) (p : Pick) (h : CanonMem s.mem) :
    CanonMem (State.restore s x die cluster w p).mem := by
  have h1 := s.loadHeaders_memWf x.crew.by (s.queue x.queue) x.slot h
  unfold State.restore
  dsimp only
  split
  · next e => simp [h1.snd_of_eq e]
  · next e =>
    have h2 := h1.snd_of_eq e
    split
    · next e => simp [(State.loadImages_memWf _ _ _ _ _ _ _ h2).snd_of_eq e]
    · next e =>
      have h3 := (State.loadImages_memWf _ _ _ _ _ _ _ h2).snd_of_eq e
      split
      · simp [h3]
      · next e =>
        have h4 := storeAll_memWf _ _ _ h3 _ e
        refine State.restoreCrew_memWf _ _ _ _ _ _ _ _ _ ?_
        split
        · next e => exact (State.loadVa_memWf _ _ _ _ h4).snd_of_eq e
        · next e => exact (State.loadVa_memWf _ _ _ _ h4).snd_of_eq e

@[simp] theorem State.placeFirst_memWf (s : State) (die : ℕ) (cluster : ℕ) (pick : Pick) (a : List (Offered × Want)) (h : CanonMem s.mem) :
    CanonMem (State.placeFirst s die cluster pick a).mem := by
  induction a generalizing s with
  | nil => exact h
  | cons x l ih =>
    obtain ⟨o, w⟩ := x
    unfold State.placeFirst
    refine CanonMem.ite (ih _ h) (CanonMem.ite h ?_)
    dsimp only
    cases o <;> (dsimp only; split <;> simp [h])

@[simp] theorem State.readSource_memWf (s : State) (k : Cmd) (q : Option ℕ × ℕ) (h : CanonMem s.mem) : CanonMem (State.readSource s k q).mem := by
  unfold State.readSource
  extract_lets cells add
  have ha (u l) (hu : CanonMem u.mem) : CanonMem (add u l).mem := by
    show CanonMem (State.modCmd _ _ _).mem
    simp [hu]
  split
  · split
    · exact CanonMem.ite (by simp [h]) (ha _ _ h)
    · exact ha _ _ (by simp [h])
  · have hl := s.leafFor_memWf (s.byCmd k) .load (32 * q.2) h
    split
    · next e => simp [hl.snd_of_eq e]
    · next e =>
      refine State.atFarSide_memWf _ _ _ _ (hl.snd_of_eq e) fun u hu => ?_
      have hr := fun f => State.readPiece_memWf u (u.byCmd k) f 32 hu
      split
      · next e => simp [(hr _).snd_of_eq e]
      · next e => exact ha _ _ ((hr _).snd_of_eq e)

@[simp] theorem State.readCmd_memWf (s : State) (id : ℕ) (h : CanonMem s.mem) : CanonMem (State.readCmd s id).mem := by
  unfold State.readCmd
  dsimp only
  repeat' split
  all_goals simp [h]

@[simp] theorem State.readStepLine_memWf (s : State) (c : Crew) (f : Fetch) (t : Team) (x : Staged) (v : ℕ) (l : Leaf) (h : CanonMem s.mem) :
    CanonMem (State.readStepLine s c f t x v l).mem := by
  unfold State.readStepLine
  split <;> simp [h]

@[simp] theorem State.stepLeaves_memWf (s : State) (b : By) (a : List ℕ) (h : CanonMem s.mem) : CanonMem (State.stepLeaves s b a).2.mem := by
  induction a generalizing s with
  | nil => exact h
  | cons v l ih =>
    have hf := s.leafFor_memWf b .load (v * 128) h
    unfold State.stepLeaves
    split
    · next e => exact hf.snd_of_eq e
    · next u e =>
      have hu := hf.snd_of_eq e
      split
      · exact hu
      · have hl := ih u hu
        split
        · next e => exact hl.snd_of_eq e
        · exact hl

@[simp] theorem State.startStep_memWf (s : State) (c : Crew) (f : Fetch) (x : Staged) (before : Bool) (h : CanonMem s.mem) :
    CanonMem (State.startStep s c f x before).mem := by
  have hl := s.stepLeaves_memWf (c.byTile f.rank 2) x.vlines h
  unfold State.startStep
  refine CanonMem.ite (by simp [h]) ?_
  split
  · next e =>
    have hu := hl.snd_of_eq e
    refine CanonMem.ite h ?_
    dsimp only
    split <;> simp [hu]
  · next e =>
    have hu := hl.snd_of_eq e
    split
    · exact h
    · next e' =>
      have hv := State.pinLines_mem _ _ _ _ e'
      simp [hv, hu]

@[simp] theorem State.readFetch_memWf (s : State) (id : ℕ) (h : CanonMem s.mem) : CanonMem (State.readFetch s id).mem := by
  unfold State.readFetch
  dsimp only
  repeat' split
  all_goals simp [h]

@[simp] theorem State.readMemory_memWf (s : State) (m : Msg) (h : CanonMem s.mem) : CanonMem (State.readMemory s m).mem := by
  unfold State.readMemory
  dsimp only
  repeat' split
  all_goals simp [h]

@[simp] theorem State.readMsg_memWf (s : State) (id : ℕ) (h : CanonMem s.mem) : CanonMem (State.readMsg s id).mem := by
  unfold State.readMsg
  repeat' split
  all_goals simp [h]

@[simp] theorem State.refillEnd_memWf (s : State) (c : Crew) (sid : Sid) (e : Entry) (l : ℕ) (h : CanonMem s.mem) :
    CanonMem (State.refillEnd s c sid e l).mem := State.complete_memWf _ _ _ _ _ (by simp [h])

@[simp] theorem State.refillPopped_memWf (s : State) (c : Crew) (sid : Sid) (t : Strand) (e : Entry) (l : ℕ) (ty : Ty) (d : Opd) (o : Tape.Pop) (h : CanonMem s.mem) :
    CanonMem (State.refillPopped s c sid t e l ty d o).mem := by
  unfold State.refillPopped
  repeat' split
  all_goals simp [h]

@[simp] theorem State.refillRead_memWf (s : State) (c : Crew) (sid : Sid) (e : Entry) (l : ℕ) (sp : ℕ × ℕ) (h : CanonMem s.mem) :
    CanonMem (State.refillRead s c sid e l sp).2.mem := by
  have hl := s.cullet_memWf c sid l sp h
  unfold State.refillRead
  split
  · next e => simp [hl.snd_of_eq e]
  next u e =>
  have hu := hl.snd_of_eq e
  split
  · simp [hu]
  next ps _ =>
  have hd : CanonMem (u.drawIndex ps.length).2.mem := by simp [hu]
  dsimp only
  split
  · exact hd
  next p _ =>
  have hv := State.loadVa_memWf _ ((u.drawIndex ps.length).2.byTape c sid l) p.1 p.2 hd
  split
  · next e => simp [hv.snd_of_eq e]
  · next e => simp [hv.snd_of_eq e]

@[simp] theorem State.refuseRecord_memWf (s : State) (die : ℕ) (q : ℕ) (h : CanonMem s.mem) :
    CanonMem (State.refuseRecord s die q).mem := by simp [State.refuseRecord, h]

@[simp] theorem State.renderLane_memWf (s : State) (c : Crew) (t : Strand) (e : Entry) (land : Bool) (l : ℕ) (h : CanonMem s.mem) :
    CanonMem (State.renderLane s c t e land l).mem := by
  have hg (b r) := s.gradPlaces_memWf b r h
  unfold State.renderLane
  dsimp only
  split
  · split
    · exact State.drawRead_memWf _ _ _ _ _ _ _ (by simp [h])
    · simp [h]
  · repeat' split
    all_goals simp [h]
  · split
    · exact h
    split
    · next e => simp [(hg _ _).snd_of_eq e]
    · next e =>
      have hu := (hg _ _).snd_of_eq e
      repeat' split
      all_goals simp [hu]

@[simp] theorem State.sendPushes_memWf (s : State) (crew : ℕ) (r : ℕ) (h : CanonMem s.mem) : CanonMem (State.sendPushes s crew r).mem := by
  unfold State.sendPushes
  dsimp only
  repeat' split
  all_goals simp [h]

@[simp] theorem State.resendPushes_memWf (s : State) (port : ℕ) (h : CanonMem s.mem) : CanonMem (State.resendPushes s port).mem := by
  refine foldl_memWf _ _ _ h fun s r hs => ?_
  split
  · simp [hs]
  · exact hs

@[simp] theorem State.sendFlush_memWf (s : State) (c : Crew) (t : Strand) (e : Entry) (l : ℕ) (h : CanonMem s.mem) :
    CanonMem (State.sendFlush s c t e l).mem := by
  have hp : CanonMem ((pagesOf (e.ea l).toNat ((e.srcOf l).getD 1 0).toNat).foldl (fun s q =>
      match s.translate c.asid c.secure .load (BitVec.ofNat 64 q.1) with
      | (.fail _ _, s) => s
      | (.ok f, s) => s.post { baseMsg c t e .flush [l] with point := homeOf 0 f.at_, line := lineOf f.at_, leaf := f, acts := lineActs l f.at_ q.2 })
      (s.markSent c t e [l])).mem := by
    refine foldl_memWf _ _ _ (by simp [h]) fun s q hs => ?_
    have ht : CanonMem (s.translate c.asid c.secure .load (BitVec.ofNat 64 q.1)).2.mem := by simp [hs]
    dsimp only
    split
    · next e => exact ht.snd_of_eq e
    · next e => simp [ht.snd_of_eq e]
  exact CanonMem.ite hp (State.complete_memWf _ _ _ _ _ hp)

@[simp] theorem State.sendMemory_memWf (s : State) (c : Crew) (t : Strand) (e : Entry) (i : Instr) (k : MsgKind) (ls : List ℕ) (h : CanonMem s.mem) :
    CanonMem (State.sendMemory s c t e i k ls).mem := by
  unfold State.sendMemory
  split
  · exact h
  next l0 _ =>
  have ht : CanonMem (s.translate c.asid c.secure (accessOf i) (e.ea l0)).2.mem := by simp [h]
  dsimp only
  split
  · next e =>
    have hu := ht.snd_of_eq e
    split <;> simp [hu]
  · next e =>
    have hu := ht.snd_of_eq e
    repeat' split
    all_goals simp [hu]

@[simp] theorem State.sendReg_memWf (s : State) (c : Crew) (t : Strand) (e : Entry) (i : Instr) (l : ℕ) (h : CanonMem s.mem) :
    CanonMem (State.sendReg s c t e i l).mem := by
  unfold State.sendReg
  dsimp only
  repeat' split
  all_goals simp [h]

@[simp] theorem State.sendWrites_memWf (s : State) (k : Cmd) (h : CanonMem s.mem) : CanonMem (State.sendWrites s k).mem := by
  refine foldl_memWf _ _ _ h fun s q hs => ?_
  dsimp only
  refine CanonMem.ite (by simp [hs]) ?_
  split
  · exact hs
  · next c _ _ =>
    have hf := s.leafFor_memWf (s.byCmd k) .store (c.1 / 32 * 32) hs
    split
    · simp [hs]
    · next e =>
      have hu := hf.snd_of_eq e
      refine CanonMem.ite (by simp [hu]) (by simp [hu])

@[simp] theorem State.stepHead_memWf (s : State) (c : Crew) (t : Team) (o : TileOp) (rest : List TileOp) (h : CanonMem s.mem) :
    CanonMem (State.stepHead s c t o rest).mem := by
  unfold State.stepHead
  dsimp only
  repeat' split
  all_goals simp [h]

@[simp] theorem State.storeFails_memWf (s : State) (m : Msg) (h : CanonMem s.mem) : CanonMem (State.storeFails s m).mem := by
  unfold State.storeFails
  split <;> simp [h]

@[simp] theorem State.tryMatch_memWf (s : State) (crew : ℕ) (h : CanonMem s.mem) : CanonMem (State.tryMatch s crew).mem := by
  have hr : CanonMem ((((s.crew? crew).map Crew.sids).getD []).foldl (fun s sid => s.rejoin crew sid) s).mem :=
    foldl_memWf _ _ _ h fun s sid hs => State.rejoin_memWf _ _ _ hs
  unfold State.tryMatch
  dsimp only
  split
  · exact hr
  · split
    · exact State.matchRot_memWf _ _ _ hr
    · exact hr

/-! ### The instructions -/

/-- The state that a step leaves lists memory in the canonical form. -/
def Keeps (o : Host.Outcome State Fault Refusal) : Prop := ∀ u, o = .next u → CanonMem u.mem

theorem keeps_next {u : State} (h : CanonMem u.mem) : Keeps (.next u) := by
  rintro v ⟨⟩
  exact h

/-- A word keeps the form when what it does between its checks and its end does. -/
theorem keeps_word {i : Instr} {s : State} {body : Ctx → Out} (h : CanonMem s.mem) (hb : ∀ c : Ctx, CanonMem c.s0.mem → (body c).MemWf) : Keeps (word i s body) := by
  unfold word
  split
  · rintro u ⟨⟩
  · next c e =>
    have hc := CanonMem.of_ctx? e h
    exact keeps_next (c.run_memWf i body (hb c) hc)

@[simp] theorem execNop_keeps (p : Pre) (s : State) (h : CanonMem s.mem) : Keeps (execNop p s) := keeps_word h fun c hc => by simp [hc]

@[simp] theorem execBra_keeps (p : Pre) (uni : Bool) (off : BitVec 30) (s : State) (h : CanonMem s.mem) :
    Keeps (execBra p uni off s) := keeps_word h fun c hc => by simp [hc]

@[simp] theorem execBrx_keeps (p : Pre) (uni : Bool) (a : Opd) (s : State) (h : CanonMem s.mem) :
    Keeps (execBrx p uni a s) := keeps_word h fun c hc => by simp [hc]

@[simp] theorem execCall_keeps (p : Pre) (uni : Bool) (a : Opd) (off : BitVec 30) (s : State) (h : CanonMem s.mem) :
    Keeps (execCall p uni a off s) := keeps_word h fun c hc => by simp [hc]

@[simp] theorem execCallx_keeps (p : Pre) (uni : Bool) (d : Opd) (a : Opd) (s : State) (h : CanonMem s.mem) :
    Keeps (execCallx p uni d a s) := keeps_word h fun c hc => by simp [hc]

@[simp] theorem execRet_keeps (p : Pre) (uni : Bool) (a : Opd) (s : State) (h : CanonMem s.mem) :
    Keeps (execRet p uni a s) := keeps_word h fun c hc => by simp [hc]

@[simp] theorem execYield_keeps (p : Pre) (s : State) (h : CanonMem s.mem) : Keeps (execYield p s) := keeps_word h fun c hc => by
  repeat' split
  all_goals simp [hc]

@[simp] theorem execExit_keeps (p : Pre) (s : State) (h : CanonMem s.mem) : Keeps (execExit p s) := keeps_word h fun c hc => by
  repeat' split
  all_goals simp [hc]

@[simp] theorem execIadd_keeps (p : Pre) (t : Ty) (sat : Bool) (d : Opd) (a : Opd) (b : Opd) (s : State) (h : CanonMem s.mem) :
    Keeps (execIadd p t sat d a b s) := keeps_word h fun c hc => by simp [hc]

@[simp] theorem execIsub_keeps (p : Pre) (t : Ty) (sat : Bool) (d : Opd) (a : Opd) (b : Opd) (s : State) (h : CanonMem s.mem) :
    Keeps (execIsub p t sat d a b s) := keeps_word h fun c hc => by simp [hc]

@[simp] theorem execImul_keeps (p : Pre) (t : Ty) (d : Opd) (a : Opd) (b : Opd) (s : State) (h : CanonMem s.mem) :
    Keeps (execImul p t d a b s) := keeps_word h fun c hc => by simp [hc]

@[simp] theorem execImulhi_keeps (p : Pre) (t : Ty) (d : Opd) (a : Opd) (b : Opd) (s : State) (h : CanonMem s.mem) :
    Keeps (execImulhi p t d a b s) := keeps_word h fun c hc => by simp [hc]

@[simp] theorem execImad_keeps (p : Pre) (t : Ty) (d : Opd) (a : Opd) (b : Opd) (e : Opd) (s : State) (h : CanonMem s.mem) :
    Keeps (execImad p t d a b e s) := keeps_word h fun c hc => by simp [hc]

@[simp] theorem execIwmad_keeps (p : Pre) (t : Ty) (d : Opd) (a : Opd) (b : Opd) (e : Opd) (s : State) (h : CanonMem s.mem) :
    Keeps (execIwmad p t d a b e s) := keeps_word h fun c hc => by simp [hc]

@[simp] theorem execImin_keeps (p : Pre) (t : Ty) (d : Opd) (a : Opd) (b : Opd) (s : State) (h : CanonMem s.mem) :
    Keeps (execImin p t d a b s) := keeps_word h fun c hc => by simp [hc]

@[simp] theorem execImax_keeps (p : Pre) (t : Ty) (d : Opd) (a : Opd) (b : Opd) (s : State) (h : CanonMem s.mem) :
    Keeps (execImax p t d a b s) := keeps_word h fun c hc => by simp [hc]

@[simp] theorem execIabs_keeps (p : Pre) (t : Ty) (sat : Bool) (d : Opd) (a : Opd) (s : State) (h : CanonMem s.mem) :
    Keeps (execIabs p t sat d a s) := keeps_word h fun c hc => by simp [hc]

@[simp] theorem execIsad_keeps (p : Pre) (t : Ty) (d : Opd) (a : Opd) (b : Opd) (e : Opd) (s : State) (h : CanonMem s.mem) :
    Keeps (execIsad p t d a b e s) := keeps_word h fun c hc => by simp [hc]

@[simp] theorem execIaddi_keeps (p : Pre) (t : Ty) (sat : Bool) (d : Opd) (a : Opd) (imm : BitVec 20) (s : State) (h : CanonMem s.mem) :
    Keeps (execIaddi p t sat d a imm s) := keeps_word h fun c hc => by simp [hc]

@[simp] theorem execLea_keeps (p : Pre) (t : Ty) (sh : BitVec 3) (d : Opd) (a : Opd) (b : Opd) (s : State) (h : CanonMem s.mem) :
    Keeps (execLea p t sh d a b s) := keeps_word h fun c hc => by simp [hc]

@[simp] theorem execIdp4_keeps (p : Pre) (t : Ty) (sat : Bool) (xb : Bool) (d : Opd) (a : Opd) (b : Opd) (e : Opd) (s : State) (h : CanonMem s.mem) :
    Keeps (execIdp4 p t sat xb d a b e s) := keeps_word h fun c hc => by simp [hc]

@[simp] theorem execAnd_keeps (p : Pre) (t : Ty) (d : Opd) (a : Opd) (b : Opd) (s : State) (h : CanonMem s.mem) :
    Keeps (execAnd p t d a b s) := keeps_word h fun c hc => by simp [hc]

@[simp] theorem execOr_keeps (p : Pre) (t : Ty) (d : Opd) (a : Opd) (b : Opd) (s : State) (h : CanonMem s.mem) :
    Keeps (execOr p t d a b s) := keeps_word h fun c hc => by simp [hc]

@[simp] theorem execXor_keeps (p : Pre) (t : Ty) (d : Opd) (a : Opd) (b : Opd) (s : State) (h : CanonMem s.mem) :
    Keeps (execXor p t d a b s) := keeps_word h fun c hc => by simp [hc]

@[simp] theorem execAndn_keeps (p : Pre) (t : Ty) (d : Opd) (a : Opd) (b : Opd) (s : State) (h : CanonMem s.mem) :
    Keeps (execAndn p t d a b s) := keeps_word h fun c hc => by simp [hc]

@[simp] theorem execShl_keeps (p : Pre) (t : Ty) (d : Opd) (a : Opd) (b : Opd) (s : State) (h : CanonMem s.mem) :
    Keeps (execShl p t d a b s) := keeps_word h fun c hc => by simp [hc]

@[simp] theorem execShr_keeps (p : Pre) (t : Ty) (d : Opd) (a : Opd) (b : Opd) (s : State) (h : CanonMem s.mem) :
    Keeps (execShr p t d a b s) := keeps_word h fun c hc => by simp [hc]

@[simp] theorem execSar_keeps (p : Pre) (t : Ty) (d : Opd) (a : Opd) (b : Opd) (s : State) (h : CanonMem s.mem) :
    Keeps (execSar p t d a b s) := keeps_word h fun c hc => by simp [hc]

@[simp] theorem execRot_keeps (p : Pre) (t : Ty) (d : Opd) (a : Opd) (b : Opd) (s : State) (h : CanonMem s.mem) :
    Keeps (execRot p t d a b s) := keeps_word h fun c hc => by simp [hc]

@[simp] theorem execBfx_keeps (p : Pre) (t : Ty) (d : Opd) (a : Opd) (b : Opd) (s : State) (h : CanonMem s.mem) :
    Keeps (execBfx p t d a b s) := keeps_word h fun c hc => by simp [hc]

@[simp] theorem execBfi_keeps (p : Pre) (t : Ty) (d : Opd) (a : Opd) (b : Opd) (e : Opd) (s : State) (h : CanonMem s.mem) :
    Keeps (execBfi p t d a b e s) := keeps_word h fun c hc => by simp [hc]

@[simp] theorem execPopc_keeps (p : Pre) (t : Ty) (d : Opd) (a : Opd) (s : State) (h : CanonMem s.mem) :
    Keeps (execPopc p t d a s) := keeps_word h fun c hc => by simp [hc]

@[simp] theorem execClz_keeps (p : Pre) (t : Ty) (d : Opd) (a : Opd) (s : State) (h : CanonMem s.mem) :
    Keeps (execClz p t d a s) := keeps_word h fun c hc => by simp [hc]

@[simp] theorem execBrev_keeps (p : Pre) (t : Ty) (d : Opd) (a : Opd) (s : State) (h : CanonMem s.mem) :
    Keeps (execBrev p t d a s) := keeps_word h fun c hc => by simp [hc]

@[simp] theorem execMovi_keeps (p : Pre) (t : Ty) (d : Opd) (imm : BitVec 20) (s : State) (h : CanonMem s.mem) :
    Keeps (execMovi p t d imm s) := keeps_word h fun c hc => by simp [hc]

@[simp] theorem execMovhi_keeps (p : Pre) (t : Ty) (b40 : Bool) (d : Opd) (a : Opd) (imm : BitVec 20) (s : State) (h : CanonMem s.mem) :
    Keeps (execMovhi p t b40 d a imm s) := keeps_word h fun c hc => by simp [hc]

@[simp] theorem execIcmp_keeps (p : Pre) (t : Ty) (cc : Cmp) (d : PField) (a : Opd) (b : Opd) (s : State) (h : CanonMem s.mem) :
    Keeps (execIcmp p t cc d a b s) := keeps_word h fun c hc => by simp [hc]

@[simp] theorem execPlop_keeps (p : Pre) (lut : BitVec 4) (d : PField) (a : PField) (b : PField) (e : PField) (s : State) (h : CanonMem s.mem) :
    Keeps (execPlop p lut d a b e s) := keeps_word h fun c hc => by simp [hc]

@[simp] theorem execSel_keeps (p : Pre) (t : Ty) (d : Opd) (a : Opd) (b : Opd) (e : PField) (s : State) (h : CanonMem s.mem) :
    Keeps (execSel p t d a b e s) := keeps_word h fun c hc => by simp [hc]

@[simp] theorem execMov_keeps (p : Pre) (t : Ty) (d : Opd) (a : Opd) (s : State) (h : CanonMem s.mem) :
    Keeps (execMov p t d a s) := keeps_word h fun c hc => by simp [hc]

@[simp] theorem execShfl_keeps (p : Pre) (t : Ty) (mode : Shfl) (d : Opd) (a : Opd) (b : Opd) (e : Opd) (s : State) (h : CanonMem s.mem) :
    Keeps (execShfl p t mode d a b e s) := keeps_word h fun c hc => by
  have hf : CanonMem (c.forLanes (fun l s =>
      if (c.ls.filter fun l => !shflWidth (c.rd .n32 e l)).contains l then s
      else c.write t d l (c.read t a (if c.act.getLsbD (shflSource mode l (c.rd .n32 b l) (c.rd .n32 e l)) then shflSource mode l (c.rd .n32 b l) (c.rd .n32 e l) else l)) s) c.s0).mem :=
    foldl_memWf _ _ _ hc fun s l hs => CanonMem.ite hs (by simp [hs])
  exact Out.memWf_ite hf hf

@[simp] theorem execVote_keeps (p : Pre) (t : Ty) (kind : Vote) (d : Opd) (a : Opd) (s : State) (h : CanonMem s.mem) :
    Keeps (execVote p t kind d a s) := keeps_word h fun c hc => by simp [hc]

@[simp] theorem execMatchl_keeps (p : Pre) (t : Ty) (d : Opd) (a : Opd) (s : State) (h : CanonMem s.mem) :
    Keeps (execMatchl p t d a s) := keeps_word h fun c hc => by simp [hc]

@[simp] theorem execLred_keeps (p : Pre) (t : Ty) (op : Lred) (d : Opd) (a : Opd) (s : State) (h : CanonMem s.mem) :
    Keeps (execLred p t op d a s) := keeps_word h fun c hc => by simp [hc]

@[simp] theorem execP2v_keeps (p : Pre) (t : Ty) (ones : Bool) (d : Opd) (a : PField) (s : State) (h : CanonMem s.mem) :
    Keeps (execP2v p t ones d a s) := keeps_word h fun c hc => by simp [hc]

@[simp] theorem execV2p_keeps (p : Pre) (t : Ty) (d : PField) (a : Opd) (s : State) (h : CanonMem s.mem) :
    Keeps (execV2p p t d a s) := keeps_word h fun c hc => by simp [hc]

@[simp] theorem execFadd_keeps (p : Pre) (t : Ty) (rm : Rm) (d : Opd) (a : Opd) (b : Opd) (s : State) (h : CanonMem s.mem) :
    Keeps (execFadd p t rm d a b s) := keeps_word h fun c hc => by simp [hc]

@[simp] theorem execFsub_keeps (p : Pre) (t : Ty) (rm : Rm) (d : Opd) (a : Opd) (b : Opd) (s : State) (h : CanonMem s.mem) :
    Keeps (execFsub p t rm d a b s) := keeps_word h fun c hc => by simp [hc]

@[simp] theorem execFmul_keeps (p : Pre) (t : Ty) (rm : Rm) (d : Opd) (a : Opd) (b : Opd) (s : State) (h : CanonMem s.mem) :
    Keeps (execFmul p t rm d a b s) := keeps_word h fun c hc => by simp [hc]

@[simp] theorem execFfma_keeps (p : Pre) (t : Ty) (rm : Rm) (d : Opd) (a : Opd) (b : Opd) (e : Opd) (s : State) (h : CanonMem s.mem) :
    Keeps (execFfma p t rm d a b e s) := keeps_word h fun c hc => by simp [hc]

@[simp] theorem execFmin_keeps (p : Pre) (t : Ty) (d : Opd) (a : Opd) (b : Opd) (s : State) (h : CanonMem s.mem) :
    Keeps (execFmin p t d a b s) := keeps_word h fun c hc => by simp [hc]

@[simp] theorem execFmax_keeps (p : Pre) (t : Ty) (d : Opd) (a : Opd) (b : Opd) (s : State) (h : CanonMem s.mem) :
    Keeps (execFmax p t d a b s) := keeps_word h fun c hc => by simp [hc]

@[simp] theorem execFcmp_keeps (p : Pre) (t : Ty) (cc : FCmp) (d : PField) (a : Opd) (b : Opd) (s : State) (h : CanonMem s.mem) :
    Keeps (execFcmp p t cc d a b s) := keeps_word h fun c hc => by simp [hc]

@[simp] theorem execFclass_keeps (p : Pre) (t : Ty) (d : PField) (a : Opd) (b : Opd) (s : State) (h : CanonMem s.mem) :
    Keeps (execFclass p t d a b s) := keeps_word h fun c hc => by simp [hc]

@[simp] theorem execFdiv_keeps (p : Pre) (t : Ty) (rm : Rm) (d : Opd) (a : Opd) (b : Opd) (s : State) (h : CanonMem s.mem) :
    Keeps (execFdiv p t rm d a b s) := keeps_word h fun c hc => by simp [hc]

@[simp] theorem execFsqrt_keeps (p : Pre) (t : Ty) (rm : Rm) (d : Opd) (a : Opd) (s : State) (h : CanonMem s.mem) :
    Keeps (execFsqrt p t rm d a s) := keeps_word h fun c hc => by simp [hc]

@[simp] theorem execFrint_keeps (p : Pre) (t : Ty) (rm : Rm) (d : Opd) (a : Opd) (s : State) (h : CanonMem s.mem) :
    Keeps (execFrint p t rm d a s) := keeps_word h fun c hc => by simp [hc]

@[simp] theorem execFabs_keeps (p : Pre) (t : Ty) (d : Opd) (a : Opd) (s : State) (h : CanonMem s.mem) :
    Keeps (execFabs p t d a s) := keeps_word h fun c hc => by simp [hc]

@[simp] theorem execFneg_keeps (p : Pre) (t : Ty) (d : Opd) (a : Opd) (s : State) (h : CanonMem s.mem) :
    Keeps (execFneg p t d a s) := keeps_word h fun c hc => by simp [hc]

@[simp] theorem execFdot_keeps (p : Pre) (t : Ty) (rm : Rm) (d : Opd) (a : Opd) (b : Opd) (e : Opd) (s : State) (h : CanonMem s.mem) :
    Keeps (execFdot p t rm d a b e s) := keeps_word h fun c hc => by simp [hc]

@[simp] theorem execFexp2_keeps (p : Pre) (t : Ty) (d : Opd) (a : Opd) (s : State) (h : CanonMem s.mem) :
    Keeps (execFexp2 p t d a s) := keeps_word h fun c hc => by simp [hc]

@[simp] theorem execFlog2_keeps (p : Pre) (t : Ty) (d : Opd) (a : Opd) (s : State) (h : CanonMem s.mem) :
    Keeps (execFlog2 p t d a s) := keeps_word h fun c hc => by simp [hc]

@[simp] theorem execFsin_keeps (p : Pre) (t : Ty) (d : Opd) (a : Opd) (s : State) (h : CanonMem s.mem) :
    Keeps (execFsin p t d a s) := keeps_word h fun c hc => by simp [hc]

@[simp] theorem execFcos_keeps (p : Pre) (t : Ty) (d : Opd) (a : Opd) (s : State) (h : CanonMem s.mem) :
    Keeps (execFcos p t d a s) := keeps_word h fun c hc => by simp [hc]

@[simp] theorem execFrsq_keeps (p : Pre) (t : Ty) (d : Opd) (a : Opd) (s : State) (h : CanonMem s.mem) :
    Keeps (execFrsq p t d a s) := keeps_word h fun c hc => by simp [hc]

@[simp] theorem execFrcp_keeps (p : Pre) (t : Ty) (d : Opd) (a : Opd) (s : State) (h : CanonMem s.mem) :
    Keeps (execFrcp p t d a s) := keeps_word h fun c hc => by simp [hc]

@[simp] theorem execFtanh_keeps (p : Pre) (t : Ty) (d : Opd) (a : Opd) (s : State) (h : CanonMem s.mem) :
    Keeps (execFtanh p t d a s) := keeps_word h fun c hc => by simp [hc]

@[simp] theorem execCvt_keeps (p : Pre) (t : Ty) (rm : Rm) (d : Opd) (a : Opd) (pol : BitVec 8) (f : BitVec 4) (s : State) (h : CanonMem s.mem) :
    Keeps (execCvt p t rm d a pol f s) := keeps_word h fun c hc => by simp [hc]

@[simp] theorem execCvtn_keeps (p : Pre) (t : Ty) (rm : Rm) (pos : BitVec 2) (d : Opd) (a : Opd) (pol : BitVec 8) (f : BitVec 4) (s : State) (h : CanonMem s.mem) :
    Keeps (execCvtn p t rm pos d a pol f s) := keeps_word h fun c hc => c.convertLanes_memWf _ _ (fun _ _ _ => by simp) hc

@[simp] theorem execCvtw_keeps (p : Pre) (t : Ty) (pos : BitVec 2) (d : Opd) (a : Opd) (pol : BitVec 8) (f : BitVec 4) (s : State) (h : CanonMem s.mem) :
    Keeps (execCvtw p t pos d a pol f s) := keeps_word h fun c hc => by simp [hc]

@[simp] theorem execLd_keeps (p : Pre) (t : Ty) (m : MemMode) (d : Opd) (a : Opd) (off : BitVec 16) (hint : BitVec 3) (s : State) (h : CanonMem s.mem) :
    Keeps (execLd p t m d a off hint s) := keeps_word h fun c hc => by simp [hc]

@[simp] theorem execSt_keeps (p : Pre) (t : Ty) (m : MemMode) (tag : Bool) (d : Opd) (a : Opd) (off : BitVec 16) (hint : BitVec 3) (s : State) (h : CanonMem s.mem) :
    Keeps (execSt p t m tag d a off hint s) := keeps_word h fun c hc => c.apertureStore_memWf _ _ _ _ (fun s fs hs => Ctx.logIssue_memWf _ _ _ _ _ _ hs) hc

@[simp] theorem execLds_keeps (p : Pre) (t : Ty) (z : Size) (d : Opd) (a : Opd) (off : BitVec 16) (s : State) (h : CanonMem s.mem) :
    Keeps (execLds p t z d a off s) := keeps_word h fun c hc => by simp [hc]

@[simp] theorem execSts_keeps (p : Pre) (t : Ty) (z : Size) (d : Opd) (a : Opd) (off : BitVec 16) (s : State) (h : CanonMem s.mem) :
    Keeps (execSts p t z d a off s) := keeps_word h fun c hc => by simp [hc]

@[simp] theorem execLdrs_keeps (p : Pre) (t : Ty) (z : Size) (d : Opd) (a : Opd) (off : BitVec 16) (s : State) (h : CanonMem s.mem) :
    Keeps (execLdrs p t z d a off s) := keeps_word h fun c hc => by simp [hc]

@[simp] theorem execStrs_keeps (p : Pre) (t : Ty) (z : Size) (d : Opd) (a : Opd) (off : BitVec 16) (s : State) (h : CanonMem s.mem) :
    Keeps (execStrs p t z d a off s) := keeps_word h fun c hc => by simp [hc]

@[simp] theorem execPref_keeps (p : Pre) (l1 : Bool) (a : Opd) (off : BitVec 16) (hint : BitVec 3) (s : State) (h : CanonMem s.mem) :
    Keeps (execPref p l1 a off hint s) := keeps_word h fun c hc => by
  refine c.sampled_memWf _ _ (foldl_memWf _ _ _ hc fun s l hs => CanonMem.ite hs ?_)
  have ht : CanonMem (s.translate c.crew.asid c.crew.secure .load (c.ea a off l)).2.mem := by simp [hs]
  split
  · next e =>
    have hu := ht.snd_of_eq e
    repeat' split
    all_goals simp [hu]
  · next e => exact ht.snd_of_eq e

@[simp] theorem execPin_keeps (p : Pre) (d : Opd) (a : Opd) (off : BitVec 16) (s : State) (h : CanonMem s.mem) :
    Keeps (execPin p d a off s) := keeps_word h fun c hc => by simp [hc]

@[simp] theorem execUnpin_keeps (p : Pre) (a : Opd) (off : BitVec 16) (s : State) (h : CanonMem s.mem) :
    Keeps (execUnpin p a off s) := keeps_word h fun c hc => by
  refine c.sampled_memWf _ _ (foldl_memWf _ _ _ hc fun s l hs => CanonMem.ite hs ?_)
  have ht : CanonMem (s.translate c.crew.asid c.crew.secure .load (c.ea a off l)).2.mem := by simp [hs]
  split
  · next e =>
    have hu := ht.snd_of_eq e
    exact hu
  · next e => exact ht.snd_of_eq e

@[simp] theorem execCctlIinv_keeps (p : Pre) (s : State) (h : CanonMem s.mem) : Keeps (execCctlIinv p s) := keeps_word h fun c hc => by
  repeat' split
  all_goals simp [hc]

@[simp] theorem execCctlL1_keeps (p : Pre) (s : State) (h : CanonMem s.mem) : Keeps (execCctlL1 p s) := keeps_word h fun c hc => by
  repeat' split
  all_goals simp [hc]

@[simp] theorem execCctlEvict_keeps (p : Pre) (a : Opd) (off : BitVec 16) (s : State) (h : CanonMem s.mem) :
    Keeps (execCctlEvict p a off s) := keeps_word h fun c hc => by simp [hc]

@[simp] theorem execCctlFlush_keeps (p : Pre) (a : Opd) (off : BitVec 16) (s : State) (h : CanonMem s.mem) :
    Keeps (execCctlFlush p a off s) := keeps_word h fun c hc => by simp [hc]

@[simp] theorem execRrot_keeps (p : Pre) (bwd : Bool) (a : Opd) (b : Opd) (n : BitVec 12) (s : State) (h : CanonMem s.mem) :
    Keeps (execRrot p bwd a b n s) := by
  unfold execRrot
  split
  · rintro u ⟨⟩
  next c e =>
  have hc := CanonMem.of_ctx? e h
  have hr (body : Ctx → Out) (hb : (body c).MemWf) : CanonMem (c.run (.rrot p bwd a b n) body).mem := c.run_memWf _ _ (fun _ => hb) hc
  refine keeps_next (CanonMem.ite (State.tryMatch_memWf _ _ (hr _ ?_)) (hr _ ?_))
  all_goals simp [hc]

@[simp] theorem execRrotMatch_keeps (crew : ℕ) (s : State) (h : CanonMem s.mem) : Keeps (execRrotMatch crew s) := by
  refine keeps_next ?_
  repeat' split
  all_goals simp [h]

@[simp] theorem execFence_keeps (p : Pre) (sc : Scope) (s : State) (h : CanonMem s.mem) : Keeps (execFence p sc s) := keeps_word h fun c hc => by
  repeat' split
  all_goals simp [hc]

@[simp] theorem execAtom_keeps (p : Pre) (t : Ty) (op : AtomOp) (d : Opd) (a : Opd) (b : Opd) (s : State) (h : CanonMem s.mem) :
    Keeps (execAtom p t op d a b s) := keeps_word h fun c hc => by simp [hc]

@[simp] theorem execAcas_keeps (p : Pre) (t : Ty) (d : Opd) (a : Opd) (b : Opd) (e : Opd) (s : State) (h : CanonMem s.mem) :
    Keeps (execAcas p t d a b e s) := keeps_word h fun c hc => by simp [hc]

@[simp] theorem execGsadd_keeps (p : Pre) (a : Opd) (b : Opd) (s : State) (h : CanonMem s.mem) :
    Keeps (execGsadd p a b s) := keeps_word h fun c hc => by simp [hc]

@[simp] theorem execGsflush_keeps (p : Pre) (a : Opd) (b : Opd) (s : State) (h : CanonMem s.mem) :
    Keeps (execGsflush p a b s) := keeps_word h fun c hc => by simp [hc]

@[simp] theorem execGsflushAll_keeps (p : Pre) (s : State) (h : CanonMem s.mem) : Keeps (execGsflushAll p s) := keeps_word h fun c hc => by simp [hc]

@[simp] theorem execWait_keeps (p : Pre) (ld : BitVec 4) (st : BitVec 4) (cp : BitVec 4) (tl : BitVec 4) (s : State) (h : CanonMem s.mem) :
    Keeps (execWait p ld st cp tl s) := keeps_word h fun c hc => by
  dsimp only
  repeat' split
  all_goals simp [hc]

@[simp] theorem execBarSync_keeps (p : Pre) (b : Opd) (n : BitVec 4) (s : State) (h : CanonMem s.mem) :
    Keeps (execBarSync p b n s) := keeps_word h fun c hc => by simp [hc]

@[simp] theorem execBarArv_keeps (p : Pre) (b : Opd) (n : BitVec 4) (s : State) (h : CanonMem s.mem) :
    Keeps (execBarArv p b n s) := keeps_word h fun c hc => by simp [hc]

@[simp] theorem execCbarSync_keeps (p : Pre) (b : Opd) (n : BitVec 4) (s : State) (h : CanonMem s.mem) :
    Keeps (execCbarSync p b n s) := keeps_word h fun c hc => by simp [hc]

@[simp] theorem execCbarArv_keeps (p : Pre) (b : Opd) (n : BitVec 4) (s : State) (h : CanonMem s.mem) :
    Keeps (execCbarArv p b n s) := keeps_word h fun c hc => by simp [hc]

@[simp] theorem execTbinit_keeps (p : Pre) (a : Opd) (b : Opd) (s : State) (h : CanonMem s.mem) :
    Keeps (execTbinit p a b s) := keeps_word h fun c hc => by simp [hc]

@[simp] theorem execTbarriveLane_keeps (p : Pre) (sc : Scope) (a : Opd) (s : State) (h : CanonMem s.mem) :
    Keeps (execTbarriveLane p sc a s) := keeps_word h fun c hc => Out.memWf_ite hc (Out.memWf_ite Out.memWf_stall (Ctx.doneOr_memWf _ _ (foldl_memWf _ _ _
  (foldl_fst_memWf _ _ (c.s0, c.tbFaults a) hc fun _ _ hq => by simp [hq]) fun _ _ hs => by simp [hs])))

@[simp] theorem execTbarrivePath_keeps (p : Pre) (sc : Scope) (a : Opd) (s : State) (h : CanonMem s.mem) :
    Keeps (execTbarrivePath p sc a s) := keeps_word h fun c hc => by
  dsimp only
  repeat' split
  all_goals simp [hc]

@[simp] theorem execTbexpect_keeps (p : Pre) (a : Opd) (b : Opd) (s : State) (h : CanonMem s.mem) :
    Keeps (execTbexpect p a b s) := keeps_word h fun c hc => by simp [hc]

@[simp] theorem execTbwait_keeps (p : Pre) (sc : Scope) (a : Opd) (b : Opd) (s : State) (h : CanonMem s.mem) :
    Keeps (execTbwait p sc a b s) := keeps_word h fun c hc => by
  dsimp only
  repeat' split
  all_goals simp [hc]

@[simp] theorem execSpawn_keeps (p : Pre) (d : Opd) (a : Opd) (b : Opd) (s : State) (h : CanonMem s.mem) :
    Keeps (execSpawn p d a b s) := keeps_word h fun c hc => Out.memWf_ite hc (Out.memWf_ite Out.memWf_stall (c.turns_memWf _ (fun s l => c.spawnLane_memWf d a b s l) hc))

@[simp] theorem execJoin_keeps (p : Pre) (a : Opd) (s : State) (h : CanonMem s.mem) : Keeps (execJoin p a s) := keeps_word h fun c hc => by
  repeat' split
  all_goals simp [hc]

@[simp] theorem execQres_keeps (p : Pre) (d : Opd) (a : Opd) (b : Opd) (s : State) (h : CanonMem s.mem) :
    Keeps (execQres p d a b s) := keeps_word h fun c hc => c.turns_memWf _ (fun s l => c.qresLane_memWf d a b s l) hc

@[simp] theorem execQcommit_keeps (p : Pre) (a : Opd) (b : Opd) (n : Opd) (s : State) (h : CanonMem s.mem) :
    Keeps (execQcommit p a b n s) := keeps_word h fun c hc => Out.memWf_ite hc (Out.memWf_ite Out.memWf_stall (c.turns_memWf _ (fun s l => c.qcommitLane_memWf a b n s l) hc))

@[simp] theorem execQpop_keeps (p : Pre) (t : Ty) (d : Opd) (n : BitVec 2) (s : State) (h : CanonMem s.mem) :
    Keeps (execQpop p t d n s) := keeps_word h fun c hc => by
  refine Out.memWf_ite hc (Out.memWf_ite (by simp [hc]) (Out.memWf_ite hc ?_))
  rw [Out.memWf_done, State.modTeam_mem]
  exact foldl_memWf _ _ _ hc fun s x hs => by simp [hs]

@[simp] theorem execQpeek_keeps (p : Pre) (d : Opd) (n : BitVec 2) (s : State) (h : CanonMem s.mem) : Keeps (execQpeek p d n s) := keeps_word h fun c hc => by
  repeat' split
  all_goals simp [hc]

@[simp] theorem execTrec_keeps (p : Pre) (t : Ty) (a : Opd) (s : State) (h : CanonMem s.mem) : Keeps (execTrec p t a s) := keeps_word h fun c hc => by simp [hc]

@[simp] theorem execTspan_keeps (p : Pre) (s : State) (h : CanonMem s.mem) : Keeps (execTspan p s) := keeps_word h fun c hc => by simp [hc]

@[simp] theorem execTspanRc_keeps (p : Pre) (a : Opd) (b : Opd) (s : State) (h : CanonMem s.mem) :
    Keeps (execTspanRc p a b s) := keeps_word h fun c hc => by simp [hc]

@[simp] theorem execTspanArea_keeps (p : Pre) (a : Opd) (b : Opd) (s : State) (h : CanonMem s.mem) :
    Keeps (execTspanArea p a b s) := keeps_word h fun c hc => by simp [hc]

@[simp] theorem execTpop_keeps (p : Pre) (t : Ty) (d : Opd) (s : State) (h : CanonMem s.mem) : Keeps (execTpop p t d s) := keeps_word h fun c hc => by
  split
  · next o e => exact c.tapeGate_memWf hc o e
  extract_lets k r waits
  have hr : CanonMem r.1.mem := by
    refine foldl_fst_memWf _ _ (c.s0, [], []) hc fun q l hq => ?_
    have hp := c.popPlan_memWf k q.1 l hq
    split
    · next e => exact hp.snd_of_eq e
    · next e => exact hp.snd_of_eq e
  refine Out.memWf_ite Out.memWf_stall ?_
  split
  next e =>
  have hu : CanonMem (if waits.isEmpty then ((0, r.1) : ℕ × State) else c.newEntry r.1 false waits (fun _ => [c.addr]) ⟨1, 0, 0, 0⟩).2.mem := by
    split
    · exact hr
    · simp [hr]
  replace hu := hu.snd_of_eq e
  refine (fun (hv : CanonMem _) => Out.memWf_ite ((Out.memWf_done _).2 hv) ((Out.memWf_raise _ _ _).2 hv)) (foldl_memWf _ _ _ hu fun s x hs => ?_)
  dsimp only
  repeat' split
  all_goals simp [hs]

@[simp] theorem execTapeRefillDone_keeps (crew : ℕ) (sid : Sid) (lane : ℕ) (s : State) (h : CanonMem s.mem) : Keeps (execTapeRefillDone crew sid lane s) := by
  refine keeps_next ?_
  split
  · split
    · exact h
    refine CanonMem.ite h (CanonMem.ite (by simp [h]) ?_)
    split
    · extract_lets tp k
      split
      · split
        · next e => exact (State.refillRead_memWf _ _ _ _ _ _ h).snd_of_eq e
        · next e =>
          have hu := (State.refillRead_memWf _ _ _ _ _ _ h).snd_of_eq e
          simp [hu]
      · split
        · split
          · next e => exact (State.refillRead_memWf _ _ _ _ _ _ h).snd_of_eq e
          · next e =>
            have hu := (State.refillRead_memWf _ _ _ _ _ _ h).snd_of_eq e
            simp [hu]
        · simp [h]
    · exact h
  · exact h

@[simp] theorem execTret_keeps (p : Pre) (s : State) (h : CanonMem s.mem) : Keeps (execTret p s) := keeps_word h fun c hc => by
  have hl (l : List ℕ) : CanonMem (l.foldl (fun s l => s.tapeError c.crew c.sid l) c.s0).mem := foldl_memWf _ _ _ hc fun s l hs => by simp [hs]
  have hf : CanonMem (c.forLanes (fun l s => s.setShare c.crew c.sid l { Tape.ofBytes (s.shareBytes c.crew c.sid l) with recd := false }.bytes) c.s0).mem :=
    foldl_memWf _ _ _ hc fun s l hs => by simp [hs]
  exact Out.memWf_ite (by simp [hc]) (Out.memWf_ite Out.memWf_stall (Out.memWf_ite (hl _) (c.traceTransfer_memWf _ _ hf)))

@[simp] theorem execRaygen_keeps (p : Pre) (d : Opd) (a : Opd) (b : Opd) (e : Opd) (s : State) (h : CanonMem s.mem) :
    Keeps (execRaygen p d a b e s) := keeps_word h fun c hc => by simp [hc]

@[simp] theorem execTrace_keeps (p : Pre) (d : Opd) (a : Opd) (b : Opd) (s : State) (h : CanonMem s.mem) :
    Keeps (execTrace p d a b s) := keeps_word h fun c hc => by simp [hc]

@[simp] theorem execTraceAdjTri_keeps (p : Pre) (a : Opd) (b : Opd) (e : Opd) (s : State) (h : CanonMem s.mem) :
    Keeps (execTraceAdjTri p a b e s) := keeps_word h fun c hc => by simp [hc]

@[simp] theorem execTraceAdjPatch_keeps (p : Pre) (a : Opd) (b : Opd) (e : Opd) (s : State) (h : CanonMem s.mem) :
    Keeps (execTraceAdjPatch p a b e s) := keeps_word h fun c hc => by simp [hc]

@[simp] theorem execTsamp_keeps (p : Pre) (d : Opd) (a : Opd) (b : Opd) (e : Opd) (s : State) (h : CanonMem s.mem) :
    Keeps (execTsamp p d a b e s) := keeps_word h fun c hc => by simp [hc]

@[simp] theorem execTsampAdj_keeps (p : Pre) (d : Opd) (a : Opd) (b : Opd) (e : Opd) (s : State) (h : CanonMem s.mem) :
    Keeps (execTsampAdj p d a b e s) := keeps_word h fun c hc => by simp [hc]

@[simp] theorem execEsamp_keeps (p : Pre) (d : Opd) (a : Opd) (b : Opd) (e : Opd) (s : State) (h : CanonMem s.mem) :
    Keeps (execEsamp p d a b e s) := keeps_word h fun c hc => by
  repeat' split
  all_goals simp [hc]

@[simp] theorem execRenderResult_keeps (crew : ℕ) (sid : Sid) (entry : ℕ) (s : State) (h : CanonMem s.mem) : Keeps (execRenderResult crew sid entry s) := by
  refine keeps_next ?_
  split
  · exact CanonMem.ite h (foldl_memWf _ _ _ h fun _ _ hs => State.renderLane_memWf _ _ _ _ _ _ hs)
  · exact h

@[simp] theorem execTres_keeps (p : Pre) (n : BitVec 5) (a : Opd) (b : Opd) (s : State) (h : CanonMem s.mem) :
    Keeps (execTres p n a b s) := keeps_word h fun c hc => by
  dsimp only
  repeat' split
  all_goals simp -implicitDefEqProofs [hc]

@[simp] theorem execTfetch_keeps (p : Pre) (sc : Scope) (core : BitVec 2) (grp : BitVec 4) (r : BitVec 5) (n : BitVec 8) (s : State) (h : CanonMem s.mem) :
    Keeps (execTfetch p sc core grp r n s) := keeps_word h fun c hc => by simp [hc]

@[simp] theorem execTlds_keeps (p : Pre) (sc : Scope) (core : BitVec 2) (grp : BitVec 4) (r : BitVec 5) (n : BitVec 8) (s : State) (h : CanonMem s.mem) :
    Keeps (execTlds p sc core grp r n s) := keeps_word h fun c hc => by simp [hc]

@[simp] theorem execTmma_keeps (p : Pre) (core : BitVec 2) (tile : BitVec 4) (ra : BitVec 5) (rb : BitVec 5) (n : BitVec 8) (lehr : Bool) (zi : Bool) (bnd : Bool) (w64 : Bool) (s : State) (h : CanonMem s.mem) :
    Keeps (execTmma p core tile ra rb n lehr zi bnd w64 s) := keeps_word h fun c hc => by
  split
  · exact hc
  · exact Out.memWf_ite hc (Out.memWf_ite Out.memWf_stall (Out.memWf_ite (c.tileFault_memWf _ hc) (c.tileAccept_memWf _ _ (fun _ _ hs => by simp [hs]) hc)))

@[simp] theorem execTileStep_keeps (crew : ℕ) (rank : ℕ) (tile : ℕ) (s : State) (h : CanonMem s.mem) : Keeps (execTileStep crew rank tile s) := by
  refine keeps_next ?_
  dsimp only
  repeat' split
  all_goals simp [h]

@[simp] theorem execTzero_keeps (p : Pre) (a64 : Bool) (core : BitVec 2) (tile : BitVec 4) (s : State) (h : CanonMem s.mem) :
    Keeps (execTzero p a64 core tile s) := keeps_word h fun c hc => by simp [hc]

@[simp] theorem execTcvt_keeps (p : Pre) (rm : Rm) (core : BitVec 2) (tile : BitVec 4) (tgt : BitVec 5) (pol : BitVec 8) (s : State) (h : CanonMem s.mem) :
    Keeps (execTcvt p rm core tile tgt pol s) := keeps_word h fun c hc => by simp [hc]

@[simp] theorem execTstbEnt_keeps (p : Pre) (core : BitVec 2) (tile : BitVec 4) (x : BitVec 6) (s : State) (h : CanonMem s.mem) :
    Keeps (execTstbEnt p core tile x s) := keeps_word h fun c hc => by simp [hc]

@[simp] theorem execTstbFull_keeps (p : Pre) (core : BitVec 2) (tile : BitVec 4) (x : BitVec 6) (s : State) (h : CanonMem s.mem) :
    Keeps (execTstbFull p core tile x s) := keeps_word h fun c hc => by simp [hc]

@[simp] theorem execTldbEnt_keeps (p : Pre) (core : BitVec 2) (tile : BitVec 4) (x : BitVec 6) (s : State) (h : CanonMem s.mem) :
    Keeps (execTldbEnt p core tile x s) := keeps_word h fun c hc => by simp [hc]

@[simp] theorem execTldbFull_keeps (p : Pre) (core : BitVec 2) (tile : BitVec 4) (x : BitVec 6) (s : State) (h : CanonMem s.mem) :
    Keeps (execTldbFull p core tile x s) := keeps_word h fun c hc => by simp [hc]

@[simp] theorem execTbsetThr_keeps (p : Pre) (core : BitVec 2) (tile : BitVec 4) (x : BitVec 6) (s : State) (h : CanonMem s.mem) :
    Keeps (execTbsetThr p core tile x s) := keeps_word h fun c hc => by simp [hc]

@[simp] theorem execTbsetHdr_keeps (p : Pre) (core : BitVec 2) (tile : BitVec 4) (x : BitVec 6) (s : State) (h : CanonMem s.mem) :
    Keeps (execTbsetHdr p core tile x s) := keeps_word h fun c hc => by simp [hc]

@[simp] theorem execTbsetAll_keeps (p : Pre) (core : BitVec 2) (tile : BitVec 4) (x : BitVec 6) (s : State) (h : CanonMem s.mem) :
    Keeps (execTbsetAll p core tile x s) := keeps_word h fun c hc => by simp [hc]

@[simp] theorem execTsave_keeps (p : Pre) (core : BitVec 2) (tile : BitVec 4) (x : BitVec 6) (s : State) (h : CanonMem s.mem) :
    Keeps (execTsave p core tile x s) := keeps_word h fun c hc => by simp [hc]

@[simp] theorem execTresumeCont_keeps (p : Pre) (fromRec : Bool) (core : BitVec 2) (tile : BitVec 4) (x : BitVec 6) (s : State) (h : CanonMem s.mem) :
    Keeps (execTresumeCont p fromRec core tile x s) := keeps_word h fun c hc => by
  repeat' split
  all_goals simp [hc]

@[simp] theorem execTresumeWide_keeps (p : Pre) (fromRec : Bool) (core : BitVec 2) (tile : BitVec 4) (x : BitVec 6) (s : State) (h : CanonMem s.mem) :
    Keeps (execTresumeWide p fromRec core tile x s) := keeps_word h fun c hc => by
  repeat' split
  all_goals simp [hc]

@[simp] theorem execTresumeRestart_keeps (p : Pre) (fromRec : Bool) (core : BitVec 2) (tile : BitVec 4) (x : BitVec 6) (s : State) (h : CanonMem s.mem) :
    Keeps (execTresumeRestart p fromRec core tile x s) := keeps_word h fun c hc => by
  repeat' split
  all_goals simp [hc]

@[simp] theorem execTrap_keeps (p : Pre) (imm : BitVec 20) (s : State) (h : CanonMem s.mem) : Keeps (execTrap p imm s) := keeps_word h fun c hc => by
  repeat' split
  all_goals simp [hc]

@[simp] theorem execBrk_keeps (p : Pre) (imm : BitVec 20) (s : State) (h : CanonMem s.mem) : Keeps (execBrk p imm s) := keeps_word h fun c hc => by
  repeat' split
  all_goals simp [hc]

@[simp] theorem execHret_keeps (p : Pre) (s : State) (h : CanonMem s.mem) : Keeps (execHret p s) := keeps_word h fun c hc => by
  repeat' split
  all_goals simp [hc]

@[simp] theorem execSnap_keeps (p : Pre) (a : Opd) (s : State) (h : CanonMem s.mem) : Keeps (execSnap p a s) := keeps_word h fun c hc => by
  repeat' split
  all_goals simp [hc]

@[simp] theorem execWrsr_keeps (p : Pre) (t : Ty) (d : BitVec 10) (a : Opd) (s : State) (h : CanonMem s.mem) :
    Keeps (execWrsr p t d a s) := keeps_word h fun c hc => by
  dsimp only
  repeat' split
  all_goals simp -implicitDefEqProofs [hc]

@[simp] theorem execSld_keeps (p : Pre) (t : Ty) (z : SldSize) (inc : Bool) (d : Opd) (a : Opd) (off : BitVec 16) (s : State) (h : CanonMem s.mem) :
    Keeps (execSld p t z inc d a off s) := keeps_word h fun c hc => by
  dsimp only
  repeat' split
  all_goals simp [hc]

@[simp] theorem execQpush_keeps (p : Pre) (a : Opd) (n : BitVec 2) (s : State) (h : CanonMem s.mem) : Keeps (execQpush p a n s) := keeps_word h fun c hc => by
  repeat' split
  all_goals simp [hc]

@[simp] theorem execSloop_keeps (p : Pre) (a : Opd) (off : BitVec 30) (s : State) (h : CanonMem s.mem) :
    Keeps (execSloop p a off s) := keeps_word h fun c hc => by
  dsimp only
  repeat' split
  all_goals simp [hc]

@[simp] theorem execIssueSlot_keeps (die : ℕ) (cluster : ℕ) (core : ℕ) (quad : ℕ) (ticks : ℕ) (s : State) (h : CanonMem s.mem) :
    Keeps (execIssueSlot die cluster core quad ticks s) := by
  have hp : CanonMem (s.pass die (s.ticks die ticks)).mem := by simp [h]
  refine keeps_next (CanonMem.ite hp ?_)
  have hb := State.atBoundaries_memWf _ ((s.pass die (s.ticks die ticks)).quadrant die cluster core quad) hp
  dsimp only
  split
  · next e =>
    have hu := CanonMem.snd_of_eq (by simp [hb]) e
    simp [hu]
  · next e =>
    have hu := CanonMem.snd_of_eq (by simp [hb]) e
    simp [hu]

@[simp] theorem execLoneIssueSlot_keeps (die : ℕ) (cluster : ℕ) (core : ℕ) (quad : ℕ) (ticks : ℕ) (s : State) (h : CanonMem s.mem) :
    Keeps (execLoneIssueSlot die cluster core quad ticks s) := by
  have hp : CanonMem (s.pass die (s.ticks die ticks)).mem := by simp [h]
  refine keeps_next (CanonMem.ite hp ?_)
  have hb := State.atBoundaries_memWf _ ((s.pass die (s.ticks die ticks)).quadrant die cluster core quad) hp
  dsimp only
  split
  · next e =>
    have hu := CanonMem.snd_of_eq (by simp [hb]) e
    simp [hu]
  · next e =>
    have hu := CanonMem.snd_of_eq (by simp [hb]) e
    split
    · exact hu
    split
    · exact hu
    refine CanonMem.ite (by simp [hu]) ?_
    rw [State.useSlot_mem]
    exact State.grantTo_memWf _ _ _ _ _ (foldl_memWf _ _ _ (by simp [hu]) fun _ _ hs => by simp [hs])

@[simp] theorem execGafferIssue_keeps (die : ℕ) (cluster : ℕ) (ticks : ℕ) (s : State) (h : CanonMem s.mem) : Keeps (execGafferIssue die cluster ticks s) := by
  have hp : CanonMem (s.pass die (s.ticks die ticks)).mem := by simp [h]
  refine keeps_next (CanonMem.ite hp ?_)
  have hb := State.atBoundaries_memWf _ ((s.pass die (s.ticks die ticks)).contexts die cluster) hp
  dsimp only
  split
  · next e =>
    have hu := CanonMem.snd_of_eq (by simp [hb]) e
    simp [hu]
  · next e =>
    have hu := CanonMem.snd_of_eq (by simp [hb]) e
    split <;> simp [hu]

@[simp] theorem execWatchdogExpiry_keeps (crew : ℕ) (sid : Sid) (lane : ℕ) (s : State) (h : CanonMem s.mem) : Keeps (execWatchdogExpiry crew sid lane s) := by
  refine keeps_next ?_
  dsimp only
  repeat' split
  all_goals simp [h]

@[simp] theorem execSend_keeps (crew : ℕ) (sid : Sid) (entry : ℕ) (lane : ℕ) (s : State) (h : CanonMem s.mem) : Keeps (execSend crew sid entry lane s) := by
  refine keeps_next ?_
  split
  · next c t e _ _ _ =>
    refine CanonMem.ite h ?_
    have hp : CanonMem (s.portRoom (corePort (c.coreOf sid))).2.mem := by simp [h]
    split
    · next e => exact hp.snd_of_eq e
    · next e =>
      have hu := hp.snd_of_eq e
      dsimp only
      repeat' split
      all_goals simp [hu]
  · exact h

@[simp] theorem execHit_keeps (id : ℕ) (s : State) (h : CanonMem s.mem) : Keeps (execHit id s) := by
  refine keeps_next ?_
  dsimp only
  repeat' split
  all_goals simp [h]

@[simp] theorem execRead_keeps (a : AccRef) (s : State) (h : CanonMem s.mem) : Keeps (execRead a s) := by
  refine keeps_next ?_
  repeat' split
  all_goals simp [h]

@[simp] theorem execChange_keeps (a : AccRef) (s : State) (h : CanonMem s.mem) : Keeps (execChange a s) := by
  refine keeps_next ?_
  repeat' split
  all_goals simp [h]

@[simp] theorem execAccept_keeps (id : ℕ) (spill : ℕ) (s : State) (h : CanonMem s.mem) : Keeps (execAccept id spill s) := by
  refine keeps_next ?_
  split
  · exact h
  refine CanonMem.ite h ?_
  dsimp only
  split
  · exact CanonMem.ite (by simp [h]) h
  · next x u e =>
    obtain ⟨y, _, hy⟩ := List.exists_of_findSome?_eq_some e
    obtain ⟨v, hv, hvu⟩ := Option.map_eq_some_iff.1 hy
    obtain ⟨rfl, rfl⟩ := Prod.mk.inj hvu
    have hu := State.contribute_memWf _ _ _ _ h _ hv
    repeat' split
    all_goals simp [hu]

@[simp] theorem execDeliver_keeps (id : ℕ) (s : State) (h : CanonMem s.mem) : Keeps (execDeliver id s) := by
  refine keeps_next ?_
  dsimp only
  repeat' split
  all_goals simp [h]

@[simp] theorem execFill_keeps (core : ℕ) (line : ℕ) (asid : ℕ) (secure : Bool) (sec : BitVec 4) (s : State) (h : CanonMem s.mem) :
    Keeps (execFill core line asid secure sec s) := by
  refine keeps_next ?_
  cases e : s.fillVa core line asid secure sec false with
  | none => exact h
  | some u => exact (State.fillVa_mem _ _ _ _ _ _ _ _ e).symm ▸ h

@[simp] theorem execDrop_keeps (core : ℕ) (line : ℕ) (s : State) (h : CanonMem s.mem) : Keeps (execDrop core line s) := keeps_next (by simp [h])

@[simp] theorem execSpeculativeLoad_keeps (core : ℕ) (line : ℕ) (asid : ℕ) (secure : Bool) (sec : BitVec 4) (s : State) (h : CanonMem s.mem) :
    Keeps (execSpeculativeLoad core line asid secure sec s) := by
  refine keeps_next (CanonMem.ite ?_ h)
  split
  · next u e =>
    have hu := State.fillVa_mem _ _ _ _ _ _ _ _ e
    simp [hu, h]
  · exact h

@[simp] theorem execMemsideWriteback_keeps (die : ℕ) (slice : ℕ) (line : ℕ) (s : State) (h : CanonMem s.mem) :
    Keeps (execMemsideWriteback die slice line s) := by
  refine keeps_next ?_
  repeat' split
  all_goals simp [h]

@[simp] theorem execEngineScratchWrite_keeps (id : ℕ) (s : State) (h : CanonMem s.mem) : Keeps (execEngineScratchWrite id s) := by
  refine keeps_next ?_
  dsimp only
  repeat' split
  all_goals simp [h]

@[simp] theorem execCopyAccept_keeps (crew : ℕ) (sid : Sid) (lane : ℕ) (s : State) (h : CanonMem s.mem) : Keeps (execCopyAccept crew sid lane s) := by
  refine keeps_next ?_
  split
  · refine CanonMem.ite h (CanonMem.ite h (CanonMem.ite h (CanonMem.ite h (CanonMem.ite (by simp [h]) ?_))))
    extract_lets va
    split
    · next e =>
      have hu := (State.loadVa_memWf _ _ _ _ h).snd_of_eq e
      simp [hu]
    · next e =>
      have hu := (State.loadVa_memWf _ _ _ _ h).snd_of_eq e
      repeat' split
      all_goals simp [hu]
  · exact h

@[simp] theorem execCopyComplete_keeps (id : ℕ) (s : State) (h : CanonMem s.mem) : Keeps (execCopyComplete id s) := by
  refine keeps_next ?_
  split
  · exact h
  next k _ =>
  have hs := s.sendWrites_memWf k h
  refine CanonMem.ite h (State.complete_memWf _ _ _ _ _ ?_)
  repeat' split
  all_goals simp [hs]

@[simp] theorem execCollectivePair_keeps (id : ℕ) (remote : List Remote) (s : State) (h : CanonMem s.mem) : Keeps (execCollectivePair id remote s) := by
  refine keeps_next ?_
  dsimp only
  repeat' split
  all_goals simp [h]

@[simp] theorem execPeerTimeout_keeps (id : ℕ) (s : State) (h : CanonMem s.mem) : Keeps (execPeerTimeout id s) := keeps_next (by simp [h])

@[simp] theorem execCrewPlace_keeps (die : ℕ) (cluster : ℕ) (pick : Pick) (s : State) (h : CanonMem s.mem) : Keeps (execCrewPlace die cluster pick s) := by
  refine keeps_next ?_
  dsimp only
  repeat' split
  all_goals simp [h]

@[simp] theorem execCrewSave_keeps (crew : ℕ) (s : State) (h : CanonMem s.mem) : Keeps (execCrewSave crew s) := by
  refine keeps_next ?_
  split
  · exact h
  split
  · exact h
  refine CanonMem.ite h ?_
  have hb (c) : CanonMem (s.saveBegun c).mem := by simp [h]
  dsimp only
  split
  · exact h
  refine CanonMem.ite (by simp [h]) ?_
  split
  · exact h
  · next e =>
    have hu := storeAll_memWf _ _ _ (hb _) _ e
    simp [hu]

@[simp] theorem execSaveTimeout_keeps (crew : ℕ) (s : State) (h : CanonMem s.mem) : Keeps (execSaveTimeout crew s) := by
  refine keeps_next ?_
  split
  · exact h
  split
  · exact h
  refine CanonMem.ite h (foldl_memWf _ _ _ (foldl_memWf _ _ _ h fun _ _ hs => ?_) fun _ _ hs => ?_)
  · exact State.loseCrew_memWf _ _ _ hs
  · simp [hs]

@[simp] theorem execCrewExit_keeps (crew : ℕ) (s : State) (h : CanonMem s.mem) : Keeps (execCrewExit crew s) := by
  refine keeps_next ?_
  dsimp only
  repeat' split
  all_goals simp [h]

@[simp] theorem execUrgencyMark_keeps (crew : ℕ) (s : State) (h : CanonMem s.mem) : Keeps (execUrgencyMark crew s) := by
  refine keeps_next ?_
  repeat' split
  all_goals simp [h]

@[simp] theorem execQueueEnable_keeps (who : HostFn) (q : ℕ) (s : State) (h : CanonMem s.mem) : Keeps (execQueueEnable who q s) := keeps_next (by simp [h])

@[simp] theorem execQueueDisable_keeps (who : HostFn) (q : ℕ) (s : State) (h : CanonMem s.mem) : Keeps (execQueueDisable who q s) := keeps_next (by simp [h])

@[simp] theorem execTailWrite_keeps (who : HostFn) (q : ℕ) (v : BitVec 32) (s : State) (h : CanonMem s.mem) :
    Keeps (execTailWrite who q v s) := keeps_next (by simp [h])

@[simp] theorem execResume_keeps (who : HostFn) (q : ℕ) (slot : ℕ) (s : State) (h : CanonMem s.mem) :
    Keeps (execResume who q slot s) := keeps_next (by simp [h])

@[simp] theorem execResumeDrop_keeps (who : HostFn) (q : ℕ) (slot : ℕ) (s : State) (h : CanonMem s.mem) :
    Keeps (execResumeDrop who q slot s) := keeps_next (State.onQueue_memWf _ _ _ _ h fun _ => State.dropSlot_memWf _ _ _ h)

@[simp] theorem execAsidInvalidate_keeps (asid : BitVec 16) (s : State) (h : CanonMem s.mem) : Keeps (execAsidInvalidate asid s) := by
  refine keeps_next ?_
  repeat' split
  all_goals simp [h]

@[simp] theorem execInvalidateComplete_keeps (asid : BitVec 16) (s : State) (h : CanonMem s.mem) : Keeps (execInvalidateComplete asid s) := by
  refine keeps_next ?_
  repeat' split
  all_goals simp [h]

@[simp] theorem execContainmentReset_keeps (who : HostFn) (die : ℕ) (mask : Word) (s : State) (h : CanonMem s.mem) :
    Keeps (execContainmentReset who die mask s) := by
  refine keeps_next ?_
  repeat' split
  all_goals simp [h]

@[simp] theorem execMemoryCounterClear_keeps (die : ℕ) (off : ℕ) (v : Word) (s : State) (h : CanonMem s.mem) : Keeps (execMemoryCounterClear die off v s) := by
  refine keeps_next ?_
  repeat' split
  all_goals simp [h]

@[simp] theorem execCellWrite_keeps (who : HostFn) (die : ℕ) (off : ℕ) (v : Word) (s : State) (h : CanonMem s.mem) : Keeps (execCellWrite who die off v s) := by
  refine keeps_next ?_
  repeat' split
  all_goals simp [h]

@[simp] theorem execRegisterWrite_keeps (who : HostFn) (off : ℕ) (v : Word) (s : State) (h : CanonMem s.mem) :
    Keeps (execRegisterWrite who off v s) := keeps_next (by simp [h])

@[simp] theorem execSnapshotMessage_keeps (die : ℕ) (s : State) (h : CanonMem s.mem) : Keeps (execSnapshotMessage die s) := by
  refine keeps_next ?_
  repeat' split
  all_goals simp [h]

@[simp] theorem execFaultRecordPost_keeps (secure : Bool) (s : State) (h : CanonMem s.mem) : Keeps (execFaultRecordPost secure s) := by
  refine keeps_next ?_
  dsimp only
  repeat' split
  all_goals simp [h]

@[simp] theorem execTraceControlWrite_keeps (who : HostFn) (core : ℕ) (v : Word) (s : State) (h : CanonMem s.mem) :
    Keeps (execTraceControlWrite who core v s) := by
  refine keeps_next ?_
  repeat' split
  all_goals simp [h]

@[simp] theorem execPeerLinkDown_keeps (peer : ℕ) (s : State) (h : CanonMem s.mem) :
    Keeps (execPeerLinkDown peer s) := keeps_next (CanonMem.ite h (foldl_memWf _ _ _ (foldl_memWf _ _ _ h fun _ _ hs => by simp [hs]) fun _ _ hs => by simp [hs]))

@[simp] theorem execUalinkLinkUp_keeps (peer : ℕ) (s : State) (h : CanonMem s.mem) : Keeps (execUalinkLinkUp peer s) := keeps_next (by simp [h])

@[simp] theorem execMessageDrop_keeps (port : ℕ) (msg : ℕ) (s : State) (h : CanonMem s.mem) : Keeps (execMessageDrop port msg s) := by
  refine keeps_next ?_
  dsimp only
  repeat' split
  all_goals simp [h]

@[simp] theorem execReplayResend_keeps (port : ℕ) (s : State) (h : CanonMem s.mem) : Keeps (execReplayResend port s) := by
  refine keeps_next ?_
  repeat' split
  all_goals simp [h]

@[simp] theorem execPcieLinkDown_keeps (link : ℕ) (s : State) (h : CanonMem s.mem) : Keeps (execPcieLinkDown link s) := keeps_next (by simp [h])

@[simp] theorem execPcieLinkTrain_keeps (link : ℕ) (gen : ℕ) (width : ℕ) (s : State) (h : CanonMem s.mem) : Keeps (execPcieLinkTrain link gen width s) := by
  refine keeps_next ?_
  repeat' split
  all_goals simp [h]

@[simp] theorem execPcieCompletionTimeout_keeps (a : AccRef) (s : State) (h : CanonMem s.mem) : Keeps (execPcieCompletionTimeout a s) := by
  refine keeps_next ?_
  repeat' split
  all_goals simp [h]

@[simp] theorem execBoot_keeps (fw : Firmware) (s : State) (h : CanonMem s.mem) : Keeps (execBoot fw s) := by
  refine keeps_next ?_
  dsimp only
  repeat' split
  all_goals simp [h]

@[simp] theorem execAttestationRequest_keeps (nonce : BitVec 256) (s : State) (h : CanonMem s.mem) : Keeps (execAttestationRequest nonce s) := by
  refine keeps_next ?_
  repeat' split
  all_goals simp [h]

@[simp] theorem execThermalTrip_keeps (s : State) (h : CanonMem s.mem) : Keeps (execThermalTrip s) := keeps_next (by simp [h])

@[simp] theorem execPowerLimitReached_keeps (s : State) (h : CanonMem s.mem) : Keeps (execPowerLimitReached s) := keeps_next (by simp [h])

@[simp] theorem execPowerLimitReleased_keeps (s : State) (h : CanonMem s.mem) : Keeps (execPowerLimitReleased s) := keeps_next (by simp [h])

/-- No instruction loses the form: each of them keeps it by its own lemma. -/
theorem keeps_exec (i : Instr) (s : State) (h : CanonMem s.mem) : Keeps (exec i s) := by
  unfold exec
  split
  all_goals simp [h]

/-- A word that does not decode traps at itself, which keeps the form. -/
theorem State.fetchNext_memWf (s u : State) (h : CanonMem s.mem) (e : s.fetchNext = .trapped u) : CanonMem u.mem := by
  unfold State.fetchNext at e
  split at e
  · cases e
  · next c hc =>
    have hm := CanonMem.of_ctx? hc h
    split at e
    · cases e
    · cases e
      exact c.trapWord_memWf _ _ _ hm (by simpa using hm)

/-- A step runs a word, traps at one, or makes the agenda's first move. -/
theorem keeps_step (s : State) (h : CanonMem s.mem) : Keeps (step s) := by
  unfold step
  split
  · split
    · rintro u ⟨⟩
    · next e => exact keeps_next (s.fetchNext_memWf _ h e)
    · exact keeps_exec _ _ h
  · split
    · exact keeps_next h
    · split
      · rintro u ⟨⟩
      · exact keeps_exec _ _ h

/-- Settles O59: whatever a step runs keeps the form, since memory changes only by the two writes that keep it, and by a reset that keeps memory itself. -/
theorem memoryFormKept : Obligations.MemoryFormKept := by
  unfold Obligations.MemoryFormKept
  exact fun s s' h e => keeps_step s h s' e

end Sys2Proof.Machine
end
